-- ==== Sys2Proof/Word.lean ====
section
/-! DEFINITION. The word types of the SV-KN9: bytes, the 32-bit register word, the 64-bit record and value. -/

namespace Sys2Proof

/-- One byte of memory (R5). -/
abbrev Byte := BitVec 8
/-- One vector register of one lane, one die word, one lane mask (R14, R23). -/
abbrev W32 := BitVec 32
/-- One Isien record, one generic address, one slot value (R166, R78, R174). -/
abbrev Word := BitVec 64

end Sys2Proof
end

