-- ==== Sys2Proof/Syntax.lean ====
section
/-! DEFINITION. The instructions and steps of the SV-KN9: one constructor of `Instr` per row of spec/opcode_table.json. -/

namespace Sys2Proof

/-- The TY codes of R169, in the order of their codes 0 to 15. -/
inductive Ty where
  | b32 | b64 | i32 | n32 | i64 | n64 | f16 | bf16 | f32 | f64 | e4m3 | e5m2 | e2m1 | kb | i16x2 | pred
  deriving DecidableEq, Repr

/-- An operand: the kinds of an Isien record (R167), then the three forms a die word names (R204). -/
inductive Opnd where
  /-- The value of the record `d` places back; `d = 0` is an absent operand. -/
  | dist (d : BitVec 13)
  | keep (n : BitVec 8)
  | unif (n : BitVec 8)
  | arg (n : BitVec 8)
  | spec (n : BitVec 8)
  | imm (v : BitVec 13)
  | lit (n : BitVec 13)
  /-- Die word: a vector name (R204). -/
  | vreg (n : BitVec 7)
  /-- Die word: a uniform name (R204). -/
  | ureg (n : BitVec 7)
  /-- Die word: an immediate, already extended (R204). -/
  | dimm (v : Word)
  deriving DecidableEq, Repr

/-- The absent operand (R167: DIST 0). -/
abbrev Opnd.absent : Opnd := .dist 0

/-- The fields of a record below OP (R166). -/
structure Record where
  u : Bool
  ty : Ty
  fn : BitVec 5
  a : Opnd
  b : Opnd
  c : Opnd
  deriving DecidableEq, Repr

/-- Memory orders (R111), in the order of their codes in FN (R183). -/
inductive Order where
  | rx | aq | rl | ar | sq
  deriving DecidableEq, Repr

/-- Scopes (R109), in the order of their codes in FN (R183). -/
inductive Scope where
  | wv | bk | cl | ln | dv | sy
  deriving DecidableEq, Repr

/-- What an access or a transfer meets in the integrity checks of R394: `stage` is the row of R394. -/
inductive Damage where
  | clean
  | corrected (stage : Nat)
  | uncorrectable (stage : Nat)
  deriving DecidableEq, Repr

/-- An access of the management function to a register (R357). -/
inductive RegAccess where
  | read
  | write (value : Word)
  deriving DecidableEq, Repr

/-- An operation a fabric peer sends to this device (R348). -/
inductive PeerOp where
  | store (data : List Byte)
  | push (data : List Byte)
  /-- ATOM code 0 to 9 of R284, or 10 for a compare-and-swap with comparand `c`, at a TY. -/
  | atom (op : Nat) (t : Ty) (b c : Word)
  /-- ATMF: 0 add, 1 min, 2 max, 3 paired exchange (R285). -/
  | atmf (op : Nat) (t : Ty) (b c : Word)
  deriving DecidableEq, Repr

/-- The role of a station (R60), in the order of the codes of R372. -/
inductive Role where
  | head | compute | load | store | chase | stream | steer | writeBack
  deriving DecidableEq, Repr

/-- What a coupling carries: a body record's value, a keep slot's loop-carried value, or an order token (R60, R77). -/
inductive Carried where
  | record (i : Nat)
  | keep (k : Nat)
  | order
  deriving DecidableEq, Repr

/-- A station of a placed region (R59): its lane, replica and role, and the body records it lowers. -/
structure Station where
  lane : Nat
  repl : Nat
  role : Role
  recs : List Nat
  deriving DecidableEq, Repr

/-- A coupling of a placed region (R62): producer and consumer station, consumer port (R372), what it carries,
and whether it carries the high half of a 64-bit value (R61). -/
structure Coupling where
  prod : Nat
  cons : Nat
  port : Nat
  val : Carried
  high : Bool
  deriving DecidableEq, Repr

/-- A placement of a coupled region (R64), as the lowering engine of the die chose it: the replication width W,
the block it lowers (the region, or its variant of that width), and the station graph. -/
structure Placement where
  width : Nat
  block : Nat
  stations : List Station
  couplings : List Coupling
  deriving DecidableEq, Repr

/-- The steps of the device: one constructor per row of spec/opcode_table.json. -/
inductive Instr where
  /-- NOP: Changes nothing and occupies one record position (R248) -/
  | nop (r : Record)
  /-- IADD: Adds integer elements of TY, wrapping or saturating with .sat (R237) -/
  | iadd (r : Record)
  /-- ISUB: Subtracts integer elements of TY, wrapping or saturating with .sat (R237) -/
  | isub (r : Record)
  /-- IMUL: Multiplies integer elements, giving the low half, the high half (.hi) or a saturated product (R237) -/
  | imul (r : Record)
  /-- IMAD: Computes a·b + c on integers, giving the low half, the high half or a saturated result (R237) -/
  | imad (r : Record)
  /-- IDIV: Divides integers toward zero and returns the quotient or, with .rem, the remainder; division by zero does not trap (R238) -/
  | idiv (r : Record)
  /-- IMIN: Returns the element with the smaller integer value (R239) -/
  | imin (r : Record)
  /-- IMAX: Returns the element with the larger integer value (R239) -/
  | imax (r : Record)
  /-- IABS: Returns the absolute value, wrapping or saturating with .sat (R239) -/
  | iabs (r : Record)
  /-- AND: Computes the bitwise and at the width of TY (R240) -/
  | and (r : Record)
  /-- OR: Computes the bitwise or at the width of TY (R240) -/
  | or (r : Record)
  /-- XOR: Computes the bitwise exclusive or at the width of TY (R240) -/
  | xor (r : Record)
  /-- ANDN: Computes a and not b, bit by bit (R240) -/
  | andn (r : Record)
  /-- SHL: Shifts each element left; a shift of n or more gives 0 (R241) -/
  | shl (r : Record)
  /-- SHR: Shifts each element right, logically or arithmetically with .a (R241) -/
  | shr (r : Record)
  /-- FSHF: Shifts through a 2n-bit pair to the left or to the right (R242) -/
  | fshf (r : Record)
  /-- BCNT: Counts the one bits, the leading zeros or the trailing zeros (R243) -/
  | bcnt (r : Record)
  /-- BFX: Extracts, sign-extends or inserts a bit field (R244) -/
  | bfx (r : Record)
  /-- ICMP: Compares integers and produces a predicate (R245) -/
  | icmp (r : Record)
  /-- SEL: Selects a or b according to bit 0 of c (R246) -/
  | sel (r : Record)
  /-- LEA: Computes a + b·2^FN as an address without checking it (R247) -/
  | lea (r : Record)
  /-- MOV: Moves a value, or with .hi gives the high 8 bytes of the preceding two-value record (R248) -/
  | mov (r : Record)
  /-- FADD: Adds floating-point values and rounds once with the mode in FN (R249) -/
  | fadd (r : Record)
  /-- FSUB: Subtracts floating-point values and rounds once (R249) -/
  | fsub (r : Record)
  /-- FMUL: Multiplies floating-point values and rounds once (R249) -/
  | fmul (r : Record)
  /-- FFMA: Computes a·b + c with a single rounding (R249) -/
  | ffma (r : Record)
  /-- FMIN: Returns the floating-point minimum, where a NaN loses (.num) or wins (.nan) (R250) -/
  | fmin (r : Record)
  /-- FMAX: Returns the floating-point maximum, where a NaN loses or wins (R250) -/
  | fmax (r : Record)
  /-- FSGN: Copies, negates, clears or exclusive-ors the sign bit only (R251) -/
  | fsgn (r : Record)
  /-- FCMP: Compares floating-point values and produces a predicate, including .ord and .uno (R252) -/
  | fcmp (r : Record)
  /-- FCLS: Returns a one-hot mask of the floating-point class of the operand (R253) -/
  | fcls (r : Record)
  /-- FRND: Rounds to an integral value of TY (R254) -/
  | frnd (r : Record)
  /-- FSCL: Computes a·2^k with one rounding (R255) -/
  | fscl (r : Record)
  /-- CVT: Converts between integer, floating and 8-bit formats (R256) -/
  | cvt (r : Record)
  /-- PACK: Shifts one converted element into a packed value, or converts a whole e2m1 or kb block (R257) -/
  | pack (r : Record)
  /-- UNPK: Decodes one element of a packed value without any scale (R258) -/
  | unpk (r : Record)
  /-- DOTP: Computes each lane's dot product of narrow elements as an exact chunk sum added to an f32 accumulator (R322) -/
  | dotp (r : Record)
  /-- SFN: Evaluates a special function in its bound or compatibility rendering (R323) -/
  | sfn (r : Record)
  /-- ROWMAX: Gives every active lane the largest present leaf of its row (R325) -/
  | rowmax (r : Record)
  /-- ROWSUM: Gives every active lane the fixed pairwise-tree sum of its row (R325) -/
  | rowsum (r : Record)
  /-- SMAX: Computes the soft maximum of each row (R326) -/
  | smax (r : Record)
  /-- RMSN: Normalises each row by its root mean square, with optional epsilon and gain (R327) -/
  | rmsn (r : Record)
  /-- SHFL: Reads operand a from another lane by index, up, down or xor (R259) -/
  | shfl (r : Record)
  /-- VOTE: Produces a uniform all, any, eq or ballot result of a predicate (R260) -/
  | vote (r : Record)
  /-- REDL: Reduces a value over the active lanes to one uniform value (R261) -/
  | redl (r : Record)
  /-- SCNL: Scans a value over the active lanes in ascending lane order, inclusive or exclusive (R262) -/
  | scnl (r : Record)
  /-- GETS: Reads a special-state value (R263) -/
  | gets (r : Record)
  /-- UNIF: Gives the value of the lowest active lane as a uniform value (R264) -/
  | unif (r : Record)
  /-- KEEP: Writes a value to a keep slot or to a uniform slot (R265) -/
  | keep (r : Record)
  /-- BYSW: Builds a 32-bit value byte by byte from an 8-byte pool (R266) -/
  | bysw (r : Record)
  /-- BR: Moves every lane of the slot to a target block (R267) -/
  | br (r : Record)
  /-- BRC: Branches on a predicate, diverging under R27 when the lanes disagree (R268) -/
  | brc (r : Record)
  /-- JOIN: Reconverges arriving lanes at a reconvergence block under R28 (R269) -/
  | join (r : Record)
  /-- LOOP: Repeats its own block for the taken lanes (R270) -/
  | loop (r : Record)
  /-- CALL: Writes the link to a keep slot and moves the slot to a target block (R271) -/
  | call (r : Record)
  /-- CALLI: Calls through per-lane target values, grouping lanes and diverging by target (R272) -/
  | calli (r : Record)
  /-- STUB_BIND: The lowering engine resolves a stub handle for a group in binding, continuing at BASE or trapping with CALL_UNBOUND (R273) -/
  | stubBind (core slot : Nat)
  /-- RET: Returns lanes through the links held in a keep slot, grouped by link value (R274) -/
  | ret (r : Record)
  /-- EXIT: Ends every active lane of the slot; the wave retires when no lane remains (R275) -/
  | exit (r : Record)
  /-- YIELD: Sets the ready time of the slot for issue selection (R276) -/
  | yield (r : Record)
  /-- TRAP: Raises SOFT_TRAP for the active lanes (R277) -/
  | trap (r : Record)
  /-- BRK: Halts the wave with CAUSE BREAK (R277) -/
  | brk (r : Record)
  /-- FEAT: Reads the port, die or step feature word (R278) -/
  | feat (r : Record)
  /-- LD: Loads from a generic address under its order and scope (R282) -/
  | ld (r : Record)
  /-- ST: Stores to a generic address under its order and scope (R282) -/
  | st (r : Record)
  /-- LDB: Loads from a buffer through a resource pointer resolved at issue (R283) -/
  | ldb (r : Record)
  /-- STB: Stores to a buffer through a resource pointer resolved at issue (R283) -/
  | stb (r : Record)
  /-- ATOM: Performs an integer read-modify-write or a compare-and-swap (R284) -/
  | atom (r : Record)
  /-- ATMF: Performs a floating-point add, min or max, or a paired exchange (R285) -/
  | atmf (r : Record)
  /-- FENCE: Orders the accesses of its thread and waits at the port for earlier accesses (R119) -/
  | fence (r : Record)
  /-- FENCE_ENG: Acts as FENCE and in addition orders earlier accesses before later dray-engine reads (R121) -/
  | fenceEng (r : Record)
  /-- SPCT: Reports the space code of a generic address without accessing memory (R288) -/
  | spct (r : Record)
  /-- SPCC: Converts a generic address between forms without accessing memory (R289) -/
  | spcc (r : Record)
  /-- PFD: Hints that a data line should be brought into L2 or L1 (R290) -/
  | pfd (r : Record)
  /-- PFI: Walks, lowers and fills the fetch cache for a portable range, without faulting (R200) -/
  | pfi (r : Record)
  /-- CELL_MAKE: Makes a cell DORMANT with the given EVIX and AOFF (R291) -/
  | cellMake (r : Record)
  /-- CELL_SET: Commits a value to the lane's own cell at the carriage's commit (R291) -/
  | cellSet (r : Record)
  /-- CELL_TAG: Makes the lane's own cell FAILED with SOFT_TRAP at the carriage's commit (R291) -/
  | cellTag (r : Record)
  /-- CELL_PEEK: Reads the 64 stored bits of a cell and optionally its tag (R291) -/
  | cellPeek (r : Record)
  /-- RQRY: Reads one field of a resource entry as a latch (R292) -/
  | rqry (r : Record)
  /-- BAR_WAIT: Arrives at a barrier and waits until the phase completes (R293) -/
  | barWait (r : Record)
  /-- BAR_ARRIVE: Arrives at a barrier without waiting unless the arrival is held (R293) -/
  | barArrive (r : Record)
  /-- BEXP: Adds an expected amount to PENDING, claiming CREDIT first (R293) -/
  | bexp (r : Record)
  /-- SPAWN_TASK: Forms one task record per active lane and pushes it to the deque or binning stage (R294) -/
  | spawnTask (r : Record)
  /-- SPAWN_LAUNCH: Reads a launch record and issues one launch per active lane (R295) -/
  | spawnLaunch (r : Record)
  /-- WAIT_ANY: Waits until some masked tag bit is set (R304) -/
  | waitAny (r : Record)
  /-- WAIT_ALL: Waits until every masked tag bit is set (R304) -/
  | waitAll (r : Record)
  /-- WAIT_FIRST: Waits for a masked tag bit, returns the lowest one and clears it (R304) -/
  | waitFirst (r : Record)
  /-- WAIT_RING: Waits until a completion ring's HEAD differs from the expected index (R304) -/
  | waitRing (r : Record)
  /-- TAGS_READ: Returns TAGBITS (R304) -/
  | tagsRead (r : Record)
  /-- TAGS_CLR: Returns TAGBITS and then clears the masked bits (R304) -/
  | tagsClr (r : Record)
  /-- SEND: Issues a dray command that pushes scratchpad bytes to any scratchpad or stream of the partition (R300) -/
  | send (r : Record)
  /-- COPY: Issues a dray command that moves bytes between local storage and a resource (R301) -/
  | copy (r : Record)
  /-- PUBL: Issues a publish of a buffer entry's shadow (R303) -/
  | publ (r : Record)
  /-- SPOP: Takes the next FULL slot of a stream, waiting while it is not FULL (R305) -/
  | spop (r : Record)
  /-- SREL: Returns the oldest TAKEN slot of a stream to FREE (R305) -/
  | srel (r : Record)
  /-- MMA: The tender computes a 32x32 matrix multiply-accumulate into the Y buffer (R315) -/
  | mma (r : Record)
  /-- MMAS: The tender computes a sparse matrix multiply-accumulate under metadata (R316) -/
  | mmas (r : Record)
  /-- MTILE: Sets the stream's QMAP and INC (R310) -/
  | mtile (r : Record)
  /-- LDQ: Fills one B quarter in keep slots from the W buffer (R321) -/
  | ldq (r : Record)
  /-- MSTY: Converts Y-buffer accumulators and writes them back in the Y buffer (R318) -/
  | msty (r : Record)
  /-- MZY: Zeroes 1,024 accumulators in the Y buffer (R317) -/
  | mzy (r : Record)
  /-- TMEET: The tender waits for its stream, arrives at a barrier and waits for the phase (R312) -/
  | tmeet (r : Record)
  /-- TENDER_LOOP: Repeats the stream's records from RST for N passes and advances p (R311) -/
  | tenderLoop (r : Record)
  /-- TENDER_SWITCH: The tender takes the ready stream that has waited longest (R307) -/
  | tenderSwitch (r : Record)
  /-- COUPLE: Enters a coupled region, or runs it as its SIMT reading (R55) -/
  | couple (r : Record)
  /-- UNCPL: Retires a coupled region; parked slots return, or acts as a NOP in the SIMT reading (R70) -/
  | uncpl (r : Record)
  /-- CHASE: Loads 8 bytes through a keep slot and advances the keep slot by the offset (R329) -/
  | chase (r : Record)
  /-- SYS_TRET: Resumes a HALTED wave of the core from its frame (R331) -/
  | sysTret (r : Record)
  /-- SYS_SNAP: Takes a snapshot cut of the partition (R332) -/
  | sysSnap (r : Record)
  /-- SYS_SNAPQ: Returns the snapshot status word (R332) -/
  | sysSnapq (r : Record)
  /-- SYS_CFG: Writes a stream binding, KC_CPLQ, KC_BINTMR or KC_DBGRING and returns the old value (R333) -/
  | sysCfg (r : Record)
  /-- SYS_DBGSET: Writes both registers of one debug comparator in one step (R334) -/
  | sysDbgset (r : Record)
  /-- SYS_HALTQ: Returns the halted and debug-posted wave slots of the core (R335) -/
  | sysHaltq (r : Record)
  /-- WIN: A die-only word that sets the slot's window offset WOFF and UB (R205) -/
  | win (m : Bool) (woff : BitVec 7) (ub : Bool)
  /-- DLIT: A die-only prefix that supplies 24 upper immediate bits to the next word (R205) -/
  | dlit (m : Bool) (p : BitVec 24)
  /-- DSPL: A die-only word that completes the divergence work of the preceding BRC, JOIN or EXIT word (R205) -/
  | dspl (m : Bool) (k : BitVec 2)
  /-- FETCH_MARKER: A slot issues the TRAP marker that stands in place of a record that could not be fetched or lowered, and traps (R199) -/
  | fetchMarker (cause : BitVec 16)
  /-- HANDLER_PLACE: A handler wave is placed for a trap stop once a slot is free (R156) -/
  | handlerPlace (core wslot : Nat)
  /-- ACCESS_PERFORMED: A memory access is performed at its home slice or owning core and its reply returns to the lane (R117) -/
  | accessPerformed (id : Nat) (damage : Damage)
  /-- WALK_COMPLETE: A translation walk ends and every access parked on it resumes or faults (R104) -/
  | walkComplete (part : Nat) (va : Word)
  /-- EVAL_RECORD_MOVE: An evaluator record held for 2^16 cycles moves to a core with a free reserve slot (R141) -/
  | evalRecordMove (src bin dst : Nat)
  /-- CARRIAGE_COMMIT: A carriage's stores, records and cell commits take effect for all active lanes as one event (R42) -/
  | carriageCommit (core slot : Nat)
  /-- DEQUE_POP: The binning stage pops a record and places it in a bin (R39) -/
  | dequePop (core : Nat)
  /-- BIN_TIMER_EXPIRY: A bin's timer reaches zero and the bin launches a wave (R39) -/
  | binTimerExpiry (core bin : Nat)
  /-- BIN_LAUNCH: A held bin launches its wave once a slot and window are free (R39) -/
  | binLaunch (core bin : Nat)
  /-- STEAL: An idle core of a launch takes records from another core's deque (R40) -/
  | steal (thief victim : Nat)
  /-- LAUNCH_READY: A launch becomes ready once every input cell holds VALUE (R46) -/
  | launchReady (launch : Nat)
  /-- BLOCK_PLACE: The scheduler places the next block of a ready launch on a core (R47) -/
  | blockPlace (launch core : Nat)
  /-- LAUNCH_RESERVE: A block that has waited 2^20 fabric cycles reserves a core (R47) -/
  | launchReserve (launch core : Nat)
  /-- CONFIG_SWAP: A core swaps in a new configuration once the swap conditions hold (R32) -/
  | configSwap (launch core : Nat)
  /-- BLOCK_RETIRE: A block retires after its waves have exited and its tender stream has ended (R307) -/
  | blockRetire (core block : Nat)
  /-- LAUNCH_COMPLETE: A completed launch performs its completion write (R48) -/
  | launchComplete (launch : Nat)
  /-- ENGINE_COMPLETE: A dray command completes, posting its record, draining its barrier and setting its tag (R298) -/
  | engineComplete (core cmd : Nat) (damage : Damage)
  /-- SEND_ARRIVE: A SEND reaches the destination core and reserves a slot or writes its range (R125) -/
  | sendArrive (core cmd : Nat)
  /-- PUBLISH: A publish swaps BASE and SHADOW once OLDREF is 0, or is refused (R99) -/
  | publish (core cmd : Nat)
  /-- SHADOW_WRITE_ISSUE: A waiting shadow-destination write issues once OLDREF is 0 (R302) -/
  | shadowWriteIssue (core cmd : Nat)
  /-- COUPLE_PLACEMENT_DONE: The lowering engine places the region or reports that placement failed (R55) -/
  | couplePlacementDone (core : Nat) (placement : Option Placement)
  /-- PARKING_QUIET: The parked slots are quiet and the region enters RUNNING (R57) -/
  | parkingQuiet (core : Nat)
  /-- STATION_FIRE: A station consumes its input tokens, runs its die sequence and appends its outputs (R59) -/
  | stationFire (core station : Nat)
  /-- COUPLE_QUANTUM_EXPIRY: A pass that has run KC_CPLQ cycles is gated and drained (R72) -/
  | coupleQuantumExpiry (core : Nat)
  /-- COUPLE_STILL: After 4,096 still cycles the region freezes with COUPLE_STILL (R371) -/
  | coupleStill (core : Nat)
  /-- REGION_DRAINED: The end token reaches the core and the region becomes DONE or raises COUPLE_UNBALANCED (R70) -/
  | regionDrained (core : Nat)
  /-- LOWERING_COMPLETE: The lowering engine installs a Sinter entry for a block (R187) -/
  | loweringComplete (die request : Nat)
  /-- SINTER_EVICT: The Sinter store evicts an entry (R193) -/
  | sinterEvict (die entry : Nat)
  /-- SNAP_MARK_ARRIVE: The cut mark reaches a slice, which then holds later stores (R130) -/
  | snapMarkArrive (slice : Nat)
  /-- SNAP_TOKEN_RETURN: The token returns to a slice, which releases its held stores (R130) -/
  | snapTokenReturn (slice : Nat)
  /-- SNAP_STREAM_COMPLETE: Streaming of a snapshot to its target ends, either complete or failed (R352) -/
  | snapStreamComplete (part : Nat)
  /-- RLIM_WINDOW: A rate-limiter window of 1,024 cycles ends and admits waiting words (R354) -/
  | rlimWindow (core : Nat)
  /-- HOST_BAR0_READ: A host read at BAR0 acts as an .rx load at .sy (R345) -/
  | hostBar0Read (part : Nat) (off : Word) (size : Nat)
  /-- HOST_BAR0_WRITE: A host write at BAR0 acts as an .rx store at .sy (R345) -/
  | hostBar0Write (part : Nat) (off : Word) (data : List Byte)
  /-- TOUCH: A host write of a cell address touches the cell (R346) -/
  | touch (part : Nat) (addr : Word)
  /-- MKPAY: A host write of a payload performs CELL.MAKE at MKADDR (R346) -/
  | mkpay (part : Nat) (payload : Word)
  /-- PKTAG: A host read returns the tag of the cell at PKADDR (R346) -/
  | pktag (part : Nat)
  /-- TOUCH_STATUS_READ: A read of STATUS returns the refusal bit and clears it (R346) -/
  | touchStatusRead (part : Nat)
  /-- MSI_X_UNMASK: Unmasking a vector with its pending bit set sends one message (R347) -/
  | msiXUnmask (part vec : Nat)
  /-- MG_TLBINV: A write invalidates the translations of a range and reads 0 when complete (R103) -/
  | mgTlbinv (part : Nat) (access : RegAccess)
  /-- MG_MODVER: A write submits a module for verification; a read returns the verification word (R181) -/
  | mgModver (part : Nat) (access : RegAccess)
  /-- MODULE_VERIFIED: The lowering engine finishes verification and posts the verification word (R181) -/
  | moduleVerified (part : Nat)
  /-- EXCHANGE: MG_PSWAP EXCHANGE stops the partition and exchanges its context with the standby context (R163) -/
  | exchange (part : Nat)
  /-- HALT: MG_PSWAP HALT stops the partition without an exchange (R353) -/
  | halt (part : Nat)
  /-- RESUME: MG_PSWAP RESUME resumes a restored context (R353) -/
  | resume (part : Nat)
  /-- PSWAP_HALTED: Every core has reported halted and MG_PSWAP shows HALTED (R163) -/
  | pswapHalted (part : Nat)
  /-- PSWAP_EXCHANGE_DONE: The context exchange completes and the swapped-in context resumes (R163) -/
  | pswapExchangeDone (part : Nat)
  /-- MG_PARTITION_CONFIG: A write of CLMAP or CTL is applied, or refused with CFGREF set (R350) -/
  | mgPartitionConfig (part off : Nat) (value : Word)
  /-- MG_STATUS: A read returns the status and clears CFGREF (R357) -/
  | mgStatus
  /-- MG_REGISTER_WRITE: A write to a management register that has no row of its own (R357) -/
  | mgRegisterWrite (off : Nat) (value : Word)
  /-- RESETP: A mailbox command resets one partition (R401) -/
  | resetp (part : Nat)
  /-- MAILBOX_END_WAVE: System software ends a wave through the management mailbox (R146) -/
  | mailboxEndWave (core wslot : Nat)
  /-- MAILBOX_TRET: A debugger resumes a stopped wave through the management mailbox (R157) -/
  | mailboxTret (core wslot : Nat)
  /-- MAILBOX_READ_CONTEXT: System software reads a halted core's context through the mailbox (R353) -/
  | mailboxReadContext (core : Nat)
  /-- ATTESTATION_REQUEST: A mailbox request with a nonce returns a signed attestation (R356) -/
  | attestationRequest (nonce : List Byte)
  /-- FIRMWARE_VERIFY: The root of trust verifies a firmware image's signature (R356) -/
  | firmwareVerify (slot : Nat) (image signature : List Byte)
  /-- DIE_SELFTEST: A die passes its self-test and joins, or never joins (R355) -/
  | dieSelftest (die : Nat) (pass : Bool)
  /-- DEVICE_RESET: A device reset starts bring-up at stage 0 (R355) -/
  | deviceReset
  /-- FABRIC_PORT_DOWN: A flit that fails 8 replays takes its fabric port down (R394) -/
  | fabricPortDown (port : Nat)
  /-- LINK_TRAINING: Host link training settles whether CXL.cache and CXL.mem are in use, which decides HOST-page caching, HOST atomics and whether BAR0 is replaced (R345) -/
  | linkTraining (cxlCache cxlMem : Bool)
  /-- CLOCK_CHANGE: Management lowers the arithmetic or fabric clock, which changes the clock ratio but no architectural result (R13) -/
  | clockChange (die : Option Nat) (mhz : Nat)
  /-- FABRIC_PEER_ACCESS: A store, atomic or push from a fabric peer arrives on a fabric port and is performed at this device's home slice, with the old value returned for an atomic (R348) -/
  | fabricPeerAccess (port addr : Nat) (op : PeerOp)
  /-- MAILBOX_RESTORE_CONTEXT: System software restores a migrated context onto a target partition; each WAKING cell of the image recreates its waking record and the slice wake counters are set above every restored INST (R353) -/
  | mailboxRestoreContext (part src dst : Nat)
  deriving DecidableEq, Repr

end Sys2Proof
end

