-- ==== Sys2Proof/WellFormed.lean ====
section
/-! DEFINITION. What makes a record well formed by itself: the TY and FN values its opcode lists (R183), the form of
its operands (R167, R235 and the descriptions of chapters 11 to 13), orders and scopes (R111). What needs the record's
block or module (DIST distances, uniform values, targets) is in Machine/Verify.lean. -/

namespace Sys2Proof

/-- The TY codes (R169). -/
def Ty.code : Ty → Nat
  | .b32 => 0 | .b64 => 1 | .i32 => 2 | .n32 => 3 | .i64 => 4 | .n64 => 5 | .f16 => 6 | .bf16 => 7
  | .f32 => 8 | .f64 => 9 | .e4m3 => 10 | .e5m2 => 11 | .e2m1 => 12 | .kb => 13 | .i16x2 => 14 | .pred => 15

/-- The TY of a code; codes beyond 15 do not occur in a four-bit field. -/
def Ty.ofCode : Nat → Ty
  | 0 => .b32 | 1 => .b64 | 2 => .i32 | 3 => .n32 | 4 => .i64 | 5 => .n64 | 6 => .f16 | 7 => .bf16
  | 8 => .f32 | 9 => .f64 | 10 => .e4m3 | 11 => .e5m2 | 12 => .e2m1 | 13 => .kb | 14 => .i16x2 | _ => .pred

/-- A value of the type takes 64 bits (R168). -/
def Ty.wide : Ty → Bool
  | .b64 | .i64 | .n64 | .f64 | .kb => true
  | _ => false

/-- int of R183: codes 0 to 5. -/
def Ty.isInt (t : Ty) : Bool := t.code ≤ 5
/-- intp of R183. -/
def Ty.isIntp (t : Ty) : Bool := t.code ≤ 5 || t = .i16x2
/-- flt of R183: codes 6 to 9. -/
def Ty.isFlt (t : Ty) : Bool := 6 ≤ t.code && t.code ≤ 9
/-- pk of R183. -/
def Ty.isPk (t : Ty) : Bool := t = .f16 || t = .bf16 || (10 ≤ t.code && t.code ≤ 14)
/-- mx of R183: codes 6 to 13. -/
def Ty.isMx (t : Ty) : Bool := 6 ≤ t.code && t.code ≤ 13
/-- A memory access size (R169): 0 where the type is refused. -/
def Ty.memBytes : Ty → Nat
  | .e4m3 | .e5m2 => 1
  | .f16 | .bf16 => 2
  | .b32 | .i32 | .n32 | .f32 | .i16x2 => 4
  | .b64 | .i64 | .n64 | .f64 => 8
  | .kb => 16
  | .e2m1 | .pred => 0

/-- The order of FN = 6 · o + c (R183); none for 30 and 31. -/
def Order.ofFn (fn : BitVec 5) : Option Order :=
  match fn.toNat / 6 with
  | 0 => some .rx | 1 => some .aq | 2 => some .rl | 3 => some .ar | 4 => some .sq | _ => none

/-- The scope of FN = 6 · o + c (R183). -/
def Scope.ofFn (fn : BitVec 5) : Scope :=
  match fn.toNat % 6 with
  | 0 => .wv | 1 => .bk | 2 => .cl | 3 => .ln | 4 => .dv | _ => .sy

/-- An operand an Isien record can hold: NAMED, DIST, IMM13 or LIT (R167). -/
def Opnd.isRecord : Opnd → Bool
  | .vreg _ | .ureg _ | .dimm _ => false
  | _ => true

def Opnd.isAbsent (o : Opnd) : Bool := o = .dist 0
def Opnd.isKeep : Opnd → Bool
  | .keep _ => true
  | _ => false
def Opnd.isImm : Opnd → Bool
  | .imm _ => true
  | _ => false
/-- An IMM13 or a LIT: the operand kinds of a control target (R173). -/
def Opnd.isConst : Opnd → Bool
  | .imm _ | .lit _ => true
  | _ => false
/-- The operand kinds a tender record may hold when present (R308). -/
def Opnd.isTender : Opnd → Bool
  | .imm _ | .lit _ | .arg _ => true
  | o => o.isAbsent

/-- The OP and the record of an Isien instruction; none for the other rows. FENCE and FENCE_ENG, LOOP and
TENDER_LOOP, and the rows that FN tells apart share an OP (R183). -/
def Instr.opRecord : Instr → Option (Nat × Record)
  | .nop r => some (0x00, r) | .iadd r => some (0x01, r) | .isub r => some (0x02, r) | .imul r => some (0x03, r)
  | .imad r => some (0x04, r) | .idiv r => some (0x05, r) | .imin r => some (0x06, r) | .imax r => some (0x07, r)
  | .iabs r => some (0x08, r) | .and r => some (0x09, r) | .or r => some (0x0A, r) | .xor r => some (0x0B, r)
  | .andn r => some (0x0C, r) | .shl r => some (0x0D, r) | .shr r => some (0x0E, r) | .fshf r => some (0x0F, r)
  | .bcnt r => some (0x10, r) | .bfx r => some (0x11, r) | .icmp r => some (0x12, r) | .sel r => some (0x13, r)
  | .lea r => some (0x14, r) | .mov r => some (0x15, r) | .fadd r => some (0x16, r) | .fsub r => some (0x17, r)
  | .fmul r => some (0x18, r) | .ffma r => some (0x19, r) | .fmin r => some (0x1A, r) | .fmax r => some (0x1B, r)
  | .fsgn r => some (0x1C, r) | .fcmp r => some (0x1D, r) | .fcls r => some (0x1E, r) | .frnd r => some (0x1F, r)
  | .fscl r => some (0x20, r) | .cvt r => some (0x21, r) | .pack r => some (0x22, r) | .unpk r => some (0x23, r)
  | .dotp r => some (0x24, r) | .sfn r => some (0x25, r) | .rowmax r => some (0x26, r) | .rowsum r => some (0x27, r)
  | .smax r => some (0x28, r) | .rmsn r => some (0x29, r) | .shfl r => some (0x2A, r) | .vote r => some (0x2B, r)
  | .redl r => some (0x2C, r) | .scnl r => some (0x2D, r) | .gets r => some (0x2E, r) | .unif r => some (0x2F, r)
  | .keep r => some (0x30, r) | .bysw r => some (0x31, r) | .br r => some (0x32, r) | .brc r => some (0x33, r)
  | .join r => some (0x34, r) | .loop r => some (0x35, r) | .tenderLoop r => some (0x35, r)
  | .call r => some (0x36, r) | .calli r => some (0x37, r) | .ret r => some (0x38, r) | .exit r => some (0x39, r)
  | .yield r => some (0x3A, r) | .trap r => some (0x3B, r) | .brk r => some (0x3C, r) | .feat r => some (0x3D, r)
  | .ld r => some (0x3E, r) | .st r => some (0x3F, r) | .ldb r => some (0x40, r) | .stb r => some (0x41, r)
  | .atom r => some (0x42, r) | .atmf r => some (0x43, r) | .fence r => some (0x44, r) | .fenceEng r => some (0x44, r)
  | .spct r => some (0x45, r) | .spcc r => some (0x46, r) | .pfd r => some (0x47, r) | .pfi r => some (0x48, r)
  | .cellMake r => some (0x49, r) | .cellSet r => some (0x49, r) | .cellTag r => some (0x49, r)
  | .cellPeek r => some (0x49, r) | .rqry r => some (0x4A, r) | .barWait r => some (0x4B, r)
  | .barArrive r => some (0x4B, r) | .bexp r => some (0x4C, r) | .spawnTask r => some (0x4D, r)
  | .spawnLaunch r => some (0x4D, r) | .waitAny r => some (0x4E, r) | .waitAll r => some (0x4E, r)
  | .waitFirst r => some (0x4E, r) | .waitRing r => some (0x4E, r) | .tagsRead r => some (0x4F, r)
  | .tagsClr r => some (0x4F, r) | .send r => some (0x50, r) | .copy r => some (0x51, r) | .publ r => some (0x52, r)
  | .spop r => some (0x53, r) | .srel r => some (0x54, r) | .mma r => some (0x55, r) | .mmas r => some (0x56, r)
  | .mtile r => some (0x57, r) | .ldq r => some (0x58, r) | .msty r => some (0x59, r) | .mzy r => some (0x5A, r)
  | .tmeet r => some (0x5B, r) | .couple r => some (0x5C, r) | .uncpl r => some (0x5D, r) | .chase r => some (0x5E, r)
  | .sysTret r => some (0x5F, r) | .sysSnap r => some (0x5F, r) | .sysSnapq r => some (0x5F, r)
  | .sysCfg r => some (0x5F, r) | .sysDbgset r => some (0x5F, r) | .sysHaltq r => some (0x5F, r)
  | _ => none

/-- The TY values the opcode map lists for an OP (R183). -/
def tyListed (op : Nat) (t : Ty) : Bool :=
  if op = 0x00 then t = .b32
  else if op ≤ 0x03 then t.isIntp
  else if op = 0x04 then t.isInt
  else if op = 0x05 then 2 ≤ t.code && t.code ≤ 5
  else if op ≤ 0x07 then (2 ≤ t.code && t.code ≤ 5) || t = .i16x2
  else if op = 0x08 then t = .i32 || t = .i64 || t = .i16x2
  else if op ≤ 0x0C then t = .b32 || t = .b64 || t = .pred
  else if op ≤ 0x0E then t = .b32 || t = .b64 || t = .i16x2
  else if op ≤ 0x11 then t = .b32 || t = .b64
  else if op = 0x12 then t.isIntp
  else if op = 0x13 then true
  else if op = 0x14 then t = .b64
  else if op = 0x15 then true
  else if op ≤ 0x20 then t.isFlt
  else if op = 0x21 then t.isInt || t.isFlt || t = .e4m3 || t = .e5m2 || t = .i16x2
  else if op ≤ 0x23 then t.isPk
  else if op = 0x24 then t = .f16 || t = .bf16 || (10 ≤ t.code && t.code ≤ 13)
  else if op ≤ 0x29 then t = .f16 || t = .bf16 || t = .f32
  else if op = 0x2A then t = .b32 || t = .b64
  else if op = 0x2B then t = .b32 || t = .pred
  else if op ≤ 0x2D then t.isInt || t.isFlt
  else if op = 0x2E then t = .n32 || t = .n64
  else if op ≤ 0x30 then true
  else if op ≤ 0x3C then t = .b32
  else if op = 0x3D then t = .n64
  else if op ≤ 0x41 then t.memBytes ≠ 0
  else if op = 0x42 then t.isInt
  else if op = 0x43 then t.isInt || t = .f32 || t = .f64
  else if op = 0x44 then t = .b32
  else if op ≤ 0x46 then t = .b64
  else if op ≤ 0x48 then t = .b32
  else if op = 0x49 then t = .b64
  else if op = 0x4A then t = .n64
  else if op ≤ 0x4D then t = .b32
  else if op ≤ 0x4F then t = .n64
  else if op ≤ 0x52 then t = .b32
  else if op = 0x53 then t = .b64
  else if op = 0x54 then t = .b32
  else if op ≤ 0x56 then t.isMx
  else if op = 0x57 then t = .b32
  else if op = 0x58 then t.isMx
  else if op = 0x59 then t = .f16 || t = .bf16 || t = .f32 || t = .e4m3 || t = .e5m2
  else if op ≤ 0x5D then t = .b32
  else if op = 0x5E then t = .b64
  else if op = 0x5F then t = .b32 || t = .b64
  else false

/-- Elements of a packed value (R214): the bound of UNPK's index. -/
def Ty.elements : Ty → Nat
  | .f16 | .bf16 | .i16x2 => 2
  | .e4m3 | .e5m2 => 4
  | .e2m1 | .kb => 8
  | _ => 1

/-- FN of an opcode whose kb member stands in [4:3] and whose own variant is 0 (R170). -/
def fnMember (t : Ty) (fn : Nat) : Bool :=
  if t = .kb then fn % 8 = 0 && fn / 8 < 3 else fn = 0

/-- An FN value has the form of one the opcode map lists for an OP and TY (R183); the orders and scopes of MO, and
of CELL, are judged by `orderOk` (R279: BAD_ORDER). -/
def fnListed (op : Nat) (t : Ty) (fn : Nat) : Bool :=
  if op = 0x00 then fn = 0
  else if op ≤ 0x02 then fn ≤ 1
  else if op ≤ 0x04 then fn ≤ 2
  else if op = 0x05 then fn ≤ 1
  else if op ≤ 0x07 then fn = 0
  else if op = 0x08 then fn ≤ 1
  else if op ≤ 0x0D then fn = 0
  else if op ≤ 0x0F then fn ≤ 1
  else if op ≤ 0x11 then fn ≤ 2
  else if op = 0x12 then fn ≤ 5
  else if op = 0x13 then fn = 0
  else if op = 0x14 then fn ≤ 4
  else if op = 0x15 then fn ≤ 1
  else if op ≤ 0x19 then fn ≤ 4
  else if op ≤ 0x1B then fn ≤ 1
  else if op = 0x1C then fn ≤ 3
  else if op = 0x1D then fn ≤ 7
  else if op = 0x1E then fn = 0
  else if op ≤ 0x20 then fn ≤ 4
  else if op = 0x21 then fn < 16 && fn % 8 ≤ 4
  else if op = 0x22 then
    if t = .kb then fn % 8 ≤ 4 && fn / 8 < 3
    else if t = .e2m1 then fn ≤ 4
    else fn < 16 && fn % 8 ≤ 4
  else if op = 0x23 then
    if t = .kb then fn / 8 < 3 else fn < t.elements
  else if op = 0x24 then fnMember t fn
  else if op = 0x25 then fn % 16 ≤ 11
  else if op ≤ 0x29 then fn ≤ 2
  else if op = 0x2A then fn ≤ 3
  else if op = 0x2B then fn ≤ 3 && (fn = 2) == (t = .b32)
  else if op = 0x2C then if t.isInt then fn ≤ 5 else fn ≤ 2
  else if op = 0x2D then fn < 16 && (if t.isInt then fn % 8 ≤ 5 else fn % 8 ≤ 2)
  else if op ≤ 0x32 then fn = 0
  else if op = 0x33 then fn ≤ 1
  else if op ≤ 0x3C then fn = 0
  else if op = 0x3D then fn ≤ 2
  else if op ≤ 0x44 then true
  else if op = 0x45 then fn = 0
  else if op = 0x46 then fn ≤ 3
  else if op = 0x47 then fn ≤ 1
  else if op = 0x48 then fn = 0
  else if op = 0x49 then true
  else if op = 0x4A then fn ≤ 5
  else if op = 0x4B then fn ≤ 1
  else if op = 0x4C then fn = 0
  else if op = 0x4D then fn ≤ 1
  else if op = 0x4E then fn ≤ 3
  else if op = 0x4F then fn ≤ 1
  else if op = 0x50 then fn = 0 || fn = 1 || fn = 8 || fn = 9
  else if op = 0x51 then fn < 16 && fn / 2 % 2 = 0 && (fn / 4 % 2 = 0 || fn % 2 = 1)
  else if op ≤ 0x54 then fn = 0
  else if op ≤ 0x56 then fnMember t fn
  else if op = 0x57 then fn = 0
  else if op = 0x58 then fn / 2 % 4 = 0 && (if t = .kb then fn % 8 = 0 && fn / 8 < 3
    else if t = .e2m1 then fn = 0 else fn ≤ 1)
  else if op = 0x59 then fn < 16 && fn % 8 ≤ 4
  else if op ≤ 0x5E then fn = 0
  else if op = 0x5F then fn ≤ 5
  else false

/-- The orders R111 and R183 allow for an OP; an OP without an order allows every FN. -/
def orderOk (op : Nat) (fn : BitVec 5) : Bool :=
  let o := Order.ofFn fn
  if op = 0x3E || op = 0x40 then o = some .rx || o = some .aq || o = some .sq
  else if op = 0x3F || op = 0x41 then o = some .rx || o = some .rl || o = some .sq
  else if op = 0x42 || op = 0x43 then o ≠ none
  else if op = 0x44 then o ≠ none && o ≠ some .rx
  else if op = 0x49 then
    let q := fn.toNat / 4
    if fn.toNat % 4 = 0 then q = 0 || q = 2 || q = 4
    else if fn.toNat % 4 = 3 then q = 0 || q = 1 || q = 4
    else q = 0
  else true

/-- The operands A, B and C of an OP have the kinds its description asks for (R235, R279, R306): the number of the
first operand that does not (1 A, 2 B, 3 C), or 0. DIST distances, named bounds and uniform-valued operands are judged
in their block. -/
def operandFault (op : Nat) (r : Record) : Nat :=
  let fn := r.fn.toNat
  let one (ok : Opnd → Bool) (o : Opnd) (n : Nat) : Nat := if ok o then 0 else n
  let pres (o : Opnd) : Bool := !o.isAbsent
  let anyO (_ : Opnd) : Bool := true
  let abs := Opnd.isAbsent
  let three (fa fb fc : Opnd → Bool) : Nat :=
    if one fa r.a 1 ≠ 0 then 1 else if one fb r.b 2 ≠ 0 then 2 else one fc r.c 3
  let small (hi : Int) (o : Opnd) : Bool := match o with
    | .imm v => 0 ≤ v.toInt && v.toInt ≤ hi
    | _ => false
  if op = 0x00 then three abs abs abs
  else if op ≤ 0x03 then three pres pres abs
  else if op = 0x04 then three pres pres pres
  else if op ≤ 0x07 then three pres pres abs
  else if op = 0x08 then three pres abs abs
  else if op ≤ 0x0E then three pres pres abs
  else if op = 0x0F then three pres pres pres
  else if op = 0x10 then three pres abs abs
  else if op = 0x11 then three pres pres (if fn = 2 then pres else abs)
  else if op = 0x12 then three pres pres abs
  else if op = 0x13 then three pres pres pres
  else if op = 0x14 then three pres pres abs
  else if op = 0x15 then three (if fn = 1 then fun o => o = .dist 1 else pres) abs abs
  else if op ≤ 0x18 then three pres pres abs
  else if op = 0x19 then three pres pres pres
  else if op ≤ 0x1B then three pres pres abs
  else if op = 0x1C then three pres (if fn = 0 || fn = 3 then pres else abs) abs
  else if op = 0x1D then three pres pres abs
  else if op ≤ 0x1F then three pres abs abs
  else if op = 0x20 then three pres pres abs
  else if op = 0x21 then three pres (fun o => match o with
      | .imm v =>
        let s := v.toInt
        let d : Int := r.ty.code
        (0 ≤ s && s < 12 && d < 12) || ((s = 6 || s = 7) && d = 14) || (s = 14 && (d = 6 || d = 7))
      | _ => false) abs
  else if op = 0x22 then
    if r.ty = .e2m1 || r.ty = .kb then three pres abs pres else three pres anyO abs
  else if op = 0x23 then three pres (fun o => o.isAbsent || small 0 o) abs
  else if op = 0x24 then three pres pres anyO
  else if op = 0x25 then three pres abs abs
  else if op ≤ 0x28 then three pres anyO abs
  else if op = 0x29 then three pres anyO anyO
  else if op = 0x2A then three pres pres (fun o => o.isAbsent || o = .imm 2 || o = .imm 4 || o = .imm 8 || o = .imm 16 || o = .imm 32)
  else if op ≤ 0x2D then three pres abs abs
  else if op = 0x2E then three (small 15) abs abs
  else if op = 0x2F then three pres abs abs
  else if op = 0x30 then three (fun o => match o with
      | .keep _ => true
      | .unif _ => true
      | _ => false) pres abs
  else if op = 0x31 then three pres pres pres
  else if op = 0x32 then three Opnd.isConst abs abs
  else if op = 0x33 then three Opnd.isConst pres Opnd.isConst
  else if op = 0x34 then three abs abs abs
  else if op = 0x35 then three Opnd.isConst pres (fun o => o.isAbsent || o.isConst)
  else if op = 0x36 then three Opnd.isConst Opnd.isKeep abs
  else if op = 0x37 then three pres Opnd.isKeep abs
  else if op = 0x38 then three Opnd.isKeep abs abs
  else if op ≤ 0x3A then three abs abs abs
  else if op = 0x3B then three (fun o => o.isAbsent || o.isConst) abs abs
  else if op = 0x3C then three abs abs abs
  else if op = 0x3D then three abs abs abs
  else if op = 0x3E || op = 0x40 then three pres abs abs
  else if op = 0x3F || op = 0x41 then three pres pres (if r.ty = .kb then pres else abs)
  else if op = 0x42 then three pres pres (fun o => match o with
      | .imm v => 0 ≤ v.toInt && v.toInt ≤ 9
      | o => !o.isAbsent)
  else if op = 0x43 then
    if r.ty = .f32 || r.ty = .f64 then three pres pres (small 2) else three pres pres pres
  else if op = 0x44 then three (fun o => o.isAbsent || o = .imm 1) abs abs
  else if op ≤ 0x47 then three pres abs abs
  else if op = 0x48 then three pres pres abs
  else if op = 0x49 then
    match fn % 4 with
    | 0 => three pres pres pres
    | 1 => three pres pres abs
    | 2 => three pres abs abs
    | _ => three pres (fun o => o.isAbsent || o.isKeep) abs
  else if op = 0x4A then three pres abs abs
  else if op = 0x4B then three (small 255) abs abs
  else if op = 0x4C then three (small 255) pres abs
  else if op = 0x4D then
    if fn = 0 then three Opnd.isConst anyO anyO else three pres abs abs
  else if op = 0x4E then three pres (if fn = 3 then pres else abs) abs
  else if op = 0x4F then three (if fn = 1 then pres else abs) abs abs
  else if op ≤ 0x51 then three pres pres pres
  else if op = 0x52 then three pres pres anyO
  else if op ≤ 0x54 then three (small 7) abs abs
  else if op = 0x55 then three (fun o => pres o && o.isTender) (fun o => pres o && o.isTender) abs
  else if op = 0x56 then three (fun o => pres o && o.isTender) (fun o => pres o && o.isTender) (fun o => pres o && o.isTender)
  else if op = 0x57 then three (fun o => pres o && o.isTender) (fun o => pres o && o.isTender) abs
  else if op = 0x58 then three pres Opnd.isKeep (if r.ty = .e2m1 || r.ty = .kb then pres else abs)
  else if op = 0x59 then three (fun o => pres o && o.isTender) (fun o => pres o && o.isTender) (fun o => o.isAbsent || small 1 o)
  else if op = 0x5A then three (fun o => pres o && o.isTender) (fun o => o.isAbsent || small 1 o) abs
  else if op = 0x5B then three (small 255) abs abs
  else if op ≤ 0x5D then three abs abs abs
  else if op = 0x5E then three Opnd.isKeep (fun o => o.isAbsent || o.isConst) abs
  else
    match fn with
    | 0 => three pres abs abs
    | 3 => three (small 10) pres abs
    | 4 => three (small 11) pres pres
    | _ => three abs abs abs

/-- Opcodes for which U = 1 is never allowed, always allowed, must be set, or follows the operands (R171). -/
def uniformClass (op : Nat) : Nat :=
  -- 0 never; 1 must; 2 always allowed; 3 when every present operand is uniform-valued; 4 KEEP
  if op = 0x2B || op = 0x2C || op = 0x2F then 1
  else if op = 0x2E || op = 0x3D || op = 0x4A || op = 0x45 then 2
  else if op = 0x30 then 4
  else if op = 0 then 0
  else if op ≤ 0x23 || op = 0x25 then 3
  else if op = 0x3E || op = 0x40 || op = 0x46 then 3
  else 0

/-- The constructor is the row that the record's FN (and, for FENCE, A) selects (R183, R287). -/
def Instr.rowOk : Instr → Bool
  | .fence r => r.a.isAbsent
  | .fenceEng r => r.a = .imm 1
  | .cellMake r => r.fn.toNat % 4 = 0
  | .cellSet r => r.fn.toNat % 4 = 1
  | .cellTag r => r.fn.toNat % 4 = 2
  | .cellPeek r => r.fn.toNat % 4 = 3
  | .barWait r => r.fn = 0
  | .barArrive r => r.fn = 1
  | .spawnTask r => r.fn = 0
  | .spawnLaunch r => r.fn = 1
  | .waitAny r => r.fn = 0
  | .waitAll r => r.fn = 1
  | .waitFirst r => r.fn = 2
  | .waitRing r => r.fn = 3
  | .tagsRead r => r.fn = 0
  | .tagsClr r => r.fn = 1
  | .sysTret r => r.fn = 0
  | .sysSnap r => r.fn = 1
  | .sysSnapq r => r.fn = 2
  | .sysCfg r => r.fn = 3
  | .sysDbgset r => r.fn = 4
  | .sysHaltq r => r.fn = 5
  | _ => true

/-- A record instruction with every field as its opcode asks (R166, R167, R111, R183), by itself. The rows that have no
record are well formed when their fields are: they have no word, but for the die-only words. -/
def Instr.wellFormed (i : Instr) : Bool :=
  match i.opRecord with
  | some (op, r) =>
    tyListed op r.ty && fnListed op r.ty r.fn.toNat && orderOk op r.fn
      && r.a.isRecord && r.b.isRecord && r.c.isRecord
      && operandFault op r = 0
      && (if uniformClass op = 0 then !r.u else if uniformClass op = 1 then r.u else true)
      && i.rowOk
  | none => true

end Sys2Proof
end

