-- ==== Sys2Proof/Decode.lean ====
section
/-! DEFINITION. From bits to instructions and back: Isien records (R166, R167, R183), die words (R203 to R205) and the
marker of R199. Decoding is total; what it cannot read it rejects by the name of R181. -/

namespace Sys2Proof

/-- Why a word is no instruction: the names of R181, and the conditions of R206 for a die word. -/
inductive DecodeError where
  | reservedOp | rzSet | badTy | badFn | badOrder | dieIllegal
  deriving DecidableEq, Repr

/-- Bits [hi:lo] of a word, as a number. -/
def bitsOf (w : Nat) (hi lo : Nat) : Nat := w / 2 ^ lo % 2 ^ (hi + 1 - lo)

/-- An operand field (R167): none when its RZ bits are not zero. -/
def Opnd.decode (f : BitVec 15) : Option Opnd :=
  let low : BitVec 13 := f.setWidth 13
  match (f >>> 13).toNat with
  | 0 => some (.dist low)
  | 1 =>
    if (low >>> 8).toNat % 8 ≠ 0 then none
    else
      let n : BitVec 8 := low.setWidth 8
      match (low >>> 11).toNat with
      | 0 => some (.keep n)
      | 1 => some (.unif n)
      | 2 => some (.arg n)
      | _ => some (.spec n)
  | 2 => some (.imm low)
  | _ => some (.lit low)

/-- The row of an OP that FN (and, for FENCE, operand A) selects (R183, R287). A LOOP word is read as LOOP; in a tender
block the same word is TENDER_LOOP (R311). -/
def Instr.ofOp (op : Nat) (r : Record) : Option Instr :=
  match op with
  | 0x00 => some (.nop r) | 0x01 => some (.iadd r) | 0x02 => some (.isub r) | 0x03 => some (.imul r)
  | 0x04 => some (.imad r) | 0x05 => some (.idiv r) | 0x06 => some (.imin r) | 0x07 => some (.imax r)
  | 0x08 => some (.iabs r) | 0x09 => some (.and r) | 0x0A => some (.or r) | 0x0B => some (.xor r)
  | 0x0C => some (.andn r) | 0x0D => some (.shl r) | 0x0E => some (.shr r) | 0x0F => some (.fshf r)
  | 0x10 => some (.bcnt r) | 0x11 => some (.bfx r) | 0x12 => some (.icmp r) | 0x13 => some (.sel r)
  | 0x14 => some (.lea r) | 0x15 => some (.mov r) | 0x16 => some (.fadd r) | 0x17 => some (.fsub r)
  | 0x18 => some (.fmul r) | 0x19 => some (.ffma r) | 0x1A => some (.fmin r) | 0x1B => some (.fmax r)
  | 0x1C => some (.fsgn r) | 0x1D => some (.fcmp r) | 0x1E => some (.fcls r) | 0x1F => some (.frnd r)
  | 0x20 => some (.fscl r) | 0x21 => some (.cvt r) | 0x22 => some (.pack r) | 0x23 => some (.unpk r)
  | 0x24 => some (.dotp r) | 0x25 => some (.sfn r) | 0x26 => some (.rowmax r) | 0x27 => some (.rowsum r)
  | 0x28 => some (.smax r) | 0x29 => some (.rmsn r) | 0x2A => some (.shfl r) | 0x2B => some (.vote r)
  | 0x2C => some (.redl r) | 0x2D => some (.scnl r) | 0x2E => some (.gets r) | 0x2F => some (.unif r)
  | 0x30 => some (.keep r) | 0x31 => some (.bysw r) | 0x32 => some (.br r) | 0x33 => some (.brc r)
  | 0x34 => some (.join r) | 0x35 => some (.loop r) | 0x36 => some (.call r) | 0x37 => some (.calli r)
  | 0x38 => some (.ret r) | 0x39 => some (.exit r) | 0x3A => some (.yield r) | 0x3B => some (.trap r)
  | 0x3C => some (.brk r) | 0x3D => some (.feat r) | 0x3E => some (.ld r) | 0x3F => some (.st r)
  | 0x40 => some (.ldb r) | 0x41 => some (.stb r) | 0x42 => some (.atom r) | 0x43 => some (.atmf r)
  | 0x44 => if r.a = .imm 1 then some (.fenceEng r) else some (.fence r)
  | 0x45 => some (.spct r) | 0x46 => some (.spcc r) | 0x47 => some (.pfd r) | 0x48 => some (.pfi r)
  | 0x49 =>
    match r.fn.toNat % 4 with
    | 0 => some (.cellMake r) | 1 => some (.cellSet r) | 2 => some (.cellTag r) | _ => some (.cellPeek r)
  | 0x4A => some (.rqry r)
  | 0x4B => if r.fn = 0 then some (.barWait r) else some (.barArrive r)
  | 0x4C => some (.bexp r)
  | 0x4D => if r.fn = 0 then some (.spawnTask r) else some (.spawnLaunch r)
  | 0x4E =>
    match r.fn.toNat with
    | 0 => some (.waitAny r) | 1 => some (.waitAll r) | 2 => some (.waitFirst r) | _ => some (.waitRing r)
  | 0x4F => if r.fn = 0 then some (.tagsRead r) else some (.tagsClr r)
  | 0x50 => some (.send r) | 0x51 => some (.copy r) | 0x52 => some (.publ r) | 0x53 => some (.spop r)
  | 0x54 => some (.srel r) | 0x55 => some (.mma r) | 0x56 => some (.mmas r) | 0x57 => some (.mtile r)
  | 0x58 => some (.ldq r) | 0x59 => some (.msty r) | 0x5A => some (.mzy r) | 0x5B => some (.tmeet r)
  | 0x5C => some (.couple r) | 0x5D => some (.uncpl r) | 0x5E => some (.chase r)
  | 0x5F =>
    match r.fn.toNat with
    | 0 => some (.sysTret r) | 1 => some (.sysSnap r) | 2 => some (.sysSnapq r)
    | 3 => some (.sysCfg r) | 4 => some (.sysDbgset r) | _ => some (.sysHaltq r)
  | _ => none

/-- Decodes an Isien record (R166), checking the fields in the order of R182: OP, RZ, TY, FN; the operands' own RZ bits
are part of the RZ check (R181). -/
def decode (w : Word) : Except DecodeError Instr :=
  let n := w.toNat
  let op := bitsOf n 63 57
  let ty := Ty.ofCode (bitsOf n 55 52)
  let fn : BitVec 5 := BitVec.ofNat 5 (bitsOf n 51 47)
  if 0x60 ≤ op then .error .reservedOp
  else if bitsOf n 46 45 ≠ 0 then .error .rzSet
  else
    match Opnd.decode (BitVec.ofNat 15 (bitsOf n 44 30)), Opnd.decode (BitVec.ofNat 15 (bitsOf n 29 15)),
        Opnd.decode (BitVec.ofNat 15 (bitsOf n 14 0)) with
    | some a, some b, some c =>
      if !tyListed op ty then .error .badTy
      else if !fnListed op ty fn.toNat then .error .badFn
      else if !orderOk op fn then .error .badOrder
      else
        match Instr.ofOp op { u := bitsOf n 56 56 = 1, ty := ty, fn := fn, a := a, b := b, c := c } with
        | some i => .ok i
        | none => .error .reservedOp
    | _, _, _ => .error .rzSet

/-- Decodes a record of a tender block: LOOP is TENDER_LOOP there (R270, R311). -/
def decodeTender (w : Word) : Except DecodeError Instr :=
  match decode w with
  | .ok (.loop r) => .ok (.tenderLoop r)
  | x => x

/-! ## Die words -/

/-- The TY and FN a die word with L = 0 executes under (R183, die default). -/
def dieDefault (op : Nat) : Ty × BitVec 5 :=
  if op = 0x00 then (.b32, 0)
  else if op ≤ 0x08 then (.i32, 0)
  else if op ≤ 0x11 then (.b32, 0)
  else if op = 0x12 then (.i32, 0)
  else if op = 0x13 then (.b32, 0)
  else if op = 0x14 then (.b64, 0)
  else if op = 0x15 then (.b32, 0)
  else if op ≤ 0x21 then (.f32, 0)
  else if op ≤ 0x23 then (.f16, 0)
  else if op = 0x24 then (.bf16, 0)
  else if op ≤ 0x29 then (.f32, 0)
  else if op = 0x2A then (.b32, 0)
  else if op = 0x2B then (.pred, 0)
  else if op ≤ 0x2D then (.i32, 0)
  else if op = 0x2E then (.n32, 0)
  else if op = 0x2F then (.b32, 0)
  else if op = 0x30 then (.b64, 0)
  else if op ≤ 0x3C then (.b32, 0)
  else if op = 0x3D then (.n64, 0)
  else if op ≤ 0x41 then (.b32, 1)
  else if op = 0x42 then (.b32, 4)
  else if op = 0x43 then (.f32, 4)
  else if op = 0x44 then (.b32, 22)
  else if op ≤ 0x46 then (.b64, 0)
  else if op ≤ 0x48 then (.b32, 0)
  else if op = 0x49 then (.b64, 3)
  else if op = 0x4A then (.n64, 0)
  else if op ≤ 0x4D then (.b32, 0)
  else if op ≤ 0x4F then (.n64, 0)
  else if op ≤ 0x52 then (.b32, 0)
  else if op = 0x53 then (.b64, 0)
  else if op = 0x54 then (.b32, 0)
  else if op ≤ 0x56 then (.bf16, 0)
  else if op = 0x57 then (.b32, 0)
  else if op = 0x58 then (.bf16, 0)
  else if op = 0x59 then (.f32, 0)
  else if op ≤ 0x5D then (.b32, 0)
  else (.b64, 0)

/-- The operands A, B and C that a die word of an opcode has (R203): those of its record (R235, R279, R306). A target, a
group, a stream or a selector stands in the immediate instead. -/
def dieTakes (op : Nat) (ty : Ty) (fn : Nat) : Bool × Bool × Bool :=
  let block := ty = .e2m1 || ty = .kb
  let a := !([0x00, 0x34, 0x39, 0x3A, 0x3B, 0x3C, 0x3D, 0x44, 0x5C, 0x5D].contains op || (op = 0x4F && fn = 0)
    || (op = 0x5F && (fn = 1 || fn = 2 || fn = 5)))
  let b := a && !([0x08, 0x10, 0x15, 0x1E, 0x1F, 0x25, 0x2B, 0x2C, 0x2D, 0x2E, 0x2F, 0x30, 0x32, 0x38, 0x3E, 0x40, 0x45, 0x46, 0x47,
      0x4A, 0x4B, 0x4F, 0x53, 0x54, 0x5B].contains op || (op = 0x1C && fn ≠ 0 && fn ≠ 3) || (op = 0x22 && block)
    || (op = 0x49 && fn % 4 = 2) || (op = 0x4D && fn = 1) || (op = 0x4E && fn ≠ 3) || (op = 0x5F && fn = 0))
  let c := [0x04, 0x0F, 0x13, 0x19, 0x24, 0x29, 0x2A, 0x31, 0x42, 0x43, 0x50, 0x51, 0x52, 0x56, 0x59].contains op
    || (op = 0x11 && fn = 2) || ((op = 0x22 || op = 0x58) && block) || ((op = 0x3F || op = 0x41) && ty = .kb)
    || (op = 0x49 && fn % 4 = 0) || (op = 0x4D && fn = 0) || (op = 0x5F && fn = 4)
  (a, b, c)

/-- The records whose operand A is a group, a stream, a state or a selector, which a die word gives as its immediate
(R293, R305, R263, R333, R334; log entry 3). -/
def dieConstA (op fn : Nat) : Bool :=
  op = 0x4B || op = 0x4C || op = 0x53 || op = 0x54 || op = 0x2E || (op = 0x5F && (fn = 3 || fn = 4))

/-- The records whose operand B is a constant: a source type, an element, an offset (R256, R258, R329; log entry 3). -/
def dieConstB (op : Nat) : Bool := op = 0x21 || op = 0x23 || op = 0x5E

/-- A die name in vector or uniform space (R203, R204). -/
def dieName (uniform : Bool) (n : Nat) : Opnd :=
  if uniform then .ureg (BitVec.ofNat 7 n) else .vreg (BitVec.ofNat 7 n)

/-- What a die word gives: an instruction, the name of its destination and whether that name is uniform, and the words it takes (word and tail). -/
structure DieWord where
  ins : Instr
  dest : Nat
  destUniform : Bool
  marked : Bool
  words : Nat
  deriving DecidableEq, Repr

/-- The immediate of a tail under a DLIT prefix (R204). -/
def dieImmediate (pre : Option (BitVec 24)) (imm16 : BitVec 16) : Word :=
  match pre with
  | none => imm16.signExtend 64
  | some p => (p ++ imm16 : BitVec 40).signExtend 64

/-- Decodes a die word with the words after it in its bundle and the DLIT prefix in force (R203 to R206). -/
def decodeDie (pre : Option (BitVec 24)) (w : W32) (rest : List W32) : Except DecodeError DieWord :=
  let n := w.toNat
  let m := bitsOf n 31 31 = 1
  let op := bitsOf n 30 24
  let l := bitsOf n 23 23 = 1
  if op = 0x61 then .ok ⟨.dlit m (BitVec.ofNat 24 n), 0, false, m, 1⟩
  else if op = 0x60 then
    if l || bitsOf n 22 14 ≠ 0 || bitsOf n 6 1 ≠ 0 then .error .dieIllegal
    else .ok ⟨.win m (BitVec.ofNat 7 (bitsOf n 13 7)) (bitsOf n 0 0 = 1), 0, false, m, 1⟩
  else if op = 0x62 then
    if l || bitsOf n 22 2 ≠ 0 then .error .dieIllegal
    else .ok ⟨.dspl m (BitVec.ofNat 2 (bitsOf n 1 0)), 0, false, m, 1⟩
  else if 0x63 ≤ op then .error .dieIllegal
  else
    let s := bitsOf n 22 21
    let tail : Option W32 := if l then rest.head? else none
    if l && tail = none then .error .dieIllegal
    else if pre ≠ none && !l then .error .dieIllegal
    else
      let (ty, fn, cN, imm) : Ty × BitVec 5 × Nat × BitVec 16 :=
        match tail with
        | none => ((dieDefault op).1, (dieDefault op).2, 0, 0)
        | some t => (Ty.ofCode (bitsOf t.toNat 31 28), BitVec.ofNat 5 (bitsOf t.toNat 27 23),
            bitsOf t.toNat 22 16, BitVec.ofNat 16 t.toNat)
      if op = 0x3B && l && fn = 31 then .ok ⟨.fetchMarker imm, 0, false, m, 2⟩
      else if !tyListed op ty || !fnListed op ty fn.toNat || !orderOk op fn then .error .dieIllegal
      else
        let immV := dieImmediate pre imm
        let has := dieTakes op ty fn.toNat
        let a := if has.1 then dieName (decide (2 ≤ s)) (bitsOf n 13 7) else Opnd.absent
        let bN := bitsOf n 6 0
        let b := if !has.2.1 then Opnd.absent else if dieConstB op || (l && bN = 0x7F) then .dimm immV else dieName (decide (1 ≤ s)) bN
        let c := if !has.2.2 || !l then Opnd.absent else if cN = 0x7F then .dimm immV else dieName (decide (2 ≤ s)) cN
        -- A FENCE word carries no operand register: its form is in IMM16 (R287).
        let a := if op = 0x44 then (if l && imm = 1 then .imm 1 else .absent) else a
        -- A control word carries its target in IMM16 (R235) and, for BRC, its join block in the prefix (log entry 3).
        let target := op = 0x32 || op = 0x33 || op = 0x35 || op = 0x36 || (op = 0x4D && fn = 0)
        let a := if target then .dimm (imm.setWidth 64) else a
        let c := if op = 0x33 || op = 0x35 then .dimm ((pre.getD 0xFFFF).setWidth 16 |>.setWidth 64) else c
        let a := if dieConstA op fn.toNat then .dimm immV else a
        match Instr.ofOp op { u := s = 3, ty := ty, fn := fn, a := a, b := b, c := c } with
        | some i => .ok ⟨i, bitsOf n 20 14, s = 3, m, if l then 2 else 1⟩
        | none => .error .dieIllegal

/-- The instruction the decoder reads from a word of the opcode table: 64 bits and more are an Isien record (R166), 32
bits a die word (R203), with the words beyond nbits zero. -/
def decodeTableWord (nbits w : Nat) : Option Instr :=
  if 64 ≤ nbits then
    match decode (BitVec.ofNat 64 w) with
    | .ok i => some i
    | .error _ => none
  else
    match decodeDie none (BitVec.ofNat 32 w) [0] with
    | .ok d => some d.ins
    | .error _ => none

/-! ## Encoding -/

/-- The field of an operand (R167). Die operands have none. -/
def Opnd.encode : Opnd → BitVec 15
  | .dist d => (0#2 ++ d : BitVec 15)
  | .keep n => (1#2 ++ (0#2 ++ (0#3 ++ n)) : BitVec 15)
  | .unif n => (1#2 ++ (1#2 ++ (0#3 ++ n)) : BitVec 15)
  | .arg n => (1#2 ++ (2#2 ++ (0#3 ++ n)) : BitVec 15)
  | .spec n => (1#2 ++ (3#2 ++ (0#3 ++ n)) : BitVec 15)
  | .imm v => (2#2 ++ v : BitVec 15)
  | .lit n => (3#2 ++ n : BitVec 15)
  | .vreg _ | .ureg _ | .dimm _ => 0

/-- The word of a record instruction (R166); none for a row that has no record. -/
def encode (i : Instr) : Option Word :=
  match i.opRecord with
  | some (op, r) =>
    some (BitVec.ofNat 64 (op * 2 ^ 57 + (if r.u then 2 ^ 56 else 0) + r.ty.code * 2 ^ 52 + r.fn.toNat * 2 ^ 47
      + r.a.encode.toNat * 2 ^ 30 + r.b.encode.toNat * 2 ^ 15 + r.c.encode.toNat))
  | none => none

/-- The word of a die-only instruction (R205); none for the others. -/
def encodeDie : Instr → Option W32
  | .win m woff ub =>
    some (BitVec.ofNat 32 ((if m then 2 ^ 31 else 0) + 0x60 * 2 ^ 24 + woff.toNat * 2 ^ 7 + (if ub then 1 else 0)))
  | .dlit m p => some (BitVec.ofNat 32 ((if m then 2 ^ 31 else 0) + 0x61 * 2 ^ 24 + p.toNat))
  | .dspl m k => some (BitVec.ofNat 32 ((if m then 2 ^ 31 else 0) + 0x62 * 2 ^ 24 + k.toNat))
  | _ => none

end Sys2Proof
end

