-- ==== Sys2Proof/Machine/Fp.lean ====
section
/-! DEFINITION. Number formats and rounding (R210 to R228): a datum is decoded to an exact value, computed with exactly,
and rounded once. -/

namespace Sys2Proof.Machine

/-- A binary format: bits, precision with the hidden bit, exponent of the least subnormal, the pattern of the largest
finite magnitude, that of infinity where there is one, and the canonical NaN (R210, R211, R213). -/
structure Fmt where
  bits : Nat
  prec : Nat
  qmin : Int
  maxBits : Nat
  infBits : Option Nat
  nanBits : Nat
  deriving DecidableEq, Repr

/-- binary64 (R210). -/
def fmtF64 : Fmt := ⟨64, 53, -1074, 0x7FEFFFFFFFFFFFFF, some 0x7FF0000000000000, 0x7FF8000000000000⟩
/-- binary32 (R210). -/
def fmtF32 : Fmt := ⟨32, 24, -149, 0x7F7FFFFF, some 0x7F800000, 0x7FC00000⟩
/-- binary16 (R210). -/
def fmtF16 : Fmt := ⟨16, 11, -24, 0x7BFF, some 0x7C00, 0x7E00⟩
/-- bfloat16 (R210). -/
def fmtBf16 : Fmt := ⟨16, 8, -133, 0x7F7F, some 0x7F80, 0x7FC0⟩
/-- E4M3 (R211): no infinity. -/
def fmtE4m3 : Fmt := ⟨8, 4, -9, 0x7E, none, 0x7F⟩
/-- E5M2 (R211). -/
def fmtE5m2 : Fmt := ⟨8, 3, -16, 0x7B, some 0x7C, 0x7E⟩

/-- The format of a floating-point TY; binary32 for the others. -/
def fmtOf : Ty → Fmt
  | .f64 => fmtF64
  | .f16 => fmtF16
  | .bf16 => fmtBf16
  | .e4m3 => fmtE4m3
  | .e5m2 => fmtE5m2
  | _ => fmtF32

/-- An exact value: NaN, an infinity, or ±m·2^e (zeros keep their sign). -/
inductive Fv where
  | nan
  | inf (neg : Bool)
  | fin (neg : Bool) (m : Nat) (e : Int)
  deriving DecidableEq, Repr

/-- The rounding modes in the order of R221. -/
inductive Rnd where
  | rn | rz | ru | rd | rna
  deriving DecidableEq, Repr

/-- The mode of FN[2:0] (R221). -/
def rndOf (fn : Nat) : Rnd :=
  match fn % 8 with
  | 1 => .rz
  | 2 => .ru
  | 3 => .rd
  | 4 => .rna
  | _ => .rn

/-- Decodes a bit pattern of a format. -/
def fpDecode (f : Fmt) (x : Nat) : Fv :=
  let neg := x / 2 ^ (f.bits - 1) % 2 = 1
  let mag := x % 2 ^ (f.bits - 1)
  let h := 2 ^ (f.prec - 1)
  if f.infBits = some mag then .inf neg
  else if f.maxBits < mag then .nan
  else if mag < h then .fin neg mag f.qmin
  else .fin neg (h + mag % h) (f.qmin + (mag / h : Nat) - 1)

/-- `n` parts of 1/`d`, rounded to an integer under a mode. -/
def roundQuot (md : Rnd) (neg : Bool) (n d : Nat) : Nat :=
  let k := n / d
  let r := n % d
  let up :=
    match md with
    | .rn => d < 2 * r || (2 * r == d && k % 2 == 1)
    | .rz => false
    | .ru => !neg && r != 0
    | .rd => neg && r != 0
    | .rna => d ≤ 2 * r
  if up then k + 1 else k

/-- `n`/`d` · 2^`e` over 2^`q`, as a quotient of naturals. -/
def scaleQuot (n d : Nat) (e q : Int) : Nat × Nat :=
  if q ≤ e then (n * 2 ^ (e - q).toNat, d) else (n, d * 2 ^ (q - e).toNat)

/-- The magnitude pattern of `n`/`d` · 2^`e`, rounded as though the exponent were unbounded above (R221). -/
def roundMagnitude (f : Fmt) (md : Rnd) (neg : Bool) (n d : Nat) (e : Int) : Nat :=
  if n = 0 then 0
  else
    let l : Int := (Nat.log2 n : Nat) - (Nat.log2 d : Nat) + e
    -- far below the grid only the sign and the rounding mode count
    let (n, d, e) : Nat × Nat × Int := if l < f.qmin - 4 then (1, 1, f.qmin - 4) else (n, d, e)
    let l : Int := if l < f.qmin - 4 then f.qmin - 4 else l
    if f.qmin + (2 ^ (f.bits - f.prec) : Nat) + f.prec + 4 < l then f.maxBits + 1
    else
      let q0 : Int := max (l + 1 - f.prec) f.qmin
      let s0 := scaleQuot n d e q0
      let q : Int := if s0.1 / s0.2 < 2 ^ (f.prec - 1) then max (q0 - 1) f.qmin else q0
      let s := scaleQuot n d e q
      (q - f.qmin).toNat * 2 ^ (f.prec - 1) + roundQuot md neg s.1 s.2

/-- The sign bit of a format. -/
def fpSign (f : Fmt) (neg : Bool) : Nat := if neg then 2 ^ (f.bits - 1) else 0

/-- The infinity of a format, or the canonical NaN where it has none (R222). -/
def fpInf (f : Fmt) (neg : Bool) : Nat :=
  match f.infBits with
  | some b => fpSign f neg + b
  | none => f.nanBits

/-- A magnitude beyond the largest finite value (R222). -/
def fpOverflow (f : Fmt) (md : Rnd) (neg : Bool) : Nat :=
  let toInf :=
    match md with
    | .rn | .rna => true
    | .rz => false
    | .ru => !neg
    | .rd => neg
  if toInf then fpInf f neg else fpSign f neg + f.maxBits

/-- ±`n`/`d` · 2^`e` rounded to a format (R221, R222). -/
def roundRatio (f : Fmt) (md : Rnd) (sat neg : Bool) (n d : Nat) (e : Int) : Nat :=
  let b := roundMagnitude f md neg n d e
  if f.maxBits < b then (if sat then fpSign f neg + f.maxBits else fpOverflow f md neg) else fpSign f neg + b

/-- An exact value rounded to a format; with `sat`, .sat of R222. -/
def fpRound (f : Fmt) (md : Rnd) (sat : Bool) : Fv → Nat
  | .nan => f.nanBits
  | .inf neg => if sat then fpSign f neg + f.maxBits else fpInf f neg
  | .fin neg m e => roundRatio f md sat neg m 1 e

/-! ## Exact arithmetic -/

/-- A signed multiple of a power of two. -/
abbrev Dyadic := Int × Int

/-- Exact sum. -/
def Dyadic.plus (x y : Dyadic) : Dyadic :=
  if x.1 = 0 then y
  else if y.1 = 0 then x
  else if x.2 ≤ y.2 then (x.1 + y.1 * (2 ^ (y.2 - x.2).toNat : Nat), x.2)
  else (x.1 * (2 ^ (x.2 - y.2).toNat : Nat) + y.1, y.2)

/-- The signed number of a finite value. -/
def fvSigned (neg : Bool) (m : Nat) : Int := if neg then -(m : Int) else m

/-- A value from a signed number; `zneg` is the sign of a zero. -/
def fvOf (x : Dyadic) (zneg : Bool) : Fv := .fin (if x.1 = 0 then zneg else x.1 < 0) x.1.natAbs x.2

/-- a + b, with the sign of an exact zero of R224. -/
def fvAdd (md : Rnd) : Fv → Fv → Fv
  | .nan, _ => .nan
  | _, .nan => .nan
  | .inf a, .inf b => if a = b then .inf a else .nan
  | .inf a, .fin .. => .inf a
  | .fin .., .inf b => .inf b
  | .fin na ma ea, .fin nb mb eb =>
    if ma = 0 && mb = 0 && na = nb then .fin na 0 0
    else fvOf (Dyadic.plus (fvSigned na ma, ea) (fvSigned nb mb, eb)) (md = .rd)

/-- The value with its sign inverted. -/
def fvNeg : Fv → Fv
  | .nan => .nan
  | .inf a => .inf (!a)
  | .fin a m e => .fin (!a) m e

/-- a · b (R224). -/
def fvMul : Fv → Fv → Fv
  | .nan, _ => .nan
  | _, .nan => .nan
  | .inf a, .inf b => .inf (a != b)
  | .inf a, .fin b m _ => if m = 0 then .nan else .inf (a != b)
  | .fin a m _, .inf b => if m = 0 then .nan else .inf (a != b)
  | .fin a ma ea, .fin b mb eb => .fin (a != b) (ma * mb) (ea + eb)

/-- a · 2^k. -/
def fvScale (k : Int) : Fv → Fv
  | .fin a m e => .fin a m (e + k)
  | x => x

/-- An integer as an exact value; zero is +0. -/
def fvInt (i : Int) : Fv := .fin (i < 0) i.natAbs 0

/-- The order of two values that are not NaN, −0 equal to +0. -/
def fvCmp : Fv → Fv → Ordering
  | .inf a, .inf b => if a = b then .eq else if a then .lt else .gt
  | .inf a, _ => if a then .lt else .gt
  | _, .inf b => if b then .gt else .lt
  | .fin na ma ea, .fin nb mb eb =>
    let d := (Dyadic.plus (fvSigned na ma, ea) (-(fvSigned nb mb), eb)).1
    if d < 0 then .lt else if d = 0 then .eq else .gt
  | _, _ => .eq

/-- The value is a NaN. -/
def fvNan : Fv → Bool
  | .nan => true
  | _ => false

/-- The sign of a value. -/
def fvNeg? : Fv → Bool
  | .nan => false
  | .inf a => a
  | .fin a _ _ => a

/-- The value is zero. -/
def fvZero : Fv → Bool
  | .fin _ m _ => m = 0
  | _ => false

/-! ## Operations of R249 to R256 on patterns of one format -/

/-- FADD, FSUB, FMUL (R249). -/
def fpAdd (f : Fmt) (md : Rnd) (a b : Nat) : Nat := fpRound f md false (fvAdd md (fpDecode f a) (fpDecode f b))
/-- a − b. -/
def fpSub (f : Fmt) (md : Rnd) (a b : Nat) : Nat := fpRound f md false (fvAdd md (fpDecode f a) (fvNeg (fpDecode f b)))
/-- a · b. -/
def fpMul (f : Fmt) (md : Rnd) (a b : Nat) : Nat := fpRound f md false (fvMul (fpDecode f a) (fpDecode f b))
/-- a · b + c, rounded once (R249). -/
def fpFma (f : Fmt) (md : Rnd) (a b c : Nat) : Nat :=
  fpRound f md false (fvAdd md (fvMul (fpDecode f a) (fpDecode f b)) (fpDecode f c))

/-- The smaller (`mx` false) or larger of two patterns, −0 below +0; `win` is .nan (R250). -/
def fpMinMax (f : Fmt) (mx win : Bool) (a b : Nat) : Nat :=
  let x := fpDecode f a
  let y := fpDecode f b
  if fvNan x && fvNan y then f.nanBits
  else if fvNan x then (if win then f.nanBits else b)
  else if fvNan y then (if win then f.nanBits else a)
  else
    let aLess := match fvCmp x y with
      | .lt => true
      | .gt => false
      | .eq => fvNeg? x || !fvNeg? y
    if aLess != mx then a else b

/-- FRND (R254): the integral value of the operand; a zero result keeps its sign. -/
def fpIntegral (f : Fmt) (md : Rnd) (a : Nat) : Nat :=
  match fpDecode f a with
  | .nan => f.nanBits
  | .inf _ => a
  | .fin neg m e =>
    if 0 ≤ e then a
    else
      let k := roundQuot md neg m (2 ^ (-e).toNat)
      if k = 0 then fpSign f neg else fpRound f md false (.fin neg k 0)

/-- FSCL (R255). -/
def fpScaleBy (f : Fmt) (md : Rnd) (a : Nat) (k : Int) : Nat := fpRound f md false (fvScale k (fpDecode f a))

/-- An exact value rounded to an integer with a mode, between bounds (R223). -/
def fvToInt (md : Rnd) (lo hi : Int) : Fv → Int
  | .nan => 0
  | .inf neg => if neg then lo else hi
  | .fin neg m e =>
    -- beyond 2^80 the bound is the result whatever the low bits
    if 80 < e then (if m = 0 then 0 else if neg then lo else hi)
    else
      let k := if 0 ≤ e then m * 2 ^ e.toNat else
        if (Nat.log2 m : Int) + e < -2 then roundQuot md neg (if m = 0 then 0 else 1) 4 else roundQuot md neg m (2 ^ (-e).toNat)
      max lo (min hi (fvSigned neg k))

/-- The class bit of FCLS (R253). -/
def fpClass (f : Fmt) (a : Nat) : Nat :=
  match fpDecode f a with
  | .nan => if a / 2 ^ (f.prec - 2) % 2 = 1 then 8 else 9
  | .inf neg => if neg then 0 else 7
  | .fin neg m _ =>
    if m = 0 then (if neg then 3 else 4)
    else if m < 2 ^ (f.prec - 1) then (if neg then 2 else 5)
    else if neg then 1 else 6

/-! ## Block formats -/

/-- The unscaled value of an E2M1 code (R212); the escape code is not asked here. -/
def e2m1Value (code : Nat) : Fv :=
  let neg := code / 8 % 2 = 1
  let ex := code / 2 % 4
  let man := code % 2
  if ex = 0 then .fin neg man (-1) else .fin neg (2 + man) ((ex : Int) - 2)

/-- Magnitude bits of a KB member (R217): 0 KB4, 1 KB6, 2 KB9. -/
def kbBits (mem : Nat) : Nat := if mem = 0 then 2 else if mem = 1 then 4 else 7

/-- The value of a KB container under shared exponent `ex` and micro-exponent `mu` (R218). -/
def kbValue (mem container ex mu : Nat) : Fv :=
  if ex = 0xFF then .nan
  else
    let p := kbBits mem
    .fin (container / 128 % 2 = 1) (container % 2 ^ p) ((ex : Int) - 127 - mu - (p - 1))

/-- Rounds a quotient to the E2M1 grid with a next step of 8 above 4 (R216): the magnitude in halves. -/
def e2m1Grid (md : Rnd) (neg : Bool) (m : Nat) (e : Int) : Nat :=
  -- grid: steps of 1/2 up to 2, of 1 up to 4, of 2 up to 6, then 8, 16, ...
  if m = 0 then 0
  else
    let l : Int := (Nat.log2 m : Nat) + e
    if 4 ≤ l then 32
    else
      let (m, e) : Nat × Int := if l < -6 then (1, -6) else (m, e)
      let q : Int := if l < 1 then -1 else if l < 2 then 0 else 1
      let s := scaleQuot m 1 e q
      roundQuot md neg s.1 s.2 * 2 ^ (q + 1).toNat

/-- The code of a magnitude in halves, 0 to 12. -/
def e2m1Code (h : Nat) : Nat :=
  if h ≤ 3 then h else if h = 4 then 4 else if h = 6 then 5 else if h = 8 then 6 else 7

/-- One element of R216 at its place: the code, and the outlier entry where it escapes and the list has room. -/
def e2m1Element (md : Rnd) (sx : Nat) (x : Fv) : Nat × Option Nat :=
  match x with
  | .nan => (8, some fmtBf16.nanBits)
  | .inf neg => (8, some (fpInf fmtBf16 neg))
  | .fin neg m e =>
    let h := e2m1Grid md neg m (e - ((sx : Int) - 127))
    if 12 < h then (8, some (fpRound fmtBf16 md false x))
    else if h = 0 then (0, none)
    else ((if neg then 8 else 0) + e2m1Code h, none)

/-- Converts a list of values to E2M1 codes and outliers, two at most (R216). -/
def e2m1Block (md : Rnd) (sx : Nat) : List Fv → List Nat × List Nat → List Nat × List Nat
  | [], acc => (acc.1.reverse, acc.2.reverse)
  | x :: xs, acc =>
    let c := e2m1Element md sx x
    e2m1Block md sx xs (c.1 :: acc.1, match c.2 with
      | some o => if acc.2.length < 2 then o :: acc.2 else acc.2
      | none => acc.2)

/-- The KB container of a value under (E, MU) (R219). -/
def kbElement (mem : Nat) (md : Rnd) (ex mu : Nat) (x : Fv) : Nat :=
  let p := kbBits mem
  let mx := 2 ^ p - 1
  match x with
  | .nan => 0
  | .inf neg => (if neg then 128 else 0) + mx
  | .fin neg m e =>
    let d : Int := e - ((ex : Int) - 127 - mu - (p - 1))
    let k := if m = 0 then 0 else if 8 < (Nat.log2 m : Int) + d then mx
      else if (Nat.log2 m : Int) + d < -4 then roundQuot md neg 1 16
      else
        let s := scaleQuot m 1 d 0
        roundQuot md neg s.1 s.2
    (if neg then 128 else 0) + min mx k

/-! ## Sums -/

/-- What a chunk has met so far: a NaN, an infinity of either sign, a product, a product that is not −0, and the exact sum. -/
structure ChunkSum where
  nan : Bool
  pinf : Bool
  ninf : Bool
  some : Bool
  notNegZero : Bool
  sum : Dyadic
  deriving DecidableEq, Repr

/-- No product yet. -/
def chunkEmpty : ChunkSum := ⟨false, false, false, false, false, (0, 0)⟩

/-- One exact product joins the chunk (R225). -/
def chunkAdd (c : ChunkSum) : Fv → ChunkSum
  | .nan => { c with nan := true, some := true }
  | .inf neg => if neg then { c with ninf := true, some := true } else { c with pinf := true, some := true }
  | .fin neg m e =>
    { c with some := true, notNegZero := c.notNegZero || !(m = 0 && neg), sum := Dyadic.plus c.sum (fvSigned neg m, e) }

/-- The exact chunk sum S (R225). -/
def chunkTotal (c : ChunkSum) : Fv :=
  if c.nan || (c.pinf && c.ninf) then .nan
  else if c.pinf then .inf false
  else if c.ninf then .inf true
  else fvOf c.sum (!c.notNegZero)

/-- A chunk added to an f32 accumulator (R225); a chunk with no product leaves it (R227). -/
def chunkInto (y : Nat) (products : List Fv) : Nat :=
  if products = [] then y
  else fpAdd fmtF32 .rn y (fpRound fmtF32 .rn false (chunkTotal (products.foldl chunkAdd chunkEmpty)))

/-- One level of the pairwise tree (R228): an absent child leaves the other as it is. -/
def treeLevel (f : Fmt) : List (Option Nat) → List (Option Nat)
  | x :: y :: r =>
    (match x, y with
      | some a, some b => some (fpAdd f .rn a b)
      | some a, none => some a
      | none, some b => some b
      | none, none => none) :: treeLevel f r
  | l => l

/-- `n` levels. -/
def treeLevels (f : Fmt) : Nat → List (Option Nat) → List (Option Nat)
  | 0, l => l
  | n + 1, l => treeLevels f n (treeLevel f l)

/-- The pairwise tree over the leaves of a row (R228); absent gives +0. -/
def treeSum (f : Fmt) (leaves : List (Option Nat)) : Nat :=
  match treeLevels f 5 leaves with
  | some x :: _ => x
  | _ => 0

/-- The largest present leaf (R228): NaN when one is, −∞ when none is present. -/
def rowLargest (f : Fmt) : List (Option Nat) → Nat
  | [] => fpInf f true
  | none :: r => rowLargest f r
  | some x :: r => fpMinMax f true true x (rowLargest f r)

end Sys2Proof.Machine
end

