-- ==== Sys2Proof/Machine/Flags.lean ====
section
/-! DEFINITION. The machine has no condition flags: a comparison gives a predicate value (R245, R252). This file holds
the comparisons, the cause codes (R358) and the rank that decides which cause a frame names (R359). -/

namespace Sys2Proof.Machine

/-- The relation CMP of R183 on an ordering: 0 eq, 1 ne, 2 lt, 3 le, 4 gt, 5 ge. -/
def cmpHolds (cmp : Nat) (o : Ordering) : Bool :=
  match cmp with
  | 0 => o == .eq
  | 1 => o != .eq
  | 2 => o == .lt
  | 3 => o != .gt
  | 4 => o == .gt
  | _ => o != .lt

/-- The order of two integers. -/
def intOrder (a b : Int) : Ordering := if a < b then .lt else if a = b then .eq else .gt

/-- FCMP (R252) on patterns of a format. -/
def fcmpHolds (f : Fmt) (fn a b : Nat) : Bool :=
  let x := fpDecode f a
  let y := fpDecode f b
  let un := fvNan x || fvNan y
  if fn = 6 then !un
  else if fn = 7 then un
  else if un then fn = 1
  else cmpHolds fn (fvCmp x y)

/-- A predicate as a value. -/
def predWord (b : Bool) : Word := if b then 1 else 0

/-! ## Causes -/

abbrev causeBreak : BitVec 8 := 0x01
abbrev causeHaltPc : BitVec 8 := 0x02
abbrev causeHaltData : BitVec 8 := 0x03
abbrev causeSoftTrap : BitVec 8 := 0x04
abbrev causeFetchUnmapped : BitVec 8 := 0x10
abbrev causeFetchRights : BitVec 8 := 0x11
abbrev causeLowerReject : BitVec 8 := 0x12
abbrev causeDieIllegal : BitVec 8 := 0x13
abbrev causeDataUnmapped : BitVec 8 := 0x20
abbrev causeDataRights : BitVec 8 := 0x21
abbrev causeMisaligned : BitVec 8 := 0x22
abbrev causeSpaceBad : BitVec 8 := 0x23
abbrev causeSpaceForeign : BitVec 8 := 0x24
abbrev causeHandleStale : BitVec 8 := 0x25
abbrev causeHandleRange : BitVec 8 := 0x26
abbrev causeWorld : BitVec 8 := 0x27
abbrev causeCellSelf : BitVec 8 := 0x30
abbrev causeCellDepth : BitVec 8 := 0x31
abbrev causeCellFailed : BitVec 8 := 0x32
abbrev causeCellBusy : BitVec 8 := 0x33
abbrev causeCellShape : BitVec 8 := 0x34
abbrev causeBarOverflow : BitVec 8 := 0x40
abbrev causeBarMember : BitVec 8 := 0x41
abbrev causeStreamUnbound : BitVec 8 := 0x43
abbrev causeCoupleUnbalanced : BitVec 8 := 0x50
abbrev causeCoupleStill : BitVec 8 := 0x51
abbrev causeCoupleTag : BitVec 8 := 0x52
abbrev causeSpillOverflow : BitVec 8 := 0x60
abbrev causeCallUnbound : BitVec 8 := 0x61
abbrev causeIntegrity : BitVec 8 := 0x70

/-- A failed check: its place in R359 (100 times the step, then the order in the step), its cause and ADDR. -/
structure Fail where
  rank : Nat
  cause : BitVec 8
  addr : Word
  deriving DecidableEq, Repr

/-- A check of step 4, which no address belongs to (R359). -/
def failState (c : BitVec 8) (addr : Word) : Fail := ⟨400, c, addr⟩

/-- The place in step 6 (600), or in the reading of an entry in step 5, of a cause of an address (R359). -/
def addressRank (c : BitVec 8) : Nat :=
  if c = causeSpaceBad then 0 else if c = causeSpaceForeign then 1 else if c = causeMisaligned then 2
  else if c = causeDataUnmapped then 3 else if c = causeWorld then 4 else if c = causeDataRights then 5 else 9

/-- A failed check of step 6. -/
def failAddr (c : BitVec 8) (addr : Word) : Fail := ⟨600 + addressRank c, c, addr⟩

/-- A failed check of step 7 or 8: at the core for a page that is no cell page and the own ancestry, at the slice
otherwise (R359). -/
def failCell (atCore : Bool) (c : BitVec 8) (addr : Word) : Fail :=
  ⟨if atCore then (if c = causeCellShape then 700 else 701)
    else if c = causeCellDepth then 800 else if c = causeCellShape then 801 else if c = causeCellFailed then 802 else 803,
    c, addr⟩

/-- Poisoned data (R359 step 9). -/
def failIntegrity (addr : Word) : Fail := ⟨900, causeIntegrity, addr⟩

/-- What the lanes of a word failed, lowest lane first: the cause that ranks first, the lanes with it, and the ADDR of
the lowest of them (R360). -/
def worstOf : List (Nat × Fail) → Option (BitVec 8 × List Nat × Word)
  | [] => none
  | fs =>
    let best := fs.foldl (fun b p => if p.2.rank < b.rank then p.2 else b) (fs.headD (0, ⟨0, 0, 0⟩)).2
    let same := fs.filter (fun p => p.2.cause = best.cause)
    some (best.cause, same.map (fun p => p.1), (same.headD (0, best)).2.addr)

end Sys2Proof.Machine
end

