-- ==== Sys2Proof/Config.lean ====
section
/-! DEFINITION. What the part fixes (R9 to R14) and the free values: constants without a body that no proof can see (log entry 8). -/

namespace Sys2Proof.Config

/-- Cores of the package (R11). -/
abbrev numCores : Nat := 3328
/-- Clusters of the package (R11). -/
abbrev numClusters : Nat := 208
/-- Lanes of a core (R8). -/
abbrev lanes : Nat := 32
/-- Bytes of one local tile (R85). -/
abbrev tileBytes : Nat := 16384
/-- Bytes of device memory: 576 GiB (R91). -/
abbrev deviceBytes : Nat := 618475290624
/-- L2 slices of the package: 64 of each base die (R10). -/
abbrev numSlices : Nat := 256
/-- Devices of one memory domain (R348). -/
abbrev numDevices : Nat := 72
/-- Tags of a core (R297). -/
abbrev numTags : Nat := 64

/-- FREE VALUE (log entry 8): what a destination holds that its record did not write: because a handler set DONE (R152), because
a coupled region left it undefined (R54), because the code before a record was lowered from other bytes (R197), or because no port
brings an atomic's reply (R396). Applied to the free counter of State. -/
opaque staleValue : Nat → Word

/-- FREE VALUE (log entry 8): the bound rendering on a compute die and stepping of special function `fn` at an f32
operand (R229, R230), before it is held to the error bound. -/
opaque sfnBound : Nat → BitVec 4 → Nat → W32 → W32

/-- FREE VALUE (log entry 8): the word of a replay entry (0 DWORD, 1 TAIL, 2 DLIT) that the stepping's lowering gave
a record (R155, R188): stepping, module address, block, record, which word. -/
opaque dieWord : BitVec 4 → Word → Nat → Nat → Nat → W32

/-- FREE VALUE (log entry 8): where in its entry the bundle and word of a record lie that the stepping's lowering chose
(R154 DIEPC, R192 MAP). -/
opaque diePc : BitVec 4 → Word → Nat → Nat → Word

/-- FREE VALUE (log entry 8): where in the Sinter store an entry starts, in units of 64 bytes (R192). Applied to the free
counter of State. -/
opaque sinterStart : Nat → Nat

/-- FREE VALUE (log entry 8): byte `i` of the header of a snapshot (R352): SEQ, partition, page count, `i`. -/
opaque snapHeader : W32 → Nat → Nat → Nat → Byte

/-- FREE VALUE (log entry 8): byte `i` of a page descriptor of a snapshot (R352): address, page size, CELL, `i`. -/
opaque snapDescriptor : Word → Nat → Bool → Nat → Byte

/-- FREE VALUE (log entry 8): what the host sees of a read that fails for another reason than its world (R345). Applied
to the free counter of State and the byte. -/
opaque hostByte : Nat → Nat → Byte

/-- FREE VALUE (log entry 9): SHA-256 of an image (R356); the function is defined outside the manual. -/
opaque sha256 : List Byte → List Byte

/-- FREE VALUE (log entry 9): whether an SLH-DSA-SHA2-192s signature of an image verifies under the key whose digest
is fused (R356). -/
opaque signatureOk : List Byte → List Byte → List Byte → Bool

/-- FREE VALUE (log entry 9): the signature of an attestation reply under the device identity key (R356). -/
opaque sign : List Byte → List Byte

end Sys2Proof.Config
end

