-- ==== Sys2Proof/Machine/State.lean ====
section
/-! DEFINITION. The state of the SV-KN9: everything spec/ gives the machine, as plain data, the reasons a step can
stop, and the state after reset. INVENTORY.md lists each piece with the rule that names it. -/

namespace Sys2Proof.Machine

/-- A sparse map: keys strictly rising, no entry equal to what an unlisted key reads as. -/
abbrev SMap (α : Type) := List (Nat × α)

/-! ## Modules, blocks and Sinter entries -/

/-- An entry descriptor (R179). -/
structure EntryDesc where
  ekind : Nat
  waves : Nat
  window : Nat
  priv : Nat
  tiles : BitVec 48
  dqbase : Nat
  dqlim : Nat
  tblk : Nat
  nargs : Nat
  nkeep : Nat
  tmr : Nat
  launcher : Bool
  /-- MEMBERS and TM of each group. -/
  groups : List (BitVec 16 × Bool)
  deriving DecidableEq, Repr

/-- A block-table entry (R178), with addresses in place of offsets. -/
structure BlockInfo where
  addr : Word
  nrec : Nat
  kind : Nat
  vwidth : Nat
  vof : Nat
  nlit : Nat
  litAddr : Word
  desc : Option EntryDesc
  deriving DecidableEq, Repr

/-- The key of a Sinter entry (R191). -/
structure SKey where
  asid : Nat
  baddr : Word
  step : BitVec 4
  nkeep : Nat
  window : Nat
  sec : Bool
  simtr : Bool
  nch : Nat
  vwl : Nat
  deriving DecidableEq, Repr

/-- The TRAP word that stands in place of a record (R199): the record, the cause and the failing address. -/
structure Marker where
  rcd : Nat
  cause : BitVec 8
  addr : Word
  deriving DecidableEq, Repr

/-- A Sinter entry (R192). `recs` and `lits` are the bytes it was lowered from (R197); `code` holds die words
of whole bundles when they stand in the store explicitly, with `map` the word each record starts at, and is empty where the model runs the records themselves (log entry 3);
`failed` is STATE 3; `pages` are the pages it was built from (R196). -/
structure SEntry where
  key : SKey
  part : Nat
  /-- Its Sinter address (R192). -/
  start : Nat
  modl : Word
  blk : Nat
  kind : Nat
  vof : Nat
  nrec : Nat
  recs : List Word
  lits : List Word
  marker : Option Marker
  code : List W32
  map : List Nat
  failed : Bool
  placement : Option Placement
  pages : List Word
  deriving DecidableEq, Repr

/-- A request to a die's lowering engine (R187). -/
structure LowerReq where
  die : Nat
  part : Nat
  key : SKey
  modl : Word
  blk : Nat
  /-- Asked for by PFI alone: nothing is installed where a page fails (R200). -/
  pfi : Bool
  deriving DecidableEq, Repr

/-- A module submitted for verification and its word (R181), with what verification found that a block's re-check needs
(R187): BLKTAB, the block table, the blocks that start with a JOIN, and each entry with the blocks it reaches. -/
structure ModReg where
  part : Nat
  base : Word
  word : Word
  blktab : Nat
  table : List BlockInfo
  joins : List Nat
  reach : List (EntryDesc × List Nat)
  deriving DecidableEq, Repr

/-! ## Tasks, bins, groups -/

/-- What the device keeps for an evaluator lane (R135, R140, R143): its own cell, instance and ancestry. -/
structure EvalInfo where
  va : Word
  pa : Nat
  slice : Nat
  inst : W32
  evix : Nat
  ancestry : List Word
  deriving DecidableEq, Repr

/-- A task record (R37), with what the device keeps beside an evaluator's record. -/
structure TaskRec where
  launch : W32
  tmr : BitVec 4
  eval : Bool
  isLocal : Bool
  arg1 : Word
  arg0 : Word
  entry : Word
  ev : Option EvalInfo
  deriving DecidableEq, Repr

/-- A bin (R39): its pair (ENTRY, LAUNCH), its records, oldest first, the local cycle its timer reaches zero at,
and whether it must launch and holds its records. -/
structure Bin where
  entry : Word
  launch : W32
  eval : Bool
  recs : List TaskRec
  deadline : Nat
  must : Bool
  deriving DecidableEq, Repr

/-- An arrival held at a full phase (R35). -/
inductive Arrival where
  /-- `replay`: the arrival of a re-injected BAR (R159). -/
  | wave (wslot x : Nat) (wait replay : Bool)
  | tender (idx : Nat)
  deriving DecidableEq, Repr

/-- A group-table entry (R34) with the owner that placement gave it and its held arrivals. -/
structure Group where
  owner : Nat
  credit : Nat
  pending : Nat
  arrived : Nat
  expect : Nat
  phase : Bool
  tm : Bool
  amask : BitVec 16
  members : BitVec 16
  held : List Arrival
  /-- The tender has an arrival counted in the present phase (R35). -/
  tmeet : Bool
  deriving DecidableEq, Repr

/-! ## PC slots and waves -/

/-- The state of a PC slot (R24) below PARKED and HALTED, which the wave holds. -/
inductive SlotSt where
  | empty | eligible | stalled | waiting
  deriving DecidableEq, Repr

/-- What a walk that has ended delivers (R104, R375): the page, and its leaf where there is one: its place, its value, its page's
size. -/
structure Walked where
  page : Nat
  leaf : Option (Nat × Word × Nat)
  deriving DecidableEq, Repr

/-- Why a slot is STALLED or WAITING: what must come about before it issues again. -/
inductive Wait where
  | none
  /-- STALLED: its Sinter entry is being lowered (R187). -/
  | lower
  /-- STALLED: in binding of the stub `target` (R273). -/
  | bind (target : Word)
  /-- STALLED: a result it reads has not returned (R203). -/
  | value
  /-- STALLED: a switch marker (M), until every result of the slot has been written (R203). -/
  | switch
  /-- STALLED: an access of its record, which issued with number `grp`, is parked on the walk of a page (R104). -/
  | walk (page grp : Nat)
  /-- ELIGIBLE again: the walk its record was parked on has ended, and its accesses resume or fault (R104). -/
  | walked (grp : Nat) (r : Walked)
  /-- STALLED: a fence or a release waits for the wave's accesses with an id below `upto` (R120, R349). -/
  | port (upto : Nat)
  /-- STALLED: a command is held at issue (R281, R297). -/
  | engine
  /-- STALLED: a shadow-destination write waits at issue until OLDREF of the entry is 0 (R99, R302). -/
  | shadow (idx : Nat)
  /-- STALLED: a COUPLE that is held or being placed (R55, R56). -/
  | couple
  /-- STALLED: its region runs coupled (R55). -/
  | region
  /-- STALLED: its carriage has ended and waits for its commit (R42). -/
  | commit
  /-- STALLED: the sibling must leave WAITING before the record proceeds (R27). -/
  | sibling
  /-- WAITING in BAR.wait: the group entry and PHASE at the arrival (R35). -/
  | barrier (entry : Nat) (phase : Bool)
  /-- WAITING: the arrival is held (R35). -/
  | barHeld (entry : Nat)
  /-- WAITING in WAIT.any or WAIT.first (some bit of the mask), or WAIT.all (every bit) (R304). -/
  | tags (mask : Word) (all : Bool)
  /-- WAITING in WAIT.ring: until HEAD of the entry differs from the index (R304). -/
  | ring (entry expect : Nat)
  /-- WAITING in SPOP (R125). -/
  | stream (n : Nat)
  /-- WAITING in SPAWN.task on a full deque (R38); `again`: in one that a return re-injected (R159). -/
  | deque (again : Bool)
  /-- WAITING in SYS.snap for an earlier snapshot, then for the cut (R332). -/
  | snap
  | cut
  deriving DecidableEq, Repr

/-- Where bytes are held: device memory, host memory, a fabric peer, a core's tiles (R78, R102). -/
inductive Place where
  | dev (pa : Nat)
  | host (ha : Nat)
  | fab (dev addr : Nat)
  | tile (core off : Nat)
  deriving DecidableEq, Repr

/-- A commit operation of a carriage lane (R144): CELL.SET with its value, or CELL.TAG. -/
inductive CellOp where
  | set (v : Word)
  | tag
  deriving DecidableEq, Repr

/-- A CELL commit of a carriage: the lane and the record it stands at. -/
structure CellCommit where
  lane : Nat
  rcd : Nat
  op : CellOp
  deriving DecidableEq, Repr

/-- Where a result goes: the record's value, or a register a die word names (R203): a vector name, or a uniform slot. -/
inductive Dest where
  | value
  | vreg (n : BitVec 7)
  | ureg (slot : BitVec 8)
  deriving DecidableEq, Repr

/-- The form a word was issued in (R155): where its result goes, the window base at issue, and DWORD, TAIL and DLIT of
an explicit die word. -/
structure Form where
  dest : Dest
  win : Nat
  dword : Option (W32 × W32 × W32)
  deriving DecidableEq, Repr

/-- What a BRC, JOIN or EXIT die word has computed for the DSPL that follows it (R205): its kind K, the taken lanes, the
target and the reconvergence block. -/
structure Pending where
  k : Nat
  taken : W32
  target : Nat
  join : Nat
  deriving DecidableEq, Repr

/-- A replay entry (R155) as the core keeps it; DONE and OPS are read back from the frame (R158). -/
structure Replay where
  ins : Instr
  blk : Nat
  rcd : Nat
  x : Nat
  lanes : W32
  done : W32
  /-- Operand position (0 A, 1 B, 2 C) and whether it takes two words, in capture order. -/
  opmap : List (Nat × Bool)
  /-- Captured operand values, keyed 32 * position + lane. -/
  ops : SMap Word
  car : Bool
  form : Form
  /-- The records of its block, which say which of its operands are uniform-valued (R171). -/
  recs : List Word
  /-- Its issue number among the accesses of the wave, which orders the entries (R155); 0 once it waits for re-injection. -/
  grp : Nat
  /-- Records after it may have taken effect: a trap of it is LATE (R152). -/
  late : Bool
  /-- The divergence work of a DSPL word (R205). -/
  pend : Option Pending
  /-- The records the word completes, which comparators name (R161). -/
  ends : List Nat
  /-- The frame gave it a DWORD under R206: it traps at re-injection (R366). -/
  bad : Bool
  deriving DecidableEq, Repr

/-- What SPAWN.launch has read (R45): the record's address and bytes, its inputs, its arguments. -/
structure LaunchRead where
  addr : Word
  raw : List Byte
  inputs : List Word
  args : List Word
  deriving DecidableEq, Repr

/-- A carriage in progress (R42): what it started from, what it has done and not committed. -/
structure Carriage where
  blk : Nat
  /-- The record it starts at: 0, the one after the JOIN at the block's head, or the one after a BRC that ended the carriage
  before it (log entry 11). -/
  first : Nat
  baddr : Word
  /-- What its register and uniform-slot writes overwrote, latest first, with the poison marks: restored when it aborts. -/
  regs : List (Nat × W32 × Bool)
  uni : List (Nat × Word × List Nat)
  mask : W32
  /-- Its stores, in order: where, the bytes, and whether the place is a cell page. -/
  stores : List (Place × List Byte × Bool)
  lines : List Nat
  spawns : List TaskRec
  launches : List (Nat × LaunchRead)
  cells : List CellCommit
  /-- Latches of its STB records, whose counts are given back when it ends (R283). -/
  latched : List (Nat × W32)
  /-- Its stores and atomics to a peer, by lane and address: unacknowledged where it commits with every port down (R396). -/
  peers : List (Nat × Word)
  aborts : Nat
  serial : Bool
  exiting : Bool
  deriving DecidableEq, Repr

/-- One PC slot (R23, R24), with its die-code registers (R204, R205). -/
structure Slot where
  st : SlotSt
  wait : Wait
  blk : Nat
  rcd : Nat
  baddr : Word
  mask : W32
  jblk : Nat
  ready : Nat
  skip : Nat
  held : W32
  woff : BitVec 7
  ub : Bool
  dlit : Option (BitVec 24)
  dspl : Option Pending
  dieAt : Option Nat
  illegal : Option (Nat × Nat)
  /-- It stands at COUPLE because its region was gated there or frozen (R71, R72, R160). -/
  cpl : Bool
  /-- The record (block, record) that issues once more without a comparator match (R162). -/
  stepOver : Option (Nat × Nat)
  simt : Bool
  car : Option Carriage
  /-- The records and literals of the entry that the slot has run of its block, where the model runs records (R197). -/
  ran : List Word × List Word
  deriving DecidableEq, Repr

/-- An entry of the divergence area (R26). -/
inductive DivEntry where
  | path (rcd blk : Nat) (mask : W32) (jblk : Nat)
  | join (j : Nat) (m w : W32) (o : Nat)
  deriving DecidableEq, Repr

/-- The kinds of wave, in the order of WKIND (R263). -/
inductive WKind where
  | kernel | task | evaluator | handler
  deriving DecidableEq, Repr

/-- Why a wave is HALTED (R154). -/
structure StopInfo where
  cause : BitVec 8
  stop : Nat
  slot : Nat
  /-- The stop was posted to KC_DBGRING (R157). -/
  posted : Bool
  blk : Nat
  rcd : Nat
  /-- The lanes and the address of the frame (R154). -/
  lanes : W32
  addr : Word
  deriving DecidableEq, Repr

/-- The value of a record in a lane: its own value and, for a two-value record, the high 8 bytes (R168). -/
structure Val where
  lo : Word
  hi : Word
  deriving DecidableEq, Repr

/-- A tender stop to be reported to a wave (R369). -/
structure TenderReport where
  cause : BitVec 8
  blk : Nat
  rcd : Nat
  addr : Word
  deriving DecidableEq, Repr

/-- A resident wave (R23). -/
structure Wave where
  uid : Nat
  kind : WKind
  part : Nat
  /-- The placed block it belongs to; 0 where there is none. -/
  block : Nat
  launch : Nat
  blockIdx : Nat
  waveIdx : Nat
  waves : Nat
  nblk : Nat
  prio : Nat
  modl : Word
  entry : Nat
  table : List BlockInfo
  winBase : Nat
  window : Nat
  nkeep : Nat
  ngroup : Nat
  groupBase : Nat
  priv : Nat
  privBase : Word
  step : BitVec 4
  args : List Word
  uni : SMap Word
  vals : SMap Val
  /-- Poisoned 4-byte words of the uniform registers (2 · slot + half) and of the registers that hold record values
  (4 · (32 · record + lane) + word) (R394, R395). -/
  uniPoison : List Nat
  valPoison : List Nat
  /-- Entries on chip, newest first. -/
  div : List DivEntry
  /-- Older entries that stand in memory only (R26). -/
  divMem : Nat
  /-- The lanes that those hold. -/
  divLanes : W32
  /-- The records and literals that paths in the area have run of their blocks, by their lanes (R197). -/
  divRan : List (W32 × List Word × List Word)
  evals : SMap EvalInfo
  committed : W32
  adopted : W32
  parked : Bool
  halted : Bool
  stop : Option StopInfo
  replay : List Replay
  report : Option TenderReport
  /-- The wave a handler serves, by slot of the core (R156). -/
  serves : Option Nat
  slot0 : Slot
  slot1 : Slot
  deriving DecidableEq, Repr

/-! ## The core -/

/-- A slot of a stream ring (R125). -/
inductive RingSlot where
  | free | reserved | full | taken
  deriving DecidableEq, Repr

/-- A bound stream (R333), with the SENDs that wait for a FREE slot as (core, command). -/
structure Stream where
  handle : W32
  base : Word
  slotsz : Nat
  slots : List RingSlot
  widx : Nat
  ridx : Nat
  waiting : List (Nat × Nat)
  deriving DecidableEq, Repr

/-- What a dray command does (R296 to R303). -/
inductive CmdKind where
  | send | sendStrm | copyIn | copyOut | publ
  deriving DecidableEq, Repr

/-- Where a dray command stands. -/
inductive CmdStage where
  /-- A SEND that has not reached its destination core, or waits there for a FREE slot (R125). -/
  | travel
  /-- Bytes may move. -/
  | moving
  /-- Bytes are performed; its publish is to come (R302). -/
  | publish
  /-- Ready to complete (R298). -/
  | done
  deriving DecidableEq, Repr

/-- A resource entry as a latch keeps it (R98). -/
structure Latch where
  idx : Nat
  base : Word
  size : Word
  shadow : Word
  gen : BitVec 8
  kind : Nat
  rights : BitVec 8
  world : Bool
  pubver : W32
  kspec : List Byte
  deriving DecidableEq, Repr

/-- A dray-engine command that has issued and not completed. -/
structure Cmd where
  id : Nat
  kind : CmdKind
  stage : CmdStage
  tag : Nat
  /-- Scratchpad or typed-buffer side: role and offset (R296). -/
  role : Nat
  off : Nat
  len : Nat
  /-- The other side: a local offset, a global address of a buffer, or a host address. -/
  locOff : Option Nat
  latch : Option Latch
  /-- Offset in the resource. -/
  roff : Nat
  shadow : Bool
  publ : Bool
  counted : Bool
  ring : Option Latch
  ben : Bool
  bent : Nat
  ev : Bool
  owner : Nat
  dstCore : Nat
  dstOff : Nat
  stream : Nat
  slot : Nat
  /-- Source bytes read, and those of them that wait for the rest of their destination word: `none` for a damaged byte,
  `some none` for one that could not be read (R113, R383). -/
  moved : Nat
  carry : List (Option (Option Byte))
  written : Nat
  /-- The last word written is the lower half of an 8-byte word of the destination (R395). -/
  lowHalf : Bool
  status : Nat
  fault : BitVec 8
  secure : Bool
  part : Nat
  pubOut : Option W32
  /-- Events it has logged: one entry of each for the first address that gives it (R398, R399). -/
  told : List Nat
  deriving DecidableEq, Repr

/-- Where a tender stream stands (R307, R312). -/
inductive TenderSt where
  | ready | tmeet (entry : Nat) (phase : Bool) (held : Bool) | ended
  deriving DecidableEq, Repr

/-- A tender stream (R307, R309). -/
structure Tender where
  block : Nat
  blk : Nat
  recs : List Word
  lits : List Word
  bad : Option Marker
  pc : Nat
  qmap : Word
  inc : Word
  p : Nat
  st : TenderSt
  since : Nat
  deriving DecidableEq, Repr

/-- A block placed on a core (R32, R34). -/
structure PlacedBlock where
  uid : Nat
  launch : Nat
  index : Nat
  modl : Word
  entry : Nat
  groupBase : Nat
  ngroup : Nat
  nkeep : Nat
  /-- Wave slot of each wave index. -/
  wslots : List Nat
  live : List Nat
  deriving DecidableEq, Repr

/-- Kinds of a token (R61). -/
inductive TokKind where
  | data | tend | switch | bad
  deriving DecidableEq, Repr

/-- A token (R61). -/
structure Token where
  kind : TokKind
  ch : Nat
  value : W32
  /-- Its VALUE is poisoned (R394, R395). -/
  dam : Bool
  deriving DecidableEq, Repr

/-- What an access does at its location. -/
inductive AKind where
  | load
  | store
  /-- ATOM code of R284; 10 is compare-and-swap with comparand `c`. -/
  | atom (op : Nat)
  /-- ATMF: 0 add, 1 min, 2 max, 3 paired exchange (R285). -/
  | atmf (op : Nat)
  /-- CHASE and CELL.PEEK name the low register of the keep slot they write. -/
  | chase (reg : Nat) (off : Word)
  | peek (reg : Option Nat)
  | make
  deriving DecidableEq, Repr

/-- An access issued and not performed (R117, R120). One per lane of a record. -/
structure Access where
  id : Nat
  grp : Nat
  core : Nat
  wslot : Nat
  wuid : Nat
  x : Nat
  lane : Nat
  part : Nat
  secure : Bool
  blk : Nat
  rcd : Nat
  ins : Instr
  kind : AKind
  ty : Ty
  uniform : Bool
  /-- The lanes its record issued for. -/
  lanes : W32
  addr : Word
  size : Nat
  /-- Where its bytes lie, as its checks found them: one piece, or 4-byte pieces in the private window (R80). -/
  pieces : List (Place × Nat)
  cell : Bool
  order : Order
  scope : Scope
  b : Word
  c : Word
  /-- Counts in INFLIGHT of this resource index, latched at this PUBVER (R98, R283). -/
  latch : Option (Nat × W32)
  /-- It waits on a WAKING cell (R138). -/
  onCell : Bool
  /-- The cell it waited on has FAILED: it raises CELL_FAILED (R146). -/
  failed : Bool
  opmap : List (Nat × Bool)
  ops : SMap Word
  form : Form
  /-- The records its word completes (R161). -/
  ends : List Nat
  /-- The bytes of a load that was performed ahead of a narrower synchronisation (R109, R114), while that stands. -/
  early : Option (List Byte)
  /-- Lines that agents within a scope must not reach before this access is performed: stores with a narrow release that
  were performed ahead of it (R109, R114). -/
  guards : List (Nat × Scope)
  /-- The 8-byte half of a 16-byte access that has been performed, and what it read (R113). -/
  half : Option (Nat × List Byte)
  /-- It was re-injected at a return: later entries and records wait for it (R159). -/
  again : Bool
  deriving DecidableEq, Repr

/-- What an iteration does at its retirement (R67): a store, or an SREL of a stream; and a FENCE whose effect comes among them
(R77). -/
inductive IterEffect where
  | store (a : Access)
  | srel (rcd n : Nat)
  | fence (rcd : Nat)
  deriving DecidableEq, Repr

/-- An iteration of a channel inside the pipeline (R67): the stations that have processed its tokens, what it does at its
retirement, its keep slots as its KEEP and CHASE records leave them, the direction of its LOOP, the stream slots it has
popped (stream, slot), and the FENCE records that have taken effect (R77). -/
structure Iter where
  repl : Nat
  ch : Nat
  lane : Nat
  fired : List Nat
  effects : List IterEffect
  keeps : SMap Word
  taken : Bool
  pops : List (Nat × Nat)
  fenced : List Nat
  deriving DecidableEq, Repr

/-- A reply that a load or chase station owes its consumers (R73, R74), in the order of its requests: the channel, the
values its inputs held, the access that waits on a cell with its record, the value it gave, and the tokens to send once they
are known, as coupling and value. -/
structure Reply where
  station : Nat
  repl : Nat
  ch : Nat
  ins : List W32
  id : Option Nat
  rcd : Nat
  got : Option Word
  vals : Option (List (Nat × W32))
  deriving DecidableEq, Repr

/-- The states of a region (R70). -/
inductive RegionSt where
  | placing | parking | running | gated | draining | done
  deriving DecidableEq, Repr

/-- Why a region was gated (R71, R72): pre-emption, quantum, or a fault of a body record (cause, record, lane, address). -/
inductive Gate where
  | none | preempt | quantum
  | fault (cause : BitVec 8) (rcd lane : Nat) (addr : Word)
  deriving DecidableEq, Repr

/-- The coupled region of a core (R52 to R77). Channel t of replica r is lane `lanes[t·W + r]` (R63). -/
structure Region where
  wslot : Nat
  x : Nat
  st : RegionSt
  gate : Gate
  entry : Option SEntry
  width : Nat
  stations : List Station
  couplings : List Coupling
  /-- Tokens of each coupling, head first. -/
  queues : List (List Token)
  /-- Switch tokens that have left each coupling (R68). -/
  gens : List Nat
  /-- Stations that have consumed an end token, and steers that have sent it. -/
  ended : List Nat
  /-- Stations that have passed on the switch tokens of the gate (R69). -/
  switched : List Nat
  /-- Firings of each station in this pass. -/
  fired : List Nat
  /-- Stations that have fired in this cycle (R59). -/
  firedNow : List Nat
  /-- Replies not yet sent on, oldest first (R73, R74). -/
  asked : List Reply
  /-- Iterations in the pipeline, in the head order of their replica. -/
  iters : List Iter
  /-- What retired iterations do that has not come about, in order, with the lane of their channel (R67, R77, R126). -/
  tail : List (Nat × IterEffect)
  lanes : List Nat
  /-- Channels injected, by replica. -/
  injected : List Nat
  finished : W32
  /-- Keep slots of channels at their last retired iteration, keyed 256 · lane + slot (R71). -/
  kept : SMap Word
  /-- Local cycle of the COUPLE while it is being placed, then of the entry to RUNNING; and of the last firing. -/
  since : Nat
  moved : Nat
  deriving DecidableEq, Repr

/-- One core: configuration (R32), registers, tiles, groups, bins, engine, tags, streams, KC_ registers. -/
structure Core where
  waves : SMap (Option Wave)
  tiles : BitVec 48
  dqbase : Nat
  dqlim : Nat
  world : Bool
  cycle : Nat
  regs : SMap W32
  tileMem : List Host.Cell
  l1 : List (Nat × List Byte)
  groups : SMap Group
  /-- Records in the deque and the ring index of the oldest (R38). -/
  dqHead : Nat
  dqCount : Nat
  bins : List Bin
  stage : List TaskRec
  cmds : List Cmd
  tagBits : Word
  tagCnt : SMap Nat
  streams : SMap (Option Stream)
  kcCplq : Nat
  kcBintmr : Nat
  kcDbgring : W32
  kcRlim : Word
  rlSf : Nat
  rlMac : Nat
  dbgPcA : SMap Word
  dbgPcB : SMap Word
  dbgDaA : SMap Word
  dbgDaB : SMap Word
  last : Option Nat
  tenders : List Tender
  active : Option Nat
  region : Option Region
  blocks : List PlacedBlock
  /-- Wave slots whose stop waits for a handler wave (R156). -/
  handlers : List Nat
  /-- The launch that reserved the core (R47). -/
  reserved : Option Nat
  /-- When the next cycle of the arithmetic clock ends, in femtoseconds of `State.now` (R13, log entry 4). -/
  due : Nat
  /-- The local cycle from which the tender takes its next record where no turn names it (log entry 5). -/
  tenderAt : Nat
  /-- The rate-limiter window that `rlSf` and `rlMac` count in (R354). -/
  rlWin : Nat
  /-- Poisoned 4-byte words of the tiles and poisoned registers (R395). -/
  tilePoison : List Nat
  regPoison : List Nat
  deriving DecidableEq, Repr

/-! ## The device -/

/-- A waking record of a home slice (R138). Waiters are accesses by id, launches by identity. -/
structure WakeRec where
  pa : Nat
  va : Word
  part : Nat
  slice : Nat
  inst : W32
  evix : Nat
  waiters : List Nat
  launches : List Nat
  deriving DecidableEq, Repr

/-- Where a launch stands (R45 to R48). -/
inductive LaunchSt where
  | waiting | ready | complete | failed
  deriving DecidableEq, Repr

/-- An accepted launch (R45). -/
structure Launch where
  id : Nat
  part : Nat
  kernel : Word
  modl : Word
  entry : Nat
  table : List BlockInfo
  desc : EntryDesc
  nblk : Nat
  args : List Word
  inputs : List Word
  prio : Nat
  splice : Bool
  pred : Option Nat
  adopt : Option EvalInfo
  done : Word
  cl0 : Nat
  ncl : Nat
  secure : Bool
  world : Bool
  st : LaunchSt
  age : Nat
  nextBlock : Nat
  retired : Nat
  waited : Nat
  record : Word
  /-- Why it fails (R392), while `st` is failed. -/
  cause : BitVec 8
  deriving DecidableEq, Repr

/-- The modes of MG_PSWAP as read (R357). -/
inductive Pswap where
  | running | stopping | halted | exchanging
  deriving DecidableEq, Repr

/-- A page copied since a cut: its base, and its bytes, tags and poisoned words at the cut (R132, R395). -/
structure SnapPage where
  base : Nat
  bytes : List Host.Cell
  tags : SMap (BitVec 2)
  poison : List Nat
  deriving DecidableEq, Repr

/-- A partition's registers and its function (R346, R347, R357). -/
structure Part where
  clmap : BitVec 256
  rsv : Nat
  world : Bool
  bothw : Bool
  asid : Nat
  rtbase : Word
  rtlen : Word
  ptroot : Word
  tlbva : Word
  /-- The ranges of MG_TLBINV writes that may not have completed: address space base and page count (R103, R357). -/
  tlbinv : List (Word × Nat)
  modAddr : Option Word
  modWord : Word
  traph : Word
  pswap : Pswap
  exch : Bool
  cwsbase : Word
  cwslen : Word
  snap : Word
  snapTgt : Word
  pwr : Word
  hbase : Word
  privbase : Word
  privstride : Word
  mkaddr : Word
  pkaddr : Word
  status : Bool
  msixMask : List Nat
  msixPend : List Nat
  snapSeq : W32
  snapFault : BitVec 8
  snapState : Nat
  /-- Pages copied since the cut (R132). -/
  snapPages : List SnapPage
  /-- When the last core reported halted for the exchange in progress, as `State.now` (R17, R163). -/
  exchAt : Nat
  /-- Waves that have still to go on after an exchange or a RESUME, as (core, wave slot) (R163). -/
  toResume : List (Nat × Nat)
  deriving DecidableEq, Repr

/-- A snapshot cut in progress (R130): the slot that took it, the slices the mark has reached and those released. -/
structure Cut where
  part : Nat
  core : Nat
  wslot : Nat
  x : Nat
  marked : List Nat
  released : List Nat
  deriving DecidableEq, Repr

/-- A cached translation (R103): the cache that holds it (a core's, numCores + cluster, or the last one for agents outside the
cores), partition, 4 KiB page of the virtual address, and the leaf as walked: its value, its level's page size and its physical
address. -/
structure Tlb where
  unit : Nat
  part : Nat
  page : Nat
  leaf : Word
  bytes : Nat
  pte : Nat
  deriving DecidableEq, Repr

/-- A compute die (R12, R13, R355, R398). -/
structure Die where
  stepping : BitVec 4
  stepset : BitVec 16
  joined : Bool
  /-- It failed its self-test and never joins (R355). -/
  failed : Bool
  mhz : Nat
  /-- Fabric cycle of the last corrected error logged, and those not logged since (R398). -/
  softAt : Option Nat
  lost : Nat
  sinter : List SEntry
  /-- Entries of explicit code that have left the store: the same key and bytes give the same entry again (R188, R193). -/
  gone : List SEntry
  deriving DecidableEq, Repr

/-- Who issues, or acts for a core, in this step. -/
inductive Issuer where
  | nobody
  | slot (core wslot x : Nat)
  | tender (core idx : Nat)
  | engine (core : Nat)
  deriving DecidableEq, Repr

/-- A unit of a core's storage that an error may strike (R394, R395): a register of a lane, a 4-byte word of the tiles, a word
of a uniform register or of a record's value in wave slot `w`, the token at a place of a coupling. -/
inductive StruckUnit where
  | reg (key : Nat)
  | tile (word : Nat)
  | uni (w key : Nat)
  | val (w key : Nat)
  | token (coupling place : Nat)
  deriving DecidableEq, Repr

/-- A count that a latch gives back to a resource entry (R98): the partition, the slots and core it belongs to, the entry, and
the PUBVER it was latched at. -/
structure Owed where
  part : Nat
  own : List (Nat × Nat × Nat)
  core : Option Nat
  idx : Nat
  ver : W32
  deriving DecidableEq, Repr

/-- The issue of this step (the model's own, log entry 3): who issues, for which lanes, from which block, with which
captured operands (a replay entry or a carriage entry), and whether accesses are left in flight. -/
structure Issue where
  who : Issuer
  lanes : W32
  blk : Nat
  rcd : Nat
  nrec : Nat
  kind : Nat
  recs : List Word
  lits : List Word
  form : Form
  /-- The word of explicit code that follows, and its record; none at the end of a run. -/
  next : Option (Nat × Nat)
  /-- The records that the word completes (R161, R209). -/
  ends : List Nat
  /-- The walk that its accesses were parked on, with its partition: what it found is what they use (R104, R375). -/
  walk : Option (Nat × Walked)
  ops : Option Replay
  replay : Bool
  defer : Bool
  deriving DecidableEq, Repr

/-- A use of MKADDR, PKADDR (R346), or of the mask bit of a vector (R347). -/
inductive WindowReg where
  | mkaddr (v : Word)
  | pkaddr (v : Word)
  | readMkaddr
  | readPkaddr
  | mask (vec : Nat)
  /-- A read or write (`some`) of the reserved part of a touch window (R346). -/
  | reserved (off : Nat) (w : Option Word)
  deriving DecidableEq, Repr

/-- Which agent moves next (the model's own, log entry 5). -/
inductive Turn where
  /-- The core issues one record or die word; with `defer` its accesses stay in flight. -/
  | issue (core : Nat) (defer : Bool)
  /-- The tender of the core runs one record of its stream. -/
  | tender (core : Nat)
  /-- A step of the device or of the outside world. -/
  | event (i : Instr)
  /-- The dray engine moves `words` words of a command. -/
  | beat (core cmd words : Nat)
  /-- A load or store is performed ahead of a narrower synchronisation (R109, R114; log entry 35). -/
  | early (id : Nat)
  /-- One 8-byte half of a 16-byte access is performed (R113). -/
  | half (id h : Nat)
  /-- A core's local clock advances with nothing issued (R13). -/
  | tick (core cycles : Nat)
  /-- A cached translation is dropped (R103). -/
  | dropTlb (i : Nat)
  /-- An L1 line is dropped (R88). -/
  | dropL1 (core i : Nat)
  /-- The oldest cached divergence entries of a wave leave the chip (R26). -/
  | spillDiv (core wslot : Nat)
  /-- The fabric clock advances (R13). -/
  | fabric (cycles : Nat)
  /-- The host uses a register of a touch window or of an MSI-X table that has no row of its own (R346, R347). -/
  | window (part : Nat) (r : WindowReg)
  /-- The management function writes comparator `n` of a core: a PC comparator below 8, a data comparator below 12 (R161). -/
  | comparator (core n : Nat) (a b : Word)
  /-- The mailbox ends a command of a core's engine (R383). -/
  | abortCmd (core cmd : Nat)
  /-- System software brings the mailbox a context that was read on another device (R353). -/
  | loadContext (place : Nat) (k : Core)
  /-- System software restores part of a memory image with its cell tags onto a halted partition (R353). -/
  | restorePage (part : Nat) (va : Word) (data : List Byte) (tags : List (BitVec 2))
  /-- A stack of HBM4E fails its training (R400). -/
  | stackFails (stack : Nat)
  /-- A read of a management register that has no row of its own (R357). -/
  | mgRead (off : Nat)
  /-- The host writes its own memory. -/
  | hostStore (ha : Nat) (data : List Byte)
  /-- The host link's translation of a page of host memory succeeds or fails from now on (R105). -/
  | hostPage (page : Nat) (ok : Bool)
  /-- An error that cannot be corrected strikes stored data, found by a row of R394 (R395). -/
  | strike (pl : Place) (stage : Nat)
  /-- An error that cannot be corrected strikes a unit of a core's local storage, or, with `standby`, of the context in its
  base die's shadow storage (R394, R395, R402). -/
  | strikeUnit (core : Nat) (standby : Bool) (u : StruckUnit)
  deriving DecidableEq, Repr

/-- The state of the device. -/
structure State where
  stage : Nat
  dies : List Die
  fabricMhz : Nat
  fabricCycle : Nat
  /-- Time since reset, and when the next fabric cycle ends, in femtoseconds (R3, R13, log entry 4). -/
  now : Nat
  fabricDue : Nat
  cfgRef : Bool
  /-- HBM4E stacks that have failed training (R400). -/
  stacksFailed : List Nat
  fwFail : Bool
  fwImages : SMap (List Byte)
  fusedKey : List Byte
  attest : List (List Byte)
  errlog : Word
  errIdx : Nat
  errSeq : Nat
  secBase : SMap Word
  secLimit : SMap Word
  mbox : Word
  mboxCtx : SMap Core
  cxlCache : Bool
  cxlMem : Bool
  ports : BitVec 36
  devno : Nat
  unacked : List (Nat × Nat × Nat × Word)
  dmem : List Host.Cell
  tags : SMap (BitVec 2)
  /-- Poisoned 8-byte words of device memory, host memory and peers (R395): 4 · word, plus 1 for host memory, 2 for a peer. -/
  poison : List Nat
  hmem : List Host.Cell
  atsFail : List Nat
  fmem : SMap (List Host.Cell)
  wakeCtr : SMap W32
  waking : List WakeRec
  cut : Option Cut
  serial : Option (Nat × Nat × Nat)
  accs : List Access
  /-- Counts of latches that wait for a locked line or a held slice (R43, R98, R130). -/
  owed : List Owed
  nextAcc : Nat
  tlb : List Tlb
  lowerReqs : List LowerReq
  modules : List ModReg
  parts : SMap Part
  cores : SMap Core
  /-- The standby context of each core (R17). -/
  standby : SMap Core
  launches : List Launch
  nextLaunch : Nat
  nextAge : Nat
  nextUid : Nat
  msix : List (Nat × Nat)
  hostData : List Byte
  hostPoison : Bool
  hostWord : Word
  freeCtr : Nat
  /-- The turn reached a line or slice that makes it wait: it is taken back (R43, R130; the model's own, log entry 24). -/
  homeWaits : Bool
  cur : Issue
  agenda : List Turn
  deriving DecidableEq, Repr

/-! ## Why a step stops -/

/-- Faults of the model. The device itself never stops: what spec/ lets fail becomes a trap, a status or a log entry. -/
inductive Fault where
  /-- Raised by every record's meaning when no slot or stream issues it, or the slot holds no wave: an instruction is
  executed only by the slot that issues it (R50). Safe: the model stops where the device has no behaviour. -/
  | noIssuer
  deriving DecidableEq, Repr

/-- Refusals of the model. -/
inductive Refusal where
  /-- An instruction that has no meaning yet, by its mnemonic. Safe: nothing follows from it. -/
  | notModelled (mnemonic : String)
  deriving DecidableEq, Repr

/-! ## Reset -/

/-- A PC slot that holds no path. -/
def Slot.reset : Slot where
  st := .empty
  wait := .none
  blk := 0
  rcd := 0
  baddr := 0
  mask := 0
  jblk := 0xFFFF
  ready := 0
  skip := 0
  held := 0
  woff := 0
  ub := false
  dlit := none
  dspl := none
  dieAt := none
  illegal := none
  cpl := false
  stepOver := none
  simt := false
  car := none
  ran := ([], [])

/-- A group-table entry no block owns. -/
def Group.reset : Group where
  owner := 0
  credit := 0
  pending := 0
  arrived := 0
  expect := 0
  phase := false
  tm := false
  amask := 0
  members := 0
  held := []
  tmeet := false

/-- A core after reset: KC_BINTMR 256 (R39), KC_CPLQ 65,536 (R72), KC_RLIM 0 (R354), CYCLE 0 (R263); the other
registers 0 (DESIGN CHOICE, log entry 1). -/
def Core.reset : Core where
  waves := []
  tiles := 0
  dqbase := 0
  dqlim := 0
  world := false
  cycle := 0
  regs := []
  tileMem := []
  l1 := []
  groups := []
  dqHead := 0
  dqCount := 0
  bins := []
  stage := []
  cmds := []
  tagBits := 0
  tagCnt := []
  streams := []
  kcCplq := 65536
  kcBintmr := 256
  kcDbgring := 0
  kcRlim := 0
  rlSf := 0
  rlMac := 0
  dbgPcA := []
  dbgPcB := []
  dbgDaA := []
  dbgDaB := []
  last := none
  tenders := []
  active := none
  region := none
  blocks := []
  handlers := []
  reserved := none
  due := 0
  tenderAt := 0
  rlWin := 0
  tilePoison := []
  regPoison := []

/-- A partition that is not configured: every register 0 (PWR by R354, the others DESIGN CHOICE, log entry 1). -/
def Part.reset : Part where
  clmap := 0
  rsv := 0
  world := false
  bothw := false
  asid := 0
  rtbase := 0
  rtlen := 0
  ptroot := 0
  tlbva := 0
  tlbinv := []
  modAddr := none
  modWord := 0
  traph := 0
  pswap := .running
  exch := false
  cwsbase := 0
  cwslen := 0
  snap := 0
  snapTgt := 0
  pwr := 0
  hbase := 0
  privbase := 0
  privstride := 0
  mkaddr := 0
  pkaddr := 0
  status := false
  msixMask := []
  msixPend := []
  snapSeq := 0
  snapFault := 0
  snapState := 0
  snapPages := []
  exchAt := 0
  toResume := []

/-- A die after reset: not joined (R355), its stepping 0 and its own stepping in its mask (DESIGN CHOICE, log entry 1). -/
def Die.reset (mhz : Nat) : Die where
  stepping := 0
  stepset := 1
  joined := false
  failed := false
  mhz := mhz
  softAt := none
  lost := 0
  sinter := []
  gone := []

/-- No slot and no stream issues. -/
def Issue.reset : Issue where
  who := .nobody
  lanes := 0
  blk := 0
  rcd := 0
  nrec := 0
  kind := 0
  recs := []
  lits := []
  form := ⟨.value, 0, none⟩
  next := none
  ends := []
  walk := none
  ops := none
  replay := false
  defer := false

/-- The device right after a device reset: stage 0 of bring-up (R355), memory cleared (R106), no partition, no wave. -/
def State.reset : State where
  stage := 0
  dies := [Die.reset 1000, Die.reset 4000, Die.reset 4000, Die.reset 4000]
  fabricMhz := 2000
  fabricCycle := 0
  now := 0
  fabricDue := 0
  cfgRef := false
  stacksFailed := []
  fwFail := false
  fwImages := []
  fusedKey := []
  attest := []
  errlog := BitVec.ofNat 64 (Config.deviceBytes - 4096)
  errIdx := 0
  errSeq := 0
  secBase := []
  secLimit := []
  mbox := 0
  mboxCtx := []
  cxlCache := false
  cxlMem := false
  ports := BitVec.allOnes 36
  devno := 0
  unacked := []
  dmem := []
  tags := []
  poison := []
  hmem := []
  atsFail := []
  fmem := []
  wakeCtr := []
  waking := []
  cut := none
  serial := none
  accs := []
  owed := []
  nextAcc := 1
  tlb := []
  lowerReqs := []
  modules := []
  parts := []
  cores := []
  standby := []
  launches := []
  nextLaunch := 1
  nextAge := 0
  nextUid := 1
  msix := []
  hostData := []
  hostPoison := false
  hostWord := 0
  freeCtr := 0
  homeWaits := false
  cur := Issue.reset
  agenda := []

end Sys2Proof.Machine
end

