-- ==== Sys2Proof/Machine/Sparse.lean ====
section
/-! DEFINITION. Sparse maps and memories in their one canonical form: keys strictly rising, no entry equal to what an
unlisted key reads as; and little-endian words over bytes. -/

namespace Sys2Proof.Machine

/-- The entry of a key, `d` where none is listed. -/
def smGet {α : Type} (d : α) : SMap α → Nat → α
  | [], _ => d
  | p :: m, k => if p.1 = k then p.2 else smGet d m k

/-- The map with one entry changed: an entry equal to the default is removed. -/
def smSet {α : Type} [DecidableEq α] (d : α) (m : SMap α) (k : Nat) (v : α) : SMap α :=
  m.filter (fun p => p.1 < k) ++ (if v = d then [] else [(k, v)]) ++ m.filter (fun p => k < p.1)

/-- A map whose keys a function changes one after another. -/
def smSetAll {α : Type} [DecidableEq α] (d : α) (m : SMap α) : List (Nat × α) → SMap α
  | [] => m
  | p :: r => smSetAll d (smSet d m p.1 p.2) r

/-- Keys strictly rising. -/
def smRising {α : Type} : SMap α → Bool
  | [] => true
  | [_] => true
  | p :: q :: m => p.1 < q.1 && smRising (q :: m)

/-- The canonical form. -/
def smWf {α : Type} [DecidableEq α] (d : α) (m : SMap α) : Bool := smRising m && m.all (fun p => p.2 ≠ d)

/-- What a byte of memory that is not listed reads as (R106, log entry 2). -/
abbrev unlistedByte : Byte := 0

/-- The canonical form of a memory. -/
def Memory.wf (m : List Host.Cell) : Bool := smWf unlistedByte m

/-- One byte. -/
def memByte (m : List Host.Cell) (a : Nat) : Byte := smGet unlistedByte m a

/-- `n` bytes from an address. -/
def memRead (m : List Host.Cell) (a : Nat) : Nat → List Byte
  | 0 => []
  | n + 1 => memByte m a :: memRead m (a + 1) n

/-- The listed form of bytes from an address. -/
def memCells (a : Nat) : List Byte → List Host.Cell
  | [] => []
  | b :: r => if b = unlistedByte then memCells (a + 1) r else (a, b) :: memCells (a + 1) r

/-- The memory with bytes written from an address. -/
def memWrite (m : List Host.Cell) (a : Nat) (bs : List Byte) : List Host.Cell :=
  m.filter (fun p => p.1 < a) ++ memCells a bs ++ m.filter (fun p => a + bs.length ≤ p.1)

/-- A little-endian number from bytes. -/
def leNat : List Byte → Nat
  | [] => 0
  | b :: r => b.toNat + 256 * leNat r

/-- The `n` low bytes of a number, little-endian. -/
def leBytes : Nat → Nat → List Byte
  | 0, _ => []
  | n + 1, v => BitVec.ofNat 8 v :: leBytes n (v / 256)

/-- A word of 64 bits from bytes. -/
def leWord (bs : List Byte) : Word := BitVec.ofNat 64 (leNat bs)

/-- The lanes 0 to 31, ascending. -/
def allLanes : List Nat := List.range 32

/-- The lanes of a mask, ascending. -/
def lanesOf (m : W32) : List Nat := allLanes.filter (fun l => m.getLsbD l)

/-- The mask of one lane. -/
def laneBit (l : Nat) : W32 := BitVec.ofNat 32 (2 ^ l)

/-- The mask of a list of lanes. -/
def maskOf (ls : List Nat) : W32 := ls.foldl (fun m l => m ||| laneBit l) 0

/-- The lowest lane of a mask; 0 of an empty one. -/
def lowestLane (m : W32) : Nat := (lanesOf m).headD 0

/-- Replaces the element at an index. -/
def setAt {α : Type} : List α → Nat → α → List α
  | [], _, _ => []
  | _ :: r, 0, v => v :: r
  | x :: r, n + 1, v => x :: setAt r n v

/-- The first index of a list whose element satisfies a test. -/
def findAt {α : Type} (p : α → Bool) : List α → Nat → Option Nat
  | [], _ => none
  | x :: r, i => if p x then some i else findAt p r (i + 1)

end Sys2Proof.Machine
end

