-- ==== Sys2Proof/Machine/Mem.lean ====
section
/-! DEFINITION. Cores, waves and slots by number; the spaces of memory (R78 to R93), translation (R101 to R105), and the
one write to a place, with all that a write does at its home. -/

namespace Sys2Proof.Machine

/-! ## Cores, waves, slots, partitions -/

/-- Core `c`. -/
def coreOf (s : State) (c : Nat) : Core := smGet Core.reset s.cores c
/-- The state with core `c` replaced. -/
def setCore (s : State) (c : Nat) (k : Core) : State := { s with cores := smSet Core.reset s.cores c k }
/-- The state with core `c` changed. -/
def onCore (s : State) (c : Nat) (f : Core → Core) : State := setCore s c (f (coreOf s c))
/-- The wave resident in wave slot `w` of core `c`. -/
def waveOf (s : State) (c w : Nat) : Option Wave := smGet none (coreOf s c).waves w
/-- The core with wave slot `w` replaced. -/
def putWave (k : Core) (w : Nat) (v : Option Wave) : Core := { k with waves := smSet none k.waves w v }
/-- The state with wave slot `w` of core `c` replaced. -/
def setWave (s : State) (c w : Nat) (v : Option Wave) : State := onCore s c (fun k => putWave k w v)
/-- The state with the resident wave changed, where there is one. -/
def onWave (s : State) (c w : Nat) (f : Wave → Wave) : State :=
  match waveOf s c w with
  | some v => setWave s c w (some (f v))
  | none => s
/-- PC slot 2w + x of a wave. -/
def slotOf (v : Wave) (x : Nat) : Slot := if x = 0 then v.slot0 else v.slot1
/-- The wave with a PC slot replaced. -/
def putSlot (v : Wave) (x : Nat) (t : Slot) : Wave := if x = 0 then { v with slot0 := t } else { v with slot1 := t }
/-- The state with a PC slot changed. -/
def onSlotOf (s : State) (c w x : Nat) (f : Slot → Slot) : State := onWave s c w (fun v => putSlot v x (f (slotOf v x)))
/-- Partition `p`. -/
def partOf (s : State) (p : Nat) : Part := smGet Part.reset s.parts p
/-- The state with a partition changed. -/
def onPart (s : State) (p : Nat) (f : Part → Part) : State :=
  { s with parts := smSet Part.reset s.parts p (f (partOf s p)) }
/-- The partition that holds a cluster; 8 where none does (R22, R350). -/
def clusterPart (s : State) (k : Nat) : Nat :=
  ((List.range 8).find? (fun p => (partOf s p).clmap.getLsbD k)).getD 8
/-- The partition of a core. -/
def corePart (s : State) (c : Nat) : Nat := clusterPart s (c / 16)
/-- The compute die of a core (R11). -/
def coreDie (c : Nat) : Nat := c / 832
/-- A compute die. -/
def dieOf (s : State) (d : Nat) : Die := s.dies.getD d (Die.reset 4000)
/-- The state with a die changed. -/
def onDie (s : State) (d : Nat) (f : Die → Die) : State := { s with dies := setAt s.dies d (f (dieOf s d)) }
/-- The waves of a core with their slot numbers. -/
def wavesOf (k : Core) : List (Nat × Wave) := k.waves.filterMap (fun p => p.2.map (fun v => (p.1, v)))

/-! ## Device memory -/

/-- Little-endian bytes of device memory as a number. -/
def devNat (s : State) (pa n : Nat) : Nat := leNat (memRead s.dmem pa n)

/-- Bytes written to device memory by the device itself, with nothing else. -/
def devPut (s : State) (pa : Nat) (bs : List Byte) : State := { s with dmem := memWrite s.dmem pa bs }

/-- The home slice of a device address, 64·die + slice (R91). -/
def homeSlice (pa : Nat) : Nat :=
  let u := pa / 256
  64 * (u % 12 / 3) + u / 12 % 64

/-- The package cluster of a home slice (R92). -/
def sliceCluster (sl : Nat) : Nat := 52 * (sl / 64) + 52 * (sl % 64) / 64

/-- The tag of the cell at a device address (R134). -/
def cellTag (s : State) (pa : Nat) : BitVec 2 := smGet 0 s.tags (pa / 8)

/-- The STAGE of an entry that no row of R394 found. -/
abbrev noStage : Nat := 0xFFFFFFFF

/-- The physical address lies in a secure range (R351, R357). -/
def secureRange (s : State) (pa : Nat) : Bool :=
  (List.range 16).any (fun n =>
    let b := smGet 0 s.secBase n
    let l := smGet 0 s.secLimit n
    b.getLsbD 63 && decide (b.toNat / 4096 % 2 ^ 40 ≤ pa / 4096) && decide (pa / 4096 < l.toNat / 4096 % 2 ^ 40))

/-! ## Translation -/

/-- A leaf that a walk reached: where it stands, its value, its page size. -/
structure Leaf where
  pte : Nat
  val : Word
  bytes : Nat
  deriving DecidableEq, Repr

/-- A bit of a page-table entry. -/
abbrev pteBit (e : Word) (i : Nat) : Bool := e.getLsbD i
/-- The frame address of a page-table entry (R102). -/
def pteFrame (e : Word) : Nat := e.toNat / 4096 % 2 ^ 40 * 4096
/-- Reserved bits and memory types that end a walk (R102). -/
def pteMalformed (e : Word) : Bool :=
  e.toNat / 2 ^ 60 % 8 ≠ 0 || e.toNat / 2 ^ 52 % 32 ≠ 0 || pteBit e 1 || pteBit e 3

/-- The levels of a walk: number, index shift, page size of a leaf (R101). -/
def walkLevels : List (Nat × Nat × Nat) :=
  [(5, 48, 0), (4, 39, 0), (3, 30, 2 ^ 30), (2, 21, 2 ^ 21), (1, 12, 2 ^ 12)]

/-- The walk of a virtual address from a table (R101, R102); none where it fails. HOST or FAB alone in an entry that is not
a leaf ends the walk too: R102 does not name that entry (DESIGN CHOICE, log entry 34). -/
def walkFrom (s : State) (va : Nat) : Nat → List (Nat × Nat × Nat) → Option Leaf
  | _, [] => none
  | table, (lv, sh, size) :: rest =>
    let pa := table + 8 * (va / 2 ^ sh % 512)
    if Config.deviceBytes < pa + 8 then none
    else
      let e : Word := BitVec.ofNat 64 (devNat s pa 8)
      let host := pteBit e 10
      let fab := pteBit e 9
      if !pteBit e 0 || (host && fab) || pteMalformed e then none
      else if pteBit e 6 || lv = 1 then
        if 4 ≤ lv || !pteBit e 6 || (pteBit e 11 && lv ≠ 1) || (pteBit e 59 && (host || fab)) then none
        else if fab && (72 ≤ pteFrame e / 2 ^ 45 || pteFrame e / 2 ^ 45 = s.devno) then none
        else if !host && !fab && Config.deviceBytes < pteFrame e + size then none
        else some ⟨pa, e, size⟩
      else if pteBit e 59 || pteBit e 11 || host || fab || Config.deviceBytes < pteFrame e + 4096 then none
      else walkFrom s va (pteFrame e) rest

/-- The walk of a virtual address of a partition. -/
def walk (s : State) (p : Nat) (va : Word) : Option Leaf := walkFrom s va.toNat (partOf s p).ptroot.toNat walkLevels

/-- Bits [63:57] equal bit [56]: a canonical global address (R78, R79). -/
def canonical (va : Word) : Bool := va.toNat / 2 ^ 56 = 0 || va.toNat / 2 ^ 56 = 255

/-- The 4 KiB page number of a virtual address of 57 bits. -/
def pageOf (va : Word) : Nat := va.toNat % 2 ^ 57 / 4096

/-- The core whose slot, stream or engine acts in this step, where one does. -/
def actingCore (s : State) : Option Nat :=
  match s.cur.who with
  | .slot c _ _ | .tender c _ | .engine c => some c
  | .nobody => none

/-- The translation caches that the acting agent looks in: its core's, then its cluster's; one for agents outside the cores
(R103). -/
def tlbUnits (s : State) : List Nat :=
  match actingCore s with
  | some c => [c, Config.numCores + c / 16]
  | none => [Config.numCores + Config.numClusters]

/-- The cached translation of a page for the acting agent (R103). -/
def cachedLeaf (s : State) (p page : Nat) : Option Leaf :=
  (s.tlb.find? (fun t => (tlbUnits s).contains t.unit && t.part = p && t.page = page)).map (fun t => ⟨t.pte, t.leaf, t.bytes⟩)

/-- What the walk that the issuing word was parked on found for a page (R104, R375); none for other pages. -/
def walkResult (s : State) (p page : Nat) : Option (Option Leaf) :=
  match s.cur.walk with
  | some (q, r) => if q = p && r.page = page then some (r.leaf.map (fun l => ⟨l.1, l.2.1, l.2.2⟩)) else none
  | none => none

/-- The leaf that translates a page: delivered, cached or walked. -/
def leafOf (s : State) (p : Nat) (va : Word) : Option Leaf :=
  match walkResult s p (pageOf va) with
  | some r => r
  | none =>
    match cachedLeaf s p (pageOf va) with
    | some l => some l
    | none => walk s p va

/-- A translation cached in one cache, in place of an older one. -/
def cacheIn (p : Nat) (va : Word) (l : Leaf) (m : List Tlb) (u : Nat) : List Tlb :=
  let here (t : Tlb) : Bool := t.unit = u && t.part = p && t.page = pageOf va
  if m.any here then m.map (fun t => if here t then { t with leaf := l.val, bytes := l.bytes, pte := l.pte } else t)
  else m ++ [⟨u, p, pageOf va, l.val, l.bytes, l.pte⟩]

/-- The state with a translation in the caches of the acting agent. -/
def cacheLeaf (s : State) (p : Nat) (va : Word) (l : Leaf) : State := { s with tlb := (tlbUnits s).foldl (cacheIn p va l) s.tlb }

/-- What an access asks of a page. -/
inductive Need where
  | load | store | atomic | fetch
  /-- An access that asks for no right: CELL.SET and CELL.TAG name a cell they write at the commit (R291). -/
  | write
  deriving DecidableEq, Repr

/-- The place of a virtual address under a leaf. The frame of a 2 MiB or 1 GiB leaf need not be aligned to its page: the
offset in the page is added to the frame as it stands, on which R102 is silent (DESIGN CHOICE, log entry 34). -/
def leafPlace (l : Leaf) (va : Word) : Place :=
  let off := va.toNat % l.bytes
  let f := pteFrame l.val
  if pteBit l.val 10 then .host (f + off)
  else if pteBit l.val 9 then .fab (f / 2 ^ 45) (f % 2 ^ 45 + off)
  else .dev (f + off)

/-- The page is secure: its SEC bit, or a range that holds its frame (R351). -/
def leafSecure (s : State) (l : Leaf) (va : Word) : Bool :=
  pteBit l.val 63 || (match leafPlace l va with
    | .dev pa => secureRange s pa
    | _ => false)

/-- The checks of a translated access, in the order of R359 step 6: walk and host translation, world, rights. -/
def leafCheck (s : State) (need : Need) (secure : Bool) (l : Leaf) (va : Word) : Option (BitVec 8) :=
  let host := pteBit l.val 10
  let fab := pteBit l.val 9
  let ats := match leafPlace l va with
    | .host ha => s.atsFail.contains (ha / 4096)
    | _ => false
  let rd := pteBit l.val 4
  let wr := pteBit l.val 5
  if ats then some (if need = .fetch then causeFetchUnmapped else causeDataUnmapped)
  else if leafSecure s l va && !secure then some causeWorld
  else
    match need with
    | .load => if !rd || fab then some causeDataRights else none
    | .store | .write => if !wr then some causeDataRights else none
    | .atomic => if !rd || !wr || (host && !s.cxlCache) then some causeDataRights else none
    | .fetch => if !pteBit l.val 57 || fab then some causeFetchRights else none

/-- A translated address. -/
structure Xlat where
  place : Place
  cell : Bool
  leaf : Leaf
  deriving DecidableEq, Repr

/-- Translation with its checks; nothing changes (R101 to R105, R351). -/
def xlatCheck (s : State) (p : Nat) (secure : Bool) (need : Need) (va : Word) : Except (BitVec 8) Xlat :=
  if !canonical va then .error causeSpaceBad
  else
    match leafOf s p va with
    | none => .error (if need = .fetch then causeFetchUnmapped else causeDataUnmapped)
    | some l =>
      match leafCheck s need secure l va with
      | some c => .error c
      | none => .ok ⟨leafPlace l va, pteBit l.val 59, l⟩

/-! ## Tiles -/

/-- The role of a tile (R32). -/
def tileRole (k : Core) (t : Nat) : Nat := k.tiles.toNat / 8 ^ t % 8

/-- The tiles of a role, ascending (R85). -/
def roleTiles (k : Core) (role : Nat) : List Nat := (List.range 16).filter (fun t => tileRole k t = role)

/-- Bytes of a role's space (R85). -/
def roleSize (k : Core) (role : Nat) : Nat := Config.tileBytes * (roleTiles k role).length

/-- The tile byte at an offset of a role's space (R85); beyond the space there is none, and the offset is not asked. -/
def roleByte (k : Core) (role off : Nat) : Nat :=
  (roleTiles k role).getD (off / Config.tileBytes) 16 * Config.tileBytes + off % Config.tileBytes

/-- Reads bytes of a role's space; consecutive bytes may lie in two tiles. -/
def roleRead (k : Core) (role off : Nat) : Nat → List Byte
  | 0 => []
  | n + 1 => memByte k.tileMem (roleByte k role off) :: roleRead k role (off + 1) n

/-- A core's tiles with bytes of a role's space written, poison of whole words cleared (R395). -/
def roleWrite (k : Core) (role off : Nat) : List Byte → Core
  | [] => k
  | b :: r =>
    let a := roleByte k role off
    let k := { k with tileMem := memWrite k.tileMem a [b] }
    roleWrite k role (off + 1) r

/-- Poison of the 4-byte words that a write covers whole is gone (R395). -/
def clearTilePoison (k : Core) (a n : Nat) : Core :=
  { k with tilePoison := k.tilePoison.filter (fun w => !(a ≤ 4 * w && 4 * w + 4 ≤ a + n)) }

/-! ## Places -/

/-- A line of 64 bytes as a number (R42, R91): device memory, host memory, peers and tiles apart. -/
def lineOf : Place → Nat
  | .dev pa => pa / 64 * 4
  | .host ha => ha / 64 * 4 + 1
  | .fab d a => (d * 2 ^ 45 + a) / 64 * 4 + 2
  | .tile c a => (c * 2 ^ 18 + a) / 64 * 4 + 3

/-- The place `n` bytes on. -/
def placeAt (pl : Place) (n : Nat) : Place :=
  match pl with
  | .dev pa => .dev (pa + n)
  | .host ha => .host (ha + n)
  | .fab d a => .fab d (a + n)
  | .tile c a => .tile c (a + n)

/-- Bytes of a place. -/
def placeRead (s : State) (pl : Place) (n : Nat) : List Byte :=
  match pl with
  | .dev pa => memRead s.dmem pa n
  | .host ha => memRead s.hmem ha n
  | .fab d a => memRead (smGet [] s.fmem d) a n
  | .tile c a => memRead (coreOf s c).tileMem a n

/-- The space of a place, and its address in that space with the peer in front. -/
def placeLinear : Place → Nat × Nat
  | .dev pa => (0, pa)
  | .host ha => (1, ha)
  | .fab d a => (2, d * 2 ^ 45 + a)
  | .tile c a => (3, c * 2 ^ 18 + a)

/-- The key of the 8-byte word that a place lies in, for poison marks outside the tiles (R395). -/
def wordKey (pl : Place) : Nat := (placeLinear pl).2 / 8 * 4 + (placeLinear pl).1

/-- The first poisoned word that a range meets, as bytes from the start of the range: the unit is 8 bytes, 4 in a tile
(R395). -/
def poisonWord (s : State) (pl : Place) (n : Nat) : Option Int :=
  match pl with
  | .tile c a =>
    let ws := (coreOf s c).tilePoison
    if ws = [] then none
    else ((List.range ((a % 4 + n + 3) / 4)).find? (fun i => ws.contains (a / 4 + i))).map (fun i => ((4 * i : Nat) : Int) - (a % 4 : Nat))
  | _ =>
    if s.poison = [] then none
    else
      let o := (placeLinear pl).2 % 8
      ((List.range ((o + n + 7) / 8)).find? (fun i => s.poison.contains (wordKey pl + 4 * i))).map
        (fun i => ((8 * i : Nat) : Int) - (o : Nat))

/-- A word of the range is poisoned (R395). -/
def placePoisoned (s : State) (pl : Place) (n : Nat) : Bool := (poisonWord s pl n).isSome

/-- Marks the word at a place as poisoned (R395). -/
def markPoison (s : State) (pl : Place) : State :=
  match pl with
  | .tile c a => onCore s c (fun k =>
      { k with tilePoison := if k.tilePoison.contains (a / 4) then k.tilePoison else k.tilePoison ++ [a / 4] })
  | _ => { s with poison := if s.poison.contains (wordKey pl) then s.poison else s.poison ++ [wordKey pl] }

/-- A slot of a core that runs a carriage. -/
abbrev SlotName := Nat × Nat × Nat

/-- Who writes: the partition it counts for, the slots whose carriages the write does not abort (R42), and the core whose
L1 it updates and whose threads it counts among (R88, R109); none for an agent outside the cores. -/
structure Writer where
  part : Nat
  own : List SlotName
  core : Option Nat
  deriving DecidableEq, Repr

/-- The slot that issues in this step, where one does. -/
def selfSlot (s : State) : List SlotName :=
  match s.cur.who with
  | .slot c w x => [(c, w, x)]
  | _ => []

/-- The device itself, as an agent of a partition, for the slot, stream or engine that acts where one does. -/
def deviceWriter (s : State) (p : Nat) : Writer := ⟨p, selfSlot s, actingCore s⟩

/-! ## What a home slice makes wait (R43, R130) -/

/-- What the device does for itself, unless a home makes it wait: then later (R43, R130). -/
def unlessHeld (f : State → State) (s : State) : State :=
  let t := f s
  if t.homeWaits then s else t

/-- A line is locked by a serial carriage of a slot that is not one of `own` (R43). -/
def lineLocked (s : State) (own : List SlotName) (line : Nat) : Bool :=
  match s.serial with
  | some o =>
    !own.contains o && (match waveOf s o.1 o.2.1 with
      | some v => (match (slotOf v o.2.2).car with
        | some car => car.lines.contains line
        | none => false)
      | none => false)
  | none => false

/-- The leaf pages of a table, by ascending virtual address (R101): address, leaf. -/
def leavesFrom (s : State) (va : Nat) : Nat → List (Nat × Nat × Nat) → List (Nat × Leaf)
  | _, [] => []
  | table, (lv, sh, size) :: rest =>
    (List.range 512).flatMap (fun i =>
      let pa := table + 8 * i
      let e : Word := BitVec.ofNat 64 (devNat s pa 8)
      let a := va + i * 2 ^ sh
      if !pteBit e 0 || Config.deviceBytes < pa + 8 then []
      else if pteBit e 6 || lv = 1 then
        (match walkFrom s a table ((lv, sh, size) :: rest) with
          | some l => [(a, l)]
          | none => [])
      else leavesFrom s a (pteFrame e) rest)

/-- The leaf pages of a partition's space. -/
def spaceLeaves (s : State) (p : Nat) : List (Nat × Leaf) := leavesFrom s 0 (partOf s p).ptroot.toNat walkLevels

/-- The mapped device-memory leaf pages of a partition (R352). -/
def snapLeaves (s : State) (p : Nat) : List (Nat × Leaf) :=
  (spaceLeaves s p).filter (fun q => !pteBit q.2.val 10 && !pteBit q.2.val 9)

/-- The place of a place in a leaf page: its offset there, where the page's frame holds it. -/
def leafOffset (l : Leaf) (pl : Place) : Option Nat :=
  let f := placeLinear (leafPlace l 0)
  let a := placeLinear pl
  if f.1 = a.1 && decide (f.2 ≤ a.2) && decide (a.2 < f.2 + l.bytes) then some (a.2 - f.2) else none

/-- A place belongs to a partition's space: a leaf of its table names the frame. -/
def spaceHas (s : State) (p : Nat) (pl : Place) : Bool := (spaceLeaves s p).any (fun q => (leafOffset q.2 pl).isSome)

/-- The home slice of a place: that of bits [39:0] of its address, for host memory and peers too (R91, R93). -/
def homeOf (pl : Place) : Nat :=
  match pl with
  | .dev pa => homeSlice pa
  | .host ha => homeSlice (ha % 2 ^ 40)
  | .fab _ a => homeSlice (a % 2 ^ 40)
  | .tile .. => 0

/-- A store of an agent of partition `p`, or of none, to a place is held by a cut: the place lies in the space that the cut
is taken of, the mark has reached its home slice and the token has not come back there (R93, R130). -/
def storeAtHold (s : State) (p : Nat) (pl : Place) : Bool :=
  match s.cut, pl with
  | _, .tile .. | none, _ => false
  | some c, _ => c.marked.contains (homeOf pl) && !c.released.contains (homeOf pl) && (c.part = p || spaceHas s c.part pl)

/-- A line that the issuing slot's carriage has read joins its footprint (R42). -/
def noteOwnLine (s : State) (pl : Place) : State :=
  (selfSlot s).foldl (fun s n => onSlotOf s n.1 n.2.1 n.2.2 (fun t =>
    { t with car := t.car.map (fun c => { c with lines := (c.lines ++ [lineOf pl]).eraseDups }) })) s

/-- A read or write that waits at its home makes the turn wait (R43, R130). -/
def noteHome (s : State) (p : Nat) (own : List SlotName) (pl : Place) (write : Bool) : State :=
  if lineLocked s own (lineOf pl) || (write && storeAtHold s p pl) then { s with homeWaits := true } else s

/-! ## The snapshot's copies (R130, R132) -/

/-- A store at a slice comes after the cut of a snapshot that is streaming (R130, R132). -/
def afterCut (s : State) (p sl : Nat) : Bool :=
  (partOf s p).snapState = 1 && (match s.cut with
    | some c => c.part ≠ p || c.released.contains sl
    | none => true)

/-- The contents of a 4 KiB frame and its tags. -/
def frameCopy (s : State) (f : Nat) : SnapPage where
  base := f
  bytes := s.dmem.filter (fun q => f ≤ q.1 && q.1 < f + 4096)
  tags := s.tags.filter (fun q => f ≤ 8 * q.1 && 8 * q.1 < f + 4096)
  poison := s.poison.filter (fun w => w % 4 = 0 && f ≤ 8 * (w / 4) && 8 * (w / 4) < f + 4096)

/-- Before the first store to a page after a cut, whoever makes it, its contents are copied to a shadow page, for every
snapshot that streams (R130, R132). -/
def snapCopy (s : State) (pa : Nat) : State :=
  let f := pa / 4096 * 4096
  (List.range 8).foldl (fun s p =>
    if afterCut s p (homeSlice pa) && !(partOf s p).snapPages.any (fun q => q.base = f) then
      onPart s p (fun q => { q with snapPages := q.snapPages ++ [frameCopy s f] })
    else s) s

/-! ## Scopes between cores (R109, R110) -/

/-- The clusters that .ln means for a wave: those of its launch, or none where it means .dv (R110). -/
def waveClusters (s : State) (v : Wave) : Option (Nat × Nat) :=
  if v.kind = .evaluator || v.kind = .handler then none
  else (s.launches.find? (fun l => l.id = v.launch && l.part = v.part)).map (fun l => (l.cl0, l.ncl))

/-- An agent (R109): its core, and its wave slot where it is a wave; without a core, an agent that acts for a partition, or
for none (8: the host itself, a peer). -/
structure Agent where
  core : Option Nat
  wave : Option Nat
  part : Nat
  deriving DecidableEq, Repr

/-- Two waves of a core belong to one block (R109). -/
def sameBlock (s : State) (c w u : Nat) : Bool :=
  w = u || (match waveOf s c w, waveOf s c u with
    | some v, some y => v.block ≠ 0 && v.block = y.block
    | _, _ => false)

/-- A scope, used by wave slot `w` of core `c`, includes an agent (R109, R110). -/
def scopeHas (s : State) (sc : Scope) (c w : Nat) (d : Agent) : Bool :=
  match d.core with
  | none => sc = .sy || (sc = .dv && d.part = corePart s c)
  | some e =>
    match sc with
    | .wv => c = e && d.wave = some w
    | .bk => c = e && (match d.wave with
      | some u => sameBlock s c w u
      | none => true)
    | .cl => c / 16 = e / 16
    | .ln =>
      corePart s e = corePart s c && (match (waveOf s c w).bind (waveClusters s) with
        | some (cl0, ncl) => decide (cl0 ≤ e / 16) && decide (e / 16 < cl0 + ncl)
        | none => true)
    | _ => corePart s e = corePart s c

/-! ## What a write does to others -/

/-- A scope narrower than .dv. -/
def narrowScope : Scope → Bool
  | .wv | .bk | .cl | .ln => true
  | _ => false

/-- Loads performed ahead of a synchronisation are taken back when a write that their thread may acquire reaches the line
(R109, R114): an earlier acquire of the thread stands on the line, with a scope that includes the writer. -/
def dropEarly (s : State) (writer : Agent) (line : Nat) : State :=
  if s.accs.all (fun a => a.early.isNone) then s
  else
    { s with accs := s.accs.map (fun a =>
      let hit := s.accs.any (fun b => b.id < a.id && b.core = a.core && b.wuid = a.wuid && (b.lane = a.lane || a.uniform || b.uniform)
        && (b.order = .aq || b.order = .ar || b.order = .sq)
        && b.pieces.any (fun q => lineOf q.1 = line) && scopeHas s b.scope b.core b.wslot writer)
      if hit then { a with early := none } else a) }

/-- The tags of the words that bytes lie in, set to VALUE (R107, R136). -/
def tagsValue (s : State) (pa n : Nat) : State :=
  { s with tags := s.tags.filter (fun q => !(pa / 8 ≤ q.1 && q.1 ≤ (pa + n - 1) / 8)) }

/-- The poison of the 8-byte words that a write covers whole is gone (R395). -/
def clearPoison (s : State) (pl : Place) (n : Nat) : State :=
  let a := placeLinear pl
  { s with poison := s.poison.filter (fun w => !(w % 4 = a.1 && decide (a.2 ≤ 8 * (w / 4)) && decide (8 * (w / 4) + 8 ≤ a.2 + n))) }

/-- The poison of the 8-byte word that a place lies in is gone. -/
def clearWord (s : State) (pl : Place) : State := { s with poison := s.poison.filter (fun w => w ≠ wordKey pl) }

/-- The place lies at a fabric peer (R348). -/
def isPeer : Place → Bool
  | .fab .. => true
  | _ => false

/-- A cached line with bytes written over it. -/
def lineUpdate (pa : Nat) (bs : List Byte) (l : Nat × List Byte) : Nat × List Byte :=
  if l.1 = pa / 64 then (l.1, l.2.take (pa % 64) ++ bs ++ l.2.drop (pa % 64 + bs.length)) else l

/-- The bytes of a write at its place, with what its home does for it: tags, poison, a snapshot's copy, the writer's L1. -/
def putBytes (s : State) (w : Writer) (pl : Place) (bs : List Byte) : State :=
  match pl with
  | .dev pa =>
    let s := snapCopy s pa
    let s := clearPoison (tagsValue (devPut s pa bs) pa bs.length) pl bs.length
    match w.core with
    | some c => onCore s c (fun k => if k.l1 = [] then k else { k with l1 := k.l1.map (lineUpdate pa bs) })
    | none => s
  | .host ha => clearPoison { s with hmem := memWrite s.hmem ha bs } pl bs.length
  | .fab d a =>
    if s.ports = 0 then s else clearPoison { s with fmem := smSet [] s.fmem d (memWrite (smGet [] s.fmem d) a bs) } pl bs.length
  | .tile c a => onCore s c (fun k => clearTilePoison { k with tileMem := memWrite k.tileMem a bs } a bs.length)

/-- What touching a line does to the carriages of others: the operations below take it as a parameter, since an abort
itself writes the counts of the latches it withdraws. -/
abbrev Toucher := List SlotName → Nat → State → State

/-- The agent that a writer is. -/
def Writer.agent (w : Writer) : Agent :=
  ⟨w.core, w.core.bind (fun c => (w.own.find? (fun n => n.1 = c)).map (fun n => n.2.1)), w.part⟩

/-- A write, the carriages of other slots on its line touched first. -/
def writeBy (touch : Toucher) (s : State) (w : Writer) (pl : Place) (bs : List Byte) : State :=
  putBytes (dropEarly (touch w.own (lineOf pl) (noteHome s w.part w.own pl true)) w.agent (lineOf pl)) w pl bs

/-- The walker's updates at an access that passed: A, and D at a write (R102), and the translation cached. -/
def markBy (touch : Toucher) (s : State) (p : Nat) (need : Need) (va : Word) (l : Leaf) : State :=
  let w := need = .store || need = .atomic || need = .write
  let bits : Word := (if w then 0x180 else 0x80)
  let v := l.val ||| bits
  let s := if v = l.val then s
    else writeBy touch s (deviceWriter s p) (.dev l.pte) (leBytes 8 (BitVec.ofNat 64 (devNat s l.pte 8) ||| bits).toNat)
  cacheLeaf s p va { l with val := v }

/-- The pages of a Sinter entry or a lowering cover a page of the partition. -/
def entryOnPage (p page : Nat) (e : SEntry) : Bool := e.part = p && e.pages.any (fun a => pageOf a = page)

/-- The store of a die without the entries that a test names; those of explicit code are known to have stood there. -/
def dropFrom (d : Die) (hit : SEntry → Bool) : Die :=
  { d with sinter := d.sinter.filter (fun e => !hit e),
           gone := d.gone ++ d.sinter.filter (fun e => hit e && e.code ≠ [] && !d.gone.contains e) }

/-- Every Sinter entry of a partition built from a page leaves every die (R196, R198). -/
def dropEntries (s : State) (p : Nat) (hit : SEntry → Bool) : State :=
  { s with dies := s.dies.map (fun d => dropFrom d (fun e => e.part = p && hit e)) }

/-- A write through a translation that shows TR (R196): the entries built from the page leave the Sinter stores, and TR
is cleared. A lowering in progress reads the bytes when it completes, and so starts again by itself. -/
def breakBy (touch : Toucher) (s : State) (p : Nat) (va : Word) (l : Leaf) : State :=
  if !pteBit l.val 58 then s
  else
    let m : Word := ~~~(1 <<< 58)
    let base := va.toNat % 2 ^ 57 / l.bytes * l.bytes
    let s := dropEntries s p (fun e => e.pages.any (fun a => a.toNat % 2 ^ 57 / l.bytes * l.bytes = base))
    let s := writeBy touch s (deviceWriter s p) (.dev l.pte) (leBytes 8 (BitVec.ofNat 64 (devNat s l.pte 8) &&& m).toNat)
    { s with tlb := s.tlb.map (fun t => if t.part = p && t.pte = l.pte then { t with leaf := t.leaf &&& m } else t) }

/-- A translated write of the device: A, D and TR, then the bytes. -/
def putVirtualBy (touch : Toucher) (s : State) (w : Writer) (va : Word) (x : Xlat) (bs : List Byte) : State :=
  writeBy touch (breakBy touch (markBy touch s w.part .store va x.leaf) w.part va x.leaf) w x.place bs

/-! ## Ending accesses, aborting carriages -/

/-- Ends an access in flight: its waiter entry is withdrawn (R139) and its count in INFLIGHT or OLDREF is given back
by `releaseBy`. -/
def dropWaiter (s : State) (id : Nat) : State :=
  { s with accs := s.accs.filter (fun a => a.id ≠ id),
           waking := s.waking.map (fun r => { r with waiters := r.waiters.filter (fun i => i ≠ id) }) }

/-- Subtracts 1 from INFLIGHT of an entry whose PUBVER is the latched one, and from OLDREF otherwise (R98); a count that
software has set to 0 meanwhile stays 0, so that storage is reported free early and nothing else follows (R96). Where the
entry's line is locked or its slice holds stores, the count is owed until they are free (R43, R130). -/
def releaseBy (touch : Toucher) (s : State) (o : Owed) : State :=
  let base := (partOf s o.part).rtbase + BitVec.ofNat 64 (64 * o.idx)
  match xlatCheck s o.part true .store base with
  | .ok x =>
    let waits (pl : Place) : Bool := lineLocked s o.own (lineOf pl) || storeAtHold s o.part pl
    let marks := !(pteBit x.leaf.val 7 && pteBit x.leaf.val 8 && !pteBit x.leaf.val 58)
    if waits x.place || (marks && waits (.dev x.leaf.pte)) then { s with owed := s.owed ++ [o] }
    else
      let now : W32 := BitVec.ofNat 32 (leNat (placeRead s (placeAt x.place 0x20) 4))
      let off := if now = o.ver then 0x18 else 0x1C
      let v := leNat (placeRead s (placeAt x.place off) 4)
      putVirtualBy touch s ⟨o.part, o.own, o.core⟩ base { x with place := placeAt x.place off } (leBytes 4 (v - 1))
  | .error _ => s

/-- Ends an access, performed or withdrawn. -/
def endAccessBy (touch : Toucher) (s : State) (a : Access) : State :=
  let s := dropWaiter s a.id
  match a.latch with
  | some (i, ver) => releaseBy touch s ⟨a.part, [(a.core, a.wslot, a.x)], some a.core, i, ver⟩
  | none => s

/-- Puts back what a carriage overwrote, latest first. -/
def undoRegs (d : List (Nat × W32 × Bool)) (m : SMap W32) : SMap W32 := d.foldl (fun m p => smSet 0 m p.1 p.2.1) m
/-- Poison marks as they were before a carriage overwrote some registers (R395). -/
def undoMarks (d : List (Nat × W32 × Bool)) (m : List Nat) : List Nat :=
  d.foldl (fun m p => if p.2.2 then (if m.contains p.1 then m else m ++ [p.1]) else m.filter (fun i => i ≠ p.1)) m
/-- Puts back the uniform slots a carriage overwrote. -/
def undoUni (d : List (Nat × Word × List Nat)) (m : SMap Word) : SMap Word := d.foldl (fun m p => smSet 0 m p.1 p.2.1) m
/-- Poison marks of uniform slots as they were. -/
def undoUniMarks (d : List (Nat × Word × List Nat)) (m : List Nat) : List Nat :=
  d.foldl (fun m p => m.filter (fun i => i / 2 ≠ p.1) ++ p.2.2) m

/-- A carriage at its first record again, with nothing done: `more` counts an abort (R42, R43). -/
def carriageRestart (car : Carriage) (more : Bool) (t : Slot) : Slot :=
  let n := if more then car.aborts + 1 else car.aborts
  { t with st := .eligible, wait := .none, blk := car.blk, rcd := car.first, baddr := car.baddr, mask := car.mask,
           woff := 0, ub := false, dlit := none, dspl := none, dieAt := none,
           car := some { car with regs := [], uni := [], stores := [], lines := [], spawns := [], launches := [],
                                  cells := [], latched := [], peers := [], aborts := n, serial := car.serial || 8 ≤ n, exiting := false } }

/-- Discards all a slot's carriage has done: its registers are restored, its locks and the token released, its accesses
withdrawn; the slot stands at the carriage's first record (R42, R43). -/
def discardBy (touch : Toucher) (s : State) (n : SlotName) (more : Bool) : State :=
  match waveOf s n.1 n.2.1 with
  | none => s
  | some v =>
    match (slotOf v n.2.2).car with
    | none => s
    | some car =>
      let mine := s.accs.filter (fun a => a.core = n.1 && a.wslot = n.2.1 && a.wuid = v.uid && a.x = n.2.2
        && a.blk = car.blk && car.mask.getLsbD a.lane)
      let s := if s.serial = some n then { s with serial := none } else s
      let s := onCore s n.1 (fun k => { k with regs := undoRegs car.regs k.regs, regPoison := undoMarks car.regs k.regPoison })
      let s := onWave s n.1 n.2.1 (fun v =>
        putSlot { v with uni := undoUni car.uni v.uni, uniPoison := undoUniMarks car.uni v.uniPoison } n.2.2
          (carriageRestart car more (slotOf v n.2.2)))
      let s := car.latched.foldl (fun s l => releaseBy touch s ⟨v.part, [n], some n.1, l.1, l.2⟩) s
      mine.foldl (endAccessBy touch) s

/-- The slots whose carriage, not in serial mode, satisfies a test. -/
def carriagesWith (s : State) (p : Carriage → Bool) : List SlotName :=
  s.cores.flatMap (fun k => (wavesOf k.2).flatMap (fun w =>
    ([0, 1].filter (fun x => match (slotOf w.2 x).car with
      | some car => !car.serial && p car
      | none => false)).map (fun x => (k.1, w.1, x))))

/-- Another agent changed a line: the carriages that read or wrote it abort (R42). An abort writes the counts of the latches
it withdraws, which may abort more; each abort empties one footprint, so the number of carriages bounds the chain. -/
def touchFuel : Nat → Toucher
  | 0, _, _, s => s
  | n + 1, own, line, s =>
    ((carriagesWith s (fun car => car.lines.contains line)).filter (fun m => !own.contains m)).foldl
      (fun s m => discardBy (touchFuel n) s m true) s

/-- `touchFuel` with fuel for every carriage. -/
def touchLine : Toucher := fun own line s =>
  match carriagesWith s (fun _ => true) with
  | [] => s
  | cs => touchFuel cs.length own line s

/-- The walker's updates at an access that passed (R102). -/
def xlatMark (s : State) (p : Nat) (need : Need) (va : Word) (l : Leaf) : State := markBy touchLine s p need va l
/-- A write through a translation that shows TR (R196). -/
def breakTr (s : State) (p : Nat) (va : Word) (l : Leaf) : State := breakBy touchLine s p va l
/-- A latch's count is given back (R98). -/
def latchRelease (s : State) (o : Owed) : State := releaseBy touchLine s o
/-- The counts that are owed are given back where their lines are free now. -/
def payOwed (s : State) : State := s.owed.foldl latchRelease { s with owed := [] }
/-- Ends an access, performed or withdrawn. -/
def endAccess (s : State) (a : Access) : State := endAccessBy touchLine s a
/-- Ends a list of accesses. -/
def endAccesses (s : State) (as : List Access) : State := as.foldl endAccess s
/-- Discards all a slot's carriage has done (R42, R43). -/
def carriageDiscard (s : State) (n : SlotName) (more : Bool) : State := discardBy touchLine s n more

/-- The one write to a place: bytes within one 64-byte line of it. -/
def placeWrite (s : State) (w : Writer) (pl : Place) (bs : List Byte) : State := writeBy touchLine s w pl bs

/-- The die that an entry of the error log is of (R398): that of its core, its lowering engine or scheduler, its slice. -/
def logDie (akind aidx : Nat) : Option Nat :=
  if akind ≤ 2 then some (coreDie aidx) else if akind ≤ 4 then some aidx else if akind = 7 then some (aidx / 64) else none

/-- The bytes of a new entry of the error log and the index after it (R398). -/
def logPut (s : State) (event : Nat) (cause : BitVec 8) (part akind aidx : Nat) (addr : Word) (stage lost : Nat) : State :=
  let at' := s.errlog.toNat + 32 * s.errIdx
  let bs := [BitVec.ofNat 8 event, cause, BitVec.ofNat 8 (if part < 8 then part else 0xFF), BitVec.ofNat 8 akind] ++ leBytes 2 aidx
    ++ [0, 0] ++ leBytes 8 addr.toNat ++ leBytes 4 stage ++ leBytes 4 lost ++ leBytes 8 s.errSeq
  { devPut s at' bs with errIdx := (s.errIdx + 1) % 16, errSeq := (s.errSeq + 1) % 2 ^ 64 }

/-- What the write of an entry does at its home before its bytes land, as any write does (R42, R43, R107, R130, R132, R395). -/
def logTouch (s : State) (pa : Nat) : State :=
  let w := deviceWriter s 8
  let line := lineOf (.dev pa)
  clearPoison (tagsValue (snapCopy (dropEarly (touchLine w.own line (noteHome s w.part w.own (.dev pa) true)) ⟨none, none, 8⟩ line) pa)
    pa 32) (.dev pa) 32

/-- A new entry of the error log (R398); LOST counts the corrected soft errors that its die has not logged since the die's
previous entry. -/
def logEvent (s : State) (event : Nat) (cause : BitVec 8) (part akind aidx : Nat) (addr : Word) (stage : Nat) : State :=
  let s := logTouch s (s.errlog.toNat + 32 * s.errIdx)
  match logDie akind aidx with
  | some d => logPut (onDie s d (fun q => { q with lost := 0 })) event cause part akind aidx addr stage (dieOf s d).lost
  | none => logPut s event cause part akind aidx addr stage 0

/-- Several pieces, each within a line. -/
def piecesRead (s : State) : List (Place × Nat) → List Byte
  | [] => []
  | (pl, n) :: r => placeRead s pl n ++ piecesRead s r

/-- Writes bytes over several pieces. -/
def piecesWrite (s : State) (w : Writer) : List (Place × Nat) → List Byte → State
  | [], _ => s
  | (pl, n) :: r, bs => piecesWrite (placeWrite s w pl (bs.take n)) w r (bs.drop n)

/-! ## Bytes at virtual addresses, for the device's own reads and writes -/

/-- Bytes of an address range that lies in one page, as chunks that do not cross a 64-byte line. -/
def lineChunks : Nat → Nat → Nat → List (Nat × Nat)
  | 0, _, _ => []
  | fuel + 1, a, n =>
    if n = 0 then []
    else
      let k := min n (64 - a % 64)
      (a, k) :: lineChunks fuel (a + k) (n - k)

/-- Bytes from `at'` with the bytes of one store over them. -/
def patchBytes (at' : Nat) (bs : List Byte) (sa : Nat) (sb : List Byte) : List Byte :=
  bs.zipIdx.map (fun p => if sa ≤ at' + p.2 && at' + p.2 < sa + sb.length then sb.getD (at' + p.2 - sa) p.1 else p.1)

/-- Bytes of a piece under the stores of a carriage, oldest first (R42). -/
def overlayBytes (stores : List (Place × List Byte × Bool)) (pl : Place) (bs : List Byte) : List Byte :=
  stores.foldl (fun bs st =>
    if (placeLinear st.1).1 = (placeLinear pl).1 then patchBytes (placeLinear pl).2 bs (placeLinear st.1).2 st.2.1 else bs) bs

/-- The stores that the carriage of the issuing slot holds (R42). -/
def ownStores (s : State) : List (Place × List Byte × Bool) :=
  (selfSlot s).flatMap (fun n => match (waveOf s n.1 n.2.1).bind (fun v => (slotOf v n.2.2).car) with
    | some car => car.stores
    | none => [])

/-- Reads `n` bytes at a global address with the load right, in chunks; `shape` may refuse one from an offset in it on. The first
failing address and its cause (R359: ascending). The walker's updates are made. With `own` the issuing slot's carriage reads:
its own stores are seen, and the lines join its footprint (R42). -/
def readChunks (own : Bool) (shape : State → Xlat → Nat → Option (BitVec 8 × Nat)) (s : State) (p : Nat) (secure : Bool) (va : Word)
    (n : Nat) : State × Except (BitVec 8 × Word) (List Byte) :=
  (lineChunks (n / 64 + 2) va.toNat n).foldl (fun acc c =>
    match acc.2 with
    | .error e => (acc.1, .error e)
    | .ok bs =>
      let a := BitVec.ofNat 64 c.1
      match xlatCheck acc.1 p secure .load a with
      | .error e => (acc.1, .error (e, a))
      | .ok x =>
        let s := noteHome (xlatMark acc.1 p .load a x.leaf) p (selfSlot acc.1) x.place false
        let s := if own then noteOwnLine s x.place else s
        let damaged : Except (BitVec 8 × Word) (List Byte) → Except (BitVec 8 × Word) (List Byte) := fun r =>
          match poisonWord s x.place c.2 with
          | some d => .error (causeIntegrity, BitVec.ofInt 64 (a.toNat + d))
          | none => r
        match shape s x c.2 with
        | some (e, o) => (s, if (poisonWord s x.place o).isSome && 0 < o then damaged (.ok []) else .error (e, a + BitVec.ofNat 64 o))
        | none =>
          let got := placeRead s x.place c.2
          (s, damaged (.ok (bs ++ (if own then overlayBytes (ownStores s) x.place got else got))))) (s, .ok [])

/-- A read by the device itself. -/
def readVirtual (s : State) (p : Nat) (secure : Bool) (va : Word) (n : Nat) : State × Except (BitVec 8 × Word) (List Byte) :=
  readChunks false (fun _ _ _ => none) s p secure va n

/-- A read that belongs to the issuing record. -/
def readOwn (s : State) (p : Nat) (secure : Bool) (va : Word) (n : Nat) : State × Except (BitVec 8 × Word) (List Byte) :=
  readChunks true (fun _ _ _ => none) s p secure va n

/-- Writes bytes at a global address by the device itself: a chunk whose translation fails is not written. Answers the
first failure. -/
def writeVirtual (s : State) (w : Writer) (secure : Bool) (va : Word) (bs : List Byte) : State × Option (BitVec 8 × Word) :=
  (lineChunks (bs.length / 64 + 2) va.toNat bs.length).foldl (fun acc c =>
    let a := BitVec.ofNat 64 c.1
    match xlatCheck acc.1 w.part secure .store a with
    | .error e => (acc.1, acc.2.orElse (fun _ => some (e, a)))
    | .ok x => (putVirtualBy touchLine acc.1 w a x ((bs.drop (c.1 - va.toNat)).take c.2), acc.2)) (s, none)

/-- The message of an MSI-X vector of a partition's function, or its pending bit while it is masked (R347). -/
def sendMsix (s : State) (p vec : Nat) : State :=
  if 2048 ≤ vec then s
  else if (partOf s p).msixMask.contains vec then
    onPart s p (fun q => if q.msixPend.contains vec then q else { q with msixPend := q.msixPend ++ [vec] })
  else { s with msix := s.msix ++ [(p, vec)] }

end Sys2Proof.Machine
end

