-- ==== Sys2Proof/Machine/Operands.lean ====
section
/-! DEFINITION. Operands and results (R167, R168, R171, R174, R189, R204): how a record or a die word reads each operand
form for a lane, and where its value goes. -/

namespace Sys2Proof.Machine

/-! ## Who issues -/

/-- What a slot's record sees: its place, its wave and slot, the lanes it runs for, ascending, and active(w): at a
re-injection or a re-run of a carriage, lanes with DONE set are active and do not run (R152, R159). -/
structure Ctx where
  core : Nat
  w : Nat
  x : Nat
  wave : Wave
  slot : Slot
  lanes : List Nat
  act : List Nat
  deriving DecidableEq, Repr

/-- The lanes that entries of the divergence area hold (R26). -/
def entriesLanes (es : List DivEntry) : W32 :=
  es.foldl (fun m e => match e with
    | .path _ _ p _ => m ||| p
    | .join _ _ w _ => m ||| w) 0

/-- Every lane of the wave that has not exited (R23), whether its entry is cached or stands in memory (R26). -/
def liveLanes (v : Wave) : W32 :=
  entriesLanes v.div ||| v.divLanes ||| (v.slot0.mask ||| v.slot0.held ||| v.slot1.mask ||| v.slot1.held)

/-- active(w) of the issuing word. -/
def activeLanes (s : State) (v : Wave) : W32 :=
  match s.cur.ops with
  | some e => e.lanes &&& liveLanes v
  | none => s.cur.lanes

/-- The issuing slot of this step. -/
def ctxOf (s : State) : Option Ctx :=
  match s.cur.who with
  | .slot c w x => (waveOf s c w).map (fun v =>
      ⟨c, w, x, v, slotOf v x, lanesOf s.cur.lanes, lanesOf (activeLanes s v)⟩)
  | _ => none

/-- The issuing tender stream of this step: core, index, stream. -/
def tenderOf (s : State) : Option (Nat × Nat × Tender) :=
  match s.cur.who with
  | .tender c i => ((coreOf s c).tenders[i]?).map (fun t => (c, i, t))
  | _ => none

/-- A meaning of a slot's record: a fault where no slot issues. -/
def onSlot (s : State) (f : Ctx → State) : Host.Outcome State Fault Refusal :=
  match ctxOf s with
  | some k => .next (f k)
  | none => .fault .noIssuer

/-- A meaning of a tender record: a fault where no stream issues. -/
def onTender (s : State) (f : Nat → Nat → Tender → State) : Host.Outcome State Fault Refusal :=
  match tenderOf s with
  | some (c, i, t) => .next (f c i t)
  | none => .fault .noIssuer

/-! ## Registers -/

/-- The key of register `r` of a lane. -/
def regKey (r lane : Nat) : Nat := r * 32 + lane
/-- The low register of keep slot `n`; the high one follows it (R189). -/
def keepReg (v : Wave) (n : Nat) : Nat := v.winBase + v.window - 2 - 2 * n
/-- Register `r` of a lane. -/
def regGet (k : Core) (r lane : Nat) : W32 := smGet 0 k.regs (regKey r lane)
/-- A keep slot of a lane (R174). -/
def keepGet (k : Core) (v : Wave) (n lane : Nat) : Word :=
  (regGet k (keepReg v n + 1) lane ++ regGet k (keepReg v n) lane : BitVec 64)

/-- What a carriage must put back if register keys are overwritten now. -/
def logRegs (k : Core) (keys : List Nat) (t : Slot) : Slot :=
  match t.car with
  | some car => { t with car := some { car with regs := keys.map (fun i => (i, smGet 0 k.regs i, k.regPoison.contains i)) ++ car.regs } }
  | none => t

/-- The register keys a 64-bit write to registers `r`, `r + 1` of some lanes touches, with their values. -/
def pairWrites (r : Nat) (vals : List (Nat × Word)) : List (Nat × W32) :=
  vals.flatMap (fun p => [(regKey r p.1, p.2.setWidth 32), (regKey (r + 1) p.1, p.2.extractLsb' 32 32)])

/-- Writes registers of a core from slot `x` of wave slot `w`; a carriage remembers what it overwrites (R42), and a
write of a register clears its poison (R395). -/
def writeRegs (s : State) (c w x : Nat) (ws : List (Nat × W32)) : State :=
  let k := coreOf s c
  let s := onSlotOf s c w x (logRegs k (ws.map (fun p => p.1)))
  onCore s c (fun k => { k with regs := smSetAll 0 k.regs ws,
                                regPoison := k.regPoison.filter (fun i => !(ws.any (fun p => p.1 = i))) })

/-- Writes keep slot `n` of lanes (R174). -/
def writeKeep (s : State) (c w x : Nat) (n : Nat) (vals : List (Nat × Word)) : State :=
  match waveOf s c w with
  | some v => writeRegs s c w x (pairWrites (keepReg v n) vals)
  | none => s

/-- Writes a uniform slot (R174), whose words are then no longer poisoned (R395); a carriage remembers what it overwrites. -/
def writeUni (s : State) (c w x n : Nat) (v : Word) : State :=
  onWave s c w (fun wv =>
    let t := slotOf wv x
    let t := match t.car with
      | some car => { t with car := some { car with uni := (n, smGet 0 wv.uni n, wv.uniPoison.filter (fun i => i / 2 = n)) :: car.uni } }
      | none => t
    putSlot { wv with uni := smSet 0 wv.uni n v, uniPoison := wv.uniPoison.filter (fun i => i / 2 ≠ n) } x t)

/-- Record values of a wave with cells (32 · record + lane) written: their registers are no longer poisoned (R395). -/
def writeVals (v : Wave) (ws : List (Nat × Val)) : Wave :=
  { v with vals := smSetAll ⟨0, 0⟩ v.vals ws,
           valPoison := if v.valPoison = [] then [] else v.valPoison.filter (fun i => !ws.any (fun p => p.1 = i / 4)) }

/-! ## Special state -/

/-- Special state `i` of a lane (R263). -/
def specialState (s : State) (k : Ctx) (i lane : Nat) : Word :=
  match i with
  | 0 => BitVec.ofNat 64 lane
  | 1 => BitVec.ofNat 64 k.w
  | 2 => BitVec.ofNat 64 k.wave.waveIdx
  | 3 => BitVec.ofNat 64 k.wave.blockIdx
  | 4 => BitVec.ofNat 64 k.wave.nblk
  | 5 => BitVec.ofNat 64 k.wave.waves
  | 6 => BitVec.ofNat 64 k.core
  | 7 => BitVec.ofNat 64 (k.core / 16)
  | 8 => BitVec.ofNat 64 (coreDie k.core)
  | 9 => BitVec.ofNat 64 k.wave.launch
  | 10 => BitVec.ofNat 64 k.wave.prio
  | 11 => (maskOf k.act).setWidth 64
  | 12 => BitVec.ofNat 64 (coreOf s k.core).cycle
  | 13 => (match k.wave.kind with
    | .kernel => 0
    | .task => 1
    | .evaluator => 2
    | .handler => 3)
  | 14 => BitVec.ofNat 64 k.wave.part
  | 15 => if (coreOf s k.core).world then 1 else 0
  | _ => 0

/-! ## Reading an operand -/

/-- Bits of a value of a TY (R168): 64, 1 or 32. -/
def valueWidth (t : Ty) : Nat := if t.wide then 64 else if t = .pred then 1 else 32

/-- A 64-bit value read at the width of its consumer's TY (R168). -/
def readWidth (t : Ty) (v : Word) : Word :=
  if t.wide then v else if t = .pred then v &&& 1 else (v.setWidth 32).setWidth 64

/-- A result as it is held: extended to 64 bits by its producer's TY (R168, R174). -/
def extendValue (t : Ty) (v : Word) : Word :=
  if t = .i32 then (v.setWidth 32).signExtend 64 else readWidth t v

/-- The TY is a floating-point format that an IMM13 is converted to (R168). e2m1 is not counted among them: R168 speaks of a
floating-point TY, R183 lists e2m1 as a packed one of eight 4-bit elements in 32 bits, and no record reads a single e2m1 value;
its IMM13 is read as the integer (DESIGN CHOICE, log entry 41). -/
def Ty.isFloat (t : Ty) : Bool := t.isFlt || t = .e4m3 || t = .e5m2

/-- An IMM13 at a TY (R168): a floating-point TY converts the integer with RN-even. -/
def immValue (t : Ty) (v : BitVec 13) : Word :=
  if Ty.isFloat t then BitVec.ofNat 64 (fpRound (fmtOf t) .rn false (fvInt v.toInt)) else v.signExtend 64

/-- The value of a record of the present pass for a lane (R173). -/
def recordValue (v : Wave) (rcd lane : Nat) : Val := smGet ⟨0, 0⟩ v.vals (rcd * 32 + lane)

/-- A vector name of a die word: V(WINBASE + 8·WOFF + n) (R204). -/
def dieReg (k : Ctx) (n : Nat) : Nat := k.wave.winBase + 8 * k.slot.woff.toNat + n

/-- A uniform name of a die word: s(128·UB + n) (R204). -/
def dieUni (k : Ctx) (n : Nat) : Nat := (if k.slot.ub then 128 else 0) + n

/-- The captured operand of a replay or carriage entry: operand position 0 A, 1 B, 2 C (R155, R159). -/
def capturedOperand (s : State) (pos lane : Nat) : Option Word :=
  match s.cur.ops with
  | some e => if e.opmap.any (fun p => p.1 = pos) then some (smGet 0 e.ops (32 * pos + lane)) else none
  | none => none

/-- The first of some records that writes a keep slot: a KEEP or a CHASE (R265, R329). -/
def keepWriter (recs : List Word) (n : BitVec 8) : Option Nat :=
  findAt (fun w => match decode w with
    | .ok (.keep r) | .ok (.chase r) => r.a = .keep n
    | _ => false) recs 0

/-- A keep slot as a record reads it. In a region's SIMT reading it is the slot as the previous iteration left it, which the
first record of this iteration to write it has put aside (R53). -/
def keepRead (s : State) (k : Ctx) (n : BitVec 8) (lane : Nat) : Word :=
  match (if s.cur.kind = 2 then keepWriter (s.cur.recs.take s.cur.rcd) n else none) with
  | some i => (recordValue k.wave i lane).hi
  | none => keepGet (coreOf s k.core) k.wave n.toNat lane

/-- The lane whose copy of a record's value a lane reads: of a U = 1 record every lane holds the one value, a lane that is
not active too (R171, R189). -/
def valueLane (s : State) (k : Ctx) (rcd lane : Nat) : Nat :=
  if (s.cur.recs.getD rcd 0).getLsbD 56 && !k.act.contains lane then k.act.headD lane else lane

/-- An operand of a lane before it is narrowed to a width. -/
def operandRaw (s : State) (k : Ctx) (t : Ty) (o : Opnd) (lane : Nat) : Word :=
  match o with
  | .dist d =>
    let i := s.cur.rcd - d.toNat
    if d = 0 then 0 else (recordValue k.wave i (valueLane s k i lane)).lo
  | .keep n => keepRead s k n lane
  | .unif n => smGet 0 k.wave.uni n.toNat
  | .arg n => k.wave.args.getD n.toNat 0
  | .spec n => specialState s k n.toNat lane
  | .imm v => immValue t v
  | .lit n => s.cur.lits.getD n.toNat 0
  | .vreg n =>
    let c := coreOf s k.core
    let r := dieReg k n.toNat
    if t.wide then (regGet c (r + 1) lane ++ regGet c r lane : BitVec 64) else (regGet c r lane).setWidth 64
  | .ureg n => smGet 0 k.wave.uni (dieUni k n.toNat)
  | .dimm v => v

/-- Operand `pos` of a record for a lane, at the width of a TY (R167, R168, R204); a re-injected word takes its captured
operands (R159). -/
def operand (s : State) (k : Ctx) (r : Record) (t : Ty) (pos lane : Nat) : Word :=
  match capturedOperand s pos lane with
  | some v => readWidth t v
  | none => readWidth t (operandRaw s k t (if pos = 0 then r.a else if pos = 1 then r.b else r.c) lane)

/-- The low register of the pair an operand names as a slot that the record writes: a keep slot (R189), or a vector name
of a die word. -/
def pairOf (k : Ctx) (o : Opnd) : Option Nat :=
  match o with
  | .keep n => some (keepReg k.wave n.toNat)
  | .vreg n => some (dieReg k n.toNat)
  | _ => none

/-- The lowest active lane. -/
def Ctx.low (k : Ctx) : Nat := k.lanes.headD 0

/-- The operand is uniform-valued (R171), or a uniform name or an immediate of a die word. -/
def uniformValued (s : State) (o : Opnd) : Bool :=
  match o with
  | .dist d => d = 0 || (s.cur.recs.getD (s.cur.rcd - d.toNat) 0).getLsbD 56
  | .keep _ | .vreg _ => false
  | _ => true

/-! ## Writing a result -/

/-- Result values of lanes as the record's own value (R168, R173), or in the registers a die word names (R203, R204). -/
def writeResults (s : State) (k : Ctx) (out : Ty) (vals : List (Nat × Val)) : State :=
  match s.cur.form.dest with
  | .value =>
    let ws : List (Nat × Val) := vals.map (fun p => (s.cur.rcd * 32 + p.1, Val.mk (extendValue out p.2.lo) p.2.hi))
    onWave s k.core k.w (fun v => writeVals v ws)
  | .vreg n =>
    let r := s.cur.form.win + n.toNat
    if out.wide then
      let s := writeRegs s k.core k.w k.x (pairWrites r (vals.map (fun p => (p.1, p.2.lo))))
      -- the high 8 bytes of a two-value record follow (log entry 12)
      writeRegs s k.core k.w k.x (pairWrites (r + 2) ((vals.filter (fun p => p.2.hi ≠ 0)).map (fun p => (p.1, p.2.hi))))
    else writeRegs s k.core k.w k.x (vals.map (fun p => (regKey r p.1, (readWidth out p.2.lo).setWidth 32)))
  | .ureg n =>
    match vals with
    | [] => s
    | p :: _ => writeUni s k.core k.w k.x n.toNat (extendValue out p.2.lo)

/-- The values of a record: each active lane's own, or with U = 1 the lowest active lane's in each of them (R171, R189). -/
def resultVals (u : Bool) (lanes : List Nat) (f : Nat → Val) : List (Nat × Val) :=
  if u then (match lanes with
    | [] => []
    | l :: _ => lanes.map (fun i => (i, f l)))
  else lanes.map (fun l => (l, f l))

/-! ## Which of a record's operands are captured (R155) -/

/-- The type at which a record of an opcode reads operand `pos` (R168 and the descriptions of chapters 11 to 13). -/
def readTy (op : Nat) (t : Ty) (fn : BitVec 5) (b : Opnd) (pos : Nat) : Ty :=
  if op = 0x13 then (if pos = 2 then .pred else t)
  else if op = 0x14 then (if pos = 0 then .b64 else .i64)
  else if op = 0x20 then (if pos = 0 then t else .i32)
  else if op = 0x21 then
    match b with
    | .imm v => Ty.ofCode v.toNat
    | .dimm v => Ty.ofCode v.toNat
    | _ => t
  else if op = 0x22 then (if pos = 0 then (if t = .i16x2 then .i32 else .f32) else if pos = 1 then t else .b32)
  else if op = 0x24 then (if pos = 2 then .f32 else t)
  else if 0x26 ≤ op && op ≤ 0x28 then (if pos = 0 then t else .pred)
  else if op = 0x29 then (if pos = 0 then t else .f32)
  else if op = 0x2B then .pred
  else if op = 0x33 || op = 0x35 then .pred
  else if 0x36 ≤ op && op ≤ 0x38 then .b64
  else if op = 0x3E || op = 0x40 then .b64
  else if op = 0x3F || op = 0x41 then (if pos = 0 then .b64 else t)
  else if op = 0x42 || op = 0x43 then (if pos = 0 then .b64 else t)
  else if op = 0x47 then .b64
  else if op = 0x48 then (if pos = 0 then .b64 else .n32)
  else if op = 0x4C then .n32
  else if op = 0x4D then .b64
  else if 0x50 ≤ op && op ≤ 0x52 then .b64
  else if op = 0x58 then (if pos = 1 then .b64 else .n32)
  else if op = 0x5F then .b64
  else if op = 0x2A && pos = 2 then .b32
  else if fn = 0 && op = 0 then .b32
  else t

/-- The type of the value a record of an opcode produces (R168 and the descriptions of chapters 11 to 13). -/
def resTy (op : Nat) (t : Ty) : Ty :=
  if op = 0x12 || op = 0x1D then .pred
  else if op = 0x1E || op = 0x45 then .n32
  else if op = 0x23 then (if t = .i16x2 then .i32 else .f32)
  else if op = 0x24 then .f32
  else t

/-- Operand positions that a record reads as values in its lanes: not a control target, a group, a stream, a selector, a
source code, an operation code, or a slot that it only writes. -/
def readPositions (op : Nat) : List Nat :=
  if op = 0x21 || op = 0x23 then [0]
  else if op = 0x2E then []
  else if op = 0x30 then [1]
  else if op = 0x32 || op = 0x36 || op = 0x3B then []
  else if op = 0x33 || op = 0x35 then [1]
  else if op = 0x37 || op = 0x38 then [0]
  else if op = 0x44 then []
  else if op = 0x49 then [0, 1, 2]
  else if op = 0x4B then []
  else if op = 0x4C then [1]
  else if op = 0x4D then [0, 1, 2]
  else if op = 0x53 || op = 0x54 then []
  else if op = 0x58 then [0, 2]
  else [0, 1, 2]

/-- An operand of this kind is captured: a value that a die word reads from a register or a uniform slot. -/
def isCaptured (op fn pos : Nat) (o : Opnd) : Bool :=
  match o with
  | .dist d => d ≠ 0
  | .keep _ => !(op = 0x49 && pos = 1)
  | .imm _ | .dimm _ => false
  | .lit _ => op ≠ 0x4D || fn ≠ 0 || pos ≠ 0
  | _ => true

/-- The operand of a position. -/
def recOpnd (r : Record) (pos : Nat) : Opnd := if pos = 0 then r.a else if pos = 1 then r.b else r.c

/-- The operand words a record captures (R155): position and whether it takes two words, in the order A, B, C. -/
def opmapOf (i : Instr) : List (Nat × Bool) :=
  match i.opRecord with
  | some (op, r) =>
    ((readPositions op).filter (fun p => isCaptured op r.fn.toNat p (recOpnd r p))).map (fun p => (p, (readTy op r.ty r.fn r.b p).wide))
  | none => []

/-- The value of a captured operand of a lane: MOV.hi reads the high 8 bytes of the record before it (R248). -/
def captureValue (s : State) (k : Ctx) (i : Instr) (pos lane : Nat) : Word :=
  match i with
  | .mov r =>
    if r.fn = 1 && s.cur.ops.isNone then
      match r.a with
      | .dist _ => (recordValue k.wave (s.cur.rcd - 1) lane).hi
      | _ => operand s k r r.ty 0 lane
    else operand s k r r.ty 0 lane
  | _ =>
    match i.opRecord with
    | some (op, r) => operand s k r (readTy op r.ty r.fn r.b pos) pos lane
    | none => 0

/-- The captured operands of a record, keyed 32 · position + lane: an operand read as uniform, and C, whose scales inactive
lanes supply too (R220), in every lane, another in
the active lanes (R155). -/
def captureOps (s : State) (k : Ctx) (i : Instr) : SMap Word :=
  smSetAll 0 [] ((opmapOf i).flatMap (fun p =>
    let uni := match i.opRecord with
      | some (_, r) => uniformValued s (recOpnd r p.1)
      | none => false
    (if uni || p.1 = 2 then allLanes else k.act).map (fun l => (32 * p.1 + l, captureValue s k i p.1 l))))

end Sys2Proof.Machine
end

