-- ==== Sys2Proof/Machine/Flow.lean ====
section
/-! DEFINITION. Positions and paths: moving a slot, falling through, divergence and reconvergence (R24 to R29, R172),
and barriers (R34, R35). -/

namespace Sys2Proof.Machine

/-! ## Blocks and positions -/

/-- A block of the wave's module. -/
def blockOf (v : Wave) (b : Nat) : Option BlockInfo := v.table[b]?
/-- The portable address of record 0 of a block. -/
def blockAddr (v : Wave) (b : Nat) : Word := ((blockOf v b).map (fun i => i.addr)).getD 0
/-- Records of a block. -/
def blockRecs (v : Wave) (b : Nat) : Nat := ((blockOf v b).map (fun i => i.nrec)).getD 0
/-- KIND of a block (R172). -/
def blockKind (v : Wave) (b : Nat) : Nat := ((blockOf v b).map (fun i => i.kind)).getD 0

/-- The block a block falls through to: the next one; from a variant, the one after its region (R172). -/
def fallTarget (v : Wave) (b : Nat) : Nat :=
  match blockOf v b with
  | some i => if i.kind = 2 && i.vwidth ≠ 1 then i.vof + 1 else b + 1
  | none => b + 1

/-- A carriage that has done nothing. -/
def newCarriage (b first : Nat) (addr : Word) (mask : W32) : Carriage :=
  ⟨b, first, addr, [], [], mask, [], [], [], [], [], [], [], 0, false, false⟩

/-- The carriage of a slot that enters a block at a record: one where the block is a carriage (R42). -/
def carriageAt (v : Wave) (b first : Nat) (mask : W32) : Option Carriage :=
  if blockKind v b = 1 then some (newCarriage b first (blockAddr v b) mask) else none

/-- A slot that holds a new path, ELIGIBLE from a cycle (R25, R28). A path placed inside a coupled region goes on with its
SIMT reading; one placed inside a carriage's block runs the rest of it as a carriage (log entry 11). -/
def pathSlot (v : Wave) (cyc b r : Nat) (mask : W32) (jblk : Nat) : Slot :=
  { Slot.reset with st := .eligible, blk := b, rcd := r, baddr := blockAddr v b, mask := mask, jblk := jblk,
                    ready := cyc, simt := blockKind v b = 2 && r ≠ 0,
                    car := carriageAt v b r mask }

/-- The values of lanes are gone: their pass through a block has ended (R173). -/
def dropValues (v : Wave) (mask : W32) : Wave :=
  { v with vals := v.vals.filter (fun p => !mask.getLsbD (p.1 % 32)),
           valPoison := v.valPoison.filter (fun i => !mask.getLsbD (i / 4 % 32)) }

/-- Moves a slot's path to a record of a block (R267): a run starts there with WOFF and UB 0 (R205). -/
def moveSlot (v : Wave) (x b r : Nat) : Wave :=
  let t := slotOf v x
  putSlot (dropValues v t.mask) x
    { t with st := .eligible, wait := .none, blk := b, rcd := r, baddr := blockAddr v b, woff := 0, ub := false,
             dlit := none, dspl := none, dieAt := none, illegal := none, car := carriageAt v b r t.mask, ran := ([], []) }

/-- The slot's record has completed: the next record, or fall-through; a carriage that has ended waits for its commit. -/
def advanceSlot (v : Wave) (x : Nat) : Wave :=
  let t := slotOf v x
  if t.rcd + 1 < blockRecs v t.blk then putSlot v x { t with rcd := t.rcd + 1, dlit := none, dspl := none, dieAt := none, illegal := none }
  else if t.car.isSome then putSlot v x { t with rcd := t.rcd + 1, illegal := none, st := .stalled, wait := .commit }
  else moveSlot v x (fallTarget v t.blk) 0

/-- The slot leaves the block it runs by falling through (R172). -/
def leaveBlock (v : Wave) (x : Nat) : Wave := moveSlot v x (fallTarget v (slotOf v x).blk) 0

/-- The issued word of a slot has completed: in explicit code the next word, at the end of the run as a block's end (R205);
where the model runs records, the next record. -/
def stepSlot (cur : Issue) (v : Wave) (x : Nat) : Wave :=
  let t := slotOf v x
  if t.dieAt.isNone then advanceSlot v x
  else
    match cur.next with
    | some (i, r) =>
      putSlot v x { t with rcd := r, dlit := none, dspl := none, dieAt := some i,
                           illegal := if r = t.rcd then t.illegal else none }
    | none =>
      if t.car.isSome then
        putSlot v x { t with rcd := blockRecs v t.blk, dlit := none, dspl := none, dieAt := none, illegal := none,
                             st := .stalled, wait := .commit }
      else leaveBlock v x

/-- The issuing slot's carriage is still the run that the word issued in: an agent that the word made write, a carriage it
aborted among them, has not aborted it in turn (R42). -/
def sameRun (s : State) (k : Ctx) : Bool :=
  match k.slot.car, (waveOf s k.core k.w).bind (fun v => (slotOf v k.x).car) with
  | some a, some b => a.aborts = b.aborts
  | _, _ => true

/-- The issuing slot's word has completed. A re-injected word leaves the position; a carriage that was aborted meanwhile stands
at its first record. -/
def advance (s : State) (k : Ctx) : State :=
  if s.cur.replay || !sameRun s k then s else onWave s k.core k.w (fun v => stepSlot s.cur v k.x)

/-- The slot waits, at its present position (R24). -/
def slotWaits (s : State) (c w x : Nat) (st : SlotSt) (why : Wait) : State :=
  onSlotOf s c w x (fun t => { t with st := st, wait := why })

/-- The slot is ELIGIBLE again from the core's present cycle. -/
def slotReady (k : Core) (t : Slot) : Slot := { t with st := .eligible, wait := .none, ready := k.cycle }

/-! ## Barriers (R34, R35) -/

/-- Group-table entry `e` of a core. -/
def groupOf (k : Core) (e : Nat) : Group := smGet Group.reset k.groups e
/-- The core with a group-table entry replaced. -/
def putGroup (k : Core) (e : Nat) (g : Group) : Core := { k with groups := smSet Group.reset k.groups e g }

/-- Set bits of a mask of 16. -/
def popcount16 (m : BitVec 16) : Nat := ((List.range 16).filter (fun i => m.getLsbD i)).length

/-- EXPECT at placement and at each completion (R34). -/
def groupExpect (g : Group) : Nat := popcount16 g.members + (if g.tm then 1 else 0)

/-- Every wave and tender WAITING on a phase of an entry goes on (R35). -/
def wakePhase (k : Core) (e : Nat) (ph : Bool) : Core :=
  let wake (t : Slot) : Slot := if t.wait = .barrier e ph then slotReady k t else t
  { k with
    waves := k.waves.map (fun p => (p.1, p.2.map (fun v => { v with slot0 := wake v.slot0, slot1 := wake v.slot1 }))),
    tenders := k.tenders.map (fun t => if t.st = .tmeet e ph false then { t with st := .ready, since := k.cycle } else t) }

/-- The core with one tender stream changed. -/
def onTenderAt (k : Core) (i : Nat) (f : Tender → Tender) : Core :=
  match k.tenders[i]? with
  | some t => { k with tenders := setAt k.tenders i (f t) }
  | none => k

/-- The entry of a re-injected BAR of slot `x`, the head of those not kept for a carriage, is done (R159). -/
def dropBarEntry (x : Nat) : List Replay → List Replay
  | [] => []
  | e :: r => if !e.car && e.x = x then r else e :: dropBarEntry x r

/-- The slot whose arrival has been counted goes on from its BAR; a re-injected BAR leaves the position. -/
def heldGoesOn (v : Wave) (cyc x : Nat) (replay : Bool) : Wave :=
  let v := putSlot v x { slotOf v x with st := .eligible, wait := .none, ready := cyc }
  if replay then { v with replay := dropBarEntry x v.replay } else advanceSlot v x

/-- A held arrival is counted in the present phase of an entry, or held on (R35). -/
def countHeld (k : Core) (e : Nat) (a : Arrival) : Core :=
  let g := groupOf k e
  if g.arrived < g.expect then
    match a with
    | .wave w x wait replay =>
      match smGet none k.waves w with
      | some v =>
        let k := putGroup k e { g with arrived := g.arrived + 1, amask := g.amask ||| BitVec.ofNat 16 (2 ^ v.waveIdx) }
        let v := heldGoesOn v k.cycle x replay
        putWave k w (some (if wait then
            putSlot v x { slotOf v x with st := .waiting, wait := .barrier e g.phase } else v))
      | none => k
    | .tender i =>
      let k := putGroup k e { g with arrived := g.arrived + 1, tmeet := true }
      onTenderAt k i (fun t => { t with st := .tmeet e g.phase false })
  else putGroup k e { g with held := g.held ++ [a] }

/-- A phase completes at the first moment at which ARRIVED = EXPECT > 0 and PENDING = 0 (R35); held arrivals are then
counted in the new phase, which may complete it in turn. -/
def groupTry : Nat → Core → Nat → Core
  | 0, k, _ => k
  | fuel + 1, k, e =>
    let g := groupOf k e
    if g.arrived = g.expect && 0 < g.expect && g.pending = 0 then
      let held := g.held
      let g' := { g with phase := !g.phase, arrived := 0, amask := 0, expect := groupExpect g, held := [], tmeet := false }
      let k := wakePhase (putGroup k e g') e g.phase
      groupTry fuel (held.foldl (fun k a => countHeld k e a) k) e
    else k

/-- The phases of an entry that complete now; a held arrival is counted once a phase, so 17 phases bound them. -/
def groupSettle (k : Core) (e : Nat) : Core := groupTry 40 k e

/-- An engine completion drains `n` from an entry (R35). -/
def groupDrain (k : Core) (e n : Nat) : Core :=
  let g := groupOf k e
  let d := min n g.pending
  groupSettle (putGroup k e { g with pending := g.pending - d, credit := min (g.credit + (n - d)) 0xFFFFFF }) e

/-- Member wave `i` of a block exits (R35). -/
def groupExit (k : Core) (e i : Nat) : Core :=
  let g := groupOf k e
  if g.members.getLsbD i then
    let g' := { g with members := g.members &&& ~~~(BitVec.ofNat 16 (2 ^ i)),
                       expect := if g.amask.getLsbD i then g.expect else max (g.expect - 1) g.arrived }
    groupSettle (putGroup k e g') e
  else k

/-- The tender's stream of a block ends (R35, R369). -/
def groupStreamEnd (k : Core) (e : Nat) : Core :=
  let g := groupOf k e
  if g.tm then
    let drop (a : Arrival) : Bool := match a with
      | .tender _ => false
      | .wave .. => true
    let g' := { g with tm := false, held := g.held.filter drop,
                       expect := if g.tmeet then g.expect else max (g.expect - 1) g.arrived }
    groupSettle (putGroup k e g') e
  else k

/-- A slot's held arrivals are taken back: they were never counted (R27, R154). -/
def unholdSlot (k : Core) (w x : Nat) : Core :=
  let keep (a : Arrival) : Bool := match a with
    | .wave w' x' _ _ => !(w' = w && x' = x)
    | .tender _ => true
  { k with groups := k.groups.map (fun p => (p.1, { p.2 with held := p.2.held.filter keep })) }

/-! ## Divergence (R26 to R28) -/

/-- Entries the divergence area holds. -/
def divCount (v : Wave) : Nat := v.div.length + v.divMem

/-- The 16 bytes of an entry (R26). -/
def divBytes : DivEntry → List Byte
  | .path r b m j => leBytes 8 (j * 2 ^ 48) ++ leBytes 8 (r * 2 ^ 48 + b * 2 ^ 32 + m.toNat)
  | .join j m w o => leBytes 8 (w.toNat * 2 ^ 32 + o * 2 ^ 16) ++ leBytes 8 (2 ^ 62 + j * 2 ^ 32 + m.toNat)

/-- The entry of 16 bytes; none for KIND 0b10 and 0b11 (R26). -/
def divParse (bs : List Byte) : Option DivEntry :=
  let lo := leNat (bs.take 8)
  let hi := leNat (bs.drop 8)
  if hi / 2 ^ 62 = 0 then
    some (.path (hi / 2 ^ 48 % 2 ^ 12) (hi / 2 ^ 32 % 2 ^ 16) (BitVec.ofNat 32 hi) (lo / 2 ^ 48 % 2 ^ 16))
  else if hi / 2 ^ 62 = 1 then
    some (.join (hi / 2 ^ 32 % 2 ^ 16) (BitVec.ofNat 32 hi) (BitVec.ofNat 32 (lo / 2 ^ 32)) (lo / 2 ^ 16 % 2 ^ 16))
  else none

/-- Entries of the area from bytes, oldest first, as far as each has a KIND the core writes. -/
def divParseAll : Nat → List Byte → Option (List DivEntry)
  | 0, _ => some []
  | n + 1, bs =>
    match divParse (bs.take 16), divParseAll n (bs.drop 16) with
    | some e, some r => some (e :: r)
    | _, _ => none

/-- Brings the entries that stand in memory back on chip: an unspill of a KIND never written raises INTEGRITY (R26). The
area is read through the backing store's global address; an area that cannot be read counts as damaged (log entry 14). -/
def divLoad (s : State) (c w : Nat) : Option State :=
  match waveOf s c w with
  | none => some s
  | some v =>
    if v.divMem = 0 then some s
    else
      let r := readVirtual s v.part (coreOf s c).world v.privBase (16 * v.divMem)
      match r.2 with
      | .error _ => none
      | .ok bs =>
        match divParseAll v.divMem bs with
        | some es => some (onWave r.1 c w (fun v => { v with div := v.div ++ es.reverse, divMem := 0, divLanes := 0 }))
        | none => none

/-- Writes the cached entries to the area (R26); they stay cached where `keep` says so. -/
def divSpill (s : State) (c w : Nat) (keep : Bool) : State :=
  match waveOf s c w with
  | none => s
  | some v =>
    let s := (writeVirtual s ⟨v.part, selfSlot s, some c⟩ (coreOf s c).world (v.privBase + BitVec.ofNat 64 (16 * v.divMem)) (v.div.reverse.flatMap divBytes)).1
    if keep then s
    else onWave s c w (fun v => { v with div := [], divMem := v.divMem + v.div.length, divLanes := v.divLanes ||| entriesLanes v.div })

/-- The newest path entry, and the entries without it. -/
def takePath : List DivEntry → Option ((Nat × Nat × W32 × Nat) × List DivEntry)
  | [] => none
  | .path r b m j :: es => some ((r, b, m, j), es)
  | e :: es => (takePath es).map (fun p => (p.1, e :: p.2))

/-- An EMPTY slot takes the newest path entry (R28), with what its path has run of its block (R197). -/
def fillSlot (v : Wave) (cyc x : Nat) : Wave :=
  if (slotOf v x).st = .empty then
    match takePath v.div with
    | some ((r, b, m, j), es) =>
      putSlot { v with div := es, divRan := v.divRan.filter (fun q => q.1 &&& m = 0) } x
        { pathSlot v cyc b r m j with ran := ((v.divRan.find? (fun q => q.1 &&& m ≠ 0)).map (fun q => q.2)).getD ([], []) }
    | none => v
  else v

/-- Both slots, the lower first. -/
def fillSlots (v : Wave) (cyc : Nat) : Wave := fillSlot (fillSlot v cyc 0) cyc 1

/-- The position of record `r` of a block, or of the block it falls through to where there is none (R172). -/
def recordAfter (v : Wave) (b r : Nat) : Nat × Nat := if r < blockRecs v b then (b, r) else (fallTarget v b, 0)

/-- A completed reconvergence entry places its path after the JOIN, in the lower-numbered EMPTY slot, or as the newest
path entry where neither is EMPTY (R28). -/
def completeJoin (v : Wave) (cyc j : Nat) (m : W32) (o : Nat) : Wave :=
  let p := recordAfter v j 1
  let place (x : Nat) : Wave := putSlot v x (pathSlot v cyc p.1 p.2 m o)
  if v.slot0.st = .empty then place 0
  else if v.slot1.st = .empty then place 1
  else { v with div := .path p.2 p.1 m o :: v.div }

/-- The newest reconvergence entry of block `j` that holds the lanes: it, and the entries without it. -/
def findJoin (j : Nat) (l : W32) : List DivEntry → Option ((W32 × W32 × Nat) × List DivEntry × List DivEntry)
  | [] => none
  | .join j' m w o :: es =>
    if j' = j && l &&& m = l then some ((m, w, o), [], es)
    else (findJoin j l es).map (fun p => (p.1, .join j' m w o :: p.2.1, p.2.2))
  | e :: es => (findJoin j l es).map (fun p => (p.1, e :: p.2.1, p.2.2))

/-- A path reaches the JOIN of its own reconvergence block (R28); none where no entry matches. -/
def arriveJoin (v : Wave) (cyc x : Nat) : Option Wave :=
  let t := slotOf v x
  match findJoin t.blk t.mask v.div with
  | none => none
  | some ((m, w, o), newer, older) =>
    let w' := w ||| t.mask
    let v := putSlot (dropValues v t.mask) x Slot.reset
    if w' = m then some (fillSlots (completeJoin { v with div := newer ++ older } cyc t.blk m o) cyc)
    else some (fillSlots { v with div := newer ++ (.join t.blk m w' o :: older) } cyc)

/-- The entries of the area when lanes exit: the entries that stay, and the joins that complete, newest first (R28). -/
def exitEntries (ls : W32) : List DivEntry → List DivEntry × List (Nat × W32 × Nat)
  | [] => ([], [])
  | .path r b m j :: es =>
    let rest := exitEntries ls es
    let m' := m &&& ~~~ls
    (if m' = 0 then rest.1 else .path r b m' j :: rest.1, rest.2)
  | .join j m w o :: es =>
    let rest := exitEntries ls es
    let m' := m &&& ~~~ls
    let w' := w &&& ~~~ls
    if m' = 0 then rest
    else if m' = w' then (rest.1, (j, m', o) :: rest.2)
    else (.join j m' w' o :: rest.1, rest.2)

/-- A slot without some lanes; EMPTY when none remains in it or held beside it (R71). -/
def slotWithout (t : Slot) (ls : W32) : Slot :=
  let m := t.mask &&& ~~~ls
  let h := t.held &&& ~~~ls
  if m = 0 && h = 0 then Slot.reset else { t with mask := m, held := h }

/-- Lanes end: they leave the slots, the path entries and the reconvergence entries, which may complete (R28). Where an
entry completes and a slot empties at once, the completed entry's path is placed before the newest path entry: R28 orders
the two nowhere (DESIGN CHOICE, log entry 36). -/
def endLanes (v : Wave) (cyc : Nat) (ls : W32) : Wave :=
  let v := { dropValues v ls with
             slot0 := slotWithout v.slot0 ls, slot1 := slotWithout v.slot1 ls, divLanes := v.divLanes &&& ~~~ls,
             divRan := v.divRan.filter (fun q => q.1 &&& ~~~ls ≠ 0) }
  let e := exitEntries ls v.div
  fillSlots (e.2.foldl (fun v p => completeJoin v cyc p.1 p.2.1 p.2.2) { v with div := e.1 }) cyc

/-- How a sibling stands when a record needs its slot (R27). -/
inductive SiblingSt where
  /-- EMPTY: nothing to spill. -/
  | free
  /-- Its path spills at its position. -/
  | spills
  /-- The record waits until the sibling leaves WAITING or its issued words have completed. -/
  | holds
  deriving DecidableEq, Repr

/-- The access belongs to one of some lanes. -/
def ofLanes (m : W32) (a : Access) : Bool := if a.uniform then a.lanes &&& m ≠ 0 else m.getLsbD a.lane

/-- The accesses in flight of the lanes that a slot holds: those its path issued in another slot before it spilled are
among them (R27). -/
def laneAccs (s : State) (c w : Nat) (v : Wave) (x : Nat) : List Access :=
  let t := slotOf v x
  s.accs.filter (fun a => a.core = c && a.wslot = w && a.wuid = v.uid && ofLanes (t.mask ||| t.held) a)

/-- The sibling of a slot (R27). An ELIGIBLE one spills at once; a STALLED one when the words it has issued have completed:
its accesses in flight, an access parked on a walk, a fence at the port, a carriage's commit. A counted barrier arrival and a
full deque are waited for; the other waits spill at their record. -/
def siblingState (s : State) (c w : Nat) (v : Wave) (y : Nat) : SiblingSt :=
  let t := slotOf v y
  match t.st, t.wait with
  | .empty, _ => .free
  | _, .walk .. | _, .walked .. | _, .port _ | _, .commit | _, .barrier .. | _, .deque _ | _, .snap | _, .cut => .holds
  | .eligible, _ | _, .tags .. | _, .ring .. | _, .stream _ | _, .barHeld _ => .spills
  | _, _ => if laneAccs s c w v y = [] then .spills else .holds

/-- The sibling's path as path entries, newest first: a carriage in progress spills at the record it starts at (R27, R43). Lanes
that wait out a region's SIMT reading spill by themselves at its UNCPL, their next record (R270; DESIGN CHOICE, log entry
36). -/
def siblingEntries (v : Wave) (t : Slot) : List DivEntry :=
  let uncpl := blockRecs v t.blk - 1
  let own : DivEntry := match t.car with
    | some car => .path car.first car.blk car.mask t.jblk
    | none => .path t.rcd t.blk t.mask t.jblk
  (if t.mask = 0 then [] else [own]) ++ (if t.held = 0 then [] else [.path uncpl t.blk t.held t.jblk])

/-- What the sibling's paths have run of their blocks, which they keep in the area (R197). -/
def spilledRan (t : Slot) : List (W32 × List Word × List Word) :=
  if t.ran.1 = [] then [] else ([t.mask, t.held].filter (fun m => m ≠ 0)).map (fun m => (m, t.ran))

end Sys2Proof.Machine
end

