-- ==== Sys2Proof/Machine/Module.lean ====
section
/-! DEFINITION. The module image (R177 to R180): its header, block table and entry descriptors, read through a reader
that may fail at an address. -/

namespace Sys2Proof.Machine

/-- A reader of portable code: bytes at an address, or a cause and the failing address. -/
abbrev CodeReader := Word → Nat → Except (BitVec 8 × Word) (List Byte)

/-- Bytes fetched as portable code (R102, R105, R351): in chunks of a line, ascending. -/
def fetchBytes (s : State) (p : Nat) (secure : Bool) : CodeReader := fun va n =>
  (lineChunks (n / 64 + 2) va.toNat n).foldl (fun acc c =>
    match acc with
    | .error e => .error e
    | .ok bs =>
      let a := BitVec.ofNat 64 c.1
      match xlatCheck s p secure .fetch a with
      | .error e => .error (if e = causeSpaceBad then causeFetchUnmapped else e, a)
      | .ok x => .ok (bs ++ placeRead s x.place c.2)) (.ok [])

/-- The walker's updates for a fetch of bytes (R102). -/
def markFetch (s : State) (p : Nat) (secure : Bool) (va : Word) (n : Nat) : State :=
  (lineChunks (n / 64 + 2) va.toNat n).foldl (fun s c =>
    let a := BitVec.ofNat 64 c.1
    match xlatCheck s p secure .fetch a with
    | .ok x => xlatMark s p .fetch a x.leaf
    | .error _ => s) s

/-- A little-endian field of a byte list. -/
def field (bs : List Byte) (off n : Nat) : Nat := leNat ((bs.drop off).take n)

/-- The module header (R177). -/
structure ModHeader where
  raw : List Byte
  nblock : Nat
  nres : Nat
  blktab : Nat
  restab : Nat
  size : Nat
  handler : Nat
  deriving DecidableEq, Repr

/-- Reads a header. -/
def readHeader (rd : CodeReader) (base : Word) : Except (BitVec 8 × Word) ModHeader :=
  match rd base 64 with
  | .error e => .error e
  | .ok bs => .ok ⟨bs, field bs 8 4, field bs 0xC 4, field bs 0x10 4, field bs 0x14 4, field bs 0x18 4, field bs 0x1C 2⟩

/-- The groups of a descriptor (R179). -/
def parseGroups : Nat → List Byte → List (BitVec 16 × Bool)
  | 0, _ => []
  | n + 1, bs => (BitVec.ofNat 16 (field bs 0 2), field bs 2 1 % 2 = 1) :: parseGroups n (bs.drop 4)

/-- An entry descriptor from its 64 bytes and its groups (R179). -/
def parseDesc (bs groups : List Byte) : EntryDesc where
  ekind := field bs 0 1
  waves := field bs 1 1
  window := field bs 2 2
  priv := field bs 4 4
  tiles := BitVec.ofNat 48 (field bs 8 6)
  dqbase := field bs 0x10 4
  dqlim := field bs 0x14 4
  tblk := field bs 0x18 2
  nargs := field bs 0x1A 2
  nkeep := field bs 0x1C 2
  tmr := field bs 0x1E 1
  launcher := field bs 0x1F 1 / 2 % 2 = 1
  groups := parseGroups (field bs 0x20 2) groups

/-- Reads a descriptor. -/
def readDesc (rd : CodeReader) (addr : Word) : Except (BitVec 8 × Word) EntryDesc :=
  match rd addr 64 with
  | .error e => .error e
  | .ok bs =>
    match rd (addr + 64) (4 * field bs 0x20 2) with
    | .error e => .error e
    | .ok gs => .ok (parseDesc bs gs)

/-- Reads a block-table entry (R178), with its descriptor. -/
def readBlock (rd : CodeReader) (base : Word) (entry : Word) : Except (BitVec 8 × Word) BlockInfo :=
  match rd entry 32 with
  | .error e => .error e
  | .ok bs =>
    let off := field bs 0x10 4
    let info (d : Option EntryDesc) : BlockInfo :=
      { addr := base + BitVec.ofNat 64 (field bs 0 4), nrec := field bs 4 2, kind := field bs 6 1, vwidth := field bs 7 1,
        vof := field bs 8 2, nlit := field bs 0xA 2, litAddr := base + BitVec.ofNat 64 (field bs 0xC 4), desc := d }
    if off = 0 then .ok (info none)
    else
      match readDesc rd (base + BitVec.ofNat 64 off) with
      | .error e => .error e
      | .ok d => .ok (info (some d))

/-- Reads the block-table entry of a block of the module at an address. -/
def readBlockAt (rd : CodeReader) (base : Word) (b : Nat) : Except (BitVec 8 × Word) BlockInfo :=
  match readHeader rd base with
  | .error e => .error e
  | .ok h => readBlock rd base (base + BitVec.ofNat 64 (h.blktab + 32 * b))

/-- Reads `n` block-table entries from number `i`. -/
def readBlocks (rd : CodeReader) (base tab : Word) : Nat → Nat → Except (BitVec 8 × Word) (List BlockInfo)
  | 0, _ => .ok []
  | n + 1, i =>
    match readBlock rd base (tab + BitVec.ofNat 64 (32 * i)) with
    | .error e => .error e
    | .ok b =>
      match readBlocks rd base tab n (i + 1) with
      | .error e => .error e
      | .ok r => .ok (b :: r)

/-- A block that a target or link may name (R272): plain, carriage or coupled, and no variant. -/
def callable (i : BlockInfo) : Bool := i.kind ≤ 2 && !(i.kind = 2 && i.vwidth ≠ 1)

/-- Reads a header and the whole block table. -/
def readTable (rd : CodeReader) (base : Word) : Except (BitVec 8 × Word) (ModHeader × List BlockInfo) :=
  match readHeader rd base with
  | .error e => .error e
  | .ok h =>
    match readBlocks rd base (base + BitVec.ofNat 64 h.blktab) h.nblock 0 with
    | .error e => .error e
    | .ok t => .ok (h, t)

/-- Little-endian words of 64 bits. -/
def wordsOf : Nat → List Byte → List Word
  | 0, _ => []
  | n + 1, bs => leWord (bs.take 8) :: wordsOf n (bs.drop 8)

/-- A block of a verified module, as an address names it: module, block number, table, HANDLER. -/
structure FoundBlock where
  modl : Word
  blk : Nat
  info : BlockInfo
  table : List BlockInfo
  handler : Nat
  deriving DecidableEq, Repr

/-- The verified modules of a partition (R181). -/
def okModules (s : State) (p : Nat) : List ModReg := s.modules.filter (fun m => m.part = p && m.word.toNat % 256 = 0)

/-- The walker's updates for the reads of a header, a block table and its descriptors (R102). -/
def markTable (s : State) (p : Nat) (base : Word) : State :=
  match readTable (fetchBytes s p true) base with
  | .error _ => s
  | .ok (h, t) =>
    let s := markFetch (markFetch s p true base 64) p true (base + BitVec.ofNat 64 h.blktab) (32 * h.nblock)
    (List.range t.length).foldl (fun s i =>
      match fetchBytes s p true (base + BitVec.ofNat 64 (h.blktab + 32 * i + 0x10)) 4, (t[i]?).bind (fun b => b.desc) with
      | .ok bs, some d => markFetch s p true (base + BitVec.ofNat 64 (leNat bs)) (64 + 4 * d.groups.length)
      | _, _ => s) s

/-- The walker's updates for the search of a partition's verified modules (R102). -/
def markBlocks (s : State) (p : Nat) : State := (okModules s p).foldl (fun s m => markTable s p m.base) s

/-- The block of a partition's verified modules whose record 0 stands at an address (R39, R45, R181, R182). -/
def findBlock (s : State) (p : Nat) (addr : Word) : Option FoundBlock :=
  (okModules s p).findSome? (fun m =>
    match readTable (fetchBytes s p true) m.base with
    | .error _ => none
    | .ok (h, t) =>
      match findAt (fun b => b.addr = addr) t 0 with
      | some i => (t[i]?).map (fun b => ⟨m.base, i, b, t, h.handler⟩)
      | none => none)

/-- The entry descriptor at an address, where it has the wanted EKIND: 1 kernel, 2 task, 3 evaluator, 4 handler. -/
def findEntry (s : State) (p : Nat) (addr : Word) (ekind : Nat) : Option (FoundBlock × EntryDesc) :=
  match findBlock s p addr with
  | some f =>
    match f.info.desc with
    | some d => if d.ekind = ekind then some (f, d) else none
    | none => none
  | none => none

end Sys2Proof.Machine
end

