-- ==== Sys2Proof/Machine/Access.lean ====
section
/-! DEFINITION. Accesses of lanes: their checks at the core (R359 steps 5 to 7), when one may be performed (R111 to
R120, R130, R43), what it does at its place (R116, R117, R134 to R138, R282 to R286), and where its value goes. -/

namespace Sys2Proof.Machine

/-! ## Resource entries -/

/-- The virtual address of entry `i` (R94). -/
def entryAddr (s : State) (p i : Nat) : Word := (partOf s p).rtbase + BitVec.ofNat 64 (64 * i)

/-- An entry as read: what a latch keeps, and the two counts. -/
structure ResEntry where
  l : Latch
  inflight : Nat
  oldref : Nat
  deriving DecidableEq, Repr

/-- An entry from its 64 bytes (R95). -/
def parseEntry (i : Nat) (bs : List Byte) : ResEntry where
  l := { idx := i, base := leWord (bs.take 8), size := leWord ((bs.drop 8).take 8), shadow := leWord ((bs.drop 16).take 8),
         gen := BitVec.ofNat 8 (field bs 0x25 1), kind := if 7 ≤ field bs 0x24 1 then 0 else field bs 0x24 1,
         rights := BitVec.ofNat 8 (field bs 0x26 1 % 32), world := field bs 0x27 1 % 2 = 1,
         pubver := BitVec.ofNat 32 (field bs 0x20 4), kspec := (bs.drop 0x28).take 24 }
  inflight := field bs 0x18 4
  oldref := field bs 0x1C 4

/-- Reads entry `i` in a world (R97, R98): the cause and the entry's address where the read fails. With `own` the issuing
record reads it, the stores of its own carriage seen (R42, R114). -/
def readEntry (own : Bool) (s : State) (p : Nat) (secure : Bool) (i : Nat) : State × Except (BitVec 8 × Word) ResEntry :=
  let r := (if own then readOwn else readVirtual) s p secure (entryAddr s p i) 64
  match r.2 with
  | .error e => (r.1, .error (e.1, entryAddr s p i))
  | .ok bs => (r.1, .ok (parseEntry i bs))

/-- A failed check of step 5 for operand `pos` (R359): `ord` is its place in R97. -/
def failRes (pos ord : Nat) (c : BitVec 8) (addr : Word) : Fail := ⟨500 + 20 * pos + ord, c, addr⟩

/-- The place in R97 of a cause of the entry's read. -/
def entryReadOrder (c : BitVec 8) : Nat :=
  if c = causeDataUnmapped then 1 else if c = causeWorld then 2 else if c = causeDataRights then 3 else 4

/-- Resolution of a handle (R97): kind 0 and right 8 ask for none. `val` is the operand, for ADDR. -/
def resolve (s : State) (p : Nat) (secure : Bool) (pos : Nat) (h : W32) (kind right : Nat) (off len : Nat) (val : Word) :
    State × Except Fail ResEntry :=
  let i := h.toNat / 256
  if (partOf s p).rtlen.toNat ≤ i then (s, .error (failRes pos 0 causeHandleRange val))
  else
    let r := readEntry true s p secure i
    match r.2 with
    | .error e => (r.1, .error (failRes pos (entryReadOrder e.1) e.1 e.2))
    | .ok e =>
      if e.l.kind ≠ kind || e.l.gen ≠ h.setWidth 8 then (r.1, .error (failRes pos 6 causeHandleStale val))
      else if e.l.world && !secure then (r.1, .error (failRes pos 7 causeWorld val))
      else if right < 8 && !e.l.rights.getLsbD right then (r.1, .error (failRes pos 8 causeDataRights val))
      else if e.l.size.toNat < off + len then (r.1, .error (failRes pos 9 causeHandleRange val))
      else if kind = 5 && !(let n := leNat (e.l.kspec.take 4)
          16 ≤ n && n ≤ 2 ^ 20 && n = 2 ^ Nat.log2 n) then (r.1, .error (failRes pos 10 causeHandleRange val))
      else (r.1, .ok e)

/-- Writes a field of entry `i` by the device (R96). -/
def entryPut (s : State) (p i off : Nat) (bs : List Byte) : State :=
  (writeVirtual s (deviceWriter s p) true (entryAddr s p i + BitVec.ofNat 64 off) bs).1

/-- A latch that moves bytes through BASE adds 1 to INFLIGHT, as the entry holds it in memory (R98). -/
def latchCount (s : State) (p : Nat) (e : ResEntry) : State :=
  let r := readVirtual s p true (entryAddr s p e.l.idx + 0x18) 4
  match r.2 with
  | .error _ => r.1
  | .ok bs => entryPut r.1 p e.l.idx 0x18 (leBytes 4 (leNat bs + 1))

/-! ## Checks of a generic address (R78 to R84, R359 step 6) -/

/-- Non-zero RZ bits of a scratchpad or cluster-shared address (R81, R82). -/
def windowRz (va : Word) : Bool := va.toNat / 2 ^ 48 % 256 ≠ 0 || va.toNat / 2 ^ 18 % 2 ^ 18 ≠ 0

/-- The scratchpad byte of a window address: the core it names must exist, and the offset lie in its space. -/
def windowCheck (s : State) (c : Nat) (va : Word) : Except (BitVec 8) (Nat × Nat) :=
  let owner := va.toNat / 2 ^ 36 % 2 ^ 12
  let off := va.toNat % 2 ^ 18
  let own := if va.toNat / 2 ^ 56 = 0x81 then owner = c else owner / 16 = c / 16
  if windowRz va || Config.numCores ≤ owner || roleSize (coreOf s owner) 0 ≤ off then .error causeSpaceBad
  else if !own then .error causeSpaceForeign
  else .ok (owner, off)

/-- The backing address of byte `off` of a lane's private space (R80). -/
def privateAddr (v : Wave) (lane off : Nat) : Word :=
  v.privBase + BitVec.ofNat 64 (0x4000 + off / 4 * 128 + 4 * lane + off % 4)

/-- Translates the 4-byte words of a private access one after another (R80). -/
def privatePieces (s : State) (v : Wave) (secure : Bool) (need : Need) (lane : Nat) :
    Nat → Nat → Nat → Except (BitVec 8) (List (Place × Nat) × Bool × List (Word × Leaf))
  | 0, _, _ => .ok ([], false, [])
  | k + 1, off, n =>
    let a := privateAddr v lane off
    match xlatCheck s v.part secure need a with
    | .error c => .error c
    | .ok x =>
      match privatePieces s v secure need lane k (off + n) n with
      | .error c => .error c
      | .ok r => .ok ((x.place, n) :: r.1, x.cell || r.2.1, (a, x.leaf) :: r.2.2)

/-- A checked address: pieces, cell page, and the translations it used. -/
abbrev Checked := List (Place × Nat) × Bool × List (Word × Leaf)

/-- The page is uncached (R102 MT). -/
def uncached (x : Checked) : Bool := x.2.2.any (fun t => pteBit t.2.val 2)

/-- Step 6 of R359 for one lane: window, foreign, alignment, then translation, world and rights. -/
def checkAddress (s : State) (c : Nat) (v : Wave) (lane : Nat) (need : Need) (va : Word) (size : Nat) : Except Fail Checked :=
  let secure := (coreOf s c).world
  let top := va.toNat / 2 ^ 56
  let fail (cs : BitVec 8) : Except Fail Checked := .error (failAddr cs va)
  let aligned := va.toNat % size = 0
  if top = 0x80 then
    let off := va.toNat % 2 ^ 40
    if va.toNat / 2 ^ 40 % 2 ^ 16 ≠ 0 || v.priv < off + size then fail causeSpaceBad
    else if !aligned then fail causeMisaligned
    else
      match privatePieces s v secure need lane (if size ≤ 4 then 1 else size / 4) off (min size 4) with
      | .error cs => fail cs
      | .ok r => .ok r
  else if top = 0x81 || top = 0x82 then
    match windowCheck s c va with
    | .error cs => fail cs
    | .ok (owner, off) =>
      if !aligned then fail causeMisaligned
      else .ok ([(.tile owner (roleByte (coreOf s owner) 0 off), size)], false, [])
  else if !canonical va then fail causeSpaceBad
  else if !aligned then fail causeMisaligned
  else
    match xlatCheck s v.part secure need va with
    | .error cs => fail cs
    | .ok x => .ok ([(x.place, size)], x.cell, [(va, x.leaf)])

/-- The walker's updates of a checked access, and a write's effect on translated pages (R102, R196). -/
def markChecked (s : State) (p : Nat) (need : Need) (x : Checked) : State :=
  x.2.2.foldl (fun s t =>
    let s := xlatMark s p need t.1 t.2
    if need = .store || need = .atomic || need = .write then breakTr s p t.1 t.2 else s) s

/-- A page of a checked access that no cache holds: an access parks on its walk (R104). -/
def missingPage (s : State) (p : Nat) (x : Checked) : Option Nat :=
  (x.2.2.find? (fun t => (cachedLeaf s p (pageOf t.1)).isNone)).map (fun t => pageOf t.1)

/-! ## The own cell and ancestry of a lane -/

/-- The ancestry list of a lane (R143). -/
def ancestryOf (v : Wave) (lane : Nat) : List Word :=
  (smGet ⟨0, 0, 0, 0, 0, []⟩ v.evals lane).ancestry

/-- What the device keeps for an evaluator lane (R140); none for the others. -/
def evalOf (v : Wave) (lane : Nat) : Option EvalInfo := (v.evals.find? (fun p => p.1 = lane)).map (fun p => p.2)

/-! ## When an access may be performed -/

/-- Orders that acquire. -/
def Order.acquires (o : Order) : Bool := o = .aq || o = .ar || o = .sq
/-- Orders that release. -/
def Order.releases (o : Order) : Bool := o = .rl || o = .ar || o = .sq

/-- Two pieces share a byte. -/
def piecesMeet (x y : List (Place × Nat)) : Bool :=
  x.any (fun a => y.any (fun b =>
    let k := placeLinear a.1
    let l := placeLinear b.1
    k.1 = l.1 && decide (k.2 < l.2 + b.2) && decide (l.2 < k.2 + a.2)))

/-- The access writes. -/
def AKind.writes : AKind → Bool
  | .load | .chase .. | .peek _ => false
  | _ => true

/-- Two accesses of one thread. -/
def sameThread (a b : Access) : Bool :=
  a.core = b.core && a.wslot = b.wslot && a.wuid = b.wuid && (a.lane = b.lane || a.uniform || b.uniform)

/-- An access that can wake a cell or wait on one: 8-byte LD, CHASE, ATOM, ATMF (R137). -/
def wakes (a : Access) : Bool :=
  a.size = 8 && (match a.ins with
    | .ld _ | .chase _ | .atom _ | .atmf _ => true
    | _ => false)

/-- The scope of an access orders it against every agent of the partition: .dv, .sy, or any with .sq (R109, R111). -/
def wideOrder (a : Access) : Bool := a.order = .sq || !narrowScope a.scope

/-- `b`, earlier, is locally ordered before `a` for every observer (R114); a wait on a cell is an acquire at .dv (R127). -/
def orderedHard (b a : Access) : Bool :=
  b.id < a.id && sameThread a b
    && (piecesMeet a.pieces b.pieces || (Order.acquires b.order && wideOrder b) || b.onCell
      || (Order.releases a.order && wideOrder a) || (a.order = .sq && b.order = .sq))

/-- `b`, earlier, is an acquire before `a` towards the agents of a narrower scope (R109), or may come to wait on a cell and
acquire so (R127). -/
def acquiresSoft (b a : Access) : Bool :=
  b.id < a.id && sameThread a b && (Order.acquires b.order || (b.cell && wakes b))

/-- `a`, later, is a release after `b` towards the agents of a narrower scope (R109). -/
def releasesSoft (b a : Access) : Bool := b.id < a.id && sameThread a b && Order.releases a.order

/-- `b`, earlier, is locally ordered before `a` (R114). -/
def orderedBefore (b a : Access) : Bool := orderedHard b a || acquiresSoft b a || releasesSoft b a

/-- No snapshot cut and no serial carriage holds the token (R118); a serial carriage's own slot holds it. -/
def tokenFree (s : State) (n : SlotName) : Bool := s.cut.isNone && (s.serial.isNone || s.serial = some n)

/-- The order in S: a .sq access is performed as if its scope were at least .dv, with the token (R111, R118). -/
def tokenNeeded (a : Access) : Bool := a.order = .sq

/-- A store performed ahead of an earlier access of another thread keeps the agents of its scope off its line (R109). -/
def guarded (s : State) (a : Access) : Bool :=
  s.accs.any (fun b => b.guards.any (fun g =>
    a.pieces.any (fun q => lineOf q.1 = g.1) && scopeHas s g.2 b.core b.wslot ⟨some a.core, some a.wslot, a.part⟩ && !(sameThread a b)))

/-- The home lets the access be performed: in ascending lane order where lanes of a record meet (R112), in record order
within an iteration of a coupled region (R76), no line locked, no store held, the token free where it is needed. -/
def homeReady (s : State) (a : Access) : Bool :=
  let n : SlotName := (a.core, a.wslot, a.x)
  !a.onCell && !guarded s a
    && !(s.accs.any (fun b => b.grp = a.grp && b.id < a.id && !b.onCell && (a.kind.writes || b.kind.writes)
      && (piecesMeet a.pieces b.pieces || a.rcd ≠ b.rcd)))
    && !(a.pieces.any (fun q => lineLocked s [n] (lineOf q.1)))
    && (!tokenNeeded a || tokenFree s n)
    && !(a.kind.writes && a.pieces.any (fun q => storeAtHold s a.part q.1))

/-- The access may be performed now: its home lets it, and no earlier access of its thread is ordered before it. -/
def performable (s : State) (a : Access) : Bool := homeReady s a && !s.accs.any (fun b => orderedBefore b a)

/-! ## Reading and writing for an access, in a carriage or not -/

/-- The carriage an access belongs to. -/
def carriageOf (s : State) (a : Access) : Option Carriage :=
  match waveOf s a.core a.wslot with
  | some v =>
    if v.uid = a.wuid then
      (slotOf v a.x).car.bind (fun car => if car.blk = a.blk && car.mask.getLsbD a.lane then some car else none)
    else none
  | none => none

/-- The bytes an access reads, its carriage's stores included. -/
def accessBytes (s : State) (a : Access) : List Byte :=
  let stores := match carriageOf s a with
    | some car => car.stores
    | none => []
  a.pieces.flatMap (fun q => overlayBytes stores q.1 (placeRead s q.1 q.2))

/-- The carriage's footprint with the lines of an access (R43). -/
def noteLines (s : State) (a : Access) : State :=
  match carriageOf s a with
  | none => s
  | some car =>
    let noted : Carriage := { car with lines := (car.lines ++ a.pieces.map (fun q => lineOf q.1)).eraseDups }
    onSlotOf s a.core a.wslot a.x (fun t => { t with car := some noted })

/-- Splits bytes over pieces. -/
def splitPieces : List (Place × Nat) → List Byte → List (Place × List Byte)
  | [], _ => []
  | (pl, n) :: r, bs => (pl, bs.take n) :: splitPieces r (bs.drop n)

/-- The write of an access: at its place, or into its carriage; `dormant` makes the cell DORMANT (R136). -/
def accessWrite (s : State) (a : Access) (bs : List Byte) (dormant : Bool) : State :=
  match carriageOf s a with
  | some _ =>
    onSlotOf s a.core a.wslot a.x (fun t =>
      match t.car with
      | some car => { t with car := some { car with
          stores := car.stores ++ (splitPieces a.pieces bs).map (fun p => (p.1, p.2, dormant)) } }
      | none => t)
  | none =>
    let s := piecesWrite s ⟨a.part, [(a.core, a.wslot, a.x)], some a.core⟩ a.pieces bs
    if dormant then
      match a.pieces with
      | (.dev pa, _) :: _ => { s with tags := smSet 0 s.tags (pa / 8) 1 }
      | _ => s
    else s

/-- The tag an access finds at a cell of a cell page: a store of its own carriage leaves VALUE, a make DORMANT. -/
def tagFound (s : State) (a : Access) (pa : Nat) : BitVec 2 :=
  let stores := match carriageOf s a with
    | some car => car.stores
    | none => []
  match (stores.filter (fun st => piecesMeet [(st.1, st.2.1.length)] [(.dev (pa / 8 * 8), 8)])).getLast? with
  | some st => if st.2.2 then 1 else 0
  | none => cellTag s pa

/-! ## The L1 data cache (R88) -/

/-- The core has L1 tiles. -/
def hasL1 (k : Core) : Bool := roleTiles k 2 ≠ []

/-- An acquire at .cl or wider drops every line of the core's L1 (R88). -/
def acquireL1 (s : State) (c : Nat) (o : Order) (sc : Scope) : State :=
  if Order.acquires o && (sc ≠ .wv && sc ≠ .bk || o = .sq) then onCore s c (fun k => { k with l1 := [] }) else s

/-- The line of a device address as memory holds it, cached in place of an older copy. -/
def fillL1 (s : State) (c pa : Nat) : State :=
  let line := (pa / 64, memRead s.dmem (pa / 64 * 64) 64)
  onCore s c (fun k => { k with l1 := k.l1.filter (fun l => l.1 ≠ pa / 64) ++ [line] })

/-- A load's bytes of a device address and the L1 after it: a .wv or .bk load may be served from a cached line; any
other is performed at L2 and refreshes its line (R88). -/
def loadL1 (s : State) (a : Access) (pa n : Nat) : State × List Byte :=
  let k := coreOf s a.core
  let narrow := (a.scope = .wv || a.scope = .bk) && a.order = .rx
  if !hasL1 k || a.cell then (s, memRead s.dmem pa n)
  else
    match k.l1.find? (fun l => l.1 = pa / 64) with
    | some l => if narrow then (s, (l.2.drop (pa % 64)).take n) else (fillL1 s a.core pa, memRead s.dmem pa n)
    | none => (if narrow then fillL1 s a.core pa else s, memRead s.dmem pa n)

/-- The lines that the core holds of some pieces, as memory holds them: an access that has read the newest value leaves no
older one to a later load (R88, R115). -/
def refreshL1 (s : State) (c : Nat) (ps : List (Place × Nat)) : State :=
  ps.foldl (fun s q => match q.1 with
    | .dev pa => if (coreOf s c).l1.any (fun l => l.1 = pa / 64) then fillL1 s c pa else s
    | _ => s) s

/-- What a load reads. -/
def loadBytes (s : State) (a : Access) : State × List Byte :=
  match carriageOf s a with
  | some _ => (refreshL1 s a.core a.pieces, accessBytes s a)
  | none =>
    a.pieces.foldl (fun acc q =>
      match q.1 with
      | .dev pa =>
        let r := loadL1 acc.1 a pa q.2
        (r.1, acc.2 ++ r.2)
      | pl => (acc.1, acc.2 ++ placeRead acc.1 pl q.2)) (s, [])

/-! ## Cells (R134 to R146) -/

/-- Writes a cell's stored bits and tag at its home slice, as any write to its page (R196). -/
def cellPut (s : State) (w : Writer) (va : Word) (pa : Nat) (v : Word) (tag : BitVec 2) : State :=
  let s := match leafOf s w.part va with
    | some l => breakTr s w.part va l
    | none => s
  let s := placeWrite s w (.dev pa) (leBytes 8 v.toNat)
  { s with tags := smSet 0 s.tags (pa / 8) tag }

/-- The FAILED payload (R135). -/
def failedPayload (cause : BitVec 8) (blk rcd evix : Nat) : Word :=
  BitVec.ofNat 64 (cause.toNat * 2 ^ 56 + rcd % 4096 * 2 ^ 40 + blk % 65536 * 2 ^ 24 + evix % 2 ^ 24)

/-- The waking record of a cell (R138). -/
def wakingOf (s : State) (pa : Nat) : Option WakeRec := s.waking.find? (fun r => r.pa = pa)

/-- The writer of a cell's commit or failure by some slots: the carriages that wait on the cell are not aborted by it
(R42). -/
def commitWriter (s : State) (own : List SlotName) (r : WakeRec) : Writer :=
  ⟨r.part, own ++ (s.accs.filter (fun a => r.waiters.contains a.id)).map (fun a => (a.core, a.wslot, a.x)),
    own.head?.map (fun n => n.1)⟩

/-- A launch fails with a cause: LAUNCH_READY reports it (R392). -/
def markLaunchFailed (s : State) (id : Nat) (cause : BitVec 8) : State :=
  { s with launches := s.launches.map (fun l =>
      if l.id = id && (l.st = .waiting || l.st = .ready) then { l with st := .failed, cause := cause } else l) }

/-- A cell becomes FAILED: its record is deleted, its waiters raise CELL_FAILED, its launches fail (R146, R388). -/
def cellFail (s : State) (r : WakeRec) (cause : BitVec 8) (blk rcd : Nat) : State :=
  let s := cellPut s (commitWriter s (selfSlot s) r) r.va r.pa (failedPayload cause blk rcd r.evix) 3
  let s := { s with waking := s.waking.filter (fun q => q.pa ≠ r.pa),
                    accs := s.accs.map (fun a =>
                      if r.waiters.contains a.id then { a with onCell := false, failed := true } else a) }
  r.launches.foldl (fun s id => markLaunchFailed s id causeCellFailed) s

/-- A failure of an evaluator lane's own cell: written only while its instance is the cell's record (R146, R390). -/
def ownCellFail (s : State) (e : EvalInfo) (cause : BitVec 8) (blk rcd : Nat) : State :=
  match wakingOf s e.pa with
  | some r => if r.inst = e.inst && r.slice = e.slice then cellFail s r cause blk rcd else s
  | none => s

/-- The check of an evaluator entry at a wake (R137). -/
def wakeCheck (s : State) (p i : Nat) (secure : Bool) : State × Except (BitVec 8) Latch :=
  if (partOf s p).rtlen.toNat ≤ i then (s, .error causeHandleRange)
  else
    let r := readEntry false s p secure i
    match r.2 with
    | .error e => (r.1, .error e.1)
    | .ok e =>
      if e.l.kind ≠ 2 then (r.1, .error causeHandleStale)
      else if e.l.world && !secure then (r.1, .error causeWorld)
      else if !e.l.rights.getLsbD 2 then (r.1, .error causeDataRights)
      else if field e.l.kspec 8 1 % 4 = 2 && clusterPart s (field e.l.kspec 10 2) ≠ p then (r.1, .error causeHandleRange)
      else (r.1, .ok e.l)

/-- The clusters of a partition. -/
def partClusters (s : State) (p : Nat) : List Nat :=
  (List.range Config.numClusters).filter (fun k => clusterPart s k = p)

/-- The cores of a cluster. -/
def clusterCores (k : Nat) : List Nat := (List.range 16).map (fun i => 16 * k + i)

/-- The core that receives an evaluator record: of those R140 allows, the first that holds a bin of the same ENTRY, else
the first (DESIGN CHOICE, log entry 6). Where the partition has no cluster the spec names no core: the record then goes to
core 0, whatever partition holds it (DESIGN CHOICE, log entry 6). -/
def pickCore (s : State) (entry : Word) (cands : List Nat) : Nat :=
  (cands.find? (fun c => (coreOf s c).bins.any (fun b => b.entry = entry && b.eval))).getD (cands.headD 0)

/-- The cores that PLACE selects (R140). LOADER without a core that woke the cell is HOME: so R140 says of a host touch; of a cell
that a launch's input woke (R46) it says nothing (DESIGN CHOICE, log entry 6). -/
def placeCores (s : State) (p : Nat) (l : Latch) (slice : Nat) (loader : Option Nat) : List Nat :=
  let home :=
    if clusterPart s (sliceCluster slice) = p then clusterCores (sliceCluster slice)
    else (partClusters s p).flatMap clusterCores
  match field l.kspec 8 1 % 4 with
  | 0 => home
  | 1 => (match loader with
    | some c => clusterCores (c / 16)
    | none => home)
  | 2 => clusterCores (field l.kspec 10 2)
  | _ => (partClusters s p).flatMap clusterCores

/-- Who wakes a cell: the agent as the error log names it (R398), the ancestry the evaluator inherits, the loading core, its
first waiter. -/
structure Waker where
  agent : Nat × Nat
  ancestry : List Word
  core : Option Nat
  waiter : Option Nat
  launch : Option Nat
  /-- The slot whose access it is: the wake does not abort its carriage (R42). -/
  own : List SlotName
  deriving DecidableEq, Repr

/-- The stores of a carriage without what they store to a cell. -/
def dropCellStores (pa : Nat) (stores : List (Place × List Byte × Bool)) : List (Place × List Byte × Bool) :=
  stores.flatMap (fun st => match st.1 with
    | .dev a =>
      if pa = a && st.2.1.length = 16 then [(.dev (a + 8), st.2.1.drop 8, st.2.2)]
      else if pa = a + 8 && st.2.1.length = 16 then [(.dev a, st.2.1.take 8, st.2.2)]
      else if pa ≤ a && a < pa + 8 then [] else [st]
    | _ => [st])

/-- A violation of worlds that an agent, as the error log names it, has met (R351, R399). -/
def logWorld (s : State) (p : Nat) (agent : Nat × Nat) (cause : BitVec 8) (addr : Word) : State :=
  if cause = causeWorld then logEvent s 2 causeWorld p agent.1 agent.2 addr noStage else s

/-- A DORMANT cell wakes (R137, R140, R390) on its suspension `v`, which a make of the waker's own carriage may still hold:
true where the wake fails. The cell then becomes FAILED, and what an earlier evaluation left waiting at it is released with
failure (R146). A violation of worlds is logged with the address of the entry (R351, R399; DEDUCED, log entry 30). The depth
check is the caller's. -/
def wakeCell (s : State) (p pa : Nat) (va : Word) (v : Word) (secure : Bool) (by' : Waker) : State × Bool :=
  let evix := v.toNat / 2 ^ 40
  let aoff := v.toNat % 2 ^ 40
  let chk := wakeCheck s p evix secure
  let s := chk.1
  match chk.2 with
  | .error c =>
    let s := logWorld s p by'.agent c (entryAddr s p evix)
    (match wakingOf s pa with
      | some r => cellFail s { r with evix := evix } c 0xFFFF 0
      | none => cellPut s ⟨p, by'.own, by'.core⟩ va pa (failedPayload c 0xFFFF 0 evix) 3, true)
  | .ok l =>
    let sl := homeSlice pa
    let inst := smGet 0 s.wakeCtr sl
    let old := wakingOf s pa
    let r : WakeRec :=
      { pa := pa, va := va, part := p, slice := sl, inst := inst, evix := evix,
        waiters := ((old.map (fun r => r.waiters)).getD []) ++ by'.waiter.toList,
        launches := ((old.map (fun r => r.launches)).getD []) ++ by'.launch.toList }
    let s := cellPut s ⟨p, by'.own, by'.core⟩ va pa (BitVec.ofNat 64 (evix * 2 ^ 40 + sl * 2 ^ 32 + inst.toNat)) 2
    let s := markBlocks s p
    let tmr := match findEntry s p l.base 3 with
      | some (_, d) => d.tmr
      | none => 0
    let info : EvalInfo := ⟨va, pa, sl, inst, evix, by'.ancestry ++ [va]⟩
    let rec' : TaskRec :=
      { launch := 0, tmr := BitVec.ofNat 4 tmr, eval := true, isLocal := true,
        arg1 := leWord (l.kspec.take 8) + BitVec.ofNat 64 (16 * aoff), arg0 := va, entry := l.base, ev := some info }
    let c := pickCore s l.base (placeCores s p l sl by'.core)
    let s := { s with wakeCtr := smSet 0 s.wakeCtr sl (inst + 1), waking := s.waking.filter (fun q => q.pa ≠ pa) ++ [r] }
    (onCore s c (fun k => { k with stage := k.stage ++ [rec'] }), false)

/-! ## Atomics (R284, R285) -/

/-- The low `n` bits of a number as an integer of a signedness. -/
def intOf (n : Nat) (sg : Bool) (x : Nat) : Int :=
  let v := x % 2 ^ n
  if sg && 2 ^ (n - 1) ≤ v then (v : Int) - (2 ^ n : Nat) else v

/-- The n-bit pattern congruent to an integer (R236 wrap). -/
def wrapInt (n : Nat) (v : Int) : Nat := (v % (2 ^ n : Nat)).toNat

/-- The bounds of an n-bit integer (R236). -/
def intLo (n : Nat) (sg : Bool) : Int := if sg then -(2 ^ (n - 1) : Nat) else 0
/-- The upper bound. -/
def intHi (n : Nat) (sg : Bool) : Int := if sg then (2 ^ (n - 1) : Nat) - 1 else (2 ^ n : Nat) - 1
/-- sat of R236. -/
def satInt (n : Nat) (sg : Bool) (v : Int) : Nat := wrapInt n (max (intLo n sg) (min (intHi n sg) v))

/-- The new value of ATOM and whether it writes (R284): code 0 to 9, 10 for compare-and-swap with comparand `c`. -/
def atomNew (op n : Nat) (sg : Bool) (old b c : Nat) : Nat × Bool :=
  let io := intOf n sg old
  let ib := intOf n sg b
  let ub := b % 2 ^ n
  match op with
  | 0 => (wrapInt n (io + ib), true)
  | 1 => (if ib < io then ub else old, true)
  | 2 => (if io < ib then ub else old, true)
  | 3 => (Nat.land old ub, true)
  | 4 => (Nat.lor old ub, true)
  | 5 => (Nat.xor old ub, true)
  | 6 => (ub, true)
  | 7 => (if ub ≤ old then 0 else (old + 1) % 2 ^ n, true)
  | 8 => (if old = 0 || ub < old then ub else old - 1, true)
  | 9 => (satInt n sg (io + ib), true)
  | _ => if old = c % 2 ^ n then (ub, true) else (old, false)

/-- The new bytes of ATMF (R285). -/
def atmfNew (op : Nat) (t : Ty) (old : Nat) (b c : Word) : Nat :=
  let f := fmtOf t
  let w := 2 ^ f.bits
  match op with
  | 0 => fpAdd f .rn (old % w) (b.toNat % w)
  | 1 => fpMinMax f false false (old % w) (b.toNat % w)
  | 2 => fpMinMax f true false (old % w) (b.toNat % w)
  | _ => if t.wide then b.toNat + c.toNat * 2 ^ 64 else b.toNat % 2 ^ 32 + c.toNat % 2 ^ 32 * 2 ^ 32

/-- The value of an atomic on old bytes, and the bytes it writes where it writes. -/
def atomicResult (a : Access) (old : Nat) : Val × Option (List Byte) :=
  match a.kind with
  | .atom op =>
    let n := if a.ty.wide then 64 else 32
    let r := atomNew op n (a.ty = .i32 || a.ty = .i64) old a.b.toNat a.c.toNat
    (⟨BitVec.ofNat 64 old, 0⟩, if r.2 then some (leBytes a.size r.1) else none)
  | .atmf op =>
    let lo := if op = 3 && !a.ty.wide then old % 2 ^ 32 else old
    (⟨BitVec.ofNat 64 lo, BitVec.ofNat 64 (old / 2 ^ 64)⟩, some (leBytes a.size (atmfNew op a.ty old a.b a.c)))
  | _ => (⟨0, 0⟩, none)

/-! ## Performing an access -/

/-- What performing an access came to. -/
inductive Performed where
  /-- Done, with its value and the tag that CELL.PEEK returns. -/
  | done (v : Val) (tag : BitVec 2)
  /-- It waits on a cell (R136). -/
  | waits
  | fails (f : Fail)
  deriving DecidableEq, Repr

/-- The address of a place in an entry of the error log (R398): the physical address of its 8-byte word; in a tile the
scratchpad address of its 4-byte word, or 0 where the tile is none of the scratchpad's (R81). -/
def logAddr (s : State) (pl : Place) : Word :=
  match pl with
  | .tile c a =>
    let t := a / Config.tileBytes
    (match findAt (fun i => i = t) (roleTiles (coreOf s c) 0) 0 with
      | some i => BitVec.ofNat 64 (0x81 * 2 ^ 56 + c * 2 ^ 36 + i * Config.tileBytes + a % Config.tileBytes / 4 * 4)
      | none => 0)
  | _ => BitVec.ofNat 64 ((placeLinear pl).2 / 8 * 8)

/-- The agent that holds a place, as the error log names it (R398): a core for its tiles, else the home slice (R93). -/
def logHolder (pl : Place) : Nat × Nat :=
  match pl with
  | .tile c _ => (0, c)
  | _ => (7, homeOf pl)

/-- Marks damage that an access finds where its data is held: an uncorrectable error poisons the word, a corrected one is
logged at most once in 2^21 fabric cycles (R394, R395, R398). -/
def applyDamage (s : State) (p : Nat) (pl : Place) (d : Damage) : State :=
  let by' := logHolder pl
  let die := (logDie by'.1 by'.2).getD 0
  match d with
  | .clean => s
  | .corrected st =>
    if (match (dieOf s die).softAt with
        | some t => decide (s.fabricCycle < t + 2 ^ 21)
        | none => false) then onDie s die (fun q => { q with lost := q.lost + 1 })
    else logEvent (onDie s die (fun q => { q with softAt := some s.fabricCycle })) 3 0 p by'.1 by'.2 (logAddr s pl) st
  | .uncorrectable st => markPoison (logEvent s 3 causeIntegrity p by'.1 by'.2 (logAddr s pl) st) pl

/-- The access reaches a fabric peer (R348). -/
def toPeer (a : Access) : Bool :=
  a.pieces.any (fun q => isPeer q.1)

/-- The lowest address of a thread's writes and atomics to a peer that no port can acknowledge (R349, R396). -/
def lostPeer (s : State) (c uid lane : Nat) : Option Word :=
  (s.unacked.filter (fun q => q.1 = c && q.2.1 = uid && q.2.2.1 = lane)).foldl (fun m q =>
    match m with
    | some a => if q.2.2.2.toNat < a.toNat then some q.2.2.2 else some a
    | none => some q.2.2.2) none

/-- What a thread's release at .sy has reported is reported once (R396). -/
def clearLost (s : State) (c uid lane : Nat) : State :=
  { s with unacked := s.unacked.filter (fun q => !(q.1 = c && q.2.1 = uid && q.2.2.1 = lane)) }

/-- The bytes a store stores. -/
def storeBytes (a : Access) : List Byte :=
  if a.size = 16 then leBytes 8 a.b.toNat ++ leBytes 8 a.c.toNat else leBytes a.size a.b.toNat

/-- The pieces of half `h` of a 16-byte access: its first or second 8 bytes (R113). -/
def halfPieces (a : Access) (h : Nat) : List (Place × Nat) :=
  match a.pieces with
  | [(pl, n)] => [(placeAt pl (8 * h), n / 2)]
  | ps => (ps.drop (2 * h)).take 2

/-- The store of one half of a 16-byte access (R113). -/
def halfWrite (s : State) (a : Access) (h : Nat) : State :=
  accessWrite s { a with pieces := halfPieces a h } (((storeBytes a).drop (8 * h)).take 8) false

/-- What a load returns whose one half was performed before the other (R113). -/
def halfRead (a : Access) (bs : List Byte) : List Byte :=
  match a.half with
  | some (0, h) => h ++ bs.drop 8
  | some (_, h) => bs.take 8 ++ h
  | none => bs

/-- The generic address of the first poisoned word that an access reads (R396); in the private window that of the 4-byte word
of the lane (R80). -/
def poisonAddr (s : State) (a : Access) : Option Word :=
  (a.pieces.foldl (fun (acc : Option Word × Nat) q =>
    (acc.1.orElse (fun _ => (poisonWord s q.1 q.2).map (fun d =>
      if a.addr.toNat / 2 ^ 56 = 0x80 then BitVec.ofNat 64 ((a.addr.toNat + acc.2) / 4 * 4)
      else BitVec.ofInt 64 (a.addr.toNat + acc.2 + d))), acc.2 + q.2)) (none, 0)).1

/-- A carriage's store or atomic to a peer, which counts as unacknowledged where it commits with every port down (R42, R396). -/
def notePeer (s : State) (a : Access) : State :=
  if toPeer a && a.kind.writes then
    onSlotOf s a.core a.wslot a.x (fun t => { t with car := t.car.map (fun c => { c with peers := c.peers ++ [(a.lane, a.addr)] }) })
  else s

/-- The access on its bytes, where no tag stands in its way. With every port down an access to a peer is never
acknowledged (R396), a carriage's store but at its commit; what an atomic then returns is a free value. -/
def performBytes (s : State) (a : Access) : State × Performed :=
  let inCar := (carriageOf s a).isSome
  let s := noteLines s a
  let reads := a.kind ≠ .store && a.kind ≠ .make
  if s.ports = 0 && toPeer a && !(inCar && a.kind = .store) then
    ({ s with unacked := s.unacked ++ [(a.core, a.wuid, a.lane, a.addr)], freeCtr := s.freeCtr + 1 },
      .done ⟨Config.staleValue s.freeCtr, 0⟩ 0)
  else if reads && (poisonAddr s a).isSome then (s, .fails (failIntegrity ((poisonAddr s a).getD 0)))
  else
    let s := if inCar then notePeer s a else s
    match a.kind with
    | .load | .chase .. =>
      let r := match a.early with
        | some bs => (s, bs)
        | none => loadBytes s a
      let r := (r.1, halfRead a r.2)
      let s := acquireL1 r.1 a.core a.order a.scope
      let lo := leNat (r.2.take 8)
      (s, .done ⟨BitVec.ofNat 64 lo, leWord (r.2.drop 8)⟩ 0)
    | .store =>
      (match a.half with
        | none => accessWrite s a (storeBytes a) false
        | some (h, _) => halfWrite s a (1 - h), .done ⟨0, 0⟩ 0)
    | .atom _ | .atmf _ =>
      let r := atomicResult a (leNat (accessBytes s a))
      let s := acquireL1 (refreshL1 s a.core a.pieces) a.core a.order a.scope
      (match r.2 with
        | some bs => accessWrite s a bs false
        | none => s, .done r.1 0)
    | .peek _ =>
      let tag := match a.pieces with
        | (.dev pa, _) :: _ => tagFound s a pa
        | _ => 0
      (acquireL1 s a.core a.order a.scope, .done ⟨leWord (accessBytes s a), 0⟩ tag)
    | .make => (accessWrite s a (leBytes 8 a.b.toNat) true, .done ⟨0, 0⟩ 0)

/-- A WAKING tag with no record at its slice (R138): the cell FAILED, logged with its device address (R398). -/
def lostCell (s : State) (p : Nat) (va : Word) (pa : Nat) : State :=
  let evix := devNat s (pa / 8 * 8) 8 / 2 ^ 40
  let s := cellPut s (deviceWriter s p) va (pa / 8 * 8) (failedPayload causeIntegrity 0xFFFF 0 evix) 3
  logEvent s 3 causeIntegrity p 7 (homeSlice pa) (BitVec.ofNat 64 (pa / 8 * 8)) noStage

/-- A WAKING cell whose record is lost (R138). -/
def cellLost (s : State) (pa : Nat) : Bool := cellTag s pa = 2 && (wakingOf s (pa / 8 * 8)).isNone

/-- An access waits on a cell from now on, which is an acquire (R127): later loads of its thread that were performed ahead
of it are taken back. -/
def waitOnCell (s : State) (id : Nat) : State :=
  match s.accs.find? (fun a => a.id = id) with
  | none => s
  | some b =>
    { s with accs := s.accs.map (fun a =>
        if a.id = id then { a with onCell := true }
        else if b.id < a.id && sameThread a b then { a with early := none } else a) }

/-- The access joins the waiters of a cell. -/
def joinWaiters (s : State) (pa id : Nat) : State :=
  waitOnCell { s with waking := s.waking.map (fun r => if r.pa = pa then { r with waiters := r.waiters ++ [id] } else r) } id

/-- What an access meets at a WAKING cell that it may not wait on: a lost record (R138), or a cause of its own. -/
def wakingMet (s : State) (a : Access) (pa : Nat) (cause : BitVec 8) : State × Performed :=
  match wakingOf s (pa / 8 * 8) with
  | some _ => (s, .fails (failCell false cause a.addr))
  | none => (lostCell s a.part a.addr pa, .fails (failCell false causeCellFailed a.addr))

/-- An access to a cell page (R136). The access stands in the list of accesses in flight. -/
def performCell (s : State) (a : Access) (pa : Nat) : State × Performed :=
  let tag := tagFound s a pa
  match a.kind with
  | .peek _ => performBytes s a
  | .make => if tag = 2 then wakingMet s a pa causeCellBusy else performBytes s a
  | _ =>
    if a.size = 16 && (match a.kind with
        | .atmf _ => true
        | _ => false) then (s, .fails (failCell false causeCellShape a.addr))
    else if a.size = 8 && a.kind = .store then
      if tag = 2 && cellLost s pa then wakingMet s a pa causeCellFailed else performBytes s a
    else if a.early.isSome then performBytes s a
    else
      let tag2 := if a.size = 16 then tagFound s a (pa + 8) else 0
      if tag = 0 && tag2 = 0 then performBytes s a
      else if !wakes a then
        (if tag = 2 then wakingMet s a pa causeCellShape
        else if tag2 = 2 then wakingMet s a (pa + 8) causeCellShape
        else (s, .fails (failCell false causeCellShape a.addr)))
      else if tag = 3 then (s, .fails (failCell false causeCellFailed a.addr))
      else if tag = 2 then
        match wakingOf s pa with
        | some _ => (joinWaiters s pa a.id, .waits)
        | none => (lostCell s a.part a.addr pa, .fails (failCell false causeCellFailed a.addr))
      else
        match waveOf s a.core a.wslot with
        | none => (s, .waits)
        | some v =>
          if 16 ≤ (ancestryOf v a.lane).length then (s, .fails (failCell false causeCellDepth a.addr))
          else
            let bits := leWord (accessBytes s a)
            let s := onSlotOf s a.core a.wslot a.x (fun t =>
              if (carriageOf s a).isSome then { t with car := t.car.map (fun c => { c with stores := dropCellStores pa c.stores }) }
              else t)
            let r := wakeCell s a.part pa a.addr bits a.secure
              ⟨(0, a.core), ancestryOf v a.lane, some a.core, some a.id, none, [(a.core, a.wslot, a.x)]⟩
            if r.2 then (r.1, .fails (failCell false causeCellFailed a.addr)) else (waitOnCell r.1 a.id, .waits)

/-- Performs an access that is in the list of accesses in flight. -/
def performAccess (s : State) (a : Access) (d : Damage) : State × Performed :=
  let s := match a.pieces with
    | (pl, _) :: _ => applyDamage s a.part pl d
    | [] => s
  if a.failed then (s, .fails (failCell false causeCellFailed a.addr))
  else if Order.releases a.order && a.scope = .sy && (lostPeer s a.core a.wuid a.lane).isSome then
    (clearLost s a.core a.wuid a.lane, .fails (failIntegrity ((lostPeer s a.core a.wuid a.lane).getD 0)))
  else
    match a.cell, a.pieces with
    | true, (.dev pa, _) :: _ => performCell s a pa
    | _, _ => performBytes s a

/-! ## Delivering a value -/

/-- The instruction gives a value (R183, column V). -/
def hasValue : AKind → Bool
  | .store | .make => false
  | _ => true

/-- The reply that a coupled region waits for with an access (R73). -/
def awaited (s : State) (a : Access) : Bool :=
  match (coreOf s a.core).region with
  | some r => r.asked.any (fun e => e.id = some a.id)
  | none => false

/-- A reply reaches its station (R73). -/
def replyArrives (k : Core) (id : Nat) (v : Word) : Core :=
  { k with region := k.region.map (fun r =>
      { r with asked := r.asked.map (fun e => if e.id = some id then { e with id := none, got := some v } else e) }) }

/-- The value of a performed access goes to its destination: the record's value or a register, and the keep slot that
CHASE and CELL.PEEK write (R282, R291, R329). -/
def deliver (s : State) (a : Access) (v : Val) (tag : BitVec 2) : State :=
  match waveOf s a.core a.wslot with
  | none => s
  | some wv =>
    if wv.uid ≠ a.wuid || !hasValue a.kind then s
    else if awaited s a then onCore s a.core (fun k => replyArrives k a.id v.lo)
    else
      let lanes := if a.uniform then lanesOf a.lanes else [a.lane]
      -- CHASE puts its keep slot aside, as KEEP does (R53)
      let v : Val := match a.kind with
        | .chase r _ => ⟨v.lo, (regGet (coreOf s a.core) (r + 1) a.lane ++ regGet (coreOf s a.core) r a.lane : BitVec 64)⟩
        | _ => v
      let s := match a.form.dest with
        | .value =>
          let ws : List (Nat × Val) := lanes.map (fun l => (a.rcd * 32 + l, Val.mk (extendValue a.ty v.lo) v.hi))
          onWave s a.core a.wslot (fun w => writeVals w ws)
        | .vreg n =>
          let r := a.form.win + n.toNat
          let s := if a.ty.wide then writeRegs s a.core a.wslot a.x (pairWrites r (lanes.map (fun l => (l, v.lo))))
            else writeRegs s a.core a.wslot a.x (lanes.map (fun l => (regKey r l, v.lo.setWidth 32)))
          if a.size = 16 then writeRegs s a.core a.wslot a.x (pairWrites (r + 2) (lanes.map (fun l => (l, v.hi)))) else s
        | .ureg n => writeUni s a.core a.wslot a.x n.toNat (extendValue a.ty v.lo)
      match a.kind with
      | .chase k off => writeRegs s a.core a.wslot a.x (pairWrites k [(a.lane, v.lo + off)])
      | .peek (some k) => writeRegs s a.core a.wslot a.x (pairWrites k [(a.lane, tag.setWidth 64)])
      | _ => s

/-- A performed access ends. The count of an STB in a carriage stays in INFLIGHT until the carriage commits or is discarded,
since the store performs then (R42, R283). -/
def endPerformed (s : State) (a : Access) : State :=
  match a.latch, carriageOf s a with
  | some l, some _ =>
    if a.kind.writes then
      onSlotOf (dropWaiter s a.id) a.core a.wslot a.x (fun t => { t with car := t.car.map (fun c => { c with latched := c.latched ++ [l] }) })
    else endAccess s a
  | _, _ => endAccess s a

/-- An access of the list is performed and ended: its failure is answered. -/
def finishAccess (s : State) (a : Access) (d : Damage) : State × Option Fail :=
  let r := performAccess s a d
  match r.2 with
  | .done v tag => (endPerformed (deliver r.1 a v tag) a, none)
  | .waits => (r.1, none)
  | .fails f => (endAccess r.1 a, some f)

/-- One waiter of a record completes on a committed value: a load returns it, an atomic performs (R145). Its wait was an
acquire at .dv (R127). Where the token that a .sq waiter needs is not free, the commit comes later (R118). -/
def releaseWaiter (v : Word) (s : State) (id : Nat) : State :=
  match s.accs.find? (fun a => a.id = id) with
  | none => s
  | some a =>
    if tokenNeeded a && !tokenFree s (a.core, a.wslot, a.x) then { s with homeWaits := true }
    else
      let s := acquireL1 s a.core .aq .dv
      match a.kind with
      | .atom _ | .atmf _ =>
        let r := performBytes s a
        (match r.2 with
          | .done w tag => endAccess (deliver r.1 a w tag) a
          | _ => r.1)
      | _ => endAccess (deliver (noteLines s a) a ⟨v, 0⟩ 0) a

/-- The waiters of a record complete, oldest first (R145). -/
def releaseWaiters (s : State) (ids : List Nat) (v : Word) : State := ids.foldl (releaseWaiter v) s

/-- CELL.SET at its commit by some slots (R145): VALUE, the record deleted, the waiters released. -/
def cellCommit (s : State) (own : List SlotName) (r : WakeRec) (v : Word) : State :=
  let s := cellPut s (commitWriter s own r) r.va r.pa v 0
  releaseWaiters { s with waking := s.waking.filter (fun q => q.pa ≠ r.pa) } r.waiters v

/-! ## Accesses performed ahead of their order (R109, R113, R114) -/

/-- No earlier access is ordered before `a` for every observer, and its home lets it be performed. -/
def freeHard (s : State) (a : Access) : Bool := homeReady s a && !s.accs.any (fun b => orderedHard b a)

/-- The access stands outside a carriage. -/
def plainAccess (s : State) (a : Access) : Bool := (carriageOf s a).isNone

/-- A load is performed ahead of an acquire of a narrower scope, or of an access to a cell that may find VALUE: what it
read stands unless that one comes to synchronise (R109, R114, R127; log entry 35). It reads memory, since the acquire may
yet drop the core's lines (R88). -/
def earlyLoad (s : State) (a : Access) : State :=
  let value := match a.cell, a.pieces with
    | true, (.dev pa, _) :: _ => tagFound s a pa = 0 && (a.size ≤ 8 || tagFound s a (pa + 8) = 0)
    | _, _ => true
  if a.kind = .load && a.early.isNone && a.half.isNone && plainAccess s a && freeHard s a && value && (poisonAddr s a).isNone then
    let r := loadBytes s { a with scope := .cl }
    { r.1 with accs := r.1.accs.map (fun b => if b.id = a.id then { b with early := some r.2 } else b) }
  else s

/-- A release store of a narrower scope is performed ahead of earlier accesses of its thread: until they are performed, the
agents of its scope wait at its line (R109, R114; log entry 35). None is while a snapshot cut passes, which is closed under
happens-before (R131). -/
def earlyStore (s : State) (a : Access) : State :=
  if a.kind = .store && s.cut.isNone && !a.cell && a.half.isNone && plainAccess s a && freeHard s a && !s.accs.any (fun b => acquiresSoft b a) then
    let gs := a.pieces.map (fun q => (lineOf q.1, a.scope))
    let s := { s with accs := s.accs.map (fun b => if b.id < a.id && sameThread a b then { b with guards := b.guards ++ gs } else b) }
    (finishAccess s a .clean).1
  else s

/-- One half of a 16-byte load or store is performed by itself (R113). On a cell page both are performed together. -/
def performHalf (s : State) (a : Access) (h : Nat) : State :=
  if a.size ≠ 16 || 2 ≤ h || a.cell || a.half.isSome || a.early.isSome || !plainAccess s a || !performable s a
      || a.pieces.any (fun q => placePoisoned s q.1 q.2) then s
  else
    let note (s : State) (bs : List Byte) : State :=
      { s with accs := s.accs.map (fun b => if b.id = a.id then { b with half := some (h, bs) } else b) }
    match a.kind with
    | .load =>
      let r := loadBytes s { a with pieces := halfPieces a h }
      note r.1 r.2
    | .store => note (halfWrite s a h) []
    | _ => s

/-- An access of the list, by its number. -/
def onAccess (s : State) (id : Nat) (f : State → Access → State) : State :=
  match s.accs.find? (fun a => a.id = id) with
  | some a => f s a
  | none => s

end Sys2Proof.Machine
end

