-- ==== Sys2Proof/Machine/Ops.lean ====
section
/-! DEFINITION. The named operations that meanings share: the code a slot runs, lanes that end and waves that retire,
taking an exception (R149 to R157, R358 to R362), returning from one (R158, R159), completion records (R299), and the
commit of a record's values. -/

namespace Sys2Proof.Machine

/-! ## The code of a slot -/

/-- A PC comparator of the core that names a record of block `b` and counts for a wave slot (R160, R161). -/
def pcComparatorOn (k : Core) (modl : Word) (w b : Nat) : Bool :=
  (List.range 8).any (fun n =>
    let a := smGet 0 k.dbgPcA n
    let m := smGet 0 k.dbgPcB n
    a.getLsbD 63 && a.toNat % 2 ^ 57 = modl.toNat % 2 ^ 57 && m.toNat / 2 ^ 48 = b
      && (a.getLsbD 62 || m.toNat / 2 ^ 32 % 16 = w))

/-- The key a slot looks up (R191). A coupled block is looked up as its SIMT reading; COUPLE looks up the placed pair by
itself (R55, log entry 15). -/
def slotKey (s : State) (c : Nat) (v : Wave) (b : Nat) (baddr : Word) : SKey where
  asid := (partOf s v.part).asid
  baddr := baddr
  step := v.step
  nkeep := v.nkeep
  window := v.window
  sec := (coreOf s c).world
  simtr := blockKind v b = 2
  nch := 0
  vwl := 0

/-- The Sinter entry a slot runs, while it stands in the store of the core's die (R191, R193). -/
def slotEntry (s : State) (c : Nat) (v : Wave) (t : Slot) : Option SEntry :=
  (dieOf s (coreDie c)).sinter.find? (fun e => e.key = slotKey s c v t.blk t.baddr && !e.failed)

/-- The code of a word that a slot has issued and that waits, with the entry in the store or not: what has issued is not
fetched again (R120, R150). -/
def heldEntry (s : State) (c : Nat) (v : Wave) (t : Slot) : Option SEntry :=
  match slotEntry s c v t with
  | some e => some e
  | none =>
    let key := slotKey s c v t.blk t.baddr
    match ((dieOf s (coreDie c)).gone.filter (fun e => e.key = key)).getLast? with
    | some e => some e
    | none =>
      if t.ran.1 = [] then none
      else some { key := key, part := v.part, start := 0, modl := v.modl, blk := t.blk, kind := blockKind v t.blk, vof := 0,
                  nrec := blockRecs v t.blk, recs := t.ran.1, lits := t.ran.2, marker := none, code := [], map := [],
                  failed := false, placement := none, pages := [] }

/-- The code that a slot's next word stands in: for one that has issued already, what it issued from. -/
def slotCode (s : State) (c : Nat) (v : Wave) (t : Slot) : Option SEntry :=
  match t.wait with
  | .port _ | .walk .. | .walked .. => heldEntry s c v t
  | _ => slotEntry s c v t

/-- The Sinter address of word `i` of an entry (R192): from its start and its code offset. -/
def dieAddr (e : SEntry) (i : Nat) : Nat := (e.start + (64 + 4 * e.nrec + 63) / 64 * 64 + 4 * i) % 2 ^ 26

/-- The Sinter address of a record's first word (R154 DIEPC, R192): that of the record's map word, which is free where the
entry does not hold its code (log entry 8). -/
def diePcOf (s : State) (c : Nat) (v : Wave) (b r : Nat) : Word :=
  let free := (Config.diePc v.step v.modl b r).toNat
  match (dieOf s (coreDie c)).sinter.find? (fun e => e.key = slotKey s c v b (blockAddr v b)) with
  | some e =>
    let i := if e.code = [] then free / 8 % 2 ^ 14 * 8 + 1 + free % 7 else e.map.getD r 0
    BitVec.ofNat 64 (dieAddr e i)
  | none => BitVec.ofNat 64 (free / 4 * 4 % 2 ^ 26)

/-- The tail of a word and the DLIT prefix before it, as a replay entry holds them (R155). -/
def dlitField (p : Option (BitVec 24)) : W32 :=
  match p with
  | some b => BitVec.ofNat 32 (2 ^ 31 + b.toNat)
  | none => 0

/-- What stands at a slot's position: an instruction, its form, and the word after it; or a word under R206. -/
inductive CodeAt where
  | ins (i : Instr) (f : Form) (next : Nat)
  | illegal
  /-- The run has no further word. -/
  | ends
  deriving DecidableEq, Repr

/-- The first word at or after an index that issues: pacing words and zero words do not (R201). -/
def nextWord (code : List W32) : Nat → Nat → Nat
  | 0, i => i
  | n + 1, i => if i % 8 = 0 || code.getD i 1 = 0 then nextWord code n (i + 1) else i

/-- A vector name of a die word lies in the window, an even one where it names a pair (R206). -/
def nameOk (v : Wave) (t : Slot) (wide : Bool) (o : Opnd) : Bool :=
  match o with
  | .vreg n => decide (8 * t.woff.toNat + n.toNat + (if wide then 1 else 0) < v.window) && (!wide || n.toNat % 2 = 0)
  | .ureg n => !wide || n.toNat % 2 = 0
  | _ => true

/-- The instruction writes a destination name of a die word. -/
def namesResult (op : Nat) : Bool :=
  !(op = 0x00 || (0x32 ≤ op && op ≤ 0x3C) || op = 0x3F || op = 0x41 || op = 0x44 || op = 0x47 || op = 0x48
    || (0x4B ≤ op && op ≤ 0x4D) || (0x50 ≤ op && op ≤ 0x52) || op = 0x54 || op = 0x58 || op = 0x5C || op = 0x5D)

/-- The names of a die word are legal (R206). -/
def namesOk (v : Wave) (t : Slot) (d : DieWord) : Bool :=
  match d.ins.opRecord with
  | none => true
  | some (op, r) =>
    [0, 1, 2].all (fun p => nameOk v t (readTy op r.ty r.fn r.b p).wide (recOpnd r p))
      && (!namesResult op || nameOk v t ((op = 0x30 && !d.destUniform) || (resTy op r.ty).wide) (dieName d.destUniform d.dest))

/-- The pacing word of the bundle a word stands in names the die's stepping or one of its mask (R206). -/
def paceOk (s : State) (c : Nat) (code : List W32) (i : Nat) : Bool :=
  let d := dieOf s (coreDie c)
  let st := (code.getD (i / 8 * 8) 0).toNat / 2 ^ 28
  st = d.stepping.toNat || d.stepset.getLsbD st

/-- The word may stand directly after a DLIT (R206): one with L = 1. Bit 23 of a die-only word is no L. -/
def takesPrefix (w : W32) : Bool := w.getLsbD 23 && decide (w.toNat / 2 ^ 24 % 2 ^ 7 < 0x60)

/-- A die word of explicit code (R201 to R206). -/
def dieWordAt (s : State) (c : Nat) (e : SEntry) (v : Wave) (t : Slot) : CodeAt :=
  let at' := nextWord e.code 16 (t.dieAt.getD (e.map.getD t.rcd 0))
  match e.code.drop at' with
  | [] => .ends
  | w :: r =>
    match decodeDie t.dlit w (if at' % 8 = 7 then [] else r) with
    | .error _ => .illegal
    | .ok d =>
      let lone := match d.ins with
        | .dspl .. => t.dspl.isNone
        | .dlit .. => at' % 8 = 7 || !takesPrefix (r.headD 0)
        | _ => false
      if lone || !namesOk v t d || !paceOk s c e.code at' then .illegal
      else
        .ins d.ins ⟨if d.destUniform then .ureg (BitVec.ofNat 8 ((if t.ub then 128 else 0) + d.dest))
              else .vreg (BitVec.ofNat 7 d.dest),
            v.winBase + 8 * t.woff.toNat, some (w, if d.words = 2 then r.headD 0 else 0, dlitField t.dlit)⟩ (at' + d.words)

/-- The instruction at a slot's position in its entry: the marker (R199), a die word where the entry holds explicit code,
or the record itself (log entry 3). -/
def wordAt (s : State) (c : Nat) (e : SEntry) (v : Wave) (t : Slot) : CodeAt :=
  let plain (i : Instr) : CodeAt := .ins i ⟨.value, v.winBase, none⟩ (t.rcd + 1)
  let marked := match e.marker with
    | some m => decide (m.rcd ≤ t.rcd)
    | none => false
  if marked then
    match e.marker with
    | some m => plain (.fetchMarker (m.cause.setWidth 16))
    | none => .illegal
  else if e.code ≠ [] then dieWordAt s c e v t
  else
    match e.recs[t.rcd]? with
    | none => .ends
    | some w =>
      match decode w with
      | .ok i => plain i
      | .error _ => .illegal

/-- The record a word of explicit code belongs to: the last one whose sequence starts at or before it (R192). -/
def recordOf (map : List Nat) (i : Nat) : Nat :=
  match findAt (fun m => decide (i < m)) map 0 with
  | some n =>
    let m := map.getD (n - 1) 0
    (findAt (fun q => q = m) map 0).getD 0
  | none => (findAt (fun q => q = map.getLastD 0) map 0).getD 0

/-- The word of explicit code from an index on, with its record; none past the last one. -/
def dieNext (e : SEntry) (n : Nat) : Option (Nat × Nat) :=
  let i := nextWord e.code 16 n
  if e.code = [] || e.code.length ≤ i then none else some (i, recordOf e.map i)

/-- The records that a word completes: the record itself; in explicit code those fused with it, at their last word. -/
def completes (e : SEntry) (rcd : Nat) (nxt : Option (Nat × Nat)) : List Nat :=
  if e.code = [] then [rcd]
  else
    let fused := (List.range e.nrec).filter (fun r => e.map.getD r 0 = e.map.getD rcd 0)
    match nxt with
    | some (_, r) => if r = rcd then [] else fused
    | none => fused

/-- The issue of a slot at its position, for some lanes. -/
def issueOf (c w x : Nat) (e : SEntry) (t : Slot) (f : Form) (lanes : W32) (ops : Option Replay) (defer : Bool) : Issue where
  who := .slot c w x
  lanes := lanes
  blk := t.blk
  rcd := t.rcd
  nrec := e.nrec
  kind := e.kind
  recs := e.recs
  lits := e.lits
  form := f
  next := none
  ends := [t.rcd]
  walk := match t.wait with
    | .walked _ r => some (e.part, r)
    | _ => none
  ops := ops
  replay := false
  defer := defer

/-! ## Replay entries -/

/-- Records that are issued again whole instead of through a replay entry (R361). -/
def isControl : Instr → Bool
  | .br _ | .brc _ | .join _ | .loop _ | .call _ | .calli _ | .ret _ | .exit _ | .yield _ | .trap _ | .brk _
  | .couple _ | .uncpl _ | .fetchMarker _ | .dspl .. => true
  | _ => false

/-- Records that run once for the wave at re-injection (R361). -/
def isWaveScope (i : Instr) : Bool :=
  match i with
  | .barWait _ | .barArrive _ | .bexp _ | .spawnLaunch _ | .waitAny _ | .waitAll _ | .waitFirst _ | .waitRing _
  | .tagsRead _ | .tagsClr _ | .send _ | .copy _ | .publ _ | .spop _ | .srel _ | .sysTret _ | .sysSnap _ | .sysSnapq _
  | .sysCfg _ | .sysDbgset _ | .sysHaltq _ => true
  | _ =>
    match i.opRecord with
    | some (_, r) => r.u || isControl i
    | none => isControl i

/-- The entry that is re-injected before the wave's slots issue (R159): not one kept for a carriage, nor the rest of a
SPAWN.task whose slot waits on the deque for the first time. -/
def headEntry (v : Wave) : List Replay → Option Replay
  | [] => none
  | e :: r => if e.car || (slotOf v e.x).wait = .deque false then headEntry v r else some e

/-- The slot that an entry is re-injected in: its own, or the other one where that is EMPTY by now, its path having spilled with
the word in flight (R159). -/
def entrySlot (v : Wave) (e : Replay) : Nat := if (slotOf v e.x).st = .empty then 1 - e.x else e.x

/-- The replay entry of the issuing word (R155) with the lanes that have completed. -/
def replayEntry (s : State) (k : Ctx) (i : Instr) (done : W32) (car : Bool) : Replay :=
  match s.cur.ops with
  | some e => { e with lanes := s.cur.lanes ||| e.lanes, done := e.done ||| done, car := car }
  | none =>
    { ins := i, blk := s.cur.blk, rcd := s.cur.rcd, x := k.x, lanes := s.cur.lanes, done := done, opmap := opmapOf i,
      ops := captureOps s k i, car := car, form := s.cur.form, recs := s.cur.recs, grp := 0, late := false,
      pend := k.slot.dspl, ends := s.cur.ends, bad := false }

/-- Captured operand words of an entry (R155). -/
def replayWords (o : List (Nat × Bool)) : Nat := (o.map (fun p => if p.2 then 2 else 1)).sum

/-- Bytes of an entry in the replay area (R155). -/
def replaySize (o : List (Nat × Bool)) : Nat := 32 + 128 * replayWords o

/-! ## Ending lanes -/

/-- Frees the group entries that an owner holds. -/
def freeGroups (k : Core) (owner : Nat) : Core :=
  { k with groups := k.groups.filter (fun p => p.2.owner ≠ owner) }

/-- A placed block's tender stream ends (R307): the stream-end row of R35 for every group of the block with TM. -/
def endStream (k : Core) (b : PlacedBlock) : Core :=
  match findAt (fun t => t.block = b.uid && t.st ≠ .ended) k.tenders 0 with
  | none => k
  | some i =>
    let k := onTenderAt k i (fun t => { t with st := .ended })
    let k := if k.active = some i then { k with active := none } else k
    (List.range b.ngroup).foldl (fun k n => groupStreamEnd k (b.groupBase + n)) k

/-- The wave retires (R25, R35): its slot returns to the core, its memberships end, a tender report passes on (R369), and
the stream of a block without waves ends (R307). -/
def retireWave (s : State) (c w : Nat) : State :=
  match waveOf s c w with
  | none => s
  | some v =>
    let k := coreOf s c
    let k := unholdSlot (unholdSlot (putWave k w none) w 0) w 1
    let k := { k with handlers := k.handlers.filter (fun i => i ≠ w),
                      blocks := k.blocks.map (fun b => if b.uid = v.block then { b with live := b.live.filter (fun i => i ≠ v.waveIdx) } else b) }
    let k := (List.range v.ngroup).foldl (fun k n => groupExit k (v.groupBase + n) v.waveIdx) k
    let k := freeGroups k v.uid
    match k.blocks.find? (fun b => b.uid = v.block && v.block ≠ 0) with
    | none => setCore s c k
    | some b =>
      match b.live with
      | [] => setCore s c (endStream k b)
      | i :: _ =>
        match v.report with
        | none => setCore s c k
        | some r =>
          let ws := b.wslots.getD i 16
          match smGet none k.waves ws with
          | some u => setCore s c (putWave k ws (some { u with report := some r }))
          | none => setCore s c k

/-- Lanes of a wave end (R28): the own cells of evaluator lanes that neither committed nor were adopted fail with `why`
(R146, R390), the lanes leave the slots and the divergence area, and a wave without lanes retires (R25). A KILL bit or the
mailbox ends lanes without a record: where a damaged entry lies in the area (R26) no INTEGRITY is raised, since no record meets
it, and the entries in memory are left as they are (DESIGN CHOICE, log entry 36). -/
def endWaveLanes (s : State) (c w : Nat) (ls : W32) (why : BitVec 8 × Nat × Nat) : State :=
  let s := (divLoad s c w).getD s
  match waveOf s c w with
  | none => s
  | some v =>
    let evs := v.evals.filter (fun p => ls.getLsbD p.1 && (liveLanes v).getLsbD p.1 && !v.adopted.getLsbD p.1)
    let s := evs.foldl (fun s p => ownCellFail s p.2 why.1 why.2.1 why.2.2) s
    let s := onWave s c w (fun v => endLanes v (coreOf s c).cycle ls)
    match waveOf s c w with
    | some v => if liveLanes v = 0 then retireWave s c w else s
    | none => s

/-! ## The frame (R153 to R155, R158) -/

/-- CRC-32C of bytes, one byte at a time (reflected, polynomial 0x82F63B78). -/
def crcByte (crc : W32) (b : Byte) : W32 :=
  (List.range 8).foldl (fun (c : W32) _ => if c.getLsbD 0 then (c >>> 1) ^^^ 0x82F63B78 else c >>> 1) (crc ^^^ b.setWidth 32)

/-- CRC-32C. -/
def crc32c (bs : List Byte) : W32 := ~~~(bs.foldl crcByte 0xFFFFFFFF)

/-- The frame base of a wave (R153). -/
def frameBase (v : Wave) : Word := v.privBase + 0x400

/-- GROUPS of the header: the group-table entries that hold the wave (R34, R154). -/
def groupField (k : Core) (v : Wave) : Nat :=
  let es := ((List.range v.ngroup).map (fun n => v.groupBase + n)).filter (fun e => (groupOf k e).members.getLsbD v.waveIdx)
  (es.take 4).zipIdx.foldl (fun a p => a + (256 + p.1 % 256) * 2 ^ (16 * p.2)) 0

/-- WAVEID (R154). -/
def waveId (v : Wave) (c w : Nat) : Word :=
  BitVec.ofNat 64 (v.launch * 2 ^ 32 + w * 2 ^ 28 + c * 2 ^ 16 + v.waveIdx % 2 ^ 16)

/-- The 16 bytes of a slot entry (R154). -/
def slotBytes (t : Slot) : List Byte :=
  if t.st = .empty then leBytes 16 0
  else
    let bar := match t.wait with
      | .barrier e ph => (e, ph)
      | _ => (0, false)
    let st := match t.wait with
      | .barrier .. => 2
      | _ => 1
    leBytes 8 (t.mask.toNat * 2 ^ 32)
      ++ leBytes 8 (st * 2 ^ 56 + bar.1 % 256 * 2 ^ 48 + (if bar.2 then 2 ^ 47 else 0) + t.rcd % 4096 * 2 ^ 32
        + t.blk % 65536 * 2 ^ 16 + t.jblk % 65536)

/-- DWORD, TAIL and DLIT of a record whose die word the stepping's lowering chose (R155, R188): its opcode, type and
variant are the record's; it has L and a tail where its type or variant is not the die default, it uses operand C or an operand
is an immediate (R235, R306), a literal being one where the lowering so chose; a prefix only where it has an immediate. The
rest is free (log entry 8). -/
def freeWords (v : Wave) (e : Replay) : W32 × W32 × W32 :=
  let w (n : Nat) : Nat := (Config.dieWord v.step v.modl e.blk e.rcd n).toNat
  match e.ins.opRecord with
  | none => (BitVec.ofNat 32 (w 0), BitVec.ofNat 32 (w 1), 0)
  | some (op, r) =>
    let imm := [r.a, r.b, r.c].any (fun o => match o with
      | .imm _ => true
      | _ => false)
    let lit := [r.a, r.b, r.c].any (fun o => match o with
      | .lit _ => true
      | _ => false) && w 0 / 2 ^ 23 % 2 = 1
    let long := (r.ty, r.fn) ≠ dieDefault op || r.c ≠ .absent || imm || lit
    let pre := (imm || lit) && w 2 / 2 ^ 31 % 2 = 1
    (BitVec.ofNat 32 (w 0 / 2 ^ 31 % 2 * 2 ^ 31 + op * 2 ^ 24 + (if long then 2 ^ 23 else 0) + w 0 % 2 ^ 23),
     BitVec.ofNat 32 (if long then r.ty.code * 2 ^ 28 + r.fn.toNat * 2 ^ 23 + w 1 % 2 ^ 23 else 0),
     BitVec.ofNat 32 (if pre then 2 ^ 31 + w 2 % 2 ^ 24 else 0))

/-- The 32 header bytes of a replay entry (R155). -/
def replayHeader (v : Wave) (e : Replay) : List Byte :=
  let d : W32 × W32 × W32 := e.form.dword.getD (freeWords v e)
  let words := e.opmap.flatMap (fun p => if p.2 then [p.1, p.1] else [p.1])
  let om := words.zipIdx.foldl (fun a p => a + p.1 % 4 * 4 ^ p.2) 0
  leBytes 4 d.1.toNat ++ leBytes 4 d.2.1.toNat ++ leBytes 4 d.2.2.toNat ++ leBytes 2 e.form.win ++ leBytes 2 e.blk
    ++ leBytes 2 e.rcd ++ leBytes 1 e.x ++ leBytes 1 words.length ++ leBytes 4 e.lanes.toNat ++ leBytes 4 e.done.toNat
    ++ leBytes 2 om ++ leBytes 2 (if e.car then 1 else 0)

/-- One captured word of 32 lanes. -/
def opsWord (e : Replay) (pos : Nat) (high : Bool) : List Byte :=
  allLanes.flatMap (fun l => leBytes 4 ((smGet 0 e.ops (32 * pos + l)).toNat / (if high then 2 ^ 32 else 1)))

/-- OPS of an entry (R155). -/
def replayOps (e : Replay) : List Byte :=
  e.opmap.flatMap (fun p => if p.2 then opsWord e p.1 false ++ opsWord e p.1 true else opsWord e p.1 false)

/-- What a stop writes into the header beyond the wave's own state. -/
structure StopReq where
  cause : BitVec 8
  stop : Nat
  x : Nat
  lanes : W32
  blk : Nat
  rcd : Nat
  addr : Word
  cmp : Nat
  late : Bool
  /-- The stop of a wave whose region ran coupled leaves no entry of its slot (R150, R160). -/
  cpl : Bool
  /-- The named record's replay entry, and its place among the accesses in flight (0: issued last). -/
  entry : Option Replay
  grp : Nat
  /-- The violation is already in the event log: the stop of a fetch marker, which its lowering recorded (R399). -/
  logged : Bool := false
  /-- The slot goes on from its word where this is the cause the frame names: BRK (R162, R165, R361). -/
  past : Bool := false
  deriving DecidableEq, Repr

/-- The header with SEAL given (R154). -/
def headerBytes (s : State) (c w : Nat) (v : Wave) (q : StopReq) (nrep : Nat) (sl : W32) : List Byte :=
  let held := v.slot0.held ||| v.slot1.held
  let atCouple (t : Slot) : Bool := t.cpl || (t.held ≠ 0 && t.rcd = 0)
  let flags := (if atCouple v.slot0 || atCouple v.slot1 then 2 else 0) + (if q.late then 4 else 0)
  [q.cause] ++ leBytes 1 q.stop ++ leBytes 1 q.x ++ leBytes 1 nrep ++ leBytes 4 q.lanes.toNat ++ leBytes 8 v.modl.toNat
    ++ leBytes 2 q.blk ++ leBytes 2 (q.rcd % 4096) ++ leBytes 1 q.cmp ++ leBytes 1 flags ++ leBytes 1 v.step.toNat
    ++ leBytes 1 (coreDie c) ++ leBytes 8 q.addr.toNat ++ leBytes 8 (diePcOf s c v q.blk q.rcd).toNat
    ++ leBytes 4 held.toNat ++ leBytes 4 0 ++ slotBytes v.slot0 ++ slotBytes v.slot1 ++ leBytes 1 (divCount v)
    ++ leBytes 3 0 ++ leBytes 8 (groupField (coreOf s c) v) ++ leBytes 4 sl.toNat
    ++ allLanes.flatMap (fun l => leBytes 1 (ancestryOf v l).length) ++ leBytes 8 (waveId v c w).toNat ++ leBytes 8 0
    ++ allLanes.flatMap (fun l => match evalOf v l with
      | some e => leBytes 8 (e.slice * 2 ^ 32 + e.inst.toNat)
      | none => leBytes 8 0)
    ++ leBytes 624 0

/-- The ancestry area (R153). -/
def ancestryBytes (v : Wave) : List Byte :=
  allLanes.flatMap (fun l => (List.range 16).flatMap (fun i => leBytes 8 ((ancestryOf v l).getD i 0).toNat))

/-- The sealed bytes of a frame as read: KILL, FLAGS[0], SEAL and every DONE as zero (R158). -/
def sealedBytes (header : List Byte) (entries : List (List Byte)) : List Byte :=
  (header.take 0x190).zipIdx.map (fun p =>
      if (0x2C ≤ p.2 && p.2 < 0x30) || (0x5C ≤ p.2 && p.2 < 0x60) then 0
      else if p.2 = 0x15 then p.1 &&& 0xFE else p.1)
    ++ entries.flatMap (fun e => (e.take 32).zipIdx.map (fun p => if 0x18 ≤ p.2 && p.2 < 0x1C then 0 else p.1))

/-- Writes the frame (R153): bytes on a page that cannot be written are not written (log entry 14). -/
def writeFrame (s : State) (c w : Nat) (v : Wave) (q : StopReq) (es : List Replay) : State :=
  let heads := es.map (replayHeader v)
  let sl := crc32c (sealedBytes (headerBytes s c w v q es.length 0) heads)
  let sec := (coreOf s c).world
  let by' : Writer := ⟨v.part, selfSlot s, some c⟩
  let s := (writeVirtual s by' sec (frameBase v)
    (headerBytes s c w v q es.length sl ++ ancestryBytes v)).1
  (writeVirtual s by' sec (frameBase v + 0x1400) (es.flatMap (fun e => replayHeader v e ++ replayOps e))).1

/-! ## Completion records (R299) -/

/-- A record of a ring lies on a cell that is not VALUE (R136): the cause a store would raise, and the state after it. -/
def postMeetsCell (s : State) (p : Nat) (secure : Bool) (a : Word) : State × Option (BitVec 8) :=
  match xlatCheck s p secure .store a with
  | .ok ⟨.dev pa, true, _⟩ =>
    let bad (n : Nat) : Bool := cellTag s n = 2 && (wakingOf s (n / 8 * 8)).isNone
    if bad pa then (lostCell s p a pa, some causeCellFailed)
    else if bad (pa + 8) then (lostCell s p (a + 8) (pa + 8), some causeCellFailed)
    else (s, if cellTag s pa ≠ 0 || cellTag s (pa + 8) ≠ 0 then some causeCellShape else none)
  | _ => (s, none)

/-- Posts a completion record to a ring latched at issue, in a world, for core `aidx`; one that cannot be written is lost,
a violation of worlds logged as every one is (R399). -/
def postRecord (s : State) (p : Nat) (secure : Bool) (aidx : Nat) (ring : Latch) (bytes tag : Nat) (fault : BitVec 8)
    (status : Nat) (pubver : W32) : State :=
  let lost (s : State) (cs : BitVec 8) (a : Word) : State := logEvent (logWorld s p (1, aidx) cs a) 7 cs p 1 aidx a noStage
  let r := readEntry false s p secure ring.idx
  match r.2 with
  | .error e => lost r.1 e.1 e.2
  | .ok e =>
    let nrec := leNat (ring.kspec.take 4)
    let head := field e.l.kspec 4 4
    let vec := field e.l.kspec 8 2
    let a := ring.base + BitVec.ofNat 64 (16 * (head % nrec))
    let ph := if head / nrec % 2 = 0 then 0x80 else 0
    let bs := leBytes 8 (bytes * 2 ^ 32 + tag % 64 * 2 ^ 16 + fault.toNat * 2 ^ 8 + ph + status) ++ leBytes 8 pubver.toNat
    let m := postMeetsCell r.1 p secure a
    match m.2 with
    | some cs => lost m.1 cs a
    | none =>
      let x := writeVirtual m.1 ⟨p, selfSlot s, some aidx⟩ secure a bs
      match x.2 with
      | some f => lost x.1 f.1 f.2
      | none =>
        let s := entryPut x.1 p ring.idx 0x2C (leBytes 4 (head + 1))
        if vec = 0xFFFF then s else sendMsix s p vec

/-! ## Taking an exception -/

/-- The accesses of a wave in flight, in issue order. -/
def waveAccs (s : State) (c w : Nat) (uid : Nat) : List Access :=
  s.accs.filter (fun a => a.core = c && a.wslot = w && a.wuid = uid)

/-- The accesses of a wave that can be performed are, in issue order; their failures. -/
def performAll (s : State) (c w uid : Nat) : State × List (Access × Fail) :=
  (waveAccs s c w uid).foldl (fun acc a0 =>
    match acc.1.accs.find? (fun a => a.id = a0.id) with
    | none => acc
    | some a =>
      if performable acc.1 a then
        let r := finishAccess acc.1 a .clean
        match r.2 with
        | some f => (r.1, acc.2 ++ [(a, f)])
        | none => (r.1, acc.2)
      else acc) (s, [])

/-- The accesses, of some of one wave in issue order, that wait on a cell, or behind such a one (R139, R150). -/
def stuckAccs (as : List Access) : List Access :=
  as.foldl (fun st a =>
    if a.onCell || st.any (fun b => orderedBefore b a || (b.grp = a.grp && (a.kind.writes || b.kind.writes)
        && (piecesMeet a.pieces b.pieces || a.rcd ≠ b.rcd))) then st ++ [a] else st) []

/-- Accesses sent beyond the port perform (R150), in issue order, with their failures. While one that waits on no cell cannot
yet, at a locked line, for the token or at a held slice, the stop waits for it (R43, R118, R130, R360). -/
def settleWave (s : State) (c w uid : Nat) : State × List (Access × Fail) :=
  let r := performAll s c w uid
  let rest := waveAccs r.1 c w uid
  if (stuckAccs rest).length = rest.length then r else ({ r.1 with homeWaits := true }, r.2)


/-- The replay entry of accesses of one record that did not complete (R150). -/
def entryOfAccs (a : Access) (as : List Access) : Replay :=
  let open' := if a.uniform then a.lanes else maskOf (as.map (fun b => b.lane))
  { ins := a.ins, blk := a.blk, rcd := a.rcd, x := a.x, lanes := a.lanes, done := a.lanes &&& ~~~open', opmap := a.opmap,
    ops := a.ops, car := false, form := a.form, recs := [], grp := 0, late := true, pend := none, ends := a.ends, bad := false }

/-- A numbered entry at its place among others, which stand in issue order (R155). -/
def insertEntry (es : List (Nat × Replay)) (e : Nat × Replay) : List (Nat × Replay) :=
  es.filter (fun f => f.1 ≤ e.1) ++ e :: es.filter (fun f => e.1 < f.1)

/-- Entries of accesses that did not complete, one a record, in issue order. -/
def entriesOfAccs (as : List Access) : List (Nat × Replay) :=
  (((as.map (fun a => a.grp)).eraseDups).filterMap (fun g =>
    let mine := as.filter (fun a => a.grp = g)
    mine.head?.map (fun a => (g, entryOfAccs a mine)))).foldl insertEntry []

/-- Puts the named record's entry in its place; its DONE leaves out the lanes withdrawn (R360). -/
def placeEntry (g : Nat) (e : Replay) : List (Nat × Replay) → List (Nat × Replay)
  | [] => [(g, e)]
  | (h, f) :: r =>
    if h = g then (g, { e with done := e.done &&& f.done }) :: r
    else if g ≠ 0 && g < h then (g, e) :: (h, f) :: r
    else (h, f) :: placeEntry g e r

/-- Lanes that failed in an access: the lowest lane stands for a U = 1 record (R358). -/
def failLanes (fs : List (Access × Fail)) : List (Nat × Fail) := fs.map (fun p => (p.1.lane, p.2))

/-- The stop that the earliest of some failed accesses makes, in place of another. -/
def faultStop (q : StopReq) (fs : List (Access × Fail)) : Option StopReq :=
  match fs with
  | [] => none
  | p0 :: _ =>
    let p := fs.foldl (fun b p => if p.1.grp < b.1.grp then p else b) p0
    (worstOf (failLanes (fs.filter (fun r => r.1.grp = p.1.grp)))).map (fun r =>
      { q with cause := r.1, stop := 0, x := p.1.x, lanes := maskOf r.2.1, blk := p.1.blk, rcd := p.1.rcd, addr := r.2.2,
               cmp := 0xFF, late := true, entry := none, grp := p.1.grp, logged := false, past := false })

/-- A failure found while the wave's accesses perform that the frame names instead: one of the lower-numbered slot (R362), or
of an earlier record of the stopping slot (R165). A pre-emption keeps its frame: an access that fails while the stop lets it
perform leaves an entry that raises the cause again at the return (DESIGN CHOICE, log entry 23). The stop of a coupled region
keeps its frame and its NREP of 0 (R160, R371). -/
def earlierFault (q : StopReq) (fs : List (Access × Fail)) : Option StopReq :=
  if q.stop = 1 || q.cpl then none
  else
    match (if q.x = 1 then faultStop q (fs.filter (fun p => p.1.x = 0)) else none) with
    | some r => some r
    | none => faultStop q (fs.filter (fun p => p.1.x = q.x && (q.grp = 0 || p.1.grp < q.grp)))

/-- The word a stopped slot has issued and not finished: parked on a walk (R150) or a fence at the port (R377), with its issue
number. A parked word that a return re-injected stands in its own entry. -/
def pendingIssue (s : State) (c w x : Nat) (v : Wave) : Option (Nat × Instr × Issue) :=
  let t := slotOf v x
  if t.car.isSome || (headEntry v v.replay).any (fun e => entrySlot v e = x) then none
  else
    match slotCode s c v t with
    | none => none
    | some e =>
      match wordAt s c e v t with
      | .ins i f n =>
        let fence := match i with
          | .fence _ | .fenceEng _ => true
          | _ => false
        let parked : Option Nat := match t.wait with
          | .walk _ g | .walked g _ => some g
          | .port g => if fence then some g else none
          | _ => none
        let nxt := dieNext e n
        parked.map (fun g =>
          (g, i, { issueOf c w x e t f t.mask none false with next := nxt, ends := completes e t.rcd nxt }))
      | _ => none

/-- The entry of such a word. -/
def pendingWord (s : State) (c w x : Nat) (v : Wave) : Option (Nat × Replay) :=
  (pendingIssue s c w x v).map (fun p =>
    let t := slotOf v x
    (p.1, replayEntry { s with cur := p.2.2 } ⟨c, w, x, v, t, lanesOf t.mask, lanesOf t.mask⟩ p.2.1 0 false))

/-- A stopped slot: its held arrival was never counted, and what it waited for is asked again at its record (R154); a sequence begun runs again from its first
word (R205, R209). -/
def stoppedSlot (t : Slot) : Slot :=
  if t.st = .empty then t
  else
    match t.wait with
    | .barrier .. | .cut => t
    | _ => { t with st := .eligible, wait := .none, woff := 0, ub := false, dlit := none, dspl := none, dieAt := none }

/-- A slot whose word left an entry stands after it. -/
def pastPending (s : State) (c w x : Nat) (e : Option (Nat × Instr × Issue)) : State :=
  match e with
  | some p => onWave s c w (fun v => stepSlot p.2.2 v x)
  | none => s

/-- The walker's updates for the reads that find a wave's handler (R102, R156). -/
def handlerReads (s : State) (c : Nat) (v : Wave) : State :=
  let s := markFetch s v.part (coreOf s c).world v.modl 64
  match readHeader (fetchBytes s v.part (coreOf s c).world) v.modl with
  | .ok h => if h.handler ≠ 0xFFFF || (partOf s v.part).traph = 0 then s else markBlocks s v.part
  | .error _ => if (partOf s v.part).traph = 0 then s else markBlocks s v.part

/-- The handler of a trapping wave (R156): the `.handler` entry of its module, else the one that MG_TRAPH names. -/
def handlerEntry (s : State) (c : Nat) (v : Wave) : Option (FoundBlock × EntryDesc) :=
  let own : Option Nat := match readHeader (fetchBytes s v.part (coreOf s c).world) v.modl with
    | .ok h => if h.handler = 0xFFFF then none else some h.handler
    | .error _ => none
  match own with
  | some b =>
    match v.table[b]? with
    | some i => i.desc.map (fun d => (⟨v.modl, b, i, v.table, b⟩, d))
    | none => none
  | none => if (partOf s v.part).traph = 0 then none else findEntry s v.part (partOf s v.part).traph 4

/-- Tells of a trap (R156): the wave's handler is to be placed; without one its lanes end; a handler's own trap is only
logged. -/
def deliverTrap (s : State) (c w : Nat) : State :=
  match waveOf s c w with
  | none => s
  | some v =>
    let q := v.stop.getD ⟨0, 0, 0, false, 0, 0, 0, 0⟩
    if v.kind = .handler then logEvent s 5 q.cause v.part 0 c q.addr noStage
    else
      let s := handlerReads s c v
      match handlerEntry s c v with
      | some _ => onCore s c (fun k => { k with handlers := k.handlers ++ [w] })
      | none =>
        let s := logEvent s 4 q.cause v.part 0 c q.addr noStage
        endWaveLanes (onWave s c w (fun v => { v with halted := false })) c w 0xFFFFFFFF (q.cause, q.blk, q.rcd)

/-- Delivers a stop (R156, R157): a pre-emption to nobody; a debug stop to the ring of KC_DBGRING, or as a trap where
there is none or its handle no longer resolves. -/
def deliverStop (s : State) (c w : Nat) : State :=
  match waveOf s c w with
  | none => s
  | some v =>
    match v.stop with
    | none => s
    | some q =>
      if q.stop = 1 then s
      else if q.stop = 2 && (coreOf s c).kcDbgring ≠ 0 then
        let r := resolve s v.part (coreOf s c).world 0 (coreOf s c).kcDbgring 5 1 0 0 0
        match r.2 with
        | .ok e =>
          let s := postRecord r.1 v.part (coreOf s c).world c e.l 0 w q.cause 0 e.l.pubver
          onWave s c w (fun v => { v with stop := some { q with posted := true } })
        | .error _ => deliverTrap r.1 c w
      else deliverTrap s c w

/-- The entries of a stop in issue order (R155): first those kept for a carriage from an earlier stop, which issued before all
that has issued since; then the words issued and not finished, the named one among them; then those that a return had still to
re-inject. -/
def stopEntries (q : StopReq) (fly : List (Nat × Replay)) (parked : List (Nat × Replay)) (kept : List Replay) : List Replay :=
  let numbered := (kept.filter (fun e => e.grp ≠ 0)).map (fun e => (e.grp, e))
  let es := (parked ++ numbered).foldl insertEntry fly
  let es := match q.entry with
    | some e => placeEntry q.grp e es
    | none => es
  let old := kept.filter (fun e => e.grp = 0)
  (old.takeWhile (fun e => e.car) ++ es.map (fun p => p.2) ++ old.dropWhile (fun e => e.car)).map (fun e => { e with grp := 0 })

/-- An access of a thread whose release store was performed ahead of it cannot be withdrawn: the stop waits (log entry 35). -/
def noteGuards (s : State) (rest : List Access) : State :=
  if rest.any (fun a => a.guards ≠ []) then { s with homeWaits := true } else s

/-- A wave stops (R149 to R155): carriages are discarded with what they had issued, accesses perform or are withdrawn, the
divergence area and the frame are written, the wave is HALTED, and the stop is delivered. `failed` are accesses that have
failed already. The stop of a coupled region leaves no entry but those a return had still to re-inject (R150, R160). -/
def takeStop (s : State) (c w : Nat) (q0 : StopReq) (failed : List (Access × Fail)) : State :=
  match waveOf s c w with
  | none => s
  | some v0 =>
    let failed := failed.filter (fun p => (carriageOf s p.1).isNone)
    let s := carriageDiscard (carriageDiscard s (c, w, 0) false) (c, w, 1) false
    let r := settleWave s c w v0.uid
    let s := r.1
    let rest := waveAccs s c w v0.uid
    let s := endAccesses (noteGuards s rest) rest
    match waveOf s c w with
    | none => s
    | some v1 =>
      let fails := failed ++ r.2
      let q := (earlierFault q0 fails).getD q0
      let q0 := if q.past then { q0 with entry := none } else q0
      let p0 := pendingWord s c w 0 v1
      let p1 := pendingWord s c w 1 v1
      let s := pastPending (pastPending s c w 0 (pendingIssue s c w 0 v1)) c w 1 (pendingIssue s c w 1 v1)
      let s := if q.past then onWave s c w (fun v => stepSlot s.cur v q.x) else s
      let s := onCore s c (fun k => unholdSlot (unholdSlot k w 0) w 1)
      let s := onWave s c w (fun v => { v with slot0 := stoppedSlot v.slot0, slot1 := stoppedSlot v.slot1 })
      let fly := entriesOfAccs ((fails.map (fun p => p.1) ++ rest).filter (fun a => !(q0.cpl && (slotOf v1 a.x).cpl)))
      let entries := stopEntries q0 fly (p0.toList ++ p1.toList) v1.replay
      let s := divSpill s c w true
      let s := onWave s c w (fun v => { v with replay := entries, halted := true,
                                               stop := some ⟨q.cause, q.stop, q.x, false, q.blk, q.rcd, q.lanes, q.addr⟩ })
      match waveOf s c w with
      | none => s
      | some v =>
        let s := writeFrame s c w v q entries
        let s := if q.cause = causeWorld && q.stop = 0 && !q.logged then logWorld s v.part (0, c) q.cause q.addr else s
        deliverStop s c w

/-- The issuing record takes an exception of step 4 onward (R359 to R361): `done` are the lanes that completed. A control
record stays at its position, a record of a carriage leaves a CAR entry, and any other leaves an entry and the slot stands
after it. -/
def takeTrap (s : State) (k : Ctx) (i : Instr) (cause : BitVec 8) (stop : Nat) (lanes done : W32) (addr : Word)
    (cmp grp : Nat) : State :=
  let inCar := (slotOf k.wave k.x).car.isSome && !s.cur.replay
  let whole := isControl i && !inCar
  let e := replayEntry s k i done inCar
  let s := if whole || inCar then s else advance s k
  takeStop s k.core k.w
    { cause := cause, stop := stop, x := k.x, lanes := lanes, blk := s.cur.blk, rcd := s.cur.rcd, addr := addr, cmp := cmp,
      late := s.cur.replay && e.late, cpl := false, entry := if whole then none else some e, grp := grp } []

/-- The issuing record fails a check in some lanes (R360): the cause that ranks first, DONE the lanes that did not fail.
A record that is one operation for the wave completes in no lane (R361). -/
def trapFails (s : State) (k : Ctx) (i : Instr) (fs : List (Nat × Fail)) (grp : Nat) : State :=
  match worstOf fs with
  | none => s
  | some (cause, lanes, addr) =>
    let done := if isWaveScope i then 0 else maskOf (k.lanes.filter (fun l => !(fs.any (fun p => p.1 = l))))
    takeTrap s k i cause 0 (maskOf lanes) done addr 0xFF grp

/-- A check of step 4 fails for every active lane (R358). -/
def trapState (s : State) (k : Ctx) (i : Instr) (cause : BitVec 8) (addr : Word) : State :=
  takeTrap s k i cause 0 (maskOf k.act) 0 addr 0xFF 0

/-- The stop for an access that has failed after its record's checks (R152, R388): LATE, or for a record of a carriage with
a carriage entry. `fails` are all accesses of the wave that have failed; those of the same word decide together. -/
def lateStop (s : State) (a : Access) (fails : List (Access × Fail)) : State :=
  let mine := fails.filter (fun p => p.1.grp = a.grp)
  let waits := (waveAccs s a.core a.wslot a.wuid).filter (fun b => b.grp = a.grp)
  match worstOf (failLanes mine) with
  | none => s
  | some (cause, lanes, addr) =>
    let inCar := (carriageOf s a).isSome
    let cpl := ((waveOf s a.core a.wslot).map (fun v => (slotOf v a.x).cpl)).getD false
    let e := { entryOfAccs a (mine.map (fun p => p.1) ++ waits) with car := inCar }
    takeStop s a.core a.wslot
      { cause := cause, stop := 0, x := a.x, lanes := maskOf lanes, blk := a.blk, rcd := a.rcd, addr := addr,
        cmp := 0xFF, late := !inCar, cpl := cpl, entry := if cpl then none else some e, grp := a.grp } fails

/-- The earliest of some failures. -/
def earliestFail (p : Access × Fail) (fs : List (Access × Fail)) : Access :=
  fs.foldl (fun (b : Access) q => if q.1.grp < b.grp then q.1 else b) p.1

/-- An access fails after later records of its slot may have taken effect: once every other lane of its word has completed,
failed or been withdrawn, the wave stops for it, or for an earlier record of its carriage that failed meanwhile (R165). -/
def takeLate (s : State) (a : Access) (f : Fail) : State :=
  match waveOf s a.core a.wslot with
  | none => s
  | some v =>
    if v.uid ≠ a.wuid || v.halted then s
    else
      let s := carriageDiscard s (a.core, a.wslot, 1 - a.x) false
      let r := settleWave s a.core a.wslot a.wuid
      let fails := (a, f) :: r.2
      let same := if (carriageOf s a).isSome then r.2.filter (fun p => p.1.x = a.x && (carriageOf r.1 p.1).isSome) else []
      lateStop r.1 (earliestFail (a, f) same) fails

/-! ## The return (R158, R159) -/

/-- An entry whose die word the frame gives otherwise than the core wrote it, under a SEAL that agrees: that word is run, and one
under R206 traps (R159, R366). -/
def reworded (v : Wave) (e : Replay) (bs : List Byte) : Replay :=
  let f (off n : Nat) : W32 := BitVec.ofNat 32 (field bs off n)
  if bs.take 0xE = (replayHeader v e).take 0xE then e
  else
    let pre : Option (BitVec 24) := if (f 8 4).getLsbD 31 then some ((f 8 4).setWidth 24) else none
    let win := field bs 0xC 2
    let words := (f 0 4, f 4 4, f 8 4)
    let bad : Replay := { e with form := ⟨e.form.dest, win, some words⟩, bad := true }
    match decodeDie pre words.1 [words.2.1] with
    | .error _ => bad
    | .ok d =>
      if !namesOk v { Slot.reset with woff := BitVec.ofNat 7 ((win - v.winBase) / 8) } d then bad
      else
        let dest : Dest := if d.destUniform then .ureg (BitVec.ofNat 8 d.dest) else .vreg (BitVec.ofNat 7 d.dest)
        { e with ins := d.ins, form := ⟨dest, win, some words⟩, bad := false }

/-- An entry as the frame holds it: DONE and OPS (R158), and its die word (R159). -/
def refreshEntry (v : Wave) (e : Replay) (bs : List Byte) : Replay :=
  let e := reworded v e bs
  let words := e.opmap.flatMap (fun p => if p.2 then [(p.1, false), (p.1, true)] else [(p.1, false)])
  let vals : List (Nat × Word) := words.zipIdx.flatMap (fun q =>
    allLanes.map (fun l =>
      (32 * q.1.1 + l, BitVec.ofNat 64 (field bs (32 + 128 * q.2 + 4 * l) 4 * (if q.1.2 then 2 ^ 32 else 1)))))
  { e with done := BitVec.ofNat 32 (field bs 0x18 4),
           ops := vals.foldl (fun m q => smSet (0 : Word) m q.1 (smGet 0 m q.1 ||| q.2)) [] }

/-- The bytes of the entries, one after another. -/
def splitEntries : List Replay → List Byte → List (List Byte)
  | [], _ => []
  | e :: r, bs => bs.take (replaySize e.opmap) :: splitEntries r (bs.drop (replaySize e.opmap))

/-- A record whose value nothing writes in some lanes: its destination stands as the allocation of registers left it, a free
value (R152, R159; log entry 8). -/
def skipValue (s : State) (c w : Nat) (e : Replay) (ls : List Nat) : State :=
  match e.form.dest, e.ins.opRecord with
  | .value, some (op, r) =>
    if !namesResult op then s
    else
      ls.foldl (fun s l =>
        let val : Val := ⟨extendValue (resTy op r.ty) (Config.staleValue s.freeCtr), Config.staleValue (s.freeCtr + 1)⟩
        onWave { s with freeCtr := s.freeCtr + 2 } c w (fun v => { v with vals := smSet ⟨0, 0⟩ v.vals (e.rcd * 32 + l) val })) s
  | _, _ => s

/-- The lanes that a handler has made skip a record (R159, R361): those whose DONE it set. -/
def skippedLanes (e f : Replay) : List Nat :=
  if e.car then []
  else if isWaveScope e.ins then (if f.done &&& f.lanes = f.lanes && e.done &&& e.lanes ≠ e.lanes then lanesOf e.lanes else [])
  else lanesOf (f.done &&& f.lanes &&& ~~~e.done)

/-- What the return has to do with a wave that stands HALTED. -/
inductive Return where
  | resumed
  /-- The SEAL check failed (R158): F. -/
  | damaged (f : Word)
  deriving DecidableEq, Repr

/-- A slot at resume: ELIGIBLE at its position, or WAITING on its barrier (R159). Its skip count starts at 0, as that of a
path placed in a slot does; a count stands through STALLED and WAITING: R50 says only that issuing resets it (DESIGN CHOICE,
log entry 37). -/
def resumedSlot (cyc : Nat) (t : Slot) : Slot :=
  if t.st = .eligible then { t with ready := cyc, skip := 0 } else t

/-- SYS.TRET of wave slot `w` (R158, R159): KILL ends lanes, DONE and OPS are taken from the frame, and the wave leaves
HALTED; its entries are re-injected before its slots issue. A pre-emption names no record for the lanes that KILL ends
(R146). A frame that cannot be read counts as damaged (log entry 14). -/
def returnFrom (s : State) (c w : Nat) : State × Return :=
  match waveOf s c w with
  | none => (s, .resumed)
  | some v =>
    let sec := (coreOf s c).world
    let f := frameBase v
    let size := (v.replay.map (fun e => replaySize e.opmap)).sum
    let r := readVirtual s v.part sec f 0x400
    let q := readVirtual r.1 v.part sec (f + 0x1400) size
    match r.2, q.2 with
    | .ok hd, .ok rp =>
      let es := splitEntries v.replay rp
      if crc32c (sealedBytes hd es) ≠ BitVec.ofNat 32 (field hd 0x5C 4) then (q.1, .damaged f)
      else
        let past := field hd 0x15 1 % 2 = 1
        let kill : W32 := BitVec.ofNat 32 (field hd 0x2C 4)
        let stop := v.stop.getD ⟨0, 0, 0, false, 0, 0, 0, 0⟩
        let fresh := (v.replay.zip es).map (fun (p : Replay × List Byte) => refreshEntry v p.1 p.2)
        let s := (v.replay.zip fresh).foldl (fun s (p : Replay × Replay) => skipValue s c w p.2 (skippedLanes p.1 p.2)) q.1
        let s := onWave s c w (fun v =>
          let v := { v with replay := fresh, halted := false, stop := none }
          let v := { v with slot0 := resumedSlot (coreOf s c).cycle v.slot0, slot1 := resumedSlot (coreOf s c).cycle v.slot1 }
          putSlot v stop.slot { slotOf v stop.slot with stepOver := if past then some (stop.blk, stop.rcd) else none })
        let s := onCore s c (fun k => { k with handlers := k.handlers.filter (fun i => i ≠ w) })
        let why : BitVec 8 × Nat × Nat := if stop.stop = 1 then (causeSoftTrap, 0xFFFF, 0) else (stop.cause, stop.blk, stop.rcd)
        (endWaveLanes s c w kill why, .resumed)
    | _, _ => (q.1, .damaged f)

/-! ## Committing values -/

/-- A record that computes a value for each active lane (R235): the value of lane l is `f l`. -/
def laneOp (s : State) (r : Record) (out : Ty) (f : Ctx → Nat → Val) : Host.Outcome State Fault Refusal :=
  onSlot s (fun k => advance (writeResults s k out (resultVals r.u k.lanes (f k))) k)

/-- A record that computes one value from its active lanes (R171): each of them holds it. -/
def waveOp (s : State) (out : Ty) (f : Ctx → Val) : Host.Outcome State Fault Refusal :=
  onSlot s (fun k => advance (writeResults s k out (k.lanes.map (fun l => (l, f k)))) k)

/-- A record that gives every active lane the same value and is one operation for the wave (R304, R330). -/
def sameOp (s : State) (k : Ctx) (out : Ty) (v : Word) : State :=
  advance (writeResults s k out (k.lanes.map (fun l => (l, Val.mk v 0)))) k

end Sys2Proof.Machine
end

