-- ==== Sys2Proof/Machine/Integer.lean ====
section
/-! DEFINITION. Integer and address records (R236 to R248): opcodes 0x00 to 0x15. -/

namespace Sys2Proof.Machine

/-- Operand A of a lane at a type. -/
def opA (s : State) (k : Ctx) (r : Record) (t : Ty) (l : Nat) : Word := operand s k r t 0 l
/-- Operand B of a lane at a type. -/
def opB (s : State) (k : Ctx) (r : Record) (t : Ty) (l : Nat) : Word := operand s k r t 1 l
/-- Operand C of a lane at a type. -/
def opC (s : State) (k : Ctx) (r : Record) (t : Ty) (l : Nat) : Word := operand s k r t 2 l

/-- n of R236: the element width. -/
def elemBits (t : Ty) : Nat := if t = .i16x2 then 16 else if t.wide then 64 else if t = .pred then 1 else 32

/-- sg of R236. -/
def elemSigned (t : Ty) : Bool := t = .i32 || t = .i64 || t = .i16x2

/-- An operation on the elements of a value of TY (R236): both halves apart for i16x2. `f` takes and gives patterns. -/
def perElem (t : Ty) (f : Nat → Nat → Nat → Nat) (a b c : Word) : Word :=
  if t = .i16x2 then
    let part (i : Nat) : Nat := f (a.toNat / 2 ^ i % 2 ^ 16) (b.toNat / 2 ^ i % 2 ^ 16) (c.toNat / 2 ^ i % 2 ^ 16)
    BitVec.ofNat 64 (part 0 + 2 ^ 16 * part 16)
  else
    let m := 2 ^ elemBits t
    BitVec.ofNat 64 (f (a.toNat % m) (b.toNat % m) (c.toNat % m))

/-- A result chosen by FN: 0 wrap, 1 .sat (IADD, ISUB). -/
def addResult (n : Nat) (sg : Bool) (fn : Nat) (v : Int) : Nat := if fn = 1 then satInt n sg v else wrapInt n v

/-- A result chosen by FN: 0 the low half, 1 .hi, 2 .sat (IMUL, IMAD). -/
def mulResult (n : Nat) (sg : Bool) (fn : Nat) (v : Int) : Nat :=
  if fn = 1 then wrapInt (2 * n) v / 2 ^ n else if fn = 2 then satInt n sg v else wrapInt n v

/-- IDIV of one element (R238). -/
def divResult (n : Nat) (sg rem : Bool) (a b : Nat) : Nat :=
  let x := intOf n sg a
  let y := intOf n sg b
  if y = 0 then (if rem then a else 2 ^ n - 1)
  else if rem then wrapInt n (x - x.tdiv y * y) else wrapInt n (x.tdiv y)

/-- IABS of one element (R239). -/
def absResult (n : Nat) (sg sat : Bool) (a : Nat) : Nat :=
  let v : Int := (intOf n sg a).natAbs
  if sat then satInt n sg v else wrapInt n v

/-- SHR of one element (R241). -/
def shrResult (n : Nat) (arith : Bool) (a sh : Nat) : Nat :=
  if arith then wrapInt n (intOf n true a / (2 ^ min sh n : Nat)) else if n ≤ sh then 0 else a / 2 ^ sh

/-- FSHF (R242): `.l` gives the high half of the pair shifted left, `.r` the low half of the pair shifted right. -/
def fshfResult (n : Nat) (right : Bool) (a b c : Nat) : Nat :=
  let sh := min c n
  let p := a * 2 ^ n + b
  if right then p / 2 ^ sh % 2 ^ n else p * 2 ^ sh / 2 ^ n % 2 ^ n

/-- One bits of a number below bit n. -/
def countOnes (n a : Nat) : Nat := ((List.range n).filter (fun i => a.testBit i)).length

/-- BCNT (R243): 0 .pop, 1 .clz, 2 .ctz. -/
def bcntResult (n fn a : Nat) : Nat :=
  if fn = 0 then countOnes n a
  else if a = 0 then n
  else if fn = 1 then n - 1 - Nat.log2 a
  else (findAt (fun i => a.testBit i) (List.range n) 0).getD n

/-- BFX (R244): 0 .ext, 1 .sext, 2 .ins. -/
def bfxResult (n fn a b c : Nat) : Nat :=
  let pos := b % 256
  let len := min (b / 256 % 256) n
  if fn = 2 then
    if n ≤ pos then a
    else
      let width := min (pos + len) n - pos
      a - a / 2 ^ pos % 2 ^ width * 2 ^ pos + c % 2 ^ width * 2 ^ pos
  else
    let f := if n ≤ pos then 0 else a / 2 ^ pos % 2 ^ len
    if fn = 0 then f
    else if len = 0 then 0
    else wrapInt n (intOf len true f)

/-- ICMP (R245). -/
def icmpHolds (t : Ty) (cmp a b : Nat) : Bool :=
  let n := elemBits t
  let one (x y : Nat) : Bool := cmpHolds cmp (intOrder (intOf n (elemSigned t) x) (intOf n (elemSigned t) y))
  if t = .i16x2 then one (a % 2 ^ 16) (b % 2 ^ 16) && one (a / 2 ^ 16 % 2 ^ 16) (b / 2 ^ 16 % 2 ^ 16)
  else one (a % 2 ^ n) (b % 2 ^ n)

/-- A record of two integer operands whose elements combine. -/
def intOp2 (s : State) (r : Record) (f : Nat → Bool → Nat → Nat → Nat) : Host.Outcome State Fault Refusal :=
  laneOp s r r.ty (fun k l =>
    ⟨perElem r.ty (fun a b _ => f (elemBits r.ty) (elemSigned r.ty) a b) (opA s k r r.ty l) (opB s k r r.ty l) 0, 0⟩)

/-- IADD (R237). -/
def execIadd (r : Record) (s : State) : Host.Outcome State Fault Refusal :=
  intOp2 s r (fun n sg a b => addResult n sg r.fn.toNat (intOf n sg a + intOf n sg b))

/-- ISUB (R237). -/
def execIsub (r : Record) (s : State) : Host.Outcome State Fault Refusal :=
  intOp2 s r (fun n sg a b => addResult n sg r.fn.toNat (intOf n sg a - intOf n sg b))

/-- IMUL (R237). -/
def execImul (r : Record) (s : State) : Host.Outcome State Fault Refusal :=
  intOp2 s r (fun n sg a b => mulResult n sg r.fn.toNat (intOf n sg a * intOf n sg b))

/-- IMAD (R237). -/
def execImad (r : Record) (s : State) : Host.Outcome State Fault Refusal :=
  laneOp s r r.ty (fun k l =>
    let n := elemBits r.ty
    let sg := elemSigned r.ty
    ⟨perElem r.ty (fun a b c => mulResult n sg r.fn.toNat (intOf n sg a * intOf n sg b + intOf n sg c))
      (opA s k r r.ty l) (opB s k r r.ty l) (opC s k r r.ty l), 0⟩)

/-- IDIV (R238). -/
def execIdiv (r : Record) (s : State) : Host.Outcome State Fault Refusal :=
  intOp2 s r (fun n sg a b => divResult n sg (r.fn.toNat = 1) a b)

/-- IMIN (R239). -/
def execImin (r : Record) (s : State) : Host.Outcome State Fault Refusal :=
  intOp2 s r (fun n sg a b => if intOf n sg b < intOf n sg a then b else a)

/-- IMAX (R239). -/
def execImax (r : Record) (s : State) : Host.Outcome State Fault Refusal :=
  intOp2 s r (fun n sg a b => if intOf n sg a < intOf n sg b then b else a)

/-- IABS (R239). -/
def execIabs (r : Record) (s : State) : Host.Outcome State Fault Refusal :=
  laneOp s r r.ty (fun k l =>
    ⟨perElem r.ty (fun a _ _ => absResult (elemBits r.ty) (elemSigned r.ty) (r.fn.toNat = 1) a) (opA s k r r.ty l) 0 0, 0⟩)

/-- AND (R240). -/
def execAnd (r : Record) (s : State) : Host.Outcome State Fault Refusal :=
  laneOp s r r.ty (fun k l => ⟨opA s k r r.ty l &&& opB s k r r.ty l, 0⟩)

/-- OR (R240). -/
def execOr (r : Record) (s : State) : Host.Outcome State Fault Refusal :=
  laneOp s r r.ty (fun k l => ⟨opA s k r r.ty l ||| opB s k r r.ty l, 0⟩)

/-- XOR (R240). -/
def execXor (r : Record) (s : State) : Host.Outcome State Fault Refusal :=
  laneOp s r r.ty (fun k l => ⟨opA s k r r.ty l ^^^ opB s k r r.ty l, 0⟩)

/-- ANDN (R240). -/
def execAndn (r : Record) (s : State) : Host.Outcome State Fault Refusal :=
  laneOp s r r.ty (fun k l => ⟨opA s k r r.ty l &&& ~~~opB s k r r.ty l, 0⟩)

/-- SHL (R241). -/
def execShl (r : Record) (s : State) : Host.Outcome State Fault Refusal :=
  intOp2 s r (fun n _ a b => if n ≤ b then 0 else a * 2 ^ b % 2 ^ n)

/-- SHR (R241). -/
def execShr (r : Record) (s : State) : Host.Outcome State Fault Refusal :=
  intOp2 s r (fun n _ a b => shrResult n (r.fn.toNat = 1) a b)

/-- FSHF (R242). -/
def execFshf (r : Record) (s : State) : Host.Outcome State Fault Refusal :=
  laneOp s r r.ty (fun k l =>
    ⟨BitVec.ofNat 64 (fshfResult (elemBits r.ty) (r.fn.toNat = 1) (opA s k r r.ty l).toNat (opB s k r r.ty l).toNat
      (opC s k r r.ty l).toNat), 0⟩)

/-- BCNT (R243). -/
def execBcnt (r : Record) (s : State) : Host.Outcome State Fault Refusal :=
  laneOp s r r.ty (fun k l => ⟨BitVec.ofNat 64 (bcntResult (elemBits r.ty) r.fn.toNat (opA s k r r.ty l).toNat), 0⟩)

/-- BFX (R244). -/
def execBfx (r : Record) (s : State) : Host.Outcome State Fault Refusal :=
  laneOp s r r.ty (fun k l =>
    ⟨BitVec.ofNat 64 (bfxResult (elemBits r.ty) r.fn.toNat (opA s k r r.ty l).toNat (opB s k r r.ty l).toNat
      (opC s k r r.ty l).toNat), 0⟩)

/-- ICMP (R245). -/
def execIcmp (r : Record) (s : State) : Host.Outcome State Fault Refusal :=
  laneOp s r .pred (fun k l =>
    ⟨predWord (icmpHolds r.ty r.fn.toNat (opA s k r r.ty l).toNat (opB s k r r.ty l).toNat), 0⟩)

/-- SEL (R246). -/
def execSel (r : Record) (s : State) : Host.Outcome State Fault Refusal :=
  laneOp s r r.ty (fun k l => ⟨if (opC s k r .pred l).getLsbD 0 then opA s k r r.ty l else opB s k r r.ty l, 0⟩)

/-- LEA (R247). -/
def execLea (r : Record) (s : State) : Host.Outcome State Fault Refusal :=
  laneOp s r .b64 (fun k l => ⟨opA s k r .b64 l + (opB s k r .i64 l <<< r.fn.toNat), 0⟩)

/-- MOV and MOV.hi (R248): .hi takes the high 8 bytes of the two-value record before it. -/
def execMov (r : Record) (s : State) : Host.Outcome State Fault Refusal :=
  laneOp s r r.ty (fun k l => ⟨captureValue s k (.mov r) 0 l, 0⟩)

end Sys2Proof.Machine
end

