-- ==== Sys2Proof/Machine/Sfn.lean ====
section
/-! DEFINITION. Special functions (R229 to R233): fixed-point evaluation of the exact functions, the compatibility
renderings, and the bound renderings as a free value held to the bound of R230. -/

namespace Sys2Proof.Machine

/-! ## Fixed point: integers over 2^320 -/

/-- Fraction bits of the fixed-point evaluation. -/
abbrev fxBits : Nat := 320
/-- One. -/
def fxOne : Int := (2 ^ fxBits : Nat)
/-- Product, floored. -/
def fxMul (a b : Int) : Int := a * b / fxOne
/-- Quotient, floored. -/
def fxDiv (a b : Int) : Int := a * fxOne / b
/-- m·2^e, floored. -/
def fxOfDyadic (m : Int) (e : Int) : Int :=
  if 0 ≤ e then m * (2 ^ (e.toNat + fxBits) : Nat)
  else if -(fxBits : Int) ≤ e then m * (2 ^ (fxBits - (-e).toNat) : Nat)
  else m / (2 ^ ((-e).toNat - fxBits) : Nat)

/-- Sum of u^(2k+1)/(2k+1) with alternating sign `s` (1 or −1): `k` terms to go from term `i`, `p` the power. -/
def fxOddSeries (s : Int) (u2 : Int) : Nat → Nat → Int → Int → Int
  | 0, _, _, acc => acc
  | k + 1, i, p, acc => fxOddSeries s u2 k (i + 1) (s * fxMul p u2) (acc + p / (2 * i + 1 : Nat))

/-- atanh u for |u| ≤ 1/3. -/
def fxAtanh (u : Int) : Int := fxOddSeries 1 (fxMul u u) 110 0 u 0
/-- atan (1/n). -/
def fxAtanInv (n : Int) : Int := fxOddSeries (-1) (fxOne / (n * n)) 140 0 (fxOne / n) 0
/-- ln 2. -/
def fxLn2 : Int := 2 * fxAtanh (fxOne / 3)
/-- π, by Machin's formula. -/
def fxPi : Int := 16 * fxAtanInv 5 - 4 * fxAtanInv 239
/-- ln z for z in [1, 2]. -/
def fxLn (z : Int) : Int := 2 * fxAtanh (fxDiv (z - fxOne) (z + fxOne))

/-- Taylor terms r^i / i!. -/
def fxExpSeries (r : Int) : Nat → Nat → Int → Int → Int
  | 0, _, _, acc => acc
  | k + 1, i, t, acc => fxExpSeries r k (i + 1) (fxMul t r / (i + 1 : Nat)) (acc + t)
/-- e^r for |r| ≤ 1. -/
def fxExp (r : Int) : Int := fxExpSeries r 80 0 fxOne 0

/-- Terms t_i = −t_(i−1) · x² / ((a)(a+1)), a rising by two: sine (from x, a = 2) and cosine (from 1, a = 1). -/
def fxTrigSeries (x2 : Int) : Nat → Nat → Int → Int → Int
  | 0, _, _, acc => acc
  | k + 1, a, t, acc => fxTrigSeries x2 k (a + 2) (-(fxMul t x2) / (a * (a + 1) : Nat)) (acc + t)
/-- sin x for |x| ≤ 2π. -/
def fxSin (x : Int) : Int := fxTrigSeries (fxMul x x) 70 2 x 0
/-- cos x for |x| ≤ 2π. -/
def fxCos (x : Int) : Int := fxTrigSeries (fxMul x x) 70 1 fxOne 0

/-- Newton's iteration for the integer square root, from above. -/
def isqrtFrom (n : Nat) : Nat → Nat → Nat
  | 0, x => x
  | k + 1, x =>
    let y := (x + n / x) / 2
    if x ≤ y then x else isqrtFrom n k y
/-- The integer square root. -/
def isqrt (n : Nat) : Nat := if n = 0 then 0 else isqrtFrom n 4000 (2 ^ (Nat.log2 n / 2 + 1))
/-- √z of a fixed-point number. -/
def fxSqrt (z : Int) : Int := isqrt (z.toNat * 2 ^ fxBits)

/-- Terms of erf: t_n = −t_(n−1) z² / n, each over 2n + 1. -/
def fxErfSeries (z2 : Int) : Nat → Nat → Int → Int → Int
  | 0, _, _, acc => acc
  | k + 1, n, t, acc => fxErfSeries z2 k (n + 1) (-(fxMul t z2) / (n + 1 : Nat)) (acc + t / (2 * n + 1 : Nat))
/-- 2/√π. -/
def fxTwoOverRootPi : Int := fxDiv (2 * fxOne) (fxSqrt fxPi)
/-- erf z for 0 ≤ z ≤ 8. -/
def fxErf (z : Int) : Int := fxMul fxTwoOverRootPi (fxErfSeries (fxMul z z) 420 0 z 0)

/-- e^x as (mantissa, power of two): x = n ln 2 + r. -/
def fxExpScaled (x : Int) : Int × Int :=
  let n := x / fxLn2
  (fxExp (x - n * fxLn2), n)

/-- e^x as a fixed-point number, for x ≤ 64. -/
def fxExpPlain (x : Int) : Int :=
  let y := fxExpScaled x
  if 0 ≤ y.2 then y.1 * (2 ^ y.2.toNat : Nat) else if y.2 < -400 then 0 else y.1 / (2 ^ (-y.2).toNat : Nat)

/-! ## Compatibility renderings (R232, R233) -/

/-- A coefficient rounded to f32: the evaluation is first held to 2^−200, far below any half step of f32. -/
def fxToF32 (x : Int) : Nat :=
  let y : Int := (x + (2 ^ (fxBits - 201) : Nat)) / (2 ^ (fxBits - 200) : Nat)
  fpRound fmtF32 .rn false (fvOf (y, -200) false)

/-- The fused multiply-add y·t + c of f32 patterns y and c at an exact t, rounded once with RN-even (R232). -/
def fmaExact (y : Nat) (t : Fv) (c : Nat) : Nat :=
  fpRound fmtF32 .rn false (fvAdd .rn (fvMul (fpDecode fmtF32 y) t) (fpDecode fmtF32 c))

/-- The polynomial of R232 at an exact t. -/
def compatPoly (c0 c1 c2 c3 : Int) (t : Fv) : Nat :=
  fmaExact (fmaExact (fmaExact (fxToF32 c3) t (fxToF32 c2)) t (fxToF32 c1)) t (fxToF32 c0)

/-- t = z − z_k for z = `m`·2^`e` and the edge `k`·2^`g`. -/
def edgeDiff (m : Nat) (e : Int) (k : Nat) (g : Int) : Fv := fvOf (Dyadic.plus ((m : Int), e) (-(k : Int), g)) false

/-- ⌊m·2^e / 2^g⌋. -/
def dyadicFloor (m : Nat) (e g : Int) : Nat := (scaleQuot m 1 e g).1 / (scaleQuot m 1 e g).2

/-- An f32 pattern scaled by 2^k, RN-even where subnormal. -/
def scale32 (x : Nat) (k : Int) : Nat := fpScaleBy fmtF32 .rn x k

/-- exp2 of a finite x that is not 0. -/
def compatExp2 (neg : Bool) (m : Nat) (e : Int) : Nat :=
  if 128 ≤ (Nat.log2 m : Int) + e then (if neg then 0 else fmtF32.infBits.getD 0)
  else if !neg && 7 ≤ (Nat.log2 m : Int) + e then fmtF32.infBits.getD 0
  else if neg && 9 ≤ (Nat.log2 m : Int) + e then 0
  else
    -- x = X·2^−g with an exact X
    let g : Nat := (-e).toNat
    let x : Int := fvSigned neg m * (2 ^ e.toNat : Nat)
    let n := x / (2 ^ g : Nat)
    let z : Nat := (x - n * (2 ^ g : Nat)).toNat
    let k := dyadicFloor z (-(g : Int)) (-6)
    let v := fxExp (fxLn2 * k / 64)
    let l := fxLn2
    let c1 := fxMul v l
    let c2 := fxMul c1 l / 2
    let c3 := fxMul c2 l / 3
    scale32 (compatPoly v c1 c2 c3 (edgeDiff z (-(g : Int)) k (-6))) n

/-- x = z·2^s with z in [1, 2), as (significand, its exponent, s). -/
def normalise (m : Nat) (e : Int) : Nat × Int × Int := (m, -(Nat.log2 m : Int), (Nat.log2 m : Int) + e)

/-- log2 of a positive finite x. -/
def compatLog2 (m : Nat) (e : Int) : Nat :=
  let z := normalise m e
  let k := dyadicFloor z.1 z.2.1 (-6)
  let zk : Int := fxOne * k / 64
  let r := fxDiv fxOne (fxLn2)
  let c0 := fxDiv (fxLn zk) fxLn2
  let c1 := fxDiv r zk
  let c2 := -(fxDiv c1 zk) / 2
  let c3 := fxDiv (fxDiv c1 zk) zk / 3
  let y := compatPoly c0 c1 c2 c3 (edgeDiff z.1 z.2.1 k (-6))
  fpRound fmtF32 .rn false (fvAdd .rn (fvInt z.2.2) (fpDecode fmtF32 y))

/-- rcp of a finite x that is not 0. -/
def compatRcp (neg : Bool) (m : Nat) (e : Int) : Nat :=
  let z := normalise m e
  let k := dyadicFloor z.1 z.2.1 (-6)
  let r : Int := fxOne * 64 / k
  let c2 := fxMul r r
  let y := compatPoly r (-c2) (fxMul c2 r) (-(fxMul c2 c2)) (edgeDiff z.1 z.2.1 k (-6))
  fpSign fmtF32 neg + scale32 y (-z.2.2)

/-- sqrt (`inv` false) or rsqrt of a positive finite x. -/
def compatRoot (inv : Bool) (m : Nat) (e : Int) : Nat :=
  let l : Int := (Nat.log2 m : Int) + e
  let q : Int := l / 2
  let ez : Int := e - 2 * q
  let k6 := dyadicFloor m ez (-6)
  -- the edge in 64ths: every 64th in [1, 2), every 32nd in [2, 4)
  let k := if k6 < 128 then k6 else k6 / 2 * 2
  let zk : Int := fxOne * k / 64
  let rt := fxSqrt zk
  let r := fxDiv fxOne rt
  let rz := fxDiv r zk
  let rzz := fxDiv rz zk
  let t := edgeDiff m ez k (-6)
  if inv then scale32 (compatPoly r (-rz / 2) (3 * rzz / 8) (-(5 * fxDiv rzz zk) / 16) t) (-q)
  else scale32 (compatPoly rt (r / 2) (-rz / 8) (rzz / 16) t) q

/-- x mod 2 of a finite x, in [0, 2), over 2^g. -/
def mod2 (neg : Bool) (m : Nat) (e : Int) : Nat × Nat :=
  let g : Nat := (-e).toNat
  let x : Int := fvSigned neg m * (if 0 ≤ e then (2 ^ e.toNat : Nat) else 1 : Nat)
  ((x % (2 ^ (g + 1) : Nat)).toNat, g)

/-- sinpi (`cos` false) or cospi of a finite x. -/
def compatTrig (cos neg : Bool) (m : Nat) (e : Int) : Nat :=
  let z := mod2 neg m e
  let k := dyadicFloor z.1 (-(z.2 : Int)) (-5)
  let a := fxPi * k / 32
  let sn := fxSin a
  let cs := fxCos a
  let p2 := fxMul fxPi fxPi
  let p3 := fxMul p2 fxPi
  let t := edgeDiff z.1 (-(z.2 : Int)) k (-5)
  if cos then compatPoly cs (-(fxMul fxPi sn)) (-(fxMul p2 cs) / 2) (fxMul p3 sn / 6) t
  else compatPoly sn (fxMul fxPi cs) (-(fxMul p2 sn) / 2) (-(fxMul p3 cs) / 6) t

/-- tanh z of a fixed-point z ≥ 0. -/
def fxTanh (z : Int) : Int :=
  let u := fxExpPlain (-2 * z)
  fxDiv (fxOne - u) (fxOne + u)

/-- tanh of a finite x that is not 0; `bits` is its pattern. -/
def compatTanh (bits : Nat) (neg : Bool) (m : Nat) (e : Int) : Nat :=
  let l : Int := (Nat.log2 m : Int) + e
  if l < -12 then bits
  else if 4 ≤ l then fpSign fmtF32 neg + 0x3F800000
  else
    let k := dyadicFloor m e (l - 6)
    let t := fxTanh (fxOfDyadic k (l - 6))
    let d := fxOne - fxMul t t
    fpSign fmtF32 neg + compatPoly t d (-(fxMul t d)) (fxMul d (3 * fxMul t t - fxOne) / 3) (edgeDiff m e k (l - 6))

/-- erf of a finite x that is not 0. -/
def compatErf (bits : Nat) (neg : Bool) (m : Nat) (e : Int) : Nat :=
  let l : Int := (Nat.log2 m : Int) + e
  if l < -12 then fpMul fmtF32 .rn bits 0x3F906EBB
  else if 2 ≤ l then fpSign fmtF32 neg + 0x3F800000
  else
    let k := dyadicFloor m e (l - 6)
    let z := fxOfDyadic k (l - 6)
    let z2 := fxMul z z
    let d := fxMul fxTwoOverRootPi (fxExpPlain (-z2))
    fpSign fmtF32 neg + compatPoly (fxErf z) d (-(fxMul z d)) (fxMul d (2 * z2 - fxOne) / 3) (edgeDiff m e k (l - 6))

/-- The functions of SFN in the order of FN[3:0] (R183). -/
inductive SfnName where
  | exp2 | log2 | rcp | rsqrt | sqrt | sinpi | cospi | tanh | sigmoid | erf | exp | silu
  deriving DecidableEq, Repr

/-- The function of FN[3:0]; 12 to 15 fail verification. -/
def sfnName (fn : Nat) : SfnName :=
  match fn % 16 with
  | 0 => .exp2 | 1 => .log2 | 2 => .rcp | 3 => .rsqrt | 4 => .sqrt | 5 => .sinpi | 6 => .cospi | 7 => .tanh
  | 8 => .sigmoid | 9 => .erf | 10 => .exp | _ => .silu

/-- The special values of R231, where the operand has one. -/
def sfnSpecial (n : SfnName) (bits : Nat) : Option Nat :=
  let inf := 0x7F800000
  let ninf := 0xFF800000
  let one := 0x3F800000
  let mone := 0xBF800000
  let nz := 0x80000000
  let nan := fmtF32.nanBits
  match fpDecode fmtF32 bits with
  | .nan => some nan
  | .inf false => some (match n with
    | .exp2 | .exp | .log2 | .sqrt | .silu => inf
    | .rcp | .rsqrt => 0
    | .sinpi | .cospi => nan
    | .tanh | .sigmoid | .erf => one)
  | .inf true => some (match n with
    | .exp2 | .exp | .sigmoid => 0
    | .log2 | .rsqrt | .sqrt | .sinpi | .cospi => nan
    | .rcp | .silu => nz
    | .tanh | .erf => mone)
  | .fin neg m e =>
    if m = 0 then some (match n with
      | .exp2 | .exp | .cospi => one
      | .log2 => ninf
      | .rcp | .rsqrt => if neg then ninf else inf
      | .sqrt | .sinpi | .tanh | .erf | .silu => bits
      | .sigmoid => 0x3F000000)
    else if neg && (n = .log2 || n = .rsqrt || n = .sqrt) then some nan
    else
      let z := mod2 neg m e
      if n = .sinpi && z.1 % 2 ^ z.2 = 0 then some (if neg then nz else 0)
      else if n = .cospi && (2 * z.1) % 2 ^ z.2 = 0 && (2 * z.1 / 2 ^ z.2) % 2 = 1 then some 0
      else none

/-- exp by R233: exp2 of the rounded product. -/
def compatExp (bits : Nat) : Nat :=
  let x := fpMul fmtF32 .rn bits 0x3FB8AA3B
  match sfnSpecial .exp2 x with
  | some r => r
  | none =>
    match fpDecode fmtF32 x with
    | .fin neg m e => compatExp2 neg m e
    | _ => fmtF32.nanBits

/-- exp with the special values of R231. -/
def compatExpAll (bits : Nat) : Nat :=
  match sfnSpecial .exp bits with
  | some r => r
  | none => compatExp bits

/-- rcp with the special values of R231. -/
def compatRcpAll (bits : Nat) : Nat :=
  match sfnSpecial .rcp bits with
  | some r => r
  | none =>
    match fpDecode fmtF32 bits with
    | .fin neg m e => compatRcp neg m e
    | _ => fmtF32.nanBits

/-- sigmoid by R233. -/
def compatSigmoid (bits : Nat) : Nat :=
  let nx := if bits < 0x80000000 then bits + 0x80000000 else bits - 0x80000000
  compatRcpAll (fpAdd fmtF32 .rn 0x3F800000 (compatExpAll nx))

/-- The compatibility rendering of an f32 operand (R229, R231 to R233). -/
def sfnCompat (n : SfnName) (bits : Nat) : Nat :=
  match sfnSpecial n bits with
  | some r => r
  | none =>
    match fpDecode fmtF32 bits with
    | .fin neg m e =>
      match n with
      | .exp2 => compatExp2 neg m e
      | .log2 => compatLog2 m e
      | .rcp => compatRcp neg m e
      | .rsqrt => compatRoot true m e
      | .sqrt => compatRoot false m e
      | .sinpi => compatTrig false neg m e
      | .cospi => compatTrig true neg m e
      | .tanh => compatTanh bits neg m e
      | .sigmoid => compatSigmoid bits
      | .erf => compatErf bits neg m e
      | .exp => compatExp bits
      | .silu => fpMul fmtF32 .rn bits (compatSigmoid bits)
    | _ => fmtF32.nanBits

/-! ## Bound renderings (R230) -/

/-- The exact function at a finite operand that R231 leaves, as mantissa·2^exponent to some 250 bits. -/
def sfnExact (n : SfnName) (neg : Bool) (m : Nat) (e : Int) : Dyadic :=
  let l : Int := (Nat.log2 m : Int) + e
  let x := fxOfDyadic (fvSigned neg m) e
  let P : Int := -(fxBits : Int)
  let expOf (y : Int) (big : Bool) : Dyadic :=
    if big then (if neg then (1, -4000) else (1, 4000))
    else
      let r := fxExpScaled y
      (r.1, P + r.2)
  let sigm (y : Int) : Int := fxDiv fxOne (fxOne + fxExpPlain (-y))
  match n with
  | .exp2 => expOf (fxMul x fxLn2) (10 ≤ l)
  | .exp => expOf x (10 ≤ l)
  | .log2 => (l * fxOne + fxDiv (fxLn (fxOfDyadic m (e - l))) fxLn2, P)
  | .rcp => (fxDiv (fvSigned neg 1 * fxOne) (fxOfDyadic m (e - l)), P - l)
  | .rsqrt =>
    let q := l / 2
    (fxDiv fxOne (fxSqrt (fxOfDyadic m (e - 2 * q))), P - q)
  | .sqrt =>
    let q := l / 2
    (fxSqrt (fxOfDyadic m (e - 2 * q)), P + q)
  | .sinpi =>
    let z := mod2 neg m e
    if l < -40 then (fvSigned neg m * fxPi, P + e) else (fxSin (fxMul fxPi (fxOfDyadic z.1 (-(z.2 : Int)))), P)
  | .cospi =>
    let z := mod2 neg m e
    (fxCos (fxMul fxPi (fxOfDyadic z.1 (-(z.2 : Int)))), P)
  | .tanh =>
    if 8 ≤ l then (fvSigned neg 1 * (fxOne - 1), P)
    else
      let t := fxTanh (fxOfDyadic m e)
      (if neg then -t else t, P)
  | .erf =>
    if 3 ≤ l then (fvSigned neg 1 * (fxOne - 1), P)
    else
      let t := fxErf (fxOfDyadic m e)
      (if neg then -t else t, P)
  | .sigmoid =>
    if 9 ≤ l then (if neg then (1, -4000) else (fxOne - 1, P))
    else if neg then expOverOnePlus x else (sigm x, P)
  | .silu =>
    if 9 ≤ l then (if neg then (-1, -4000) else (m, e))
    else
      let s : Dyadic := if neg then expOverOnePlus x else (sigm x, P)
      (s.1 * fvSigned neg m, s.2 + e)
where
  /-- e^x / (1 + e^x) for x < 0, with the precision of a scaled e^x. -/
  expOverOnePlus (x : Int) : Dyadic :=
    let r := fxExpScaled x
    (fxDiv r.1 (fxOne + fxExpPlain x), -(fxBits : Int) + r.2)

/-- The step of f32 at an exact magnitude: 2^k as its exponent k. -/
def ulp32 (x : Dyadic) : Int :=
  if x.1 = 0 then -149 else max ((Nat.log2 x.1.natAbs : Int) + x.2 - 23) (-149)

/-- |a − b| ≤ n·2^k. -/
def within (a b : Dyadic) (n : Nat) (k : Int) : Bool :=
  let d := Dyadic.plus a (-b.1, b.2)
  decide (0 ≤ (Dyadic.plus ((n : Int), k) (-(d.1.natAbs : Int), d.2)).1)

/-- A result within the bound of R230 of the exact value; ulps are those of f32 at the exact value. -/
def sfnWithin (n : SfnName) (neg : Bool) (xe : Int) (exact : Dyadic) (c : Nat) : Bool :=
  match fpDecode fmtF32 c with
  | .fin cn cm ce =>
    let v : Dyadic := (fvSigned cn cm, ce)
    let u := ulp32 exact
    match n with
    | .exp2 | .exp | .rsqrt => within v exact 1 u
    | .log2 => within v exact 1 u || ((xe = 0 || xe = -1) && within v exact 1 (-22))
    | .sinpi | .cospi =>
      within v exact 2 u || ((Nat.log2 exact.1.natAbs : Int) + exact.2 < -20 && within v exact 1 (-22))
    | .tanh | .sigmoid | .erf => within v exact 2 u
    | .silu => within v exact 2 u || (neg && within v exact 1 (-22))
    | .rcp | .sqrt => false
  | _ => false

/-- The correctly rounded result at a finite operand that R231 leaves. -/
def sfnRounded (n : SfnName) (neg : Bool) (m : Nat) (e : Int) : Nat := fpRound fmtF32 .rn false (fvOf (sfnExact n neg m e) neg)

/-- The result of a rendering at an f32 operand: the values of R231, elsewhere `f` of the finite operand. -/
def sfnAt (n : SfnName) (bits : Nat) (f : Bool → Nat → Int → Nat) : Nat :=
  match sfnSpecial n bits with
  | some r => r
  | none =>
    match fpDecode fmtF32 bits with
    | .fin neg m e => f neg m e
    | _ => fmtF32.nanBits

/-- A free value at an f32 operand, where it meets the bound of R230, and the correctly rounded result where it does not, for
rcp and sqrt, and where the result overflows or underflows (R230, R231, log entry 8). -/
def sfnHeld (die : Nat) (stepping : BitVec 4) (fn : Nat) (bits : Nat) : Nat :=
  let n := sfnName fn
  sfnAt n bits (fun neg m e =>
    let x := sfnExact n neg m e
    let cr := sfnRounded n neg m e
    if n = .rcp || n = .sqrt || fmtF32.maxBits < cr % 2 ^ 31 || (Nat.log2 x.1.natAbs : Int) + x.2 < -126 then cr
    else
      let c := (Config.sfnBound die stepping (fn % 16) (BitVec.ofNat 32 bits)).toNat
      if sfnWithin n neg ((Nat.log2 m : Int) + e) x c then c else cr)

/-- How a function moves from the finite operand `lo` to the next one above it (R229): it rises (true), it falls, or it turns
between them. -/
def sfnRises (n : SfnName) (lo : Nat) : Option Bool :=
  match fpDecode fmtF32 lo with
  | .fin neg m e =>
    let z := mod2 neg m e
    let small := (Nat.log2 m : Int) + e ≤ 23
    match n with
    | .rcp | .rsqrt => some false
    | .sinpi => if small then some (2 * z.1 < 2 ^ z.2 || 3 * 2 ^ z.2 ≤ 2 * z.1) else none
    | .cospi => if small then some (2 ^ z.2 ≤ z.1) else none
    -- silu turns between the operands of the patterns 0xBFA3A4BA and 0xBFA3A4B9
    | .silu => if lo < 2 ^ 31 || lo < 0xBFA3A4BA then some true else if lo = 0xBFA3A4BA then none else some false
    | _ => some true
  | _ => none

/-- An f32 pattern as a number in the order of its values; both zeros are 0. -/
def f32Key (b : Nat) : Int := if b < 2 ^ 31 then (b : Int) else (2 ^ 31 : Int) - b

/-- A rendering moves as its function does, from an operand to the next one above it. -/
def sfnStepKept (n : SfnName) (f : Nat → Nat) (lo hi : Nat) : Bool :=
  let a := f lo
  let b := f hi
  if a = fmtF32.nanBits || b = fmtF32.nanBits then true
  else
    match sfnRises n lo with
    | some true => decide (f32Key a ≤ f32Key b)
    | some false => decide (f32Key b ≤ f32Key a)
    | none => true

/-- Both steps that start at magnitude `m`: away from zero among the positive and the negative operands. -/
def sfnStepsAt (n : SfnName) (f : Nat → Nat) (m : Nat) : Bool :=
  sfnStepKept n f m (m + 1) && sfnStepKept n f (2 ^ 31 + m + 1) (2 ^ 31 + m)

/-- A property of every number below a bound. -/
def allBelow (p : Nat → Bool) : Nat → Bool
  | 0 => true
  | k + 1 => p k && allBelow p k

/-- A rendering is monotone wherever its function is (R229), the operand next above 0.5 being looked at first. -/
def sfnMonotone (n : SfnName) (f : Nat → Nat) : Bool := sfnStepsAt n f 0x3F000001 && allBelow (sfnStepsAt n f) 0x7F7FFFFF

/-- The bound rendering of an f32 operand (R229, R230): a free value at every operand, where these together are a rendering that
R229 allows, and the correctly rounded result where they are not (log entry 8). -/
def sfnBoundRendering (die : Nat) (stepping : BitVec 4) (fn : Nat) (bits : Nat) : Nat :=
  let n := sfnName fn
  if n = .rcp || n = .sqrt || !sfnMonotone n (sfnHeld die stepping fn) then sfnAt n bits (sfnRounded n)
  else sfnHeld die stepping fn bits

/-- SFN at an operand of TY f16, bf16 or f32 (R229): FN[4] chooses the rendering. -/
def sfnValue (die : Nat) (stepping : BitVec 4) (t : Ty) (fn x : Nat) : Nat :=
  let f := fmtOf t
  let w := fpRound fmtF32 .rn false (fpDecode f (x % 2 ^ f.bits))
  let y := if fn / 16 % 2 = 1 then sfnCompat (sfnName fn) w else sfnBoundRendering die stepping fn w
  if t = .f32 then y else fpRound f .rn false (fpDecode fmtF32 y)

end Sys2Proof.Machine
end

