-- ==== Sys2Proof/Machine/Float.lean ====
section
/-! DEFINITION. Floating-point, conversion, special-function and row records (R249 to R258, R322 to R327): opcodes 0x16 to
0x29. -/

namespace Sys2Proof.Machine

/-- The bits of a scalar operand that its format has (R168). -/
def flBits (f : Fmt) (v : Word) : Nat := v.toNat % 2 ^ f.bits

/-- A pattern as a value: its upper bits are zero (R168). -/
def flVal (n : Nat) : Val := ⟨BitVec.ofNat 64 n, 0⟩

/-- A record of two floating-point operands of its TY. -/
def floatOp2 (s : State) (r : Record) (f : Fmt → Nat → Nat → Nat) : Host.Outcome State Fault Refusal :=
  laneOp s r r.ty (fun k l =>
    let m := fmtOf r.ty
    flVal (f m (flBits m (opA s k r r.ty l)) (flBits m (opB s k r r.ty l))))

/-- FADD (R249). -/
def execFadd (r : Record) (s : State) : Host.Outcome State Fault Refusal :=
  floatOp2 s r (fun f a b => fpAdd f (rndOf r.fn.toNat) a b)

/-- FSUB (R249). -/
def execFsub (r : Record) (s : State) : Host.Outcome State Fault Refusal :=
  floatOp2 s r (fun f a b => fpSub f (rndOf r.fn.toNat) a b)

/-- FMUL (R249). -/
def execFmul (r : Record) (s : State) : Host.Outcome State Fault Refusal :=
  floatOp2 s r (fun f a b => fpMul f (rndOf r.fn.toNat) a b)

/-- FFMA (R249). -/
def execFfma (r : Record) (s : State) : Host.Outcome State Fault Refusal :=
  laneOp s r r.ty (fun k l =>
    let m := fmtOf r.ty
    flVal (fpFma m (rndOf r.fn.toNat) (flBits m (opA s k r r.ty l)) (flBits m (opB s k r r.ty l))
      (flBits m (opC s k r r.ty l))))

/-- FMIN (R250). -/
def execFmin (r : Record) (s : State) : Host.Outcome State Fault Refusal :=
  floatOp2 s r (fun f a b => fpMinMax f false (r.fn.toNat = 1) a b)

/-- FMAX (R250). -/
def execFmax (r : Record) (s : State) : Host.Outcome State Fault Refusal :=
  floatOp2 s r (fun f a b => fpMinMax f true (r.fn.toNat = 1) a b)

/-- FSGN of one value (R251): 0 .copy, 1 .neg, 2 .abs, 3 .xor. -/
def fsgnResult (f : Fmt) (fn a b : Nat) : Nat :=
  let h := 2 ^ (f.bits - 1)
  let sa := a / h % 2
  let sb := b / h % 2
  let sg := if fn = 0 then sb else if fn = 1 then 1 - sa else if fn = 2 then 0 else (sa + sb) % 2
  sg * h + a % h

/-- FSGN (R251). -/
def execFsgn (r : Record) (s : State) : Host.Outcome State Fault Refusal :=
  floatOp2 s r (fun f a b => fsgnResult f r.fn.toNat a b)

/-- FCMP (R252). -/
def execFcmp (r : Record) (s : State) : Host.Outcome State Fault Refusal :=
  laneOp s r .pred (fun k l =>
    let m := fmtOf r.ty
    ⟨predWord (fcmpHolds m r.fn.toNat (flBits m (opA s k r r.ty l)) (flBits m (opB s k r r.ty l))), 0⟩)

/-- FCLS (R253). -/
def execFcls (r : Record) (s : State) : Host.Outcome State Fault Refusal :=
  laneOp s r .n32 (fun k l => flVal (2 ^ fpClass (fmtOf r.ty) (flBits (fmtOf r.ty) (opA s k r r.ty l))))

/-- FRND (R254). -/
def execFrnd (r : Record) (s : State) : Host.Outcome State Fault Refusal :=
  laneOp s r r.ty (fun k l => flVal (fpIntegral (fmtOf r.ty) (rndOf r.fn.toNat) (flBits (fmtOf r.ty) (opA s k r r.ty l))))

/-- FSCL (R255): k is B read as i32. -/
def execFscl (r : Record) (s : State) : Host.Outcome State Fault Refusal :=
  laneOp s r r.ty (fun k l =>
    flVal (fpScaleBy (fmtOf r.ty) (rndOf r.fn.toNat) (flBits (fmtOf r.ty) (opA s k r r.ty l))
      (intOf 32 true (opB s k r .i32 l).toNat)))

/-! ## Conversion and packing -/

/-- CVT of one value (R223, R256). Between integers of one width .sat clamps, as to a narrower one (log entry 12). -/
def cvtResult (src dst : Ty) (fn : Nat) (a : Nat) : Nat :=
  let md := rndOf fn
  let sat := fn / 8 % 2 = 1
  let flt (t : Ty) : Bool := Ty.isFloat t
  let n := elemBits dst
  let half (i : Nat) : Nat := a / 2 ^ (16 * i) % 2 ^ 16
  if dst = .i16x2 then
    let one (i : Nat) : Nat := wrapInt 16 (fvToInt md (intLo 16 true) (intHi 16 true) (fpDecode (fmtOf src) (half i)))
    one 0 + 2 ^ 16 * one 1
  else if src = .i16x2 then
    let one (i : Nat) : Nat := fpRound (fmtOf dst) md sat (fvInt (intOf 16 true (half i)))
    one 0 + 2 ^ 16 * one 1
  else if flt src then
    let x := fpDecode (fmtOf src) (a % 2 ^ (fmtOf src).bits)
    if flt dst then fpRound (fmtOf dst) md sat x
    else wrapInt n (fvToInt md (intLo n (elemSigned dst)) (intHi n (elemSigned dst)) x)
  else
    let v := intOf (elemBits src) (elemSigned src) a
    if flt dst then fpRound (fmtOf dst) md sat (fvInt v)
    else if sat && n ≤ elemBits src then satInt n (elemSigned dst) v
    else wrapInt n v

/-- CVT (R256): B names the source type. -/
def execCvt (r : Record) (s : State) : Host.Outcome State Fault Refusal :=
  laneOp s r r.ty (fun k l =>
    let src := readTy 0x21 r.ty r.fn r.b 0
    flVal (cvtResult src r.ty r.fn.toNat (opA s k r src l).toNat))

/-- PACK of one element (R257). -/
def packElement (t : Ty) (fn a b : Nat) : Nat :=
  let w := if t = .e4m3 || t = .e5m2 then 8 else 16
  let e := if t = .i16x2 then
      (if fn / 8 % 2 = 1 then satInt 16 true (intOf 32 true a) else wrapInt 16 (intOf 32 true a))
    else fpRound (fmtOf t) (rndOf fn) (fn / 8 % 2 = 1) (fpDecode fmtF32 a)
  (b * 2 ^ w + e) % 2 ^ 32

/-- Lane l's element of a block PACK: A as f32, +0 outside active(w) (R257). -/
def packSource (s : State) (k : Ctx) (r : Record) (l : Nat) : Fv :=
  if k.act.contains l then fpDecode fmtF32 (flBits fmtF32 (opA s k r .f32 l)) else .fin false 0 0

/-- The result lanes of PACK.e2m1 (R257): lanes 0 to 3 the plane, lane 4 the outliers. -/
def packE2m1 (s : State) (k : Ctx) (r : Record) (l : Nat) : Nat :=
  let sx := (opC s k r .b32 0).toNat % 256
  let blk := e2m1Block (rndOf r.fn.toNat) sx (allLanes.map (packSource s k r)) ([], [])
  if l < 4 then ((blk.1.drop (8 * l)).take 8).zipIdx.foldl (fun a p => a + p.1 * 16 ^ p.2) 0
  else if l = 4 then blk.2.getD 0 0 + 2 ^ 16 * blk.2.getD 1 0
  else 0

/-- The result lanes of PACK.kb (R257): lanes 0 to 3 the containers of blocks 0 and 1. -/
def packKb (s : State) (k : Ctx) (r : Record) (l : Nat) : Nat :=
  if 4 ≤ l then 0
  else
    let sc := (opC s k r .b32 (l / 2 * 2)).toNat % 2 ^ 16
    let base := 8 * l
    (List.range 8).foldl (fun a j =>
      let mu := if (sc % 256).testBit ((base + j) % 16 / 2) then 1 else 0
      a + kbElement (r.fn.toNat / 8) (rndOf r.fn.toNat) (sc / 256) mu (packSource s k r (base + j)) * 256 ^ j) 0

/-- PACK (R257). -/
def execPack (r : Record) (s : State) : Host.Outcome State Fault Refusal :=
  laneOp s r r.ty (fun k l =>
    if r.ty = .e2m1 then flVal (packE2m1 s k r l)
    else if r.ty = .kb then flVal (packKb s k r l)
    else
      flVal (packElement r.ty r.fn.toNat (opA s k r (if r.ty = .i16x2 then .i32 else .f32) l).toNat
        (opB s k r r.ty l).toNat))

/-- The unscaled value of element `j` of a packed value (R214, R258): an escape code is a NaN. -/
def unpackFv (t : Ty) (mem j : Nat) (a : Nat) : Fv :=
  if t = .e2m1 then
    let code := a / 16 ^ j % 16
    if code = 8 then .nan else e2m1Value code
  else if t = .kb then
    let c := a / 256 ^ j % 256
    .fin (c / 128 = 1) (c % 2 ^ kbBits mem) 0
  else
    let w := (fmtOf t).bits
    fpDecode (fmtOf t) (a / 2 ^ (w * j) % 2 ^ w)

/-- UNPK (R258). -/
def execUnpk (r : Record) (s : State) : Host.Outcome State Fault Refusal :=
  laneOp s r (resTy 0x23 r.ty) (fun k l =>
    let a := (opA s k r r.ty l).toNat
    let j := r.fn.toNat % 8
    if r.ty = .i16x2 then flVal (wrapInt 32 (intOf 16 true (a / 2 ^ (16 * j))))
    else flVal (fpRound fmtF32 .rn false (unpackFv r.ty (r.fn.toNat / 8) j a)))

/-- DOTP (R322): the exact chunk sum of the lane's products, added to C. -/
def execDotp (r : Record) (s : State) : Host.Outcome State Fault Refusal :=
  laneOp s r .f32 (fun k l =>
    let a := (opA s k r r.ty l).toNat
    let b := (opB s k r r.ty l).toNat
    let mem := r.fn.toNat / 8
    flVal (chunkInto (flBits fmtF32 (opC s k r .f32 l))
      ((List.range r.ty.elements).map (fun j => fvMul (unpackFv r.ty mem j a) (unpackFv r.ty mem j b)))))

/-- SFN (R323). -/
def execSfn (r : Record) (s : State) : Host.Outcome State Fault Refusal :=
  laneOp s r r.ty (fun k l =>
    let d := coreDie k.core
    flVal (sfnValue d (dieOf s d).stepping r.ty r.fn.toNat (flBits (fmtOf r.ty) (opA s k r r.ty l))))

/-! ## Row operations (R324) -/

/-- The row width of FN (R324). -/
def rowWidth (r : Record) : Nat := if r.fn.toNat = 0 then 32 else if r.fn.toNat = 1 then 16 else 8

/-- A leaf as f32: present in an active lane whose mask bit, where there is a mask, is 1 (R324). -/
def rowLeaf (s : State) (k : Ctx) (r : Record) (masked : Bool) (l : Nat) : Option Nat :=
  if k.act.contains l && (!masked || r.b = .absent || (opB s k r .pred l).getLsbD 0) then
    some (fpRound fmtF32 .rn false (fpDecode (fmtOf r.ty) (flBits (fmtOf r.ty) (opA s k r r.ty l))))
  else none

/-- The leaves of the row of a lane. -/
def rowLeaves (s : State) (k : Ctx) (r : Record) (masked : Bool) (l : Nat) : List (Option Nat) :=
  (List.range (rowWidth r)).map (fun i => rowLeaf s k r masked (l / rowWidth r * rowWidth r + i))

/-- An f32 result rounded to TY (R324). -/
def rowRound (t : Ty) (y : Nat) : Nat := fpRound (fmtOf t) .rn false (fpDecode fmtF32 y)

/-- ROWMAX (R325). -/
def execRowmax (r : Record) (s : State) : Host.Outcome State Fault Refusal :=
  laneOp s r r.ty (fun k l => flVal (rowRound r.ty (rowLargest fmtF32 (rowLeaves s k r true l))))

/-- ROWSUM (R325). -/
def execRowsum (r : Record) (s : State) : Host.Outcome State Fault Refusal :=
  laneOp s r r.ty (fun k l => flVal (rowRound r.ty (treeSum fmtF32 (rowLeaves s k r true l))))

/-- The quotient of two positive f32 values, rounded once to TY. -/
def fpQuot (t : Ty) (a b : Nat) : Nat :=
  match fpDecode fmtF32 a, fpDecode fmtF32 b with
  | .fin _ m e, .fin _ n g => if n = 0 then (fmtOf t).nanBits else roundRatio (fmtOf t) .rn false false m n (e - g)
  | _, _ => (fmtOf t).nanBits

/-- +∞ and −∞ of binary32. -/
abbrev f32Inf : Nat := 0x7F800000
abbrev f32NegInf : Nat := 0xFF800000

/-- SMAX of a lane (R326): its own leaf and the leaves of its row. -/
def smaxResult (t : Ty) (own : Option Nat) (row : List (Option Nat)) : Nat :=
  let p := row.filterMap id
  let infs := (p.filter (fun x => x = f32Inf)).length
  let fin (x : Option Nat) : Option Nat := match x with
    | some v => if v = f32NegInf then none else some v
    | none => none
  let f := row.map fin
  if p.any (fun x => fvNan (fpDecode fmtF32 x)) then (fmtOf t).nanBits
  else if 0 < infs then
    (if own = some f32Inf then roundRatio (fmtOf t) .rn false false 1 infs 0 else 0)
  else if (f.filterMap id) = [] then 0
  else
    let m := rowLargest fmtF32 f
    let e (x : Nat) : Nat := sfnCompat .exp (fpSub fmtF32 .rn x m)
    let sum := treeSum fmtF32 (f.map (fun x => x.map e))
    match own.bind (fun x => fin (some x)) with
    | some x => fpQuot t (e x) sum
    | none => 0

/-- SMAX (R326). -/
def execSmax (r : Record) (s : State) : Host.Outcome State Fault Refusal :=
  laneOp s r r.ty (fun k l => flVal (smaxResult r.ty (rowLeaf s k r true l) (rowLeaves s k r true l)))

/-- RMSN (R327). -/
def execRmsn (r : Record) (s : State) : Host.Outcome State Fault Refusal :=
  laneOp s r r.ty (fun k l =>
    let row := rowLeaves s k r false l
    let x := (rowLeaf s k r false l).getD 0
    let n := (row.filterMap id).length
    let sq := treeSum fmtF32 (row.map (fun o => o.map (fun y => fpMul fmtF32 .rn y y)))
    let mean := match fpDecode fmtF32 sq with
      | .fin neg m e => roundRatio fmtF32 .rn false neg m (if n = 0 then 1 else n) e
      | _ => sq
    let eps := if r.b = .absent then 0 else flBits fmtF32 (opB s k r .f32 l)
    let v := fpAdd fmtF32 .rn mean eps
    let y := fpMul fmtF32 .rn x (sfnCompat .rsqrt v)
    flVal (rowRound r.ty (if r.c = .absent then y else fpMul fmtF32 .rn y (flBits fmtF32 (opC s k r .f32 l)))))

end Sys2Proof.Machine
end

