-- ==== Sys2Proof/Machine/Lanes.lean ====
section
/-! DEFINITION. Records across lanes and on special state (R259 to R266, R278): opcodes 0x2A to 0x31, and FEAT. -/

namespace Sys2Proof.Machine

/-- The source lane of SHFL (R259): 0 .idx, 1 .up, 2 .down, 3 .xor. -/
def shflLane (fn w l x : Nat) : Nat :=
  let g := l - l % w
  let i := l % w
  if fn = 0 then g + x % w
  else if fn = 1 then (if x ≤ i then l - x else l)
  else if fn = 2 then (if i + x < w then l + x else l)
  else g + Nat.xor i x % w

/-- SHFL (R259). -/
def execShfl (r : Record) (s : State) : Host.Outcome State Fault Refusal :=
  laneOp s r r.ty (fun k l =>
    let w := if r.c = .absent then 32 else (opC s k r .b32 l).toNat
    let j := shflLane r.fn.toNat w l (opB s k r r.ty l).toNat
    ⟨if k.act.contains j then opA s k r r.ty j else 0, 0⟩)

/-- VOTE (R260): 0 .all, 1 .any, 2 .ballot, 3 .eq. -/
def voteValue (fn : Nat) (act : List Nat) (p : Nat → Bool) : Word :=
  if fn = 0 then predWord (act.all p)
  else if fn = 1 then predWord (act.any p)
  else if fn = 2 then (maskOf (act.filter p)).setWidth 64
  else predWord (act.all p || !act.any p)

/-- VOTE (R260). -/
def execVote (r : Record) (s : State) : Host.Outcome State Fault Refusal :=
  waveOp s r.ty (fun k => ⟨voteValue r.fn.toNat k.act (fun l => (opA s k r .pred l).getLsbD 0), 0⟩)

/-- One step of an integer reduction (R261, R262): 0 add, 1 min, 2 max, 3 and, 4 or, 5 xor, on patterns of n bits. -/
def intStep (op n : Nat) (sg : Bool) (a b : Nat) : Nat :=
  match op with
  | 0 => wrapInt n (intOf n sg a + intOf n sg b)
  | 1 => if intOf n sg b < intOf n sg a then b else a
  | 2 => if intOf n sg a < intOf n sg b then b else a
  | 3 => Nat.land a b
  | 4 => Nat.lor a b
  | _ => Nat.xor a b

/-- One step of a floating-point reduction: 0 add, 1 min, 2 max with .num. -/
def fltStep (f : Fmt) (op a b : Nat) : Nat :=
  if op = 0 then fpAdd f .rn a b else fpMinMax f (op = 2) false a b

/-- A NaN made canonical (R213). -/
def fpCanon (f : Fmt) (a : Nat) : Nat := fpRound f .rn false (fpDecode f a)

/-- A combination of values in order; none of an empty list. -/
def foldSteps (g : Nat → Nat → Nat) : List Nat → Option Nat
  | [] => none
  | x :: r => some (r.foldl g x)

/-- REDL (R261): integers and minima fold; floating-point sums take the tree of R228 over 32 lanes, in f64 for f64 and in
f32 otherwise, rounded once. -/
def redlValue (t : Ty) (op : Nat) (act : List Nat) (a : Nat → Nat) : Nat :=
  if t.isFlt then
    let f := fmtOf t
    if op = 0 then
      let g := if t = .f64 then fmtF64 else fmtF32
      let leaf (l : Nat) : Option Nat :=
        if act.contains l then some (fpRound g .rn false (fpDecode f (a l % 2 ^ f.bits))) else none
      fpRound f .rn false (fpDecode g (treeSum g (allLanes.map leaf)))
    else ((foldSteps (fltStep f op) (act.map (fun l => a l % 2 ^ f.bits))).map (fpCanon f)).getD 0
  else (foldSteps (intStep op (elemBits t) (elemSigned t)) (act.map a)).getD 0

/-- REDL (R261). -/
def execRedl (r : Record) (s : State) : Host.Outcome State Fault Refusal :=
  waveOp s r.ty (fun k => flVal (redlValue r.ty r.fn.toNat k.act (fun l => (opA s k r r.ty l).toNat)))

/-- The identity of a scan (R262). -/
def scanIdentity (t : Ty) (op : Nat) : Nat :=
  if t.isFlt then
    (if op = 1 then fpInf (fmtOf t) false else if op = 2 then fpInf (fmtOf t) true else 0)
  else
    let n := elemBits t
    match op with
    | 1 => wrapInt n (intHi n (elemSigned t))
    | 2 => wrapInt n (intLo n (elemSigned t))
    | 3 => 2 ^ n - 1
    | _ => 0

/-- SCNL of a lane (R262): the lanes at or below it, or with .excl below it, ascending. -/
def scnlValue (t : Ty) (fn : Nat) (act : List Nat) (a : Nat → Nat) (l : Nat) : Nat :=
  let op := fn % 8
  let ls := act.filter (fun i => if fn / 8 = 1 then decide (i < l) else decide (i ≤ l))
  if t.isFlt then
    let f := fmtOf t
    ((foldSteps (fltStep f op) (ls.map (fun i => a i % 2 ^ f.bits))).map (fpCanon f)).getD (scanIdentity t op)
  else (foldSteps (intStep op (elemBits t) (elemSigned t)) (ls.map a)).getD (scanIdentity t op)

/-- SCNL (R262). -/
def execScnl (r : Record) (s : State) : Host.Outcome State Fault Refusal :=
  laneOp s r r.ty (fun k l => flVal (scnlValue r.ty r.fn.toNat k.act (fun i => (opA s k r r.ty i).toNat) l))

/-- The constant an operand names: an index, a selector, a group or a stream. -/
def constOf (o : Opnd) : Nat :=
  match o with
  | .imm v => v.toInt.toNat
  | .dimm v => v.toNat
  | _ => 0

/-- GETS (R263). -/
def execGets (r : Record) (s : State) : Host.Outcome State Fault Refusal :=
  laneOp s r r.ty (fun k l => ⟨specialState s k (constOf r.a) l, 0⟩)

/-- UNIF (R264). -/
def execUnif (r : Record) (s : State) : Host.Outcome State Fault Refusal :=
  waveOp s r.ty (fun k => ⟨opA s k r r.ty (k.act.headD 0), 0⟩)

/-- The keep slot of each lane as it stands is put aside with the record, where the record stands in a region's SIMT reading
(R53). -/
def keepAside (s : State) (k : Ctx) (n : Nat) : State :=
  if s.cur.kind ≠ 2 then s
  else
    let old := k.lanes.map (fun l => (s.cur.rcd * 32 + l, Val.mk 0 (keepGet (coreOf s k.core) k.wave n l)))
    onWave s k.core k.w (fun v => writeVals v old)

/-- KEEP (R265): a keep slot of each active lane, or a uniform slot; a die word writes its destination pair. -/
def execKeep (r : Record) (s : State) : Host.Outcome State Fault Refusal :=
  onSlot s (fun k =>
    let val (l : Nat) : Word := extendValue r.ty (opB s k r r.ty l)
    match r.a with
    | .keep n => advance (writeKeep (keepAside s k n.toNat) k.core k.w k.x n.toNat (k.lanes.map (fun l => (l, val l)))) k
    | .unif n => advance (writeUni s k.core k.w k.x n.toNat (val k.low)) k
    | _ =>
      advance (writeResults s k .b64 (k.lanes.map (fun l => (l, Val.mk (extendValue r.ty (opA s k r r.ty l)) 0)))) k)

/-- One result byte of BYSW (R266): the pool of 8 bytes, the control byte. -/
def byswByte (pool c : Nat) : Nat :=
  let b := pool / 256 ^ (c % 8) % 256
  match c / 8 % 4 with
  | 0 => b
  | 1 => 0
  | 2 => if b / 128 = 1 then 255 else 0
  | _ => (List.range 8).foldl (fun a i => a + (if b.testBit i then 2 ^ (7 - i) else 0)) 0

/-- BYSW (R266). -/
def execBysw (r : Record) (s : State) : Host.Outcome State Fault Refusal :=
  laneOp s r .b32 (fun k l =>
    let pool := (opA s k r .b32 l).toNat + (opB s k r .b32 l).toNat * 2 ^ 32
    let c := (opC s k r .b32 l).toNat
    flVal ((List.range 4).foldl (fun a i => a + byswByte pool (c / 256 ^ i % 256) * 256 ^ i) 0))

/-- The die runs at full service: 4-bit matrix formats are usable (R278, R320, R355). -/
def fourBit (s : State) (die : Nat) : Bool := s.stage = 3 || (s.stage = 2 && die ≠ 0)

/-- The feature words (R278): 0 .port, 1 .die, 2 .step. -/
def featWord (s : State) (k : Ctx) (fn : Nat) : Word :=
  let d := coreDie k.core
  let q := dieOf s d
  match fn with
  | 0 => BitVec.ofNat 64 (1 + (if fourBit s d then 2 ^ 16 else 0) + 2 ^ 17 + 2 ^ 18)
  | 1 => BitVec.ofNat 64 (d + q.stepping.toNat * 2 ^ 4 + q.stepset.toNat * 2 ^ 16)
  | _ => BitVec.ofNat 64 (k.wave.step.toNat + q.stepping.toNat * 2 ^ 4)

/-- FEAT (R278). -/
def execFeat (r : Record) (s : State) : Host.Outcome State Fault Refusal :=
  laneOp s r .n64 (fun k _ => ⟨featWord s k r.fn.toNat, 0⟩)

end Sys2Proof.Machine
end

