-- ==== Sys2Proof/Machine/Control.lean ====
section
/-! DEFINITION. Control records (R267 to R277), the divergence word DSPL (R205), the marker (R199) and binding (R273):
opcodes 0x32 to 0x3C. -/

namespace Sys2Proof.Machine

/-- A control target (R173): an IMM13, the low 16 bits of a LIT, or the target of a die word. -/
def targetBlock (s : State) (o : Opnd) : Nat :=
  match o with
  | .imm v => v.toInt.toNat
  | .lit n => (s.cur.lits.getD n.toNat 0).toNat % 2 ^ 16
  | .dimm v => v.toNat % 2 ^ 16
  | _ => 0xFFFF

/-- The join block an operand names; 0xFFFF where it is absent. -/
def joinBlock (s : State) (o : Opnd) : Nat := if o = .absent then 0xFFFF else targetBlock s o

/-- The record has completed and its slot goes on, re-injected or not (R162, R361). -/
def stepOn (s : State) (k : Ctx) : State := onWave s k.core k.w (fun v => stepSlot s.cur v k.x)

/-- The slot moves to record 0 of a block. -/
def goTo (s : State) (k : Ctx) (b : Nat) : State := onWave s k.core k.w (fun v => moveSlot v k.x b 0)

/-- A record that leaves its block ends a carriage: the carriage commits first, and the record then issues (R42). -/
def afterCommit (s : State) (k : Ctx) (f : State) : State :=
  if (slotOf k.wave k.x).car.isSome then slotWaits s k.core k.w k.x .stalled .commit else f

/-- The sibling of a slot. -/
def sibling (x : Nat) : Nat := 1 - x

/-- The sibling's path is pushed and the sibling is EMPTY (R27): a carriage of it is discarded, a held arrival taken back. -/
def spillSibling (s : State) (c w y : Nat) : State :=
  let s := carriageDiscard s (c, w, y) false
  let s := onCore s c (fun k => unholdSlot k w y)
  onWave s c w (fun v =>
    if (slotOf v y).st = .empty then v
    else
      let t := slotOf v y
      putSlot { v with div := siblingEntries v t ++ v.div, divRan := spilledRan t ++ v.divRan } y Slot.reset)

/-- Entries that spilling the sibling pushes. -/
def spillCost (v : Wave) (y : Nat) : Nat := if (slotOf v y).st = .empty then 0 else (siblingEntries v (slotOf v y)).length

/-- What must hold before a record pushes `n` entries and takes the sibling's slot: none when it may go on. -/
def divergeHeld (s : State) (k : Ctx) (i : Instr) (n : Nat) (spills : Bool) : Option State :=
  let y := sibling k.x
  if spills && siblingState s k.core k.w k.wave y = .holds then
    some (slotWaits s k.core k.w k.x .stalled .sibling)
  else if 64 < divCount k.wave + n + (if spills then spillCost k.wave y else 0) then
    some (trapState s k i causeSpillOverflow 0)
  else none

/-- After a BRC that has ended a carriage, the rest of the block is a carriage of its own for the lanes that go on there (log
entry 11). -/
def restCarriage (v : Wave) (x : Nat) : Wave :=
  let t := slotOf v x
  putSlot v x (if t.car.isNone then { t with car := carriageAt v t.blk t.rcd t.mask } else t)

/-- R27: the not-taken lanes keep the slot at the record after, the taken lanes take the sibling's slot. -/
def diverge (s : State) (k : Ctx) (taken : W32) (target join : Nat) : State :=
  let y := sibling k.x
  let cyc := (coreOf s k.core).cycle
  let s := onWave s k.core k.w (fun v =>
    { v with div := .join join (slotOf v k.x).mask 0 (slotOf v k.x).jblk :: v.div })
  let s := spillSibling s k.core k.w y
  onWave s k.core k.w (fun v =>
    let t := slotOf v k.x
    let v := dropValues v taken
    let v := putSlot v k.x { t with mask := t.mask &&& ~~~taken, jblk := join }
    let v := restCarriage (stepSlot s.cur v k.x) k.x
    putSlot v y (pathSlot v cyc target 0 taken join))

/-- BRC with its taken set known (R268), and LOOP of a plain block (R270). -/
def branch (s : State) (k : Ctx) (i : Instr) (taken : W32) (target join : Nat) : State :=
  let p := maskOf k.lanes
  if taken = 0 then stepOn s k
  else
    afterCommit s k
      (if taken = p then goTo s k target
      else
        match divergeHeld s k i 1 true with
        | some s' => s'
        | none => diverge s k taken target join)

/-- The lanes whose predicate B has a value. -/
def takenLanes (s : State) (k : Ctx) (r : Record) (want : Bool) : W32 :=
  maskOf (k.lanes.filter (fun l => (opB s k r .pred l).getLsbD 0 = want))

/-- A die word leaves its divergence work to the DSPL that follows it (R205). -/
def pendDspl (s : State) (k : Ctx) (p : Pending) : State := onSlotOf (advance s k) k.core k.w k.x (fun t => { t with dspl := some p })

/-- The issuing word is a die word of explicit code. -/
def isDie (s : State) : Bool := s.cur.form.dword.isSome

/-- The divergence area on chip, where a record needs its entries: INTEGRITY where an entry is damaged (R26). -/
def withDivergence (s : State) (k : Ctx) (i : Instr) (f : State → Ctx → State) : State :=
  match divLoad s k.core k.w with
  | none => trapState s k i causeIntegrity k.wave.privBase
  | some s' =>
    match ctxOf s' with
    | some k' => f s' k'
    | none => s'

/-- BR (R267). -/
def execBr (r : Record) (s : State) : Host.Outcome State Fault Refusal :=
  onSlot s (fun k => afterCommit s k (goTo s k (targetBlock s r.a)))

/-- BRC (R268): FN 0 takes on true, 1 on false. -/
def execBrc (r : Record) (s : State) : Host.Outcome State Fault Refusal :=
  onSlot s (fun k =>
    let t := takenLanes s k r (r.fn = 0)
    if isDie s then pendDspl s k ⟨0, t, targetBlock s r.a, joinBlock s r.c⟩
    else branch s k (.brc r) t (targetBlock s r.a) (joinBlock s r.c))

/-- R28 at a JOIN: a path whose own reconvergence block is another passes over it. -/
def joinWork (s : State) (k : Ctx) (i : Instr) : State :=
  if k.slot.jblk ≠ k.slot.blk then stepOn s k
  else
    withDivergence s k i (fun s k =>
      match arriveJoin k.wave (coreOf s k.core).cycle k.x with
      | some v => setWave s k.core k.w (some v)
      | none => trapState s k i causeIntegrity k.wave.privBase)

/-- JOIN (R269, R28). -/
def execJoin (r : Record) (s : State) : Host.Outcome State Fault Refusal :=
  onSlot s (fun k => if isDie s then pendDspl s k ⟨1, 0, 0, 0⟩ else joinWork s k (.join r))

/-- LOOP of a coupled region run as its SIMT reading (R270): not-taken lanes are held; when none is taken every held lane
rejoins. -/
def loopSimt (s : State) (k : Ctx) (taken : W32) : State :=
  let p := maskOf k.lanes
  if taken = 0 then
    let s := onSlotOf s k.core k.w k.x (fun t => { t with mask := t.mask ||| t.held, held := 0 })
    stepOn s k
  else
    onWave s k.core k.w (fun v =>
      let t := slotOf v k.x
      putSlot (dropValues v p) k.x
        { t with mask := taken, held := t.held ||| (p &&& ~~~taken), rcd := 1, woff := 0, ub := false, dlit := none,
                 dspl := none, dieAt := none, ran := ([], []) })

/-- LOOP (R270) in a plain or coupled block. -/
def execLoop (r : Record) (s : State) : Host.Outcome State Fault Refusal :=
  onSlot s (fun k =>
    let t := takenLanes s k r true
    if s.cur.kind = 2 then loopSimt s k t
    else branch s k (.loop r) t k.slot.blk (joinBlock s r.c))

/-- CALL (R271): the link is the portable address of record 0 of the following block. -/
def execCall (r : Record) (s : State) : Host.Outcome State Fault Refusal :=
  onSlot s (fun k =>
    let link := blockAddr k.wave (k.slot.blk + 1)
    let s := match pairOf k r.b with
      | some n => writeRegs s k.core k.w k.x (pairWrites n (k.lanes.map (fun l => (l, link))))
      | none => s
    goTo s k (targetBlock s r.a))

/-! ## Targets that are values (R272 to R274) -/

/-- The form of a target value (R272). -/
inductive CallTarget where
  | block (b : Nat)
  | stub
  | bad
  deriving DecidableEq, Repr

/-- The block of the module whose record 0 stands at an address, where a target or link may name it. -/
def callableAt (v : Wave) (a : Word) : Option Nat := findAt (fun i => i.addr = a && callable i) v.table 0

/-- The form of a CALLI target (R272). -/
def callTarget (v : Wave) (a : Word) : CallTarget :=
  if a.toNat / 2 ^ 32 = 0xC0000000 then .stub
  else
    match callableAt v a with
    | some b => .block b
    | none => .bad

/-- The form of a link (R274): a stub handle is no link. -/
def linkTarget (v : Wave) (a : Word) : CallTarget :=
  match callableAt v a with
  | some b => .block b
  | none => .bad

/-- Inserts into a list of groups by ascending value. -/
def insertGroup (a : Word) (l : Nat) : List (Word × W32) → List (Word × W32)
  | [] => [(a, laneBit l)]
  | (b, m) :: r =>
    if a = b then (b, m ||| laneBit l) :: r
    else if a.toNat < b.toNat then (a, laneBit l) :: (b, m) :: r
    else (b, m) :: insertGroup a l r

/-- The lanes grouped by a 64-bit value, ascending (R272, R274). -/
def groupLanes (f : Nat → Word) (ls : List Nat) : List (Word × W32) :=
  ls.foldl (fun g l => insertGroup (f l) l g) []

/-- A slot at a group's target; a group that binds, or whose target is bad, stands at the record itself (R273, R393). -/
def groupSlot (v : Wave) (cyc blk rcd : Nat) (car : Option Carriage) (tg : Word → CallTarget) (g : Word × W32)
    (jblk : Nat) : Slot :=
  match tg g.1 with
  | .block b => pathSlot v cyc b 0 g.2 jblk
  | .stub => { pathSlot v cyc blk rcd g.2 jblk with st := .stalled, wait := .bind g.1, car := car }
  | .bad => { pathSlot v cyc blk rcd g.2 jblk with car := car }

/-- The path entry of a group (R272, R274). -/
def groupEntry (blk rcd : Nat) (tg : Word → CallTarget) (g : Word × W32) (jblk : Nat) : DivEntry :=
  match tg g.1 with
  | .block b => .path 0 b g.2 jblk
  | _ => .path rcd blk g.2 jblk

/-- The values of the lanes whose groups move away are gone. -/
def dropMoved (v : Wave) (tg : Word → CallTarget) (gs : List (Word × W32)) : Wave :=
  gs.foldl (fun v g => match tg g.1 with
    | .block _ => dropValues v g.2
    | _ => v) v

/-- One group: the slot goes to its target, binds, or traps (R272, R273). -/
def oneGroup (s : State) (k : Ctx) (i : Instr) (tg : Word → CallTarget) (g : Word × W32) : State :=
  match tg g.1 with
  | .block b => goTo s k b
  | .stub => slotWaits s k.core k.w k.x .stalled (.bind g.1)
  | .bad => takeTrap s k i causeCallUnbound 0 g.2 0 g.1 0xFF 0

/-- CALLI over more than one group (R272): a reconvergence entry at the following block, the first group in X, the second
in the sibling's slot, the others pushed last-first. -/
def manyCalls (s : State) (k : Ctx) (tg : Word → CallTarget) (gs : List (Word × W32)) : State :=
  let y := sibling k.x
  let cyc := (coreOf s k.core).cycle
  let j := k.slot.blk + 1
  let s := onWave s k.core k.w (fun v =>
    { v with div := .join j (slotOf v k.x).mask 0 (slotOf v k.x).jblk :: v.div })
  let s := spillSibling s k.core k.w y
  onWave s k.core k.w (fun v =>
    let v := dropMoved v tg gs
    let at' (g : Word × W32) : Slot := groupSlot v cyc k.slot.blk k.slot.rcd none tg g j
    let v := { v with div := (gs.drop 2).map (fun g => groupEntry k.slot.blk k.slot.rcd tg g j) ++ v.div }
    let v := putSlot v k.x (at' (gs.getD 0 (0, 0)))
    putSlot v y (at' (gs.getD 1 (0, 0))))

/-- CALLI (R272). -/
def execCalli (r : Record) (s : State) : Host.Outcome State Fault Refusal :=
  onSlot s (fun k =>
    let gs := groupLanes (fun l => opA s k r .b64 l) k.lanes
    let tg := callTarget k.wave
    let link := blockAddr k.wave (k.slot.blk + 1)
    let linked (s : State) : State := match pairOf k r.b with
      | some n => writeRegs s k.core k.w k.x (pairWrites n (k.lanes.map (fun l => (l, link))))
      | none => s
    match gs with
    | [] => stepOn s k
    | [g] => oneGroup (linked s) k (.calli r) tg g
    | _ =>
      match divergeHeld s k (.calli r) (gs.length - 1) true with
      | some s' => s'
      | none => manyCalls (linked s) k tg gs)

/-- RET over more than one group (R274): no reconvergence entry; every group keeps X's reconvergence block. -/
def manyReturns (s : State) (k : Ctx) (tg : Word → CallTarget) (gs : List (Word × W32)) : State :=
  let y := sibling k.x
  let cyc := (coreOf s k.core).cycle
  let jb := k.slot.jblk
  onWave s k.core k.w (fun v =>
    let v := dropMoved v tg gs
    let at' (g : Word × W32) : Slot := groupSlot v cyc k.slot.blk k.slot.rcd none tg g jb
    let entry (g : Word × W32) : DivEntry := groupEntry k.slot.blk k.slot.rcd tg g jb
    let second := gs.getD 1 (0, 0)
    let free := (slotOf v y).st = .empty
    let v := if free then putSlot v y (at' second) else { v with div := entry second :: v.div }
    let v := { v with div := (gs.drop 2).map entry ++ v.div }
    putSlot v k.x (at' (gs.getD 0 (0, 0))))

/-- RET (R274). -/
def execRet (r : Record) (s : State) : Host.Outcome State Fault Refusal :=
  onSlot s (fun k =>
    let gs := groupLanes (fun l => opA s k r .b64 l) k.lanes
    let tg := linkTarget k.wave
    let free := (slotOf k.wave (sibling k.x)).st = .empty
    afterCommit s k
      (match gs with
      | [] => stepOn s k
      | [g] => oneGroup s k (.ret r) tg g
      | _ =>
        match divergeHeld s k (.ret r) (if free then gs.length - 2 else gs.length - 1) false with
        | some s' => s'
        | none => manyReturns s k tg gs))

/-- STUB_BIND (R273): the lowering engine resolves the stub of a slot in binding; the group continues at BASE, or the wave
traps with CALL_UNBOUND at the CALLI. -/
def execStubBind (core slot : Nat) (s : State) : Host.Outcome State Fault Refusal :=
  .next (match waveOf s core (slot / 2) with
  | none => s
  | some v =>
    let x := slot % 2
    let t := slotOf v x
    match t.wait with
    | .bind target =>
      if v.halted || v.parked then s
      else
        let r := resolve s v.part (coreOf s core).world 0 (target.setWidth 32) 3 2 0 0 target
        let base : Option Nat := match r.2 with
          | .ok e => callableAt v e.l.base
          | .error _ => none
        match base with
        | some b =>
          let cyc := (coreOf s core).cycle
          onWave r.1 core (slot / 2) (fun v =>
            let v := moveSlot v x b 0
            putSlot v x { slotOf v x with ready := cyc })
        | none =>
          takeStop r.1 core (slot / 2)
            { cause := causeCallUnbound, stop := 0, x := x, lanes := t.mask, blk := t.blk, rcd := t.rcd, addr := target,
              cmp := 0xFF, late := false, cpl := false, entry := none, grp := 0 } []
    | _ => s)

/-! ## Ends, yields and stops -/

/-- The lane removal of EXIT (R275, R28, R146). -/
def exitWork (s : State) (k : Ctx) (i : Instr) : State :=
  withDivergence s k i (fun s k => endWaveLanes s k.core k.w (maskOf k.lanes) (causeCellShape, k.slot.blk, k.slot.rcd))

/-- EXIT outside a carriage; in one the carriage commits at once, and the EXIT with it (R275). -/
def exitRecord (s : State) (k : Ctx) (i : Instr) : State :=
  if (slotOf k.wave k.x).car.isSome then
    onSlotOf s k.core k.w k.x (fun t =>
      { t with st := .stalled, wait := .commit, car := t.car.map (fun c => { c with exiting := true }) })
  else exitWork s k i

/-- EXIT (R275). -/
def execExit (r : Record) (s : State) : Host.Outcome State Fault Refusal :=
  onSlot s (fun k => if isDie s then pendDspl s k ⟨2, 0, 0, 0⟩ else exitRecord s k (.exit r))

/-- The divergence work that a DSPL word completes: what the word before it in the slot left, or what its replay entry
holds (R162, R205). -/
def pendingWork (s : State) (k : Ctx) : Option Pending :=
  match s.cur.ops with
  | some e => e.pend
  | none => k.slot.dspl

/-- DSPL (R205): completes the divergence work of the BRC, JOIN or EXIT word before it in the slot, as its field K says; for
K = 3, which R205 does not list, that of the word (DESIGN CHOICE, log entry 3). -/
def execDspl (_m : Bool) (kf : BitVec 2) (s : State) : Host.Outcome State Fault Refusal :=
  onSlot s (fun k =>
    let none' : Record := ⟨false, .b32, 0, .absent, .absent, .absent⟩
    match pendingWork s k with
    | none => s
    | some p =>
      let kind := if kf = 3 then p.k else kf.toNat
      if kind = 0 then branch s k (.brc none') p.taken p.target p.join
      else if kind = 1 then joinWork s k (.join none')
      else exitRecord s k (.exit none'))

/-- YIELD (R276): the ready time is the cycle after. -/
def execYield (_r : Record) (s : State) : Host.Outcome State Fault Refusal :=
  onSlot s (fun k =>
    onSlotOf (stepOn s k) k.core k.w k.x (fun t => { t with ready := (coreOf s k.core).cycle + 1 }))

/-- TRAP (R277): SOFT_TRAP for the active lanes; the position stays at the TRAP. -/
def execTrap (r : Record) (s : State) : Host.Outcome State Fault Refusal :=
  onSlot s (fun k => trapState s k (.trap r) causeSoftTrap 0)

/-- BRK (R277): halts the wave with BREAK; it resumes at the next record, unless the frame names an earlier fault (R165, R361):
then the BRK issues again. -/
def execBrk (r : Record) (s : State) : Host.Outcome State Fault Refusal :=
  onSlot s (fun k =>
    let lanes := maskOf k.lanes
    if (slotOf k.wave k.x).car.isSome then takeTrap s k (.brk r) causeBreak 2 lanes lanes 0 0xFF 0
    else
      takeStop s k.core k.w
        { cause := causeBreak, stop := 2, x := k.x, lanes := lanes, blk := s.cur.blk, rcd := s.cur.rcd, addr := 0,
          cmp := 0xFF, late := false, cpl := false, entry := if s.cur.replay then some (replayEntry s k (.brk r) 0 false) else none,
          grp := 0, past := true } [])

/-- The marker of R199: a trap that names the record in whose place it stands, with the failing portable address (R385). -/
def execFetchMarker (cause : BitVec 16) (s : State) : Host.Outcome State Fault Refusal :=
  onSlot s (fun k =>
    let m := (slotEntry s k.core k.wave k.slot).bind (fun e => e.marker)
    takeStop s k.core k.w
      { cause := cause.setWidth 8, stop := 0, x := k.x, lanes := k.slot.mask, blk := s.cur.blk,
        rcd := (m.map (fun m => m.rcd)).getD s.cur.rcd, addr := (m.map (fun m => m.addr)).getD 0, cmp := 0xFF, late := false, cpl := false, entry := none, grp := 0, logged := true } [])

/-- WIN (R205): the slot's window offset and uniform bank. -/
def execWin (_m : Bool) (woff : BitVec 7) (ub : Bool) (s : State) : Host.Outcome State Fault Refusal :=
  onSlot s (fun k => onSlotOf (advance s k) k.core k.w k.x (fun t => { t with woff := woff, ub := ub }))

/-- DLIT (R205): the prefix of the next word. -/
def execDlit (_m : Bool) (p : BitVec 24) (s : State) : Host.Outcome State Fault Refusal :=
  onSlot s (fun k => onSlotOf (advance s k) k.core k.w k.x (fun t => { t with dlit := some p }))

end Sys2Proof.Machine
end

