-- ==== Sys2Proof/Machine/Memory.lean ====
section
/-! DEFINITION. Loads, stores, atomics, fences, space queries, prefetch, RQRY and CHASE (R279 to R292, R329). -/

namespace Sys2Proof.Machine

/-! ## One record's accesses -/

/-- What a lane of a memory record asks for. -/
structure Req where
  lane : Nat
  kind : AKind
  need : Need
  va : Word
  size : Nat
  order : Order
  scope : Scope
  b : Word
  c : Word
  /-- The entry its pointer resolved to, which counts in INFLIGHT (R283). -/
  entry : Option ResEntry
  deriving DecidableEq, Repr

/-- What the lanes of a record ask for, or why a lane fails before its address is checked. -/
abbrev LaneReqs := List (Nat × Except Fail Req)

/-- The pages whose translation an address needs (R104). -/
def lanePages (v : Wave) (q : Req) : List Word :=
  let top := q.va.toNat / 2 ^ 56
  let off := q.va.toNat % 2 ^ 40
  if top = 0x80 then
    if v.priv < off + q.size || q.va.toNat / 2 ^ 40 % 2 ^ 16 ≠ 0 then []
    else (List.range ((q.size + 3) / 4)).map (fun i => privateAddr v q.lane (off + 4 * i))
  else if top = 0x81 || top = 0x82 then []
  else if canonical q.va && q.va.toNat % q.size = 0 then [q.va]
  else []

/-- The first page of a record's accesses that no translation cache holds: the record parks on its walk (R104). -/
def parkPage (s : State) (k : Ctx) (reqs : LaneReqs) : Option Nat :=
  let walked := match k.slot.wait with
    | .walked .. => true
    | _ => false
  if !s.cur.defer || walked then none
  else
    (reqs.flatMap (fun p => match p.2 with
      | .ok q => lanePages k.wave q
      | .error _ => [])).findSome? (fun a =>
        if (cachedLeaf s k.wave.part (pageOf a)).isNone then some (pageOf a) else none)

/-- The record parks on the walk of a page (R104): it has issued, with a number of its own. -/
def parkRecord (s : State) (k : Ctx) (page : Nat) : State :=
  slotWaits { s with nextAcc := s.nextAcc + 1 } k.core k.w k.x .stalled (.walk page s.nextAcc)

/-- The issue number of a record that has parked. -/
def parkedNumber (t : Slot) : Option Nat :=
  match t.wait with
  | .walk _ g | .walked g _ => some g
  | _ => none

/-- A parked record's accesses are on their way: a fence of the sibling that it came before waits for them (R104, R120). -/
def fenceSees (s : State) (k : Ctx) (g : Nat) : State :=
  onSlotOf s k.core k.w (1 - k.x) (fun t => match t.wait with
    | .port n => if g < n then { t with wait := .port s.nextAcc } else t
    | _ => t)

/-- CELL records, which need a cell page (R291). -/
def isCellRecord : Instr → Bool
  | .cellMake _ | .cellSet _ | .cellTag _ | .cellPeek _ => true
  | _ => false

/-- The records whose 8-byte accesses can wake a cell or wait on one (R137). -/
def canWake : Instr → Bool
  | .ld _ | .chase _ | .atom _ | .atmf _ => true
  | _ => false

/-- Steps 6 and 7 of R359 for a lane. -/
def laneCheck (s : State) (k : Ctx) (i : Instr) (q : Req) : Except Fail Checked :=
  match checkAddress s k.core k.wave q.lane q.need q.va q.size with
  | .error f => .error f
  | .ok x =>
    if isCellRecord i && !x.2.1 then .error (failCell true causeCellShape q.va)
    else if canWake i && q.size = 8 && x.2.1 && (ancestryOf k.wave q.lane).contains q.va then
      .error (failCell true causeCellSelf q.va)
    else .ok x

/-- Operand positions a replay entry of the issuing word captures, and their values (R155). -/
def issueOps (s : State) (k : Ctx) (i : Instr) : List (Nat × Bool) × SMap Word :=
  match s.cur.ops with
  | some e => (e.opmap, e.ops)
  | none => (opmapOf i, captureOps s k i)

/-- The access of a lane that passed its checks. -/
def accessOf (s : State) (k : Ctx) (i : Instr) (r : Record) (cap : List (Nat × Bool) × SMap Word) (grp : Nat) (q : Req)
    (x : Checked) : Access :=
  { id := s.nextAcc, grp := grp, core := k.core, wslot := k.w, wuid := k.wave.uid, x := k.x, lane := q.lane,
    part := k.wave.part, secure := (coreOf s k.core).world, blk := s.cur.blk, rcd := s.cur.rcd, ins := i, kind := q.kind,
    ty := r.ty, uniform := r.u, lanes := (match s.cur.ops with
      | some e => e.lanes
      | none => s.cur.lanes), addr := q.va, size := q.size, pieces := x.1, cell := x.2.1, order := q.order,
    scope := if uncached x then .dv else q.scope, b := q.b, c := q.c,
    latch := q.entry.map (fun e => (e.l.idx, e.l.pubver)), onCell := false, failed := false, opmap := cap.1, ops := cap.2,
    form := s.cur.form, ends := s.cur.ends, early := none, guards := [], half := none, again := s.cur.replay }

/-- A lane's access is issued: its translation marked (R102, R196), its latch counted (R98), its place taken. Where what it
writes on its way has aborted the slot's own carriage, the rest of its record is not issued (R42). -/
def startAccess (k : Ctx) (i : Instr) (r : Record) (cap : List (Nat × Bool) × SMap Word) (grp : Nat) (s : State)
    (p : Req × Checked) : State :=
  if !sameRun s k then s
  else
    let s := markChecked s k.wave.part p.1.need p.2
    let s := match p.1.entry with
      | some e => latchCount s k.wave.part e
      | none => s
    if !sameRun s k then s
    else
      let a := accessOf s k i r cap grp p.1 p.2
      { s with accs := s.accs ++ [a], nextAcc := s.nextAcc + 1 }

/-- The accesses of one record that may be performed are, in ascending lane order (R112); the failures. -/
def performGroup (s : State) (grp : Nat) : State × List (Nat × Fail) :=
  (s.accs.filter (fun a => a.grp = grp)).foldl (fun acc a0 =>
    match acc.1.accs.find? (fun a => a.id = a0.id) with
    | none => acc
    | some a =>
      if performable acc.1 a then
        let r := finishAccess acc.1 a .clean
        match r.2 with
        | some f => (r.1, acc.2 ++ [(a.lane, f)])
        | none => (r.1, acc.2)
      else acc) (s, [])

/-- Failures in ascending lane order, one a lane. -/
def sortFails (fs : List (Nat × Fail)) : List (Nat × Fail) :=
  allLanes.filterMap (fun l => fs.find? (fun p => p.1 = l))

/-- The issuing record's accesses failed in some lanes (R360): what can perform does, and the rest is withdrawn. -/
def trapAccess (s : State) (k : Ctx) (i : Instr) (fs : List (Nat × Fail)) (grp : Nat) : State :=
  let s := carriageDiscard s (k.core, k.w, 1 - k.x) false
  let r := settleWave s k.core k.w k.wave.uid
  let same := r.2.filter (fun p => p.1.grp = grp)
  let others := r.2.filter (fun p => p.1.grp ≠ grp)
  let before := others.filter (fun p => p.1.grp < grp && p.1.x = k.x && (carriageOf r.1 p.1).isSome)
  let all := sortFails (fs ++ failLanes same)
  match before, worstOf all with
  -- an earlier record of the carriage has failed meanwhile (R165)
  | p :: ps, _ => lateStop r.1 (earliestFail p ps) r.2
  | [], none => r.1
  | [], some (cause, lanes, addr) =>
    let waits := maskOf ((r.1.accs.filter (fun a => a.grp = grp)).map (fun a => a.lane))
    let done : W32 := if isWaveScope i then 0
      else maskOf (k.lanes.filter (fun l => !(all.any (fun p => p.1 = l)))) &&& ~~~waits
    let inCar := (slotOf k.wave k.x).car.isSome && !s.cur.replay
    let e := replayEntry r.1 k i done inCar
    let t := if inCar then r.1 else advance r.1 k
    takeStop t k.core k.w
      { cause := cause, stop := 0, x := k.x, lanes := maskOf lanes, blk := s.cur.blk, rcd := s.cur.rcd, addr := addr,
        cmp := 0xFF, late := s.cur.replay && e.late, cpl := false, entry := some e, grp := grp } others

/-- The accesses of a memory record: parked on a walk, or checked and issued; performed at once unless the turn leaves
them in flight. A carriage that has been aborted meanwhile stands at its first record (R42). -/
def runAccesses (s : State) (k : Ctx) (i : Instr) (r : Record) (s1 : State) (reqs : LaneReqs) : State :=
  match parkPage s k reqs with
  | some p => parkRecord s k p
  | none =>
    let checks := reqs.map (fun p => (p.1, match p.2 with
      | .error f => Except.error f
      | .ok q => (laneCheck s1 k i q).map (fun x => (q, x))))
    let fails := checks.filterMap (fun p => match p.2 with
      | .error f => some (p.1, f)
      | .ok _ => none)
    let good := checks.filterMap (fun p => match p.2 with
      | .ok q => some q
      | .error _ => none)
    let grp := (parkedNumber k.slot).getD s1.nextAcc
    let s2 := good.foldl (startAccess k i r (issueOps s k i) grp) s1
    let s2 := match parkedNumber k.slot with
      | some g => fenceSees s2 k g
      | none => s2
    let done := if s.cur.defer then (s2, []) else performGroup s2 grp
    let all := fails ++ done.2
    if !sameRun done.1 k then done.1
    else if all = [] then advance done.1 k else trapAccess done.1 k i all grp

/-- The lanes that make accesses: the lowest one of a U = 1 record (R282). -/
def accessLanes (k : Ctx) (r : Record) : List Nat := if r.u then k.lanes.take 1 else k.lanes

/-- The order of a record. -/
def orderOf (r : Record) : Order := (Order.ofFn r.fn).getD .rx

/-- A record whose lanes reach a generic address in operand A. -/
def addressRecord (i : Instr) (r : Record) (s : State) (f : Ctx → Nat → Word → Req) :
    Host.Outcome State Fault Refusal :=
  onSlot s (fun k =>
    runAccesses s k i r s ((accessLanes k r).map (fun l => (l, .ok (f k l (opA s k r .b64 l))))))

/-! ## LD, ST, LDB, STB (R282, R283) -/

/-- What a load of a lane asks for. -/
def loadReq (r : Record) (e : Option ResEntry) (l : Nat) (va : Word) : Req :=
  ⟨l, .load, .load, va, r.ty.memBytes, orderOf r, Scope.ofFn r.fn, 0, 0, e⟩

/-- What a store of a lane asks for. -/
def storeReq (s : State) (k : Ctx) (r : Record) (e : Option ResEntry) (l : Nat) (va : Word) : Req :=
  ⟨l, .store, .store, va, r.ty.memBytes, orderOf r, Scope.ofFn r.fn, opB s k r r.ty l,
    if r.ty = .kb then opC s k r r.ty l else 0, e⟩

/-- LD (R282). -/
def execLd (r : Record) (s : State) : Host.Outcome State Fault Refusal :=
  addressRecord (.ld r) r s (fun _ l va => loadReq r none l va)

/-- ST (R282). -/
def execSt (r : Record) (s : State) : Host.Outcome State Fault Refusal :=
  addressRecord (.st r) r s (fun k l va => storeReq s k r none l va)

/-- A latch is an acquire at .dv (R98). -/
def latchAcquire (s : State) (c : Nat) : State := acquireL1 s c .aq .dv

/-- Resolution of a lane's resource pointer at issue (R280, R283): the entry, then the alignment of OFF. -/
def bufferPointer (s : State) (k : Ctx) (right size : Nat) (p : Word) : State × Except Fail (ResEntry × Word) :=
  if p.getLsbD 63 then (s, .error (failRes 0 0 causeSpaceBad p))
  else
    let off := p.toNat / 2 ^ 32
    let r := resolve s k.wave.part (coreOf s k.core).world 0 (p.setWidth 32) 1 right off size p
    match r.2 with
    | .error f => (r.1, .error f)
    | .ok e =>
      if off % size ≠ 0 then (r.1, .error (failAddr causeMisaligned (e.l.base + BitVec.ofNat 64 off)))
      else (latchAcquire r.1 k.core, .ok (e, e.l.base + BitVec.ofNat 64 off))

/-- A record whose lanes reach a buffer through the resource pointer in operand A. -/
def bufferRecord (i : Instr) (r : Record) (s : State) (right : Nat) (f : Ctx → Nat → ResEntry → Word → Req) :
    Host.Outcome State Fault Refusal :=
  onSlot s (fun k =>
    let res := (accessLanes k r).foldl (fun (acc : State × LaneReqs) l =>
      let p := bufferPointer acc.1 k right r.ty.memBytes (opA s k r .b64 l)
      match p.2 with
      | .error e => (p.1, acc.2 ++ [(l, .error e)])
      | .ok (e, va) =>
        if !canonical va then (p.1, acc.2 ++ [(l, .error (failAddr causeSpaceBad va))])
        else (p.1, acc.2 ++ [(l, .ok (f k l e va))])) (s, [])
    runAccesses s k i r res.1 res.2)

/-- LDB (R283). -/
def execLdb (r : Record) (s : State) : Host.Outcome State Fault Refusal :=
  bufferRecord (.ldb r) r s 0 (fun _ l e va => loadReq r (some e) l va)

/-- STB (R283). -/
def execStb (r : Record) (s : State) : Host.Outcome State Fault Refusal :=
  bufferRecord (.stb r) r s 1 (fun k l e va => storeReq s k r (some e) l va)

/-! ## ATOM, ATMF (R284 to R286) -/

/-- The operation of ATOM: the code of an IMM13 in C, 10 for a compare-and-swap (R284). -/
def atomOp (c : Opnd) : Nat :=
  match c with
  | .imm v => v.toNat
  | .dimm v => v.toNat
  | _ => 10

/-- ATOM (R284). -/
def execAtom (r : Record) (s : State) : Host.Outcome State Fault Refusal :=
  addressRecord (.atom r) r s (fun k l va =>
    ⟨l, .atom (atomOp r.c), .atomic, va, r.ty.memBytes, orderOf r, Scope.ofFn r.fn, opB s k r r.ty l, opC s k r r.ty l, none⟩)

/-- ATMF (R285): floating-point operations at the width of TY, paired exchanges at twice it. -/
def execAtmf (r : Record) (s : State) : Host.Outcome State Fault Refusal :=
  addressRecord (.atmf r) r s (fun k l va =>
    if r.ty.isFlt then
      ⟨l, .atmf (atomOp r.c), .atomic, va, r.ty.memBytes, orderOf r, Scope.ofFn r.fn, opB s k r r.ty l, 0, none⟩
    else
      ⟨l, .atmf 3, .atomic, va, 2 * r.ty.memBytes, orderOf r, Scope.ofFn r.fn, opB s k r r.ty l, opC s k r r.ty l, none⟩)

/-! ## FENCE (R119 to R121, R287) -/

/-- The accesses of a wave with an id below a bound that have not performed; the sibling's record parked on a walk is one
(R104, R120). -/
def openBelow (s : State) (k : Ctx) (n : Nat) : Bool :=
  s.accs.any (fun a => a.core = k.core && a.wslot = k.w && a.wuid = k.wave.uid && a.id < n)
    || (match parkedNumber (slotOf k.wave (1 - k.x)) with
      | some g => decide (g < n)
      | none => false)

/-- The bound a fence or release waits below: set when it reaches the port (R120). -/
def portBound (s : State) (k : Ctx) : Nat :=
  match k.slot.wait with
  | .port n => n
  | _ => s.nextAcc

/-- The slot waits at the port: a fence or release that reaches it takes a number there (R120). -/
def waitPort (s : State) (k : Ctx) : State :=
  let first := match k.slot.wait with
    | .port _ => false
    | _ => true
  slotWaits (if first then { s with nextAcc := s.nextAcc + 1 } else s) k.core k.w k.x .stalled (.port (portBound s k))

/-- The lanes whose earlier writes to a peer no port can acknowledge, at a release at .sy (R396). -/
def lostLanes (s : State) (k : Ctx) (r : Record) : List (Nat × Fail) :=
  if Order.releases (orderOf r) && Scope.ofFn r.fn = .sy then
    k.lanes.filterMap (fun l => (lostPeer s k.core k.wave.uid l).map (fun a => (l, failIntegrity a)))
  else []

/-- FENCE at the port (R120): it waits for the earlier accesses of the wave's two slots; .sq also for the token (R118). -/
def fenceWork (s : State) (k : Ctx) (i : Instr) (r : Record) : State :=
  let n := portBound s k
  let o := orderOf r
  if openBelow s k n || (o = .sq && !tokenFree s (k.core, k.w, k.x)) then waitPort s k
  else
    match lostLanes s k r with
    | [] => advance (acquireL1 s k.core o (Scope.ofFn r.fn)) k
    | fs => trapFails (fs.foldl (fun s p => clearLost s k.core k.wave.uid p.1) s) k i fs 0

/-- FENCE (R119, R120). -/
def execFence (r : Record) (s : State) : Host.Outcome State Fault Refusal := onSlot s (fun k => fenceWork s k (.fence r) r)

/-- FENCE.eng (R121): the engine reads nothing for later commands before the fence has passed. -/
def execFenceEng (r : Record) (s : State) : Host.Outcome State Fault Refusal := onSlot s (fun k => fenceWork s k (.fenceEng r) r)

/-! ## Spaces and prefetch (R288 to R290) -/

/-- SPACE and OWN of a generic address (R78, R288). -/
def spaceCode (c : Nat) (a : Word) : Nat :=
  let top := a.toNat / 2 ^ 56
  if top = 0x80 then 1
  else if top = 0x81 then 2 + (if a.toNat / 2 ^ 36 % 2 ^ 12 = c then 8 else 0)
  else if top = 0x82 then 3 + (if a.toNat / 2 ^ 40 % 2 ^ 8 = c / 16 then 8 else 0)
  else if canonical a then 0 else 7

/-- SPCT (R288). -/
def execSpct (r : Record) (s : State) : Host.Outcome State Fault Refusal :=
  laneOp s r .n32 (fun k l => ⟨BitVec.ofNat 64 (spaceCode k.core (opA s k r .b64 l)), 0⟩)

/-- SPCC (R289): 0 .gen, 1 .priv, 2 .scr, 3 .csh. -/
def spaceConvert (c fn : Nat) (a : Word) : Word :=
  let top := a.toNat / 2 ^ 56
  let w : Nat :=
    if fn = 0 then
      (if top = 0x81 || top = 0x82 then a.toNat % 2 ^ 18 else if top = 0x80 then a.toNat % 2 ^ 40 else a.toNat)
    else if fn = 1 then 0x80 * 2 ^ 56 + a.toNat % 2 ^ 40
    else
      let win := if fn = 2 then 0x81 else 0x82
      if top = 0x81 || top = 0x82 then win * 2 ^ 56 + a.toNat % 2 ^ 56
      else win * 2 ^ 56 + c * 2 ^ 36 + a.toNat % 2 ^ 18
  BitVec.ofNat 64 w

/-- SPCC (R289). -/
def execSpcc (r : Record) (s : State) : Host.Outcome State Fault Refusal :=
  laneOp s r .b64 (fun k l => ⟨spaceConvert k.core r.fn.toNat (opA s k r .b64 l), 0⟩)

/-- PFD.l1 of one address: its line is in the L1 afterwards, where it may be (R88, R290). -/
def prefetchLine (s : State) (k : Ctx) (a : Word) : State :=
  if a.toNat / 2 ^ 56 ≠ 0 && a.toNat / 2 ^ 56 ≠ 255 then s
  else
    match xlatCheck s k.wave.part (coreOf s k.core).world .load a with
    | .error _ => s
    | .ok x =>
      match x.place with
      | .dev pa => if x.cell || pteBit x.leaf.val 2 || !hasL1 (coreOf s k.core) then s else fillL1 s k.core pa
      | _ => s

/-- PFD (R290): .l2 changes nothing, .l1 fills the line. -/
def execPfd (r : Record) (s : State) : Host.Outcome State Fault Refusal :=
  onSlot s (fun k =>
    let s1 := if r.fn = 1 then k.lanes.foldl (fun s l => prefetchLine s k (opA s k r .b64 l)) s else s
    advance s1 k)

/-- The pages of a range of portable code that can be fetched: none of a page that fails (R200). -/
def pagesFetch (s : State) (p : Nat) (secure : Bool) (a n : Nat) : Bool :=
  (List.range (n / 4096 + 2)).all (fun i =>
    let q := (a / 4096 + i) * 4096
    a + n ≤ q || (match xlatCheck s p secure .fetch (BitVec.ofNat 64 q) with
      | .ok _ => true
      | .error _ => false))

/-- The key a fetch of a block by a slot of the wave would use, as a request (R187, R200). -/
def lowerRequest (s : State) (c : Nat) (v : Wave) (b : Nat) : LowerReq :=
  ⟨coreDie c, v.part, slotKey s c v b (blockAddr v b), v.modl, b, true⟩

/-- Two requests are for one entry. -/
def sameRequest (q r : LowerReq) : Bool := q.die = r.die && q.part = r.part && q.key = r.key && q.modl = r.modl && q.blk = r.blk

/-- A lowering is asked for, once per key (R187); a slot's need makes a PFI's request its own (R200). -/
def askLowering (s : State) (q : LowerReq) : State :=
  if (dieOf s q.die).sinter.any (fun e => e.key = q.key) then s
  else if s.lowerReqs.any (sameRequest q) then
    if q.pfi then s
    else { s with lowerReqs := s.lowerReqs.map (fun r => if sameRequest q r then { r with pfi := false } else r) }
  else { s with lowerReqs := s.lowerReqs ++ [q] }

/-- PFI (R200, R290): the blocks of the wave's module whose records meet the range, all of whose pages can be fetched, are
lowered where the key is missing. -/
def prefetchBlocks (s : State) (k : Ctx) (a : Word) (len : Nat) : State :=
  let sec := (coreOf s k.core).world
  let p := k.wave.part
  let s := markFetch s p sec k.wave.modl 64
  let size := match readHeader (fetchBytes s p sec) k.wave.modl with
    | .ok h => h.size
    | .error _ => 0
  let lo := max a.toNat k.wave.modl.toNat
  let hi := min (a.toNat + min len 65536) (k.wave.modl.toNat + size)
  k.wave.table.zipIdx.foldl (fun s q =>
    let b := q.1
    let meets := b.kind ≠ 3 && decide (b.addr.toNat < hi) && decide (lo < b.addr.toNat + 8 * b.nrec)
    let fetches := pagesFetch s p sec b.addr.toNat (8 * b.nrec)
      && (b.nlit = 0 || pagesFetch s p sec b.litAddr.toNat (8 * b.nlit))
    if meets && fetches then askLowering s (lowerRequest s k.core k.wave q.2) else s) s

/-- PFI (R200, R290). -/
def execPfi (r : Record) (s : State) : Host.Outcome State Fault Refusal :=
  onSlot s (fun k =>
    advance (prefetchBlocks s k (opA s k r .b64 k.low) (opB s k r .n32 k.low).toNat) k)

/-! ## RQRY (R292) -/

/-- The field RQRY returns. -/
def entryField (fn : Nat) (e : ResEntry) : Word :=
  match fn with
  | 0 => e.l.base
  | 1 => e.l.size
  | 2 => BitVec.ofNat 64 e.l.kind
  | 3 => e.l.gen.setWidth 64
  | 4 => e.l.pubver.setWidth 64
  | _ => e.l.rights.setWidth 64

/-- RQRY of one handle: index, the entry's read, GEN, world (R292). -/
def queryEntry (s : State) (k : Ctx) (fn : Nat) (h : Word) : State × Except Fail Word :=
  let sec := (coreOf s k.core).world
  let i := h.toNat % 2 ^ 32 / 256
  let v := h &&& 0xFFFFFFFF
  if (partOf s k.wave.part).rtlen.toNat ≤ i then (s, .error (failRes 0 0 causeHandleRange v))
  else
    let r := readEntry true s k.wave.part sec i
    match r.2 with
    | .error e => (r.1, .error (failRes 0 (entryReadOrder e.1) e.1 e.2))
    | .ok e =>
      if fn ≠ 2 && fn ≠ 3 && e.l.gen ≠ h.setWidth 8 then (r.1, .error (failRes 0 6 causeHandleStale v))
      else if e.l.world && !sec then (r.1, .error (failRes 0 7 causeWorld v))
      else (latchAcquire r.1 k.core, .ok (entryField fn e))

/-- RQRY (R292). -/
def execRqry (r : Record) (s : State) : Host.Outcome State Fault Refusal :=
  onSlot s (fun k =>
    let res := (accessLanes k r).foldl (fun (acc : State × List (Nat × Fail) × List (Nat × Val)) l =>
      let q := queryEntry acc.1 k r.fn.toNat (opA s k r .b64 l)
      match q.2 with
      | .error f => (q.1, acc.2.1 ++ [(l, f)], acc.2.2)
      | .ok v => (q.1, acc.2.1, acc.2.2 ++ [(l, ⟨v, 0⟩)])) (s, [], [])
    let vals := if r.u then (match res.2.2 with
        | [] => []
        | p :: _ => k.lanes.map (fun l => (l, p.2)))
      else res.2.2
    let s1 := writeResults res.1 k r.ty vals
    if !sameRun res.1 k then res.1
    else if res.2.1 = [] then advance s1 k else trapFails s1 k (.rqry r) res.2.1 0)

/-! ## CHASE (R329) -/

/-- CHASE (R329): a load of 8 bytes at .rx.dv through the keep slot that A names, which then holds the value plus B. -/
def execChase (r : Record) (s : State) : Host.Outcome State Fault Refusal :=
  onSlot s (fun k =>
    let reg := (pairOf k r.a).getD 0
    runAccesses s k (.chase r) r s (k.lanes.map (fun l =>
      (l, .ok ⟨l, .chase reg (opB s k r .i64 l), .load, opA s k r .b64 l, 8, .rx, .dv, 0, 0, none⟩))))

end Sys2Proof.Machine
end

