-- ==== Sys2Proof/Machine/Place.lean ====
section
/-! DEFINITION. Placing waves on a core: free wave slots, windows and group entries (R23, R25, R30 to R34), the new
wave's state, and the reserve for evaluators (R31, R141). -/

namespace Sys2Proof.Machine

/-- RSV of the core's partition (R31). -/
def reserveOf (s : State) (c : Nat) : Nat := min (partOf s (corePart s c)).rsv 2

/-- The core is in coupled mode (R57, R58). -/
def coupledMode (k : Core) : Bool :=
  match k.region with
  | some r => r.st ≠ .placing
  | none => false

/-- The core's region. -/
def regionOf (s : State) (c : Nat) : Option Region := (coreOf s c).region
/-- The core with its region replaced. -/
def setRegion (s : State) (c : Nat) (r : Region) : State := onCore s c (fun k => { k with region := some r })

/-- The region is gated (R69): its sources close. -/
def gateRegion (s : State) (c : Nat) (g : Gate) : State :=
  match regionOf s c with
  | none => s
  | some r =>
    if r.st = .running then setRegion s c { r with st := .gated, gate := g } else s

/-- A body record of a channel fails in a region that runs, is gated or drains: the fault gates it, or is what the gated region
reports (R61, R71). The first fault stands. -/
def faultRegion (s : State) (c : Nat) (cause : BitVec 8) (rcd lane : Nat) (addr : Word) : State :=
  match regionOf s c with
  | none => s
  | some r =>
    let g : Gate := .fault cause rcd lane addr
    if r.st = .running then gateRegion s c g
    else
      match r.gate with
      | .fault .. => s
      | _ => setRegion s c { r with gate := g }

/-- The region of a wave fires or drains: nothing of the wave stops before it is DONE (R150, R160). -/
def regionRuns (s : State) (c w : Nat) : Bool :=
  match regionOf s c with
  | some r => r.wslot = w && (r.st = .running || r.st = .gated || r.st = .draining)
  | none => false

/-- A place for a wave: its slot, the window's first register, its first group entry. -/
structure Spot where
  wslot : Nat
  base : Nat
  gbase : Nat
  deriving DecidableEq, Repr

/-- The register windows in use. -/
def usedWindows (k : Core) : List (Nat × Nat) := (wavesOf k).map (fun p => (p.2.winBase, p.2.window))

/-- A run of registers meets none of the windows. -/
def windowFree (used : List (Nat × Nat)) (b n : Nat) : Bool := used.all (fun u => b + n ≤ u.1 || u.1 + u.2 ≤ b)

/-- The lowest free run of `n` ordinary registers. -/
def findWindow (used : List (Nat × Nat)) (limit n : Nat) : Option Nat :=
  ((List.range 128).map (fun i => 8 * i)).find? (fun b => b + n ≤ limit && windowFree used b n)

/-- The lowest run of `n` free group-table entries below a limit. -/
def findGroups (k : Core) (limit n : Nat) : Option Nat :=
  if n = 0 then some 0
  else (List.range 256).find? (fun b => b + n ≤ limit && (List.range n).all (fun i => (groupOf k (b + i)).owner = 0))

/-- The free ordinary wave slots, ascending. -/
def freeSlots (k : Core) (rsv : Nat) : List Nat := (List.range (16 - rsv)).filter (fun w => (smGet none k.waves w).isNone)

/-- A free ordinary place for a wave of one-wave block (R31, R39, R156). -/
def ordinarySpot (s : State) (c window ngroup : Nat) : Option Spot :=
  let k := coreOf s c
  let rsv := reserveOf s c
  match (freeSlots k rsv).head?, findWindow (usedWindows k) (1024 - 128 * rsv) window, findGroups k (256 - rsv) ngroup with
  | some w, some b, some g => some ⟨w, b, g⟩
  | _, _, _ => none

/-- A free reserve slot (R31): wave slot 15 - i, its own window and group entry. -/
def reserveSpot (s : State) (c : Nat) : Option Spot :=
  ((List.range (reserveOf s c)).find? (fun i => (smGet none (coreOf s c).waves (15 - i)).isNone)).map
    (fun i => ⟨15 - i, 1024 - 128 * (i + 1), 255 - i⟩)

/-- An ordinary place, else a reserve slot (R141, R156). -/
def anySpot (s : State) (c window ngroup : Nat) : Option Spot :=
  (ordinarySpot s c window ngroup).orElse (fun _ => reserveSpot s c)

/-- What a wave is placed with. -/
structure NewWave where
  spot : Spot
  kind : WKind
  block : Nat
  launch : Nat
  blockIdx : Nat
  waveIdx : Nat
  nblk : Nat
  prio : Nat
  modl : Word
  entry : Nat
  table : List BlockInfo
  desc : EntryDesc
  args : List Word
  mask : W32
  evals : SMap EvalInfo
  deriving DecidableEq, Repr

/-- KC_PRIVBASE of a wave slot (R80). -/
def privBaseOf (s : State) (c w : Nat) : Word :=
  let p := partOf s (corePart s c)
  p.privbase + BitVec.ofNat 64 (16 * c + w) * p.privstride

/-- The wave as placed (R25). -/
def waveOfNew (s : State) (c : Nat) (n : NewWave) : Wave :=
  let v : Wave :=
    { uid := s.nextUid, kind := n.kind, part := corePart s c, block := n.block, launch := n.launch, blockIdx := n.blockIdx,
      waveIdx := n.waveIdx, waves := n.desc.waves, nblk := n.nblk, prio := n.prio, modl := n.modl, entry := n.entry,
      table := n.table, winBase := n.spot.base, window := n.desc.window, nkeep := n.desc.nkeep,
      ngroup := n.desc.groups.length, groupBase := n.spot.gbase, priv := n.desc.priv,
      privBase := privBaseOf s c n.spot.wslot, step := (dieOf s (coreDie c)).stepping, args := n.args, uni := [], vals := [], uniPoison := [], valPoison := [],
      div := [], divMem := 0, divLanes := 0, divRan := [], evals := n.evals, committed := 0, adopted := 0, parked := false, halted := false, stop := none,
      replay := [], report := none, serves := none, slot0 := Slot.reset, slot1 := Slot.reset }
  putSlot v 0 (pathSlot v (coreOf s c).cycle n.entry 0 n.mask 0xFFFF)

/-- The registers of a window read as zero (R25). -/
def clearWindow (k : Core) (b n : Nat) : Core :=
  let out (i : Nat) : Bool := i < 32 * b || 32 * (b + n) ≤ i
  { k with regs := k.regs.filter (fun p => out p.1), regPoison := k.regPoison.filter out }

/-- Places a wave: slot 2w at record 0 of its entry with its lanes, slot 2w + 1 EMPTY (R25). Its start acquires at .dv what
caused it: its launch, its records, its wake (R88, R127, R128). -/
def installWave (s : State) (c : Nat) (n : NewWave) : State :=
  let s := acquireL1 s c .aq .dv
  let v := waveOfNew s c n
  let s := { s with nextUid := s.nextUid + 1 }
  onCore s c (fun k => putWave (clearWindow k v.winBase v.window) n.spot.wslot (some v))

/-- Fills group-table entries at placement (R34). -/
def placeGroups (k : Core) (owner base : Nat) (gs : List (BitVec 16 × Bool)) : Core :=
  gs.zipIdx.foldl (fun k p =>
    let g : Group := { Group.reset with owner := owner, members := p.1.1, tm := p.1.2 }
    putGroup k (base + p.2) { g with expect := groupExpect g }) k

end Sys2Proof.Machine
end

