-- ==== Sys2Proof/Machine/Tasks.lean ====
section
/-! DEFINITION. Task records, deques, bins and stealing (R37 to R41), evaluator records (R140, R141), and SPAWN.task
(R294). -/

namespace Sys2Proof.Machine

/-! ## Records and the deque (R37, R38) -/

/-- The 32 bytes of a task record (R37). -/
def taskBytes (t : TaskRec) : List Byte :=
  leBytes 8 t.entry.toNat ++ leBytes 8 t.arg0.toNat ++ leBytes 8 t.arg1.toNat
    ++ leBytes 8 (t.launch.toNat * 2 ^ 8 + t.tmr.toNat * 2 ^ 4 + (if t.eval then 4 else 0) + (if t.isLocal then 2 else 0))

/-- A popped record: EVAL is taken as 0, the RZ fields are ignored (R37). -/
def taskParse (bs : List Byte) : TaskRec :=
  let h := field bs 24 8
  { launch := BitVec.ofNat 32 (h / 2 ^ 8), tmr := BitVec.ofNat 4 (h / 2 ^ 4), eval := false, isLocal := h / 2 % 2 = 1,
    arg1 := leWord ((bs.drop 16).take 8), arg0 := leWord ((bs.drop 8).take 8), entry := leWord (bs.take 8), ev := none }

/-- Records that the deque ring holds (R38). -/
def dequeSize (k : Core) : Nat := (k.dqlim - k.dqbase) / 32

/-- The tile byte of ring position `i`. -/
def dequePlace (k : Core) (c i : Nat) : Place := .tile c (roleByte k 0 (k.dqbase + 32 * (i % dequeSize k)))

/-- The deque can take a record. -/
def dequeRoom (k : Core) : Bool := k.dqCount < dequeSize k

/-- Pushes a record at the owner end of a deque with room. -/
def pushDeque (s : State) (c : Nat) (t : TaskRec) : State :=
  let k := coreOf s c
  let s := placeWrite s ⟨corePart s c, selfSlot s, some c⟩ (dequePlace k c (k.dqHead + k.dqCount)) (taskBytes t)
  onCore s c (fun k => { k with dqCount := k.dqCount + 1 })

/-- Hands a record straight to the binning stage. R38 gives the stage no capacity and no wait: the records that it cannot
handle yet queue in it without bound (DESIGN CHOICE, log entry 37). -/
def pushStage (s : State) (c : Nat) (t : TaskRec) : State := onCore s c (fun k => { k with stage := k.stage ++ [t] })

/-- A record bypasses the deque (R38). -/
def bypasses (k : Core) (t : TaskRec) : Bool := t.isLocal || k.dqbase = k.dqlim

/-- The binning stage pops nothing: a bin that must launch holds its records (R39). -/
def stageBlocked (k : Core) : Bool := k.bins.any (fun b => b.must)

/-- The launch an identity names in a partition, while it is live. -/
def liveLaunch (s : State) (p id : Nat) : Option Launch :=
  s.launches.find? (fun l => l.id = id && l.part = p && (l.st = .waiting || l.st = .ready))

/-- The partition's core runs: no exchange or halt stops it (R163); a core of a cluster that no partition holds does not (R22). -/
def partRuns (s : State) (p : Nat) : Bool := p < 8 && (partOf s p).pswap = .running

/-! ## Bins (R39) -/

/-- Cycles of a record's bin timer. -/
def binCycles (k : Core) (t : TaskRec) : Nat := if t.tmr = 0 then k.kcBintmr else 64 * 2 ^ t.tmr.toNat

/-- Writes a keep slot of lanes of a wave being placed. -/
def presetKeep (k : Core) (v : Wave) (n : Nat) (vals : List (Nat × Word)) : Core :=
  { k with regs := smSetAll 0 k.regs (pairWrites (keepReg v n) vals) }

/-- The bins without bin `i`. -/
def dropBin (k : Core) (i : Nat) : Core := { k with bins := k.bins.take i ++ k.bins.drop (i + 1) }

/-- A bin whose ENTRY names no entry of a verified module (R39): its records run nowhere. -/
def refuseBin (s : State) (c : Nat) (b : Bin) : State :=
  let s := logEvent s 8 causeLowerReject (corePart s c) 0 c b.entry noStage
  b.recs.foldl (fun s t => match t.ev with
    | some e => ownCellFail s e causeLowerReject 0xFFFF 0
    | none => s) s

/-- The wave of a bin (R37, R39, R140): lane l runs the l-th record, with k0 ARG0 and k1 ARG1. -/
def binWave (s : State) (c : Nat) (b : Bin) (f : FoundBlock) (d : EntryDesc) (sp : Spot) : State :=
  let ls := b.recs.zipIdx.map (fun p => (p.2, p.1))
  let mask := maskOf (ls.map (fun p => p.1))
  let l := if b.eval then none else liveLaunch s (corePart s c) b.launch.toNat
  let ng := if b.eval then d.groups else []
  let evals : SMap EvalInfo := ls.filterMap (fun p => p.2.ev.map (fun e => (p.1, e)))
  let n : NewWave :=
    { spot := sp, kind := if b.eval then .evaluator else .task, block := 0, launch := b.launch.toNat, blockIdx := 0, waveIdx := 0,
      nblk := (l.map (fun l => l.nblk)).getD 0, prio := (l.map (fun l => l.prio)).getD 0, modl := f.modl, entry := f.blk,
      table := f.table, desc := { d with waves := 1, groups := ng }, args := (l.map (fun l => l.args)).getD [], mask := mask,
      evals := evals }
  let uid := s.nextUid
  let s := installWave s c n
  match waveOf s c sp.wslot with
  | none => s
  | some v =>
    onCore s c (fun k =>
      let k := presetKeep k v 0 (ls.map (fun p => (p.1, p.2.arg0)))
      let k := presetKeep k v 1 (ls.map (fun p => (p.1, p.2.arg1)))
      placeGroups k uid sp.gbase ng)

/-- The partition that a task record belongs to: that of its cell's waking record, or of its launch; none where neither is
there. -/
def recordPart (s : State) (t : TaskRec) : Option Nat :=
  match t.ev with
  | some e => (wakingOf s e.pa).map (fun r => r.part)
  | none => (s.launches.find? (fun l => l.id = t.launch.toNat)).map (fun l => l.part)

/-- The records of a bin are of the core's partition: those of a cluster that CLMAP has since moved start no wave (R22). -/
def binHere (s : State) (c : Nat) (b : Bin) : Bool :=
  b.recs.all (fun t => match recordPart s t with
    | some p => p = corePart s c
    | none => true)

/-- Bin `i` launches (R39, R141): its entry is looked up, a place is taken, or it holds its records. -/
def launchBin (s : State) (c i : Nat) : State :=
  match (coreOf s c).bins[i]? with
  | none => s
  | some b =>
    if !binHere s c b || !partRuns s (corePart s c) then onCore s c (fun k => { k with bins := setAt k.bins i { b with must := true } })
    else
    let s := markBlocks s (corePart s c)
    match findEntry s (corePart s c) b.entry (if b.eval then 3 else 2) with
    | none => refuseBin (onCore s c (fun k => dropBin k i)) c b
    | some (f, d) =>
      let sp := if coupledMode (coreOf s c) then none
        else if b.eval then anySpot s c d.window d.groups.length else ordinarySpot s c d.window 0
      match sp with
      | none => onCore s c (fun k => { k with bins := setAt k.bins i { b with must := true } })
      | some sp => binWave (onCore s c (fun k => dropBin k i)) c b f d sp

/-- The record joins a bin. -/
def joinBin (s : State) (c i : Nat) (b : Bin) (t : TaskRec) : State :=
  let b := { b with recs := b.recs ++ [t] }
  let s := onCore s c (fun k => { k with bins := setAt k.bins i b })
  if 32 ≤ b.recs.length then launchBin s c i else s

/-- The record starts a bin. -/
def startBin (s : State) (c : Nat) (t : TaskRec) : State :=
  onCore s c (fun k => { k with bins := k.bins ++ [⟨t.entry, t.launch, t.eval, [t], k.cycle + binCycles k t, false⟩] })

/-- The bin whose timer is closest to expiry. -/
def nearestBin (bs : List Bin) : Nat :=
  (bs.zipIdx.foldl (fun (m : Nat × Nat) p => if p.1.deadline < m.2 then (p.2, p.1.deadline) else m)
    (0, (bs.head?.map (fun b => b.deadline)).getD 0)).1

/-- The binning stage handles a popped record (R39). A bin that must launch and cannot makes the record wait. -/
def handleRecord (s : State) (c : Nat) (t : TaskRec) : State :=
  let k := coreOf s c
  match findAt (fun b => b.entry = t.entry && b.launch = t.launch && b.eval = t.eval) k.bins 0 with
  | some i =>
    (match k.bins[i]? with
      | some b => joinBin s c i b t
      | none => s)
  | none =>
    if k.bins.length < 8 then startBin s c t
    else
      let s := launchBin s c (nearestBin k.bins)
      if (coreOf s c).bins.length < 8 then startBin s c t
      else onCore s c (fun k => { k with stage := t :: k.stage })

/-- A task record that names no live launch is discarded (R37). -/
def staleRecord (s : State) (c : Nat) (t : TaskRec) : Bool :=
  !t.eval && t.launch ≠ 0 && (liveLaunch s (corePart s c) t.launch.toNat).isNone

/-- Launches a bin that is none of the core's eight, where it can launch at once (R141), or refuses it (R39). -/
def launchAlone (s : State) (c : Nat) (b : Bin) : Option State :=
  if coupledMode (coreOf s c) || !partRuns s (corePart s c) || !binHere s c b then none
  else
    let s := markBlocks s (corePart s c)
    match findEntry s (corePart s c) b.entry (if b.eval then 3 else 2) with
    | none => some (refuseBin s c b)
    | some (f, d) => (anySpot s c d.window d.groups.length).map (fun sp => binWave s c b f d sp)

/-- The binning stage handles an evaluator record that was handed to it while a bin holds its records: R39 lets it pop
nothing, and such a record is not popped (R38). It joins or starts a bin, or, with every bin held, launches by itself where
a slot is free, as R142 promises (DESIGN CHOICE, log entry 37). -/
def handleEvalRecord (s : State) (c : Nat) (t : TaskRec) : Option State :=
  let k := coreOf s c
  match findAt (fun b => b.entry = t.entry && b.launch = t.launch && b.eval && decide (b.recs.length < 32)) k.bins 0 with
  | some i => (k.bins[i]?).map (fun b => joinBin s c i b t)
  | none =>
    if k.bins.length < 8 then some (startBin s c t)
    else launchAlone s c ⟨t.entry, t.launch, t.eval, [t], k.cycle, false⟩

/-- The oldest evaluator record of a blocked binning stage is handled, where it can be. -/
def handleBlocked (s : State) (c : Nat) : State :=
  let k := coreOf s c
  match findAt (fun t => t.eval) k.stage 0 with
  | none => s
  | some i =>
    match k.stage[i]? with
    | none => s
    | some t => (handleEvalRecord (onCore s c (fun k => { k with stage := k.stage.eraseIdx i })) c t).getD s

/-- DEQUE_POP (R38, R39): a record handed straight to the stage, else the newest of the deque. -/
def execDequePop (core : Nat) (s : State) : Host.Outcome State Fault Refusal :=
  .next (
    let k := coreOf s core
    if !partRuns s (corePart s core) then s
    else if stageBlocked k then handleBlocked s core
    else
      match k.stage with
      | t :: r =>
        let s := onCore s core (fun k => { k with stage := r })
        if staleRecord s core t then s else handleRecord s core t
      | [] =>
        if k.dqCount = 0 then s
        else
          let t := taskParse (placeRead s (dequePlace k core (k.dqHead + k.dqCount - 1)) 32)
          let s := onCore s core (fun k => { k with dqCount := k.dqCount - 1 })
          if staleRecord s core t then s else handleRecord s core t)

/-- BIN_TIMER_EXPIRY (R39). -/
def execBinTimerExpiry (core bin : Nat) (s : State) : Host.Outcome State Fault Refusal :=
  .next (match (coreOf s core).bins[bin]? with
    | some b => if !b.must && b.deadline ≤ (coreOf s core).cycle && partRuns s (corePart s core) then launchBin s core bin else s
    | none => s)

/-- BIN_LAUNCH (R39): a held bin, once a slot and window are free. -/
def execBinLaunch (core bin : Nat) (s : State) : Host.Outcome State Fault Refusal :=
  .next (match (coreOf s core).bins[bin]? with
    | some b => if b.must && partRuns s (corePart s core) then launchBin s core bin else s
    | none => s)

/-! ## Stealing (R40) -/

/-- The core holds blocks of a launch. -/
def holdsBlocks (k : Core) (id : Nat) : Bool := k.blocks.any (fun b => b.launch = id)

/-- The oldest records of a deque that a thief of a launch may take, at most `n`. -/
def stealable (s : State) (c : Nat) (id : Nat) : Nat → Nat → List TaskRec
  | 0, _ => []
  | n + 1, i =>
    let k := coreOf s c
    if k.dqCount ≤ i then []
    else
      let t := taskParse (placeRead s (dequePlace k c (k.dqHead + i)) 32)
      if t.launch.toNat = id && !t.isLocal then t :: stealable s c id n (i + 1) else []

/-- What a thief takes: for the first launch whose blocks it holds and that the victim has records of. -/
def stealFrom (s : State) (thief victim : Nat) : List TaskRec :=
  (((coreOf s thief).blocks.map (fun b => b.launch)).findSome? (fun id =>
    match liveLaunch s (corePart s thief) id with
    | some l =>
      if l.cl0 ≤ victim / 16 && victim / 16 < l.cl0 + l.ncl then
        (match stealable s victim id 8 0 with
          | [] => none
          | ts => some ts)
      else none
    | none => none)).getD []

/-- STEAL (R40). -/
def execSteal (thief victim : Nat) (s : State) : Host.Outcome State Fault Refusal :=
  .next (
    let k := coreOf s thief
    let p := corePart s thief
    if thief = victim || corePart s victim ≠ p || !partRuns s p || coupledMode k || k.dqCount ≠ 0 || k.bins ≠ [] || k.stage ≠ []
        || freeSlots k (reserveOf s thief) = [] then s
    else
      let ts := stealFrom s thief victim
      let s := onCore s victim (fun q =>
        { q with dqHead := (q.dqHead + ts.length) % max 1 (dequeSize q), dqCount := q.dqCount - ts.length })
      onCore s thief (fun q => { q with stage := q.stage ++ ts }))

/-- A record that a core holds (R141), and the core without it: the oldest of a held evaluator bin; from number 8 on, an
evaluator record that waits in the binning stage. -/
def heldRecord (k : Core) (bin : Nat) : Option (TaskRec × Core) :=
  if 8 ≤ bin then
    match k.stage[bin - 8]? with
    | some t => if t.eval then some (t, { k with stage := k.stage.eraseIdx (bin - 8) }) else none
    | none => none
  else
    match k.bins[bin]? with
    | none => none
    | some b =>
      match b.recs with
      | [] => none
      | t :: r =>
        if !b.eval || !b.must then none
        else some (t, if r = [] then dropBin k bin else { k with bins := setAt k.bins bin { b with recs := r } })

/-- EVAL_RECORD_MOVE (R141): a held evaluator record moves to a core with a free reserve slot, one R140 allows or, when
PLACE is not PINNED, any of the partition. -/
def execEvalRecordMove (src bin dst : Nat) (s : State) : Host.Outcome State Fault Refusal :=
  .next (match heldRecord (coreOf s src) bin with
    | none => s
    | some (t, _) =>
      let p := corePart s src
      match t.ev with
      | none => s
      | some e =>
        let q := readEntry false s p true e.evix
        let allowed := match q.2 with
          | .ok n => field n.l.kspec 8 1 % 4 ≠ 2 || (placeCores s p n.l e.slice none).contains dst
          | .error _ => src / 16 = dst / 16
        if src = dst || Config.numCores ≤ dst || corePart s dst ≠ p || !partRuns s p || !allowed
            || coupledMode (coreOf s dst) || (reserveSpot s dst).isNone then s
        else pushStage (onCore q.1 src (fun k => ((heldRecord k bin).map (fun h => h.2)).getD k)) dst t)

/-! ## SPAWN.task (R294) -/

/-- LOCAL and the TMR override that a LIT target carries (R294). -/
def spawnBits (s : State) (o : Opnd) : Bool × Nat :=
  let v : Nat := match o with
    | .lit n => (s.cur.lits.getD n.toNat 0).toNat
    | .dimm w => w.toNat
    | _ => 0
  (v / 2 ^ 16 % 2 = 1, v / 2 ^ 17 % 2 ^ 4)

/-- The task record of a lane. -/
def spawnRecord (s : State) (k : Ctx) (r : Record) (l : Nat) : TaskRec :=
  let b := targetBlock s r.a
  let bits := spawnBits s r.a
  let tmr := if bits.2 ≠ 0 then bits.2 else (((blockOf k.wave b).bind (fun i => i.desc)).map (fun d => d.tmr)).getD 0
  { launch := BitVec.ofNat 32 k.wave.launch, tmr := BitVec.ofNat 4 tmr, eval := false, isLocal := bits.1,
    arg1 := opC s k r .b64 l, arg0 := opB s k r .b64 l, entry := blockAddr k.wave b, ev := none }

/-- The earlier accesses of the wave perform first: a release (R114). -/
def afterRelease (s : State) (k : Ctx) (f : State) : State :=
  if openBelow s k (portBound s k) then waitPort s k else f

/-- Pushes records of lanes in ascending order as far as they find room: the lanes that are left. -/
def pushLanes (s : State) (c : Nat) : List (Nat × TaskRec) → State × List Nat
  | [] => (s, [])
  | (l, t) :: r =>
    if bypasses (coreOf s c) t then pushLanes (pushStage s c t) c r
    else if dequeRoom (coreOf s c) then pushLanes (pushDeque s c t) c r
    else (s, l :: r.map (fun p => p.1))

/-- The slot is WAITING on the full deque; the record is kept with the lanes already pushed (R154, R294). -/
def waitDeque (s : State) (k : Ctx) (i : Instr) (left : List Nat) : State :=
  let e := { replayEntry s k i (maskOf k.lanes &&& ~~~maskOf left) false with grp := if s.cur.replay then 0 else s.nextAcc }
  let s := advance (if s.cur.replay then s else { s with nextAcc := s.nextAcc + 1 }) k
  onWave s k.core k.w (fun v =>
    let v := { v with replay := if s.cur.replay then e :: v.replay else v.replay ++ [e] }
    putSlot v k.x { slotOf v k.x with st := .waiting, wait := .deque s.cur.replay })

/-- SPAWN.task (R294). -/
def execSpawnTask (r : Record) (s : State) : Host.Outcome State Fault Refusal :=
  onSlot s (fun k =>
    let ts := k.lanes.map (fun l => (l, spawnRecord s k r l))
    if (slotOf k.wave k.x).car.isSome then
      advance (onSlotOf s k.core k.w k.x (fun t =>
        { t with car := t.car.map (fun c => { c with spawns := c.spawns ++ ts.map (fun p => p.2) }) })) k
    else
      afterRelease s k (
        let q := pushLanes s k.core ts
        if q.2 = [] then advance q.1 k else waitDeque q.1 k (.spawnTask r) q.2))

end Sys2Proof.Machine
end

