-- ==== Sys2Proof/Machine/Verify.lean ====
section
/-! DEFINITION. Module verification (R166 to R182, R189): the header, the block table, the declarations, the descriptors
and every record, in the order of R182, and the verification word of R181. The lowering engine checks a block's records
again with `recordFault` (R187). -/

namespace Sys2Proof.Machine

/-! ## Records as fields -/

/-- OP of a record. -/
def opOf (w : Word) : Nat := w.toNat / 2 ^ 57
/-- FN of a record. -/
def fnOf (w : Word) : BitVec 5 := w.extractLsb' 47 5
/-- TY of a record. -/
def tyOf (w : Word) : Ty := Ty.ofCode (w.toNat / 2 ^ 52 % 16)
/-- The 15-bit field of an operand position. -/
def fieldOf (w : Word) (pos : Nat) : BitVec 15 := w.extractLsb' (30 - 15 * pos) 15
/-- An operand of a record, whatever its RZ bits. -/
def opndOf (w : Word) (pos : Nat) : Opnd := (Opnd.decode (fieldOf w pos)).getD .absent
/-- The RZ bits of a NAMED operand (R167). -/
def opndRz : BitVec 15 := 0x0700
/-- An operand of a record as its kind and class say, its RZ bits left out. -/
def opndLoose (w : Word) (pos : Nat) : Opnd :=
  (Opnd.decode (if (fieldOf w pos >>> 13) = 1 then fieldOf w pos &&& ~~~opndRz else fieldOf w pos)).getD .absent
/-- The fields of a record word (R166). -/
def fieldsOf (w : Word) : Record := ⟨w.getLsbD 56, tyOf w, fnOf w, opndOf w 0, opndOf w 1, opndOf w 2⟩

/-- Column V of the opcode map (R183). -/
def producesValue (op fn : Nat) : Bool :=
  (1 ≤ op && op ≤ 0x2F) || op = 0x31 || op = 0x3D || op = 0x3E || op = 0x40 || op = 0x42 || op = 0x43 || op = 0x45 || op = 0x46
    || (op = 0x49 && fn % 4 = 3) || op = 0x4A || op = 0x4E || op = 0x4F || op = 0x53 || op = 0x5E
    || (op = 0x5F && (fn = 2 || fn = 3 || fn = 5))

/-- A record that produces two values (R168, R285). -/
def twoValued (w : Word) : Bool :=
  let op := opOf w
  ((op = 0x3E || op = 0x40) && tyOf w = .kb) || (op = 0x43 && (tyOf w = .b64 || tyOf w = .i64 || tyOf w = .n64))

/-- An operand of record `i` of a block is uniform-valued (R171). -/
def uvIn (recs : List Word) (i : Nat) (o : Opnd) : Bool :=
  match o with
  | .dist d => d ≠ 0 && d.toNat ≤ i && (recs.getD (i - d.toNat) 0).getLsbD 56
  | .keep _ | .vreg _ | .ureg _ | .dimm _ => false
  | _ => true

/-- A constant operand as a 64-bit pattern (R308). -/
def constIn (lits : List Word) (o : Opnd) : Option Word :=
  match o with
  | .imm v => some (v.signExtend 64)
  | .lit n => lits[n.toNat]?
  | _ => none

/-- The block number of a control target (R173). -/
def targetOf (lits : List Word) (o : Opnd) : Option Nat :=
  match o with
  | .imm v => if v.toInt < 0 then none else some v.toNat
  | .lit n => (lits[n.toNat]?).map (fun l => l.toNat % 2 ^ 16)
  | _ => none

/-! ## What a record is checked against -/

/-- A block under check: its table, which blocks start with a JOIN, the entries it is reachable from and whose tender
block it is, the bounds these give. -/
structure CheckCtx where
  table : List BlockInfo
  /-- Blocks that start with a JOIN. -/
  joins : List Nat
  /-- Entries that reach the block, and kernels that name it as TBLK. -/
  reach : List EntryDesc
  nkeep : Nat
  nargs : Nat
  ngroup : Nat
  blk : Nat
  kind : Nat
  variant : Bool
  nrec : Nat
  recs : List Word
  lits : List Word

/-- The errors of R181. -/
def errReservedOp : Nat := 2
def errRzSet : Nat := 3
def errBadFn : Nat := 4
def errBadTy : Nat := 5
def errBadOperand : Nat := 6
def errBadUniform : Nat := 7
def errBadBlock : Nat := 8
def errBadShape : Nat := 9
def errBadEntry : Nat := 10
def errBadOrder : Nat := 11
def errBadDecl : Nat := 12

/-- A block may be named by a control target (R173). -/
def targetable (m : CheckCtx) (b : Nat) : Bool :=
  match m.table[b]? with
  | some i => callable i
  | none => false

/-- Record 0 of a block is a JOIN. -/
def joinAt (m : CheckCtx) (b : Nat) : Bool := m.joins.contains b

/-- The fields OP, RZ, TY, FN and U of record `i` (R166, R171, R183). U is judged by the operands' kinds; their RZ bits come
after it (R182). -/
def headFault (m : CheckCtx) (i : Nat) (w : Word) : Nat :=
  let op := opOf w
  let r := fieldsOf w
  let uvs := (List.range 3).all (fun p => (opndLoose w p).isAbsent || uvIn m.recs i (opndLoose w p))
  if 0x60 ≤ op then errReservedOp
  else if w.extractLsb' 45 2 ≠ 0 then errRzSet
  else if !tyListed op r.ty then errBadTy
  else if !fnListed op r.ty r.fn.toNat then errBadFn
  else if !orderOk op r.fn then errBadOrder
  else
    match uniformClass op with
    | 0 => if r.u then errBadUniform else 0
    | 1 => if r.u then 0 else errBadUniform
    | 2 => 0
    | 3 => if r.u && !uvs then errBadUniform else 0
    | _ => if r.u && (match opndLoose w 0 with
        | .unif _ => false
        | _ => true) then errBadUniform else 0

/-- The kind of an operand by itself: DIST (R167), bounds of NAMED operands (R174, R263), the pool (R175). -/
def kindFault (m : CheckCtx) (i : Nat) (o : Opnd) : Bool :=
  match o with
  | .dist d =>
    d ≠ 0 && !(d.toNat ≤ i &&
      (let j := i - d.toNat
       producesValue (opOf (m.recs.getD j 0)) (fnOf (m.recs.getD j 0)).toNat
        && (List.range (i - j - 1)).all (fun n => let op := opOf (m.recs.getD (j + 1 + n) 0); op ≠ 0x36 && op ≠ 0x37)))
  | .keep n => m.nkeep ≤ n.toNat
  | .arg n => m.nargs ≤ n.toNat
  | .spec n => 16 ≤ n.toNat
  | .lit n => m.lits.length ≤ n.toNat
  | _ => false

/-- A control target of a record, or a join block (R173, R268, R270, R294): its error. -/
def targetFault (m : CheckCtx) (op fn pos : Nat) (o : Opnd) : Nat :=
  match targetOf m.lits o with
  | none => errBadBlock
  | some b =>
    if op = 0x35 && pos = 0 then (if b = m.blk then 0 else errBadBlock)
    else if !targetable m b then errBadBlock
    else if pos = 2 then (if joinAt m b then 0 else errBadBlock)
    else if op = 0x4D && fn = 0 then
      let task : Bool := match (m.table[b]?).bind (fun i => i.desc) with
        | some d => d.ekind = 2
        | none => false
      if !task then errBadBlock
      else match o with
        | .lit n => if (m.lits.getD n.toNat 0).toNat / 2 ^ 21 = 0 then 0 else errBadOperand
        | _ => 0
    else 0

/-- What a matrix format needs (R313): K, the row stride of A, whether it has scales. -/
structure MatShape where
  k : Nat
  rs : Nat
  scales : Bool
  deriving DecidableEq, Repr

/-- The shape of a TY and kb member (R313). -/
def matShape (t : Ty) (mem : Nat) : MatShape :=
  match t with
  | .f64 => ⟨4, 32, false⟩
  | .f32 => ⟨8, 32, false⟩
  | .f16 | .bf16 => ⟨32, 64, false⟩
  | .e2m1 => ⟨128, 64, true⟩
  | .kb => ⟨if mem = 0 then 128 else 64, 64, true⟩
  | _ => ⟨64, 64, false⟩

/-- Tiles of a role in a descriptor, in bytes (R85). -/
def descRole (d : EntryDesc) (role : Nat) : Nat :=
  16384 * ((List.range 16).filter (fun t => d.tiles.toNat / 8 ^ t % 8 = role)).length

/-- A constant buffer offset lies in its role's space with its range, aligned to 32, RZ bits clear (R308). -/
def constOffset (d : EntryDesc) (role : Nat) (v : Nat) (n : Nat) : Bool :=
  v < 2 ^ 18 && v % 32 = 0 && v + n ≤ descRole d role

/-- A constant operand of a tender record against a kernel that names the block (R308, R310, R315 to R318), at p = 0. -/
def tenderConstOk (d : EntryDesc) (op : Nat) (r : Record) (pos : Nat) (v : Word) : Bool :=
  let n := v.toNat
  let sh := matShape r.ty (r.fn.toNat / 8)
  let wide : Nat := if r.ty = .f64 then 8192 else 4096
  if op = 0x57 then
    if pos = 0 then
      n / 2 ^ 24 = 0 && n / 2 ^ 16 ≤ 235 && n / 2 ^ 16 + 19 < d.nkeep
        && (List.range 4).all (fun q => n / 16 ^ q % 16 < d.waves)
    else n / 2 ^ 50 = 0 && n / 2 ^ 18 % 2 ^ 14 = 0
  else if (op = 0x55 || op = 0x56) && pos = 0 then
    n / 2 ^ 50 = 0 && n / 2 ^ 18 % 2 ^ 14 = 0 && constOffset d 4 (n % 2 ^ 18) (32 * sh.rs)
      && (!sh.scales || constOffset d 4 (n / 2 ^ 32) 1024)
  else if (op = 0x55 || op = 0x56) && pos = 1 then constOffset d 5 n wide
  else if op = 0x56 then constOffset d 4 n 16
  else if op = 0x59 && pos < 2 then
    constOffset d 5 n (if pos = 0 then (if r.c = .imm 1 then 8192 else 4096) else 1024 * ((fmtOf r.ty).bits / 8))
  else if op = 0x5A && pos = 0 then constOffset d 5 n (if r.b = .imm 1 then 8192 else 4096)
  else true

/-- The rules of an operand that its block and the entries that reach it judge: 0, or its error. -/
def placeFault (m : CheckCtx) (i : Nat) (w : Word) (pos : Nat) : Nat :=
  let op := opOf w
  let r := fieldsOf w
  let fn := r.fn.toNat
  let o := recOpnd r pos
  let uv (p : Nat) : Bool := uvIn m.recs i (recOpnd r p)
  let ok (b : Bool) : Nat := if b then 0 else errBadOperand
  let below : Bool := match o with
    | .imm v => v.toNat < m.ngroup
    | _ => false
  let group : Nat := match o with
    | .imm v => v.toNat
    | _ => 256
  let const (n : Nat) : Bool := (constIn m.lits o).all (fun v => v.toNat % n = 0)
  if op = 0x35 && pos = 2 then
    if m.kind = 1 then 0
    else if m.kind ≠ 0 then ok o.isAbsent
    else if o.isAbsent then ok (uv 1)
    else targetFault m op fn 2 o
  else if op = 0x35 && pos = 1 && m.kind = 3 then
    match constIn m.lits o with
    | some v => ok (o.isTender && v.toNat / 2 ^ 28 = 0 && v.toNat / 2 ^ 16 % 2 ^ 12 < i)
    | none => ok o.isTender
  else if (pos = 0 && (op = 0x32 || op = 0x33 || op = 0x35 || op = 0x36 || (op = 0x4D && fn = 0))) || (pos = 2 && op = 0x33) then
    targetFault m op fn pos o
  else if op = 0x15 && fn = 1 then ok (pos ≠ 0 || (0 < i && twoValued (m.recs.getD (i - 1) 0)))
  else if op = 0x30 && pos = 0 && m.kind = 2 then
    match o with
    | .unif _ => errBadShape
    | _ => 0
  else if (op = 0x4B || op = 0x4C) && pos = 0 then ok below
  else if op = 0x4C && pos = 1 then ok (uv 1)
  else if op = 0x4E && fn ≠ 3 && pos = 0 then ok (uv 0)
  else if op = 0x4F && fn = 1 && pos = 0 then ok (uv 0)
  else if op = 0x5F && ((fn = 0 && pos = 0) || (fn = 3 && pos = 1)) then ok (uv pos)
  else if (op = 0x50 || op = 0x51) && pos = 1 then
    match constIn m.lits o with
    | some v =>
      let role := v.toNat / 2 ^ 20 % 8
      ok (if op = 0x50 then role = 0 else if fn % 2 = 1 then role = 0 || role = 4 || role = 5 else role ≠ 1 && role ≠ 2 && role < 6)
    | none => 0
  else if op = 0x58 then
    match pos with
    | 0 => ok (uv 0 && const 16)
    | 1 => ok (match o with
        | .keep n => n.toNat + 4 < m.nkeep
        | _ => false)
    | _ => ok (o.isAbsent || (uv 2 && const 8))
  else if op = 0x5B && pos = 0 then ok (below && m.reach.all (fun d => (d.groups.getD group (0, false)).2))
  else if m.kind = 3 && 0x55 ≤ op && op ≤ 0x5A then
    match constIn m.lits o with
    | some v => ok (o.isAbsent || m.reach.all (fun d => tenderConstOk d op r pos v))
    | none => 0
  else 0

/-- Operand `pos` of record `i` (R167, R171, R174, and the record's description): 0, or its error. A control target that is no
IMM13 and no LIT breaks R173 and its opcode's operand rule at once; the model reports BAD_OPERAND, as R181 does not choose
(DESIGN CHOICE, log entry 41). -/
def operandError (m : CheckCtx) (i : Nat) (w : Word) (pos : Nat) : Nat :=
  let op := opOf w
  let r := fieldsOf w
  if (Opnd.decode (fieldOf w pos)).isNone then errRzSet
  else if kindFault m i (recOpnd r pos) then errBadOperand
  else if operandFault op r = pos + 1 then
    (if op = 0x33 && pos = 2 && (recOpnd r pos).isAbsent then errBadBlock else errBadOperand)
  else placeFault m i w pos

/-- Opcodes a carriage may not contain (R44), SPAWN.launch apart. -/
def carriageBars (op : Nat) : Bool :=
  [0x35, 0x36, 0x37, 0x3A, 0x4B, 0x4C, 0x4E, 0x4F, 0x50, 0x51, 0x52, 0x53, 0x54, 0x55, 0x56, 0x57, 0x59, 0x5A, 0x5B, 0x5C, 0x5F].contains op

/-- Opcodes the body of a coupled region may not contain (R52), the final LOOP apart. -/
def bodyBars (op : Nat) : Bool :=
  [0x32, 0x33, 0x34, 0x35, 0x36, 0x37, 0x38, 0x39, 0x3A, 0x3B, 0x3C, 0x4B, 0x4C, 0x4E, 0x4F, 0x50, 0x51, 0x52, 0x4D, 0x49,
   0x2A, 0x2B, 0x2C, 0x2D, 0x2F, 0x55, 0x56, 0x57, 0x58, 0x59, 0x5A, 0x5B, 0x5C, 0x5F].contains op

/-- Opcodes of a tender block (R176). -/
def tenderOps (op : Nat) : Bool := [0x00, 0x35, 0x55, 0x56, 0x57, 0x59, 0x5A, 0x5B].contains op

/-- Some entry reaches the block, and every entry that does is of a kind (R44). A block that no entry reaches is reached by
none of the kind: R44's "reachable only from" would hold of it in the empty sense, which the model does not take (DESIGN
CHOICE, log entry 37). -/
def reachedOnlyBy (m : CheckCtx) (f : EntryDesc → Bool) : Bool := !m.reach.isEmpty && m.reach.all f

/-- The record may stand in its block's kind and at its position (R44, R52, R144, R172, R176, R268 to R272, R328); a
two-value record is followed by its MOV.hi (R168). -/
def shapeFault (m : CheckCtx) (i : Nat) (w : Word) : Nat :=
  let op := opOf w
  let fn := (fnOf w).toNat
  let last := m.nrec - 1
  let next := m.recs.getD (i + 1) 0
  if m.kind = 1 && (carriageBars op || (op = 0x4D && fn = 1 && !reachedOnlyBy m (fun d => d.ekind = 3 && d.launcher))) then errBadShape
  else if m.kind = 2 && ((i = 0) != (op = 0x5C) || (i = last) != (op = 0x5D)) then errBadShape
  else if m.kind = 2 && 0 < i && i < last
      && ((bodyBars op && !(op = 0x35 && i + 1 = last))
          || ((op = 0x3E || op = 0x3F || op = 0x42 || op = 0x43) && 6 ≤ fn)) then errBadShape
  else if m.kind ≠ 2 && (op = 0x5C || op = 0x5D) then errBadShape
  else if (m.kind = 3) != (tenderOps op && (m.kind = 3 || (op ≠ 0 && op ≠ 0x35))) then errBadBlock
  else if op = 0x49 && (fn % 4 = 1 || fn % 4 = 2)
      && (m.kind ≠ 1 || (!m.reach.isEmpty && m.reach.all (fun d => d.ekind ≠ 3))) then errBadShape
  else if op = 0x34 && i ≠ 0 then errBadBlock
  else if op = 0x35 && i ≠ (if m.kind = 2 then last - 1 else last) then errBadBlock
  else if (op = 0x36 || op = 0x37) && (i ≠ last || m.table.length ≤ m.blk + 1) then errBadBlock
  else if op = 0x37 && !joinAt m (m.blk + 1) then errBadBlock
  else if twoValued w && !(i < last && opOf next = 0x15 && fnOf next = 1) then errBadOperand
  else 0

/-- Registers a value takes (R189). -/
def valueRegs (w : Word) : Nat := if (resTy (opOf w) (tyOf w)).wide then 2 else 1

/-- A record at or after `i` reads the value of record `j` (R189). -/
def readLater (recs : List Word) (j i : Nat) : Bool :=
  ((recs.drop i).zipIdx i).any (fun p =>
    (List.range 3).any (fun q => match opndOf p.1 q with
      | .dist d => d ≠ 0 && d.toNat + j = p.2
      | _ => false))

/-- Registers of the live values at record `i` (R189). -/
def liveRegs (recs : List Word) (i : Nat) : Nat :=
  (((recs.take i).zipIdx).map (fun p => if readLater recs p.2 i then valueRegs p.1 else 0)).sum

/-- The live values at record `i` need more registers than the smallest WINDOW and the largest NKEEP leave (R189). -/
def budgetFault (m : CheckCtx) (i : Nat) : Bool :=
  match m.reach with
  | d :: ds =>
    let win := ds.foldl (fun a e => min a e.window) d.window
    let nk := ds.foldl (fun a e => max a e.nkeep) d.nkeep
    decide (m.kind ≠ 3 ∧ (win : Int) - 2 * nk - 8 < liveRegs m.recs i)
  | [] => false

/-- Record `i` of a block: its error and OPND, in the order of R182; none where it passes. -/
def recordFault (m : CheckCtx) (i : Nat) (w : Word) : Option (Nat × Nat) :=
  let h := headFault m i w
  if h ≠ 0 then some (h, 0)
  else
    match (List.range 3).find? (fun p => operandError m i w p ≠ 0) with
    | some p => some (operandError m i w p, p + 1)
    | none =>
      let e := shapeFault m i w
      if e ≠ 0 then some (e, 0)
      else if budgetFault m i then some (errBadBlock, 0)
      else none

/-- The opcodes after which a block does not fall through (R172). -/
def endsBlock (op : Nat) : Bool := op = 0x32 || op = 0x38 || op = 0x39 || op = 0x3B

/-- A block falls through past the module, or into a tender block or a variant (R172). -/
def fallFault (m : CheckCtx) : Bool :=
  m.kind ≠ 3 && !m.variant && !endsBlock (opOf (m.recs.getD (m.nrec - 1) 0)) && !targetable m (m.blk + 1)

/-! ## The module image -/

/-- A verification failure (R181). -/
structure VFail where
  err : Nat
  blk : Nat
  rcd : Nat
  opnd : Nat
  deriving DecidableEq, Repr

/-- The verification word of a failure (R181). -/
def VFail.word (f : VFail) : Word := BitVec.ofNat 64 (f.err + f.blk * 2 ^ 8 + f.rcd * 2 ^ 24 + f.opnd * 2 ^ 36)

/-- A failure of the header or a table. -/
def tableFail (e : Nat) : VFail := ⟨e, 0xFFFF, 0, 0⟩

/-- A byte range [off, off + n) of the image. -/
abbrev Span := Nat × Nat

/-- Two ranges overlap. -/
def spansMeet (a b : Span) : Bool := 0 < a.2 && 0 < b.2 && a.1 < b.1 + b.2 && b.1 < a.1 + a.2

/-- The header of R177 is as it must be. A BLKTAB or RESTAB below 64 would lie in the header, which R177 leaves open: the model
refuses it with BAD_HEADER; so it does a HANDLER at or above NBLOCK (DESIGN CHOICE, log entry 41). -/
def headerOk (base : Word) (h : ModHeader) : Bool :=
  base.toNat % 64 = 0 && h.raw.take 4 = [0x49, 0x53, 0x49, 0x45] && field h.raw 4 2 = 1 && field h.raw 6 2 = 0
    && 1 ≤ h.nblock && h.nblock ≤ 65535 && h.nres ≤ 65535 && 64 ≤ h.size
    && h.blktab % 32 = 0 && 64 ≤ h.blktab && h.blktab + 32 * h.nblock ≤ h.size
    && (h.nres = 0 || (h.restab % 32 = 0 && 64 ≤ h.restab && h.restab + 32 * h.nres ≤ h.size))
    && (h.handler = 0xFFFF || h.handler < h.nblock) && (h.raw.drop 0x1E).all (fun b => b = 0)

/-- The block-table entry of a block, as its 32 bytes (R178). A RECOFF, LITOFF or DESCOFF beyond SIZE gives BAD_BLOCK, though
BAD_HEADER's "an offset out of range" could be meant (DESIGN CHOICE, log entry 41). -/
def entryFault (h : ModHeader) (bs : List Byte) : Nat :=
  let kind := field bs 6 1
  let nrec := field bs 4 2
  let vw := field bs 7 1
  let nlit := field bs 0xA 2
  let desc := field bs 0x10 4
  if !(bs.drop 0x14).all (fun b => b = 0) then errRzSet
  else if 3 < kind || nrec = 0 || (kind = 2 && nrec < 3) || ((kind = 1 || kind = 2) && 128 < nrec) || 4096 < nrec
      || field bs 0 4 % 8 ≠ 0 || h.size < field bs 0 4 + 8 * nrec || 4096 < nlit
      || (nlit ≠ 0 && (field bs 0xC 4 % 8 ≠ 0 || h.size < field bs 0xC 4 + 8 * nlit))
      || !(if kind = 2 then vw = 1 || vw = 2 || vw = 4 || vw = 8 else vw = 0)
      || (vw ≤ 1 && field bs 8 2 ≠ 0xFFFF) || desc % 32 ≠ 0 || (desc ≠ 0 && h.size < desc + 64) then errBadBlock
  else 0

/-- A variant names a region, and no other variant of that region has its width (R178). -/
def variantOk (t : List BlockInfo) (i : Nat) (b : BlockInfo) : Bool :=
  b.vwidth ≤ 1 ||
    ((match t[b.vof]? with
      | some r => r.kind = 2 && r.vwidth = 1
      | none => false)
     && (t.zipIdx).all (fun p => p.2 = i || !(p.1.vwidth = b.vwidth && p.1.vof = b.vof)))

/-- The ranges a block owns: records, literal pool, descriptor. -/
def spansOf (bs : List Byte) (d : Option EntryDesc) : List Span :=
  [(field bs 0 4, 8 * field bs 4 2), (field bs 0xC 4, 8 * field bs 0xA 2),
   (field bs 0x10 4, match d with
    | some e => 64 + 4 * e.groups.length
    | none => 0)]

/-- No range of one list meets a range of another list. -/
def spansApart : List (List Span) → Bool
  | [] => true
  | a :: rest => rest.all (fun b => a.all (fun x => b.all (fun y => !spansMeet x y))) && spansApart rest

/-- A resource declaration (R180): its error. Beside the RZ bytes only the named literal is checked. -/
def declFault (t : List BlockInfo) (bs : List Byte) : Nat :=
  if !(bs.drop 0x1A).all (fun b => b = 0) then errRzSet
  else match t[field bs 0x16 2]? with
    | some b => if field bs 0x18 2 < b.nlit then 0 else errBadDecl
    | none => errBadDecl

/-- RZ fields of a descriptor (R179), from its 64 bytes and its groups. -/
def descRzOk (bs groups : List Byte) : Bool :=
  (bs.drop 0x22).all (fun b => b = 0) && field bs 0xE 2 = 0 && field bs 0x10 4 < 2 ^ 18 && field bs 0x14 4 < 2 ^ 18
    && field bs 0x1F 1 < 4 && (List.range (groups.length / 4)).all (fun g => field groups (4 * g) 4 < 2 ^ 17)

/-- A descriptor meets R30, R32, R80, R85, R141, R156 and R179. R179 gives TMR for task entries and evaluators: in a kernel or
a handler any code up to 15 is accepted and nothing reads it (DESIGN CHOICE, log entry 41). -/
def descOk (t : List BlockInfo) (splice : Bool) (d : EntryDesc) : Bool :=
  let kern : Bool := d.ekind = 1
  let win : Nat := if d.ekind ≤ 2 then 768 else 128
  let per (w : Nat) : Nat := (d.groups.filter (fun g => g.1.getLsbD w)).length
  1 ≤ d.ekind && d.ekind ≤ 4
    && (if kern then 1 ≤ d.waves && d.waves ≤ 14 else d.waves = 1)
    && d.window % 8 = 0 && 8 ≤ d.window && d.waves * d.window ≤ win
    && d.priv % 16 = 0 && d.priv ≤ 65536
    && (List.range 16).all (fun i => d.tiles.toNat / 8 ^ i % 8 ≤ 5)
    && (kern || (d.tiles = 0 && d.dqbase = 0 && d.dqlim = 0))
    && d.dqbase % 32 = 0 && d.dqlim % 32 = 0 && d.dqbase ≤ d.dqlim && (!kern || d.dqlim ≤ descRole d 0)
    && (d.tblk = 0xFFFF || (kern && (match t[d.tblk]? with
      | some x => x.kind = 3
      | none => false)))
    && d.nargs ≤ 256 && d.nkeep ≤ 256 && d.tmr ≤ 15 && (kern || !splice) && (!d.launcher || d.ekind = 3)
    && d.groups.length ≤ (if kern then 254 else if d.ekind = 2 then 0 else 1)
    && d.groups.all (fun g => g.1.toNat < 2 ^ d.waves && (g.1 ≠ 0 || g.2) && (!g.2 || d.tblk ≠ 0xFFFF))
    && (List.range 16).all (fun w => per w ≤ 4)

/-! ## Reachability (R189) -/

/-- A block of the image with its bytes. -/
structure VBlock where
  info : BlockInfo
  raw : List Byte
  recs : List Word
  lits : List Word
  deriving DecidableEq, Repr

/-- The blocks one step away from a block (R189). The handler entry and task entries are not reached by a RET or CALLI:
they are entries of their own. -/
def stepsFrom (bs : List VBlock) (b : Nat) : List Nat :=
  match bs[b]? with
  | none => []
  | some v =>
    let ops := v.recs.map opOf
    let tgt (w : Word) (p : Nat) : List Nat := (targetOf v.lits (opndOf w p)).toList
    let direct := v.recs.flatMap (fun w =>
      let op := opOf w
      (if op = 0x32 || op = 0x33 || op = 0x35 || op = 0x36 then tgt w 0 else [])
        ++ (if op = 0x33 || op = 0x35 then tgt w 2 else [])
        ++ (if op = 0x36 || op = 0x37 then [b + 1] else []))
    let fall := if v.info.kind = 2 && v.info.vwidth ≠ 1 then [v.info.vof + 1]
      else if v.info.kind = 3 || endsBlock (ops.getLastD 0) then [] else [b + 1]
    let variants := if v.info.kind = 2 && v.info.vwidth = 1 then
        ((bs.zipIdx).filter (fun p => p.1.info.kind = 2 && p.1.info.vwidth ≠ 1 && p.1.info.vof = b)).map (fun p => p.2)
      else []
    let anywhere := if ops.any (fun o => o = 0x37 || o = 0x38) then
        ((bs.zipIdx).filter (fun p => callable p.1.info && (match p.1.info.desc with
          | some d => d.ekind ≠ 2 && d.ekind ≠ 4
          | none => true))).map (fun p => p.2)
      else []
    (direct ++ fall ++ variants ++ anywhere).filter (fun n => n < bs.length)

/-- The closure of a list of blocks under `stepsFrom`: `todo` blocks are in `seen`. -/
def closeSteps (bs : List VBlock) : Nat → List Nat → List Nat → List Nat
  | 0, seen, _ => seen
  | _, seen, [] => seen
  | fuel + 1, seen, b :: todo =>
    let new := ((stepsFrom bs b).filter (fun n => !seen.contains n)).eraseDups
    closeSteps bs fuel (seen ++ new) (todo ++ new)

/-- Each entry of the module with the blocks it reaches, its tender block among them. -/
def reachedBlocks (bs : List VBlock) : List (EntryDesc × List Nat) :=
  (bs.zipIdx).filterMap (fun p => p.1.info.desc.map (fun d =>
    let start := if d.tblk = 0xFFFF then [p.2] else [p.2, d.tblk]
    (d, closeSteps bs (bs.length + 2) start start)))

/-- Blocks that start with a JOIN. -/
def joinBlocks (bs : List VBlock) : List Nat :=
  ((bs.zipIdx).filter (fun p => opOf (p.1.recs.headD 0) = 0x34)).map (fun p => p.2)

/-- What a block is checked against, from the facts about its module. -/
def blockCtx (table : List BlockInfo) (joins : List Nat) (reach : List (EntryDesc × List Nat)) (b : Nat) (i : BlockInfo)
    (recs lits : List Word) : CheckCtx :=
  let ds := (reach.filter (fun p => p.2.contains b)).map (fun p => p.1)
  { table := table, joins := joins, reach := ds,
    nkeep := ds.foldl (fun n d => min n d.nkeep) 256, nargs := ds.foldl (fun n d => min n d.nargs) 256,
    ngroup := ds.foldl (fun n d => min n d.groups.length) 256, blk := b, kind := i.kind,
    variant := i.kind = 2 && i.vwidth ≠ 1, nrec := i.nrec, recs := recs, lits := lits }

/-- What a block of the image is checked against. -/
def checkCtx (bs : List VBlock) (reach : List (EntryDesc × List Nat)) (b : Nat) (v : VBlock) : CheckCtx :=
  blockCtx (bs.map (fun v => v.info)) (joinBlocks bs) reach b v.info v.recs v.lits

/-- The first failure of a block (R182). -/
def blockFault (m : CheckCtx) : Option VFail :=
  match (m.recs.zipIdx).findSome? (fun p => (recordFault m p.2 p.1).map (fun e => VFail.mk e.1 m.blk p.2 e.2)) with
  | some f => some f
  | none => if fallFault m then some ⟨errBadBlock, m.blk, m.nrec - 1, 0⟩ else none

/-! ## The whole image -/

/-- Reads lists of bytes; none where a byte cannot be read. -/
def readAll (rd : CodeReader) (at' : List (Word × Nat)) : Option (List (List Byte)) :=
  at'.foldr (fun p acc => match acc, rd p.1 p.2 with
    | some l, .ok bs => some (bs :: l)
    | _, _ => none) (some [])

/-- The address of a byte of the image. -/
def imageAddr (base : Word) (off : Nat) : Word := base + BitVec.ofNat 64 off

/-- Every page of the image can be fetched (R177). -/
def imageFetched (rd : CodeReader) (base : Word) (size : Nat) : Bool :=
  (List.range (size / 4096 + 1)).all (fun i =>
    match rd (imageAddr base (min (4096 * i) (size - 1))) 1, rd (imageAddr base (size - 1)) 1 with
    | .ok _, .ok _ => true
    | _, _ => false)

/-- The blocks of an image whose table passes: their bytes. -/
def readVBlocks (rd : CodeReader) (raws : List (List Byte)) (t : List BlockInfo) : Option (List VBlock) :=
  (raws.zip t).foldr (fun p acc =>
    match acc, rd p.2.addr (8 * p.2.nrec), (if p.2.nlit = 0 then .ok [] else rd p.2.litAddr (8 * p.2.nlit)) with
    | some l, .ok rs, .ok ls => some (⟨p.2, p.1, wordsOf p.2.nrec rs, wordsOf p.2.nlit ls⟩ :: l)
    | _, _, _ => none) (some [])

/-- The descriptor of a block: its error (R179). No entry is a coupled or a tender block (R172). -/
def descFault (rd : CodeReader) (base : Word) (h : ModHeader) (t : List BlockInfo) (raw : List Byte) (b : BlockInfo) : Nat :=
  match b.desc with
  | none => 0
  | some d =>
    let off := field raw 0x10 4
    match rd (imageAddr base off) 64, rd (imageAddr base (off + 64)) (4 * d.groups.length) with
    | .ok bs, .ok gs =>
      if !descRzOk bs gs then errRzSet
      else if 2 ≤ b.kind then errBadBlock
      else if h.size < off + 64 + 4 * d.groups.length || !descOk t (field bs 0x1F 1 % 2 = 1) d then errBadEntry
      else 0
    | _, _ => errBadEntry

/-- HANDLER names a block with a handler descriptor (R177); another one gives BAD_ENTRY after the descriptors, a code and a
place that R177 and R182 do not give (DESIGN CHOICE, log entry 41). -/
def handlerOk (h : ModHeader) (t : List BlockInfo) : Bool :=
  h.handler = 0xFFFF || (match (t[h.handler]?).bind (fun b => b.desc) with
    | some d => d.ekind = 4
    | none => false)

/-- The first failure of an image, in the order of R182; none where it verifies. -/
def imageFault (rd : CodeReader) (base : Word) : Option VFail :=
  match readHeader rd base with
  | .error _ => some (tableFail 1)
  | .ok h =>
    if !headerOk base h || !imageFetched rd base h.size then some (tableFail 1)
    else
      let tab := imageAddr base h.blktab
      match readAll rd ((List.range h.nblock).map (fun i => (tab + BitVec.ofNat 64 (32 * i), 32))),
          readAll rd ((List.range h.nres).map (fun i => (imageAddr base (h.restab + 32 * i), 32))) with
      | some raws, some decls =>
        match raws.find? (fun bs => entryFault h bs ≠ 0) with
        | some bs => some (tableFail (entryFault h bs))
        | none =>
          match readBlocks rd base tab h.nblock 0 with
          | .error _ => some (tableFail errBadBlock)
          | .ok t =>
            if (t.zipIdx).any (fun p => !variantOk t p.2 p.1)
                || !spansApart ((raws.zip t).map (fun p => spansOf p.1 p.2.desc)) then some (tableFail errBadBlock)
            else
              match decls.find? (fun bs => declFault t bs ≠ 0) with
              | some bs => some (tableFail (declFault t bs))
              | none =>
                match ((raws.zip t).zipIdx).find? (fun p => descFault rd base h t p.1.1 p.1.2 ≠ 0) with
                | some p => some ⟨descFault rd base h t p.1.1 p.1.2, p.2, 0, 0⟩
                | none =>
                  if !handlerOk h t then some ⟨errBadEntry, h.handler, 0, 0⟩
                  else
                    match readVBlocks rd raws t with
                    | none => some (tableFail 1)
                    | some bs =>
                      let reach := reachedBlocks bs
                      (bs.zipIdx).findSome? (fun p => blockFault (checkCtx bs reach p.2 p.1))
      | _, _ => some (tableFail 1)

/-- The verification word of a module (R181). -/
def verifyModule (rd : CodeReader) (base : Word) : Word :=
  match imageFault rd base with
  | some f => f.word
  | none => 0

/-- BLKTAB and the blocks of an image that has passed. -/
def imageBlocks (rd : CodeReader) (base : Word) : Nat × List VBlock :=
  match readTable rd base with
  | .error _ => (0, [])
  | .ok (h, t) => (h.blktab,
    ((readAll rd ((List.range h.nblock).map (fun i => (imageAddr base h.blktab + BitVec.ofNat 64 (32 * i), 32)))).bind
      (fun raws => readVBlocks rd raws t)).getD [])

/-- What is kept of a module's verification. -/
def verifiedModule (part : Nat) (rd : CodeReader) (base : Word) : ModReg :=
  let w := verifyModule rd base
  let f := if w = 0 then imageBlocks rd base else (0, [])
  let bs := f.2
  { part := part, base := base, word := w, blktab := f.1, table := bs.map (fun v => v.info), joins := joinBlocks bs, reach := reachedBlocks bs }

/-! ## The re-check of a block that is copied or lowered (R187, R199, R307) -/

/-- The module of a partition whose verification word is OK (R182). -/
def okModule (s : State) (p : Nat) (base : Word) : Option ModReg :=
  s.modules.find? (fun m => m.part = p && m.base = base && m.word.toNat % 256 = 0)

/-- What a block read again is checked against: its own bytes and descriptor as they now are, and what the module's
verification found of the others (R187). -/
def recheckCtx (m : ModReg) (b : Nat) (i : BlockInfo) (recs lits : List Word) : CheckCtx :=
  let now (p : EntryDesc × List Nat) : EntryDesc × List Nat :=
    match i.desc with
    | some d => if p.2.head? = some b then (d, p.2) else p
    | none => p
  blockCtx (setAt m.table b i) m.joins (m.reach.map now) b i recs lits

/-- Words of code, each with the cause and the address of a fetch that fails. -/
abbrev CodeWords := List (Except (BitVec 8 × Word) Word)

/-- Reads words of code one by one from number `i`. -/
def codeWords (rd : CodeReader) (base : Word) : Nat → Nat → CodeWords
  | 0, _ => []
  | n + 1, i =>
    (match rd (base + BitVec.ofNat 64 (8 * i)) 8 with
      | .ok bs => .ok (leWord bs)
      | .error e => .error e) :: codeWords rd base n (i + 1)

/-- The words before the first that cannot be read. -/
def readable : CodeWords → List Word
  | .ok w :: r => w :: readable r
  | _ => []

/-- Literals as values: one that cannot be read is read by no record before the marker. -/
def litValues (ls : CodeWords) : List Word :=
  ls.map (fun e => match e with
    | .ok w => w
    | .error _ => 0)

/-- The first literal that a record reads and that cannot be fetched. -/
def litError (ls : CodeWords) (w : Word) : Option (BitVec 8 × Word) :=
  (List.range 3).findSome? (fun p =>
    match opndOf w p with
    | .lit n =>
      (match ls[n.toNat]? with
        | some (.error e) => some e
        | _ => none)
    | _ => none)

/-- Why a record cannot be used: its bytes or a literal it reads cannot be fetched, or it fails its check. -/
def recordStop (m : CheckCtx) (ls : CodeWords) (i : Nat) (w : Except (BitVec 8 × Word) Word) : Option Marker :=
  match w with
  | .error e => some ⟨i, e.1, e.2⟩
  | .ok w =>
    match litError ls w with
    | some e => some ⟨i, e.1, e.2⟩
    | none => if (recordFault m i w).isSome then some ⟨i, causeLowerReject, 0⟩ else none

/-- The first record of a block that cannot be used. -/
def codeMarker (m : CheckCtx) (rs ls : CodeWords) : Option Marker :=
  (rs.zipIdx).findSome? (fun p => recordStop m ls p.2 p.1)

/-- MOV.hi, which a two-value record wants after it (R168): it stands for a record that cannot be read, which ends the
block by itself. -/
abbrev movHi : Word := BitVec.ofNat 64 (0x15 * 2 ^ 57 + 2 ^ 47)

/-- A block read again: its records up to the first that cannot be used, its literals, and that record. -/
def recheck (m : ModReg) (b : Nat) (i : BlockInfo) (rs ls : CodeWords) : List Word × List Word × Option Marker :=
  let recs := readable rs
  let lits := litValues ls
  (recs, lits, codeMarker (recheckCtx m b i (recs ++ [movHi]) lits) rs ls)

end Sys2Proof.Machine
end

