-- ==== Sys2Proof/Machine/Launch.lean ====
section
/-! DEFINITION. Launches: SPAWN.launch and acceptance (R45, R295), readiness (R46), placement, reservation, configuration
swaps (R32, R33, R47), retirement (R307), completion and splicing (R48, R49), and launches that fail (R392). -/

namespace Sys2Proof.Machine

/-! ## Reading a launch record (R45, R295) -/

/-- What a wide read meets on a cell page (R136, R138): the first cell that is not VALUE, with the cause it raises, as bytes from
the start of the chunk. -/
def cellShape (s : State) (x : Xlat) (n : Nat) : Option (BitVec 8 × Nat) :=
  match x.cell, x.place with
  | true, .dev pa =>
    ((List.range 9).map (fun i => pa / 8 * 8 + 8 * i)).findSome? (fun q =>
      if q < pa + n && cellTag s q ≠ 0 then some (if cellLost s q then causeCellFailed else causeCellShape, q - pa) else none)
  | _, _ => none

/-- A read made for SPAWN.launch: the faults of a load (R282, R295), and what the issuing carriage has stored (R42). -/
def launchBytes (s : State) (p : Nat) (secure : Bool) (va : Word) (n : Nat) : State × Except (BitVec 8 × Word) (List Byte) :=
  let r := readChunks true cellShape s p secure va n
  match r.2 with
  | .error (c, a) =>
    if c = causeCellFailed then
      (match xlatCheck r.1 p secure .load a with
        | .ok ⟨.dev pa, _, _⟩ => lostCell r.1 p a pa
        | _ => r.1, r.2)
    else r
  | _ => r

/-- A list of `n` words of a launch record: 8-byte reads (R295). -/
def launchList (s : State) (p : Nat) (secure : Bool) (va : Word) (n : Nat) : State × Except (BitVec 8 × Word) (List Byte) :=
  if 0 < n && canonical va && va.toNat % 8 ≠ 0 then (s, .error (causeMisaligned, va))
  else launchBytes s p secure va (8 * n)

/-- Reads a launch record, its input list and its arguments once; the lists of a launch that NARG or NIN fails are not
read (R45, R392). Of the reads of the two lists the failure at the lowest address decides (R359). -/
def readLaunch (s : State) (p : Nat) (secure : Bool) (va : Word) : State × Except (BitVec 8 × Word) LaunchRead :=
  if !canonical va then (s, .error (causeSpaceBad, va))
  else if va.toNat % 64 ≠ 0 then (s, .error (causeMisaligned, va))
  else
    let r := launchBytes s p secure va 64
    match r.2 with
    | .error e => (r.1, .error e)
    | .ok bs =>
      let narg := field bs 0xC 2
      let nin := field bs 0xE 1
      if 256 < narg || 32 < nin then (r.1, .ok ⟨va, bs, [], []⟩)
      else
        let i := launchList r.1 p secure (leWord ((bs.drop 0x20).take 8)) nin
        let a := launchList i.1 p secure (leWord ((bs.drop 0x28).take 8)) narg
        (a.1, match i.2, a.2 with
          | .error e, .error f => .error (if e.2.toNat ≤ f.2.toNat then e else f)
          | .error e, _ | _, .error e => .error e
          | .ok ib, .ok ab => .ok ⟨va, bs, wordsOf nin ib, wordsOf narg ab⟩)

/-! ## Acceptance (R45, R46, R48, R392) -/

/-- How an input cell stands. -/
inductive InputSt where
  | value | waits
  | fails (c : BitVec 8)
  deriving DecidableEq, Repr

/-- The die of a partition's lowest cluster stands for its launch scheduler in the log. -/
def schedulerOf (s : State) (p : Nat) : Nat := ((partClusters s p).headD 0) / 52

/-- An input cell as the scheduler reads it (R46); with `touch` a DORMANT cell wakes, as a load would wake it, and the
launch joins the waiters. -/
def inputCell (s : State) (p : Nat) (secure touch : Bool) (id : Nat) (va : Word) : State × InputSt :=
  if canonical va && va.toNat % 8 ≠ 0 then (s, .fails causeMisaligned)
  else
    match xlatCheck s p secure .load va with
    | .error c => (logWorld s p (4, schedulerOf s p) c va, .fails c)
    | .ok x =>
      let s := xlatMark s p .load va x.leaf
      match x.cell, x.place with
      | true, .dev pa =>
        let tag := cellTag s pa
        if tag = 0 then (s, .value)
        else if tag = 3 then (s, .fails causeCellFailed)
        else if tag = 2 then
          match wakingOf s pa with
          | none => (lostCell s p va pa, .fails causeCellFailed)
          | some _ =>
            if touch then ({ s with waking := s.waking.map (fun r =>
              if r.pa = pa then { r with launches := r.launches ++ [id] } else r) }, .waits)
            else (s, .waits)
        else if touch then
          let r := wakeCell s p pa va (BitVec.ofNat 64 (devNat s (pa / 8 * 8) 8)) secure ⟨(4, schedulerOf s p), [], none, none, some id, selfSlot s⟩
          (r.1, if r.2 then .fails causeCellFailed else .waits)
        else (s, .waits)
      | _, _ => (s, .value)

/-- Inputs of a launch: each of them is read, and touched where it is to be; the first that fails decides (R46). -/
def inputCells (s : State) (p : Nat) (secure touch : Bool) (id : Nat) (st : InputSt) (ins : List Word) : State × InputSt :=
  ins.foldl (fun acc va =>
    let r := inputCell acc.1 p secure touch id va
    (r.1, match acc.2, r.2 with
      | .fails c, _ => .fails c
      | x, .value => x
      | _, x => x)) (s, st)

/-- How the inputs of a launch stand (R46): of a spliced launch its predecessor's cell is neither touched nor waited for (R49),
but fails it as any input does. -/
def launchInputs (s : State) (l : Launch) (touch : Bool) : State × InputSt :=
  match l.pred, l.inputs with
  | some _, va :: ins =>
    let r := inputCell s l.part l.secure false l.id va
    inputCells r.1 l.part l.secure touch l.id (match r.2 with
      | .waits => .value
      | x => x) ins
  | _, ins => inputCells s l.part l.secure touch l.id .value ins

/-- An identity that no live launch has, from `nextLaunch` on (R263). -/
def freshLaunch (s : State) : Nat :=
  (((List.range (s.launches.length + 1)).map (fun i => (s.nextLaunch - 1 + i) % (2 ^ 32 - 1) + 1)).find?
    (fun id => !s.launches.any (fun l => l.id = id))).getD s.nextLaunch

/-- The launch becomes ready: its age and its first wait begin (R46, R47). -/
def makeReady (s : State) (id : Nat) : State :=
  { s with nextAge := s.nextAge + 1,
           launches := s.launches.map (fun l =>
             if l.id = id then { l with st := .ready, age := s.nextAge, waited := s.fabricCycle } else l) }

/-- Where the bytes of a global address of a partition lie. -/
def globalPlace (s : State) (p : Nat) (va : Word) : Option Place :=
  if canonical va then (leafOf s p va).map (fun l => leafPlace l va) else none

/-- Where a launch's completion cell lies (R48); none where the launch has none. -/
def completionPlace (s : State) (l : Launch) : Option Place :=
  match l.adopt with
  | some e => some (.dev e.pa)
  | none => if l.done = 0 then none else globalPlace s l.part l.done

/-- The launch, not yet complete, whose completion cell an address names (R49). -/
def launchWithCell (s : State) (p : Nat) (va : Word) : Option Nat :=
  match globalPlace s p va with
  | none => none
  | some pl =>
    (s.launches.find? (fun l => l.part = p && (l.st = .waiting || l.st = .ready) && completionPlace s l = some pl)).map (fun l => l.id)

/-- The world a launch's blocks run in (R351): the world of the kernel's page with BOTHW, else the partition's. -/
def launchWorld (s : State) (p : Nat) (kernel : Word) : Bool :=
  if (partOf s p).bothw then
    match leafOf s p kernel with
    | some l => leafSecure s l kernel
    | none => false
  else (partOf s p).world

/-- The clusters of a launch lie in its partition (R45). -/
def clustersOk (s : State) (p cl0 ncl : Nat) : Bool :=
  ncl = 0 || (cl0 + ncl ≤ Config.numClusters && (List.range ncl).all (fun i => clusterPart s (cl0 + i) = p))

/-- An entry descriptor of nothing. -/
def noDesc : EntryDesc := ⟨0, 1, 8, 0, 0, 0, 0, 0xFFFF, 0, 0, 0, false, []⟩

/-- Accepts one launch of a lane (R45, R46, R48, R392). A refused one is listed as failed; LAUNCH_READY reports it. -/
def acceptLaunch (s : State) (c w lane : Nat) (rd : LaunchRead) : State :=
  match waveOf s c w with
  | none => s
  | some v =>
    let p := v.part
    let s := markBlocks s p
    let sec := (coreOf s c).world
    let bs := rd.raw
    let kernel := leWord (bs.take 8)
    let flags := field bs 0xF 1
    let wantsAdopt := flags / 8 % 2 = 1
    let adopt := if wantsAdopt && !v.adopted.getLsbD lane then evalOf v lane else none
    let cl0 := field bs 0x18 2
    let ncl := field bs 0x1A 2
    let found := findEntry s p kernel 1
    let first := rd.inputs.head?
    let pred := if flags / 4 % 2 = 1 then first.bind (launchWithCell s p) else none
    let world := launchWorld s p kernel
    let bad : Option (BitVec 8) :=
      if 256 < field bs 0xC 2 || 32 < field bs 0xE 1 || !clustersOk s p cl0 ncl then some causeHandleRange
      else if found.isNone then some causeLowerReject
      else if (partOf s p).bothw && world && !sec then some causeWorld
      else if wantsAdopt && adopt.isNone then some causeCellBusy
      else none
    let id := freshLaunch s
    let l : Launch :=
      { id := id, part := p, kernel := kernel, modl := (found.map (fun f => f.1.modl)).getD 0,
        entry := (found.map (fun f => f.1.blk)).getD 0, table := (found.map (fun f => f.1.table)).getD [],
        desc := (found.map (fun f => f.2)).getD noDesc, nblk := field bs 8 4,
        args := rd.args, inputs := rd.inputs, prio := flags % 4, splice := flags / 4 % 2 = 1, pred := pred, adopt := adopt,
        done := leWord ((bs.drop 0x10).take 8), cl0 := if ncl = 0 then 0 else cl0,
        ncl := if ncl = 0 then Config.numClusters else ncl, secure := sec, world := world, st := .waiting, age := 0,
        nextBlock := 0, retired := 0, waited := 0, record := rd.addr, cause := 0 }
    let s := { s with nextLaunch := if id + 1 < 2 ^ 32 then id + 1 else 1, launches := s.launches ++ [l] }
    let s := if adopt.isSome then onWave s c w (fun v => { v with adopted := v.adopted ||| laneBit lane }) else s
    match bad with
    | some cs => markLaunchFailed s id cs
    | none =>
      let r := launchInputs s l true
      match r.2 with
      | .value => makeReady r.1 id
      | .waits => r.1
      | .fails cs => markLaunchFailed r.1 id cs

/-- The launch records of lanes, read in ascending lane order; the lanes whose reads fault. -/
def readLaunches (s : State) (k : Ctx) (r : Record) : State × List (Nat × Fail) × List (Nat × LaunchRead) :=
  k.lanes.foldl (fun acc l =>
    let q := readLaunch acc.1 k.wave.part (coreOf s k.core).world (opA s k r .b64 l)
    match q.2 with
    | .error e => (q.1, acc.2.1 ++ [(l, failAddr e.1 e.2)], acc.2.2)
    | .ok d => (q.1, acc.2.1, acc.2.2 ++ [(l, d)])) (s, [], [])

/-- SPAWN.launch (R295): one launch per active lane, none where a read faults; in a launcher's carriage at the commit. -/
def execSpawnLaunch (r : Record) (s : State) : Host.Outcome State Fault Refusal :=
  onSlot s (fun k =>
    afterRelease s k (
      let q := readLaunches s k r
      if !sameRun q.1 k then q.1
      else if q.2.1 ≠ [] then trapFails q.1 k (.spawnLaunch r) q.2.1 0
      else
        match (slotOf k.wave k.x).car with
        | some _ =>
          advance (onSlotOf q.1 k.core k.w k.x (fun t => { t with car := t.car.map (fun c =>
            { c with launches := c.launches ++ q.2.2 }) })) k
        | none => advance (q.2.2.foldl (fun s p => acceptLaunch s k.core k.w p.1 p.2) q.1) k))

/-! ## Readiness, and launches that fail -/

/-- The completion cell of a failed launch becomes FAILED (R392): the adopting lane's own cell, or DONE where it is a
cell that can be written. -/
def failCompletion (s : State) (l : Launch) : State :=
  match l.adopt with
  | some e => ownCellFail s e l.cause 0xFFFF 0
  | none =>
    if l.done = 0 || l.done.toNat % 8 ≠ 0 then s
    else
      match xlatCheck s l.part l.secure .store l.done with
      | .error c => logWorld s l.part (4, schedulerOf s l.part) c l.done
      | .ok x =>
        match x.cell, x.place with
        | true, .dev pa =>
          let s := xlatMark s l.part .store l.done x.leaf
          (match wakingOf s pa with
            | some r => cellFail s { r with evix := 0 } l.cause 0xFFFF 0
            | none => cellPut s (deviceWriter s l.part) l.done pa (failedPayload l.cause 0xFFFF 0 0) 3)
        | _, _ => s

/-- The launch of an identity. -/
def launchOf (s : State) (id : Nat) : Option Launch := s.launches.find? (fun l => l.id = id)

/-- The launch leaves the scheduler; reservations of it end. -/
def dropLaunch (s : State) (id : Nat) : State :=
  { s with launches := s.launches.filter (fun l => l.id ≠ id),
           cores := s.cores.map (fun p => (p.1, if p.2.reserved = some id then { p.2 with reserved := none } else p.2)),
           waking := s.waking.map (fun r => { r with launches := r.launches.filter (fun i => i ≠ id) }) }

/-- A failed launch is logged, its completion cell becomes FAILED, and it leaves (R392). -/
def reportFailed (s : State) (l : Launch) : State :=
  dropLaunch (failCompletion (logEvent s 6 l.cause l.part 4 (schedulerOf s l.part) l.record noStage) l) l.id

/-- LAUNCH_READY (R46, R392): a launch whose inputs all hold VALUE is ready; a failed one is reported and leaves. A spliced launch
that has placed nothing still fails with its first input (R46, R49). -/
def execLaunchReady (launch : Nat) (s : State) : Host.Outcome State Fault Refusal :=
  .next (match launchOf s launch with
    | none => s
    | some l =>
      match l.st with
      | .failed => reportFailed s l
      | .waiting =>
        let r := launchInputs s l false
        (match r.2 with
          | .value => makeReady r.1 launch
          | .waits => r.1
          | .fails c => markLaunchFailed r.1 launch c)
      | .ready =>
        if l.pred.isNone || 0 < l.nextBlock then s
        else
          (match (launchInputs s { l with inputs := l.inputs.take 1 } false).2 with
            | .fails c => markLaunchFailed s launch c
            | _ => s)
      | .complete => s)

/-! ## Placement (R30 to R33, R47, R49) -/

/-- The configuration a launch asks for equals the one in force (R32). -/
def sameConfig (k : Core) (l : Launch) : Bool :=
  k.tiles = l.desc.tiles && k.dqbase = l.desc.dqbase && k.dqlim = l.desc.dqlim && k.world = l.world

/-- Places for the waves of a block: lowest free slots, lowest free windows. -/
def waveSpots (used : List (Nat × Nat)) (limit window g : Nat) : List Nat → Option (List Spot)
  | [] => some []
  | w :: ws =>
    match findWindow used limit window with
    | none => none
    | some b => (waveSpots ((b, window) :: used) limit window g ws).map (fun r => ⟨w, b, g⟩ :: r)

/-- Places for a block of a launch on a core whose configuration is the launch's (R32). -/
def blockSpots (s : State) (c : Nat) (l : Launch) : Option (List Spot) :=
  let k := coreOf s c
  let rsv := reserveOf s c
  let free := freeSlots k rsv
  if free.length < l.desc.waves then none
  else
    match findGroups k (256 - rsv) l.desc.groups.length with
    | none => none
    | some g => waveSpots (usedWindows k) (1024 - 128 * rsv) l.desc.window g (free.take l.desc.waves)

/-- The core lies in the launch's clusters and its partition runs there. -/
def coreInLaunch (s : State) (c : Nat) (l : Launch) : Bool :=
  decide (c < Config.numCores) && decide (l.cl0 ≤ c / 16) && decide (c / 16 < l.cl0 + l.ncl) && corePart s c = l.part && partRuns s l.part

/-- Evaluator waves in reserve slots are no obstacle to a swap (R32). -/
def onlyReserved (s : State) (c : Nat) : Bool :=
  (wavesOf (coreOf s c)).all (fun p => p.2.kind = .evaluator && 16 - reserveOf s c ≤ p.1)

/-- The swap conditions of R32. -/
def swapReady (s : State) (c : Nat) : Bool :=
  let k := coreOf s c
  k.blocks = [] && onlyReserved s c && k.region.isNone && k.dqCount = 0 && k.bins.all (fun b => b.eval)
    && k.stage.all (fun t => t.eval) && k.cmds = []

/-- A spliced launch may use the core (R49). Its predecessor may fail instead of completing: where that makes the first input
FAILED the launch fails with it (R46); where it does not, because the input is no cell, R49 names nothing to wait for, and the
launch may start (DESIGN CHOICE, log entry 37). -/
def spliceOk (s : State) (c : Nat) (l : Launch) : Bool :=
  match l.pred with
  | none => true
  | some q =>
    match launchOf s q with
    | none => 0 < l.nextBlock || (match (launchInputs s { l with inputs := l.inputs.take 1 } false).2 with
      | .fails _ => false
      | _ => true)
    | some p => p.nblk ≤ p.nextBlock && !holdsBlocks (coreOf s c) q

/-- The next block of a ready launch can be placed on the core as it is configured. -/
def canPlace (s : State) (c : Nat) (l : Launch) : Bool :=
  l.st = .ready && decide (l.nextBlock < l.nblk) && coreInLaunch s c l && !coupledMode (coreOf s c) && spliceOk s c l
    && sameConfig (coreOf s c) l && (blockSpots s c l).isSome

/-- The core can take the launch's next block now or by a swap (R32, R47). -/
def canHold (s : State) (c : Nat) (l : Launch) : Bool :=
  canPlace s c l || (l.st = .ready && decide (l.nextBlock < l.nblk) && coreInLaunch s c l && !coupledMode (coreOf s c)
    && spliceOk s c l && !sameConfig (coreOf s c) l && swapReady s c)

/-- The order in which the scheduler takes launches: class, then age (R47). -/
def launchBefore (a b : Launch) : Bool := a.prio < b.prio || (a.prio = b.prio && a.age < b.age)

/-- The core is reserved for another launch (R47). -/
def reservedElse (s : State) (c : Nat) (l : Launch) : Bool :=
  match (coreOf s c).reserved with
  | some q => q ≠ l.id
  | none => false

/-- A launch that comes first could use the core: one that a reservation shuts out could not. -/
def coreTaken (s : State) (c : Nat) (l : Launch) : Bool :=
  s.launches.any (fun q => q.id ≠ l.id && launchBefore q l && canHold s c q && !reservedElse s c q)

/-- The tender stream of a placed block (R307, R309). -/
def newTender (s : State) (c : Nat) (uid : Nat) (l : Launch) : Option Tender :=
  if l.desc.tblk = 0xFFFF then none
  else
    let sec := (coreOf s c).world
    let rd := fetchBytes s l.part sec
    let blank : Tender :=
      { block := uid, blk := l.desc.tblk, recs := [], lits := [], bad := none, pc := 0, qmap := 0, inc := 0, p := 0, st := .ready,
        since := (coreOf s c).cycle }
    match okModule s l.part l.modl, readBlockAt rd l.modl l.desc.tblk with
    | none, _ => some { blank with bad := some ⟨0, causeLowerReject, 0⟩ }
    | some _, .error e => some { blank with bad := some ⟨0, e.1, e.2⟩ }
    | some m, .ok b =>
      let q := recheck m l.desc.tblk b (codeWords rd b.addr b.nrec 0) (codeWords rd b.litAddr b.nlit 0)
      some { blank with recs := q.1, lits := q.2.1, bad := q.2.2 }

/-- The walker's updates for the tender's fetch of its block (R102, R307). -/
def tenderReads (s : State) (c : Nat) (l : Launch) : State :=
  if l.desc.tblk = 0xFFFF || (okModule s l.part l.modl).isNone then s
  else
    let sec := (coreOf s c).world
    let rd := fetchBytes s l.part sec
    let s := markFetch s l.part sec l.modl 64
    match readHeader rd l.modl, readBlockAt rd l.modl l.desc.tblk with
    | .ok h, .ok b =>
      let s := markFetch s l.part sec (l.modl + BitVec.ofNat 64 (h.blktab + 32 * l.desc.tblk)) 32
      markFetch (markFetch s l.part sec b.addr (8 * b.nrec)) l.part sec b.litAddr (8 * b.nlit)
    | .ok h, .error _ => markFetch s l.part sec (l.modl + BitVec.ofNat 64 (h.blktab + 32 * l.desc.tblk)) 32
    | _, _ => s

/-- Places the next block of a launch in the given places (R25, R34, R47). A reservation that the launch holds on another core
stands until a block of the launch is placed there, as R47's words have it, whatever is placed elsewhere meanwhile (DESIGN
CHOICE, log entry 37). -/
def placeBlock (s : State) (c : Nat) (l : Launch) (sps : List Spot) : State :=
  let uid := s.nextUid
  let s := { s with nextUid := uid + 1 }
  let g := (sps.head?.map (fun p => p.gbase)).getD 0
  let s := sps.zipIdx.foldl (fun s p =>
    installWave s c
      { spot := p.1, kind := .kernel, block := uid, launch := l.id, blockIdx := l.nextBlock, waveIdx := p.2, nblk := l.nblk,
        prio := l.prio, modl := l.modl, entry := l.entry, table := l.table, desc := l.desc, args := l.args,
        mask := 0xFFFFFFFF, evals := [] }) s
  let t := newTender s c uid l
  let s := tenderReads s c l
  let b : PlacedBlock :=
    { uid := uid, launch := l.id, index := l.nextBlock, modl := l.modl, entry := l.entry, groupBase := g,
      ngroup := l.desc.groups.length, nkeep := l.desc.nkeep, wslots := sps.map (fun p => p.wslot), live := List.range sps.length }
  let s := onCore s c (fun k =>
    let k := placeGroups k uid g l.desc.groups
    { k with blocks := k.blocks ++ [b], tenders := k.tenders ++ t.toList,
             reserved := if k.reserved = some l.id then none else k.reserved })
  { s with launches := s.launches.map (fun q =>
      if q.id = l.id then { q with nextBlock := q.nextBlock + 1, waited := s.fabricCycle } else q) }

/-- BLOCK_PLACE (R47). -/
def execBlockPlace (launch core : Nat) (s : State) : Host.Outcome State Fault Refusal :=
  .next (match launchOf s launch with
    | none => s
    | some l =>
      if canPlace s core l && !reservedElse s core l && !coreTaken s core l then
        match blockSpots s core l with
        | some sps => placeBlock s core l sps
        | none => s
      else s)

/-- The launch has waited 2^20 fabric cycles and holds no reservation (R47). -/
def wantsReserve (s : State) (l : Launch) : Bool :=
  l.st = .ready && decide (l.nextBlock < l.nblk) && decide (l.waited + 2 ^ 20 ≤ s.fabricCycle)
    && !s.cores.any (fun k => k.2.reserved = some l.id)

/-- A core that a waiting launch reserves. -/
def reservable (s : State) (c : Nat) (l : Launch) : Bool := (coreOf s c).reserved.isNone && canHold s c l

/-- LAUNCH_RESERVE (R47): the lowest qualifying core, in the order in which the scheduler takes launches. -/
def execLaunchReserve (launch core : Nat) (s : State) : Host.Outcome State Fault Refusal :=
  .next (match launchOf s launch with
    | none => s
    | some l =>
      let lower := (List.range (l.ncl * 16)).any (fun i => 16 * l.cl0 + i < core && reservable s (16 * l.cl0 + i) l)
      let before := s.launches.any (fun q => q.id ≠ l.id && launchBefore q l && wantsReserve s q && reservable s core q)
      if wantsReserve s l && reservable s core l && !lower && !before then
        onCore s core (fun k => { k with reserved := some launch })
      else s)

/-- The tiles that a swap zeroes (R33): all of them, but a splice swap within one world keeps those that keep their role. -/
def swapTiles (k : Core) (l : Launch) : List Host.Cell :=
  if l.splice && l.pred.isSome && k.world = l.world then
    k.tileMem.filter (fun q => k.tiles.toNat / 8 ^ (q.1 / Config.tileBytes) % 8 = l.desc.tiles.toNat / 8 ^ (q.1 / Config.tileBytes) % 8)
  else []

/-- Poison of zeroed tiles is gone (R395). -/
def swapPoison (k : Core) (l : Launch) : List Nat :=
  if l.splice && l.pred.isSome && k.world = l.world then
    k.tilePoison.filter (fun w => k.tiles.toNat / 8 ^ (4 * w / Config.tileBytes) % 8 = l.desc.tiles.toNat / 8 ^ (4 * w / Config.tileBytes) % 8)
  else []

/-- CONFIG_SWAP (R32, R33). -/
def execConfigSwap (launch core : Nat) (s : State) : Host.Outcome State Fault Refusal :=
  .next (match launchOf s launch with
    | none => s
    | some l =>
      let k := coreOf s core
      if canHold s core l && !sameConfig k l && !reservedElse s core l && !coreTaken s core l then
        let newWorld := k.world ≠ l.world
        let zeroed (v : Wave) : Wave := { v with uni := [], vals := [], uniPoison := [], valPoison := [] }
        setCore s core
          { k with tiles := l.desc.tiles, dqbase := l.desc.dqbase, dqlim := l.desc.dqlim, world := l.world,
                   tileMem := swapTiles k l, tilePoison := swapPoison k l, l1 := [], dqHead := 0, dqCount := 0,
                   waves := if newWorld then k.waves.map (fun w => (w.1, w.2.map zeroed)) else k.waves,
                   regs := if newWorld then [] else k.regs, regPoison := if newWorld then [] else k.regPoison,
                   tagBits := 0, tagCnt := [], streams := [] }
      else s)

/-! ## Retirement and completion (R48, R307) -/

/-- The tender streams without stream `i`: indices above it fall by one. -/
def dropTender (k : Core) (i : Nat) : Core :=
  let fix (j : Nat) : Nat := if i < j then j - 1 else j
  { k with tenders := k.tenders.take i ++ k.tenders.drop (i + 1),
           active := k.active.bind (fun j => if j = i then none else some (fix j)),
           groups := k.groups.map (fun p => (p.1, { p.2 with held := p.2.held.map (fun a => match a with
             | .tender j => .tender (fix j)
             | h => h) })) }

/-- The stream of a block has ended, or it has none. -/
def streamEnded (k : Core) (uid : Nat) : Bool := k.tenders.all (fun t => t.block ≠ uid || t.st = .ended)

/-- BLOCK_RETIRE (R307). -/
def execBlockRetire (core block : Nat) (s : State) : Host.Outcome State Fault Refusal :=
  .next (
    let k := coreOf s core
    match k.blocks.find? (fun b => b.uid = block) with
    | none => s
    | some b =>
      if b.live ≠ [] || !streamEnded k block then s
      else
        let k := match findAt (fun t => t.block = block) k.tenders 0 with
          | some i => dropTender k i
          | none => k
        let k := freeGroups { k with blocks := k.blocks.filter (fun q => q.uid ≠ block) } block
        let s := setCore s core k
        { s with launches := s.launches.map (fun l => if l.id = b.launch then { l with retired := l.retired + 1 } else l) })

/-- A record of the deque of a core or of a standby context, by its place from the oldest (R38). -/
def dequeRecord (k : Core) (i : Nat) : TaskRec :=
  taskParse (memRead k.tileMem (roleByte k 0 (k.dqbase + 32 * ((k.dqHead + i) % dequeSize k))) 32)

/-- A core or a standby context holds a task wave or a record of a launch (R48). -/
def holdsTasks (k : Core) (id : Nat) : Bool :=
  (wavesOf k).any (fun p => p.2.kind = .task && p.2.launch = id)
    || k.bins.any (fun b => !b.eval && b.launch.toNat = id) || k.stage.any (fun t => !t.eval && t.launch.toNat = id)
    || (List.range k.dqCount).any (fun i => (dequeRecord k i).launch.toNat = id)
    || (wavesOf k).any (fun p => p.2.replay.any (fun e => match e.ins with
      | .spawnTask _ => p.2.launch = id
      | _ => false))

/-- All but the completion write of a launch has happened (R48), in the standby contexts too (R17). -/
def launchDone (s : State) (l : Launch) : Bool :=
  l.st = .ready && l.nblk ≤ l.nextBlock && l.nblk ≤ l.retired
    && !(s.cores ++ s.standby).any (fun p => corePart s p.1 = l.part && holdsTasks p.2 l.id)

/-- The completion write of DONE (R48): the cell with VALUE and its waiters, a plain store elsewhere, or a log entry. -/
def writeDone (s : State) (l : Launch) : State :=
  let by' := (4, schedulerOf s l.part)
  let lost (c : BitVec 8) : State := logEvent (logWorld s l.part by' c l.done) 7 c l.part 4 by'.2 l.done noStage
  let v := BitVec.ofNat 64 l.nblk
  if !canonical l.done then lost causeSpaceBad
  else if l.done.toNat % 8 ≠ 0 then lost causeMisaligned
  else
    match xlatCheck s l.part l.secure .store l.done with
    | .error c => lost c
    | .ok x =>
      let s := breakTr (xlatMark s l.part .store l.done x.leaf) l.part l.done x.leaf
      match x.cell, x.place with
      | true, .dev pa =>
        (match wakingOf s pa with
          | some r => cellCommit s [] r v
          | none => cellPut s (deviceWriter s l.part) l.done pa v 0)
      | _, pl => placeWrite s (deviceWriter s l.part) pl (leBytes 8 l.nblk)

/-- LAUNCH_COMPLETE (R48). -/
def execLaunchComplete (launch : Nat) (s : State) : Host.Outcome State Fault Refusal :=
  .next (match launchOf s launch with
    | none => s
    | some l =>
      if !launchDone s l then s
      else
        let s := match l.adopt with
          | some e =>
            (match wakingOf s e.pa with
              | some r => if r.inst = e.inst && r.slice = e.slice then cellCommit s [] r (BitVec.ofNat 64 l.nblk) else s
              | none => s)
          | none => if l.done = 0 then s else writeDone s l
        dropLaunch s launch)

end Sys2Proof.Machine
end

