-- ==== Sys2Proof/Machine/Cells.lean ====
section
/-! DEFINITION. CELL records (R291, R134 to R146), the commit of a carriage (R42, R43, R145), and the events that perform
accesses (R117) and end walks (R104). -/

namespace Sys2Proof.Machine

/-! ## CELL.make, CELL.peek (R291) -/

/-- The order in FN of a CELL record (R183). -/
def cellOrder (r : Record) : Order :=
  match r.fn.toNat / 4 with
  | 0 => .rx | 1 => .aq | 2 => .rl | 3 => .ar | _ => .sq

/-- CELL.make (R136, R291): at least a release at .dv. -/
def execCellMake (r : Record) (s : State) : Host.Outcome State Fault Refusal :=
  addressRecord (.cellMake r) r s (fun k l va =>
    let evix := (opB s k r .b64 l).toNat % 2 ^ 24
    let aoff := (opC s k r .b64 l).toNat % 2 ^ 40
    ⟨l, .make, .store, va, 8, if cellOrder r = .sq then .sq else .rl, .dv, BitVec.ofNat 64 (evix * 2 ^ 40 + aoff), 0, none⟩)

/-- CELL.peek (R136, R291): the 64 stored bits, and the tag into the slot that B names. -/
def execCellPeek (r : Record) (s : State) : Host.Outcome State Fault Refusal :=
  addressRecord (.cellPeek r) r s (fun k l va =>
    ⟨l, .peek (pairOf k r.b), .load, va, 8, cellOrder r, .dv, 0, 0, none⟩)

/-! ## CELL.set, CELL.tag (R144, R291) -/

/-- A lane may commit at an address (R144, R291): in a carriage of an evaluator wave, its own cell, once. -/
def mayCommit (k : Ctx) (l : Nat) (va : Word) : Bool :=
  match (slotOf k.wave k.x).car, evalOf k.wave l with
  | some car, some e =>
    k.wave.kind = .evaluator && e.va = va && !k.wave.committed.getLsbD l && !(car.cells.any (fun q => q.lane = l))
  | _, _ => false

/-- A commit operation of each lane, noted in the carriage until it commits (R144); the line of its cell is one that another
agent's write before then aborts the carriage by. -/
def commitRecord (i : Instr) (r : Record) (s : State) (op : Ctx → Nat → CellOp) : Host.Outcome State Fault Refusal :=
  onSlot s (fun k =>
    let reqs : List (Nat × Req) := k.lanes.map (fun l => (l, ⟨l, .store, .write, opA s k r .b64 l, 8, .rx, .dv, 0, 0, none⟩))
    match parkPage s k (reqs.map (fun p => (p.1, .ok p.2))) with
    | some p => parkRecord s k p
    | none =>
      let fails := reqs.filterMap (fun p => match laneCheck s k i p.2 with
        | .error f => some (p.1, f)
        | .ok _ => if mayCommit k p.1 p.2.va then none else some (p.1, failCell false causeCellBusy p.2.va))
      let good := reqs.filter (fun p => !(fails.any (fun q => q.1 = p.1)))
      let s1 := good.foldl (fun s p => match laneCheck s k i p.2 with
        | .ok x => markChecked s k.wave.part .write x
        | .error _ => s) s
      let own := good.filterMap (fun p => (evalOf k.wave p.1).map (fun e => lineOf (.dev e.pa)))
      if !sameRun s1 k then s1 else
      let s1 := onSlotOf s1 k.core k.w k.x (fun t => { t with car := t.car.map (fun c =>
        { c with cells := c.cells ++ good.map (fun p => ⟨p.1, s.cur.rcd, op k p.1⟩), lines := (c.lines ++ own).eraseDups }) })
      if fails = [] then advance s1 k else trapFails s1 k i fails 0)

/-- CELL.set (R144, R145, R291). -/
def execCellSet (r : Record) (s : State) : Host.Outcome State Fault Refusal :=
  commitRecord (.cellSet r) r s (fun k l => .set (opB s k r .b64 l))

/-- CELL.tag (R144, R146, R291). -/
def execCellTag (r : Record) (s : State) : Host.Outcome State Fault Refusal :=
  commitRecord (.cellTag r) r s (fun _ _ => .tag)

/-! ## The commit of a carriage (R42, R43, R145) -/

/-- Records of a carriage that go to the binning stage at its commit: LOCAL ones, and those the deque cannot take (R294). -/
def needsStage (k : Core) (ts : List TaskRec) : Bool :=
  ts.any (bypasses k) || decide (dequeSize k - k.dqCount < (ts.filter (fun t => !bypasses k t)).length)

/-- A place that a snapshot's hold or another slot's lock keeps from writing (R43, R130). -/
def storeHeld (s : State) (p : Nat) (own : List SlotName) (pl : Place) : Bool :=
  lineLocked s own (lineOf pl) || storeAtHold s p pl

/-- The own-cell commits whose waking record no longer has the lane's instance (R145). -/
def lostCommits (s : State) (v : Wave) (car : Carriage) : List CellCommit :=
  car.cells.filter (fun q =>
    match evalOf v q.lane with
    | none => true
    | some e =>
      match wakingOf s e.pa with
      | some r => !(r.inst = e.inst && r.slice = e.slice)
      | none => true)

/-- A carriage that has ended may commit: every earlier access of its lanes has been performed, for the commit releases them
(R128); a serial one holds the token, no store is held, and the binning stage can take what the deque cannot. -/
def commitReady (s : State) (n : SlotName) (v : Wave) (t : Slot) (car : Carriage) : Bool :=
  !v.halted && !v.parked && t.wait = .commit
    && laneAccs s n.1 n.2.1 v n.2.2 = []
    && (!car.serial || s.serial = some n)
    && !(car.stores.any (fun q => storeHeld s v.part [n] q.1))
    && !(car.cells.any (fun q => match evalOf v q.lane with
      | some e => storeHeld s v.part [n] (.dev e.pa)
      | none => false))
    && !(needsStage (coreOf s n.1) car.spawns && stageBlocked (coreOf s n.1))

/-- A store of a commit: a make leaves the cell DORMANT (R136). -/
def commitStore (p : Nat) (n : SlotName) (s : State) (q : Place × List Byte × Bool) : State :=
  let s := placeWrite s ⟨p, [n], some n.1⟩ q.1 q.2.1
  match q.1, q.2.2 with
  | .dev pa, true => { s with tags := smSet 0 s.tags (pa / 8) 1 }
  | _, _ => s

/-- A cell operation of a commit by a slot (R145, R146). -/
def commitCell (n : SlotName) (v : Wave) (blk : Nat) (s : State) (q : CellCommit) : State :=
  match evalOf v q.lane with
  | none => s
  | some e =>
    match wakingOf s e.pa with
    | none => s
    | some r =>
      match q.op with
      | .set x => cellCommit s [n] r x
      | .tag => cellFail s r causeSoftTrap blk q.rcd

/-- A record of a commit: to the deque while it has room, else to the binning stage (R294). -/
def commitSpawn (c : Nat) (s : State) (t : TaskRec) : State :=
  if !bypasses (coreOf s c) t && dequeRoom (coreOf s c) then pushDeque s c t else pushStage s c t

/-- The stores and atomics of a commit to peers, which no port acknowledges while all are down (R349, R396). -/
def commitPeers (n : SlotName) (v : Wave) (car : Carriage) (s : State) : State :=
  if s.ports = 0 then { s with unacked := s.unacked ++ car.peers.map (fun q => (n.1, v.uid, q.1, q.2)) } else s

/-- Everything a carriage did takes effect as one event. A serial one has the token no longer, so that a .sq waiter of a cell
it commits may take it (R43, R118); the counts of its STB latches are given back when the stores have performed (R283). -/
def commitEffects (s : State) (n : SlotName) (v : Wave) (car : Carriage) : State :=
  let s := if s.serial = some n then { s with serial := none } else s
  let s := car.stores.foldl (commitStore v.part n) (commitPeers n v car s)
  let s := car.latched.foldl (fun s l => latchRelease s ⟨v.part, [n], some n.1, l.1, l.2⟩) s
  let s := car.cells.foldl (commitCell n v car.blk) s
  let s := car.spawns.foldl (commitSpawn n.1) s
  let s := car.launches.foldl (fun s q => acceptLaunch s n.1 n.2.1 q.1 q.2) s
  let done := maskOf (car.cells.map (fun q => q.lane))
  onWave (acquireL1 s n.1 .aq .dv) n.1 n.2.1 (fun v => { v with committed := v.committed ||| done })

/-- The carriage entry of a record that failed at its carriage's commit (R152). -/
def carriageEntry (s : State) (n : SlotName) (v : Wave) (t : Slot) (car : Carriage) (rcd : Nat) (lanes done : W32)
    (ops : Instr → SMap Word) : Replay :=
  let recs := ((slotEntry s n.1 v t).map (fun e => e.recs)).getD []
  let i : Instr := match decode (recs.getD rcd 0) with
    | .ok i => i
    | .error _ => .nop ⟨false, .b32, 0, .absent, .absent, .absent⟩
  { ins := i, blk := car.blk, rcd := rcd, x := n.2.2, lanes := lanes, done := done, opmap := opmapOf i, ops := ops i,
    car := true, form := ⟨.value, v.winBase, none⟩, recs := recs, grp := 0, late := false, pend := none, ends := [rcd], bad := false }

/-- The carriage entry of a CELL record whose commit failed: A is the lane's own cell, B the value. -/
def commitEntry (s : State) (n : SlotName) (v : Wave) (t : Slot) (car : Carriage) (bad : List CellCommit) (rcd : Nat) : Replay :=
  let here := car.cells.filter (fun q => q.rcd = rcd)
  let lanes := maskOf (here.map (fun q => q.lane))
  let fails := maskOf ((bad.filter (fun q => q.rcd = rcd)).map (fun q => q.lane))
  let val (q : CellCommit) (pos : Nat) : Word :=
    if pos = 0 then ((evalOf v q.lane).map (fun e => e.va)).getD 0
    else match q.op with
      | .set x => x
      | .tag => 0
  carriageEntry s n v t car rcd lanes (lanes &&& ~~~fails)
    (fun i => smSetAll 0 [] ((opmapOf i).flatMap (fun p => here.map (fun q => (32 * p.1 + q.lane, val q p.1)))))

/-- A commit that fails applies nothing; the failing lanes raise CELL_BUSY at their CELL record (R145). -/
def commitFails (s : State) (n : SlotName) (v : Wave) (t : Slot) (car : Carriage) (bad : List CellCommit) : State :=
  let rcd := bad.foldl (fun m q => min m q.rcd) ((bad.head?.map (fun q => q.rcd)).getD 0)
  let ls := (bad.filter (fun q => q.rcd = rcd)).map (fun q => q.lane)
  let low := lowestLane (maskOf ls)
  let e := commitEntry s n v t car bad rcd
  takeStop s n.1 n.2.1
    { cause := causeCellBusy, stop := 0, x := n.2.2, lanes := maskOf ls, blk := car.blk, rcd := rcd,
      addr := ((evalOf v low).map (fun e => e.va)).getD 0, cmp := 0xFF, late := false, cpl := false, entry := some e, grp := 0 } []

/-- The EXIT of a carriage would meet a damaged divergence area (R26, R275): its fault comes before the commit. -/
def exitDamaged (s : State) (n : SlotName) (car : Carriage) : Bool := car.exiting && (divLoad s n.1 n.2.1).isNone

/-- The stop of such an EXIT: the carriage commits nothing. -/
def exitFails (s : State) (n : SlotName) (v : Wave) (t : Slot) (car : Carriage) : State :=
  takeStop s n.1 n.2.1
    { cause := causeIntegrity, stop := 0, x := n.2.2, lanes := t.mask, blk := t.blk, rcd := t.rcd, addr := v.privBase,
      cmp := 0xFF, late := false, cpl := false, entry := some (carriageEntry s n v t car t.rcd t.mask 0 (fun _ => [])), grp := 0 } []

/-- The slot after its carriage has committed: its EXIT takes effect, the record that leaves the block issues, or the slot
falls through (R42, R275). -/
def afterCarriage (s : State) (n : SlotName) (t : Slot) (car : Carriage) (nrec : Nat) : State :=
  let cyc := (coreOf s n.1).cycle
  let s := onSlotOf s n.1 n.2.1 n.2.2 (fun t => { t with car := none, st := .eligible, wait := .none, ready := cyc })
  if car.exiting then endWaveLanes s n.1 n.2.1 t.mask (causeCellShape, t.blk, t.rcd)
  else if t.rcd < nrec then s
  else onWave s n.1 n.2.1 (fun v =>
    let v := leaveBlock v n.2.2
    putSlot v n.2.2 { slotOf v n.2.2 with ready := cyc })

/-- CARRIAGE_COMMIT (R42, R145): the carriage of a slot that has ended commits, or raises CELL_BUSY; a fault of its EXIT
comes first. -/
def execCarriageCommit (core slot : Nat) (s : State) : Host.Outcome State Fault Refusal :=
  .next (
    let n : SlotName := (core, slot / 2, slot % 2)
    match waveOf s core (slot / 2) with
    | none => s
    | some v =>
      let t := slotOf v (slot % 2)
      match t.car with
      | none => s
      | some car =>
        if !commitReady s n v t car then s
        else if exitDamaged s n car then exitFails s n v t car
        else
          match lostCommits s v car with
          | [] =>
            -- the footprint is no longer watched while its own stores are made
            let s := onSlotOf s core (slot / 2) (slot % 2) (fun t => { t with car := none })
            afterCarriage (commitEffects s n v car) n t car (blockRecs v t.blk)
          | bad => commitFails s n v t car bad)

/-! ## Accesses and walks -/

/-- An access of a coupling wave fails while its region runs: the wave stops only through gating and drain (R150, R160), and
the access fails again when the region is DONE. -/
def gateForLate (s : State) (a : Access) (d : Damage) : State :=
  let s := match a.pieces with
    | (pl, _) :: _ => applyDamage s a.part pl d
    | [] => s
  gateRegion s a.core .quantum

/-- ACCESS_PERFORMED (R117, R120): the access is performed where its bytes lie and its reply returns; a failure stops its
wave. -/
def execAccessPerformed (id : Nat) (damage : Damage) (s : State) : Host.Outcome State Fault Refusal :=
  .next (match s.accs.find? (fun a => a.id = id) with
    | none => s
    | some a =>
      if !performable s a then s
      else
        let r := finishAccess s a damage
        match r.2 with
        | none => r.1
        | some f =>
          -- a reply that a region waits for fails as a body record of its channel (R71, R73)
          if awaited s a then faultRegion r.1 a.core f.cause a.rcd a.lane f.addr
          else if regionRuns s a.core a.wslot then gateForLate s a damage else takeLate r.1 a f)

/-- A slot parked on the walk of a page resumes with what the walk found (R104, R375). -/
def walkedSlot (cyc : Nat) (r : Walked) (t : Slot) : Slot :=
  match t.wait with
  | .walk p g => if p = r.page then { t with st := .eligible, wait := .walked g r, ready := cyc } else t
  | _ => t

/-- A slot is parked on the walk of a page. -/
def walksPage (page : Nat) (t : Slot) : Bool :=
  match t.wait with
  | .walk p _ => p = page
  | _ => false

/-- A slot of the partition is parked on a page. -/
def walkWanted (s : State) (p page : Nat) : Bool :=
  s.cores.any (fun k => (wavesOf k.2).any (fun w =>
    w.2.part = p && (walksPage page w.2.slot0 || walksPage page w.2.slot1)))

/-- WALK_COMPLETE (R104, R375): the walk of a page ends with one leaf or with none, and every access parked on it resumes with
that leaf or faults, whatever is stored to the tables meanwhile. An access that passes its checks caches it; a failed walk
leaves nothing cached. -/
def execWalkComplete (part : Nat) (va : Word) (s : State) : Host.Outcome State Fault Refusal :=
  .next (
    let page := pageOf va
    if !walkWanted s part page then s
    else
      let r : Walked := ⟨page, (walk s part (BitVec.ofNat 64 (page * 4096))).map (fun l => (l.pte, l.val, l.bytes))⟩
      { s with cores := s.cores.map (fun k => (k.1, { k.2 with waves := k.2.waves.map (fun w =>
          (w.1, w.2.map (fun v =>
            if v.part = part then { v with slot0 := walkedSlot k.2.cycle r v.slot0, slot1 := walkedSlot k.2.cycle r v.slot1 }
            else v))) })) })

end Sys2Proof.Machine
end

