-- ==== Sys2Proof/Machine/Sync.lean ====
section
/-! DEFINITION. Barriers (R35, R293), tags and rings (R297, R304), and streams (R125, R305). -/

namespace Sys2Proof.Machine

/-! ## Barriers -/

/-- The group-table entry that operand A names (R293). -/
def groupEntryOf (k : Ctx) (o : Opnd) : Nat :=
  k.wave.groupBase + (match o with
    | .imm v => v.toNat
    | .dimm v => v.toNat
    | _ => 0)

/-- The arrival of a wave that is a member (R35): counted, or held while ARRIVED = EXPECT. -/
def arrive (s : State) (k : Ctx) (e : Nat) (wait : Bool) : State :=
  let g := groupOf (coreOf s k.core) e
  if g.arrived < g.expect then
    let s := onCore s k.core (fun q =>
      putGroup q e { g with arrived := g.arrived + 1, amask := g.amask ||| BitVec.ofNat 16 (2 ^ k.wave.waveIdx) })
    let s := advance s k
    let s := if wait then slotWaits s k.core k.w k.x .waiting (.barrier e g.phase) else s
    onCore s k.core (fun q => groupSettle q e)
  else
    let s := onCore s k.core (fun q => putGroup q e { g with held := g.held ++ [.wave k.w k.x wait s.cur.replay] })
    slotWaits s k.core k.w k.x .waiting (.barHeld e)

/-- BAR (R293): BAR_MEMBER for a wave that is no member. -/
def barrierRecord (i : Instr) (r : Record) (s : State) (wait : Bool) : Host.Outcome State Fault Refusal :=
  onSlot s (fun k =>
    let e := groupEntryOf k r.a
    if !(groupOf (coreOf s k.core) e).members.getLsbD k.wave.waveIdx then
      trapState s k i causeBarMember (BitVec.ofNat 64 (e % 256))
    else afterRelease s k (arrive s k e wait))

/-- BAR.wait (R293). -/
def execBarWait (r : Record) (s : State) : Host.Outcome State Fault Refusal := barrierRecord (.barWait r) r s true

/-- BAR.arrive (R293). -/
def execBarArrive (r : Record) (s : State) : Host.Outcome State Fault Refusal := barrierRecord (.barArrive r) r s false

/-- BEXP (R35, R293): CREDIT is claimed first; BAR_OVERFLOW changes nothing. -/
def execBexp (r : Record) (s : State) : Host.Outcome State Fault Refusal :=
  onSlot s (fun k =>
    let e := groupEntryOf k r.a
    let n := (opB s k r .n32 k.low).toNat
    let g := groupOf (coreOf s k.core) e
    let c := min n g.credit
    if 0xFFFFFF < g.pending + (n - c) then
      trapState s k (.bexp r) causeBarOverflow (BitVec.ofNat 64 (e % 256 + n * 2 ^ 32))
    else
      let s := onCore s k.core (fun q =>
        groupSettle (putGroup q e { g with credit := g.credit - c, pending := g.pending + (n - c) }) e)
      advance s k)

/-! ## Tags (R297, R304) -/

/-- The lowest set bit of a word; 64 of zero. -/
def lowestBit (m : Word) : Nat := ((List.range 64).find? (fun i => m.getLsbD i)).getD 64

/-- A WAIT on tags goes on: its acquire (R122), its value. -/
def waitDone (s : State) (k : Ctx) (r : Record) (v : Word) : State := sameOp (acquireL1 s k.core .aq .dv) k r.ty v

/-- WAIT.any (R304). -/
def execWaitAny (r : Record) (s : State) : Host.Outcome State Fault Refusal :=
  onSlot s (fun k =>
    let m := opA s k r .n64 k.low
    let b := (coreOf s k.core).tagBits &&& m
    if b ≠ 0 || m = 0 then waitDone s k r b else slotWaits s k.core k.w k.x .waiting (.tags m false))

/-- WAIT.all (R304). -/
def execWaitAll (r : Record) (s : State) : Host.Outcome State Fault Refusal :=
  onSlot s (fun k =>
    let m := opA s k r .n64 k.low
    if (coreOf s k.core).tagBits &&& m = m then waitDone s k r m else slotWaits s k.core k.w k.x .waiting (.tags m true))

/-- WAIT.first (R304): the bit is cleared in the same step. -/
def execWaitFirst (r : Record) (s : State) : Host.Outcome State Fault Refusal :=
  onSlot s (fun k =>
    let m := opA s k r .n64 k.low
    let b := (coreOf s k.core).tagBits &&& m
    if m = 0 then waitDone s k r 64
    else if b ≠ 0 then
      let i := lowestBit b
      let s := onCore s k.core (fun q => { q with tagBits := q.tagBits &&& ~~~((1 : Word) <<< i) })
      waitDone s k r (BitVec.ofNat 64 i)
    else slotWaits s k.core k.w k.x .waiting (.tags m false))

/-- HEAD of a completion ring's entry (R95). -/
def ringHead (e : ResEntry) : Nat := field e.l.kspec 4 4

/-- WAIT.ring (R304). -/
def execWaitRing (r : Record) (s : State) : Host.Outcome State Fault Refusal :=
  onSlot s (fun k =>
    let h := opA s k r .n64 k.low
    let want := (opB s k r .n64 k.low).toNat % 2 ^ 32
    let q := resolve s k.wave.part (coreOf s k.core).world 0 (h.setWidth 32) 5 0 0 0 (h &&& 0xFFFFFFFF)
    match q.2 with
    | .error f => trapFails q.1 k (.waitRing r) (k.lanes.map (fun l => (l, f))) 0
    | .ok e =>
      if ringHead e ≠ want then sameOp (acquireL1 q.1 k.core .aq .sy) k r.ty (BitVec.ofNat 64 (ringHead e))
      else slotWaits q.1 k.core k.w k.x .waiting (.ring e.l.idx want))

/-- TAGS.read (R304). -/
def execTagsRead (r : Record) (s : State) : Host.Outcome State Fault Refusal :=
  onSlot s (fun k => sameOp s k r.ty (coreOf s k.core).tagBits)

/-- TAGS.clr (R304): the value before the clear. -/
def execTagsClr (r : Record) (s : State) : Host.Outcome State Fault Refusal :=
  onSlot s (fun k =>
    let m := opA s k r .n64 k.low
    let old := (coreOf s k.core).tagBits
    sameOp (onCore s k.core (fun q => { q with tagBits := q.tagBits &&& ~~~m })) k r.ty old)

/-! ## Streams (R125, R126, R305) -/

/-- The stream number that operand A names. -/
def streamOf (o : Opnd) : Nat :=
  match o with
  | .imm v => v.toNat % 8
  | .dimm v => v.toNat % 8
  | _ => 0

/-- Stream `n` of a core, where it is bound. -/
def streamAt (k : Core) (n : Nat) : Option Stream := smGet none k.streams n

/-- The core with a stream replaced. -/
def putStream (k : Core) (n : Nat) (t : Option Stream) : Core := { k with streams := smSet none k.streams n t }

/-- The next slot in ring order. -/
def nextSlot (t : Stream) (i : Nat) : Nat := if i + 1 < t.slots.length then i + 1 else 0

/-- Takes the FULL slot at the read index: the stream after it and the slot's address (R125). -/
def popSlot (t : Stream) : Option (Stream × Word) :=
  if t.slots.getD t.ridx .free = .full then
    some ({ t with slots := setAt t.slots t.ridx .taken, ridx := nextSlot t t.ridx },
      t.base + BitVec.ofNat 64 (t.slotsz * t.ridx))
  else none

/-- The oldest TAKEN slot: the taken ones end just below the read index, or at it where the whole ring is taken. -/
def oldestTaken (t : Stream) : Option Nat :=
  let n := t.slots.length
  let taken := (t.slots.filter (fun q => q = .taken)).length
  if taken = 0 then none else some ((t.ridx + n - taken) % n)

/-- The oldest TAKEN slot is FREE; nothing where there is none (R305). -/
def releaseSlot (t : Stream) : Stream :=
  match oldestTaken t with
  | some i => { t with slots := setAt t.slots i .free }
  | none => t

/-- SPOP (R305): one operation for the wave. -/
def execSpop (r : Record) (s : State) : Host.Outcome State Fault Refusal :=
  onSlot s (fun k =>
    let n := streamOf r.a
    match streamAt (coreOf s k.core) n with
    | none => trapState s k (.spop r) causeStreamUnbound (BitVec.ofNat 64 n)
    | some t =>
      match popSlot t with
      | some (t', a) => sameOp (acquireL1 (onCore s k.core (fun q => putStream q n (some t'))) k.core .aq .dv) k r.ty a
      | none => slotWaits s k.core k.w k.x .waiting (.stream n))

/-- SREL (R305): a release at .dv. -/
def execSrel (r : Record) (s : State) : Host.Outcome State Fault Refusal :=
  onSlot s (fun k =>
    let n := streamOf r.a
    match streamAt (coreOf s k.core) n with
    | none => trapState s k (.srel r) causeStreamUnbound (BitVec.ofNat 64 n)
    | some t => afterRelease s k (advance (onCore s k.core (fun q => putStream q n (some (releaseSlot t)))) k))

end Sys2Proof.Machine
end

