-- ==== Sys2Proof/Machine/Engine.lean ====
section
/-! DEFINITION. The dray engine (R281, R296 to R303): commands at issue, their transfers word by word, SENDs at the
destination (R125, R300), publishes (R99, R302), completion (R298, R382, R383), and the rate limiter's window (R354). -/

namespace Sys2Proof.Machine

/-! ## Control words and local descriptors (R296) -/

/-- The ring handle of a control word. -/
def cwRing (w : Word) : W32 := w.extractLsb' 32 32
/-- TAG of a control word. -/
def cwTag (w : Word) : Nat := w.toNat % 64
/-- BENT of a control word. -/
def cwBent (w : Word) : Nat := w.toNat / 2 ^ 8 % 2 ^ 8

/-- The first failure of a record's checks in one lane, by its place in R359. -/
def firstFail : List (Option Fail) → Option Fail
  | [] => none
  | none :: r => firstFail r
  | some f :: r =>
    match firstFail r with
    | none => some f
    | some g => if g.rank < f.rank then some g else some f

/-- The checks of a local descriptor against the roles a command may touch (R86, R296). -/
def descFails (k : Core) (roles : List Nat) (d : Word) : List (Option Fail) :=
  let len := d.toNat / 2 ^ 32 % 2 ^ 19
  let role := d.toNat / 2 ^ 20 % 8
  let off := d.toNat % 2 ^ 18
  let bad := 262144 < len || !roles.contains role || roleSize k role < off + len || roleSize k role = 0
  [if bad then some (failAddr causeSpaceBad d) else none,
   if off % 4 ≠ 0 || len % 4 ≠ 0 then some (failAddr causeMisaligned d) else none]

/-- A command with the fields of its control word and descriptor; the rest as for one that moves nothing. -/
def newCmd (s : State) (k : Ctx) (kind : CmdKind) (cw d : Word) : Cmd where
  id := 0
  kind := kind
  stage := .moving
  tag := cwTag cw
  role := d.toNat / 2 ^ 20 % 8
  off := d.toNat % 2 ^ 18
  len := d.toNat / 2 ^ 32 % 2 ^ 19
  locOff := none
  latch := none
  roff := 0
  shadow := false
  publ := false
  counted := false
  ring := none
  ben := cw.getLsbD 16
  bent := cwBent cw
  ev := cw.getLsbD 17
  owner := (groupOf (coreOf s k.core) (cwBent cw)).owner
  dstCore := k.core
  dstOff := 0
  stream := 0
  slot := 0
  moved := 0
  carry := []
  written := 0
  status := 0
  fault := 0
  secure := (coreOf s k.core).world
  part := k.wave.part
  pubOut := none
  lowHalf := false
  told := []

/-- The completion ring of a command, resolved (R97, R299): none where it has none. -/
def ringOf (s : State) (k : Ctx) (wanted : Bool) (h : W32) : State × Except Fail (Option Latch) :=
  if !wanted then (s, .ok none)
  else
    let r := resolve s k.wave.part (coreOf s k.core).world 2 h 5 1 0 0 (h.setWidth 64)
    (r.1, match r.2 with
      | .error f => .error f
      | .ok e => .ok (some e.l))

/-- The failure of an earlier step, if it is one. -/
def failOf {α : Type} : Except Fail α → Option Fail
  | .error f => some f
  | .ok _ => none

/-! ## The checks at issue -/

/-- The core that a SEND names. -/
def sendCore (a : Word) : Nat := a.toNat / 2 ^ 36 % 2 ^ 12

/-- The checks of SEND's address at issue (R300). -/
def sendFails (s : State) (k : Ctx) (strm : Bool) (a : Word) : List (Option Fail) :=
  let top := a.toNat / 2 ^ 56
  let form := top = 0x81 || (top = 0x82 && !strm)
  let bad := !form || windowRz a || Config.numCores ≤ sendCore a || (strm && a.toNat / 8 % 2 ^ 15 ≠ 0)
  [if bad then some (failAddr causeSpaceBad a) else none,
   if corePart s (sendCore a) ≠ k.wave.part then some (failAddr causeSpaceForeign a) else none,
   if !strm && a.toNat % 4 ≠ 0 then some (failAddr causeMisaligned a) else none]

/-- A SEND of one lane (R300). -/
def sendCmd (r : Record) (s : State) (k : Ctx) (l : Nat) : State × Except Fail Cmd :=
  let strm := r.fn.getLsbD 0
  let a := opA s k r .b64 l
  let d := opB s k r .b64 l
  let cw := opC s k r .b64 l
  let q := ringOf s k (r.fn.getLsbD 3) (cwRing cw)
  match firstFail ([failOf q.2] ++ sendFails s k strm a ++ descFails (coreOf s k.core) [0] d) with
  | some f => (q.1, .error f)
  | none =>
    let c := newCmd s k (if strm then .sendStrm else .send) cw d
    (q.1, .ok { c with stage := .travel, dstCore := sendCore a, dstOff := if strm then 0 else a.toNat % 2 ^ 18,
                       stream := a.toNat % 8, owner := 0, ring := match q.2 with
                         | .ok x => x
                         | .error _ => none })

/-- A resource pointer with LOC 1 (R280, R301): a scratchpad range of the issuing core. -/
def localFails (s : State) (k : Ctx) (a : Word) (len : Nat) : Option Fail :=
  let off := a.toNat % 2 ^ 18
  if a.toNat / 2 ^ 56 ≠ 0x81 || windowRz a || Config.numCores ≤ sendCore a then some (failRes 0 0 causeSpaceBad a)
  else if roleSize (coreOf s (sendCore a)) 0 ≤ off || (sendCore a = k.core && roleSize (coreOf s k.core) 0 < off + len) then
    some (failRes 0 0 causeSpaceBad a)
  else if sendCore a ≠ k.core then some (failRes 0 1 causeSpaceForeign a)
  else if off % 4 ≠ 0 then some (failRes 0 2 causeMisaligned a)
  else none

/-- The kind that COPY's pointer is resolved with: a host region where the entry is one (R301). -/
def copyKind (s : State) (k : Ctx) (h : W32) : Nat :=
  match (readEntry true s k.wave.part (coreOf s k.core).world (h.toNat / 256)).2 with
  | .ok e => if e.l.kind = 6 then 6 else 1
  | .error _ => 1

/-- The resource side of COPY: nothing for a local move. -/
def copyTarget (s : State) (k : Ctx) (out : Bool) (a : Word) (len : Nat) : State × Except Fail (Option ResEntry) :=
  if a.getLsbD 63 then
    (s, match localFails s k a len with
      | some f => .error f
      | none => .ok none)
  else
    let h : W32 := a.setWidth 32
    let r := resolve s k.wave.part (coreOf s k.core).world 0 h (copyKind s k h) (if out then 1 else 0)
      (a.toNat / 2 ^ 32) len a
    (r.1, match r.2 with
      | .error f => .error f
      | .ok e => .ok (some e))

/-- The roles that COPY may touch on the local side (R301). -/
def copyRoles (out : Bool) : List Nat := if out then [0, 4, 5] else [0, 3, 4, 5]

/-- A COPY of one lane (R301): a shadow destination is a buffer with SHADOW, and .publ acts only there. -/
def copyCmd (r : Record) (s : State) (k : Ctx) (l : Nat) : State × Except Fail Cmd :=
  let out := r.fn.getLsbD 0
  let a := opA s k r .b64 l
  let d := opB s k r .b64 l
  let cw := opC s k r .b64 l
  let len := d.toNat / 2 ^ 32 % 2 ^ 19
  let t := copyTarget s k out a len
  let q := ringOf t.1 k (r.fn.getLsbD 3) (cwRing cw)
  match firstFail ([failOf t.2, failOf q.2] ++ descFails (coreOf s k.core) (copyRoles out) d) with
  | some f => (q.1, .error f)
  | none =>
    let c := newCmd s k (if out then .copyOut else .copyIn) cw d
    let c := match q.2 with
      | .ok x => { c with ring := x }
      | .error _ => c
    match t.2 with
    | .error f => (q.1, .error f)
    | .ok none => (q.1, .ok { c with locOff := some (a.toNat % 2 ^ 18) })
    | .ok (some e) =>
      let shadow := out && e.l.kind = 1 && e.l.shadow ≠ 0 && len ≠ 0
      (q.1, .ok { c with latch := some e.l, roff := a.toNat / 2 ^ 32, shadow := shadow, publ := shadow && r.fn.getLsbD 2,
                         counted := !shadow && len ≠ 0 })

/-- A PUBL of one lane (R303). -/
def publCmd (r : Record) (s : State) (k : Ctx) (l : Nat) : State × Except Fail Cmd :=
  let h : W32 := (opA s k r .b64 l).setWidth 32
  let t := resolve s k.wave.part (coreOf s k.core).world 0 h 1 3 0 0 (h.setWidth 64)
  let q := ringOf t.1 k (r.c ≠ Opnd.absent) ((opC s k r .b64 l).setWidth 32)
  match firstFail [failOf t.2, failOf q.2] with
  | some f => (q.1, .error f)
  | none =>
    let c := newCmd s k .publ (opB s k r .b64 l) 0
    (q.1, .ok { c with stage := .publish, publ := true,
                       latch := (match t.2 with
                         | .ok e => some e.l
                         | .error _ => none),
                       ring := (match q.2 with
                         | .ok x => x
                         | .error _ => none) })

/-! ## Completion (R297 to R299, R382) -/

/-- Tag `t` after a completion (R297). -/
def tagDone (k : Core) (t : Nat) : Core :=
  let n := smGet 0 k.tagCnt t - 1
  { k with tagCnt := smSet 0 k.tagCnt t n, tagBits := if n = 0 then k.tagBits ||| ((1 : Word) <<< t) else k.tagBits }

/-- Completion of a command (R298, R382): its record, its count, its barrier, its tag. -/
def completeCmd (s : State) (c : Nat) (q : Cmd) : State :=
  let ver : W32 := (q.latch.map (fun l => l.pubver)).getD 0
  let s := match q.ring with
    | some r => postRecord s q.part q.secure c r q.written q.tag q.fault q.status (q.pubOut.getD ver)
    | none => s
  let s := match q.latch, q.counted with
    | some l, true => latchRelease s ⟨q.part, selfSlot s, some c, l.idx, l.pubver⟩
    | _, _ => s
  let s := if q.ben && q.owner ≠ 0 && (groupOf (coreOf s q.dstCore) q.bent).owner = q.owner then
      onCore s q.dstCore (fun k => groupDrain k q.bent (if q.ev then 1 else q.len))
    else s
  onCore s c (fun k => tagDone { k with cmds := k.cmds.filter (fun p => p.id ≠ q.id) } q.tag)

/-! ## Issue (R281, R296, R297) -/

/-- The engine can take the commands: at most 64 uncompleted ones, at most 255 of a tag (R281, R297). -/
def engineRoom (k : Core) (cs : List Cmd) : Bool :=
  k.cmds.length + cs.length ≤ 64
    && cs.all (fun c => smGet 0 k.tagCnt c.tag + (cs.filter (fun d => d.tag = c.tag)).length ≤ 255)

/-- The entry of a shadow-destination write among the commands whose previous readers are not done: the record waits at
issue (R99, R302). It latches anew when it issues (R98; log entry 39). -/
def shadowHeld (s : State) (cs : List Cmd) : Option Nat :=
  cs.findSome? (fun q => match q.latch with
    | some l =>
      if !q.shadow then none
      else (match (readEntry true s q.part q.secure l.idx).2 with
        | .ok e => if e.oldref = 0 then none else some l.idx
        | .error _ => none)
    | none => none)

/-- One command issues (R97, R98, R297); one of LEN 0 completes at once (R296). -/
def startCmd (c : Nat) (s : State) (q : Cmd) : State :=
  let q := { q with id := s.nextUid, owner := (groupOf (coreOf s q.dstCore) q.bent).owner }
  let s := { s with nextUid := s.nextUid + 1 }
  let s := onCore s c (fun k => { k with tagBits := k.tagBits &&& ~~~((1 : Word) <<< q.tag),
                                         tagCnt := smSet 0 k.tagCnt q.tag (smGet 0 k.tagCnt q.tag + 1),
                                         cmds := k.cmds ++ [q] })
  let s := match q.latch with
    | none => s
    | some l =>
      let s := latchAcquire s c
      if q.counted then
        match readEntry true s q.part q.secure l.idx with
        | (s, .ok e) => latchCount s q.part e
        | (s, .error _) => s
      else s
  if q.len = 0 && q.kind ≠ .publ then completeCmd s c q else s

/-- The lanes that issue a command: one for the wave where every present operand is uniform-valued (R281). -/
def commandLanes (s : State) (k : Ctx) (r : Record) : List Nat × Bool :=
  let one := [r.a, r.b, r.c].all (fun o => o = Opnd.absent || uniformValued s o)
  (if one then k.lanes.take 1 else k.lanes, one)

/-- SEND, COPY, PUBL: every command is formed and checked; a failure issues none (R281). -/
def commandRecord (i : Instr) (r : Record) (s : State) (form : State → Ctx → Nat → State × Except Fail Cmd) :
    Host.Outcome State Fault Refusal :=
  onSlot s (fun k =>
    let ls := commandLanes s k r
    let q := ls.1.foldl (fun (acc : State × List (Nat × Fail) × List Cmd) l =>
      let p := form acc.1 k l
      match p.2 with
      | .error f => (p.1, acc.2.1 ++ (if ls.2 then k.lanes.map (fun j => (j, f)) else [(l, f)]), acc.2.2)
      | .ok c => (p.1, acc.2.1, acc.2.2 ++ [c])) (s, [], [])
    if q.2.1 ≠ [] then trapFails q.1 k i q.2.1 0
    else if !engineRoom (coreOf s k.core) q.2.2 then slotWaits s k.core k.w k.x .stalled .engine
    else match shadowHeld q.1 q.2.2 with
    | some i => slotWaits s k.core k.w k.x .stalled (.shadow i)
    | none => advance (q.2.2.foldl (startCmd k.core) q.1) k)

/-- SEND (R300). -/
def execSend (r : Record) (s : State) : Host.Outcome State Fault Refusal :=
  commandRecord (.send r) r s (fun s k l => sendCmd r s k l)

/-- COPY (R301). -/
def execCopy (r : Record) (s : State) : Host.Outcome State Fault Refusal :=
  commandRecord (.copy r) r s (fun s k l => copyCmd r s k l)

/-- PUBL (R303): a release at .dv of the wave's earlier accesses. -/
def execPubl (r : Record) (s : State) : Host.Outcome State Fault Refusal :=
  match ctxOf s with
  | some k =>
    if openBelow s k (portBound s k) then .next (waitPort s k)
    else commandRecord (.publ r) r s (fun s k l => publCmd r s k l)
  | none => .fault .noIssuer

/-! ## Moving bytes -/

/-- Command `id` of a core. -/
def cmdOf (s : State) (c id : Nat) : Option Cmd := (coreOf s c).cmds.find? (fun q => q.id = id)

/-- A command that its engine works on: one that no exchange, halt or reset has suspended (R163). -/
def liveCmd (s : State) (c id : Nat) : Option Cmd := (cmdOf s c id).bind (fun q => if partRuns s q.part then some q else none)

/-- The core's command replaced by a later form of itself. -/
def putCmd (s : State) (c : Nat) (q : Cmd) : State :=
  onCore s c (fun k => { k with cmds := k.cmds.map (fun p => if p.id = q.id then q else p) })

/-- A side of a transfer at some byte: a place of a tile, a host address, or a virtual address. -/
inductive Side where
  | tile (core role off : Nat)
  | host (ha : Nat)
  | virt (va : Word)
  deriving DecidableEq, Repr

/-- The resource side of a COPY at byte `i`. -/
def resSide (l : Latch) (q : Cmd) (i : Nat) : Side :=
  let base := if q.shadow then l.shadow else l.base
  let a := base + BitVec.ofNat 64 (q.roff + i)
  if l.kind = 6 then .host a.toNat else .virt a

/-- The other side of a COPY at byte `i`: a resource, or the scratchpad. -/
def farSide (c : Nat) (q : Cmd) (i : Nat) : Side :=
  match q.latch, q.locOff with
  | some l, _ => resSide l q i
  | none, o => .tile c 0 (o.getD 0 + i)

/-- Source and destination of byte `i` of a command. -/
def sides (c : Nat) (q : Cmd) (i : Nat) : Side × Side :=
  match q.kind with
  | .send | .sendStrm => (.tile c 0 (q.off + i), .tile q.dstCore 0 (q.dstOff + i))
  | .copyIn => (farSide c q i, .tile c q.role (q.off + i))
  | _ => (.tile c q.role (q.off + i), farSide c q i)

/-- The cells that are not VALUE among those of the command's range on a leaf's page, by number (R136). -/
def rangeCells (s : State) (q : Cmd) (l : Latch) (x : Xlat) (va : Word) : List Nat :=
  match x.cell, x.place with
  | true, .dev pa =>
    let first := ((if q.shadow then l.shadow else l.base) + BitVec.ofNat 64 q.roff).toNat
    let pg := va.toNat - va.toNat % x.leaf.bytes
    let lo := max first pg
    let hi := min (first + q.len) (pg + x.leaf.bytes)
    let base := pa - va.toNat % x.leaf.bytes
    (s.tags.filter (fun t => (base + (lo - pg)) / 8 ≤ t.1 && t.1 ≤ (base + (hi - 1 - pg)) / 8)).map (fun t => t.1)
  | _, _ => []

/-- A side's place for one access, or why it fails (R383). -/
def sidePlace (s : State) (q : Cmd) (need : Need) (d : Side) : Except (BitVec 8) (Place × Option (Word × Leaf)) :=
  match d with
  | .tile c role off =>
    if off < roleSize (coreOf s c) role then .ok (.tile c (roleByte (coreOf s c) role off), none) else .error causeSpaceBad
  | .host ha => if s.atsFail.contains (ha / 4096) then .error causeDataUnmapped else .ok (.host ha, none)
  | .virt va =>
    match xlatCheck s q.part q.secure need va with
    | .error e => .error e
    | .ok x =>
      match q.latch with
      | some l => if rangeCells s q l x va ≠ [] then .error causeCellShape else .ok (x.place, some (va, x.leaf))
      | none => .ok (x.place, some (va, x.leaf))

/-- The address of a side, as a failure names it. -/
def sideAddr (d : Side) : Word :=
  match d with
  | .tile c role off => if role = 0 then BitVec.ofNat 64 (0x81 * 2 ^ 56 + c * 2 ^ 36 + off) else 0
  | .host ha => BitVec.ofNat 64 ha
  | .virt va => va

/-- A world violation or damaged data that a command meets is logged, each at its first address (R398, R399). -/
def cmdTells (s : State) (c : Nat) (q : Cmd) (cause : BitVec 8) (d : Side) : State × Cmd :=
  let ev := if cause = causeWorld then 2 else 3
  if cause ≠ causeWorld && cause ≠ causeIntegrity || q.told.contains ev then (s, q)
  else (logEvent s ev cause q.part 1 c (sideAddr d) noStage, { q with told := q.told ++ [ev] })

/-- The first failure of a command decides its status (R383). -/
def cmdFails (s : State) (c : Nat) (q : Cmd) (cause : BitVec 8) (d : Side) : State × Cmd :=
  let r := cmdTells s c q cause d
  let st := if cause = causeWorld then 3 else if cause = causeIntegrity then 4 else 2
  (r.1, if q.status ≠ 0 then r.2 else { r.2 with status := st, fault := cause })

/-- A side that fails: cells of its range whose waking record is lost become FAILED, and the command fails by them (R138). -/
def sideFails (s : State) (c : Nat) (q : Cmd) (cause : BitVec 8) (d : Side) : State × Cmd :=
  match cause == causeCellShape, d, q.latch with
  | true, .virt va, some l =>
    (match xlatCheck s q.part q.secure .load va with
      | .ok x =>
        let lost := (rangeCells s q l x va).filter (fun n => cellLost s (8 * n))
        if lost = [] then cmdFails s c q cause d
        else cmdFails (lost.foldl (fun s n => lostCell s q.part va (8 * n)) s) c q causeCellFailed d
      | .error _ => cmdFails s c q cause d)
  | _, _, _ => cmdFails s c q cause d

/-- Reads source bytes `[i, i + n)` of a command, of one aligned word of the source: what each byte holds, as `Cmd.carry`
says it. -/
def readPiece (s : State) (c : Nat) (q : Cmd) (i n : Nat) : State × Cmd × List (Option (Option Byte)) :=
  let d := (sides c q i).1
  match sidePlace s q .load d with
  | .error e =>
    let r := sideFails s c q e d
    (r.1, r.2, List.replicate n (some none))
  | .ok src =>
    let s := match src.2 with
      | some (va, l) => xlatMark s q.part .load va l
      | none => s
    if placePoisoned s src.1 n then
      let r := cmdFails s c q causeIntegrity d
      (r.1, r.2, List.replicate n none)
    else (s, q, (placeRead s src.1 n).map (fun b => some (some b)))

/-- Writes bytes of one aligned word of the destination, from byte `i` of the command on: no byte of a word that would
carry damaged data, and of another word the bytes that were read (R383). The core's own L1 sees them (R117); an 8-byte word of
which both halves have been written is whole again (R395). -/
def writePiece (s : State) (c : Nat) (q : Cmd) (i : Nat) (bs : List (Option (Option Byte))) : State × Cmd :=
  let d := (sides c q i).2
  match sidePlace s q .store d with
  | .error e => let r := sideFails s c q e d; (r.1, { r.2 with lowHalf := false })
  | .ok dst =>
    if bs.contains none then (s, { q with lowHalf := false })
    else
      let s := match dst.2 with
        | some (va, l) => breakTr (xlatMark s q.part .store va l) q.part va l
        | none => s
      let w : Writer := ⟨q.part, [], some c⟩
      let got := bs.map (fun b => b.bind id)
      let s := if got.all Option.isSome then placeWrite s w dst.1 (got.filterMap id)
        else ((List.range got.length).zip got).foldl (fun s p => match p.2 with
          | some b => placeWrite s w (placeAt dst.1 p.1) [b]
          | none => s) s
      let whole := got.length = 4 && got.all Option.isSome
      let high := (placeLinear dst.1).2 % 8 = 4
      let s := if whole && high && q.lowHalf then clearWord s dst.1 else s
      (s, { q with written := q.written + (got.filter Option.isSome).length, lowHalf := whole && !high })

/-- How far the far side of a command stands past an aligned word: a resource offset need not be aligned (R280). -/
def farShift (c : Nat) (q : Cmd) : Nat :=
  match farSide c q 0 with
  | .host ha => ha % 4
  | .virt va => va.toNat % 4
  | .tile .. => 0

/-- The end of the aligned word that byte `i` of a command lies in, on a side that stands `shift` past a word. -/
def wordEnd (q : Cmd) (shift i : Nat) : Nat := min q.len (i + (4 - (i + shift) % 4))

/-- The next move of a command: the source bytes up to an aligned word's end, and the destination words they complete, as
first bytes and lengths (R113). Only the far side of a COPY can be out of step with its other side. -/
def nextMove (c : Nat) (q : Cmd) : Nat × List (Nat × Nat) :=
  let sh := farShift c q
  let stop := wordEnd q (if q.kind = .copyIn then sh else 0) q.moved
  let first := q.moved - q.carry.length
  let e1 := wordEnd q (if q.kind = .copyOut then sh else 0) first
  if stop < e1 then (stop, [])
  else if e1 = stop || stop < q.len then (stop, [(first, e1 - first)])
  else (stop, [(first, e1 - first), (e1, stop - e1)])

/-- A move may take place now: no lock on its source, no lock and no snapshot hold on its destinations (R43, R130), and a port
up where they lie at a peer, which has to accept the bytes (R348). -/
def moveFree (s : State) (c : Nat) (q : Cmd) (m : Nat × List (Nat × Nat)) : Bool :=
  (match sidePlace s q .load (sides c q q.moved).1 with
    | .ok p => !lineLocked s [] (lineOf p.1)
    | .error _ => true)
  && m.2.all (fun w => match sidePlace s q .store (sides c q w.1).2 with
    | .ok p => !(lineLocked s [] (lineOf p.1) || storeAtHold s q.part p.1 || (s.ports = 0 && isPeer p.1))
    | .error _ => true)

/-- One move of a command. -/
def moveOne (s : State) (c : Nat) (q : Cmd) (m : Nat × List (Nat × Nat)) : State × Cmd :=
  let r := readPiece s c q q.moved (m.1 - q.moved)
  let have_ := q.carry ++ r.2.2
  let first := q.moved - q.carry.length
  let w := m.2.foldl (fun (acc : State × Cmd) p => writePiece acc.1 c acc.2 p.1 ((have_.drop (p.1 - first)).take p.2)) (r.1, r.2.1)
  let out := (m.2.map (fun p => p.2)).sum
  (w.1, { w.2 with moved := m.1, carry := have_.drop out })

/-- Makes at most `n` further moves of a command, as far as nothing holds them. They go upwards: R87 and R298 allow any
order of the words (DESIGN CHOICE, log entry 39). -/
def moveWords (c : Nat) : Nat → State → Cmd → State × Cmd
  | 0, s, q => (s, q)
  | n + 1, s, q =>
    if q.len ≤ q.moved then (s, q)
    else
      let m := nextMove c q
      if !moveFree s c q m then (s, q)
      else
        let r := moveOne s c q m
        moveWords c n r.1 r.2

/-- The engine of a core acts: it looks in the core's translation caches, and writes as the core (R103, R117). -/
def asEngine (s : State) (c : Nat) (f : State → State) : State := { f { s with cur := { s.cur with who := .engine c } } with cur := s.cur }

/-- The engine of a core moves words of a command (R87, R298). -/
def engineBeat (s : State) (c id n : Nat) : State :=
  asEngine s c (fun s => match liveCmd s c id with
  | none => s
  | some q =>
    if q.stage ≠ .moving then s
    else
      let r := moveWords c n s q
      putCmd r.1 c r.2)

/-- A stream slot whose SEND has performed every byte is FULL (R125). -/
def fillSlotOf (s : State) (q : Cmd) : State :=
  if q.kind ≠ .sendStrm then s
  else
    onCore s q.dstCore (fun k =>
      match streamAt k q.stream with
      | some t => if t.slots.getD q.slot .free = .reserved then putStream k q.stream (some { t with slots := setAt t.slots q.slot .full }) else k
      | none => k)

/-- What the transfer meets in the integrity checks strikes its next word's source (R394, R396). -/
def cmdDamage (s : State) (c : Nat) (q : Cmd) (d : Damage) : State :=
  match sidePlace s q .load (sides c q q.moved).1 with
  | .ok p => applyDamage s q.part p.1 d
  | .error _ => s

/-- A SEND no longer waits for a slot of its stream. -/
def dropSend (s : State) (c : Nat) (q : Cmd) : State :=
  if q.kind ≠ .sendStrm then s
  else onCore s q.dstCore (fun k =>
    match streamAt k q.stream with
    | some t => if t.waiting.contains (c, q.id) then
        putStream k q.stream (some { t with waiting := t.waiting.filter (fun p => p ≠ (c, q.id)) }) else k
    | none => k)

/-- The mailbox ends a command, suspended or in flight: it completes with status ABORTED (R383). -/
def abortCmd (s : State) (c id : Nat) : State :=
  asEngine s c (fun s => match cmdOf s c id with
  | none => s
  | some q => completeCmd (fillSlotOf (dropSend s c q) q) c { q with status := 5, fault := 0 })

/-- ENGINE_COMPLETE (R298, R382): the rest of the bytes move; the command completes, or its publish is to come. -/
def execEngineComplete (core cmd : Nat) (damage : Damage) (s : State) : Host.Outcome State Fault Refusal :=
  .next (asEngine s core (fun s => match liveCmd s core cmd with
    | none => s
    | some q =>
      match q.stage with
      | .moving =>
        let s := if q.moved < q.len then cmdDamage s core q damage else s
        let r := moveWords core (q.len / 4 + 1) s q
        let s := putCmd r.1 core r.2
        if r.2.moved < r.2.len then s
        else if r.2.publ && r.2.status = 0 then putCmd s core { r.2 with stage := .publish }
        else completeCmd (fillSlotOf s r.2) core r.2
      | .done => completeCmd s core q
      | _ => s))

/-! ## SEND at the destination (R125, R300) -/

/-- A SEND refused at its destination has written nothing (R300). -/
def refuseSend (s : State) (c : Nat) (q : Cmd) (cause : BitVec 8) : State :=
  putCmd s c { q with stage := .done, status := 2, fault := cause }

/-- A SEND takes the FREE slot at the write index, or waits for one in the order of arrival (R125). -/
def takeSlot (s : State) (c : Nat) (q : Cmd) (t : Stream) : State :=
  let waits := t.waiting.contains (c, q.id)
  let first := (t.waiting.headD (c, q.id)) = (c, q.id)
  if first && t.slots.getD t.widx .full = .free then
    let t' := { t with slots := setAt t.slots t.widx .reserved, widx := nextSlot t t.widx,
                       waiting := t.waiting.filter (fun p => p ≠ (c, q.id)) }
    let s := onCore s q.dstCore (fun k => putStream k q.stream (some t'))
    putCmd s c { q with stage := .moving, slot := t.widx, dstOff := t.base.toNat % 2 ^ 18 + t.slotsz * t.widx }
  else if waits then s
  else putCmd (onCore s q.dstCore (fun k => putStream k q.stream (some { t with waiting := t.waiting ++ [(c, q.id)] }))) c q

/-- SEND_ARRIVE (R125, R296, R300): the destination's checks, the barrier's binding, the slot. -/
def execSendArrive (core cmd : Nat) (s : State) : Host.Outcome State Fault Refusal :=
  .next (asEngine s core (fun s => match liveCmd s core cmd with
    | none => s
    | some q =>
      if q.stage ≠ .travel then s
      else
        let k := coreOf s q.dstCore
        let held : Bool := match streamAt k q.stream with
          | some t => q.kind = .sendStrm && t.waiting.contains (core, cmd)
          | none => false
        let q := if held then q else { q with owner := (groupOf k q.bent).owner }
        if q.kind = .send then
          if roleSize k 0 < q.dstOff + q.len then refuseSend s core q causeSpaceBad
          else putCmd s core { q with stage := .moving }
        else
          match streamAt k q.stream with
          | none => refuseSend s core q causeStreamUnbound
          | some t => if t.slotsz < q.len then refuseSend s core q causeSpaceBad else takeSlot s core q t))

/-! ## Publishes (R99, R302) -/

/-- A shadow-destination command latched on the entry earlier has not completed its writes (R302). -/
def earlierShadow (s : State) (q : Cmd) (idx : Nat) : Bool :=
  s.cores.any (fun k => k.2.cmds.any (fun p =>
    p.part = q.part && p.shadow && p.id < q.id && (p.latch.map (fun l => l.idx)) = some idx
      && p.stage = .moving))

/-- R99, as one write of the entry. -/
def swapEntry (s : State) (p : Nat) (e : ResEntry) : State :=
  let s := entryPut s p e.l.idx 0 (leBytes 8 e.l.shadow.toNat)
  let s := entryPut s p e.l.idx 0x10 (leBytes 8 e.l.base.toNat)
  let s := entryPut s p e.l.idx 0x18 (leBytes 4 0 ++ leBytes 4 e.inflight)
  entryPut s p e.l.idx 0x20 (leBytes 4 (e.l.pubver + 1).toNat)

/-- The publish of a command on the entry as it stands: done, refused, or not yet (R302). -/
def publishNow (s : State) (c : Nat) (q : Cmd) (l : Latch) : State :=
  let r := readEntry false s q.part q.secure l.idx
  let fails (s : State) (cause : BitVec 8) : State :=
    if cause = causeIntegrity then
      let x := cmdFails s c q cause (.virt (entryAddr s q.part l.idx))
      putCmd x.1 c { x.2 with stage := .done }
    else putCmd s c { q with stage := .done, status := 2, fault := cause }
  match r.2, xlatCheck r.1 q.part q.secure .store (entryAddr s q.part l.idx) with
  | .error e, _ => fails r.1 e.1
  | .ok _, .error e => fails r.1 e
  | .ok e, .ok _ =>
    if q.kind ≠ .publ && e.l.pubver ≠ l.pubver then putCmd r.1 c { q with stage := .done, pubOut := some e.l.pubver }
    else if e.l.gen ≠ l.gen || e.l.kind ≠ l.kind then putCmd r.1 c { q with stage := .done, status := 1 }
    else if e.oldref ≠ 0 then s
    else putCmd (swapEntry r.1 q.part e) c { q with stage := .done, pubOut := some (e.l.pubver + 1) }

/-- PUBLISH (R99, R302, R383). -/
def execPublish (core cmd : Nat) (s : State) : Host.Outcome State Fault Refusal :=
  .next (asEngine s core (fun s => match liveCmd s core cmd with
    | none => s
    | some q =>
      match q.stage, q.latch with
      | .publish, some l => if earlierShadow s q l.idx then s else publishNow s core q l
      | _, _ => s))

/-- SHADOW_WRITE_ISSUE (R99, R302): the write that waits at issue in PC slot `slot` of the core, 2w + x, issues when it is
next selected, since OLDREF of its entry is 0. An entry that can no longer be read fails that issue. -/
def execShadowWriteIssue (core slot : Nat) (s : State) : Host.Outcome State Fault Refusal :=
  .next (match waveOf s core (slot / 2) with
    | none => s
    | some v =>
      match (slotOf v (slot % 2)).wait with
      | .shadow i =>
        let held := match (readEntry false s v.part (coreOf s core).world i).2 with
          | .ok e => e.oldref ≠ 0
          | .error _ => false
        if held || v.halted || v.parked || !partRuns s v.part then s
        else onSlotOf s core (slot / 2) (slot % 2) (fun t => { t with st := .eligible, wait := .none, ready := (coreOf s core).cycle })
      | _ => s)

/-! ## The local clock and the rate limiter (R13, R354) -/

/-- A core's local clock advances by one cycle. -/
def tickCore (k : Core) : Core := { k with cycle := k.cycle + 1 }

/-- RLIM_WINDOW (R354): a window of 1,024 local cycles has ended since the limiter's counts began, which begin anew; words that
waited for it are admitted. -/
def execRlimWindow (core : Nat) (s : State) : Host.Outcome State Fault Refusal :=
  .next (onCore s core (fun k =>
    if k.cycle / 1024 = k.rlWin then k else { k with rlSf := 0, rlMac := 0, rlWin := k.cycle / 1024 }))

end Sys2Proof.Machine
end

