-- ==== Sys2Proof/Machine/Matrix.lean ====
section
/-! DEFINITION. The tender: streams and their stops (R307 to R312, R369), MMA, MMAS, MTILE, MSTY, MZY, TMEET, the
tender's LOOP (R310 to R320), and the wave record LDQ (R321). -/

namespace Sys2Proof.Machine

/-! ## Streams -/

/-- The placed block of a stream. -/
def blockOfTender (k : Core) (t : Tender) : Option PlacedBlock := k.blocks.find? (fun b => b.uid = t.block)

/-- The stream of a core ends (R307, R35). -/
def tenderEnds (s : State) (c i : Nat) : State :=
  onCore s c (fun k =>
    match k.tenders[i]? with
    | none => k
    | some t =>
      match blockOfTender k t with
      | some b => endStream k b
      | none => onTenderAt k i (fun t => { t with st := .ended }))

/-- A tender stop is reported to the lowest-numbered wave of the block that has not exited (R369). -/
def reportStop (s : State) (c : Nat) (b : PlacedBlock) (r : TenderReport) : State :=
  match b.live with
  | [] => s
  | i :: _ => onWave s c (b.wslots.getD i 16) (fun v => { v with report := some r })

/-- The record at the stream's position stops it (R369). -/
def tenderStops (s : State) (c i : Nat) (t : Tender) (cause : BitVec 8) (addr : Word) : State :=
  let s := match blockOfTender (coreOf s c) t with
    | some b => reportStop s c b ⟨cause, t.blk, t.pc, addr⟩
    | none => s
  tenderEnds s c i

/-- The stream moves to a record; past its last one it ends (R307). -/
def tenderGoes (s : State) (c i : Nat) (t : Tender) (pc : Nat) : State :=
  let s := onCore s c (fun k => onTenderAt k i (fun t => { t with pc := pc }))
  if t.recs.length ≤ pc && t.bad.isNone then tenderEnds s c i else s

/-- The value of a tender operand (R308). -/
def tenderOpnd (s : State) (c : Nat) (t : Tender) (o : Opnd) : Word :=
  match o with
  | .imm v => v.signExtend 64
  | .lit n => t.lits.getD n.toNat 0
  | .arg n =>
    (match blockOfTender (coreOf s c) t with
      | some b => ((launchOf s b.launch).map (fun l => l.args.getD n.toNat 0)).getD 0
      | none => 0)
  | _ => 0

/-- XINC (R310). -/
def xinc (t : Tender) : Nat := t.inc.toNat % 2 ^ 18
/-- YINC (R310). -/
def yinc (t : Tender) : Nat := t.inc.toNat / 2 ^ 32 % 2 ^ 18

/-- The checks of an offset of a role: RZ bits clear, its range inside the space, its alignment (R308, R369). -/
def offsetFails (k : Core) (role : Nat) (rz : Bool) (off n al : Nat) : List (Option Fail) :=
  let a : Word := BitVec.ofNat 64 off
  [if rz || roleSize k role < off + n || roleSize k role = 0 then some (failAddr causeSpaceBad a) else none,
   if off % al ≠ 0 then some (failAddr causeMisaligned a) else none]

/-- Bits of an operand outside the fields a mask names. -/
def strays (v mask : Word) : Bool := v &&& ~~~mask ≠ 0

/-- A word of a range of a role's space is poisoned. -/
def rolePoisoned (k : Core) (role off n : Nat) : Bool :=
  (List.range ((n + 3) / 4)).any (fun i => k.tilePoison.contains (roleByte k role (off + 4 * i) / 4))

/-- Bytes written to a role's space, tile by tile (R85). -/
def roleStore (k : Core) (role : Nat) : Nat → Nat → List Byte → Core
  | 0, _, _ => k
  | fuel + 1, off, bs =>
    if bs = [] then k
    else
      let n := min bs.length (Config.tileBytes - off % Config.tileBytes)
      let a := roleByte k role off
      let k := clearTilePoison { k with tileMem := memWrite k.tileMem a (bs.take n) } a n
      roleStore k role fuel (off + n) (bs.drop n)

/-- Writes of the matrix array to the Y buffer (R86). -/
def storeY (s : State) (c off : Nat) (bs : List Byte) : State := onCore s c (fun k => roleStore k 5 17 off bs)

/-! ## Matrix operands (R313, R314) -/

/-- The values of 32 codes of an E2M1 block, in ascending order, `seen` escapes before them (R215). -/
def e2m1Decode (x : Nat) (out : List Nat) : List Nat → Nat → List Fv
  | [], _ => []
  | c :: cs, seen =>
    if x = 255 then .nan :: e2m1Decode x out cs seen
    else if c = 8 then
      (if seen < 2 then fpDecode fmtBf16 (out.getD seen 0) else .nan) :: e2m1Decode x out cs (seen + 1)
    else fvScale ((x : Int) - 127) (e2m1Value c) :: e2m1Decode x out cs seen

/-- Nibbles of a little-endian number. -/
def nibbles (v n : Nat) : List Nat := (List.range n).map (fun i => v / 16 ^ i % 16)

/-- A container from a packed field of a kb member (R217). -/
def kbUnpack (mem v : Nat) : Nat := v / 2 ^ kbBits mem % 2 * 128 + v % 2 ^ kbBits mem

/-- The values of 16 containers of a kb block under its scale (R218). -/
def kbDecode (mem sc : Nat) (cs : List Nat) : List Fv :=
  cs.zipIdx.map (fun p => kbValue mem p.1 (sc / 256 % 256) (sc / 2 ^ (p.2 / 2) % 2))

/-- The elements of a row of A from its bytes and its scale row (R313). -/
def rowOfA (t : Ty) (mem : Nat) (row scale : List Byte) : List Fv :=
  match t with
  | .e2m1 =>
    (List.range 4).flatMap (fun b =>
      e2m1Decode (field scale b 1) [field scale (4 + 4 * b) 2, field scale (6 + 4 * b) 2] (nibbles (field row (16 * b) 16) 32) 0)
  | .kb =>
    let w := kbBits mem + 1
    let all := leNat row
    (List.range ((matShape .kb mem).k / 16)).flatMap (fun b =>
      kbDecode mem (field scale (2 * b) 2) ((List.range 16).map (fun i => kbUnpack mem (all / 2 ^ (16 * w * b + w * i) % 2 ^ w))))
  | _ =>
    let es := (fmtOf t).bits / 8
    (List.range (matShape t mem).k).map (fun i => fpDecode (fmtOf t) (field row (es * i) es))

/-- The elements of a quarter of a column of B from its four slots and its scale slot (R314). -/
def quarterOfB (t : Ty) (mem : Nat) (d sc : Nat) : List Fv :=
  let n := (matShape t mem).k / 4
  match t with
  | .e2m1 => e2m1Decode (sc % 256) [sc / 2 ^ 32 % 2 ^ 16, sc / 2 ^ 48 % 2 ^ 16] (nibbles d 32) 0
  | .kb =>
    (List.range (n / 16)).flatMap (fun b =>
      kbDecode mem (sc / 2 ^ (16 * b) % 2 ^ 16) ((List.range 16).map (fun i => d / 256 ^ (16 * b + i) % 256)))
  | _ =>
    let w := (fmtOf t).bits
    (List.range n).map (fun r => fpDecode (fmtOf t) (d / 2 ^ (w * r) % 2 ^ w))

/-- The wave that holds quarter `q`, and its first slot: none where the quarter reads as zeros (R310). -/
def quarterAt (k : Core) (t : Tender) (q : Nat) : Option (Wave × Nat) :=
  match blockOfTender k t with
  | none => none
  | some b =>
    let w := t.qmap.toNat / 16 ^ q % 16
    let n := t.qmap.toNat / 2 ^ 16 % 256 + 5 * q
    if b.wslots.length ≤ w || b.nkeep ≤ n + 4 || !b.live.contains w then none
    else (smGet none k.waves (b.wslots.getD w 16)).map (fun v => (v, n))

/-- Column `j` of B (R314). -/
def columnOfB (k : Core) (t : Tender) (ty : Ty) (mem j : Nat) : List Fv :=
  (List.range 4).flatMap (fun q =>
    match quarterAt k t q with
    | none => quarterOfB ty mem 0 0
    | some (v, n) =>
      quarterOfB ty mem ((List.range 4).foldl (fun a i => a + (keepGet k v (n + i) j).toNat * 2 ^ (64 * i)) 0)
        (keepGet k v (n + 4) j).toNat)

/-- The register word, counted from the first one of a quarter, that holds element `r`. -/
def elementWords (ty : Ty) (r : Nat) : List Nat :=
  match ty with
  | .e2m1 => [r / 8]
  | .kb => [r / 4]
  | _ =>
    let es := (fmtOf ty).bits / 8
    if es = 8 then [2 * r, 2 * r + 1] else [r * es / 4]

/-- A register word that a column's elements come from is poisoned (R396). -/
def columnPoisoned (k : Core) (t : Tender) (ty : Ty) (mem j : Nat) (ks : List Nat) : Bool :=
  let sh := matShape ty mem
  let n := sh.k / 4
  k.regPoison ≠ [] && ks.any (fun e =>
    match quarterAt k t (e / n) with
    | none => false
    | some (v, kb) =>
      let words := elementWords ty (e % n) ++ (if sh.scales then [8, 9] else [])
      words.any (fun w => k.regPoison.contains (regKey (keepReg v (kb + w / 2) + w % 2) j)))

/-! ## MMA, MMAS (R315, R316, R225 to R227) -/

/-- The rows of the products of one element that are present, by chunk: one list for f32 and f64. -/
abbrev Present := Nat → Nat → List Nat

/-- Chunks of a format. -/
def matChunks (ty : Ty) (sh : MatShape) : Nat := if ty = .f32 || ty = .f64 then 1 else sh.k / 32

/-- Every product of a chunk. -/
def allPresent (ty : Ty) (sh : MatShape) : Present := fun c _ =>
  if ty = .f32 || ty = .f64 then List.range sh.k else (List.range 32).map (fun i => 32 * c + i)

/-- The vectors of the metadata (R316). -/
def vectorCount (sh : MatShape) : Nat := 32 * max 1 (sh.k / 32)

/-- The live vectors, ascending (R316). -/
def liveVectors (sh : MatShape) (live : Nat) : List Nat := (List.range (vectorCount sh)).filter (fun v => live.testBit v)

/-- The present products of a vector from its index word, ascending (R316). -/
def indexRows (sh : MatShape) (base w : Nat) : List Nat :=
  (List.range (min 8 (sh.k / 4))).flatMap (fun g =>
    let n := w / 16 ^ g % 16
    let i0 := base + 4 * g + n % 4
    let i1 := base + 4 * g + n / 4
    if i0 = i1 then [i0] else [min i0 i1, max i0 i1])

/-- The products that MMAS keeps, from its metadata (R316). -/
def sparsePresent (ty : Ty) (sh : MatShape) (meta' : List Byte) : Present := fun c j =>
  let full := ty = .f32 || ty = .f64
  let v := if full then j else 32 * c + j
  match findAt (fun x => x = v) (liveVectors sh (field meta' 0 16)) 0 with
  | none => []
  | some t => indexRows sh (if full then 0 else 32 * c) (field meta' (16 + 4 * t) 4)

/-- One accumulator (R225 to R227). -/
def updateAcc (ty : Ty) (sh : MatShape) (p : Present) (j : Nat) (a b : List Fv) (y : Nat) : Nat :=
  let f := if ty = .f64 then fmtF64 else fmtF32
  (List.range (matChunks ty sh)).foldl (fun y c =>
    let prods (i : Nat) : Fv × Fv := (a.getD i (.fin false 0 0), b.getD i (.fin false 0 0))
    if ty = .f32 || ty = .f64 then
      (p c j).foldl (fun y i => fpRound f .rn false (fvAdd .rn (fvMul (prods i).1 (prods i).2) (fpDecode f y))) y
    else chunkInto y ((p c j).map (fun i => fvMul (prods i).1 (prods i).2))) y

/-- The new bytes of the 1,024 accumulators. -/
def matrixResult (k : Core) (t : Tender) (ty : Ty) (mem xa xs y : Nat) (p : Present) : List Byte :=
  let sh := matShape ty mem
  let es := if ty = .f64 then 8 else 4
  let cols := allLanes.map (columnOfB k t ty mem)
  allLanes.flatMap (fun i =>
    let row := rowOfA ty mem (roleRead k 4 (xa + sh.rs * i) sh.rs) (if sh.scales then roleRead k 4 (xs + 32 * i) 32 else [])
    allLanes.flatMap (fun j =>
      leBytes es (updateAcc ty sh p j row (cols.getD j []) (leNat (roleRead k 5 (y + es * (32 * i + j)) es)))))

/-- Array cycles admitted (R354): the tender waits for the next window where they would pass the limit. -/
def macAdmits (k : Core) (n : Nat) : Bool :=
  let lim := k.kcRlim.toNat % 2 ^ 16
  lim = 0 || k.rlMac + n ≤ max 128 lim

/-- The matrix array works on a checked MMA or MMAS (R312, R315, R316, R396). -/
def matrixRuns (s : State) (c i : Nat) (t : Tender) (r : Record) (xa xs y cycles : Nat) (p : Present) : State :=
  let k := coreOf s c
  let mem := r.fn.toNat / 8
  let sh := matShape r.ty mem
  let es := if r.ty = .f64 then 8 else 4
  let used (j : Nat) : List Nat := (List.range (matChunks r.ty sh)).flatMap (fun ch => p ch j)
  if !macAdmits k cycles then s
  else if rolePoisoned k 4 xa (32 * sh.rs) then tenderStops s c i t causeIntegrity (BitVec.ofNat 64 xa)
  else if sh.scales && rolePoisoned k 4 xs 1024 then tenderStops s c i t causeIntegrity (BitVec.ofNat 64 xs)
  else if allLanes.any (fun j => columnPoisoned k t r.ty mem j (used j)) then tenderStops s c i t causeIntegrity 0
  else if rolePoisoned k 5 y (1024 * es) then tenderStops s c i t causeIntegrity (BitVec.ofNat 64 y)
  else
    let s := storeY s c y (matrixResult k t r.ty mem xa xs y p)
    tenderGoes (onCore s c (fun k => { k with rlMac := k.rlMac + cycles })) c i t (t.pc + 1)

/-- MMA and MMAS: their operands, reduced service (R320), the checks of R308 and R369; `sparse` reads metadata. -/
def matrixRecord (s : State) (r : Record) (sparse : Bool) : Host.Outcome State Fault Refusal :=
  onTender s (fun c i t =>
    let k := coreOf s c
    let mem := r.fn.toNat / 8
    let sh := matShape r.ty mem
    let es := if r.ty = .f64 then 8 else 4
    let a := tenderOpnd s c t r.a
    let b := tenderOpnd s c t r.b
    let m := tenderOpnd s c t r.c
    let xa := a.toNat % 2 ^ 18 + t.p * xinc t
    let xs := a.toNat / 2 ^ 32 % 2 ^ 18 + t.p * xinc t
    let y := b.toNat % 2 ^ 18 + t.p * yinc t
    let mo := m.toNat % 2 ^ 18 + t.p * xinc t
    let four := r.ty = .e2m1 || (r.ty = .kb && mem = 0)
    let live := if sparse && mo + 16 ≤ roleSize k 4 then (liveVectors sh (leNat (roleRead k 4 mo 16))).length else 0
    let mlen := 16 + 4 * live
    if four && !fourBit s (coreDie c) then tenderStops s c i t causeLowerReject 0
    else
      match firstFail (offsetFails k 4 (strays a 0x3FFFF0003FFFF) xa (32 * sh.rs) 32
          ++ (if sh.scales then offsetFails k 4 false xs 1024 32 else [])
          ++ offsetFails k 5 (strays b 0x3FFFF) y (1024 * es) 32
          ++ (if sparse then offsetFails k 4 (strays m 0x3FFFF) mo mlen 32 else [])) with
      | some f => tenderStops s c i t f.cause f.addr
      | none =>
        if sparse && rolePoisoned k 4 mo mlen then tenderStops s c i t causeIntegrity (BitVec.ofNat 64 mo)
        else if sparse then
          matrixRuns s c i t r xa xs y ((64 * live + vectorCount sh - 1) / vectorCount sh)
            (sparsePresent r.ty sh (roleRead k 4 mo mlen))
        else matrixRuns s c i t r xa xs y 128 (allPresent r.ty sh))

/-- MMA (R315). -/
def execMma (r : Record) (s : State) : Host.Outcome State Fault Refusal := matrixRecord s r false

/-- MMAS (R316). -/
def execMmas (r : Record) (s : State) : Host.Outcome State Fault Refusal := matrixRecord s r true

/-! ## MTILE, MZY, MSTY (R310, R317, R318) -/

/-- MTILE (R310): a QMAP or INC with RZ bits set stops the stream (R369). -/
def execMtile (r : Record) (s : State) : Host.Outcome State Fault Refusal :=
  onTender s (fun c i t =>
    let q := tenderOpnd s c t r.a
    let n := tenderOpnd s c t r.b
    if strays q 0xFFFFFF then tenderStops s c i t causeLowerReject q
    else if strays n 0x3FFFF0003FFFF then tenderStops s c i t causeLowerReject n
    else
      let s := onCore s c (fun k => onTenderAt k i (fun t => { t with qmap := q, inc := n }))
      tenderGoes s c i t (t.pc + 1))

/-- MZY (R317). -/
def execMzy (r : Record) (s : State) : Host.Outcome State Fault Refusal :=
  onTender s (fun c i t =>
    let a := tenderOpnd s c t r.a
    let kind := tenderOpnd s c t r.b
    let y := a.toNat % 2 ^ 18 + t.p * yinc t
    let n := if kind = 0 then 4096 else 8192
    if 1 < kind.toNat then tenderStops s c i t causeLowerReject kind
    else
      match firstFail (offsetFails (coreOf s c) 5 (strays a 0x3FFFF) y n 32) with
      | some f => tenderStops s c i t f.cause f.addr
      | none => tenderGoes (storeY s c y (List.replicate n 0)) c i t (t.pc + 1))

/-- The converted bytes of MSTY (R318). -/
def mstyBytes (k : Core) (r : Record) (src es : Nat) : List Byte :=
  let f := if es = 8 then fmtF64 else fmtF32
  let d := (fmtOf r.ty).bits / 8
  (List.range 1024).flatMap (fun n =>
    leBytes d (fpRound (fmtOf r.ty) (rndOf r.fn.toNat) (r.fn.getLsbD 3) (fpDecode f (leNat (roleRead k 5 (src + es * n) es)))))

/-- MSTY (R318). -/
def execMsty (r : Record) (s : State) : Host.Outcome State Fault Refusal :=
  onTender s (fun c i t =>
    let k := coreOf s c
    let a := tenderOpnd s c t r.a
    let b := tenderOpnd s c t r.b
    let kind := tenderOpnd s c t r.c
    let src := a.toNat % 2 ^ 18 + t.p * yinc t
    let dst := b.toNat % 2 ^ 18 + t.p * yinc t
    let es := if kind = 0 then 4 else 8
    let d := (fmtOf r.ty).bits / 8
    if 1 < kind.toNat then tenderStops s c i t causeLowerReject kind
    else
      match firstFail (offsetFails k 5 (strays a 0x3FFFF) src (1024 * es) 32
          ++ offsetFails k 5 (strays b 0x3FFFF) dst (1024 * d) 32) with
      | some f => tenderStops s c i t f.cause f.addr
      | none =>
        if rolePoisoned k 5 src (1024 * es) then tenderStops s c i t causeIntegrity (BitVec.ofNat 64 src)
        else tenderGoes (storeY s c dst (mstyBytes k r src es)) c i t (t.pc + 1))

/-! ## TMEET, LOOP, NOP, the choice of a stream -/

/-- TMEET (R312, R319, R35): the tender arrives, or its arrival is held, and waits for the phase. -/
def execTmeet (r : Record) (s : State) : Host.Outcome State Fault Refusal :=
  onTender s (fun c i t =>
    let k := coreOf s c
    let e := ((blockOfTender k t).map (fun b => b.groupBase)).getD 0 + (match r.a with
      | .imm v => v.toNat
      | _ => 0)
    let g := groupOf k e
    let k := onTenderAt k i (fun t => { t with pc := t.pc + 1 })
    let k :=
      if g.arrived < g.expect then
        let k := putGroup k e { g with arrived := g.arrived + 1, tmeet := true }
        groupSettle (onTenderAt k i (fun t => { t with st := .tmeet e g.phase false })) e
      else
        onTenderAt (putGroup k e { g with held := g.held ++ [.tender i] }) i (fun t => { t with st := .tmeet e g.phase true })
    let waits : Bool := match k.tenders[i]? with
      | some t => t.st ≠ .ready
      | none => true
    setCore s c (if waits then { k with active := none } else k))

/-- The tender's LOOP (R311). -/
def execTenderLoop (r : Record) (s : State) : Host.Outcome State Fault Refusal :=
  onTender s (fun c i t =>
    let b := tenderOpnd s c t r.b
    let n := max 1 (b.toNat % 2 ^ 16)
    let rst := b.toNat / 2 ^ 16 % 2 ^ 12
    if strays b 0xFFFFFFF || t.pc ≤ rst then tenderStops s c i t causeLowerReject b
    else if t.p + 1 < n then
      onCore s c (fun k => onTenderAt k i (fun t => { t with p := t.p + 1, pc := rst }))
    else tenderEnds s c i)

/-- NOP (R248), of a slot or of a tender stream. -/
def execNop (_r : Record) (s : State) : Host.Outcome State Fault Refusal :=
  match tenderOf s with
  | some (c, i, t) => .next (tenderGoes s c i t (t.pc + 1))
  | none => onSlot s (fun k => advance s k)

/-- The ready stream that has waited longest (R307). -/
def longestReady (ts : List Tender) : Option Nat :=
  (ts.zipIdx.foldl (fun (m : Option (Nat × Nat)) p =>
    if p.1.st ≠ .ready then m
    else match m with
      | some q => if p.1.since < q.2 then some (p.2, p.1.since) else m
      | none => some (p.2, p.1.since)) none).map (fun q => q.1)

/-- TENDER_SWITCH (R307): a tender that executes no stream takes one. -/
def execTenderSwitch (r : Record) (s : State) : Host.Outcome State Fault Refusal :=
  onTender s (fun c _ _ =>
    let _ := r
    onCore s c (fun k => if k.active.isSome then k else { k with active := longestReady k.tenders }))

/-! ## LDQ (R321) -/

/-- The container bytes or packed elements that a lane's slots receive (R321). -/
def ldqElements (k : Core) (r : Record) (wb lane : Nat) : Nat :=
  let mem := r.fn.toNat / 8
  let sh := matShape r.ty mem
  if r.fn.getLsbD 0 then
    let es := (fmtOf r.ty).bits / 8
    leNat ((List.range (sh.k / 4)).flatMap (fun i => roleRead k 3 (wb + es * (32 * i + lane)) es))
  else
    let raw := leNat (roleRead k 3 (wb + 16 * lane) 16)
    if r.ty = .kb then
      let w := kbBits mem + 1
      leNat ((List.range (sh.k / 4)).map (fun i => BitVec.ofNat 8 (kbUnpack mem (raw / 2 ^ (w * i) % 2 ^ w))))
    else
      let qs := if r.ty = .f64 || r.ty = .f32 then 8 else 16
      raw % 2 ^ (8 * qs)

/-- Bytes that LDQ reads of the W buffer from WBOFF (R321). -/
def ldqBytes (r : Record) : Nat := if r.fn.getLsbD 0 && (r.ty = .f32 || r.ty = .f64) then 256 else 512

/-- A lane reads a poisoned word (R396). -/
def ldqPoisoned (k : Core) (r : Record) (wb so lane : Nat) : Bool :=
  let es := (fmtOf r.ty).bits / 8
  let n := (matShape r.ty (r.fn.toNat / 8)).k / 4
  (if r.fn.getLsbD 0 then (List.range n).any (fun i => rolePoisoned k 3 ((wb + es * (32 * i + lane)) / 4 * 4) es)
    else rolePoisoned k 3 (wb + 16 * lane) (if r.ty = .f64 || r.ty = .f32 then 8 else 16))
  || (r.c ≠ Opnd.absent && rolePoisoned k 3 (so + 8 * lane) 8)

/-- LDQ (R321): the lanes' quarters into five keep slots. -/
def execLdq (r : Record) (s : State) : Host.Outcome State Fault Refusal :=
  onSlot s (fun k =>
    let q := coreOf s k.core
    let wv := opA s k r .n32 k.low
    let sv := opC s k r .n32 k.low
    let wb := wv.toNat
    let so := sv.toNat
    let sc := r.c ≠ Opnd.absent
    let bad (off n : Nat) : Bool := roleSize q 3 < off + n || roleSize q 3 = 0
    let f := firstFail [
      if bad wb (ldqBytes r) then some (failAddr causeSpaceBad wv) else none,
      if sc && bad so 256 then some (failAddr causeSpaceBad sv) else none,
      if wb % 16 ≠ 0 then some (failAddr causeMisaligned wv) else none,
      if sc && so % 8 ≠ 0 then some (failAddr causeMisaligned sv) else none]
    match f with
    | some f => trapFails s k (.ldq r) (k.lanes.map (fun l => (l, f))) 0
    | none =>
      let hurt := k.lanes.filter (fun l => ldqPoisoned q r wb so l)
      let good := k.lanes.filter (fun l => !hurt.contains l)
      let base := (pairOf k r.b).getD 0
      let slotVal (n l : Nat) : Word :=
        if n = 4 then (if sc then leWord (roleRead q 3 (so + 8 * l) 8) else 0)
        else BitVec.ofNat 64 (ldqElements q r wb l / 2 ^ (64 * n))
      let s1 := (List.range 5).foldl (fun s n =>
        writeRegs s k.core k.w k.x (pairWrites (base - 2 * n) (good.map (fun l => (l, slotVal n l))))) s
      if hurt = [] then advance s1 k else trapFails s1 k (.ldq r) (hurt.map (fun l => (l, failIntegrity 0))) 0)

end Sys2Proof.Machine
end

