-- ==== Sys2Proof/Machine/Lowering.lean ====
section
/-! DEFINITION. The lowering engines: building a Sinter entry (R187, R195, R199), the store's evictions (R193), and the
verification of modules (R181, R182). -/

namespace Sys2Proof.Machine

/-! ## Translated pages (R195) -/

/-- Stores of a partition that have issued and are held back: those of a carriage and its CELL records until its commit (R42, R144), those of a
coupled iteration until its retirement (R67). -/
def heldStores (s : State) (p : Nat) : List (Place × Nat) :=
  s.cores.flatMap (fun k =>
    (wavesOf k.2).flatMap (fun w => if w.2.part ≠ p then [] else [w.2.slot0, w.2.slot1].flatMap (fun t =>
      match t.car with
      | some car => car.stores.map (fun q => (q.1, q.2.1.length))
          ++ car.cells.filterMap (fun q => (evalOf w.2 q.lane).map (fun e => (.dev e.pa, 8)))
      | none => []))
    ++ (match k.2.region with
      | some r => (r.iters.flatMap (fun it => it.effects) ++ r.tail.map (fun e => e.2)).flatMap (fun e => match e with
        | .store a => if a.part = p then a.pieces else []
        | .srel .. | .fence _ => [])
      | none => []))

/-- Some write issued through a translation of a leaf has not been performed. An engine translates each word as it moves
it, and has none outstanding. -/
def writePending (s : State) (p : Nat) (l : Leaf) : Bool :=
  let frame := pteFrame l.val
  let inside (q : Place × Nat) : Bool := match q.1, leafPlace l 0 with
    | .dev pa, .dev _ => decide (frame < pa + q.2) && decide (pa < frame + l.bytes)
    | .host ha, .host _ => decide (frame < ha + q.2) && decide (ha < frame + l.bytes)
    | _, _ => false
  s.accs.any (fun a => a.part = p && a.kind ≠ .load && a.pieces.any inside) || (heldStores s p).any inside

/-- The 4 KiB pages of a range. -/
def pagesOf (a : Word) (n : Nat) : List Word :=
  if n = 0 then []
  else (List.range ((a.toNat % 4096 + n - 1) / 4096 + 1)).map (fun i => BitVec.ofNat 64 ((a.toNat / 4096 + i) * 4096))

/-- TR is set in the leaf of a page before an instance of the engine reads the page; translations that allow writes are dropped
(R195). A page whose walk fails is not read, and nothing is set (R375). -/
def setTr (p : Nat) (sec : Bool) (s : State) (va : Word) : State :=
  match xlatCheck s p sec .fetch va with
  | .error _ => s
  | .ok x =>
    let l := x.leaf
    if pteBit l.val 58 then xlatMark s p .fetch va l
    else
      let s := placeWrite s (deviceWriter s p) (.dev l.pte)
        (leBytes 8 (BitVec.ofNat 64 (devNat s l.pte 8) ||| (1 : Word) <<< 58).toNat)
      let s := { s with tlb := s.tlb.filter (fun t => !(t.part = p && t.pte = l.pte)) }
      xlatMark s p .fetch va { l with val := l.val ||| (1 : Word) <<< 58 }

/-- A page of a list waits for writes through a translation without TR (R195). -/
def trWaits (s : State) (p : Nat) (sec : Bool) (pages : List Word) : Bool :=
  pages.any (fun va => match xlatCheck s p sec .fetch va with
    | .ok x => !pteBit x.leaf.val 58 && writePending s p x.leaf
    | .error _ => false)

/-! ## Building an entry (R187, R199) -/

/-- What the engine has read of a block: the entry as far as it goes, and the pages it lies on. -/
structure Lowered where
  info : Option BlockInfo
  recs : List Word
  lits : List Word
  marker : Option Marker
  pages : List Word
  deriving DecidableEq, Repr

/-- The page whose walk failed counts among those an entry is built from (R385). -/
def markerPages (m : Option Marker) : List Word :=
  match m with
  | some x => if x.cause = causeLowerReject then [] else pagesOf x.addr 1
  | none => []

/-- An entry that holds a marker alone. -/
def markedAlone (cause : BitVec 8) (addr : Word) (pages : List Word) : Lowered :=
  ⟨none, [], [], some ⟨0, cause, addr⟩, pages ++ markerPages (some ⟨0, cause, addr⟩)⟩

/-- The pages of the words of code that could be read. -/
def wordPages (base : Word) (ws : CodeWords) : List Word :=
  ((ws.zipIdx).flatMap (fun p => match p.1 with
    | .ok _ => pagesOf (base + BitVec.ofNat 64 (8 * p.2)) 8
    | .error _ => [])).eraseDups

/-- What the engine reads and checks of the block a request names (R187, R188, R199): its block-table entry, descriptor,
records and literals. The place of the table and what the other blocks are stand as the module's verification found them. -/
def lowerBlock (s : State) (q : LowerReq) : Lowered :=
  let d := dieOf s q.die
  let rd := fetchBytes s q.part q.key.sec
  if q.key.step ≠ d.stepping && !d.stepset.getLsbD q.key.step.toNat then markedAlone causeLowerReject 0 []
  else
    match okModule s q.part q.modl with
    | none => markedAlone causeLowerReject 0 []
    | some m =>
      let entry := q.modl + BitVec.ofNat 64 (m.blktab + 32 * q.blk)
      match rd entry 32 with
      | .error e => markedAlone e.1 e.2 []
      | .ok raw =>
        match readBlock rd q.modl entry with
        | .error e => markedAlone e.1 e.2 (pagesOf entry 32)
        | .ok b =>
          let pages := pagesOf entry 32 ++ (match b.desc with
            | some x => pagesOf (q.modl + BitVec.ofNat 64 (field raw 0x10 4)) (64 + 4 * x.groups.length)
            | none => [])
          if b.addr ≠ q.key.baddr then markedAlone causeLowerReject 0 pages
          else
            let rs := codeWords rd b.addr b.nrec 0
            let ls := codeWords rd b.litAddr b.nlit 0
            let r := recheck m q.blk b rs ls
            ⟨some b, r.1, r.2.1, r.2.2,
              (pages ++ wordPages b.addr (rs.take r.1.length) ++ wordPages b.litAddr ls ++ markerPages r.2.2).eraseDups⟩

/-- The Sinter entry of a request. Where entries of explicit code are known, the one of the same key and bytes gives its
code (R188, R193); else the entry runs its records (log entry 3). -/
def entryOf (s : State) (q : LowerReq) (b : Lowered) : SEntry :=
  let e : SEntry :=
    { key := q.key, part := q.part, start := Config.sinterStart s.freeCtr % 2 ^ 20 * 64, modl := q.modl, blk := q.blk,
      kind := (b.info.map (fun i => i.kind)).getD 0, vof := (b.info.map (fun i => i.vof)).getD 0xFFFF,
      nrec := (b.info.map (fun i => i.nrec)).getD 0, recs := b.recs, lits := b.lits, marker := b.marker,
      code := [], map := [], failed := false, placement := none, pages := b.pages }
  match (s.dies.flatMap (fun d => d.sinter ++ d.gone)).find? (fun o => o.code ≠ [] && o.key = e.key && o.kind = e.kind
      && o.vof = e.vof && o.nrec = e.nrec && o.recs = e.recs && o.lits = e.lits && o.marker = e.marker) with
  | some o => { e with code := o.code, map := o.map }
  | none => e

/-- A fetch that met a secure page writes an error-log entry (R199). -/
def logFetch (s : State) (q : LowerReq) (m : Option Marker) : State :=
  match m with
  | some x => if x.cause = causeWorld then logEvent s 2 causeWorld q.part 3 q.die x.addr noStage else s
  | none => s

/-- The store of a die with an entry in place of one of the same key. -/
def putEntry (d : Die) (e : SEntry) : Die := { d with sinter := d.sinter.filter (fun x => x.key ≠ e.key) ++ [e] }

/-- The request is answered: its entry stands in the store (R187, R195, R199). A request of PFI alone installs nothing where a
page fails, and logs nothing (R200). -/
def installEntry (s : State) (q : LowerReq) (b : Lowered) : State :=
  let s := { s with lowerReqs := s.lowerReqs.filter (fun r => r ≠ q) }
  let pageFails := match b.marker with
    | some m => m.cause ≠ causeLowerReject
    | none => false
  if q.pfi && pageFails then s
  else
    let s := logFetch (b.pages.foldl (setTr q.part q.key.sec) s) q b.marker
    let e := entryOf s q b
    onDie { s with freeCtr := s.freeCtr + 1 } q.die (fun d => putEntry d e)

/-- LOWERING_COMPLETE (R187): not before every write that used a translation without TR has been performed (R195). -/
def execLoweringComplete (die request : Nat) (s : State) : Host.Outcome State Fault Refusal :=
  .next (match s.lowerReqs[request]? with
    | none => s
    | some q =>
      if q.die ≠ die then s
      else
        let b := lowerBlock s q
        if trWaits s q.part q.key.sec b.pages then s else installEntry s q b)

/-- SINTER_EVICT (R193): an entry leaves the store; a slot that runs in it finds it gone and has it lowered again. -/
def execSinterEvict (die entry : Nat) (s : State) : Host.Outcome State Fault Refusal :=
  .next (if (dieOf s die).sinter.length ≤ entry then s
    else onDie s die (fun d => dropFrom d (fun e => d.sinter[entry]? = some e)))

/-! ## Verification (R181, R182) -/

/-- A register read returns a value to the software that made it (R357). -/
def regReads (s : State) (v : Word) : State := { s with hostWord := v }

/-- MG_MODVER (R181, R357): a write submits a module, a read returns all ones until the word is there. -/
def execMgModver (part : Nat) (access : RegAccess) (s : State) : Host.Outcome State Fault Refusal :=
  .next (if 8 ≤ part then s else match access with
    | .read => regReads s (partOf s part).modWord
    | .write v => onPart s part (fun p => { p with modAddr := some v, modWord := BitVec.allOnes 64 }))

/-- The pages of a module image that the engine reads. -/
def imagePages (rd : CodeReader) (base : Word) : List Word :=
  match readHeader rd base with
  | .ok h => if headerOk base h && imageFetched rd base h.size then pagesOf base h.size else pagesOf base 64
  | .error _ => []

/-- MODULE_VERIFIED (R181): the word of the submitted module is there. The engine's instance is the secure one where the
partition may hold secure pages (R351). Entries of the module that an earlier word gave leave the stores. -/
def execModuleVerified (part : Nat) (s : State) : Host.Outcome State Fault Refusal :=
  .next (match (partOf s part).modAddr with
    | none => s
    | some base =>
      let q := partOf s part
      let sec := q.world || q.bothw
      let rd := fetchBytes s part sec
      let pages := imagePages rd base
      if trWaits s part sec pages || 8 ≤ part then s
      else
        let m := verifiedModule part rd base
        let s := pages.foldl (setTr part sec) s
        let s := dropEntries s part (fun e => e.modl = base)
        let s := onPart s part (fun p => { p with modAddr := none, modWord := m.word })
        { s with modules := s.modules.filter (fun m => !(m.part = part && m.base = base)) ++ [m] })

end Sys2Proof.Machine
end

