-- ==== Sys2Proof/Machine/Placement.lean ====
section
/-! DEFINITION. Placements of a coupled region (R59, R60, R62 to R64): which station graphs are placements of a block. The
lowering engine of a die chooses one; its choice changes no result (R65). -/

namespace Sys2Proof.Machine

/-- Body records whose die words a station can hold beside its memory or stream record. -/
def isComputeOp (op : Nat) : Bool :=
  (1 ≤ op && op ≤ 0x25) || op = 0x2E || op = 0x31 || op = 0x3D || op = 0x45 || op = 0x46

/-- Records of a body that read other lanes or other records' lanes, and so keep the region from being placed: row words, block
conversions and block dot products, the active mask and the lowest active lane (log entry 16). -/
def staysSimt (w : Word) : Bool :=
  let op := opOf w
  let blockTy := tyOf w = .e2m1 || tyOf w = .kb
  let active (o : Opnd) : Bool := o = .spec 11
  (0x26 ≤ op && op ≤ 0x29) || ((op = 0x22 || op = 0x24) && blockTy)
    || (op = 0x2E && (opndOf w 0 = .imm 11 || (w.getLsbD 56 && opndOf w 0 = .imm 0)))
    || [0, 1, 2].any (fun p => active (opndOf w p))

/-- A record that only passes a keep slot on, and so needs no die word: a MOV of the slot (R60). -/
def wordless (w : Word) : Bool :=
  opOf w = 0x15 && fnOf w = 0 && (match opndOf w 0 with
    | .keep _ => true
    | _ => false)

/-- The keep slot that a body record writes: KEEP, CHASE. -/
def writesKeep (w : Word) : Option Nat :=
  if opOf w = 0x30 || opOf w = 0x5E then
    match opndOf w 0 with
    | .keep k => some k.toNat
    | _ => none
  else none

/-- A record after `i` writes keep slot `k` too: the iteration leaves what the last of them writes. -/
def keptLater (recs : List Word) (i k : Nat) : Bool := (recs.drop (i + 1)).any (fun w => writesKeep w = some k)

/-- A load or atomic of the body. -/
def isLoadOp (op : Nat) : Bool := op = 0x3E || op = 0x42 || op = 0x43 || op = 0x5E
/-- A memory record of the body (R73, R76). -/
def isMemOp (op : Nat) : Bool := isLoadOp op || op = 0x3F

/-- The positions of a body, with their records. -/
def bodyOf (recs : List Word) (m : Nat) : List (Nat × Word) := (List.range m).map (fun i => (i + 1, recs.getD (i + 1) 0))

/-- The body can be placed (R60, R76, R77, and log entry 16): its records stay in one channel; and no load follows a FENCE
that follows a store, since the store performs only at retirement (R67). -/
def bodyPlaceable (recs : List Word) (m : Nat) : Bool :=
  let body := bodyOf recs m
  let op (p : Nat × Word) : Nat := opOf p.2
  body.all (fun p => !staysSimt p.2
    && (isComputeOp (op p) || op p = 0 || op p = 0x30 || isMemOp (op p) || op p = 0x44 || op p = 0x53 || op p = 0x54
      || (op p = 0x35 && p.1 = m)))
    && body.all (fun p => op p ≠ 0x3F || body.all (fun f => op f ≠ 0x44 || f.1 ≤ p.1
      || body.all (fun q => !isLoadOp (op q) || q.1 ≤ f.1)))

/-- The body records whose values record `i` reads. -/
def distsOf (w : Word) (i : Nat) : List Nat :=
  (if opOf w = 0x5E then [] else readPositions (opOf w)).filterMap (fun p => match opndOf w p with
    | .dist d => if d = 0 then none else some (i - d.toNat)
    | _ => none)

/-- The records that a station runs: its own, but for those that a coupling brings it the value of; and the MOVs of keep slots
whose values these read and no coupling brings (R60). -/
def stationRuns (recs : List Word) (brought own : List Nat) : List Nat :=
  let mine := own.filter (fun i => !brought.contains i)
  let read := mine.flatMap (fun i => distsOf (recs.getD i 0) i)
  (List.range recs.length).filter (fun i =>
    mine.contains i || (wordless (recs.getD i 0) && read.contains i && !brought.contains i))

/-- Values that a station's records read from outside it: a record's value or a keep slot, and whether both halves are
read (R61, R168). -/
def stationReads (recs : List Word) (own : List Nat) : List (Carried × Bool) :=
  own.flatMap (fun i =>
    let w := recs.getD i 0
    let op := opOf w
    let r := fieldsOf w
    let ps := if op = 0x5E then [0] else readPositions op
    ps.filterMap (fun p =>
      let wide := if op = 0x5E then true else (readTy op r.ty r.fn r.b p).wide
      match recOpnd r p with
      | .dist d =>
        let j := i - d.toNat
        if d = 0 || own.contains j then none
        else some (.record j, wide && (resTy (opOf (recs.getD j 0)) (tyOf (recs.getD j 0))).wide)
      | .keep k => some (.keep k.toNat, wide)
      | _ => none))

/-- The role a station's records give it (R60). A head holds only MOVs of keep slots; KEEP records stand in the steer or the
write-back station. -/
def roleOk (recs : List Word) (st : Station) : Bool :=
  let ops := st.recs.map (fun i => opOf (recs.getD i 0))
  let memory := ops.filter (fun o => !isComputeOp o)
  match st.role with
  | .head => st.recs.all (fun i => wordless (recs.getD i 0))
  | .compute => memory = [] && ops ≠ []
  | .load => memory = [0x3E] || memory = [0x42] || memory = [0x43]
  | .store => memory = [0x3F]
  | .chase => memory = [0x5E]
  | .stream => memory = [0x53] || memory = [0x54]
  | .steer => ops.all (fun o => o = 0x30 || o = 0x35 || isComputeOp o) && ops.contains 0x35
  | .writeBack => ops.all (fun o => o = 0x30)

/-- The record values that couplings bring a station. -/
def broughtTo (cps : List Coupling) (j : Nat) : List Nat :=
  cps.filterMap (fun c => match c.val with
    | .record i => if c.cons = j && !c.high then some i else none
    | _ => none)

/-- The KEEP records that stand in the write-back station of a steer's replica: the steer runs them, since it writes the keep
slots when an iteration retires (R67). -/
def keepsBehind (sts : List Station) (st : Station) : List Nat :=
  if st.role = .steer then (sts.filter (fun q => q.role = .writeBack && q.repl = st.repl)).flatMap (fun q => q.recs) else []

/-- The body records that station `j` runs in a channel, ascending. -/
def runsAt (recs : List Word) (sts : List Station) (cps : List Coupling) (j : Nat) : List Nat :=
  match sts[j]? with
  | none => []
  | some st =>
    if st.role = .head || (st.role = .writeBack && sts.any (fun q => q.role = .steer && q.repl = st.repl)) then []
    else stationRuns recs (broughtTo cps j) (st.recs ++ keepsBehind sts st)

/-- A station may send a value: it makes it, or takes it in and passes it on (R59, R60). -/
def canSend (recs : List Word) (sts : List Station) (cps : List Coupling) (c : Coupling) : Bool :=
  match sts[c.prod]? with
  | none => false
  | some st =>
    let passes := st.role ≠ .head && cps.any (fun q => q.cons = c.prod && q.val = c.val && q.high = c.high)
    let runs := runsAt recs sts cps c.prod
    match c.val with
    | .record i => runs.contains i || passes || (st.role = .head && wordless (recs.getD i 0))
    | .order => true
    | .keep k => st.role = .head || passes
        || ((st.role = .chase || st.role = .steer) && runs.any (fun i => writesKeep (recs.getD i 0) = some k))

/-- The memory record of a station; its place in the body orders the station's order tokens (R77). -/
def memRecord (recs : List Word) (st : Station) : Option Nat := st.recs.find? (fun i => isMemOp (opOf (recs.getD i 0)))

/-- An order coupling that goes back from a later memory station to an earlier one (R77). It holds no token: the model keeps
what it would order by the condition on when a memory record may go on (DESIGN CHOICE, log entry 16). -/
def orderBack (recs : List Word) (sts : List Station) (c : Coupling) : Bool :=
  c.val = .order && (match sts[c.prod]?, sts[c.cons]? with
    | some p, some q => (match memRecord recs p, memRecord recs q with
      | some i, some j => decide (j ≤ i)
      | _, _ => false)
    | _, _ => false)

/-- Stations that nothing not yet taken feeds, taken one layer at a time: true where the graph without its feedback has no
cycle. -/
def acyclic (cps : List Coupling) : Nat → List Nat → Bool
  | 0, left => left = []
  | n + 1, left =>
    let next := left.filter (fun j => cps.any (fun c => c.cons = j && left.contains c.prod))
    if next = left then left = [] else acyclic cps n next

/-- The couplings of one replica with station numbers counted inside it. -/
def replicaCouplings (sts : List Station) (cps : List Coupling) (r : Nat) : List (Nat × Nat × Nat × Carried × Bool) :=
  let mine := (List.range sts.length).filter (fun j => (sts[j]?.map (fun s => s.repl)) = some r)
  cps.filterMap (fun c =>
    if mine.contains c.prod then
      some ((findAt (fun j => j = c.prod) mine 0).getD 0, (findAt (fun j => j = c.cons) mine 0).getD 99, c.port, c.val, c.high)
    else none)

/-- The role, records of a replica's stations, in order. -/
def replicaStations (sts : List Station) (r : Nat) : List (Role × List Nat) :=
  (sts.filter (fun s => s.repl = r)).map (fun s => (s.role, s.recs))

/-- A chase station takes the next address from its own address port (R74): no coupling brings its keep slot. -/
def ownPort (recs : List Word) (sts : List Station) (cps : List Coupling) (j : Nat) (v : Carried) : Bool :=
  match sts[j]?, v with
  | some st, .keep k => st.role = .chase && st.recs.any (fun i => writesKeep (recs.getD i 0) = some k)
      && !cps.any (fun c => c.cons = j && c.val = v)
  | _, _ => false

/-- Different values of a list. -/
def kinds (vs : List Carried) : Nat := vs.eraseDups.length

/-- Ports and fan-out of a station (R59). -/
def portsOk (recs : List Word) (sts : List Station) (cps : List Coupling) (j : Nat) : Bool :=
  let wideRole := match sts[j]?.map (fun s => s.role) with
    | some .head | some .steer | some .writeBack => true
    | _ => false
  let ins := cps.filter (fun c => c.cons = j)
  let outs := cps.filter (fun c => c.prod = j)
  let data := ins.filter (fun c => c.port ≠ 8)
  kinds (data.map (fun c => c.val)) ≤ (if wideRole then 8 else 3)
    && kinds (outs.map (fun c => c.val)) ≤ (if wideRole then 8 else 4)
    && (ins.filter (fun c => c.port = 8 && !orderBack recs sts c)).length ≤ 1
    && (ins.filter (fun c => c.port = 8 && orderBack recs sts c)).length ≤ 1
    && ins.all (fun c => c.port ≤ 8 && (c.port = 8) == (c.val = .order))
    && data.all (fun c => data.all (fun d => (c.val = d.val) == (c.port = d.port)))
    && outs.all (fun c => (outs.filter (fun d => d.val = c.val && d.high = c.high)).length ≤ 4)

/-- Couplings that the registers of their consumer lanes do not hold, against the coupling-spill tiles (R62, R64). -/
def couplingsFit (sts : List Station) (cps : List Coupling) (free spill : Nat) : Bool :=
  let beyond := (List.range sts.length).map (fun j => (cps.filter (fun c => c.cons = j)).length - free / 4)
  beyond.sum ≤ 512 * spill

/-- What each record of the body stands in (R60): a computation in one station or more, over which it may be split; a record
that touches memory, a stream or the direction of the loop in one; a KEEP in the station that closes the iteration or in its
write-back; a MOV of a keep slot in any or none. -/
def recordsPlaced (recs : List Word) (m : Nat) (first : List Station) : Bool :=
  let body := (bodyOf recs m).filter (fun p => opOf p.2 ≠ 0 && opOf p.2 ≠ 0x44)
  let count (i : Nat) : Nat := (first.filter (fun s => s.recs.contains i)).length
  body.all (fun p => wordless p.2 || (if isComputeOp (opOf p.2) || opOf p.2 = 0x30 then 1 ≤ count p.1 else count p.1 = 1))
    && first.all (fun s => s.recs.all (fun i => body.any (fun p => p.1 = i)
        && (opOf (recs.getD i 0) ≠ 0x30 || s.role = .steer || s.role = .writeBack)))
    && first.all (fun s => (s.recs.zip (s.recs.drop 1)).all (fun q => q.1 < q.2))
    -- the two values of a record stay in its station
    && body.all (fun p => !twoValued p.2 || first.all (fun s => !s.recs.contains p.1 || s.recs.contains (p.1 + 1)))
    && body.all (fun p => !(opOf p.2 = 0x15 && fnOf p.2 = 1)
      || first.all (fun s => !s.recs.contains p.1 || s.recs.contains (p.1 - 1)))

/-- A CHASE that leaves the slot's last value takes its address from its own port, or sends it on to the station that closes
the iteration (R74). -/
def chasesOk (recs : List Word) (m : Nat) (sts : List Station) (cps : List Coupling) (closing : Role) : Bool :=
  let roleAt (j : Nat) : Option Role := sts[j]?.map (fun s => s.role)
  (bodyOf recs m).all (fun p => opOf p.2 ≠ 0x5E || (match writesKeep p.2 with
    | none => false
    | some k =>
      let sent (c : Coupling) (high : Bool) : Bool := c.val = .keep k && c.high = high && roleAt c.cons = some closing
        && (sts[c.prod]?.map (fun s => s.recs.contains p.1)) = some true
      keptLater recs p.1 k
        || sts.zipIdx.any (fun q => q.1.recs.contains p.1 && ownPort recs sts cps q.2 (.keep k))
        || (cps.any (fun c => sent c false) && cps.any (fun c => sent c true))))
    && cps.all (fun c => match c.val with
      | .keep k => roleAt c.prod ≠ some .chase || roleAt c.cons = some closing
          || (sts[c.prod]?.map (fun s => s.recs.all (fun i => writesKeep (recs.getD i 0) ≠ some k))) = some true
      | _ => true)

/-- The couplings of the head and of the stations that close an iteration (R60, R66, R67, R70). -/
def closingOk (recs : List Word) (m : Nat) (width : Nat) (sts : List Station) (cps : List Coupling) (loop : Bool) : Bool :=
  let roleAt (j : Nat) : Option Role := sts[j]?.map (fun s => s.role)
  let replAt (j : Nat) : Option Nat := sts[j]?.map (fun s => s.repl)
  let feedback (c : Coupling) : Bool := roleAt c.prod = some .steer && roleAt c.cons = some .head
  let written := (bodyOf recs m).filterMap (fun p => writesKeep p.2)
  cps.all (fun c => feedback c || (roleAt c.cons ≠ some .head && roleAt c.prod ≠ some .writeBack))
    && (!loop || (List.range width).all (fun r =>
      cps.any (fun c => feedback c && replAt c.prod = some r)
        && cps.any (fun c => roleAt c.prod = some .steer && roleAt c.cons = some .writeBack && replAt c.prod = some r)))
    && (!loop || cps.all (fun c => roleAt c.cons ≠ some .writeBack || roleAt c.prod = some .steer))
    && cps.all (fun c => roleAt c.prod ≠ some .steer || ((roleAt c.cons = some .head || roleAt c.cons = some .writeBack)
      && (match c.val with
        | .record _ => false
        | _ => true)))
    && cps.all (fun c =>
      let slot : Option Nat := match c.val with
        | .keep k => some k
        | .record i => (match opndOf (recs.getD i 0) 0 with
          | .keep k => some k.toNat
          | _ => none)
        | .order => none
      roleAt c.prod ≠ some .head || (match slot with
        | some k => !(loop && written.contains k)
            || cps.any (fun d => feedback d && d.cons = c.prod && d.val = .keep k && d.high = c.high)
        | none => true))

/-- The whole graph is a placement of a body of `m` records (R59 to R64). A station is held to 8 body records, each counted
as one die word, those it only passes on not counted: how many words a record becomes is the stepping's own (R188); and the order
of R77 is kept without order tokens (DESIGN CHOICE, log entry 16). -/
def graphOk (recs : List Word) (m : Nat) (p : Placement) : Bool :=
  let sts := p.stations
  let cps := p.couplings
  let loop := opOf (recs.getD m 0) = 0x35
  let first := sts.filter (fun s => s.repl = 0)
  let count (r : Role) : Nat := (first.filter (fun s => s.role = r)).length
  let roleAt (j : Nat) : Option Role := sts[j]?.map (fun s => s.role)
  let forward := cps.filter (fun c => !(roleAt c.prod = some .steer && roleAt c.cons = some .head) && !orderBack recs sts c)
  (p.width = 1 || p.width = 2 || p.width = 4 || p.width = 8) && 1 ≤ sts.length && sts.length ≤ 32 && cps.length ≤ 128
    && sts.all (fun s => s.lane < 32 && s.repl < p.width && (s.recs.filter (fun i => !wordless (recs.getD i 0))).length ≤ 8
      && roleOk recs s)
    && (sts.zip (sts.drop 1)).all (fun q => q.1.lane < q.2.lane)
    && cps.all (fun c => c.prod < sts.length && c.cons < sts.length
      && (sts[c.prod]?.map (fun s => s.repl)) = (sts[c.cons]?.map (fun s => s.repl)) && canSend recs sts cps c)
    && (cps.map (fun c => (c.cons, c.val, c.high, orderBack recs sts c))).eraseDups.length = cps.length
    && (List.range p.width).all (fun r => replicaStations sts r = replicaStations sts 0
      && replicaCouplings sts cps r = replicaCouplings sts cps 0)
    && count .head = 1 && count .writeBack = 1 && count .steer = (if loop then 1 else 0)
    && recordsPlaced recs m first
    && (List.range sts.length).all (fun j =>
      portsOk recs sts cps j
        && (stationReads recs (runsAt recs sts cps j)).all (fun v =>
          ownPort recs sts cps j v.1 || (cps.any (fun c => c.cons = j && c.val = v.1 && !c.high))
            && (!v.2 || cps.any (fun c => c.cons = j && c.val = v.1 && c.high))))
    && closingOk recs m p.width sts cps loop
    && chasesOk recs m sts cps (if loop then .steer else .writeBack)
    && acyclic forward 32 (List.range sts.length)

/-- ⌈n/W⌉. -/
def channelsOf (n w : Nat) : Nat := (n + w - 1) / w

/-- A placement is one of a region for `n` lanes (R63, R64). -/
def placementOk (recs : List Word) (nrec n window nkeep spill : Nat) (p : Placement) : Bool :=
  3 ≤ nrec && bodyPlaceable recs (nrec - 2) && graphOk recs (nrec - 2) p && channelsOf n p.width ≤ 16
    && couplingsFit p.stations p.couplings (window - 2 * nkeep) spill

end Sys2Proof.Machine
end

