-- ==== Sys2Proof/Machine/Coupled.lean ====
section
/-! DEFINITION. A coupled region running (R59 to R77): tokens and couplings, one firing of a station, retirement, gating
and the discards of R71. -/

namespace Sys2Proof.Machine

/-! ## The region of a core -/

/-- The role of a station. -/
def roleIn (r : Region) (j : Nat) : Option Role := r.stations[j]?.map (fun t => t.role)
/-- The replica of a station. -/
def replIn (r : Region) (j : Nat) : Nat := ((r.stations[j]?).map (fun t => t.repl)).getD 0
/-- Channels of a replica (R63). -/
def channelCount (r : Region) (repl : Nat) : Nat := (r.lanes.length + r.width - 1 - repl) / r.width
/-- The lane of a channel (R63). -/
def channelLane (r : Region) (repl ch : Nat) : Nat := r.lanes.getD (ch * r.width + repl) 0
/-- The records of the block that a region runs. -/
def recsOf (r : Region) : List Word := (r.entry.map (fun e => e.recs)).getD []
/-- The couplings that hold tokens, by number: all but those that order goes back on (log entry 16). -/
def tokenCouplings (r : Region) : List (Nat × Coupling) :=
  (r.couplings.zipIdx.filter (fun p => !orderBack (recsOf r) r.stations p.1)).map (fun p => (p.2, p.1))
/-- The couplings into a station, by number. -/
def inputsOf (r : Region) (j : Nat) : List (Nat × Coupling) := (tokenCouplings r).filter (fun p => p.2.cons = j)
/-- The couplings out of a station, by number. -/
def outputsOf (r : Region) (j : Nat) : List (Nat × Coupling) := (tokenCouplings r).filter (fun p => p.2.prod = j)
/-- The body records that a station runs in a channel. -/
def runsIn (r : Region) (j : Nat) : List Nat := runsAt (recsOf r) r.stations r.couplings j
/-- The tokens of a coupling. -/
def queueOf (r : Region) (i : Nat) : List Token := r.queues.getD i []
/-- The region with a coupling's tokens replaced. -/
def setQueue (r : Region) (i : Nat) (q : List Token) : Region := { r with queues := setAt r.queues i q }
/-- A coupling holds four tokens (R62). -/
def couplingRoom (r : Region) (i : Nat) : Bool := (queueOf r i).length < 4
/-- A token enters a coupling. -/
def pushToken (r : Region) (i : Nat) (t : Token) : Region := setQueue r i (queueOf r i ++ [t])
/-- The head token leaves a coupling; a switch token begins a new generation (R68). -/
def popToken (r : Region) (i : Nat) : Region :=
  match queueOf r i with
  | [] => r
  | t :: q =>
    let r := setQueue r i q
    if t.kind = .switch then { r with gens := setAt r.gens i (r.gens.getD i 0 + 1) } else r

/-- The steer station of a replica. -/
def steerOf (r : Region) (repl : Nat) : Option Nat := findAt (fun t => t.role = .steer && t.repl = repl) r.stations 0

/-- A station that fires for a token of no coupling: GETS, constants, SPOP (R75). -/
def isSource (r : Region) (j : Nat) : Bool := roleIn r j ≠ some .head && (inputsOf r j) = []

/-- The current value of a channel's keep slot: as its last retired iteration left it (R67, R71). -/
def channelKeep (s : State) (c : Nat) (v : Wave) (r : Region) (lane n : Nat) : Word :=
  match r.kept.find? (fun p => p.1 = 256 * lane + n) with
  | some p => p.2
  | none => keepGet (coreOf s c) v n lane

/-- The keep slot an iteration leaves. -/
def iterKeep (s : State) (c : Nat) (v : Wave) (r : Region) (it : Iter) (n : Nat) : Word :=
  match it.keeps.find? (fun p => p.1 = n) with
  | some p => p.2
  | none => channelKeep s c v r it.lane n

/-- A half of a 64-bit value (R61). -/
def halfOf (v : Word) (high : Bool) : W32 := if high then v.extractLsb' 32 32 else v.setWidth 32

/-! ## Discarding iterations (R71) -/

/-- The coupling is one that an iteration's tokens pass before it retires. -/
def inFlight (r : Region) (c : Coupling) : Bool := roleIn r c.prod ≠ some .steer

/-- The data tokens of a coupling without those of some iterations: in head order they belong to the iterations that its
producer has processed and its consumer has not. -/
def dropTokens (gone : Iter → Bool) : List Iter → List Token → List Token
  | _, [] => []
  | its, t :: q =>
    if t.kind ≠ .data then t :: dropTokens gone its q
    else
      match its with
      | [] => t :: dropTokens gone [] q
      | it :: rest => if gone it then dropTokens gone rest q else t :: dropTokens gone rest q

/-- How far a slot of a stream lies behind the write index. -/
def slotAge (t : Stream) (i : Nat) : Nat :=
  let n := t.slots.length
  let d := (t.widx + n - i) % n
  if d = 0 && t.slots.getD i .free ≠ .free then n else d

/-- The stream after the pops of discarded iterations are undone: their slots are FULL, the read index at the oldest slot
that waits to be read (R71). -/
def rewindStream (t : Stream) (slots : List Nat) : Stream :=
  match slots with
  | [] => t
  | _ =>
    let t' := { t with slots := slots.foldl (fun q j => setAt q j .full) t.slots }
    let now := if t.slots.getD t.ridx .free = .full then slotAge t t.ridx else 0
    let first := slots.foldl (fun (m : Nat × Nat) i => if m.1 < slotAge t' i then (slotAge t' i, i) else m) (now, t.ridx)
    { t' with ridx := first.2 }

/-- The stream positions are rewound to the oldest SPOP of discarded iterations (R71). -/
def rewindPops (k : Core) (its : List Iter) : Core :=
  let pops := its.flatMap (fun it => it.pops)
  (List.range 8).foldl (fun k n =>
    match streamAt k n with
    | some t => putStream k n (some (rewindStream t ((pops.filter (fun p => p.1 = n)).map (fun p => p.2))))
    | none => k) k

/-- A reply of an iteration at a station. -/
def replyOf (it : Iter) (e : Reply) : Bool := e.repl = it.repl && e.ch = it.ch

/-- The iteration's tokens have left station `j`: it has fired for it and owes no reply. -/
def passed (r : Region) (it : Iter) (j : Nat) : Bool :=
  it.fired.contains j && !r.asked.any (fun e => e.station = j && replyOf it e)

/-- Iterations that cannot retire leave the region, with every token and request of theirs (R71). -/
def discardIters (s : State) (c : Nat) (gone : Iter → Bool) : State :=
  match regionOf s c with
  | none => s
  | some r =>
    let queues := (r.queues.zip r.couplings).map (fun p =>
      if inFlight r p.2 then
        dropTokens gone (r.iters.filter (fun it => it.repl = replIn r p.2.prod && passed r it p.2.prod && !it.fired.contains p.2.cons)) p.1
      else p.1)
    let lost := r.iters.filter gone
    let mine (e : Reply) : Bool := lost.any (fun it => replyOf it e)
    let s := setRegion s c { r with queues := queues, iters := r.iters.filter (fun it => !gone it),
                                    asked := r.asked.filter (fun e => !mine e) }
    let s := (r.asked.filter mine).foldl (fun s e => match e.id with
      | some id => dropWaiter s id
      | none => s) s
    onCore s c (fun k => rewindPops k lost)

/-- The iterations of a replica that a station has not processed, from the oldest (R66). -/
def waitingAt (r : Region) (j : Nat) : List Iter := r.iters.filter (fun it => it.repl = replIn r j && !it.fired.contains j)

/-- Discards what has not passed station `j` of its replica. -/
def discardBehind (s : State) (c j : Nat) : State :=
  match regionOf s c with
  | none => s
  | some r => discardIters s c (fun it => it.repl = replIn r j && !passed r it j)

/-! ## One body record in a channel -/

/-- What running a station's records came to. -/
inductive Ran where
  | ok (s : State) (it : Iter)
  /-- The request of the record waits on a cell: its reply comes from the commit (R73). -/
  | asks (s : State) (it : Iter) (rcd id : Nat)
  /-- An empty stream: the station waits (R75). -/
  | waits (s : State)
  /-- A locked or held line: later. -/
  | held
  | faults (s : State) (cause : BitVec 8) (rcd : Nat) (addr : Word)

/-- The meaning of a body record that computes in its channel (R60). -/
def bodyMeaning (i : Instr) (s : State) : Host.Outcome State Fault Refusal :=
  match i with
  | .iadd r => execIadd r s | .isub r => execIsub r s | .imul r => execImul r s | .imad r => execImad r s
  | .idiv r => execIdiv r s | .imin r => execImin r s | .imax r => execImax r s | .iabs r => execIabs r s
  | .and r => execAnd r s | .or r => execOr r s | .xor r => execXor r s | .andn r => execAndn r s
  | .shl r => execShl r s | .shr r => execShr r s | .fshf r => execFshf r s | .bcnt r => execBcnt r s
  | .bfx r => execBfx r s | .icmp r => execIcmp r s | .sel r => execSel r s | .lea r => execLea r s
  | .mov r => execMov r s | .fadd r => execFadd r s | .fsub r => execFsub r s | .fmul r => execFmul r s
  | .ffma r => execFfma r s | .fmin r => execFmin r s | .fmax r => execFmax r s | .fsgn r => execFsgn r s
  | .fcmp r => execFcmp r s | .fcls r => execFcls r s | .frnd r => execFrnd r s | .fscl r => execFscl r s
  | .cvt r => execCvt r s | .pack r => execPack r s | .unpk r => execUnpk r s | .dotp r => execDotp r s
  | .sfn r => execSfn r s | .gets r => execGets r s | .bysw r => execBysw r s | .feat r => execFeat r s
  | .spct r => execSpct r s | .spcc r => execSpcc r s
  | _ => .next s

/-- The stores of an iteration before a record, in body record order (R67, R76). -/
def storesBefore (it : Iter) (rcd : Nat) : List Access :=
  (List.range rcd).flatMap (fun i => it.effects.filterMap (fun e => match e with
    | .store a => if a.rcd = i then some a else none
    | .srel .. | .fence _ => none))

/-- The stores of an iteration that an access of a later record meets. -/
def metStores (it : Iter) (a : Access) : List Access := (storesBefore it a.rcd).filter (fun q => piecesMeet q.pieces a.pieces)

/-- The bytes of a load under the earlier stores of its iteration (R76). -/
def iterOverlay (it : Iter) (a : Access) (bs : List Byte) : List Byte :=
  let stores : List (Place × List Byte × Bool) := (storesBefore it a.rcd).flatMap (fun q =>
    (splitPieces q.pieces (storeBytes q)).map (fun p => (p.1, p.2, false)))
  ((splitPieces a.pieces bs).flatMap (fun p => overlayBytes stores p.1 p.2))

/-- An access of a region may not be performed now: its home holds it, an access that the wave issued before the region is
ordered before it (R114), or one of its channel waits on a cell, which is an acquire (R127). -/
def heldBack (s : State) (a : Access) : Bool :=
  let a := { a with id := s.nextAcc, grp := s.nextAcc }
  !homeReady s a || s.accs.any (fun b => (b.blk ≠ a.blk && orderedBefore b a) || (b.onCell && sameThread b a))

/-- The value of a record of the channel, held as its producer leaves it. -/
def giveValue (s : State) (k : Ctx) (rcd lane : Nat) (t : Ty) (v : Val) : State :=
  onWave s k.core k.w (fun w => { w with vals := smSet ⟨0, 0⟩ w.vals (rcd * 32 + lane) ⟨extendValue t v.lo, v.hi⟩ })

/-- The keep slot that a record leaves, where no later record of the iteration writes it (R53). -/
def leaveKeep (s : State) (it : Iter) (n : Nat) (v : Word) : Iter :=
  if keptLater s.cur.recs s.cur.rcd n then it else { it with keeps := smSet 0 it.keeps n v }

/-- The value of a memory record goes to its channel; CHASE leaves the next address in its keep slot (R74). -/
def takeReply (s : State) (k : Ctx) (it : Iter) (i : Instr) (t : Ty) (v : Val) : State × Iter :=
  let s := giveValue s k s.cur.rcd it.lane t v
  match i with
  | .chase q => (match q.a with
    | .keep n => (s, leaveKeep s it n.toNat (v.lo + opB s k q .i64 it.lane))
    | _ => (s, it))
  | _ => (s, it)

/-- A load or atomic is performed at its firing (R67), or waits on its cell. -/
def iterPerform (s : State) (k : Ctx) (it : Iter) (i : Instr) (a : Access) : Ran :=
  let a := { a with id := s.nextAcc, grp := s.nextAcc }
  let s := { s with accs := s.accs ++ [a], nextAcc := s.nextAcc + 1 }
  let r := match a.cell, a.pieces with
    | true, (.dev pa, _) :: _ => performCell s a pa
    | _, _ => performBytes s a
  match r.2 with
  | .done v _ =>
    let q := takeReply (dropWaiter r.1 a.id) k it i a.ty v
    .ok q.1 q.2
  | .waits => .asks r.1 it a.rcd a.id
  | .fails f => .faults (dropWaiter r.1 a.id) f.cause a.rcd f.addr

/-- Earlier stores of an iteration that an atomic meets are performed with it, in record order: accesses to overlapping bytes
perform in body record order (R76), and the atomic performs at its firing and as one (R67, R116; log entry 40). -/
def performMet (s : State) (it : Iter) (as : List Access) : State × Iter :=
  as.foldl (fun acc a =>
    ((performBytes acc.1 a).1, { acc.2 with effects := acc.2.effects.filter (fun e => e ≠ .store a) })) (s, it)

/-- A memory record of the channel (R73, R76): checked as in SIMT execution; a load or atomic performs now, a store at
retirement. -/
def iterAccess (s : State) (k : Ctx) (it : Iter) (i : Instr) (r : Record) (q : Req) : Ran :=
  match laneCheck s k i q with
  | .error f => .faults s f.cause s.cur.rcd f.addr
  | .ok x =>
    let a := { accessOf s k i r ([], []) 0 q x with lanes := BitVec.ofNat 32 (2 ^ it.lane) }
    let met := metStores it a
    let shaped := match x.2.1, x.1 with
      | true, (.dev pa, _) :: _ => a.size = 8 || cellTag s pa = 0
      | _, _ => true
    let m := markChecked s k.wave.part q.need x
    match q.kind with
    | .store => if shaped then .ok m { it with effects := it.effects ++ [.store a] } else .faults s causeCellShape a.rcd a.addr
    | .atom _ | .atmf _ =>
      if heldBack s a || met.any (heldBack s) then .held
      else
        let p := performMet m it met
        iterPerform p.1 k p.2 i a
    | _ =>
      if heldBack s a then .held
      else if met = [] then iterPerform m k it i a
      else if (poisonAddr s a).isSome && iterOverlay it a (List.replicate a.size 0) ≠ iterOverlay it a (List.replicate a.size 1) then
        .faults s causeIntegrity a.rcd ((poisonAddr s a).getD 0)
      else
        let m := refreshL1 m a.core a.pieces
        let bs := iterOverlay it a (a.pieces.flatMap (fun q => placeRead s q.1 q.2))
        let p := takeReply m k it i a.ty ⟨leWord (bs.take 8), leWord (bs.drop 8)⟩
        .ok p.1 p.2

/-- SPOP in a region (R75): the next filled slot, taken at its issue (R67). -/
def iterPop (s : State) (k : Ctx) (it : Iter) (r : Record) : Ran :=
  let n := streamOf r.a
  match streamAt (coreOf s k.core) n with
  | none => .faults s causeStreamUnbound s.cur.rcd (BitVec.ofNat 64 n)
  | some t =>
    match popSlot t with
    | some (t', a) =>
      let s1 := acquireL1 (onCore s k.core (fun q => putStream q n (some t'))) k.core .aq .dv
      .ok (giveValue s1 k s.cur.rcd it.lane r.ty ⟨a, 0⟩) { it with pops := it.pops ++ [(n, t.ridx)] }
    | none => .waits s

/-- SREL in a region: its slot returns at retirement (R67). -/
def iterRel (s : State) (k : Ctx) (it : Iter) (r : Record) : Ran :=
  let n := streamOf r.a
  match streamAt (coreOf s k.core) n with
  | none => .faults s causeStreamUnbound s.cur.rcd (BitVec.ofNat 64 n)
  | some _ => .ok s { it with effects := it.effects ++ [.srel s.cur.rcd n] }

/-- One body record of a station, in the channel of an iteration; `got` is the reply to a record that asked for it. -/
def runRecord (got : Option (Nat × Word)) (s : State) (it : Iter) (rcd : Nat) : Ran :=
  let s := { s with cur := { s.cur with rcd := rcd } }
  let w := s.cur.recs.getD rcd 0
  match ctxOf s, decode w with
  | some k, .ok i =>
    let l := it.lane
    if (got.map (fun g => g.1)) = some rcd then
      let p := takeReply s k it i (tyOf w) ⟨(got.map (fun g => g.2)).getD 0, 0⟩
      .ok p.1 p.2
    else
    (match i with
      | .keep r =>
        (match r.a with
          | .keep n => .ok s (leaveKeep s it n.toNat (extendValue r.ty (opB s k r r.ty l)))
          | _ => .ok s it)
      | .loop r => .ok s { it with taken := opB s k r .pred l ≠ 0 }
      | .ld r => iterAccess s k it i r (loadReq r none l (opA s k r .b64 l))
      | .st r => iterAccess s k it i r (storeReq s k r none l (opA s k r .b64 l))
      | .atom r =>
        iterAccess s k it i r ⟨l, .atom (atomOp r.c), .atomic, opA s k r .b64 l, r.ty.memBytes, orderOf r, Scope.ofFn r.fn,
          opB s k r r.ty l, opC s k r r.ty l, none⟩
      | .atmf r =>
        iterAccess s k it i r (if r.ty = .f32 || r.ty = .f64 then
            ⟨l, .atmf (constOf r.c), .atomic, opA s k r .b64 l, r.ty.memBytes, orderOf r, Scope.ofFn r.fn, opB s k r r.ty l, 0, none⟩
          else
            ⟨l, .atmf 3, .atomic, opA s k r .b64 l, 2 * r.ty.memBytes, orderOf r, Scope.ofFn r.fn, opB s k r r.ty l,
              opC s k r r.ty l, none⟩)
      | .chase r =>
        iterAccess s k it i r ⟨l, .chase 0 (opB s k r .i64 l), .load, opA s k r .b64 l, 8, .rx, .dv, 0, 0, none⟩
      | .spop r => iterPop s k it r
      | .srel r => iterRel s k it r
      | _ =>
        (match bodyMeaning i s with
          | .next t => .ok t it
          | _ => .ok s it))
  | _, _ => .ok s it

/-- The records of a station one after another. -/
def runRecords (got : Option (Nat × Word)) : State → Iter → List Nat → Ran
  | s, it, [] => .ok s it
  | s, it, r :: rest =>
    match runRecord got s it r with
    | .ok s it => runRecords got s it rest
    | x => x

/-! ## FENCE in a region (R77) -/

/-- The positions of the FENCE records of a body. -/
def fencesIn (recs : List Word) : List Nat := (List.range recs.length).filter (fun i => opOf (recs.getD i 0) = 0x44)
/-- The order of a FENCE. -/
def fenceOrder (recs : List Word) (f : Nat) : Order := (Order.ofFn (fnOf (recs.getD f 0))).getD .rx
/-- Its scope. -/
def fenceScope (recs : List Word) (f : Nat) : Scope := Scope.ofFn (fnOf (recs.getD f 0))

/-- The stations of a replica that hold a record. -/
def stationWith (r : Region) (repl rcd : Nat) : Option Nat :=
  findAt (fun t => t.repl = repl && t.recs.contains rcd) r.stations 0

/-- The accesses in flight of a channel's lane, of the coupling wave of a region. -/
def channelAccs (s : State) (c : Nat) (r : Region) (lane : Nat) : List Access :=
  s.accs.filter (fun a => a.core = c && a.wslot = r.wslot && (a.lane = lane || a.uniform))

/-- What a retired iteration of the lane does has all come about. -/
def tailClear (r : Region) (lane : Nat) : Bool := !r.tail.any (fun e => e.1 = lane)

/-- Record `i` of an iteration that touches memory may go on. A load or atomic follows every earlier memory record of its
iteration and every earlier SPOP, whose fill it acquires (R76, R126); where the body has a FENCE, the channel's earlier
iterations have done what they do at their retirement (R119), of which no store after a FENCE is in flight (R77); and where a
FENCE stands before it, no access of its channel is in flight, and a FENCE.sq has the token (R118). A store is performed at
retirement, after what R77 puts before it (R67). -/
def memoryTurn (s : State) (c : Nat) (r : Region) (it : Iter) (i : Nat) : Bool :=
  let recs := recsOf r
  let op (j : Nat) : Nat := opOf (recs.getD j 0)
  let here := stationWith r it.repl i
  let fired (j : Nat) : Bool :=
    let n := stationWith r it.repl j
    n = here || n.elim true (fun n => it.fired.contains n)
  let fences := fencesIn recs
  let before := fences.filter (fun f => f < i && !it.fenced.contains f)
  op i = 0x3F
    || ((List.range i).all (fun j => !(isMemOp (op j) || op j = 0x53) || fired j)
      && (fences = [] || (tailClear r it.lane
        && !(channelAccs s c r it.lane).any (fun a => a.kind.writes && fences.any (fun f => i ≤ f && f < a.rcd))))
      && (before = [] || channelAccs s c r it.lane = [])
      && (before.all (fun f => fenceOrder recs f ≠ .sq) || tokenFree s (c, r.wslot, r.x)))

/-- A FENCE takes effect for a channel: its acquire (R88), and at .sy the accesses to a peer that no port has acknowledged
(R349, R396), whose address it gives where there is one. -/
def fenceEffect (s : State) (c : Nat) (r : Region) (lane f : Nat) : State × Option Word :=
  let recs := recsOf r
  let o := fenceOrder recs f
  let uid := ((waveOf s c r.wslot).map (fun v => v.uid)).getD 0
  match (if Order.releases o && fenceScope recs f = .sy then lostPeer s c uid lane else none) with
  | some a => (clearLost s c uid lane, some a)
  | none => (acquireL1 s c o (fenceScope recs f), none)

/-- The FENCE records before a memory record that have not taken effect in this iteration do at its firing; the record and the
address of one that fails. -/
def fencesBefore (s : State) (c : Nat) (r : Region) (it : Iter) (i : Nat) : State × Iter × Option (Nat × Word) :=
  ((fencesIn (recsOf r)).filter (fun f => f < i && !it.fenced.contains f)).foldl (fun acc f =>
    match acc.2.2 with
    | some _ => acc
    | none =>
      let x := fenceEffect acc.1 c r it.lane f
      (x.1, { acc.2.1 with fenced := acc.2.1.fenced ++ [f] }, x.2.map (fun a => (f, a)))) (s, it, none)

/-! ## Retirement (R67) -/

/-- The iteration has been processed by every station of its replica that precedes its retirement. -/
def processed (r : Region) (it : Iter) : Bool :=
  (List.range r.stations.length).all (fun j =>
    replIn r j ≠ it.repl || passed r it j || (roleIn r j = some .writeBack && (steerOf r it.repl).isSome))

/-- The couplings on which a steer sends at the retirement of an iteration: to the head when taken, else to write-back. -/
def steerSends (r : Region) (it : Iter) : List (Nat × Coupling) :=
  match steerOf r it.repl with
  | none => []
  | some j => (outputsOf r j).filter (fun p => (roleIn r p.2.cons = some .head) == it.taken)

/-- What an iteration does at its retirement, in body record order: stores and returned slots, and the FENCE records that no
access of the iteration has waited for (R67, R76, R77). -/
def retirements (recs : List Word) (it : Iter) : List IterEffect :=
  (List.range 128).flatMap (fun i =>
    it.effects.filter (fun e => match e with
      | .store a => a.rcd = i
      | .srel rcd _ => rcd = i
      | .fence _ => false)
    ++ (if (fencesIn recs).contains i && !it.fenced.contains i then [.fence i] else []))

/-- A slot of a stream returns. -/
def giveBack (s : State) (c n : Nat) : State :=
  onCore s c (fun k => match streamAt k n with
    | some t => putStream k n (some (releaseSlot t))
    | none => k)

/-- What a retired iteration does next can come about: a returned slot and a FENCE follow the accesses in flight before them,
since SREL is a release at .dv of the wave's accesses (R77, R119, R126). -/
def tailReady (s : State) (c : Nat) (r : Region) (lane : Nat) : IterEffect → Bool
  | .store _ => true
  | .srel .. => !s.accs.any (fun a => a.core = c && a.wslot = r.wslot && !a.onCell)
  | .fence f => channelAccs s c r lane = [] && (fenceOrder (recsOf r) f ≠ .sq || tokenFree s (c, r.wslot, r.x))

/-- It comes about: a store takes its place among the accesses in flight. -/
def tailRun (s : State) (c : Nat) (r : Region) (lane : Nat) : IterEffect → State
  | .store a => { s with accs := s.accs ++ [{ a with id := s.nextAcc }], nextAcc := s.nextAcc + 1 }
  | .srel _ n => giveBack s c n
  | .fence f =>
    let x := fenceEffect s c r lane f
    match x.2 with
    | none => x.1
    | some a => faultRegion x.1 c causeIntegrity f lane a

/-- What retired iterations do comes about as far as it can, for each lane in order; what is left. -/
def tailWalk (s : State) (c : Nat) (r : Region) (blocked : List Nat) : List (Nat × IterEffect) → State × List (Nat × IterEffect)
  | [] => (s, [])
  | (l, e) :: rest =>
    if !blocked.contains l && tailReady s c r l e then tailWalk (tailRun s c r l e) c r blocked rest
    else
      let q := tailWalk s c r (l :: blocked) rest
      (q.1, (l, e) :: q.2)

/-- What retired iterations do comes about as far as it can. -/
def drainTail (s : State) (c : Nat) : State :=
  match regionOf s c with
  | none => s
  | some r =>
    let q := tailWalk s c r [] r.tail
    match regionOf q.1 c with
    | none => q.1
    | some r => setRegion q.1 c { r with tail := q.2 }

/-- Retires one iteration: what it does at its retirement stands in the tail (R67). -/
def retireIter (s : State) (c : Nat) (v : Wave) (r : Region) (it : Iter) (does : List IterEffect) : State :=
  let sends := steerSends r it
  let val (p : Nat × Coupling) : W32 := match p.2.val with
    | .keep n => halfOf (iterKeep s c v r it n) p.2.high
    | _ => 0
  let r1 := sends.foldl (fun q p => pushToken q p.1 ⟨.data, it.ch, val p, false⟩) r
  let full := r.kept.filter (fun p => !it.keeps.any (fun q => 256 * it.lane + q.1 = p.1))
    ++ it.keeps.map (fun p => (256 * it.lane + p.1, p.2))
  let grp := s.nextAcc
  let own := does.map (fun e => match e with
    | .store a => (it.lane, IterEffect.store { a with grp := grp })
    | e => (it.lane, e))
  let r1 := { r1 with iters := r1.iters.filter (fun q => !(q.repl = it.repl && q.ch = it.ch)),
                      kept := full, tail := r1.tail ++ own,
                      finished := if it.taken then r1.finished else r1.finished ||| BitVec.ofNat 32 (2 ^ it.lane) }
  let s := setRegion { s with nextAcc := grp + 1 } c r1
  let s := if it.taken then s
    else (full.filter (fun p => p.1 / 256 = it.lane)).foldl (fun s p => writeKeep s c r.wslot r.x (p.1 % 256) [(it.lane, p.2)]) s
  drainTail s c

/-- The stores of an iteration. -/
def storesOf (does : List IterEffect) : List Access :=
  does.filterMap (fun e => match e with
    | .store a => some a
    | .srel .. | .fence _ => none)

/-- A store to a cell page may find a tag that fails it until it is performed (R136). An iteration with one performs all its
stores as it retires, so that it retires only where none fails (R67): it waits until each of them can be, and nothing of its
channel is before them. -/
def cellStoresReady (s : State) (c : Nat) (r : Region) (it : Iter) (does : List IterEffect) : Bool :=
  tailClear r it.lane && channelAccs s c r it.lane = []
    && (storesOf does).all (fun a => homeReady s { a with id := s.nextAcc, grp := s.nextAcc })
    && does.all (fun e => match e with
      | .fence f => fenceOrder (recsOf r) f ≠ .sq || tokenFree s (c, r.wslot, r.x)
      | .store _ | .srel .. => true)

/-- The first store of an iteration that fails. -/
def failedStore (s : State) (as : List Access) : Option (Access × Fail) :=
  as.findSome? (fun a => match (performAccess s a .clean).2 with
    | .fails f => some (a, f)
    | _ => none)

/-- Performs the stores of a retiring iteration. -/
def performStores (s : State) (as : List Access) : State := as.foldl (fun s a => (performAccess s a .clean).1) s

/-- Retires an iteration where it can: every station has processed it and its tokens have room. -/
def tryRetire (s : State) (c repl ch : Nat) : State :=
  match regionOf s c with
  | none => s
  | some r =>
    match waveOf s c r.wslot, r.iters.find? (fun it => it.repl = repl && it.ch = ch) with
    | some v, some it =>
      let does := retirements (recsOf r) it
      if !processed r it || !(steerSends r it).all (fun p => couplingRoom r p.1) then s
      else if !(storesOf does).any (fun a => a.cell) then retireIter s c v r it does
      else if !cellStoresReady s c r it does then s
      else
        match failedStore s (storesOf does) with
        | some (a, f) =>
          discardIters (faultRegion (performAccess s a .clean).1 c f.cause a.rcd a.lane f.addr) c (fun q => q.repl = repl && q.ch = ch)
        | none =>
          retireIter (performStores s (storesOf does)) c v r it (does.filter (fun e => match e with
            | .store _ => false
            | .srel .. | .fence _ => true))
    | _, _ => s

/-- Retires what can retire, oldest first in each replica. -/
def retireAll (s : State) (c : Nat) : State :=
  match regionOf s c with
  | none => s
  | some r => r.iters.foldl (fun s it => tryRetire s c it.repl it.ch) s

/-- The sources of the region are closed (R69): it is gated, or drains after that. -/
def sourcesClosed (r : Region) : Bool := r.gate ≠ .none && (r.st = .gated || r.switched ≠ [])

/-- The write-back stations of a region. -/
def writeBacks (r : Region) : List Nat := (List.range r.stations.length).filter (fun j => roleIn r j = some .writeBack)

/-- Every channel has finished (R70). -/
def allFinished (r : Region) : Bool := r.lanes.all (fun l => r.finished.getLsbD l)

/-- Each steer that has not sends its end token to write-back; without a steer the write-back station ends by itself (R70). -/
def sendEnds (r : Region) : Region :=
  (List.range r.stations.length).foldl (fun r j =>
    if r.ended.contains j then r
    else
      match roleIn r j with
      | some .steer =>
        (match (outputsOf r j).find? (fun p => roleIn r p.2.cons = some .writeBack) with
          | some p => if couplingRoom r p.1 then { pushToken r p.1 ⟨.tend, 0, 0, false⟩ with ended := r.ended ++ [j] } else r
          | none => r)
      | some .writeBack => if (steerOf r (replIn r j)).isNone then { r with ended := r.ended ++ [j] } else r
      | _ => r) r

/-- The state changes of R70 that follow a firing. -/
def settleRegion (s : State) (c : Nat) : State :=
  let s := retireAll (drainTail s c) c
  match regionOf s c with
  | none => s
  | some r =>
    let r := if r.st = .running && allFinished r then { r with st := .draining } else r
    let r := if r.st = .gated && (writeBacks r).all (fun j => r.switched.contains j) then { r with st := .draining } else r
    let r := if r.st = .draining && !sourcesClosed r then sendEnds r else r
    setRegion s c r

/-! ## A firing (R59, R66, R68) -/

/-- What an attempt to fire a station comes to. -/
inductive Firing where
  | fired (s : State)
  | waitInput
  | waitOutput
  /-- It waits on memory or a stream; the state may have changed (a cell was woken). -/
  | waitMemory (s : State)
  | idle
  | done
  /-- Its input heads carry different tags (R66): the coupling that differs. -/
  | tagged (dcp : Nat)

/-- A station passes on the switch tokens: one on each output (R68, R69). -/
def passSwitch (r : Region) (j : Nat) : Region :=
  let r := (outputsOf r j).foldl (fun q p => pushToken q p.1 ⟨.switch, 0, 0, false⟩) r
  { r with switched := r.switched ++ [j] }

/-- Counts a firing. -/
def countFiring (r : Region) (j cyc : Nat) : Region :=
  { r with fired := setAt r.fired j (r.fired.getD j 0 + 1), moved := cyc }

/-- Marks an iteration as processed by a station and takes over what its records left. -/
def markFired (r : Region) (j : Nat) (old new : Iter) : Region :=
  { r with iters := r.iters.map (fun it => if it = old then { new with fired := old.fired ++ [j] } else it) }

/-- The issue that runs a body record in a channel. A keep slot reads as the channel's tokens give it (R53), and so not as the
SIMT reading of a block puts it aside. -/
def channelIssue (c : Nat) (v : Wave) (r : Region) (lane : Nat) : Issue :=
  let e := r.entry
  { who := .slot c r.wslot r.x, lanes := BitVec.ofNat 32 (2 ^ lane), blk := (e.map (fun e => e.blk)).getD 0, rcd := 0,
    nrec := (e.map (fun e => e.nrec)).getD 0, kind := 0, recs := recsOf r,
    lits := (e.map (fun e => e.lits)).getD [], form := ⟨.value, v.winBase, none⟩, next := none, ends := [], walk := none,
    ops := none, replay := true, defer := false }

/-- The token values of a station's inputs, as the records and keep slots they carry. A chase station whose keep slot no
coupling brings takes the address from its own port (R74). -/
def loadInputs (s : State) (c : Nat) (v : Wave) (r : Region) (j : Nat) (it : Iter)
    (ins : List (Coupling × W32)) : State :=
  let half (w : Carried) (high : Bool) : Option W32 :=
    (ins.find? (fun p => p.1.val = w && p.1.high = high)).map (fun p => p.2)
  let s := (ins.filter (fun p => !p.1.high)).foldl (fun s p =>
    let w : Word := match half p.1.val true with
      | some hi => (hi ++ p.2 : BitVec 64)
      | none => p.2.setWidth 64
    match p.1.val with
    | .record i =>
      let t := resTy (opOf ((recsOf r).getD i 0)) (tyOf ((recsOf r).getD i 0))
      onWave s c r.wslot (fun q => { q with vals := smSet ⟨0, 0⟩ q.vals (i * 32 + it.lane) ⟨extendValue t w, 0⟩ })
    | .keep n => writeKeep s c r.wslot r.x n [(it.lane, w)]
    | .order => s) s
  (runsIn r j).foldl (fun s i =>
    match writesKeep ((recsOf r).getD i 0) with
    | some n => if ownPort (recsOf r) r.stations r.couplings j (.keep n) then
        writeKeep s c r.wslot r.x n [(it.lane, channelKeep s c v r it.lane n)] else s
    | none => s) s

/-- The value a station sends on an output after its records have run. -/
def outputValue (s : State) (c : Nat) (r : Region) (it : Iter) (ins : List (Coupling × W32)) (p : Coupling) : W32 :=
  match waveOf s c r.wslot with
  | none => 0
  | some v =>
    match p.val with
    | .record i => halfOf (recordValue v i it.lane).lo p.high
    | .keep n =>
      (match ins.find? (fun q => q.1.val = p.val && q.1.high = p.high) with
        | some q => if it.keeps.any (fun x => x.1 = n) then halfOf (smGet 0 it.keeps n) p.high else q.2
        | none => halfOf (smGet 0 it.keeps n) p.high)
    | .order => 0

/-- The registers and values of the wave as they were before a station's records ran in them. -/
def restoreWave (s0 s : State) (c w : Nat) : State :=
  let s := onCore s c (fun k => { k with regs := (coreOf s0 c).regs, regPoison := (coreOf s0 c).regPoison })
  match waveOf s0 c w with
  | some v0 => { onWave s c w (fun v => { v with vals := v0.vals }) with cur := s0.cur }
  | none => { s with cur := s0.cur }

/-- The memory records that a station runs. -/
def memoryRuns (r : Region) (j : Nat) : List Nat := (runsIn r j).filter (fun i => isMemOp (opOf ((recsOf r).getD i 0)))

/-- The outputs on which a station's firing sends: a steer sends at retirement. -/
def sendsOf (r : Region) (j : Nat) : List (Nat × Coupling) := if roleIn r j = some .steer then [] else outputsOf r j

/-- The records of a station in the channel of an iteration, on the values of its inputs, after the FENCE records before what
it accesses. -/
def runStation (s : State) (c j : Nat) (r : Region) (v : Wave) (it : Iter) (vals : List W32) (got : Option (Nat × Word)) : Ran :=
  let t := { s with cur := channelIssue c v r it.lane }
  let t := loadInputs t c v r j it (((inputsOf r j).map (fun p => p.2)).zip vals)
  let q := (memoryRuns r j).foldl (fun (acc : State × Iter × Option (Nat × Word)) i =>
    if acc.2.2.isSome || got.isSome || opOf ((recsOf r).getD i 0) = 0x3F then acc else fencesBefore acc.1 c r acc.2.1 i) (t, it, none)
  match q.2.2 with
  | some (f, a) => .faults q.1 causeIntegrity f a
  | none => runRecords got q.1 q.2.1 (runsIn r j)

/-- What a station sends after its records have run. -/
def tokensOut (t : State) (c j : Nat) (r : Region) (it : Iter) (vals : List W32) : List (Nat × W32) :=
  (sendsOf r j).map (fun p => (p.1, outputValue t c r it (((inputsOf r j).map (fun p => p.2)).zip vals) p.2))

/-- Tokens enter their couplings. -/
def sendTokens (r : Region) (ch : Nat) (vs : List (Nat × W32)) : Region :=
  vs.foldl (fun q p => pushToken q p.1 ⟨.data, ch, p.2, false⟩) r

/-- A record of a station fails: the region is gated, and what is behind the station discarded (R71). -/
def stationFaults (s : State) (c j lane : Nat) (cause : BitVec 8) (rcd : Nat) (addr : Word) : State :=
  settleRegion (discardBehind (faultRegion s c cause rcd lane addr) c j) c

/-- The outputs of a station have a free place, the tokens of the replies it owes counted among those they hold (R59). A chase
station keeps up to 16 requests in flight (R74), and so needs a free place now (DEDUCED, log entry 16). -/
def outputRoom (r : Region) (j : Nat) : Bool :=
  let owed := if roleIn r j = some .chase then 0 else (r.asked.filter (fun e => e.station = j)).length
  (sendsOf r j).all (fun p => (queueOf r p.1).length + owed < 4)

/-- The record of a station that reads a damaged value: a token, or a uniform slot (R394, R396). -/
def damagedRecord (v : Wave) (r : Region) (j : Nat) : Option Nat :=
  let recs := recsOf r
  let bad := ((inputsOf r j).filter (fun p => (queueOf r p.1).head?.any (fun t => t.dam))).map (fun p => p.2.val)
  let reads (i : Nat) : Bool :=
    (stationReads recs [i]).any (fun q => bad.contains q.1)
      || (v.uniPoison ≠ [] && (readPositions (opOf (recs.getD i 0))).any (fun p => match opndOf (recs.getD i 0) p with
        | .unif n => v.uniPoison.any (fun u => u / 2 = n.toNat)
        | _ => false))
  match (runsIn r j).find? reads with
  | some i => some i
  | none => if bad = [] then none else some ((runsIn r j).headD 0)

/-- Special-function words that a firing of a station issues (R354). -/
def sfnWords (r : Region) (j : Nat) : Nat := ((runsIn r j).filter (fun i => opOf ((recsOf r).getD i 0) = 0x25)).length

/-- The rate limiter admits `n` special-function and row words in this window (R354). -/
def rowsAdmit (k : Core) (n : Nat) : Bool :=
  let lim := k.kcRlim.toNat / 2 ^ 16 % 2 ^ 16
  n = 0 || lim = 0 || k.rlSf + n ≤ max 32 lim

/-- The station's firing for an iteration. What its reply has to wait behind, or for, stands in `asked` (R66, R73, R74). -/
def fireFor (s : State) (c j : Nat) (r : Region) (v : Wave) (it : Iter) : Firing :=
  let ins := inputsOf r j
  let behind := r.asked.filter (fun e => e.station = j)
  if !outputRoom r j then .waitOutput
  else if !rowsAdmit (coreOf s c) (sfnWords r j) then .idle
  else if 16 ≤ behind.length || !(memoryRuns r j).all (fun i => memoryTurn s c r it i) then .waitMemory s
  else
    match damagedRecord v r j with
    | some i => .fired (stationFaults s c j it.lane causeIntegrity i 0)
    | none =>
    let vals := ins.map (fun p => ((queueOf r p.1).head?.map (fun t => t.value)).getD 0)
    let done (t : State) : State := onCore (restoreWave s t c r.wslot) c (fun k => { k with rlSf := k.rlSf + sfnWords r j })
    let taken (new : Iter) : Region := markFired (countFiring ((ins.map (fun p => p.1)).foldl popToken r) j (coreOf s c).cycle) j it new
    match runStation s c j r v it vals none with
    | .held => .waitMemory s
    | .waits t =>
      -- A gated region does not wait for a stream (R71, R371).
      let t := restoreWave s t c r.wslot
      if r.st = .running then .waitMemory t else .fired (settleRegion (discardBehind t c j) c)
    | .asks t new rcd id =>
      let r1 := taken new
      .fired (settleRegion (setRegion (done t) c
        { r1 with asked := r1.asked ++ [⟨j, it.repl, it.ch, vals, some id, rcd, none, none⟩] }) c)
    | .faults t cause rcd addr => .fired (stationFaults (done t) c j it.lane cause rcd addr)
    | .ok t new =>
      let vs := tokensOut t c j r new vals
      let r1 := taken new
      let r1 := if behind = [] then sendTokens r1 it.ch vs
        else { r1 with asked := r1.asked ++ [⟨j, it.repl, it.ch, vals, none, 0, none, some vs⟩] }
      .fired (settleRegion (setRegion (done t) c r1) c)

/-- The region with its oldest reply of a station changed. -/
def setReply (r : Region) (old : Reply) (new : Option Reply) : Region :=
  { r with asked := r.asked.flatMap (fun e => if e = old then new.toList else [e]) }

/-- A station that owes replies sends the oldest on, once it is there (R66, R73); none where it still waits. A gated region
does not wait for a cell (R71, R371). -/
def passReply (s : State) (c j : Nat) (r : Region) (v : Wave) (e : Reply) : Option Firing :=
  match e.vals, e.got, r.iters.find? (fun it => replyOf it e) with
  | some vs, _, _ =>
    some (if vs.all (fun p => couplingRoom r p.1) then
      .fired (settleRegion (setRegion s c { sendTokens (setReply r e none) e.ch vs with moved := (coreOf s c).cycle }) c)
    else .waitOutput)
  | none, some x, some it =>
    some (match runStation s c j r v it e.ins (some (e.rcd, x)) with
      | .ok t new =>
        let r1 := setReply r e (some { e with vals := some (tokensOut t c j r new e.ins) })
        let r1 := { r1 with iters := r1.iters.map (fun q => if q = it then new else q) }
        .fired (settleRegion (setRegion (restoreWave s t c r.wslot) c r1) c)
      | .faults t cause rcd addr => .fired (stationFaults (restoreWave s t c r.wslot) c j it.lane cause rcd addr)
      | _ => .waitInput)
  | _, _, _ => if r.st = .running then none else some (.fired (settleRegion (discardBehind s c j) c))

/-- The input that tags are compared with (R372): data input 0; where no coupling enters there, the first. -/
def firstInput (r : Region) (j : Nat) : Option (Nat × Coupling) :=
  match (inputsOf r j).find? (fun p => p.2.port = 0 && !p.2.high) with
  | some p => some p
  | none => (inputsOf r j).head?

/-- The channel at the head of that input. -/
def headTag (r : Region) (j : Nat) : Option Nat := (firstInput r j).bind (fun p => (queueOf r p.1).head?.map (fun t => t.ch))

/-- The keep slot whose value a head sends: named, or moved on by a MOV that needs no word (R60). -/
def headSlot (r : Region) (c : Carried) : Option (Nat × Ty) :=
  match c with
  | .keep n => some (n, .b64)
  | .record i =>
    let w := (recsOf r).getD i 0
    (match opndOf w 0 with
      | .keep n => some (n.toNat, tyOf w)
      | _ => none)
  | .order => none

/-- A token of the head: the channel's keep slot as its last iteration left it, damaged where the feedback token or the
register is (R66, R395). -/
def headToken (s : State) (c : Nat) (v : Wave) (r : Region) (j lane ch : Nat) (feedback : Bool) (p : Coupling) : Token :=
  match headSlot r p.val with
  | none => ⟨.data, ch, 0, false⟩
  | some (n, t) =>
    let back := (inputsOf r j).find? (fun q => feedback && q.2.val = .keep n && q.2.high = p.high)
    let dam := match back with
      | some q => (queueOf r q.1).head?.any (fun t => t.dam)
      | none => !r.kept.any (fun q => q.1 = 256 * lane + n)
          && (coreOf s c).regPoison.contains (regKey (keepReg v n + (if p.high then 1 else 0)) lane)
    ⟨.data, ch, halfOf (extendValue t (channelKeep s c v r lane n)) p.high, dam⟩

/-- The head injects an iteration of a channel: the first of its lane, or the one its feedback tokens begin (R66). -/
def injectIter (s : State) (c j : Nat) (r : Region) (v : Wave) (ch : Nat) (feedback : Bool) : Firing :=
  let repl := replIn r j
  let lane := channelLane r repl ch
  let outs := outputsOf r j
  if !outs.all (fun p => couplingRoom r p.1) then .waitOutput
  else
    let toks := outs.map (fun p => (p.1, headToken s c v r j lane ch feedback p.2))
    let r := if feedback then ((inputsOf r j).map (fun p => p.1)).foldl popToken r
      else { r with injected := setAt r.injected repl (r.injected.getD repl 0 + 1) }
    let r := toks.foldl (fun q p => pushToken q p.1 p.2) r
    let r := countFiring { r with iters := r.iters ++ [⟨repl, ch, lane, [j], [], [], false, [], []⟩] } j (coreOf s c).cycle
    .fired (settleRegion (setRegion s c r) c)

/-- A token whose KIND is never formed (R61): the station consumes it and raises INTEGRITY, which names its lowest record and
the token's channel. -/
def badToken (s : State) (c j : Nat) (r : Region) : Firing :=
  let bad := (inputsOf r j).filter (fun p => (queueOf r p.1).head?.any (fun t => t.kind = .bad))
  let ch := (bad.head?.bind (fun p => (queueOf r p.1).head?)).elim 0 (fun t => t.ch)
  let r1 := (bad.map (fun p => p.1)).foldl popToken { r with moved := (coreOf s c).cycle }
  .fired (stationFaults (setRegion s c r1) c j (channelLane r (replIn r j) ch) causeIntegrity
    ((((r.stations[j]?).map (fun t => t.recs)).getD []).headD 0) 0)

/-- A damaged final value reaches its keep slot damaged (R395). -/
def markKeeps (s : State) (c : Nat) (v : Wave) (r : Region) (j lane : Nat) : State :=
  (inputsOf r j).foldl (fun s p =>
    match p.2.val with
    | .keep n => if (queueOf r p.1).head?.any (fun t => t.dam) then
        onCore s c (fun k => { k with regPoison := k.regPoison ++ [regKey (keepReg v n + (if p.2.high then 1 else 0)) lane] }) else s
    | _ => s) s

/-- The head station (R66, R69). -/
def fireHead (s : State) (c j : Nat) (r : Region) (v : Wave) : Firing :=
  let ins := inputsOf r j
  let heads := ins.map (fun p => (queueOf r p.1).head?)
  let ch := (headTag r j).getD 0
  if heads.any (fun h => h.any (fun t => t.kind = .bad)) then badToken s c j r
  else if r.st = .running then
    if ins ≠ [] && heads.all (fun t => t.isSome) then
      match ins.find? (fun p => (queueOf r p.1).head?.map (fun t => t.ch) ≠ some ch) with
      | some p => .tagged p.1
      | none => injectIter s c j r v ch true
    else if heads.any (fun t => t.isSome) then .waitInput
    else if r.injected.getD (replIn r j) 0 < channelCount r (replIn r j) then
      injectIter s c j r v (r.injected.getD (replIn r j) 0) false
    else .idle
  else if !sourcesClosed r then .idle
  else if !r.switched.contains j then
    if !(outputsOf r j).all (fun p => couplingRoom r p.1) then .waitOutput
    else .fired (settleRegion (setRegion s c (passSwitch { r with moved := (coreOf s c).cycle } j)) c)
  else if heads.any (fun t => t.isSome) then
    .fired (settleRegion (setRegion s c ((ins.map (fun p => p.1)).foldl popToken { r with moved := (coreOf s c).cycle })) c)
  else .done

/-- A station without inputs (R69, R75): it fires once for each iteration, and closes when the region is gated. -/
def fireSource (s : State) (c j : Nat) (r : Region) (v : Wave) : Firing :=
  match waitingAt r j with
  | it :: _ => fireFor s c j r v it
  | [] =>
    if !sourcesClosed r || r.switched.contains j then .idle
    else if !(outputsOf r j).all (fun p => couplingRoom r p.1) then .waitOutput
    else .fired (settleRegion (setRegion s c (passSwitch { r with moved := (coreOf s c).cycle } j)) c)

/-- A station with inputs (R68). -/
def fireInner (s : State) (c j : Nat) (r : Region) (v : Wave) : Firing :=
  let ins := inputsOf r j
  let heads := ins.filterMap (fun p => (queueOf r p.1).head?)
  let cyc := (coreOf s c).cycle
  let wb := roleIn r j = some .writeBack && (steerOf r (replIn r j)).isSome
  if heads.any (fun t => t.kind = .bad) then badToken s c j r
  else if heads.any (fun t => t.kind = .tend) then
    let r1 := ins.foldl (fun q p => if (queueOf q p.1).head?.map (fun t => t.kind) = some .tend then popToken q p.1 else q) r
    .fired (settleRegion (setRegion s c { r1 with ended := r1.ended ++ [j], moved := cyc }) c)
  else if heads = [] then .idle
  else if heads.length < ins.length then .waitInput
  else if heads.all (fun t => t.kind = .switch) then
    if !(outputsOf r j).all (fun p => couplingRoom r p.1) then .waitOutput
    else
      let r1 := (ins.map (fun p => p.1)).foldl popToken { r with moved := cyc }
      .fired (settleRegion (setRegion s c (passSwitch r1 j)) c)
  else if !heads.all (fun t => t.kind = .data) then .waitInput
  else
    let ch := (headTag r j).getD 0
    match ins.find? (fun p => (queueOf r p.1).head?.map (fun t => t.ch) ≠ some ch) with
    | some p => .tagged p.1
    | none =>
      if wb then
        let r1 := (ins.map (fun p => p.1)).foldl popToken r
        .fired (settleRegion (setRegion (markKeeps s c v r j (channelLane r (replIn r j) ch)) c (countFiring r1 j cyc)) c)
      else
        match waitingAt r j with
        | it :: _ => fireFor s c j r v it
        | [] => .waitInput

/-- An attempt to fire station `j` of a core's region. -/
def tryFire (s : State) (c j : Nat) : Firing :=
  match regionOf s c with
  | none => .idle
  | some r =>
    match waveOf s c r.wslot with
    | none => .idle
    | some v =>
      if r.stations.length ≤ j || !(r.st = .running || r.st = .gated || r.st = .draining) then .idle
      else if r.ended.contains j && roleIn r j ≠ some .steer then .done
      else
        let go := if roleIn r j = some .head then fireHead s c j r v
          else if isSource r j then fireSource s c j r v
          else fireInner s c j r v
        match r.asked.find? (fun e => e.station = j) with
        | none => go
        | some e =>
          match passReply s c j r v e with
          | some f => f
          | none => (match go with
            | .fired t => .fired t
            | .tagged d => .tagged d
            | _ => .waitMemory s)

/-- The station would fire now, or answer a tag that differs. -/
def canFire (s : State) (c j : Nat) : Bool :=
  match tryFire s c j with
  | .fired _ | .tagged _ => true
  | _ => false

/-- The station waits on a memory reply or an empty stream (R371). -/
def waitsMemory (s : State) (c j : Nat) : Bool :=
  match tryFire s c j with
  | .waitMemory _ => true
  | _ => false

end Sys2Proof.Machine
end

