-- ==== Sys2Proof/Machine/Region.lean ====
section
/-! DEFINITION. COUPLE and UNCPL (R55, R70, R373), the states of a region (R70), the quantum (R72), and the freeze
(R370 to R373). -/

namespace Sys2Proof.Machine

/-! ## Parking (R57, R58) -/

/-- Parks or unparks every wave of a core but one. -/
def setParked (k : Core) (w : Nat) (b : Bool) : Core :=
  { k with waves := k.waves.map (fun p => (p.1, p.2.map (fun v => if p.1 = w then v else { v with parked := b }))) }

/-- The region leaves the core, and the parked waves return (R58). -/
def dropRegion (s : State) (c : Nat) : State :=
  onCore s c (fun k => { setParked k 16 false with region := none })

/-- A slot runs a region that failed placement as its SIMT reading, past its COUPLE: its core takes no other region
(R56). -/
def readsSimt (t : Slot) : Bool := t.simt && t.rcd ≠ 0 && t.st ≠ .empty

/-- Another slot of the core keeps a COUPLE from issuing (R56). -/
def coupleHeld (k : Core) (w x : Nat) : Bool :=
  (match k.region with
    | some r => !(r.wslot = w && r.x = x)
    | none => false)
  || (wavesOf k).any (fun p => [0, 1].any (fun y => !(p.1 = w && y = x) && readsSimt (slotOf p.2 y)))

/-! ## The pair of a COUPLE (R64, R191) -/

/-- The key of a placed pair: the region's address, W, ⌈n/W⌉ (R191). -/
def pairKey (s : State) (c : Nat) (v : Wave) (t : Slot) (width n : Nat) : SKey :=
  { slotKey s c v t.blk t.baddr with simtr := false, nch := channelsOf n width - 1, vwl := Nat.log2 width }

/-- The block of the module that has width W of a region: the region itself, or its variant (R64, R178). -/
def variantOf (v : Wave) (b width : Nat) : Option Nat :=
  if width = 1 then some b
  else findAt (fun i => i.kind = 2 && i.vwidth = width && i.vof = b) v.table 0

/-- The widths that a region and `n` lanes may be placed in, widest first (R64). That the stations of a replica fit too is
for the placement, which the engine chooses. -/
def pairWidths (v : Wave) (b n : Nat) : List Nat :=
  [8, 4, 2, 1].filter (fun w => (variantOf v b w).isSome && decide (channelsOf n w ≤ 16))

/-- The entry of a pair of the region and `n` lanes. -/
def pairFound (s : State) (c : Nat) (v : Wave) (t : Slot) (n width : Nat) : Option SEntry :=
  (dieOf s (coreDie c)).sinter.find? (fun e => e.key = pairKey s c v t width n)

/-- What is known of a region's placement for `n` lanes. -/
inductive Known where
  /-- Every pair has failed, or no width is left (R64). -/
  | none
  /-- The widest pair that has not failed has no entry. -/
  | ask
  | placed (e : SEntry) (p : Placement)
  deriving DecidableEq, Repr

/-- The pairs, widest first: the first that has not failed (R64, R191). -/
def knownPlacement (s : State) (c : Nat) (v : Wave) (t : Slot) (n : Nat) : List Nat → Known
  | [] => .none
  | w :: ws =>
    match pairFound s c v t n w with
    | none => .ask
    | some e =>
      match e.failed, e.placement with
      | false, some p => .placed e p
      | _, _ => knownPlacement s c v t n ws

/-- The region of a slot with a placement, before any firing. -/
def newRegion (w x : Nat) (t : Slot) (e : SEntry) (p : Placement) : Region :=
  { wslot := w, x := x, st := .parking, gate := .none, entry := some e, width := p.width, stations := p.stations,
    couplings := p.couplings, queues := p.couplings.map (fun _ => []), gens := p.couplings.map (fun _ => 0), ended := [],
    switched := [], fired := p.stations.map (fun _ => 0), firedNow := [], asked := [], iters := [], tail := [],
    lanes := lanesOf t.mask, injected := List.replicate p.width 0, finished := 0, kept := [], since := 0, moved := 0 }

/-- A slot whose region is being placed, since a local cycle (R19). -/
def placingRegion (w x : Nat) (t : Slot) (cyc : Nat) : Region :=
  { wslot := w, x := x, st := .placing, gate := .none, entry := none, width := 1, stations := [], couplings := [],
    queues := [], gens := [], ended := [], switched := [], fired := [], firedNow := [], asked := [], iters := [], tail := [],
    lanes := lanesOf t.mask, injected := [], finished := 0, kept := [], since := cyc, moved := cyc }

/-- A placement is there: parking starts (R57). -/
def startParking (s : State) (c w x : Nat) (t : Slot) (e : SEntry) (p : Placement) : State :=
  let s := slotWaits s c w x .stalled .region
  onCore s c (fun k => { setParked k w true with region := some (newRegion w x t e p) })

/-- The slot runs the region as its SIMT reading from record 1; `holds` keeps the core from another region (R56). -/
def readSimt (s : State) (k : Ctx) (holds : Bool) : State :=
  advance (onSlotOf s k.core k.w k.x (fun t => { t with simt := holds })) k

/-- The divergence area holds a path entry. -/
def holdsPath (v : Wave) : Bool :=
  v.div.any (fun e => match e with
    | .path .. => true
    | .join .. => false)

/-- What the registers of a wave's window below its keep slots hold after a region is not defined (R54): free values, one for
each register and lane. -/
def forgetWindow (s : State) (c w : Nat) : State :=
  match waveOf s c w with
  | none => s
  | some v =>
    let cells := (List.range (v.window - 2 * v.nkeep)).flatMap (fun i => (List.range 32).map (fun l => (i, l)))
    let ws := cells.map (fun q => (regKey (v.winBase + q.1) q.2, (Config.staleValue (s.freeCtr + 32 * q.1 + q.2)).setWidth 32))
    { onCore s c (fun k => { k with regs := smSetAll 0 k.regs ws }) with freeCtr := s.freeCtr + 32 * v.window }

/-- The slot leaves its region: the held lanes are back, and it stands at the record after UNCPL (R70, R71, R373). -/
def leaveRegion (s : State) (c w x : Nat) : State :=
  let cyc := (coreOf s c).cycle
  onWave (forgetWindow s c w) c w (fun v =>
    let v := putSlot v x { slotOf v x with mask := (slotOf v x).mask ||| (slotOf v x).held, held := 0, simt := false, cpl := false }
    let v := leaveBlock v x
    putSlot v x { slotOf v x with ready := cyc })

/-- COUPLE where no held lanes alone stand (R55, R56). -/
def coupleWork (s : State) (k : Ctx) : State :=
  if coupleHeld (coreOf s k.core) k.w k.x then slotWaits s k.core k.w k.x .stalled .couple
  else
  let s := onSlotOf s k.core k.w k.x (fun t => { t with cpl := false })
  if (slotOf k.wave (1 - k.x)).st ≠ .empty || holdsPath k.wave
      || pcComparatorOn (coreOf s k.core) k.wave.modl k.w k.slot.blk then readSimt s k false
  else if k.slot.simt then readSimt s k true
  else
    let n := k.lanes.length
    match knownPlacement s k.core k.wave k.slot n (pairWidths k.wave k.slot.blk n) with
    | .placed e p => startParking s k.core k.w k.x k.slot e p
    | .none => readSimt s k true
    | .ask =>
      onCore (slotWaits s k.core k.w k.x .stalled .region) k.core
        (fun q => { q with region := some (placingRegion k.w k.x k.slot q.cycle) })

/-- COUPLE (R55, R56, R373). -/
def execCouple (r : Record) (s : State) : Host.Outcome State Fault Refusal :=
  onSlot s (fun k =>
    if k.slot.mask = 0 && k.slot.held ≠ 0 then leaveRegion s k.core k.w k.x
    else withDivergence s k (.couple r) coupleWork)

/-- UNCPL in the SIMT reading (R55, R70): the lanes that LOOP held are back, and the slot falls through. -/
def execUncpl (_r : Record) (s : State) : Host.Outcome State Fault Refusal :=
  onSlot s (fun k => leaveRegion s k.core k.w k.x)

/-! ## Placing (R55, R64) -/

/-- What the engine lowers for a pair: the block of that width, with the region's key. -/
def pairRequest (s : State) (c : Nat) (v : Wave) (t : Slot) (b width n : Nat) : LowerReq :=
  ⟨coreDie c, v.part, pairKey s c v t width n, v.modl, b, false⟩

/-- The engine's placement is one of the region (R59 to R64): the entry that holds it. -/
def placedEntry (s : State) (c : Nat) (v : Wave) (t : Slot) (p : Placement) : Option (LowerReq × Lowered) :=
  let n := (lanesOf t.mask).length
  match variantOf v t.blk p.width with
  | none => none
  | some b =>
    let q := pairRequest s c v t b p.width n
    let lw := lowerBlock s { q with key := { q.key with baddr := blockAddr v b } }
    if p.block = b && lw.marker.isNone && !trWaits s v.part q.key.sec lw.pages
        && placementOk lw.recs lw.recs.length n v.window v.nkeep (roleTiles (coreOf s c) 1).length p then some (q, lw)
    else none

/-- Installs what the engine built for a pair (R64, R191). -/
def installPair (s : State) (q : LowerReq) (lw : Lowered) (p : Option Placement) : State × SEntry :=
  let e := { entryOf s q lw with failed := p.isNone, placement := p }
  let s := lw.pages.foldl (setTr q.part q.key.sec) s
  (onDie { s with freeCtr := s.freeCtr + 1 } q.die (fun d => putEntry d e), e)

/-- The pairs of some widths that have no entry are recorded as failed; none where a page waits for writes (R191, R195). At the
bound of R19 (`late`) the engine reports failure whether R195 lets it read a page or not: it then records nothing for a pair whose
pages wait, or whose record a home would hold, and the next COUPLE asks again (DESIGN CHOICE, log entry 15). -/
def failPairs (late : Bool) (s : State) (c : Nat) (v : Wave) (t : Slot) (n : Nat) (ws : List Nat) : Option State :=
  ws.foldl (fun acc w =>
    match acc, variantOf v t.blk w with
    | some s, some b =>
      if (pairFound s c v t n w).isSome then some s
      else
        let q := pairRequest s c v t b w n
        let lw := lowerBlock s { q with key := { q.key with baddr := blockAddr v b } }
        if trWaits s v.part q.key.sec lw.pages then (if late then some s else none)
        else
          let s' := (installPair s q lw none).1
          some (if late && s'.homeWaits then s else s')
    | s, _ => s) (some s)

/-- COUPLE_PLACEMENT_DONE (R55, R64): a placement of the region, where the wider pairs have failed, or the report that none
fits. The pairs that have failed are recorded (R191). -/
def execCouplePlacementDone (core : Nat) (placement : Option Placement) (s : State) : Host.Outcome State Fault Refusal :=
  .next (match regionOf s core with
    | none => s
    | some r =>
      match waveOf s core r.wslot with
      | none => s
      | some v =>
        let t := slotOf v r.x
        let n := r.lanes.length
        let ws := pairWidths v t.blk n
        if r.st ≠ .placing then s
        else if v.halted then dropRegion s core
        else
          match placement with
          | some p =>
            (match placedEntry s core v t p, failPairs false s core v t n (ws.filter (fun w => p.width < w)) with
              | some q, some s =>
                if !ws.contains p.width then s
                else
                  let i := installPair s q.1 q.2 (some p)
                  startParking i.1 core r.wslot r.x t i.2 p
              | _, _ => s)
          | none =>
            match failPairs (r.since + 4096 ≤ (coreOf s core).cycle) s core v t n ws with
            | none => s
            | some s =>
              let cyc := (coreOf s core).cycle
              let s := onCore s core (fun k => { k with region := none })
              onWave s core r.wslot (fun v =>
                let v := putSlot v r.x { slotOf v r.x with st := .eligible, wait := .none, ready := cyc, simt := true }
                advanceSlot v r.x))

/-! ## Running -/

/-- A slot has issued a word that has not completed: one parked on a walk, or a fence at the port (R104, R120). -/
def wordOpen (t : Slot) : Bool :=
  match t.wait with
  | .walk .. | .walked .. | .port _ => true
  | _ => false

/-- Words that parked slots have issued are still to complete and write their destinations (R57). -/
def parkingBusy (s : State) (c w : Nat) : Bool :=
  s.accs.any (fun a => a.core = c && a.wslot ≠ w)
    || (wavesOf (coreOf s c)).any (fun p => p.1 ≠ w && !p.2.halted && (wordOpen p.2.slot0 || wordOpen p.2.slot1))

/-- PARKING_QUIET (R57, R70). -/
def execParkingQuiet (core : Nat) (s : State) : Host.Outcome State Fault Refusal :=
  .next (match regionOf s core with
    | none => s
    | some r =>
      if r.st ≠ .parking || parkingBusy s core r.wslot then s
      else if ((waveOf s core r.wslot).map (fun v => v.halted)).getD true then dropRegion s core
      else
        let cyc := (coreOf s core).cycle
        setRegion s core { r with st := .running, since := cyc, moved := cyc })

/-! ## The freeze (R370 to R372) -/

/-- The code of a role (R372). -/
def roleCode : Role → Nat
  | .head => 0
  | .compute => 1
  | .load => 2
  | .store => 3
  | .chase => 4
  | .stream => 5
  | .steer => 6
  | .writeBack => 7

/-- SST of a station (R372). -/
def stationState (s : State) (c : Nat) (r : Region) (j : Nat) : Nat :=
  if r.ended.contains j && roleIn r j ≠ some .steer then 4
  else
    match tryFire s c j with
    | .waitInput | .tagged _ => 1
    | .waitOutput => 2
    | .waitMemory _ => 3
    | _ => 0

/-- The lowest body record of a station; 0 where it holds none. -/
def stationRec (t : Station) : Nat := t.recs.foldl min (t.recs.headD 0)

/-- The 24 bytes of a station (R372). -/
def stationBytes (s : State) (c : Nat) (r : Region) (j : Nat) (t : Station) : List Byte :=
  let all := inputsOf r j ++ (r.couplings.zipIdx.filter (fun p => p.1.cons = j)).map (fun p => (p.2, p.1))
  let port (n : Nat) : Nat := (all.find? (fun p => p.2.port = n && !p.2.high)).elim 255 (fun p => p.1)
  leBytes 1 t.lane ++ leBytes 1 t.repl ++ leBytes 1 (roleCode t.role) ++ leBytes 1 (stationState s c r j)
    ++ leBytes 2 (stationRec t) ++ leBytes 2 (min (r.fired.getD j 0) 0xFFFF)
    ++ (List.range 8).flatMap (fun n => leBytes 1 (port n)) ++ leBytes 1 (port 8) ++ leBytes 7 0

/-- The code of a token's kind (R61). -/
def tokenCode : TokKind → Nat
  | .data => 0
  | .tend => 1
  | .switch => 2
  | .bad => 3

/-- The 40 bits of a token (R61). -/
def tokenBits (t : Token) : Nat := tokenCode t.kind * 2 ^ 38 + t.ch % 16 * 2 ^ 32 + t.value.toNat

/-- The 40 bytes of a coupling (R372). -/
def couplingBytes (r : Region) (i : Nat) (c : Coupling) : List Byte :=
  let q := queueOf r i
  leBytes 1 c.prod ++ leBytes 1 c.cons ++ leBytes 1 c.port ++ leBytes 1 q.length ++ leBytes 1 (r.gens.getD i 0 % 256)
    ++ leBytes 3 0 ++ (List.range 4).flatMap (fun n => leBytes 8 ((q[n]?).elim 0 tokenBits))

/-- RSTATE (R372). -/
def regionCode : RegionSt → Nat
  | .running => 2
  | .gated => 3
  | .draining => 4
  | _ => 0

/-- The occupancy map (R372): its head and stations, and its couplings, which lie from offset 0x340. -/
def occupancyMap (s : State) (c : Nat) (r : Region) (blk dst dcp : Nat) : List Byte × List Byte :=
  (leBytes 1 r.stations.length ++ leBytes 1 r.couplings.length ++ leBytes 1 (Nat.log2 r.width)
      ++ leBytes 1 (channelsOf r.lanes.length r.width - 1) ++ leBytes 1 dst ++ leBytes 1 dcp ++ leBytes 1 (regionCode r.st)
      ++ leBytes 1 0 ++ leBytes 4 ((coreOf s c).cycle - r.since) ++ leBytes 4 r.finished.toNat ++ leBytes 2 blk ++ leBytes 46 0
      ++ r.stations.zipIdx.flatMap (fun p => stationBytes s c r p.2 p.1),
    r.couplings.zipIdx.flatMap (fun p => couplingBytes r p.2 p.1))

/-- The keep slots of the unfinished channels stand as their last retired iteration left them (R71). -/
def keepUnfinished (s : State) (c : Nat) (r : Region) : State :=
  (r.kept.filter (fun p => !r.finished.getLsbD (p.1 / 256))).foldl (fun s p =>
    writeKeep s c r.wslot r.x (p.1 % 256) [(p.1 / 256, p.2)]) s

/-- The slot stands at COUPLE with the unfinished lanes, the finished ones held; the parked waves return (R71, R72). -/
def backToCouple (s : State) (c : Nat) (r : Region) (simt : Bool) : State :=
  let s := forgetWindow (dropRegion (keepUnfinished s c r) c) c r.wslot
  let cyc := (coreOf s c).cycle
  onSlotOf s c r.wslot r.x (fun t =>
    { t with st := .eligible, wait := .none, mask := t.mask &&& ~~~r.finished, held := t.held ||| (t.mask &&& r.finished),
             rcd := 0, ready := cyc, simt := simt, cpl := true })

/-- What a pre-emption stop names (R154, R163): no lane, no cause. It names no record, and R154 gives BLK and REC no value:
they hold the position of slot 2w before the stop (DESIGN CHOICE, log entry 38). -/
def preemptReq (v : Wave) (cpl : Bool) : StopReq :=
  { cause := 0, stop := 1, x := 0, lanes := 0, blk := v.slot0.blk, rcd := v.slot0.rcd, addr := 0, cmp := 0xFF, late := false,
    cpl := cpl, entry := none, grp := 0 }

/-- A return has still words of the wave to issue again, and the next of them can: a pre-emption comes after them (R165). -/
def reinjects (s : State) (c w : Nat) (v : Wave) : Bool :=
  match headEntry v v.replay with
  | some e => (slotOf v (entrySlot v e)).st = .eligible && !(waveAccs s c w v.uid).any (fun a => a.again)
  | none => false

/-- A wave that is not HALTED stops with STOP 1 (R163), once it has nothing to issue again (R165). -/
def preemptWave (s : State) (c w : Nat) (cpl : Bool) : State :=
  match waveOf s c w with
  | some v => if v.halted || reinjects s c w v then s else takeStop s c w (preemptReq v cpl) []
  | none => s

/-- Every wave of a core stops with STOP 1 (R163). -/
def preemptCore (s : State) (c : Nat) : State := (List.range 16).foldl (fun s w => preemptWave s c w false) s

/-- The waves of a core whose partition stops, once its region is gone (R160, R163). -/
def preemptDue (s : State) (c : Nat) : State :=
  if (partOf s (corePart s c)).pswap = .stopping then preemptCore s c else s

/-- The coupling wave stops at COUPLE (R71, R371). -/
def coupleStop (s : State) (c w x : Nat) (cause : BitVec 8) (blk rcd : Nat) (lanes : W32) (addr : Word) : State :=
  takeStop s c w { cause := cause, stop := 0, x := x, lanes := lanes, blk := blk, rcd := rcd, addr := addr, cmp := 0xFF,
                   late := false, cpl := true, entry := none, grp := 0 } []

/-- What retired iterations have still to do is done at a freeze: their stores perform before the wave stops (R371). -/
def flushTail (s : State) (c : Nat) : State :=
  match regionOf s c with
  | none => s
  | some r =>
    setRegion (r.tail.foldl (fun s e => match e.2 with
      | .fence f => acquireL1 s c (fenceOrder (recsOf r) f) (fenceScope (recsOf r) f)
      | x => tailRun s c r e.1 x) s) c { r with tail := [] }

/-- A freeze (R371), in its order: the map, the tokens and what has not retired discarded, the streams rewound, the
placement failed and logged, the parked waves back, the stop. `det` is the detecting station, DCP and the lane of
COUPLE_TAG. -/
def freezeRegion (s : State) (c : Nat) (r : Region) (cause : BitVec 8) (dst dcp : Nat) (det : Option (Nat × Nat)) : State :=
  match waveOf s c r.wslot with
  | none => s
  | some v =>
    let sec := (coreOf s c).world
    let t := slotOf v r.x
    let m := occupancyMap s c r t.blk dst dcp
    let by' : Writer := ⟨v.part, selfSlot s, some c⟩
    let s := (writeVirtual s by' sec (frameBase v + 0x1400) m.1).1
    let s := (writeVirtual s by' sec (frameBase v + 0x1740) m.2).1
    let s := discardIters (flushTail s c) c (fun _ => true)
    let key := r.entry.map (fun e => e.key)
    let s := onDie s (coreDie c) (fun d => { d with sinter := d.sinter.map (fun e =>
      if some e.key = key then { e with failed := true, placement := none } else e) })
    let s := logEvent s 3 cause v.part 0 c 0 noStage
    let left := t.mask &&& ~~~r.finished
    let s := backToCouple s c r true
    preemptDue (match det with
    | some (rcd, lane) => coupleStop s c r.wslot r.x cause ((r.entry.map (fun e => e.blk)).getD t.blk) rcd (laneBit lane) 0
    | none => coupleStop s c r.wslot r.x cause t.blk 0 left 0) c

/-- COUPLE_TAG of a station (R66, R370, R371). -/
def tagFreeze (s : State) (c j dcp : Nat) : State :=
  match regionOf s c with
  | none => s
  | some r =>
    let ch := (headTag r j).getD 0
    let rcd := (r.stations[j]?).elim 0 stationRec
    freezeRegion s c r causeCoupleTag j dcp (some (rcd, channelLane r (replIn r j) ch))

/-- A cycle in which a station waits on memory or an empty stream is not still (R371). -/
def watchStill (s : State) (c : Nat) : State :=
  match regionOf s c with
  | none => s
  | some r =>
    if (List.range r.stations.length).any (fun j => waitsMemory s c j) then setRegion s c { r with moved := (coreOf s c).cycle }
    else s

/-- The region runs, is gated or drains. -/
def regionWatched (r : Region) : Bool := r.st = .running || r.st = .gated || r.st = .draining

/-- A station has fired in this cycle (R59). -/
def firedIn (s : State) (c j : Nat) : Bool :=
  match regionOf s c with
  | some r => r.firedNow.contains j
  | none => false

/-- Notes that a station has fired in this cycle. -/
def noteFired (s : State) (c j : Nat) : State :=
  match regionOf s c with
  | some r => setRegion s c { r with firedNow := r.firedNow ++ [j] }
  | none => s

/-- STATION_FIRE (R59, R66, R68): a station whose inputs and outputs allow it fires, once in a cycle; tags that differ freeze
the region; where it does not fire, what could not retire before may now (R67). -/
def execStationFire (core station : Nat) (s : State) : Host.Outcome State Fault Refusal :=
  .next (if firedIn s core station then s
    else match tryFire s core station with
    | .fired t => noteFired t core station
    | .waitMemory t => watchStill t core
    | .tagged dcp => tagFreeze s core station dcp
    | _ => (match regionOf s core with
      | some r => if regionWatched r then settleRegion s core else s
      | none => s))

/-- COUPLE_QUANTUM_EXPIRY (R72): a pass that has run for KC_CPLQ cycles is gated. -/
def execCoupleQuantumExpiry (core : Nat) (s : State) : Host.Outcome State Fault Refusal :=
  .next (match regionOf s core with
    | none => s
    | some r => if r.st = .running && r.since + (coreOf s core).kcCplq ≤ (coreOf s core).cycle then gateRegion s core .quantum else s)

/-- No station of a region fires or waits on memory or a stream (R371). -/
def regionStill (s : State) (c : Nat) (r : Region) : Bool :=
  (List.range r.stations.length).all (fun j => !canFire s c j && !waitsMemory s c j)

/-! ## The drain (R70 to R72) -/

/-- The end token of every write-back station is there: by R70 after the last iteration, or behind the switch tokens. -/
def drainEnded (r : Region) : Bool :=
  (writeBacks r).all (fun j => r.ended.contains j || (sourcesClosed r && r.switched.contains j))

/-- What the drain waits for is there (R70): the end tokens, no station that fires, every iteration that all stations have
processed retired, and what those do at their retirement done. -/
def drainDue (s : State) (c : Nat) (r : Region) : Bool :=
  r.st = .draining && drainEnded r && r.tail = [] && !r.iters.any (processed r)
    && !(List.range r.stations.length).any (fun j => canFire s c j)

/-- COUPLE_STILL (R371): after 4,096 still cycles; what the drain raises in the same cycle comes first. -/
def execCoupleStill (core : Nat) (s : State) : Host.Outcome State Fault Refusal :=
  .next (match regionOf s core with
    | none => s
    | some r =>
      if regionWatched r && r.moved + 4096 ≤ (coreOf s core).cycle && regionStill s core r && !drainDue s core r then
        freezeRegion s core r causeCoupleStill 0xFF 0xFF none
      else s)

/-- DONE (R70 to R72): UNCPL retires, or the slot is back at COUPLE, and the wave stops where a fault gated the region; the
core's waves stop where a pre-emption did. -/
def regionDone (s : State) (c : Nat) (r : Region) : State :=
  let blk := (r.entry.map (fun e => e.blk)).getD 0
  match r.gate with
  | .none => leaveRegion (dropRegion s c) c r.wslot r.x
  | .quantum => backToCouple s c r false
  | .preempt =>
    let s := backToCouple s c r false
    preemptCore (preemptWave s c r.wslot true) c
  | .fault cause rcd lane addr =>
    preemptDue (coupleStop (backToCouple s c r false) c r.wslot r.x cause blk rcd (laneBit lane) addr) c

/-- REGION_DRAINED (R70): the end token reaches the core while no station fires; a token left in a coupling raises
COUPLE_UNBALANCED. Iterations that could not retire leave with what they popped (R71). -/
def execRegionDrained (core : Nat) (s : State) : Host.Outcome State Fault Refusal :=
  .next (match regionOf s core with
    | none => s
    | some r =>
      if !drainDue s core r then s
      else
        match findAt (fun q => q ≠ []) r.queues 0 with
        | some i => freezeRegion s core r causeCoupleUnbalanced 0xFF i none
        | none =>
          let s := discardIters s core (fun _ => true)
          regionDone s core ((regionOf s core).getD r))

end Sys2Proof.Machine
end

