-- ==== Sys2Proof/Machine/System.lean ====
section
/-! DEFINITION. SYS records (R330 to R335), the placing of handler waves (R156), and snapshots (R130, R132, R352). -/

namespace Sys2Proof.Machine

/-! ## SYS.tret (R331) -/

/-- The wave slot that A names, where the first two conditions of R331 hold: this core, a HALTED wave. -/
def tretTarget (s : State) (k : Ctx) (a : Word) : Option (Nat × Wave) :=
  let w := a.toNat / 2 ^ 28 % 16
  if a.toNat / 2 ^ 16 % 2 ^ 12 ≠ k.core then none
  else (waveOf s k.core w).bind (fun v => if v.halted then some (w, v) else none)

/-- The frame's WAVEID equals A (R331); a frame that cannot be read counts as the one the core wrote (log entry 14). -/
def frameNames (s : State) (c w : Nat) (v : Wave) (a : Word) : Bool :=
  match (readVirtual s v.part (coreOf s c).world (frameBase v + 0x80) 8).2 with
  | .ok bs => leWord bs = a
  | .error _ => waveId v c w = a

/-- SYS.tret (R331, R158, R159). -/
def execSysTret (r : Record) (s : State) : Host.Outcome State Fault Refusal :=
  onSlot s (fun k =>
    let a := opA s k r .b64 k.low
    match tretTarget s k a with
    | none => advance s k
    | some (w, v) =>
      afterRelease s k (
        if !frameNames s k.core w v a then advance s k
        else
          let q := returnFrom s k.core w
          match q.2 with
          | .resumed => advance q.1 k
          | .damaged f => trapState q.1 k (.sysTret r) causeIntegrity f))

/-! ## SYS.snap, SYS.snapq (R332) -/

/-- A cut or a stream of the partition's earlier snapshot is under way. -/
def snapBusy (s : State) (p : Nat) : Bool :=
  (partOf s p).snapState = 1 || (match s.cut with
    | some c => c.part = p
    | none => false)

/-- The cut takes the token (R130): SEQ counts it, streaming begins, and the slot waits for the mark. -/
def takeCut (s : State) (k : Ctx) : State :=
  let p := k.wave.part
  let s := acquireL1 s k.core .sq .dv
  let s := { s with cut := some ⟨p, k.core, k.w, k.x, [], []⟩ }
  let s := onPart s p (fun q => { q with snapSeq := q.snapSeq + 1, snapState := 1, snapFault := 0, snapPages := [] })
  slotWaits (advance s k) k.core k.w k.x .waiting .cut

/-- A store performed ahead of an earlier one of its thread would break the cut (R131): the cut waits for the earlier one. -/
def cutReady (s : State) (n : SlotName) : Bool := tokenFree s n && s.accs.all (fun a => a.guards = [])

/-- SYS.snap (R332). -/
def execSysSnap (r : Record) (s : State) : Host.Outcome State Fault Refusal :=
  onSlot s (fun k =>
    let p := k.wave.part
    if !(partOf s p).snap.getLsbD 0 then trapState s k (.sysSnap r) causeDataRights 0
    else if snapBusy s p then slotWaits s k.core k.w k.x .waiting .snap
    else
      afterRelease s k (
        if cutReady s (k.core, k.w, k.x) then takeCut s k else slotWaits s k.core k.w k.x .waiting .snap))

/-- The snapshot status word (R332). -/
def snapWord (q : Part) : Word :=
  BitVec.ofNat 64 (q.snapSeq.toNat * 2 ^ 32 + q.snapFault.toNat * 2 ^ 8 + q.snapState % 4)

/-- SYS.snapq (R332). -/
def execSysSnapq (r : Record) (s : State) : Host.Outcome State Fault Refusal :=
  onSlot s (fun k => sameOp s k r.ty (snapWord (partOf s k.wave.part)))

/-! ## SYS.cfg (R333) -/

/-- The selector of SYS.cfg, and the number of SYS.dbgset. -/
def selectorOf (o : Opnd) : Nat :=
  match o with
  | .imm v => v.toNat
  | .dimm v => v.toNat
  | _ => 0

/-- A binding may not change: a slot is not FREE, or a SEND waits for one (R333). -/
def streamBusy (t : Stream) : Bool := t.slots.any (fun q => q ≠ .free) || t.waiting ≠ []

/-- The handle of a binding; 0 where there is none. -/
def streamHandle (k : Core) (n : Nat) : Word := ((streamAt k n).map (fun t => t.handle.setWidth 64)).getD 0

/-- The stream that an entry binds, or the cause by which it does not (R333, R359). -/
def bindingOf (k : Core) (c : Nat) (h : W32) (l : Latch) : Except (BitVec 8) Stream :=
  let b := l.base
  let off := b.toNat % 2 ^ 18
  let core := b.toNat / 2 ^ 36 % 2 ^ 12
  let size := leNat (l.kspec.take 4)
  let n := field l.kspec 4 2
  if b.toNat / 2 ^ 56 ≠ 0x81 || windowRz b || Config.numCores ≤ core then .error causeSpaceBad
  else if core ≠ c then .error causeSpaceForeign
  else if off % 32 ≠ 0 || size < 32 || 16384 < size || size ≠ 2 ^ Nat.log2 size || n < 1 || 256 < n
      || roleSize k 0 < off + size * n then .error causeSpaceBad
  else .ok ⟨h, b, size, List.replicate n .free, 0, 0, []⟩

/-- A binding of SYS.cfg (R333): the checks of a new handle come first; a busy binding refuses. -/
def configureStream (s : State) (k : Ctx) (r : Record) (n : Nat) (h : W32) : State :=
  let old := streamHandle (coreOf s k.core) n
  let busy := ((streamAt (coreOf s k.core) n).map streamBusy).getD false
  let put (s : State) (t : Option Stream) : State :=
    if busy then sameOp s k r.ty (old ||| ((1 : Word) <<< 63))
    else sameOp (onCore s k.core (fun q => putStream q n t)) k r.ty old
  if h = 0 then put s none
  else
    let q := resolve s k.wave.part (coreOf s k.core).world 1 h 4 1 0 0 (h.setWidth 64)
    match q.2 with
    | .error f => trapFails q.1 k (.sysCfg r) (k.lanes.map (fun l => (l, f))) 0
    | .ok e =>
      match bindingOf (coreOf s k.core) k.core h e.l with
      | .error c => trapFails q.1 k (.sysCfg r) (k.lanes.map (fun l => (l, failAddr c e.l.base))) 0
      | .ok t => put (latchAcquire q.1 k.core) (some t)

/-- A value between two bounds (R333). -/
def clampTo (lo hi v : Nat) : Nat := max lo (min hi v)

/-- SYS.cfg (R333). -/
def execSysCfg (r : Record) (s : State) : Host.Outcome State Fault Refusal :=
  onSlot s (fun k =>
    let n := selectorOf r.a
    let b := opB s k r .b64 k.low
    let q := coreOf s k.core
    if n < 8 then configureStream s k r n (b.setWidth 32)
    else if n = 8 then
      sameOp (onCore s k.core (fun q => { q with kcCplq := clampTo 4096 0xFFFFFF b.toNat })) k r.ty (BitVec.ofNat 64 q.kcCplq)
    else if n = 9 then
      sameOp (onCore s k.core (fun q => { q with kcBintmr := clampTo 1 0xFFFF b.toNat })) k r.ty (BitVec.ofNat 64 q.kcBintmr)
    else
      let h : W32 := b.setWidth 32
      let put (s : State) : State :=
        sameOp (onCore s k.core (fun q => { q with kcDbgring := h })) k r.ty (q.kcDbgring.setWidth 64)
      if h = 0 then put s
      else
        let x := resolve s k.wave.part q.world 1 h 5 1 0 0 (h.setWidth 64)
        match x.2 with
        | .error f => trapFails x.1 k (.sysCfg r) (k.lanes.map (fun l => (l, f))) 0
        | .ok _ => put (latchAcquire x.1 k.core))

/-! ## SYS.dbgset, SYS.haltq (R334, R335) -/

/-- Both registers of a comparator in one step (R334). -/
def setComparator (k : Core) (n : Nat) (a b : Word) : Core :=
  if n < 8 then { k with dbgPcA := smSet 0 k.dbgPcA n a, dbgPcB := smSet 0 k.dbgPcB n b }
  else { k with dbgDaA := smSet 0 k.dbgDaA (n - 8) a, dbgDaB := smSet 0 k.dbgDaB (n - 8) b }

/-- SYS.dbgset (R334). -/
def execSysDbgset (r : Record) (s : State) : Host.Outcome State Fault Refusal :=
  onSlot s (fun k =>
    let a := opB s k r .b64 k.low
    let b := opC s k r .b64 k.low
    advance (onCore s k.core (fun q => setComparator q (selectorOf r.a) a b)) k)

/-- The word of SYS.haltq (R335). -/
def haltWord (k : Core) : Word :=
  BitVec.ofNat 64 ((List.range 16).foldl (fun a w =>
    match smGet none k.waves w with
    | some v => if v.halted then a + 2 ^ w + (if (v.stop.map (fun q => q.posted)).getD false then 2 ^ (16 + w) else 0) else a
    | none => a) 0)

/-- SYS.haltq (R335). -/
def execSysHaltq (r : Record) (s : State) : Host.Outcome State Fault Refusal :=
  onSlot s (fun k => sameOp s k r.ty (haltWord (coreOf s k.core)))

/-! ## Handlers (R156) -/

/-- The handler wave of a stopped wave: lane 0, class 0, no launch, k0 the frame address and k1 the WAVEID. It acquires the
frame write before its first record. -/
def placeHandler (s : State) (c w : Nat) (v : Wave) (f : FoundBlock) (d : EntryDesc) (sp : Spot) : State :=
  let n : NewWave :=
    { spot := sp, kind := .handler, block := 0, launch := 0, blockIdx := 0, waveIdx := 0, nblk := 0, prio := 0, modl := f.modl,
      entry := f.blk, table := f.table, desc := { d with waves := 1 }, args := [], mask := 1, evals := [] }
  let uid := s.nextUid
  let s := acquireL1 (installWave s c n) c .aq .dv
  match waveOf s c sp.wslot with
  | none => s
  | some h =>
    let s := onCore s c (fun k =>
      let k := presetKeep k h 0 [(0, frameBase v)]
      let k := presetKeep k h 1 [(0, waveId v c w)]
      let k := placeGroups k uid sp.gbase d.groups
      { k with handlers := k.handlers.filter (fun i => i ≠ w) })
    onWave s c sp.wslot (fun h => { h with serves := some w })

/-- HANDLER_PLACE (R156): an ordinary slot, else a reserve slot; none while the core is in coupled mode (R58). -/
def execHandlerPlace (core wslot : Nat) (s : State) : Host.Outcome State Fault Refusal :=
  .next (match waveOf s core wslot with
    | none => s
    | some v =>
      if !(coreOf s core).handlers.contains wslot || !v.halted || coupledMode (coreOf s core) || !partRuns s v.part then s
      else
        match handlerEntry s core v with
        | none => s
        | some (f, d) =>
          match anySpot s core d.window d.groups.length with
          | none => s
          | some sp => placeHandler s core wslot v f d sp)

/-! ## The snapshot cut (R130) -/

/-- The slot that took the cut goes on once the mark has passed every slice (R332). -/
def wakeCutSlot (s : State) (c : Cut) : State :=
  let cyc := (coreOf s c.core).cycle
  onSlotOf s c.core c.wslot c.x (fun t => if t.wait = .cut then { t with st := .eligible, wait := .none, ready := cyc } else t)

/-- SNAP_MARK_ARRIVE (R130): the slice holds the partition's later stores. -/
def execSnapMarkArrive (slice : Nat) (s : State) : Host.Outcome State Fault Refusal :=
  .next (match s.cut with
    | none => s
    | some c =>
      if Config.numSlices ≤ slice || c.marked.contains slice then s
      else
        let c := { c with marked := c.marked ++ [slice] }
        let s := { s with cut := some c }
        if c.marked.length = Config.numSlices then wakeCutSlot s c else s)

/-- SNAP_TOKEN_RETURN (R130): after the full circuit the slice releases what it holds; with the last one the token is
free. -/
def execSnapTokenReturn (slice : Nat) (s : State) : Host.Outcome State Fault Refusal :=
  .next (match s.cut with
    | none => s
    | some c =>
      if Config.numSlices ≤ slice || c.marked.length < Config.numSlices || c.released.contains slice then s
      else
        let c := { c with released := c.released ++ [slice] }
        { s with cut := if c.released.length = Config.numSlices then none else some c })

end Sys2Proof.Machine
end

