-- ==== Sys2Proof/Machine/HostLink.lean ====
section
/-! DEFINITION. The host link (R345 to R347), the snapshot stream (R352), MG_TLBINV (R103), and fabric peers (R348). -/

namespace Sys2Proof.Machine

/-! ## BAR0 (R345, R136, R147, R399) -/

/-- A refused use of the touch window, or of part of a cell (R346, R136): logged with the address. -/
def touchRefused (s : State) (p : Nat) (a : Word) : State := logEvent s 1 0 p 5 (p + 1) a noStage

/-- A host access of a partition's function meets a world violation: the log holds the first offending address (R399). -/
def hostViolates (s : State) (p : Nat) (a : Word) : State := logEvent s 2 causeWorld p 5 (p + 1) a noStage

/-- The function of a partition exists: the partition is configured, that is, holds a cluster (R345, R350; log entry 17). -/
def functionOf (s : State) (p : Nat) : Bool := p < 8 && (partOf s p).clmap ≠ 0

/-- A host's write of a partition. -/
def hostWriter (p : Nat) : Writer := ⟨p, [], none⟩

/-- The aperture of BAR0: 1 TiB (R345). -/
def apertureOk (off : Word) (n : Nat) : Bool := off.toNat + n ≤ 2 ^ 40

/-- The first chunk of a host access that fails, with its cause. -/
def hostFault (s : State) (p : Nat) (need : Need) (va : Word) (n : Nat) : Option (BitVec 8 × Word) :=
  (lineChunks (n / 64 + 2) va.toNat n).findSome? (fun c =>
    match xlatCheck s p (partOf s p).world need (BitVec.ofNat 64 c.1) with
    | .error e => some (e, BitVec.ofNat 64 c.1)
    | .ok _ => none)

/-- The bytes of a range that translates, and whether one of its words is poisoned. -/
def hostBytes (s : State) (p : Nat) (va : Word) (n : Nat) : State × List Byte × Bool :=
  (lineChunks (n / 64 + 2) va.toNat n).foldl (fun acc c =>
    let a := BitVec.ofNat 64 c.1
    match xlatCheck acc.1 p (partOf s p).world .load a with
    | .error _ => acc
    | .ok x => (noteHome (xlatMark acc.1 p .load a x.leaf) p [] x.place false, acc.2.1 ++ placeRead acc.1 x.place c.2,
        acc.2.2 || placePoisoned acc.1 x.place c.2)) (s, [], false)

/-- HOST_BAR0_READ (R345, R396, R399): the data the host sees. A world violation reads as zero; another failure gives a
free value, since no rule states what the host sees then. A cell page reads as CELL.PEEK (R147). -/
def execHostBar0Read (part : Nat) (off : Word) (size : Nat) (s : State) : Host.Outcome State Fault Refusal :=
  .next (
    if !functionOf s part || !apertureOk off size then s
    else
      let va := (partOf s part).hbase + off
      match hostFault s part .load va size with
      | some (c, a) =>
        if c = causeWorld then { hostViolates s part a with hostData := List.replicate size 0, hostPoison := false }
        else { s with hostData := (List.range size).map (Config.hostByte s.freeCtr), hostPoison := false, freeCtr := s.freeCtr + 1 }
      | none =>
        let r := hostBytes s part va size
        { r.1 with hostData := r.2.1, hostPoison := r.2.2 })

/-- A chunk of a host write may be performed now. -/
def hostFree (s : State) (p : Nat) (va : Word) (n : Nat) : Bool :=
  (lineChunks (n / 64 + 2) va.toNat n).all (fun c =>
    match xlatCheck s p (partOf s p).world .store (BitVec.ofNat 64 c.1) with
    | .ok x => !storeHeld s p [] x.place
    | .error _ => true)

/-- A WAKING cell whose record is lost becomes FAILED as an access finds it (R138). -/
def meetsLost (s : State) (p : Nat) (va : Word) (pa : Nat) : State := if cellLost s pa then lostCell s p va pa else s

/-- A host write of bytes within one cell (R136): a whole cell takes it, a part of one only where it is VALUE. A cell whose
record is lost becomes FAILED instead (R138). -/
def hostCell (s : State) (p pa : Nat) (va : Word) (bs : List Byte) : State :=
  let a := BitVec.ofNat 64 (va.toNat / 8 * 8)
  if bs.length = 8 && cellLost s pa then lostCell s p a pa
  else if bs.length = 8 || cellTag s pa = 0 then placeWrite s (hostWriter p) (.dev pa) bs
  else touchRefused (meetsLost s p a pa) p a

/-- The pieces of a run of bytes in 8-byte cells. -/
def cellChunks : Nat → Nat → Nat → List (Nat × Nat)
  | 0, _, _ => []
  | fuel + 1, a, n =>
    if n = 0 then []
    else
      let k := min n (8 - a % 8)
      (a, k) :: cellChunks fuel (a + k) (n - k)

/-- A chunk of a host write at its place: split into cells on a cell page (R147). -/
def hostChunk (s : State) (p : Nat) (va : Word) (x : Xlat) (bs : List Byte) : State :=
  let s := breakTr (xlatMark s p .store va x.leaf) p va x.leaf
  match x.cell, x.place with
  | true, .dev pa =>
    (cellChunks 9 pa bs.length).foldl (fun s c =>
      hostCell s p c.1 (va + BitVec.ofNat 64 (c.1 - pa)) ((bs.drop (c.1 - pa)).take c.2)) s
  | _, pl => placeWrite s (hostWriter p) pl bs

/-- HOST_BAR0_WRITE (R345, R399): performed at the home slice, or discarded. -/
def execHostBar0Write (part : Nat) (off : Word) (data : List Byte) (s : State) : Host.Outcome State Fault Refusal :=
  .next (
    if !functionOf s part || !apertureOk off data.length then s
    else
      let va := (partOf s part).hbase + off
      match hostFault s part .store va data.length with
      | some (c, a) => if c = causeWorld then hostViolates s part a else s
      | none =>
        if !hostFree s part va data.length then s
        else
          (lineChunks (data.length / 64 + 2) va.toNat data.length).foldl (fun s c =>
            match xlatCheck s part (partOf s part).world .store (BitVec.ofNat 64 c.1) with
            | .error _ => s
            | .ok x => hostChunk s part (BitVec.ofNat 64 c.1) x ((data.drop (c.1 - va.toNat)).take c.2)) s)

/-! ## The touch window (R346, R147) -/

/-- The cell at an address, as a use of the touch window finds it: device address and translation. -/
def windowCell (s : State) (p : Nat) (need : Need) (a : Word) : Option (Nat × Leaf) :=
  if a.toNat % 8 ≠ 0 then none
  else
    match xlatCheck s p (partOf s p).world need a with
    | .error _ => none
    | .ok x =>
      match x.cell, x.place with
      | true, .dev pa => some (pa, x.leaf)
      | _, _ => none

/-- A TOUCH or MKPAY that is refused: STATUS and the log (R346). -/
def windowRefuses (s : State) (p : Nat) (a : Word) : State :=
  touchRefused (onPart s p (fun q => { q with status := true })) p a

/-- TOUCH (R147, R346): a DORMANT cell wakes with an empty ancestry and no waiter; another is left unchanged. -/
def execTouch (part : Nat) (addr : Word) (s : State) : Host.Outcome State Fault Refusal :=
  .next (if !functionOf s part then s else match windowCell s part .load addr with
    | none => windowRefuses s part addr
    | some (pa, l) =>
      if storeHeld s part [] (.dev pa) then s
      else
        let s := xlatMark s part .load addr l
        if cellTag s pa = 1 then
          (wakeCell s part pa addr (BitVec.ofNat 64 (devNat s pa 8)) (partOf s part).world ⟨(5, part + 1), [], none, none, none, []⟩).1
        else meetsLost s part addr pa)

/-- MKPAY (R346): CELL.MAKE at MKADDR; a WAKING cell refuses it. -/
def execMkpay (part : Nat) (payload : Word) (s : State) : Host.Outcome State Fault Refusal :=
  .next (
    let a := (partOf s part).mkaddr
    if !functionOf s part then s else
    match windowCell s part .store a with
    | none => windowRefuses s part a
    | some (pa, l) =>
      if storeHeld s part [] (.dev pa) then s
      else if cellTag s pa = 2 then windowRefuses (meetsLost s part a pa) part a
      else cellPut (xlatMark s part .store a l) (hostWriter part) a pa payload 1)

/-- The tag of the cell at PKADDR and VALID; 0 where it is no cell of the partition. -/
def pktagWord (s : State) (p : Nat) : Word :=
  let a := (partOf s p).pkaddr
  match canonical a && a.toNat % 8 = 0, leafOf s p a with
  | true, some l =>
    (match pteBit l.val 59 && (!leafSecure s l a || (partOf s p).world), leafPlace l a with
      | true, .dev pa => BitVec.ofNat 64 (4 + (cellTag s pa).toNat)
      | _, _ => 0)
  | _, _ => 0

/-- PKADDR lies on a secure page and the function is not secure: a refused access (R399). -/
def pktagViolates (s : State) (p : Nat) : Bool :=
  let a := (partOf s p).pkaddr
  match leafOf s p a with
  | some l => canonical a && leafSecure s l a && !(partOf s p).world
  | none => false

/-- PKTAG (R346). -/
def execPktag (part : Nat) (s : State) : Host.Outcome State Fault Refusal :=
  .next (
    let v := pktagWord s part
    if !functionOf s part then s else regReads (if pktagViolates s part then touchRefused s part (partOf s part).pkaddr else s) v)

/-- TOUCH_STATUS_READ (R346): the read clears the bit. -/
def execTouchStatusRead (part : Nat) (s : State) : Host.Outcome State Fault Refusal :=
  .next (if !functionOf s part then s
    else regReads (onPart s part (fun q => { q with status := false })) (if (partOf s part).status then 1 else 0))

/-- A use of a register of the window that has no row of its own. -/
def windowUse (s : State) (p : Nat) (r : WindowReg) : State :=
  if !functionOf s p then s else
  match r with
  | .mkaddr v => onPart s p (fun q => { q with mkaddr := v })
  | .pkaddr v => onPart s p (fun q => { q with pkaddr := v })
  | .readMkaddr => regReads s (partOf s p).mkaddr
  | .readPkaddr => regReads s (partOf s p).pkaddr
  | .mask n => onPart s p (fun q => if q.msixMask.contains n then q else { q with msixMask := q.msixMask ++ [n] })
  | .reserved _ none => regReads s 0
  | .reserved _ (some _) => s

/-- MSI_X_UNMASK (R347): one message for a pending vector. -/
def execMsiXUnmask (part vec : Nat) (s : State) : Host.Outcome State Fault Refusal :=
  .next (
    let pend := (partOf s part).msixMask.contains vec && (partOf s part).msixPend.contains vec
    let s' := onPart s part (fun q => { q with msixMask := q.msixMask.filter (fun v => v ≠ vec), msixPend := q.msixPend.filter (fun v => v ≠ vec) })
    if !functionOf s part then s else if pend then { s' with msix := s'.msix ++ [(part, vec)] } else s')

/-! ## MG_TLBINV (R103, R198) -/

/-- A virtual address lies in `n` pages from a base. -/
def inRange (base : Word) (n : Nat) (va : Word) : Bool := pageOf base ≤ pageOf va && pageOf va < pageOf base + n

/-- An access that has issued may use a translation of the range: its address lies there, or in the private window. One
that waits on a cell has used it too. -/
def usesRange (base : Word) (n p : Nat) (a : Access) : Bool :=
  a.part = p && (a.addr.toNat / 2 ^ 56 = 0x80 || inRange base n a.addr)

/-- A slot that issues again with what a walk found (R104) uses a translation of the range; and any store of a carriage may,
which keeps the place alone. -/
def slotUses (base : Word) (n : Nat) (t : Slot) : Bool :=
  t.car.any (fun c => c.stores ≠ [] || c.cells ≠ []) || (match t.wait with
    | .walked _ r => inRange base n (BitVec.ofNat 64 (r.page * 4096))
    | _ => false)

/-- Accesses of a partition that used a translation of the range and have not been performed: those in flight, those parked
on a walk that has ended, the stores of coupled iterations, and the stores of carriages. -/
def rangeInUse (s : State) (base : Word) (n p : Nat) : Bool :=
  s.accs.any (usesRange base n p) || s.cores.any (fun k =>
    (wavesOf k.2).any (fun w => w.2.part = p && [w.2.slot0, w.2.slot1].any (slotUses base n))
    || (match k.2.region with
      | some r => (r.iters.flatMap (fun it => it.effects) ++ r.tail.map (fun e => e.2)).any (fun e => match e with
        | .store a => usesRange base n p a
        | .srel .. | .fence _ => false)
      | none => false))

/-- Cached translations of a range leave every cache (R103). -/
def dropRange (s : State) (p : Nat) (base : Word) (n : Nat) : State :=
  { s with tlb := s.tlb.filter (fun t => !(t.part = p && pageOf base < t.page + 1 && t.page < pageOf base + n)) }

/-- An invalidation that no access keeps from it completes (R103, R198): its range is dropped from every cache, and the Sinter
entries of it, markers among them (R385, R404). -/
def completeInv (s : State) (p : Nat) (q : Word × Nat) : State :=
  if rangeInUse s q.1 q.2 p then s
  else
    let s := dropEntries (dropRange s p q.1 q.2) p (fun e => e.pages.any (inRange q.1 q.2))
    onPart s p (fun r => { r with tlbinv := r.tlbinv.filter (fun x => x ≠ q) })

/-- The invalidations of a partition that can complete do. -/
def settleInv (s : State) (p : Nat) : State := ((partOf s p).tlbinv).foldl (fun s q => completeInv s p q) s

/-- MG_TLBINV (R103, R357): a write drops the cached translations of the range that MG_TLBVA names then, and the Sinter entries
that hold code of it; it completes with the last access that used one, and a read returns 1 until every write has. -/
def execMgTlbinv (part : Nat) (access : RegAccess) (s : State) : Host.Outcome State Fault Refusal :=
  .next (
    match access with
    | .write v =>
      let base := (partOf s part).tlbva
      let n := v.toNat
      let s := dropEntries (dropRange s part base n) part (fun e => e.marker.isNone && e.pages.any (inRange base n))
      settleInv (onPart s part (fun q => { q with tlbinv := q.tlbinv ++ [(base, n)] })) part
    | .read =>
      let s := settleInv s part
      regReads s (if (partOf s part).tlbinv = [] then 0 else 1))

/-! ## The snapshot stream (R132, R352) -/

/-- A 4 KiB frame as it was at the cut: the copy, or the frame in place (R132): its bytes, tags and poisoned words. -/
def cutFrame (s : State) (p f : Nat) : List Byte × SMap (BitVec 2) × List Nat :=
  match (partOf s p).snapPages.find? (fun q => q.base = f) with
  | some q => (memRead q.bytes f 4096, q.tags, q.poison)
  | none => (memRead s.dmem f 4096, s.tags, s.poison)

/-- Four tags in a byte, the first cell lowest (R352). -/
def tagByte (t : SMap (BitVec 2)) (c : Nat) : Byte :=
  BitVec.ofNat 8 ((List.range 4).foldl (fun a i => a + (smGet 0 t (c + i)).toNat * 4 ^ i) 0)

/-- The pages of a snapshot with what it sends of each (R352): the sixteen entries of a 64 KiB page are one page (R102). -/
def wholePages (ls : List (Nat × Leaf)) : List (Nat × Leaf) :=
  ls.filterMap (fun q =>
    if !pteBit q.2.val 11 then some q
    else if q.1 % 65536 = 0 then some (q.1, { q.2 with bytes := 65536 })
    else if ls.any (fun b => b.1 = q.1 / 65536 * 65536 && pteBit b.2.val 11) then none else some q)

/-- Bytes that the format fixes in some bits, the others free. -/
def freeBytes (free : Nat → Byte) (bits mask : Nat) (n : Nat) : List Byte :=
  (((leBytes n bits).zip (leBytes n mask)).zipIdx).map (fun p => (p.1.1 &&& p.1.2) ||| (free p.2 &&& ~~~p.1.2))

/-- The 64-byte header of a snapshot (R352): 4 bytes each of the magic, SEQ, the partition and the page count, in the order of
the rule; the rest is free (DESIGN CHOICE, log entry 8). -/
def snapHeader (seq : W32) (p pages : Nat) : List Byte :=
  leBytes 4 0x534E4150 ++ leBytes 4 seq.toNat ++ leBytes 4 p ++ leBytes 4 pages
    ++ (List.range 48).map (fun i => Config.snapHeader seq p pages (16 + i))

/-- The 16-byte descriptor of a page (R352): virtual address [56:12] in place with CELL at bit 0, then the page size in bytes; the
rest is free (DESIGN CHOICE, log entry 8). -/
def snapDescriptor (va bytes : Nat) (cell : Bool) : List Byte :=
  freeBytes (Config.snapDescriptor (BitVec.ofNat 64 va) bytes cell)
    (va % 2 ^ 57 / 4096 * 4096 + (if cell then 1 else 0) + bytes * 2 ^ 64) (2 ^ 57 - 2 ^ 12 + 1 + (2 ^ 64 - 1) * 2 ^ 64) 16

/-- What a page sends (R352): descriptor, contents, and the tags of a cell page. -/
def snapPage (s : State) (p : Nat) (q : Nat × Leaf) : List Byte :=
  let f := pteFrame q.2.val
  let cell := pteBit q.2.val 59
  let frames := (List.range (q.2.bytes / 4096)).map (fun i => cutFrame s p (f + 4096 * i))
  snapDescriptor q.1 q.2.bytes cell ++ frames.flatMap (fun r => r.1)
    ++ (if cell then frames.zipIdx.flatMap (fun r => (List.range 128).map (fun i => tagByte r.1.2.1 ((f + 4096 * r.2) / 8 + 4 * i)))
        else [])

/-- The 8-byte words of a page's part of the stream that are poisoned, as bytes from its start (R395). -/
def snapDamage (s : State) (p : Nat) (q : Nat × Leaf) : List Nat :=
  let f := pteFrame q.2.val
  (List.range (q.2.bytes / 4096)).flatMap (fun i =>
    (cutFrame s p (f + 4096 * i)).2.2.filterMap (fun w =>
      if w % 4 = 0 && f + 4096 * i ≤ 8 * (w / 4) && 8 * (w / 4) < f + 4096 * (i + 1) then some (16 + 8 * (w / 4) - f) else none))

/-- Device memory as it was at the cut: the copied frames in place of those that stores have changed since (R132). -/
def atCut (s : State) (p : Nat) : State :=
  { s with dmem := (partOf s p).snapPages.foldl (fun m q => memWrite m q.base (memRead q.bytes q.base 4096)) s.dmem }

/-- The whole stream of a snapshot (R352), of the pages that are mapped at the cut, and its poisoned words. -/
def snapImage (s : State) (p : Nat) : List Byte × List Nat :=
  let ls := wholePages (snapLeaves (atCut s p) p)
  ls.foldl (fun acc q => (acc.1 ++ snapPage s p q, acc.2 ++ (snapDamage s p q).map (fun o => acc.1.length + o)))
    (snapHeader (partOf s p).snapSeq p ls.length, [])

/-- Bytes written to host memory or to a peer, a line at a time; the marks of poisoned words travel with them (R395). -/
def streamOut (s : State) (p : Nat) (pl : Nat → Place) (base : Nat) (bs : List Byte) (bad : List Nat) : State :=
  let s := (lineChunks (bs.length / 64 + 2) base bs.length).foldl (fun s c =>
    placeWrite s (hostWriter p) (pl c.1) ((bs.drop (c.1 - base)).take c.2)) s
  bad.foldl (fun s o => markPoison s (pl (base + o))) s

/-- The target takes the stream, or faults (R352): kind 0 a host region, kind 1 a fabric device (log entry 17). A violation of
worlds is logged for the partition's first engine (R351; DEDUCED, log entry 30). -/
def snapTarget (s : State) (p : Nat) (bs : List Byte) (bad : List Nat) : State × Except (BitVec 8) Unit :=
  let q := partOf s p
  let name := q.snap.toNat / 2 ^ 8 % 2 ^ 32
  let at' := q.snapTgt.toNat
  if q.snap.getLsbD 1 then
    if Config.numDevices ≤ name || name = s.devno then (s, .error causeDataUnmapped)
    else if s.ports = 0 then (s, .error causeIntegrity)
    else (streamOut s p (fun a => .fab name a) at' bs bad, .ok ())
  else
    let r := resolve s p q.world 0 (BitVec.ofNat 32 name) 6 1 at' bs.length 0
    match r.2 with
    | .error f => (logWorld r.1 p (1, 16 * (partClusters s p).headD 0) f.cause f.addr, .error f.cause)
    | .ok e =>
      let base := e.l.base.toNat + at'
      if (lineChunks (bs.length / 64 + 2) base bs.length).any (fun c => r.1.atsFail.contains (c.1 / 4096)) then
        (r.1, .error causeDataUnmapped)
      else (streamOut r.1 p (fun a => .host a) base bs bad, .ok ())

/-- SNAP_STREAM_COMPLETE (R352): the stream ends, complete or failed. -/
def execSnapStreamComplete (part : Nat) (s : State) : Host.Outcome State Fault Refusal :=
  .next (
    let cutting := match s.cut with
      | some c => c.part = part
      | none => false
    if (partOf s part).snapState ≠ 1 || cutting then s
    else
      let i := snapImage s part
      let r := snapTarget s part i.1 i.2
      match r.2 with
      | .ok _ => onPart r.1 part (fun q => { q with snapState := 2, snapPages := [] })
      | .error c => onPart r.1 part (fun q => { q with snapState := 3, snapFault := c, snapPages := [] }))

/-! ## Fabric peers (R348) -/

/-- A home makes a peer's write wait (R43, R130). -/
def peerHeld (s : State) (pa n : Nat) : Bool :=
  (lineChunks (n / 64 + 2) pa n).any (fun c => storeHeld s 8 [] (.dev c.1))

/-- The bytes of a peer's store or push at their home slices. R136 has no row for a peer: the cells it touches become VALUE,
as through a mapping that is not a cell page (DESIGN CHOICE, log entry 39). -/
def peerStore (s : State) (pa : Nat) (bs : List Byte) : State :=
  (lineChunks (bs.length / 64 + 2) pa bs.length).foldl (fun s c =>
    placeWrite s (hostWriter 8) (.dev c.1) ((bs.drop (c.1 - pa)).take c.2)) s

/-- A peer reaches a secure range (R351): a peer holds no world, so it is refused and logged. -/
def peerSecure (s : State) (pa n : Nat) : Bool :=
  (List.range (n / 4096 + 2)).any (fun i => pa / 4096 + i ≤ (pa + n - 1) / 4096 && secureRange s ((pa / 4096 + i) * 4096))

/-- Bytes of a peer's operation. -/
def peerSize : PeerOp → Nat
  | .store d => d.length
  | .push d => d.length
  | .atom _ t .. => t.memBytes
  | .atmf k t .. => if k = 3 then 2 * t.memBytes else t.memBytes

/-- The new number of a peer's atomic at its bytes, where it writes. -/
def peerNew (op : PeerOp) (old : Nat) : Option Nat :=
  match op with
  | .atom k t b c =>
    let r := atomNew k (if t.wide then 64 else 32) (t = .i32 || t = .i64) old b.toNat c.toNat
    if r.2 then some r.1 else none
  | .atmf k t b c => some (atmfNew k t old b c)
  | _ => none

/-- What is computed from a damaged word is damaged (R395): the marks of a range, kept over a write of it. -/
def keepPoison (s : State) (pa n : Nat) (t : State) : State :=
  ((List.range (n / 8 + 1)).filter (fun i => 8 * i < n && placePoisoned s (.dev (pa + 8 * i)) 1)).foldl
    (fun t i => markPoison t (.dev (pa + 8 * i))) t

/-- FABRIC_PEER_ACCESS (R348, R351): performed at this device's home slice; an atomic returns the
old value, and its poison (R396). At stage 0 no function but management answers (R400). -/
def execFabricPeerAccess (port addr : Nat) (op : PeerOp) (s : State) : Host.Outcome State Fault Refusal :=
  .next (
    let n := peerSize op
    if s.stage = 0 || !s.ports.getLsbD port || Config.deviceBytes < addr + n || n = 0 || peerHeld s addr n then s
    else if peerSecure s addr n then logEvent s 2 causeWorld 0xFF 6 port (BitVec.ofNat 64 addr) noStage
    else
      match op with
      | .store d => peerStore s addr d
      | .push d => peerStore s addr d
      | _ =>
        if addr % n ≠ 0 then s
        else
          let old := devNat s addr n
          let poisoned := placePoisoned s (.dev addr) n
          let s := match peerNew op old with
            | some v => keepPoison s addr n (peerStore s addr (leBytes n v))
            | none => s
          { regReads s (BitVec.ofNat 64 old) with hostData := leBytes n old, hostPoison := poisoned })

end Sys2Proof.Machine
end

