-- ==== Sys2Proof/Machine/Manage.lean ====
section
/-! DEFINITION. Management: partitions (R350, R357), exchange, halt and resume (R163, R353), partition reset (R401), the
mailbox (R146, R157, R353), firmware and attestation (R356), bring-up (R355, R400), clocks and links. -/

namespace Sys2Proof.Machine

/-! ## Partition configuration (R350, R355, R400) -/

/-- The cores of a partition. -/
def partCores (s : State) (p : Nat) : List Nat := (partClusters s p).flatMap clusterCores

/-- A partition has a resident wave or a suspended engine command (R350): the commands of a core are suspended while the
partition is stopped, those of its standby context always (R163). -/
def partBusy (s : State) (p : Nat) : Bool :=
  let suspended : Bool := (partOf s p).pswap ≠ .running
  s.cores.any (fun q => corePart s q.1 = p && (wavesOf q.2 ≠ [] || (suspended && q.2.cmds ≠ [])))
    || s.standby.any (fun q => corePart s q.1 = p && q.2.cmds ≠ [])

/-- A cluster may be placed in a partition (R355, R400): its die has joined. -/
def assignable (s : State) (k : Nat) : Bool := 1 ≤ s.stage && (dieOf s (k / 52)).joined

/-- CLMAP after a write of one of its four words; bits above cluster 207 are RZ (R357). -/
def newClmap (q : Part) (i : Nat) (v : Word) : BitVec 256 :=
  let m : BitVec 256 := (BitVec.allOnes 64).setWidth 256 <<< (64 * i)
  let all : BitVec 256 := (BitVec.allOnes 208).setWidth 256
  ((q.clmap &&& ~~~m) ||| (v.setWidth 256 <<< (64 * i))) &&& all

/-- A write of CLMAP is refused (R350). -/
def clmapRefused (s : State) (p : Nat) (m : BitVec 256) : Bool :=
  (List.range Config.numClusters).any (fun k =>
    m.getLsbD k && (!assignable s k || (List.range 8).any (fun q => q ≠ p && (partOf s q).clmap.getLsbD k)))
  || (m ≠ (partOf s p).clmap && partBusy s p)

/-- A write of CTL is refused (R350): it changes RSV or ASID of a partition that is busy. -/
def ctlRefused (s : State) (p rsv asid : Nat) : Bool :=
  (rsv ≠ (partOf s p).rsv || asid ≠ (partOf s p).asid) && partBusy s p

/-- MG_PARTITION_CONFIG (R350, R357): CLMAP0 to CLMAP3 at offsets 0 to 0x18, CTL at 0x20. -/
def execMgPartitionConfig (part off : Nat) (value : Word) (s : State) : Host.Outcome State Fault Refusal :=
  .next (
    if 8 ≤ part then s
    else if off < 0x20 && off % 8 = 0 then
      let m := newClmap (partOf s part) (off / 8) value
      if clmapRefused s part m then { s with cfgRef := true } else onPart s part (fun q => { q with clmap := m })
    else if off = 0x20 then
      let rsv := value.toNat % 8
      let asid := value.toNat / 2 ^ 5 % 2 ^ 16
      if ctlRefused s part rsv asid then { s with cfgRef := true }
      else onPart s part (fun q => { q with rsv := rsv, world := value.getLsbD 3, bothw := value.getLsbD 4, asid := asid })
    else s)

/-! ## Management registers (R357) -/

/-- MG_STATUS. -/
def statusWord (s : State) : Word :=
  BitVec.ofNat 64 (s.stage % 4 + (List.range 4).foldl (fun a d => if (dieOf s d).joined then a + 4 * 2 ^ d else a) 0
    + (if s.cfgRef then 2 ^ 6 else 0) + (if s.fwFail then 2 ^ 7 else 0))

/-- MG_STATUS read (R357): CFGREF is cleared. -/
def execMgStatus (s : State) : Host.Outcome State Fault Refusal :=
  .next (regReads { s with cfgRef := false } (statusWord s))

/-- PWR of a partition: KC_RLIM of every core of it (R354). Bits [63:32] are RZ. -/
def setPower (s : State) (p : Nat) (v0 : Word) : State :=
  let v := v0 &&& 0xFFFFFFFF
  (partCores s p).foldl (fun s c => onCore s c (fun k => { k with kcRlim := v })) (onPart s p (fun q => { q with pwr := v }))

/-- A write of a register of a partition's block that has no row of its own. -/
def writePartReg (s : State) (p off : Nat) (v : Word) : State :=
  match off with
  | 0x28 => onPart s p (fun q => { q with rtbase := v })
  | 0x30 => onPart s p (fun q => { q with rtlen := v })
  | 0x38 => onPart s p (fun q => { q with ptroot := v })
  | 0x40 => onPart s p (fun q => { q with tlbva := v })
  | 0x58 => onPart s p (fun q => { q with traph := v })
  | 0x68 => onPart s p (fun q => { q with cwsbase := v })
  | 0x70 => onPart s p (fun q => { q with cwslen := v })
  | 0x78 => onPart s p (fun q => { q with snap := v })
  | 0x80 => onPart s p (fun q => { q with snapTgt := v })
  | 0x88 => setPower s p v
  | 0x90 => onPart s p (fun q => { q with hbase := v })
  | 0x98 => onPart s p (fun q => { q with privbase := v })
  | 0xA0 => onPart s p (fun q => { q with privstride := v })
  | _ => s

/-- MG_REGISTER_WRITE (R357): the mailbox word, the secure ranges, the registers of a partition's block. -/
def execMgRegisterWrite (off : Nat) (value : Word) (s : State) : Host.Outcome State Fault Refusal :=
  .next (
    if off = 0x20 then { s with mbox := value }
    else if 0x100 ≤ off && off < 0x200 && off % 8 = 0 then
      let n := (off - 0x100) / 16
      let mask : Word := if off % 16 = 0 then 0x800FFFFFFFFFF000 else 0x000FFFFFFFFFF000
      if off % 16 = 0 then { s with secBase := smSet 0 s.secBase n (value &&& mask) }
      else { s with secLimit := smSet 0 s.secLimit n (value &&& mask) }
    else if 0x1000 ≤ off && off < 0x9000 then writePartReg s (off / 0x1000 - 1) (off % 0x1000) value
    else s)

/-- CTL as read. -/
def ctlWord (q : Part) : Word :=
  BitVec.ofNat 64 (q.rsv + (if q.world then 8 else 0) + (if q.bothw then 16 else 0) + q.asid * 2 ^ 5)

/-- The code of MG_PSWAP as read (R357). -/
def pswapCode : Pswap → Nat
  | .running => 0
  | .stopping => 1
  | .halted => 2
  | .exchanging => 3

/-- A register of a partition's block as read. -/
def readPartReg (q : Part) (off : Nat) : Word :=
  match off with
  | 0x00 => q.clmap.extractLsb' 0 64
  | 0x08 => q.clmap.extractLsb' 64 64
  | 0x10 => q.clmap.extractLsb' 128 64
  | 0x18 => q.clmap.extractLsb' 192 64
  | 0x20 => ctlWord q
  | 0x28 => q.rtbase
  | 0x30 => q.rtlen
  | 0x38 => q.ptroot
  | 0x40 => q.tlbva
  | 0x58 => q.traph
  | 0x60 => BitVec.ofNat 64 (pswapCode q.pswap)
  | 0x68 => q.cwsbase
  | 0x70 => q.cwslen
  | 0x78 => q.snap
  | 0x80 => q.snapTgt
  | 0x88 => q.pwr
  | 0x90 => q.hbase
  | 0x98 => q.privbase
  | 0xA0 => q.privstride
  | _ => 0

/-- MG_STEPSET. -/
def stepsetWord (s : State) : Word :=
  BitVec.ofNat 64 ((List.range 4).foldl (fun a d => a + (dieOf s d).stepset.toNat * 2 ^ (16 * d)) 0)

/-- A register that a read changes in no way; the others have rows of their own. -/
def mgWord (s : State) (off : Nat) : Word :=
  if off = 0x08 then stepsetWord s
  else if off = 0x10 then s.errlog
  else if off = 0x18 then BitVec.ofNat 64 s.errIdx
  else if off = 0x20 then s.mbox
  else if 0x100 ≤ off && off < 0x200 then
    (if off % 16 = 0 then smGet 0 s.secBase ((off - 0x100) / 16) else smGet 0 s.secLimit ((off - 0x100) / 16))
  else if 0x1000 ≤ off && off < 0x9000 then readPartReg (partOf s (off / 0x1000 - 1)) (off % 0x1000)
  else 0

/-! ## Exchange, halt, resume (R163, R353) -/

/-- The core's region is gated, and its waves stop when it has drained; a region that has not begun goes, and every wave
stops now (R160, R163). -/
def stopCore (s : State) (c : Nat) : State :=
  match regionOf s c with
  | none => preemptCore s c
  | some r =>
    if r.st = .placing || r.st = .parking then
      let s := dropRegion s c
      let cyc := (coreOf s c).cycle
      preemptCore (onSlotOf s c r.wslot r.x (fun t => { t with st := .eligible, wait := .none, rcd := 0, ready := cyc })) c
    else if r.gate = .none || r.gate = .quantum then
      setRegion s c { r with st := if r.st = .running then .gated else r.st, gate := .preempt }
    else s

/-- Steps 1 to 3 of R163: nothing of the partition is placed, launched or moved on, and its waves stop with STOP 1. -/
def stopPart (s : State) (p : Nat) (exch : Bool) : State :=
  let s := onPart s p (fun q => { q with pswap := .stopping, exch := exch, toResume := [] })
  ((s.cores.map (fun q => q.1)).filter (fun c => corePart s c = p)).foldl stopCore s

/-- EXCHANGE (R163): the steps begin; a halted partition goes on with step 5. -/
def execExchange (part : Nat) (s : State) : Host.Outcome State Fault Refusal :=
  .next (
    if 8 ≤ part then s
    else if (partOf s part).pswap = .running then stopPart s part true
    else if (partOf s part).pswap = .halted then onPart s part (fun q => { q with exch := true, exchAt := s.now })
    else s)

/-- HALT (R353). -/
def execHalt (part : Nat) (s : State) : Host.Outcome State Fault Refusal :=
  .next (if part < 8 && (partOf s part).pswap = .running then stopPart s part false else s)

/-- Every core of the partition has stopped: no region, every wave HALTED. -/
def partStopped (s : State) (p : Nat) : Bool :=
  s.cores.all (fun q => corePart s q.1 ≠ p || (q.2.region.isNone && (wavesOf q.2).all (fun w => w.2.halted)))

/-- PSWAP_HALTED (R163): step 4, and the start of step 5 where an exchange was asked for, which ends within 1.0 µs of the last
core's report (R17). -/
def execPswapHalted (part : Nat) (s : State) : Host.Outcome State Fault Refusal :=
  .next (
    let q := partOf s part
    if 8 ≤ part then s
    else if q.pswap = .stopping && partStopped s part then onPart s part (fun q => { q with pswap := .halted, exchAt := s.now })
    else if q.pswap = .halted && q.exch then onPart s part (fun q => { q with pswap := .exchanging })
    else s)

/-- A wave of a context that goes on (R163): after a pre-emption it resumes on its own frame; another is HALTED still, and
its delivery is made again. -/
def resumeWave (s : State) (c w : Nat) : State :=
  match waveOf s c w with
  | none => s
  | some v =>
    if !v.halted then s
    else
      match v.stop with
      | none => s
      | some q => if q.stop = 1 then (returnFrom s c w).1 else deliverStop s c w

/-- Waves that have still to go on do, but for those that a home makes wait: they go on later (R43, R130, R163). -/
def resumeRest (s : State) (p : Nat) : State :=
  ((partOf s p).toResume).foldl (fun s q => unlessHeld (fun s =>
    onPart (resumeWave s q.1 q.2) p (fun r => { r with toResume := r.toResume.filter (fun x => x ≠ q) })) s) s

/-- Step 6 of R163. -/
def resumePart (s : State) (p : Nat) : State :=
  let cores := (s.cores.map (fun q => q.1)).filter (fun c => corePart s c = p)
  let s := onPart s p (fun q => { q with
    pswap := .running, exch := false, toResume := cores.flatMap (fun c => (List.range 16).map (fun w => (c, w))) })
  resumeRest (cores.foldl (fun s c => onCore s c (fun k => { k with handlers := [] })) s) p

/-- RESUME (R353). -/
def execResume (part : Nat) (s : State) : Host.Outcome State Fault Refusal :=
  .next (if part < 8 && (partOf s part).pswap = .halted && !(partOf s part).exch then resumePart s part else s)

/-- A time of a context's local clock, as the clock of the core it comes to counts on from there. -/
def rebase (here ctx : Core) (t : Nat) : Nat := here.cycle + t - ctx.cycle

/-- A context as it comes to a core: the local clock and the power limit stay with the core, no L1 line comes with it, and bin
timers and the waiting times of tender streams count on in the core's cycles (R39). -/
def contextIn (here ctx : Core) : Core :=
  { ctx with bins := ctx.bins.map (fun b => { b with deadline := rebase here ctx b.deadline }),
             tenders := ctx.tenders.map (fun t => { t with since := rebase here ctx t.since }),
             cycle := here.cycle, due := here.due, tenderAt := here.cycle, kcRlim := here.kcRlim, rlSf := here.rlSf,
             rlMac := here.rlMac, rlWin := here.rlWin, l1 := [] }

/-- Step 5 of R163: every core of the partition exchanges its context with that core's standby context (R17). -/
def swapContexts (s : State) (p : Nat) : State :=
  (partCores s p).foldl (fun s c =>
    let here := coreOf s c
    let there := smGet Core.reset s.standby c
    if here = Core.reset && there = Core.reset then s
    else setCore { s with standby := smSet Core.reset s.standby c { here with l1 := [] } } c (contextIn here there)) s

/-- PSWAP_EXCHANGE_DONE (R163). -/
def execPswapExchangeDone (part : Nat) (s : State) : Host.Outcome State Fault Refusal :=
  .next (if part < 8 && (partOf s part).pswap = .exchanging then resumePart (swapContexts s part) part else s)

/-! ## Partition reset (R401) -/

/-- A wave ends without a handler and without a frame: what it had sent performs, the rest is withdrawn. -/
def discardWave (s : State) (c w : Nat) : State :=
  match waveOf s c w with
  | none => s
  | some v =>
    let s := carriageDiscard (carriageDiscard s (c, w, 0) false) (c, w, 1) false
    let s := (settleWave s c w v.uid).1
    setWave (endAccesses s (waveAccs s c w v.uid)) c w none

/-- Every command of a core completes with status ABORTED (R383). -/
def abortCommands (s : State) (c : Nat) : State :=
  (coreOf s c).cmds.foldl (fun s q => abortCmd s c q.id) s

/-- Steps 3 and 6 for a core: all it holds is gone and every register is 0 but the cycle counter. -/
def clearCore (k : Core) : Core :=
  { Core.reset with cycle := k.cycle, kcCplq := 0, kcBintmr := 0, due := k.due, tenderAt := k.cycle, rlWin := k.rlWin }

/-- The launches of a partition that have not completed fail (R401, R392), each for the cause it had or SOFT_TRAP. -/
def failPending (s : State) (p : Nat) : State :=
  (s.launches.filter (fun l => l.part = p && l.st ≠ .complete)).foldl (fun s l =>
    reportFailed s { l with cause := if l.st = .failed then l.cause else causeSoftTrap }) s

/-- RESETP (R401). -/
def execResetp (part : Nat) (s : State) : Host.Outcome State Fault Refusal :=
  .next (
    if 8 ≤ part then s else
    let cores := (s.cores.map (fun q => q.1)).filter (fun c => corePart s c = part)
    let s := cores.foldl (fun s c => (List.range 16).foldl (fun s w => discardWave s c w) s) s
    let s := cores.foldl abortCommands s
    let s := cores.foldl (fun s c => onCore s c clearCore) s
    let s := (s.waking.filter (fun r => r.part = part)).foldl (fun s r => cellFail s r causeSoftTrap 0xFFFF 0) s
    let s := failPending s part
    let s := { s with cut := s.cut.bind (fun c => if c.part = part then none else some c),
                      lowerReqs := s.lowerReqs.filter (fun q => q.part ≠ part) }
    onPart s part (fun q =>
      { q with pswap := .running, exch := false, toResume := [], snapPages := if q.snapState = 1 then [] else q.snapPages,
               snapFault := if q.snapState = 1 then causeSoftTrap else q.snapFault,
               snapState := if q.snapState = 1 then 3 else q.snapState }))

/-! ## The mailbox (R146, R156, R157, R353) -/

/-- Why the own cells of a wave that is ended fail (R146). -/
def endWhy (v : Wave) : BitVec 8 × Nat × Nat :=
  match v.stop with
  | some q => if q.stop = 1 then (causeSoftTrap, 0xFFFF, 0) else (q.cause, q.blk, q.rcd)
  | none => (causeSoftTrap, 0xFFFF, 0)

/-- The region of a wave that is ended is discarded. -/
def endRegion (s : State) (c w : Nat) : State :=
  match regionOf s c with
  | some r => if r.wslot = w then dropRegion (discardIters s c (fun _ => true)) c else s
  | none => s

/-- MAILBOX_END_WAVE (R146, R156). -/
def execMailboxEndWave (core wslot : Nat) (s : State) : Host.Outcome State Fault Refusal :=
  .next (match waveOf s core wslot with
    | none => s
    | some v =>
      let s := endRegion s core wslot
      let s := carriageDiscard (carriageDiscard s (core, wslot, 0) false) (core, wslot, 1) false
      let s := (settleWave s core wslot v.uid).1
      let s := endAccesses s (waveAccs s core wslot v.uid)
      let s := onWave s core wslot (fun v => { v with halted := false, stop := none, replay := [] })
      let s := endWaveLanes s core wslot 0xFFFFFFFF (endWhy v)
      match waveOf s core wslot with
      | some u => if u.uid = v.uid then retireWave s core wslot else s
      | none => s)

/-- MAILBOX_TRET (R157): as SYS.tret; no wave issues it, so a damaged frame only leaves the wave HALTED. -/
def execMailboxTret (core wslot : Nat) (s : State) : Host.Outcome State Fault Refusal :=
  .next (match waveOf s core wslot with
    | none => s
    | some v => if v.halted && partRuns s v.part then (returnFrom s core wslot).1 else s)

/-- MAILBOX_READ_CONTEXT (R353): the context of a core of a halted partition. -/
def execMailboxReadContext (core : Nat) (s : State) : Host.Outcome State Fault Refusal :=
  .next (if (partOf s (corePart s core)).pswap = .halted then { s with mboxCtx := smSet Core.reset s.mboxCtx core (coreOf s core) }
    else s)

/-- An evaluation's own cell where the target partition maps it. -/
def rehomeEval (s : State) (p : Nat) (e : EvalInfo) : EvalInfo :=
  match leafOf s p e.va with
  | some l => (match leafPlace l e.va with
    | .dev pa => { e with pa := pa }
    | _ => e)
  | none => e

/-- A task record in the target partition. -/
def rehomeRec (s : State) (p : Nat) (t : TaskRec) : TaskRec := { t with ev := t.ev.map (rehomeEval s p) }

/-- A scratchpad window address of a core, as one of another (R81, R379). -/
def rehomeWindow (src dst : Nat) (a : Word) : Word :=
  if a.toNat / 2 ^ 56 = 0x81 && a.toNat / 2 ^ 36 % 2 ^ 12 = src then a - BitVec.ofNat 64 (src * 2 ^ 36) + BitVec.ofNat 64 (dst * 2 ^ 36)
  else a

/-- A bound stream of core `src`, as core `dst` holds it: its binding names the new core (R379). -/
def rehomeStream (src dst : Nat) (t : Stream) : Stream :=
  { t with base := rehomeWindow src dst t.base, waiting := t.waiting.map (fun q => if q.1 = src then (dst, q.2) else q) }

/-- A context of core `src` as core `dst` of the target partition holds it: what it holds as core state names the new core
(R379). -/
def rehomeCore (s : State) (p src dst : Nat) (k : Core) : Core :=
  { k with streams := k.streams.map (fun q => (q.1, q.2.map (rehomeStream src dst))),
           waves := k.waves.map (fun q => (q.1, q.2.map (fun v =>
             { v with part := p, evals := v.evals.map (fun e => (e.1, rehomeEval s p e.2)) }))),
           bins := k.bins.map (fun b => { b with recs := b.recs.map (rehomeRec s p) }),
           stage := k.stage.map (rehomeRec s p),
           cmds := k.cmds.map (fun q => { q with part := p, dstCore := if q.dstCore = src then dst else q.dstCore }) }

/-- The mapped device addresses of a cell page of a partition, as (virtual, physical) of each WAKING cell that no record
stands for. -/
def lostWaking (s : State) (p : Nat) : List (Nat × Nat) :=
  (snapLeaves s p).flatMap (fun q =>
    let f := pteFrame q.2.val
    if !pteBit q.2.val 59 then []
    else (s.tags.filter (fun t => t.2 = 2 && f ≤ 8 * t.1 && 8 * t.1 < f + q.2.bytes && (wakingOf s (8 * t.1)).isNone)).map
      (fun t => (q.1 + (8 * t.1 - f), 8 * t.1)))

/-- The waking record of a WAKING cell of a restored image, and its slice's counter above its INST (R353). -/
def restoreWaking (s : State) (p : Nat) (q : Nat × Nat) : State :=
  let v := devNat s q.2 8
  let inst : W32 := BitVec.ofNat 32 v
  let sl := homeSlice q.2
  let r : WakeRec :=
    { pa := q.2, va := BitVec.ofNat 64 q.1, part := p, slice := v / 2 ^ 32 % 2 ^ 8, inst := inst, evix := v / 2 ^ 40,
      waiters := [], launches := [] }
  let ctr := smGet 0 s.wakeCtr sl
  { s with waking := s.waking ++ [r], wakeCtr := smSet 0 s.wakeCtr sl (if ctr.toNat ≤ inst.toNat then inst + 1 else ctr) }

/-- The die may run the code of every stepping of a context (R188, R353). -/
def stepsHeld (s : State) (c : Nat) (k : Core) : Bool :=
  let d := dieOf s (coreDie c)
  (wavesOf k).all (fun w => w.2.step = d.stepping || d.stepset.getLsbD w.2.step.toNat)

/-- Each WAKING cell of a partition's memory has its record again (R353). -/
def restoreRecords (s : State) (p : Nat) : State := (lostWaking s p).foldl (fun s q => restoreWaking s p q) s

/-- MAILBOX_RESTORE_CONTEXT (R353): the context that was read of core `src` comes to core `dst` of a halted partition; each
WAKING cell of its memory has its record again. Suspended commands that it displaces end through the mailbox, and so complete
with status ABORTED (R383). -/
def execMailboxRestoreContext (part src dst : Nat) (s : State) : Host.Outcome State Fault Refusal :=
  .next (
    let k := smGet Core.reset s.mboxCtx src
    if 8 ≤ part || corePart s dst ≠ part || (partOf s part).pswap ≠ .halted || !stepsHeld s dst k then s
    else
      let s := abortCommands (restoreRecords s part) dst
      setCore s dst (contextIn (coreOf s dst) (rehomeCore s part src dst k)))

/-- A context that was read on another device (R353). -/
def loadContext (s : State) (n : Nat) (k : Core) : State := { s with mboxCtx := smSet Core.reset s.mboxCtx n k }

/-- Part of a memory image is restored onto a halted partition, the tags of its cell pages with it (R353): `tags` from the
first cell on. -/
def restorePage (s : State) (p : Nat) (va : Word) (data : List Byte) (tags : List (BitVec 2)) : State :=
  if 8 ≤ p || (partOf s p).pswap ≠ .halted || va.toNat % 8 ≠ 0 then s
  else
    restoreRecords ((lineChunks (data.length / 64 + 2) va.toNat data.length).foldl (fun s c =>
      let a := BitVec.ofNat 64 c.1
      match leafOf s p a with
      | none => s
      | some l =>
        match leafPlace l a with
        | .dev pa =>
          let s := placeWrite s (hostWriter p) (.dev pa) ((data.drop (c.1 - va.toNat)).take c.2)
          if pteBit l.val 59 then
            (List.range (c.2 / 8)).foldl (fun s i =>
              { s with tags := smSet 0 s.tags (pa / 8 + i) (tags.getD ((c.1 - va.toNat) / 8 + i) 0) }) s
          else s
        | _ => s) s) p

/-! ## Firmware, attestation, bring-up (R355, R356, R400) -/

/-- FIRMWARE_VERIFY (R356): an image whose signature fails is not run, and the previous one stays. -/
def execFirmwareVerify (slot : Nat) (image signature : List Byte) (s : State) : Host.Outcome State Fault Refusal :=
  .next (if Config.signatureOk s.fusedKey image signature then { s with fwImages := smSet [] s.fwImages slot image }
    else { s with fwFail := true })

/-- The value of a register of a partition's block (R357), those with rows of their own too. -/
def partValue (s : State) (p off : Nat) : Word :=
  match off with
  | 0x48 => if (partOf s p).tlbinv.any (fun q => rangeInUse s q.1 q.2 p) then 1 else 0
  | 0x50 => (partOf s p).modWord
  | _ => readPartReg (partOf s p) off

/-- What an attestation holds (R356): the nonce, the digests, the steppings and MG_STEPSET, every MG_P(p), the ranges. -/
def attestBody (s : State) (nonce : List Byte) : List Byte :=
  nonce ++ s.fwImages.flatMap (fun q => Config.sha256 q.2)
    ++ (List.range 4).flatMap (fun d => leBytes 1 (dieOf s d).stepping.toNat) ++ leBytes 8 (stepsetWord s).toNat
    ++ (List.range 8).flatMap (fun p => (List.range 21).flatMap (fun i => leBytes 8 (partValue s p (8 * i)).toNat))
    ++ (List.range 32).flatMap (fun i => leBytes 8 (mgWord s (0x100 + 8 * i)).toNat)

/-- ATTESTATION_REQUEST (R356): a nonce is 32 bytes; the reply is signed. -/
def execAttestationRequest (nonce : List Byte) (s : State) : Host.Outcome State Fault Refusal :=
  .next (if nonce.length ≠ 32 then s
    else
      let b := attestBody s nonce
      { s with attest := s.attest ++ [b ++ Config.sign b] })

/-- A stack of HBM4E fails training: bring-up stays at stage 0 (R400). -/
def stackFails (s : State) (n : Nat) : State :=
  if s.stage = 0 && n < 12 && !s.stacksFailed.contains n then { s with stacksFailed := s.stacksFailed ++ [n] } else s

/-- Die 0 passes: reduced service on it (R355), once a firmware image has been verified and with every stack of HBM4E (R400). -/
def firstDie (s : State) : State :=
  if s.stage = 0 && s.fwImages ≠ [] && s.stacksFailed = [] then onDie { s with stage := 1 } 0 (fun d => { d with joined := true, mhz := 1000 }) else s

/-- Every die has joined: full service, every die at 4.0 GHz (R355). -/
def fullService (s : State) : State :=
  if s.stage = 2 && (List.range 4).all (fun d => (dieOf s d).joined) then
    onDie { s with stage := 3 } 0 (fun d => { d with mhz := 4000 })
  else s

/-- DIE_SELFTEST (R355, R400). -/
def execDieSelftest (die : Nat) (pass : Bool) (s : State) : Host.Outcome State Fault Refusal :=
  .next (
    if 4 ≤ die || (dieOf s die).joined || (dieOf s die).failed || (die ≠ 0 && s.stage = 0) then s
    else if !pass then
      let s := onDie s die (fun d => { d with failed := true })
      if die ≠ 0 && s.stage = 1 then { s with stage := 2 } else s
    else if die = 0 then firstDie s
    else
      let s := onDie s die (fun d => { d with joined := true, mhz := 4000 })
      fullService (if s.stage = 1 then { s with stage := 2 } else s))

/-- DEVICE_RESET (R355): bring-up starts at stage 0. What is no state of the device stays: host memory, the peers, its
fuses, its number and the steppings of its dies, and the model's own agenda and free counter. -/
def execDeviceReset (s : State) : Host.Outcome State Fault Refusal :=
  .next { State.reset with
    fusedKey := s.fusedKey, devno := s.devno, hmem := s.hmem, fmem := s.fmem, atsFail := s.atsFail, hostData := s.hostData,
    hostPoison := s.hostPoison, hostWord := s.hostWord, msix := s.msix, attest := s.attest, freeCtr := s.freeCtr, agenda := s.agenda,
    dies := State.reset.dies.zipIdx.map (fun q => { q.1 with stepping := (dieOf s q.2).stepping, stepset := (dieOf s q.2).stepset }) }

/-! ## Ports, links, clocks (R13, R345, R394, R396) -/

/-- FABRIC_PORT_DOWN (R394, R396): logged as found by the fabric's row. -/
def execFabricPortDown (port : Nat) (s : State) : Host.Outcome State Fault Refusal :=
  .next (if 36 ≤ port || !s.ports.getLsbD port then s
    else logEvent { s with ports := s.ports &&& ~~~(BitVec.ofNat 36 (2 ^ port)) } 3 causeIntegrity 0xFF 6 port 0 5)

/-- LINK_TRAINING (R345). -/
def execLinkTraining (cxlCache cxlMem : Bool) (s : State) : Host.Outcome State Fault Refusal :=
  .next { s with cxlCache := cxlCache, cxlMem := cxlMem }

/-- The nominal clock of a die (R13, R355): 1.0 GHz for die 0 below full service. -/
def nominalMhz (s : State) (d : Nat) : Nat := if d = 0 && s.stage < 3 then 1000 else 4000

/-- CLOCK_CHANGE (R13): either clock, up to its nominal frequency. -/
def execClockChange (die : Option Nat) (mhz : Nat) (s : State) : Host.Outcome State Fault Refusal :=
  .next (match die with
    | none => if 0 < mhz && mhz ≤ 2000 then { s with fabricMhz := mhz } else s
    | some d => if d < 4 && 0 < mhz && mhz ≤ nominalMhz s d then onDie s d (fun q => { q with mhz := mhz }) else s)

end Sys2Proof.Machine
end

