-- ==== Sys2Proof/Machine/Dispatch.lean ====
section
/-! DEFINITION. The meaning of every constructor of `Instr`, one arm each. -/

namespace Sys2Proof.Machine

/-- One instruction or step of the device, at a state. -/
def exec (i : Instr) (s : State) : Host.Outcome State Fault Refusal :=
  match i with
  | .nop r => Sys2Proof.Machine.execNop r s
  | .iadd r => Sys2Proof.Machine.execIadd r s
  | .isub r => Sys2Proof.Machine.execIsub r s
  | .imul r => Sys2Proof.Machine.execImul r s
  | .imad r => Sys2Proof.Machine.execImad r s
  | .idiv r => Sys2Proof.Machine.execIdiv r s
  | .imin r => Sys2Proof.Machine.execImin r s
  | .imax r => Sys2Proof.Machine.execImax r s
  | .iabs r => Sys2Proof.Machine.execIabs r s
  | .and r => Sys2Proof.Machine.execAnd r s
  | .or r => Sys2Proof.Machine.execOr r s
  | .xor r => Sys2Proof.Machine.execXor r s
  | .andn r => Sys2Proof.Machine.execAndn r s
  | .shl r => Sys2Proof.Machine.execShl r s
  | .shr r => Sys2Proof.Machine.execShr r s
  | .fshf r => Sys2Proof.Machine.execFshf r s
  | .bcnt r => Sys2Proof.Machine.execBcnt r s
  | .bfx r => Sys2Proof.Machine.execBfx r s
  | .icmp r => Sys2Proof.Machine.execIcmp r s
  | .sel r => Sys2Proof.Machine.execSel r s
  | .lea r => Sys2Proof.Machine.execLea r s
  | .mov r => Sys2Proof.Machine.execMov r s
  | .fadd r => Sys2Proof.Machine.execFadd r s
  | .fsub r => Sys2Proof.Machine.execFsub r s
  | .fmul r => Sys2Proof.Machine.execFmul r s
  | .ffma r => Sys2Proof.Machine.execFfma r s
  | .fmin r => Sys2Proof.Machine.execFmin r s
  | .fmax r => Sys2Proof.Machine.execFmax r s
  | .fsgn r => Sys2Proof.Machine.execFsgn r s
  | .fcmp r => Sys2Proof.Machine.execFcmp r s
  | .fcls r => Sys2Proof.Machine.execFcls r s
  | .frnd r => Sys2Proof.Machine.execFrnd r s
  | .fscl r => Sys2Proof.Machine.execFscl r s
  | .cvt r => Sys2Proof.Machine.execCvt r s
  | .pack r => Sys2Proof.Machine.execPack r s
  | .unpk r => Sys2Proof.Machine.execUnpk r s
  | .dotp r => Sys2Proof.Machine.execDotp r s
  | .sfn r => Sys2Proof.Machine.execSfn r s
  | .rowmax r => Sys2Proof.Machine.execRowmax r s
  | .rowsum r => Sys2Proof.Machine.execRowsum r s
  | .smax r => Sys2Proof.Machine.execSmax r s
  | .rmsn r => Sys2Proof.Machine.execRmsn r s
  | .shfl r => Sys2Proof.Machine.execShfl r s
  | .vote r => Sys2Proof.Machine.execVote r s
  | .redl r => Sys2Proof.Machine.execRedl r s
  | .scnl r => Sys2Proof.Machine.execScnl r s
  | .gets r => Sys2Proof.Machine.execGets r s
  | .unif r => Sys2Proof.Machine.execUnif r s
  | .keep r => Sys2Proof.Machine.execKeep r s
  | .bysw r => Sys2Proof.Machine.execBysw r s
  | .br r => Sys2Proof.Machine.execBr r s
  | .brc r => Sys2Proof.Machine.execBrc r s
  | .join r => Sys2Proof.Machine.execJoin r s
  | .loop r => Sys2Proof.Machine.execLoop r s
  | .call r => Sys2Proof.Machine.execCall r s
  | .calli r => Sys2Proof.Machine.execCalli r s
  | .stubBind core slot => Sys2Proof.Machine.execStubBind core slot s
  | .ret r => Sys2Proof.Machine.execRet r s
  | .exit r => Sys2Proof.Machine.execExit r s
  | .yield r => Sys2Proof.Machine.execYield r s
  | .trap r => Sys2Proof.Machine.execTrap r s
  | .brk r => Sys2Proof.Machine.execBrk r s
  | .feat r => Sys2Proof.Machine.execFeat r s
  | .ld r => Sys2Proof.Machine.execLd r s
  | .st r => Sys2Proof.Machine.execSt r s
  | .ldb r => Sys2Proof.Machine.execLdb r s
  | .stb r => Sys2Proof.Machine.execStb r s
  | .atom r => Sys2Proof.Machine.execAtom r s
  | .atmf r => Sys2Proof.Machine.execAtmf r s
  | .fence r => Sys2Proof.Machine.execFence r s
  | .fenceEng r => Sys2Proof.Machine.execFenceEng r s
  | .spct r => Sys2Proof.Machine.execSpct r s
  | .spcc r => Sys2Proof.Machine.execSpcc r s
  | .pfd r => Sys2Proof.Machine.execPfd r s
  | .pfi r => Sys2Proof.Machine.execPfi r s
  | .cellMake r => Sys2Proof.Machine.execCellMake r s
  | .cellSet r => Sys2Proof.Machine.execCellSet r s
  | .cellTag r => Sys2Proof.Machine.execCellTag r s
  | .cellPeek r => Sys2Proof.Machine.execCellPeek r s
  | .rqry r => Sys2Proof.Machine.execRqry r s
  | .barWait r => Sys2Proof.Machine.execBarWait r s
  | .barArrive r => Sys2Proof.Machine.execBarArrive r s
  | .bexp r => Sys2Proof.Machine.execBexp r s
  | .spawnTask r => Sys2Proof.Machine.execSpawnTask r s
  | .spawnLaunch r => Sys2Proof.Machine.execSpawnLaunch r s
  | .waitAny r => Sys2Proof.Machine.execWaitAny r s
  | .waitAll r => Sys2Proof.Machine.execWaitAll r s
  | .waitFirst r => Sys2Proof.Machine.execWaitFirst r s
  | .waitRing r => Sys2Proof.Machine.execWaitRing r s
  | .tagsRead r => Sys2Proof.Machine.execTagsRead r s
  | .tagsClr r => Sys2Proof.Machine.execTagsClr r s
  | .send r => Sys2Proof.Machine.execSend r s
  | .copy r => Sys2Proof.Machine.execCopy r s
  | .publ r => Sys2Proof.Machine.execPubl r s
  | .spop r => Sys2Proof.Machine.execSpop r s
  | .srel r => Sys2Proof.Machine.execSrel r s
  | .mma r => Sys2Proof.Machine.execMma r s
  | .mmas r => Sys2Proof.Machine.execMmas r s
  | .mtile r => Sys2Proof.Machine.execMtile r s
  | .ldq r => Sys2Proof.Machine.execLdq r s
  | .msty r => Sys2Proof.Machine.execMsty r s
  | .mzy r => Sys2Proof.Machine.execMzy r s
  | .tmeet r => Sys2Proof.Machine.execTmeet r s
  | .tenderLoop r => Sys2Proof.Machine.execTenderLoop r s
  | .tenderSwitch r => Sys2Proof.Machine.execTenderSwitch r s
  | .couple r => Sys2Proof.Machine.execCouple r s
  | .uncpl r => Sys2Proof.Machine.execUncpl r s
  | .chase r => Sys2Proof.Machine.execChase r s
  | .sysTret r => Sys2Proof.Machine.execSysTret r s
  | .sysSnap r => Sys2Proof.Machine.execSysSnap r s
  | .sysSnapq r => Sys2Proof.Machine.execSysSnapq r s
  | .sysCfg r => Sys2Proof.Machine.execSysCfg r s
  | .sysDbgset r => Sys2Proof.Machine.execSysDbgset r s
  | .sysHaltq r => Sys2Proof.Machine.execSysHaltq r s
  | .win m woff ub => Sys2Proof.Machine.execWin m woff ub s
  | .dlit m p => Sys2Proof.Machine.execDlit m p s
  | .dspl m k => Sys2Proof.Machine.execDspl m k s
  | .fetchMarker cause => Sys2Proof.Machine.execFetchMarker cause s
  | .handlerPlace core wslot => Sys2Proof.Machine.execHandlerPlace core wslot s
  | .accessPerformed id damage => Sys2Proof.Machine.execAccessPerformed id damage s
  | .walkComplete part va => Sys2Proof.Machine.execWalkComplete part va s
  | .evalRecordMove src bin dst => Sys2Proof.Machine.execEvalRecordMove src bin dst s
  | .carriageCommit core slot => Sys2Proof.Machine.execCarriageCommit core slot s
  | .dequePop core => Sys2Proof.Machine.execDequePop core s
  | .binTimerExpiry core bin => Sys2Proof.Machine.execBinTimerExpiry core bin s
  | .binLaunch core bin => Sys2Proof.Machine.execBinLaunch core bin s
  | .steal thief victim => Sys2Proof.Machine.execSteal thief victim s
  | .launchReady launch => Sys2Proof.Machine.execLaunchReady launch s
  | .blockPlace launch core => Sys2Proof.Machine.execBlockPlace launch core s
  | .launchReserve launch core => Sys2Proof.Machine.execLaunchReserve launch core s
  | .configSwap launch core => Sys2Proof.Machine.execConfigSwap launch core s
  | .blockRetire core block => Sys2Proof.Machine.execBlockRetire core block s
  | .launchComplete launch => Sys2Proof.Machine.execLaunchComplete launch s
  | .engineComplete core cmd damage => Sys2Proof.Machine.execEngineComplete core cmd damage s
  | .sendArrive core cmd => Sys2Proof.Machine.execSendArrive core cmd s
  | .publish core cmd => Sys2Proof.Machine.execPublish core cmd s
  | .shadowWriteIssue core cmd => Sys2Proof.Machine.execShadowWriteIssue core cmd s
  | .couplePlacementDone core placement => Sys2Proof.Machine.execCouplePlacementDone core placement s
  | .parkingQuiet core => Sys2Proof.Machine.execParkingQuiet core s
  | .stationFire core station => Sys2Proof.Machine.execStationFire core station s
  | .coupleQuantumExpiry core => Sys2Proof.Machine.execCoupleQuantumExpiry core s
  | .coupleStill core => Sys2Proof.Machine.execCoupleStill core s
  | .regionDrained core => Sys2Proof.Machine.execRegionDrained core s
  | .loweringComplete die request => Sys2Proof.Machine.execLoweringComplete die request s
  | .sinterEvict die entry => Sys2Proof.Machine.execSinterEvict die entry s
  | .snapMarkArrive slice => Sys2Proof.Machine.execSnapMarkArrive slice s
  | .snapTokenReturn slice => Sys2Proof.Machine.execSnapTokenReturn slice s
  | .snapStreamComplete part => Sys2Proof.Machine.execSnapStreamComplete part s
  | .rlimWindow core => Sys2Proof.Machine.execRlimWindow core s
  | .hostBar0Read part off size => Sys2Proof.Machine.execHostBar0Read part off size s
  | .hostBar0Write part off data => Sys2Proof.Machine.execHostBar0Write part off data s
  | .touch part addr => Sys2Proof.Machine.execTouch part addr s
  | .mkpay part payload => Sys2Proof.Machine.execMkpay part payload s
  | .pktag part => Sys2Proof.Machine.execPktag part s
  | .touchStatusRead part => Sys2Proof.Machine.execTouchStatusRead part s
  | .msiXUnmask part vec => Sys2Proof.Machine.execMsiXUnmask part vec s
  | .mgTlbinv part access => Sys2Proof.Machine.execMgTlbinv part access s
  | .mgModver part access => Sys2Proof.Machine.execMgModver part access s
  | .moduleVerified part => Sys2Proof.Machine.execModuleVerified part s
  | .exchange part => Sys2Proof.Machine.execExchange part s
  | .halt part => Sys2Proof.Machine.execHalt part s
  | .resume part => Sys2Proof.Machine.execResume part s
  | .pswapHalted part => Sys2Proof.Machine.execPswapHalted part s
  | .pswapExchangeDone part => Sys2Proof.Machine.execPswapExchangeDone part s
  | .mgPartitionConfig part off value => Sys2Proof.Machine.execMgPartitionConfig part off value s
  | .mgStatus => Sys2Proof.Machine.execMgStatus s
  | .mgRegisterWrite off value => Sys2Proof.Machine.execMgRegisterWrite off value s
  | .resetp part => Sys2Proof.Machine.execResetp part s
  | .mailboxEndWave core wslot => Sys2Proof.Machine.execMailboxEndWave core wslot s
  | .mailboxTret core wslot => Sys2Proof.Machine.execMailboxTret core wslot s
  | .mailboxReadContext core => Sys2Proof.Machine.execMailboxReadContext core s
  | .attestationRequest nonce => Sys2Proof.Machine.execAttestationRequest nonce s
  | .firmwareVerify slot image signature => Sys2Proof.Machine.execFirmwareVerify slot image signature s
  | .dieSelftest die pass => Sys2Proof.Machine.execDieSelftest die pass s
  | .deviceReset => Sys2Proof.Machine.execDeviceReset s
  | .fabricPortDown port => Sys2Proof.Machine.execFabricPortDown port s
  | .linkTraining cxlCache cxlMem => Sys2Proof.Machine.execLinkTraining cxlCache cxlMem s
  | .clockChange die mhz => Sys2Proof.Machine.execClockChange die mhz s
  | .fabricPeerAccess port addr op => Sys2Proof.Machine.execFabricPeerAccess port addr op s
  | .mailboxRestoreContext part src dst => Sys2Proof.Machine.execMailboxRestoreContext part src dst s

end Sys2Proof.Machine
end

