-- ==== Sys2Proof/Machine/Issue.lean ====
section
/-! DEFINITION. One turn of the machine: which slot issues (R24, R50), what it issues and what holds it back (R151, R155,
R201 to R206, R354), comparators (R161, R162), poisoned registers (R396), illegal words (R366), serial carriages (R43), the
tender's turn (R307), and the turns of the device and of the world outside. Which agent moves is the agenda's choice; with
an empty agenda the device takes its next internal step in a fixed order (log entry 5). -/

namespace Sys2Proof.Machine

/-! ## What a slot issues next -/

/-- The lanes of a replay entry that are still to run (R159, R361). -/
def entryLanes (v : Wave) (e : Replay) : W32 :=
  let live := e.lanes &&& liveLanes v
  if isWaveScope e.ins then (if e.done &&& e.lanes = e.lanes then 0 else live) else live &&& ~~~e.done

/-- The entry kept for the record a carriage stands at (R152). -/
def keptEntry (v : Wave) (x : Nat) : Option Replay :=
  let t := slotOf v x
  v.replay.find? (fun e => e.car && e.x = x && e.blk = t.blk && e.rcd = t.rcd && t.car.isSome)

/-- The index of the word of explicit code that a slot issues next. -/
def dieIndex (e : SEntry) (t : Slot) : Option Nat :=
  if e.code = [] then none else some (nextWord e.code 16 (t.dieAt.getD (e.map.getD t.rcd 0)))

/-- What a slot of a wave issues next. -/
inductive NextIssue where
  /-- The word at its position, the issue it makes, and its place in explicit code. -/
  | word (i : Instr) (cur : Issue) (at' : Option Nat)
  /-- A replay entry. -/
  | entry (e : Replay)
  | illegal
  /-- The run has no further word. -/
  | runEnds
  /-- Its Sinter entry is not in the store (R187). -/
  | missing
  /-- Entries of the sibling go first (R159). -/
  | blocked
  deriving DecidableEq, Repr

/-- What slot `x` of a wave issues next. -/
def nextIssue (s : State) (c w x : Nat) (v : Wave) (defer : Bool) : NextIssue :=
  match headEntry v v.replay with
  | some e => if entrySlot v e = x then .entry e else .blocked
  | none =>
    let t := slotOf v x
    match slotCode s c v t with
    | none => .missing
    | some e =>
      let t := if e.code = [] then { t with dieAt := none } else t
      match wordAt s c e v t with
      | .illegal => .illegal
      | .ends => .runEnds
      | .ins i f n =>
        let nxt := dieNext e n
        .word i { issueOf c w x e t f t.mask none defer with next := nxt, ends := completes e t.rcd nxt } (dieIndex e t)

/-- The Sinter entry of the block of a replay entry. -/
def entryCode (s : State) (c : Nat) (v : Wave) (e : Replay) : Option SEntry :=
  slotEntry s c v { slotOf v e.x with blk := e.blk, baddr := blockAddr v e.blk }

/-- The re-injection of an entry (R159): its accesses are performed before the next word issues. -/
def entryIssue (s : State) (c w : Nat) (v : Wave) (e : Replay) : Issue where
  who := .slot c w (entrySlot v e)
  lanes := entryLanes v e
  blk := e.blk
  rcd := e.rcd
  nrec := blockRecs v e.blk
  kind := blockKind v e.blk
  recs := if e.recs = [] then ((entryCode s c v e).map (fun q => q.recs)).getD [] else e.recs
  lits := ((entryCode s c v e).map (fun q => q.lits)).getD []
  form := e.form
  next := none
  ends := e.ends
  walk := match (slotOf v (entrySlot v e)).wait with
    | .walked _ r => some (v.part, r)
    | _ => none
  ops := some e
  replay := true
  defer := false

/-- The re-injected record reads a literal as its target, which its OPS do not hold. -/
def readsLiteral (i : Instr) : Bool :=
  match i.opRecord with
  | some (_, r) => [r.a, r.b, r.c].any (fun o => match o with
    | .lit _ => true
    | _ => false)
  | none => false

/-! ## What holds a slot back -/

/-- An operand names a value or a register that an access in flight has still to write (R203). -/
def operandPending (v : Wave) (mine : List Access) (rcd : Nat) (o : Opnd) : Bool :=
  match o with
  | .dist d => d ≠ 0 && mine.any (fun a => hasValue a.kind && a.rcd = rcd - d.toNat)
  | .keep n => mine.any (fun a => match a.kind with
    | .chase r _ => r = keepReg v n.toNat
    | .peek (some r) => r = keepReg v n.toNat
    | _ => false)
  | _ => false

/-- The word reads entries, streams or memory as it issues, and so after the slot's earlier acquires. -/
def readsAtIssue : Instr → Bool
  | .ldb _ | .stb _ | .rqry _ | .send _ | .copy _ | .publ _ | .waitRing _ | .spawnLaunch _ | .sysCfg _ | .sysTret _ => true
  | _ => false

/-- Some bytes of a place lie in a partition's resource table, under whatever address they were reached (R98). -/
def inTable (q : Part) (leaves : List (Nat × Leaf)) (pl : Place) (n : Nat) : Bool :=
  leaves.any (fun l => match leafOffset l.2 pl with
    | some off => decide (l.1 + off < q.rtbase.toNat + 64 * q.rtlen.toNat) && decide (q.rtbase.toNat < l.1 + off + n)
    | none => false)

/-- An access in flight that a read made at issue comes after: an acquire, a load that may wake a cell or wait on one (R114,
R127), a store of the thread into the resource table (R98). -/
def beforeLatch (s : State) (v : Wave) (a : Access) : Bool :=
  let q := partOf s v.part
  Order.acquires a.order || a.onCell || (a.cell && wakes a)
    || (a.kind.writes && q.rtlen ≠ 0 && (let ls := spaceLeaves s v.part; a.pieces.any (fun p => inTable q ls p.1 p.2)))

/-- MOV.hi reads the high bytes of the record before it. -/
def readsHigh (mine : List Access) (i : Instr) (rcd : Nat) : Bool :=
  match i with
  | .mov r => r.fn = 1 && mine.any (fun a => a.rcd + 1 = rcd)
  | _ => false

/-- Registers from `r` on that a name takes. -/
def nameRegs (r n : Nat) : List Nat := (List.range n).map (fun i => r + i)

/-- The registers that a die word reads or writes, and the uniform slots (R202, R208). -/
def wordNames (v : Wave) (t : Slot) (i : Instr) (f : Form) : List Nat × List Nat :=
  match i.opRecord with
  | none => ([], [])
  | some (op, r) =>
    let ops := [0, 1, 2].map (fun p => (recOpnd r p, if isCaptured op r.fn.toNat p (recOpnd r p) && !(readTy op r.ty r.fn r.b p).wide then 1 else 2))
    let regs := ops.flatMap (fun p => match p.1 with
      | .vreg n => nameRegs (v.winBase + 8 * t.woff.toNat + n.toNat) p.2
      | _ => [])
    let unis := ops.flatMap (fun p => match p.1 with
      | .ureg n => [(if t.ub then 128 else 0) + n.toNat]
      | _ => [])
    match namesResult op, f.dest with
    | true, .vreg n => (regs ++ nameRegs (f.win + n.toNat) (if r.ty = .kb then 4 else if (resTy op r.ty).wide then 2 else 1), unis)
    | true, .ureg n => (regs, n.toNat :: unis)
    | _, _ => (regs, unis)

/-- The registers that an access in flight has still to write, and the uniform slots. -/
def accessNames (a : Access) : List Nat × List Nat :=
  let own := match a.kind with
    | .chase r _ | .peek (some r) => nameRegs r 2
    | _ => []
  match hasValue a.kind, a.form.dest with
  | true, .vreg n => (nameRegs (a.form.win + n.toNat) (if a.size = 16 then 4 else if a.ty.wide then 2 else 1) ++ own, [])
  | true, .ureg n => (own, [n.toNat])
  | _, _ => (own, [])

/-- The instruction ends lanes, whose accesses perform before it issues. -/
def endsLanes : Instr → Bool
  | .exit _ => true
  | .dspl _ k => k.toNat = 2
  | _ => false

/-- A result is pending for a register or a uniform slot that a die word reads or writes. -/
def namesPending (v : Wave) (t : Slot) (mine : List Access) (i : Instr) (f : Form) : Bool :=
  let n := wordNames v t i f
  mine.any (fun a => let q := accessNames a; q.1.any (fun g => n.1.contains g) || q.2.any (fun g => n.2.contains g))

/-- The pacing word of the bundle that a word of explicit code stands in. -/
def paceWord (code : List W32) (i : Nat) : W32 := code.getD (i / 8 * 8) 0

/-- The bundle runs in the slot's own stepping: it is the die's, and the die is at full service (R207, R355). -/
def ownStepping (s : State) (c : Nat) (code : List W32) (i : Nat) : Bool :=
  (paceWord code i).toNat / 2 ^ 28 = (dieOf s (coreDie c)).stepping.toNat && fourBit s (coreDie c)

/-- WAIT of a word of explicit code (R202). -/
def waitBit (code : List W32) (i : Nat) : Bool := (paceWord code i).getLsbD (20 + i % 8)

/-- STALL of a word of explicit code (R202). -/
def stallOf (code : List W32) (i : Nat) : Nat := (paceWord code i).toNat / 2 ^ (3 * (i % 8) - 3) % 8

/-- A DLIT, whose WAIT and STALL are ignored (R202) and which takes no issue cycle (R201). -/
def isPrefix : Instr → Bool
  | .dlit .. => true
  | _ => false

/-- A word of explicit code waits for results (R202, R207, R208): in its own stepping where its WAIT bit says so, interlocked
always, for its own registers. One that ends lanes waits for every access of the slot. -/
def diePending (s : State) (c : Nat) (v : Wave) (t : Slot) (mine : List Access) (i : Instr) (f : Form) (code : List W32) (at' : Nat) :
    Bool :=
  endsLanes i
    || ((!ownStepping s c code at' || (waitBit code at' && !isPrefix i))
      && namesPending v t (mine.filter (fun a => hasValue a.kind)) i f)

/-- A record waits for values it reads; a record that leaves the block and the first of a run wait for every result, as the
code of a lowering does that sets M on the words that leave a block (R203). A store has no result. -/
def recordPending (v : Wave) (all : List Access) (i : Instr) (rcd : Nat) : Bool :=
  let mine := all.filter (fun a => hasValue a.kind)
  endsLanes i || (mine ≠ [] && (isControl i || rcd = 0)) || readsHigh mine i rcd || (match i.opRecord with
    | some (_, r) => [r.a, r.b, r.c].any (operandPending v mine rcd)
    | none => false)

/-- A word waits for results of its lanes in flight, or reads at issue what an earlier access of theirs comes before. -/
def resultsPending (s : State) (c w x : Nat) (v : Wave) (i : Instr) (cur : Issue) (at' : Option Nat) : Bool :=
  let mine := laneAccs s c w v x
  mine ≠ [] && ((readsAtIssue i && mine.any (beforeLatch s v))
    || (match at' with
      | some n => diePending s c v (slotOf v x) mine i cur.form (((slotCode s c v (slotOf v x)).map (fun e => e.code)).getD []) n
      | none => recordPending v mine i cur.rcd))

/-- A re-injected access is on its way: every word of the wave comes after it (R159). -/
def againInFlight (s : State) (c w : Nat) (v : Wave) : Bool := (waveAccs s c w v.uid).any (fun a => a.again)

/-- The word's replay entry would not fit beside those the wave may leave (R151, R155): of accesses in flight, of entries
still to be issued again, and of a parked word or fence of the sibling. -/
def replayFull (s : State) (c w x : Nat) (v : Wave) (i : Instr) : Bool :=
  let es := (entriesOfAccs (waveAccs s c w v.uid) ++ (pendingWord s c w (1 - x) v).toList).map (fun p => p.2) ++ v.replay
  16 ≤ es.length || 10240 < (es.map (fun e => replaySize e.opmap)).sum + replaySize (opmapOf i)

/-- Special-function and row words (R354). -/
def rowWord (i : Instr) : Bool :=
  match i.opRecord with
  | some (op, _) => 0x25 ≤ op && op ≤ 0x29
  | none => false

/-- The rate limiter admits the word in this window (R354). -/
def rowAdmits (k : Core) (i : Instr) : Bool := rowsAdmit k (if rowWord i then 1 else 0)

/-- A serial carriage that does not hold the token (R43). -/
def tokenMissing (s : State) (n : SlotName) (t : Slot) : Bool :=
  match t.car with
  | some car => car.serial && s.serial ≠ some n
  | none => false

/-- The slot's word has issued already, and goes on: after a walk, or a fence at the port (R104, R120). -/
def hasIssued (t : Slot) : Bool :=
  match t.wait with
  | .walked .. | .port _ => true
  | _ => false

/-- What keeps a slot that could issue from issuing; none where it goes on. -/
def holdOf (s : State) (c w x : Nat) (v : Wave) : Option Wait :=
  let t := slotOf v x
  if hasIssued t then none
  else if againInFlight s c w v then some .value
  else
    match nextIssue s c w x v false with
    | .missing => some .lower
    | .word i cur at' =>
      if tokenMissing s (c, w, x) t || resultsPending s c w x v i cur at' || replayFull s c w x v i
          || !rowAdmits (coreOf s c) i then some .value else none
    | .entry e =>
      if readsLiteral e.ins && (entryCode s c v e).isNone then some .lower
      else if !rowAdmits (coreOf s c) e.ins then some .value
      else none
    | _ => none

/-! ## Comparators (R161, R162) -/

/-- A match: the cause, the lanes, ADDR and CMP of the frame. -/
structure Match where
  cause : BitVec 8
  lanes : W32
  addr : Word
  cmp : Nat
  deriving DecidableEq, Repr

/-- The lowest PC comparator that names one of the records the word completes. -/
def pcMatch (k : Core) (v : Wave) (w blk : Nat) (ends : List Nat) (lanes : W32) : Option Match :=
  (List.range 8).findSome? (fun n =>
    let a := smGet 0 k.dbgPcA n
    let b := smGet 0 k.dbgPcB n
    let m := lanes &&& b.setWidth 32
    if a.getLsbD 63 && a.toNat % 2 ^ 57 = v.modl.toNat % 2 ^ 57 && b.toNat / 2 ^ 48 = blk
        && ends.contains (b.toNat / 2 ^ 36 % 2 ^ 12) && (a.getLsbD 62 || b.toNat / 2 ^ 32 % 16 = w) && m ≠ 0
    then some ⟨causeHaltPc, m, 0, n⟩ else none)

/-- The kind of an instruction's accesses, as KIND has it: bit 0 read, bit 1 write; and the bytes of one. -/
def accessKind (i : Instr) : Nat × Nat :=
  match i with
  | .ld r | .ldb r => (1, r.ty.memBytes)
  | .st r | .stb r => (2, r.ty.memBytes)
  | .atom r => (3, r.ty.memBytes)
  | .atmf r => (3, if r.ty.isFlt then r.ty.memBytes else 2 * r.ty.memBytes)
  | .chase _ | .cellPeek _ => (1, 8)
  | .cellMake _ | .cellSet _ | .cellTag _ => (2, 8)
  | _ => (0, 0)

/-- The generic address a lane issues. -/
def issuedAddress (s : State) (k : Ctx) (i : Instr) (r : Record) (l : Nat) : Option Word :=
  let a := opA s k r .b64 l
  let buffer (right : Nat) : Option Word :=
    match (bufferPointer s k right r.ty.memBytes a).2 with
    | .ok p => some p.2
    | .error _ => none
  match i with
  | .ldb _ => buffer 0
  | .stb _ => buffer 1
  | _ => some a

/-- The addresses the word's lanes issue. -/
def issuedAddresses (s : State) (k : Ctx) (i : Instr) : List (Nat × Word) :=
  if (accessKind i).1 = 0 then []
  else
    match i.opRecord with
    | some (_, r) => (accessLanes k r).filterMap (fun l => (issuedAddress s k i r l).map (fun a => (l, a)))
    | none => []

/-- The lowest data comparator that a lane's access meets. -/
def dataMatch (s : State) (k : Ctx) (i : Instr) : Option Match :=
  let q := coreOf s k.core
  if (List.range 4).all (fun n => !(smGet 0 q.dbgDaB n).getLsbD 63) then none
  else
    let as := issuedAddresses s k i
    (List.range 4).findSome? (fun n =>
      let base := (smGet 0 q.dbgDaA n).toNat
      let b := smGet 0 q.dbgDaB n
      let len := b.toNat / 2 ^ 32 % 2 ^ 16 + 1
      let hit := as.filter (fun p => b.getLsbD p.1 && decide (p.2.toNat < base + len) && decide (base < p.2.toNat + (accessKind i).2))
      if b.getLsbD 63 && Nat.land (b.toNat / 2 ^ 61 % 4) (accessKind i).1 ≠ 0 && (b.getLsbD 60 || b.toNat / 2 ^ 56 % 16 = k.w)
          && hit ≠ [] then
        some ⟨causeHaltData, maskOf (hit.map (fun p => p.1)), (hit.head?.map (fun p => p.2)).getD 0, 8 + n⟩
      else none)

/-- The comparator that the issuing word matches: PC comparators come before data comparators (R359 step 3). -/
def matchOf (s : State) (k : Ctx) (i : Instr) : Option Match :=
  match pcMatch (coreOf s k.core) k.wave k.w s.cur.blk s.cur.ends s.cur.lanes with
  | some m => some m
  | none => dataMatch s k i

/-- A comparator halts the wave before the word commits in any lane (R162). -/
def takeHalt (s : State) (k : Ctx) (i : Instr) (m : Match) : State :=
  let inCar := k.slot.car.isSome && !s.cur.replay
  let e := replayEntry s k i 0 inCar
  let s := if isControl i || inCar then s else advance s k
  takeStop s k.core k.w
    { cause := m.cause, stop := 2, x := k.x, lanes := m.lanes, blk := s.cur.blk, rcd := s.cur.rcd, addr := m.addr,
      cmp := m.cmp, late := false, cpl := false, entry := some e, grp := 0 } []

/-! ## Poisoned registers (R396) -/

/-- The 4-byte words from word `n` on that a value takes. -/
def valueWords (wide : Bool) (n : Nat) : List Nat := if wide then [n, n + 1] else [n]

/-- An operand of a lane lies in damaged storage: a register, a uniform slot, the register of a record's value (R394, R396). -/
def operandBad (s : State) (k : Ctx) (i : Instr) (wide : Bool) (l : Nat) (o : Opnd) : Bool :=
  let regs (ns : List Nat) : Bool := ns.any (fun g => (coreOf s k.core).regPoison.contains (regKey g l))
  let unis (n : Nat) : Bool := (valueWords wide (2 * n)).any (fun u => k.wave.uniPoison.contains u)
  match o with
  | .keep n => regs (valueWords wide (keepReg k.wave n.toNat))
  | .vreg n => regs (valueWords wide (dieReg k n.toNat))
  | .unif n => unis n.toNat
  | .ureg n => unis (dieUni k n.toNat)
  | .dist d =>
    let high : Bool := match i with
      | .mov r => decide (r.fn = 1)
      | _ => false
    let cell := 4 * (32 * (s.cur.rcd - d.toNat) + l)
    d ≠ 0 && (if high then [cell + 2, cell + 3] else valueWords wide cell).any (fun u => k.wave.valPoison.contains u)
  | _ => false

/-- The lanes that read a damaged value. A re-injected word reads none. -/
def poisonedLanes (s : State) (k : Ctx) (i : Instr) : List Nat :=
  if ((coreOf s k.core).regPoison = [] && k.wave.uniPoison = [] && k.wave.valPoison = []) || s.cur.replay then []
  else
    match i.opRecord with
    | none => []
    | some (op, r) =>
      (accessLanes k r).filter (fun l => (readPositions op).any (fun p =>
        let o := recOpnd r p
        isCaptured op r.fn.toNat p o && operandBad s k i (readTy op r.ty r.fn r.b p).wide l o))

/-- The slot waits at its record, which will issue again. -/
def waitsAtRecord (t : Slot) : Bool :=
  t.st ≠ .eligible && (match t.wait with
    | .port _ | .engine | .shadow _ | .sibling | .barHeld _ | .tags .. | .ring .. | .stream _ | .snap | .couple | .walk .. => true
    | _ => false)

/-- A word that reads poisoned registers: the other lanes run, and the wave traps with INTEGRITY (R360, R396). -/
def runPoisoned (s : State) (k : Ctx) (i : Instr) (bad : List Nat) : Host.Outcome State Fault Refusal :=
  let inCar := k.slot.car.isSome && !s.cur.replay
  let e := replayEntry s k i 0 inCar
  let good : W32 := if isWaveScope i then 0 else maskOf (k.lanes.filter (fun l => !bad.contains l))
  let s1 := { s with cur := { s.cur with ops := some e, lanes := good, defer := false } }
  if good = 0 then
    .next (takeTrap { s1 with cur := { s1.cur with lanes := s.cur.lanes } } k i causeIntegrity 0 (maskOf bad) 0 0 0xFF 0)
  else
    match exec i s1 with
    | .next t =>
      (match waveOf t k.core k.w with
        | none => .next t
        | some v =>
          if v.uid ≠ k.wave.uid || v.halted || waitsAtRecord (slotOf v k.x) then .next t
          else
            let grp := if t.accs.any (fun a => a.grp = s.nextAcc) then s.nextAcc else 0
            .next (takeStop t k.core k.w
              { cause := causeIntegrity, stop := 0, x := k.x, lanes := maskOf bad, blk := s.cur.blk, rcd := s.cur.rcd,
                addr := 0, cmp := 0xFF, late := false, cpl := false, entry := some { e with done := good }, grp := grp } []))
    | o => o

/-! ## One word -/

/-- A slot that stands before the first word of its record again. -/
def recordAgain (t : Slot) : Slot := { t with woff := 0, ub := false, dlit := none, dspl := none, dieAt := none }

/-- The Sinter address of the bundle in which the word at a slot's position stands (R358). -/
def illegalAt (s : State) (c : Nat) (v : Wave) (t : Slot) : Word :=
  match slotEntry s c v t with
  | some e => BitVec.ofNat 64 (((dieIndex e t).map (dieAddr e)).getD (diePcOf s c v t.blk t.rcd).toNat / 32 * 32)
  | none => BitVec.ofNat 64 ((diePcOf s c v t.blk t.rcd).toNat / 32 * 32)

/-- A record of explicit code that meets R206 (R366, R397): each time the entry leaves the store, as damaged, and the log
names the Sinter address of the bundle. The slot fetches its record again; met twice at a record, the wave traps with
DIE_ILLEGAL. -/
def meetIllegal (s : State) (c w x : Nat) (v : Wave) : State :=
  let t := slotOf v x
  let key := slotKey s c v t.blk t.baddr
  let pc := illegalAt s c v t
  let s := onDie s (coreDie c) (fun d => { d with sinter := d.sinter.filter (fun e => e.key ≠ key) })
  let s := logEvent s 3 causeDieIllegal v.part 0 c pc noStage
  if t.illegal = some (t.blk, t.rcd) then
    takeStop (onSlotOf s c w x (fun t => { recordAgain t with illegal := none })) c w
      { cause := causeDieIllegal, stop := 0, x := x, lanes := t.mask, blk := t.blk, rcd := t.rcd, addr := pc,
        cmp := 0xFF, late := false, cpl := false, entry := none, grp := 0 } []
  else onSlotOf s c w x (fun t => { recordAgain t with illegal := some (t.blk, t.rcd) })

/-- A re-injected word under R206 traps with DIE_ILLEGAL at once; its entry stays (R366). -/
def entryIllegal (s : State) (c w : Nat) (v : Wave) (e : Replay) : State :=
  takeStop s c w
    { cause := causeDieIllegal, stop := 0, x := e.x, lanes := entryLanes v e, blk := e.blk, rcd := e.rcd,
      addr := BitVec.ofNat 64 ((diePcOf s c v e.blk e.rcd).toNat / 32 * 32), cmp := 0xFF, late := false, cpl := false,
      entry := none, grp := 0 } []

/-- The run has no further word: the slot leaves its block (R172), a carriage waits for its commit. -/
def endRun (s : State) (c w x : Nat) : State :=
  onWave s c w (fun v =>
    if (slotOf v x).car.isSome then putSlot v x { slotOf v x with st := .stalled, wait := .commit } else leaveBlock v x)

/-- COUPLE runs with held lanes alone (R373). -/
def runsEmpty : Instr → Bool
  | .couple _ => true
  | _ => false

/-- An outcome with its next state changed. -/
def mapNext (f : State → State) : Host.Outcome State Fault Refusal → Host.Outcome State Fault Refusal
  | .next s => .next (f s)
  | o => o

/-- The slot waits on a full deque with lanes of its record still to run (R38). -/
def waitsDeque (t : Slot) : Bool :=
  t.st ≠ .eligible && (match t.wait with
    | .deque _ => true
    | _ => false)

/-- The record that a return lets pass its comparator has been committed: the word that completes it has run, and neither
waits nor has stopped the wave (R162). -/
def dropStepOver (k : Ctx) (cur : Issue) (s : State) : State :=
  match waveOf s k.core k.w with
  | none => s
  | some v =>
    if v.uid ≠ k.wave.uid || v.halted || cur.ends = [] || waitsAtRecord (slotOf v k.x) || waitsDeque (slotOf v k.x) then s
    else onSlotOf s k.core k.w k.x (fun t => { t with stepOver := none })

/-- The word issues: a comparator halts the wave, or it executes (R359). The record named at a stop issues until its commit
without a match where STEPOVER was set (R162). -/
def runWord (s : State) (i : Instr) : Host.Outcome State Fault Refusal :=
  match ctxOf s with
  | none => .next s
  | some k =>
    if k.lanes = [] && !runsEmpty i then .next (advance s k)
    else
      let past := k.slot.stepOver = some (s.cur.blk, s.cur.rcd)
      let marker := match i with
        | .fetchMarker _ => true
        | _ => false
      match (if past || marker then none else matchOf s k i) with
      | some m => .next (takeHalt s k i m)
      | none =>
        let out := match poisonedLanes s k i with
          | [] => exec i s
          | bad => runPoisoned s k i bad
        if past then mapNext (dropStepOver k s.cur) out else out

/-- An entry whose slot waits at its record is kept in its place. -/
def keepEntry (s : State) (c w n : Nat) (e : Replay) : State :=
  match waveOf s c w with
  | some v => if waitsAtRecord (slotOf v (entrySlot v e)) then setWave s c w (some { v with replay := v.replay.insertIdx n e }) else s
  | none => s

/-- The entry of a wave leaves its list. -/
def dropEntry (s : State) (c w n : Nat) : State := onWave s c w (fun v => { v with replay := v.replay.eraseIdx n })

/-- Place of an entry in the list. -/
def entryIndex (v : Wave) (e : Replay) : Nat := (findAt (fun q => q = e) v.replay 0).getD 0

/-- Two lists of code agree as far as both go. -/
def sameCode (a b : List Word) : Bool := a.take (min a.length b.length) = b.take (min a.length b.length)

/-- A slot goes on in an entry lowered from other bytes than those it has run (R197): the values that the records before it
left stand where the new entry's registers happen to lie, which are free values. -/
def newCode (s : State) (c w x : Nat) (cur : Issue) : State :=
  match waveOf s c w with
  | none => s
  | some v =>
    let t := slotOf v x
    if cur.rcd = 0 || (sameCode t.ran.1 cur.recs && sameCode t.ran.2 cur.lits) then s
    else
      let cells := (List.range cur.rcd).flatMap (fun r => (lanesOf t.mask).map (fun l => r * 32 + l))
      let ws := cells.map (fun q => (q, Val.mk (Config.staleValue (s.freeCtr + 2 * q)) (Config.staleValue (s.freeCtr + 2 * q + 1))))
      onWave { s with freeCtr := s.freeCtr + 64 * cur.rcd } c w (fun v => writeVals v ws)

/-- The word stands at its slot's position: its place in explicit code, or the code it is one record of. -/
def atWord (s : State) (c w x : Nat) (cur : Issue) (at' : Option Nat) : State :=
  match at' with
  | some n => onSlotOf s c w x (fun t => { t with dieAt := some n })
  | none => onSlotOf (newCode s c w x cur) c w x (fun t => { t with dieAt := none, ran := (cur.recs, cur.lits) })

/-- Runs a word at its position: a kept entry of a carriage applies to it (R152). -/
def runCode (s : State) (c w x : Nat) (v : Wave) (i : Instr) (cur : Issue) (at' : Option Nat) : Host.Outcome State Fault Refusal :=
  let s := atWord s c w x cur at'
  match keptEntry v x with
  | none => runWord { s with cur := cur } i
  | some e =>
    let n := entryIndex v e
    let skip := if isWaveScope e.ins && e.done &&& e.lanes = e.lanes then lanesOf e.lanes else lanesOf (e.done &&& e.lanes)
    let lanes : W32 := if isWaveScope e.ins then (if e.done &&& e.lanes = e.lanes then 0 else cur.lanes) else cur.lanes &&& ~~~e.done
    let s := skipValue (dropEntry s c w n) c w e (if isWaveScope e.ins && lanes ≠ 0 then [] else skip)
    mapNext (fun t => keepEntry t c w n e) (runWord { s with cur := { cur with ops := some e, lanes := lanes } } i)

/-- Slot `x` of a wave issues. -/
def runSlot (s : State) (c w x : Nat) (defer : Bool) : Host.Outcome State Fault Refusal :=
  match waveOf s c w with
  | none => .next s
  | some v =>
    match nextIssue s c w x v defer with
    | .word i cur at' => runCode s c w x v i cur at'
    | .entry e =>
      if e.bad then .next (entryIllegal s c w v e)
      else
      let n := entryIndex v e
      mapNext (fun t => keepEntry t c w n e) (runWord { dropEntry s c w n with cur := entryIssue s c w v e } e.ins)
    | .illegal => .next (meetIllegal s c w x v)
    | .runEnds => .next (endRun s c w x)
    | _ => .next s

/-! ## Waking and holding slots -/

/-- The record a slot waits at would not wait again. -/
def goesOn (s : State) (c w x : Nat) : Bool :=
  let s1 := onSlotOf s c w x (fun t => { t with st := .eligible })
  match runSlot s1 c w x false with
  | .next t =>
    !t.homeWaits && (match waveOf t c w with
      | some v => !waitsAtRecord (slotOf v x)
      | none => true)
  | _ => false

/-- The slot's arrival is held in a group, which counts it by itself (R35). -/
def arrivalHeld (k : Core) (e w x : Nat) : Bool :=
  (groupOf k e).held.any (fun a => match a with
    | .wave w' x' .. => w' = w && x' = x
    | .tender _ => false)

/-- What a slot that does not issue waited for has come about. Barriers, walks, bindings, shadow writes, regions, carriages
and cuts wake their slots themselves. -/
def waitOver (s : State) (c w x : Nat) (v : Wave) : Bool :=
  match (slotOf v x).wait with
  | .lower => holdOf s c w x v ≠ some .lower
  | .value => holdOf s c w x v ≠ some .value
  | .switch => !(laneAccs s c w v x).any (fun a => hasValue a.kind)
  | .deque _ => dequeRoom (coreOf s c)
  | .barHeld e => !arrivalHeld (coreOf s c) e w x && goesOn s c w x
  | .port _ | .engine | .sibling | .tags .. | .ring .. | .stream _ | .snap | .couple => goesOn s c w x
  | _ => false

/-- The wave may issue: it is neither HALTED nor PARKED, and its partition runs, or a return has still words of it to issue
again (R24, R163, R165). -/
def waveRuns (s : State) (c w : Nat) (v : Wave) : Bool :=
  !v.halted && !v.parked && (partRuns s v.part || ((partOf s v.part).pswap = .stopping && reinjects s c w v))

/-- A slot of the wave may issue: what a parked wave has issued goes on until it completes (R57). -/
def waveMayIssue (s : State) (c w x : Nat) (v : Wave) : Bool :=
  waveRuns s c w v || (!v.halted && v.parked && hasIssued (slotOf v x)
    && ((regionOf s c).map (fun r => decide (r.st = .parking))).getD false)

/-- A slot whose wait has ended is ELIGIBLE; a fence or release keeps the bound it waited below. -/
def wakeSlot (s : State) (c w x : Nat) : State :=
  match waveOf s c w with
  | none => s
  | some v =>
    let t := slotOf v x
    if waveMayIssue s c w x v && t.st ≠ .empty && t.st ≠ .eligible && waitOver s c w x v then
      onSlotOf s c w x (fun t => { t with st := .eligible, ready := (coreOf s c).cycle, wait := match t.wait with
        | .port n => .port n
        | _ => .none })
    else s

/-- An ELIGIBLE slot that something holds back is STALLED; a missing Sinter entry is asked for (R187). -/
def holdSlot (s : State) (c w x : Nat) : State :=
  match waveOf s c w with
  | none => s
  | some v =>
    let t := slotOf v x
    if waveMayIssue s c w x v && t.st = .eligible then
      match holdOf s c w x v with
      | none => s
      | some .lower =>
        askLowering (slotWaits s c w x .stalled .lower) ⟨coreDie c, v.part, slotKey s c v t.blk t.baddr, v.modl, t.blk, false⟩
      | some why => slotWaits s c w x .stalled why
    else s

/-- Entries that have nothing left to run leave the wave's list; those of a carriage when the slot has none. -/
def dropFinished (v : Wave) : Wave :=
  { v with replay := v.replay.filter (fun e => if e.car then (slotOf v e.x).car.isSome else entryLanes v e ≠ 0) }

/-- A tender's report stops its wave at a bundle boundary (R369); a wave whose region runs, once that has drained (R160).
Where an earlier access fails as the wave stops, that stop comes first and the report is held. -/
def tellReport (s : State) (c w : Nat) : State :=
  match waveOf s c w with
  | none => s
  | some v =>
    match v.report with
    | none => s
    | some r =>
      if !waveRuns s c w v then s
      else if regionRuns s c w then gateRegion s c .quantum
      else
        let q : StopReq :=
          { cause := r.cause, stop := 0, x := 0, lanes := 0, blk := r.blk, rcd := r.rcd, addr := r.addr, cmp := 0xFF,
            late := false, cpl := v.slot0.cpl || v.slot1.cpl, entry := none, grp := 0 }
        let s := takeStop s c w q []
        match waveOf s c w with
        | some u =>
          if u.uid = v.uid && (u.stop.map (fun q => (q.blk, q.rcd))) = some (r.blk, r.rcd) then
            setWave s c w (some { u with report := none })
          else s
        | none => s

/-- The PC slots of a core with a wave, ascending. -/
def slotsOf (k : Core) : List (Nat × Nat) := (wavesOf k).flatMap (fun p => [(p.1, 0), (p.1, 1)])

/-- A wave of a stopping partition has nothing more to issue again, and stops (R165). -/
def preemptLate (s : State) (c w : Nat) : State :=
  match waveOf s c w with
  | none => s
  | some v =>
    if (partOf s v.part).pswap = .stopping && !v.parked && (regionOf s c).isNone then preemptWave s c w false else s

/-- Stops that are due are taken, reports are told, waits that have ended end, and what cannot issue is held. -/
def refresh (s : State) (c : Nat) : State :=
  let s := (wavesOf (coreOf s c)).foldl (fun s p => unlessHeld (fun s => preemptLate s c p.1) s) s
  let s := (wavesOf (coreOf s c)).foldl (fun s p => unlessHeld (fun s => tellReport s c p.1) s) s
  let s := (wavesOf (coreOf s c)).foldl (fun s p => if p.2.replay = [] then s else onWave s c p.1 dropFinished) s
  let s := (slotsOf (coreOf s c)).foldl (fun s p => wakeSlot s c p.1 p.2) s
  (slotsOf (coreOf s c)).foldl (fun s p => holdSlot s c p.1 p.2) s

/-! ## Issue selection (R50) -/

/-- The slot is a candidate. -/
def candidate (s : State) (c w x : Nat) : Bool :=
  match waveOf s c w with
  | none => false
  | some v =>
    let t := slotOf v x
    waveMayIssue s c w x v && t.st = .eligible && decide (t.ready ≤ (coreOf s c).cycle) && nextIssue s c w x v false ≠ .blocked

/-- The keys of R50, the first that separates two candidates deciding; the least goes first. -/
def issueKeys (k : Core) (w x : Nat) (v : Wave) : List Nat :=
  let t := slotOf v x
  [if 256 ≤ t.skip then 0 else 1, v.prio, t.ready, if k.last = some (2 * w + x) then 1 else 0, 2 * w + x]

/-- Lists of keys in order. -/
def keysBefore : List Nat → List Nat → Bool
  | a :: r, b :: q => a < b || (a = b && keysBefore r q)
  | _, _ => false

/-- The slot that issues in this cycle. -/
def pickSlot (s : State) (c : Nat) : Option (Nat × Nat) :=
  let k := coreOf s c
  let all := (slotsOf k).filterMap (fun p =>
    match waveOf s c p.1 with
    | some v => if candidate s c p.1 p.2 then some (p, issueKeys k p.1 p.2 v) else none
    | none => none)
  (all.foldl (fun (m : Option ((Nat × Nat) × List Nat)) q =>
    match m with
    | none => some q
    | some b => if keysBefore q.2 b.2 then some q else m) none).map (fun q => q.1)

/-- A slot that was ELIGIBLE in the cycle and did not issue. -/
def skipped (cyc : Nat) (t : Slot) : Slot := if t.st = .eligible && t.ready ≤ cyc then { t with skip := t.skip + 1 } else t

/-- The skip counts of a core after a cycle in which slot `n` issued. -/
def countSkips (k : Core) (n : Option Nat) : Core :=
  { k with waves := k.waves.map (fun p => (p.1, p.2.map (fun v =>
      if v.halted || v.parked then v
      else
        { v with slot0 := if n = some (2 * p.1) then { v.slot0 with skip := 0 } else skipped k.cycle v.slot0,
                 slot1 := if n = some (2 * p.1 + 1) then { v.slot1 with skip := 0 } else skipped k.cycle v.slot1 }))) }

/-! ## Cycles (R3, R13, log entry 4) -/

/-- The length of a cycle of a clock, in femtoseconds (R13). -/
def cycleFs (mhz : Nat) : Nat := 10 ^ 9 / max mhz 1

/-- An internal step that is due is taken; one that a home makes wait is due again in the next cycle. -/
def force (s : State) (i : Instr) : State :=
  match exec i { s with cur := Issue.reset } with
  | .next t => if t.homeWaits then s else t
  | _ => s

/-- What falls due in a core as its cycle ends: the rate limiter's window (R354), bin timers (R39), the quantum (R72), the
stillness monitor (R371), and the end of the time a placement may take (R19). -/
def coreDue (s : State) (c : Nat) : List Instr :=
  let k := coreOf s c
  (if k.cycle / 1024 = k.rlWin then [] else [.rlimWindow c])
    ++ ((List.range k.bins.length).filter (fun b =>
        ((k.bins[b]?).map (fun q => !q.must && decide (q.deadline ≤ k.cycle))).getD false)).map (fun b => .binTimerExpiry c b)
    ++ (match k.region with
      | none => []
      | some r =>
        if r.st = .placing then (if r.since + 4096 ≤ k.cycle then [.couplePlacementDone c none] else [])
        else [.coupleQuantumExpiry c, .coupleStill c])

/-- The reports of a stopped partition are told as they come about, and an exchange ends within 1.0 µs of the last core's
(R2, R17, R163). -/
def exchangeDue (s : State) : List Instr :=
  s.parts.flatMap (fun p =>
    if p.2.pswap = .stopping || (p.2.pswap = .halted && p.2.exch) then [.pswapHalted p.1]
    else if p.2.pswap = .exchanging && decide (p.2.exchAt + 10 ^ 9 ≤ s.now) then [.pswapExchangeDone p.1]
    else [])

/-- When the present cycle of a clock ends: a clock that has stood still begins now. -/
def dueAt (s : State) (d : Nat) : Nat := max d s.now

/-- A cycle of a core ends: the clocks advance, stations may fire again (R59), and what is due happens. -/
def endCycle (s : State) (c : Nat) : State :=
  let t := dueAt s (coreOf s c).due
  let s := onCore { s with now := t } c (fun k =>
    { tickCore k with due := t + cycleFs (dieOf s (coreDie c)).mhz, region := k.region.map (fun r => { r with firedNow := [] }) })
  let s := watchStill s c
  (coreDue s c ++ exchangeDue s).foldl force s

/-- A launch that has waited 2^20 fabric cycles reserves a core (R47). -/
def reserveDue (s : State) : List Instr :=
  s.launches.flatMap (fun l => if wantsReserve s l then (List.range (l.ncl * 16)).map (fun i => .launchReserve l.id (16 * l.cl0 + i)) else [])

/-- A cycle of the fabric clock ends. -/
def endFabric (s : State) : State :=
  let t := dueAt s s.fabricDue
  let s := { s with now := t, fabricCycle := s.fabricCycle + 1, fabricDue := t + cycleFs s.fabricMhz }
  (reserveDue s ++ exchangeDue s).foldl force s

/-- Some cycles of the fabric clock. -/
def fabricCycles : Nat → State → State
  | 0, s => s
  | n + 1, s => fabricCycles n (endFabric s)

/-- A cycle of a core in which nothing issues. -/
def idleCycle (s : State) (c : Nat) : State := endCycle (onCore s c (fun k => { countSkips k none with last := none })) c

/-- Cycles of a core in which nothing issues, until a slot of it could (R51). -/
def idleCycles (c : Nat) : Nat → State → State
  | 0, s => s
  | n + 1, s =>
    let s := refresh s c
    if (pickSlot s c).isSome then s else idleCycles c n (idleCycle s c)

/-! ## The issue of a core -/

/-- The slot's last wait is over once it has issued. -/
def clearWait (t : Slot) : Slot := if t.st = .eligible then { t with wait := .none } else t

/-- How a word that issues paces its slot (R202, R203): the cycles of its STALL, and whether M parks it; a special-function or
row word counts in its window (R354). -/
structure Pace where
  stall : Nat
  park : Bool
  row : Bool
  /-- It takes no issue cycle (R201). -/
  free : Bool
  deriving DecidableEq, Repr

/-- The pacing of the word that a slot issues: STALL and M are honoured in the slot's own stepping alone (R207, R208). -/
def paceOf (s : State) (c w x : Nat) : Pace :=
  match waveOf s c w with
  | none => ⟨0, false, false, false⟩
  | some v =>
    match nextIssue s c w x v false with
    | .word i cur at' =>
      let code := ((slotCode s c v (slotOf v x)).map (fun e => e.code)).getD []
      let own := match at' with
        | some n => ownStepping s c code n
        | none => false
      ⟨if own && !isPrefix i then stallOf code (at'.getD 0) else 0, own && ((cur.form.dword.map (fun d => d.1.getLsbD 31)).getD false), rowWord i, isPrefix i⟩
    | .entry e => ⟨0, false, rowWord e.ins, false⟩
    | _ => ⟨0, false, false, false⟩

/-- M parks a slot that has results outstanding (R203). -/
def parkSwitch (s : State) (c w x : Nat) : State :=
  match waveOf s c w with
  | none => s
  | some v =>
    if (slotOf v x).st = .eligible && (laneAccs s c w v x).any (fun a => hasValue a.kind) then slotWaits s c w x .stalled .switch else s

/-- The slots that a word with M parks: its own, and the sibling's where the word placed a path there. -/
def parkSlots (s : State) (c w x : Nat) (before : Option Wave) : State :=
  let same := (before.map (fun v => slotOf v (1 - x))) = (waveOf s c w).map (fun v => slotOf v (1 - x))
  let s := parkSwitch s c w x
  if same then s else parkSwitch s c w (1 - x)

/-- The cycle in which a slot issued ends (R13, R50, R354). -/
def afterIssue (s : State) (c w x : Nat) (p : Pace) (before : Option Wave) : State :=
  let s := onSlotOf s c w x (fun t => clearWait (if p.stall = 0 then t else { t with ready := (coreOf s c).cycle + 1 + p.stall }))
  if p.free then s
  else
    let s := if p.park then parkSlots s c w x before else s
    endCycle (onCore s c (fun k =>
      { countSkips k (some (2 * w + x)) with last := some (2 * w + x), rlSf := if p.row then k.rlSf + 1 else k.rlSf })) c

/-- A core issues in this cycle: the slot that R50 chooses, or none. -/
def issueTurn (s : State) (c : Nat) (defer : Bool) : Host.Outcome State Fault Refusal :=
  let s := refresh s c
  match pickSlot s c with
  | none => .next (idleCycle s c)
  | some (w, x) => mapNext (fun t => afterIssue t c w x (paceOf s c w x) (waveOf s c w)) (runSlot s c w x defer)

/-- The slot a core would issue from, held at its home: it tries again in the next cycle, and keeps the number it parked or
waits below (log entry 24). -/
def issueHeld (s : State) (c : Nat) : State :=
  let s := refresh s c
  match pickSlot s c with
  | none => idleCycle s c
  | some (w, x) =>
    idleCycle (onSlotOf s c w x (fun t => match t.wait with
      | .walked .. => t
      | .port n => { t with st := .stalled, wait := .port n }
      | _ => { t with st := .stalled, wait := .value })) c

/-! ## The tender's turn (R307) -/

/-- The stream's record runs; one that could not be copied stops the stream. -/
def streamTurn (s : State) (c i : Nat) (t : Tender) : Host.Outcome State Fault Refusal :=
  let stopped : Option Marker := match t.bad with
    | some m => if m.rcd = t.pc then some m else none
    | none => none
  match stopped, t.recs[t.pc]? with
  | some m, _ => .next (tenderStops s c i t m.cause m.addr)
  | none, none => .next (tenderEnds s c i)
  | none, some w =>
    match decodeTender w with
    | .ok ins => exec ins { s with cur := { Issue.reset with who := .tender c i, recs := t.recs, lits := t.lits } }
    | .error _ => .next (tenderStops s c i t causeLowerReject 0)

/-- The tender of a core runs one record of its stream, or takes a stream. -/
def tenderTurn (s : State) (c : Nat) : Host.Outcome State Fault Refusal :=
  let k := coreOf s c
  let s := onCore s c (fun k => { k with tenderAt := k.cycle + 1 })
  if !partRuns s (corePart s c) then .next s
  else
    match k.active with
    | some i =>
      (match k.tenders[i]? with
        | some t => streamTurn s c i t
        | none => .next s)
    | none =>
      match longestReady k.tenders with
      | some i => exec (.tenderSwitch ⟨false, .b32, 0, .absent, .absent, .absent⟩)
          { s with cur := { Issue.reset with who := .tender c i } }
      | none => .next s

/-! ## Serial carriages (R43) -/

/-- The slots that run a carriage. -/
def carriageSlots (s : State) : List SlotName :=
  s.cores.flatMap (fun k => (wavesOf k.2).flatMap (fun w =>
    ([0, 1].filter (fun x => (slotOf w.2 x).car.isSome)).map (fun x => (k.1, w.1, x))))

/-- The carriage of a slot replaced. -/
def onCarriage (s : State) (n : SlotName) (f : Carriage → Carriage) : State :=
  onSlotOf s n.1 n.2.1 n.2.2 (fun t => { t with car := t.car.map f })

/-- A carriage whose footprint exceeds 256 lines becomes serial; a serial one takes the token when it is free and starts
again, and gives it up where an access of it waits on a cell (R43). -/
def serialStep (s : State) (n : SlotName) : State :=
  match waveOf s n.1 n.2.1 with
  | none => s
  | some v =>
    match (slotOf v n.2.2).car with
    | none => s
    | some car =>
      let mine := laneAccs s n.1 n.2.1 v n.2.2
      if v.halted then s
      else if !car.serial then
        if 256 < car.lines.length then onCarriage (carriageDiscard s n false) n (fun q => { q with serial := true }) else s
      else if s.serial = some n then
        if mine.any (fun a => a.onCell) then onCarriage { s with serial := none } n (fun q => { q with lines := [] }) else s
      else if waveRuns s n.1 n.2.1 v && mine = [] && s.serial.isNone && s.cut.isNone then
        { carriageDiscard s n false with serial := some n }
      else s

/-- Every carriage in its mode. -/
def serialSteps (s : State) : State := (carriageSlots s).foldl (fun s n => unlessHeld (fun s => serialStep s n) s) s

/-! ## The turns -/

/-- A record or a die word, which only a slot or a stream issues. -/
def isRecord : Instr → Bool
  | .win .. | .dlit .. | .dspl .. | .fetchMarker _ => true
  | i => i.opRecord.isSome

/-- An access is performed ahead of a narrower synchronisation: a load, or a store with a narrow release (R109). -/
def earlyTurn (s : State) (a : Access) : State := if a.kind = .load then earlyLoad s a else earlyStore s a

/-- A list with an element of it. -/
def withMark (l : List Nat) (n : Nat) : List Nat := if l.contains n then l else l ++ [n]

/-- A unit of a context marked as poisoned (R394, R395). -/
def strikeIn (k : Core) (u : StruckUnit) : Core :=
  let wave (w : Nat) (f : Wave → Wave) : Core :=
    match smGet none k.waves w with
    | some v => putWave k w (some (f v))
    | none => k
  match u with
  | .reg key => { k with regPoison := withMark k.regPoison key }
  | .tile n => { k with tilePoison := withMark k.tilePoison n }
  | .uni w key => wave w (fun v => { v with uniPoison := withMark v.uniPoison key })
  | .val w key => wave w (fun v => { v with valPoison := withMark v.valPoison key })
  | .token i n => { k with region := k.region.map (fun r =>
      { r with queues := setAt r.queues i ((r.queues.getD i []).zipIdx.map (fun t => if t.2 = n then { t.1 with dam := true } else t.1)) }) }

/-- An error that cannot be corrected strikes a unit of a core's storage, found by the row of R394 for local storage, or a unit
of its standby context, found by that for shadow storage; the unit is poisoned and the error logged (R395, R398, R402). The log
names the core and no address (DEDUCED, log entry 25). -/
def strikeUnit (s : State) (c : Nat) (standby : Bool) (u : StruckUnit) : State :=
  let s := if standby then { s with standby := smSet Core.reset s.standby c (strikeIn (smGet Core.reset s.standby c) u) }
    else onCore s c (fun k => strikeIn k u)
  logEvent s 3 causeIntegrity (corePart s c) 0 c 0 (if standby then 1 else 2)

/-- What a turn of an agent does. -/
def turnBody (t : Turn) (s : State) : Host.Outcome State Fault Refusal :=
  match t with
  | .issue c d => if c < Config.numCores then issueTurn s c d else .next s
  | .tender c => if c < Config.numCores then tenderTurn s c else .next s
  | .event i => if isRecord i then .next s else exec i s
  | .beat c id n => .next (engineBeat s c id n)
  | .early id => .next (onAccess s id earlyTurn)
  | .half id h => .next (onAccess s id (fun s a => performHalf s a h))
  | .tick c n => .next (if c < Config.numCores then idleCycles c n s else s)
  | .dropTlb i => .next { s with tlb := s.tlb.eraseIdx i }
  | .dropL1 c i => .next (if c < Config.numCores then onCore s c (fun k => { k with l1 := k.l1.eraseIdx i }) else s)
  | .spillDiv c w => .next (divSpill s c w false)
  | .fabric n => .next (fabricCycles n s)
  | .window p r => .next (if p < 8 then windowUse s p r else s)
  | .comparator c n a b =>
    .next (if c < Config.numCores && n < 12 then onCore s c (fun k => setComparator k n a b) else s)
  | .abortCmd c id => .next (if c < Config.numCores then abortCmd s c id else s)
  | .mgRead off => .next (regReads s (mgWord s off))
  | .hostStore ha bs => .next (placeWrite s ⟨8, [], none⟩ (.host ha) bs)
  | .hostPage pg ok =>
    .next { s with atsFail := if ok then s.atsFail.filter (fun q => q ≠ pg)
                              else if s.atsFail.contains pg then s.atsFail else s.atsFail ++ [pg] }
  | .loadContext n k => .next (loadContext s n k)
  | .restorePage p va data tags => .next (restorePage s p va data tags)
  | .stackFails n => .next (stackFails s n)
  | .strike pl st => .next (applyDamage s (match pl with
      | .tile c _ => corePart s c
      | .dev pa => clusterPart s (sliceCluster (homeSlice pa))
      | _ => 8) pl (.uncorrectable st))
  | .strikeUnit c standby u => .next (if c < Config.numCores then strikeUnit s c standby u else s)

/-- A turn that reached a line or a slice which makes it wait has not happened; a core's cycle passes all the same (R43,
R130; log entry 24). -/
def turnHeld (t : Turn) (s : State) : State :=
  match t with
  | .issue c _ => issueHeld s c
  | .tender c => onCore s c (fun k => { k with tenderAt := k.cycle + 1 })
  | _ => s

/-- A turn begins: nothing issues yet, and no home has made it wait. -/
def turnStart (s : State) : State := { s with cur := Issue.reset, homeWaits := false }

/-- One turn of an agent. -/
def takeTurn (t : Turn) (s : State) : Host.Outcome State Fault Refusal :=
  let s := turnStart s
  match turnBody t s with
  | .next q => .next (if q.homeWaits then turnHeld t s else q)
  | o => o

/-! ## The device's next step where the agenda is empty (log entry 5) -/

/-- The turn changes the state. -/
def changes (s : State) (t : Turn) : Bool :=
  match takeTurn t s with
  | .next q => q ≠ turnStart s
  | _ => false

/-- The slots of a core that hold a shadow-destination write (R99). -/
def shadowSlots (k : Core) : List Nat :=
  (slotsOf k).filterMap (fun p =>
    match smGet none k.waves p.1 with
    | some v => (match (slotOf v p.2).wait with
      | .shadow _ => some (2 * p.1 + p.2)
      | _ => none)
    | none => none)

/-- The steals that a core may make (R40): with an empty deque, empty bins and a slot for a task, from every core whose deque
holds records. -/
def stealEvents (s : State) (c : Nat) : List Instr :=
  let k := coreOf s c
  if k.dqCount = 0 && k.bins = [] && k.stage = [] && k.blocks ≠ [] then
    s.cores.filterMap (fun v => if v.2.dqCount = 0 then none else some (.steal c v.1))
  else []

/-- Internal steps that a core may take. -/
def coreEvents (s : State) (c : Nat) : List Instr :=
  let k := coreOf s c
  let waves := wavesOf k
  (waves.flatMap (fun p => [.carriageCommit c (2 * p.1), .carriageCommit c (2 * p.1 + 1)]))
    ++ waves.flatMap (fun p => [.stubBind c (2 * p.1), .stubBind c (2 * p.1 + 1)])
    ++ k.handlers.map (fun w => .handlerPlace c w)
    ++ (shadowSlots k).map (fun x => .shadowWriteIssue c x)
    ++ k.cmds.flatMap (fun q => [.sendArrive c q.id, .engineComplete c q.id .clean, .publish c q.id])
    ++ [.dequePop c]
    ++ (List.range k.bins.length).flatMap (fun b => [.binLaunch c b, .binTimerExpiry c b])
    ++ [.parkingQuiet c, .couplePlacementDone c none]
    ++ ((k.region.map (fun r => (List.range r.stations.length).map (fun j => Instr.stationFire c j))).getD [])
    ++ [.regionDrained c, .coupleQuantumExpiry c, .coupleStill c]
    ++ stealEvents s c
    ++ k.blocks.map (fun b => .blockRetire c b.uid)

/-- The pages that slots are parked on. -/
def walkEvents (s : State) : List Instr :=
  s.cores.flatMap (fun k => (wavesOf k.2).flatMap (fun w => [w.2.slot0, w.2.slot1].filterMap (fun t => match t.wait with
    | .walk page _ => some (Instr.walkComplete w.2.part (BitVec.ofNat 64 (page * 4096)))
    | _ => none)))

/-- The cores of a launch's clusters. -/
def launchCores (l : Launch) : List Nat := (List.range l.ncl).flatMap (fun i => clusterCores (l.cl0 + i))

/-- What the scheduler may do for a launch. -/
def launchEvents (s : State) (l : Launch) : List Instr :=
  [.launchReady l.id, .launchComplete l.id]
    ++ (if wantsReserve s l then (launchCores l).map (fun c => .launchReserve l.id c) else [])
    ++ (if l.st = .ready then (launchCores l).flatMap (fun c => [.blockPlace l.id c, .configSwap l.id c]) else [])

/-- What a snapshot's cut may do. -/
def cutEvents (s : State) : List Instr :=
  if s.cut.isNone then [] else (List.range Config.numSlices).flatMap (fun i => [.snapMarkArrive i, .snapTokenReturn i])

/-- What the partitions' hardware may do. -/
def partEvents (s : State) : List Instr :=
  s.parts.flatMap (fun p => [.moduleVerified p.1, .pswapHalted p.1, .pswapExchangeDone p.1, .snapStreamComplete p.1])

/-- The moves of evaluator records that a core holds in bins and in its stage (R141). -/
def moveEvents (s : State) : List Instr :=
  s.cores.flatMap (fun k =>
    ((List.range (8 + k.2.stage.length)).filter (fun b => (heldRecord k.2 b).isSome)).flatMap
      (fun b => (partCores s (corePart s k.1)).map (fun d => Instr.evalRecordMove k.1 b d)))

/-- The device's internal steps, in the order they are tried. -/
def internalEvents (s : State) : List Instr :=
  s.accs.map (fun a => .accessPerformed a.id .clean) ++ walkEvents s
    ++ (List.range s.lowerReqs.length).map (fun i => .loweringComplete (((s.lowerReqs[i]?).map (fun q => q.die)).getD 0) i)
    ++ cutEvents s ++ s.cores.flatMap (fun k => coreEvents s k.1) ++ s.launches.flatMap (launchEvents s) ++ partEvents s
    ++ moveEvents s

/-- A core whose tender can move in its present cycle. -/
def tenderCore (s : State) : Option Nat :=
  (s.cores.find? (fun k => decide (k.2.tenderAt ≤ k.2.cycle) && (match tenderTurn s k.1 with
    | .next t => t ≠ onCore s k.1 (fun q => { q with tenderAt := q.cycle + 1 })
    | _ => false))).map (fun k => k.1)

/-- The clock whose present cycle ends first: a core's, or the fabric's. All clocks run at their own frequencies, and where
cycles end at once a lower core goes first and the fabric last: R13 says only that the clocks are separate (DESIGN CHOICE,
log entry 4). -/
def nextClock (s : State) : Turn :=
  let best := s.cores.foldl (fun (b : Option (Nat × Nat)) k =>
    let d := dueAt s k.2.due
    match b with
    | none => some (d, k.1)
    | some p => if d < p.1 then some (d, k.1) else some p) none
  match best with
  | some (d, c) => if d ≤ dueAt s s.fabricDue then .issue c false else .fabric 1
  | none => .fabric 1

/-- The turn that is taken where the agenda names none: an internal step that changes something, else a tender, else the
clock whose cycle ends first. -/
def pickTurn (s : State) : Turn :=
  match (internalEvents s).find? (fun i => changes s (.event i)) with
  | some i => .event i
  | none =>
    match tenderCore (turnStart s) with
    | some c => .tender c
    | none => nextClock s

/-- What follows a turn by itself, unless a home makes it wait: carriages take their modes (R43), counts that are owed are given
back (R98), invalidations that no access holds up complete (R103), and waves of a returned context go on (R163). -/
def settleAll (s : State) : State :=
  let s := unlessHeld payOwed (serialSteps s)
  s.parts.foldl (fun s p =>
    let s := if p.2.tlbinv = [] then s else unlessHeld (fun s => settleInv s p.1) s
    if p.2.toResume = [] then s else resumeRest { s with cur := Issue.reset } p.1) s

/-- One step of the machine: the next turn of the agenda, else the device's own. -/
def stepTurn (s : State) : Host.Outcome State Fault Refusal :=
  match s.agenda with
  | t :: r => mapNext settleAll (takeTurn t { s with agenda := r })
  | [] => mapNext settleAll (takeTurn (pickTurn s) s)

end Sys2Proof.Machine
end

