-- ==== Sys2Proof/Machine/Step.lean ====
section
/-! DEFINITION. One step of the machine, and a state whose next step issues one given instruction (log entry 7). -/

namespace Sys2Proof.Machine

/-- One step: the next turn of the agenda, or the device's own next step where it is empty (log entry 5). -/
def step (s : State) : Host.Outcome State Fault Refusal := stepTurn s

/-- The block that holds one word to issue, and a record of zeros after it. -/
def fetchBlock : BlockInfo := ⟨0x100040, 2, 0, 0, 0xFFFF, 0, 0x100050, none⟩

/-- The wave that issues it: 32 lanes in wave slot 0 of core 0, window V0 to V127, 8 keep slots. -/
def fetchWave (s : State) : Wave :=
  let v : Wave :=
    { uid := s.nextUid, kind := .kernel, part := corePart s 0, block := 0, launch := 0, blockIdx := 0, waveIdx := 0, waves := 1,
      nblk := 1, prio := 0, modl := 0x100000, entry := 0, table := [fetchBlock], winBase := 0, window := 128, nkeep := 8,
      ngroup := 0, groupBase := 0, priv := 0, privBase := privBaseOf s 0 0, step := (dieOf s 0).stepping, args := [],
      uni := [], vals := [], uniPoison := [], valPoison := [], div := [], divMem := 0, divLanes := 0, divRan := [], evals := [], committed := 0, adopted := 0, parked := false,
      halted := false, stop := none, replay := [], report := none, serves := none, slot0 := Slot.reset, slot1 := Slot.reset }
  putSlot v 0 (pathSlot v (coreOf s 0).cycle 0 0 0xFFFFFFFF 0xFFFF)

/-- The Sinter entry of its block: the records, or a bundle of explicit code. -/
def fetchEntry (s : State) (recs : List Word) (code : List W32) : SEntry where
  key := slotKey s 0 (fetchWave s) 0 (blockAddr (fetchWave s) 0)
  part := corePart s 0
  start := 0
  modl := 0x100000
  blk := 0
  kind := 0
  vof := 0xFFFF
  nrec := 2
  recs := recs
  lits := []
  marker := none
  code := code
  map := if code = [] then [] else if code.getD 2 0 = 0 then [1, 3] else [1, 2]
  failed := false
  placement := none
  pages := []

/-- The bundle that holds a die word: after a DLIT a word with a tail, after another the tail's place and a NOP (R201). -/
def fetchCode (w : W32) : List W32 :=
  if w.toNat / 2 ^ 24 % 2 ^ 7 = 0x61 then [0, w, 0x80800000, 0, 0, 0, 0, 0] else [0, w, 0, 0x80000000, 0, 0, 0, 0]

/-- The divergence work that a DSPL word completes, as the word before it leaves it (R205). -/
def fetchPending (w : W32) : Option Pending :=
  if w.toNat / 2 ^ 24 % 2 ^ 7 = 0x62 then some ⟨w.toNat % 4, 0, 0, 0⟩ else none

/-- The records of a tender block but LOOP, which a plain block may hold too (R176). -/
def tenderOp (w : Nat) : Bool :=
  let op := w / 2 ^ 57 % 2 ^ 7
  op = 0x55 || op = 0x56 || op = 0x57 || op = 0x59 || op = 0x5A || op = 0x5B

/-- The stream that runs a tender record. -/
def fetchStream (w : Word) : Tender := ⟨0, 0, [w, 0], [], none, 0, 0, 0, 0, .ready, 0⟩

/-- The state whose core 0 belongs to a running partition: its own, or partition 0, whose CLMAP then names cluster 0 (R22,
R350). -/
def fetchPart (s : State) : State :=
  onPart s (if corePart s 0 < 8 then corePart s 0 else 0) (fun q => { q with clmap := q.clmap ||| 1, pswap := .running })

/-- The state with an instruction where the next step issues it: an Isien record of 64 bits in a block of a wave of core 0,
or as the record of its tender's stream; a die word of 32 bits as the first word of a bundle, a DSPL behind the divergence
work it completes. The core's cluster is given to a running partition (`fetchPart`), and the turn is that core's. -/
def State.withFetchWord (s0 : State) (nbits w : Nat) : State :=
  let s := fetchPart s0
  if 64 ≤ nbits && tenderOp w then
    { onCore s 0 (fun k => { k with tenders := [fetchStream (BitVec.ofNat 64 w)], active := some 0 }) with agenda := [.tender 0] }
  else
    let die : W32 := BitVec.ofNat 32 w
    let e := if 64 ≤ nbits then fetchEntry s [BitVec.ofNat 64 w, 0] [] else fetchEntry s [0, 0] (fetchCode die)
    let v := fetchWave s
    let v := if 64 ≤ nbits then v else putSlot v 0 { slotOf v 0 with dspl := fetchPending die }
    let s1 := onDie (onCore s 0 (fun k => putWave k 0 (some v))) 0 (fun d => putEntry d e)
    { s1 with nextUid := s.nextUid + 1, agenda := [.issue 0 false] }

end Sys2Proof.Machine
end

