-- ==== Sys2Proof/Certificates/Slice0/Obligations.lean ====
section
/-! DEFINITION. The statements for the provers. Each is about the machine, at every state its hypotheses allow; the rules of
spec/ are named in the docstrings. -/

open Sys2Proof Sys2Proof.Machine

/-! ## Vocabulary -/

namespace Sys2Proof.Cert

/-- The state after a record has given its lanes the values `f` and its slot has gone on. -/
def commits (s : State) (k : Ctx) (u : Bool) (out : Ty) (f : Nat → Val) : State :=
  advance (writeResults s k out (resultVals u k.lanes f)) k

/-- At every slot that issues it, the record completes: each lane it runs for gets its value, in whatever form the
destination has, and the slot goes on. -/
def Result (i : Instr) (r : Record) (out : Ty) (f : State → Ctx → Nat → Val) : Prop :=
  ∀ (s : State) (k : Ctx), ctxOf s = some k → exec i s = .next (commits s k r.u out (f s k))

/-- As `Result`, of a record that gives every lane one value. -/
def WaveResult (i : Instr) (out : Ty) (f : State → Ctx → Val) : Prop :=
  ∀ (s : State) (k : Ctx), ctxOf s = some k →
    exec i s = .next (advance (writeResults s k out (k.lanes.map (fun l => (l, f s k)))) k)

/-- As `Result`, where the rule fixes the bits of a lane's value. -/
def ResultBits (i : Instr) (r : Record) (out : Ty) (bit : State → Ctx → Nat → Nat → Bool) : Prop :=
  ∀ (s : State) (k : Ctx), ctxOf s = some k →
    ∃ f : Nat → Word, exec i s = .next (commits s k r.u out (fun l => ⟨f l, 0⟩))
      ∧ ∀ l n, n < 64 → (f l).getLsbD n = bit s k l n

/-- A value without high bytes, from a number. -/
def num (n : Nat) : Val := ⟨BitVec.ofNat 64 n, 0⟩

/-- The types of R236: the integer types and i16x2. -/
def IntTy (t : Ty) : Prop := t.code ≤ 5 ∨ t = .i16x2

/-- n of R236. -/
def width (t : Ty) : Nat := if t = .i16x2 then 16 else if t.wide then 64 else 32
/-- sg of R236. -/
def signed (t : Ty) : Bool := t = .i32 || t = .i64 || t = .i16x2
/-- Element `j` of a value. -/
def elt (t : Ty) (j : Nat) (v : Word) : Nat := v.toNat / 2 ^ (width t * j) % 2 ^ width t
/-- iv of R236. -/
def iv (t : Ty) (x : Nat) : Int := if signed t && 2 ^ (width t - 1) ≤ x then (x : Int) - (2 ^ width t : Nat) else x
/-- lo and hi of R236. -/
def lo (t : Ty) : Int := if signed t then -(2 ^ (width t - 1) : Nat) else 0
def hi (t : Ty) : Int := if signed t then (2 ^ (width t - 1) : Nat) - 1 else (2 ^ width t : Nat) - 1
/-- wrap of R236 at `n` bits. -/
def wrap (n : Nat) (v : Int) : Nat := (v % (2 ^ n : Nat)).toNat
/-- sat of R236. -/
def sat (t : Ty) (v : Int) : Nat := wrap (width t) (max (lo t) (min (hi t) v))
/-- A value from its elements (R236). -/
def packed (t : Ty) (g : Nat → Nat) : Val := num (if t = .i16x2 then g 0 + 2 ^ 16 * g 1 else g 0)

/-- FN 0 wraps, FN 1 saturates (R237, IADD and ISUB). -/
def sumRule (t : Ty) (fn : BitVec 5) (v : Int) : Nat := if fn = 1 then sat t v else wrap (width t) v
/-- FN 0 the low half, FN 1 the high half, FN 2 saturates (R237, IMUL and IMAD). -/
def productRule (t : Ty) (fn : BitVec 5) (v : Int) : Nat :=
  if fn = 1 then wrap (2 * width t) v / 2 ^ width t else if fn = 2 then sat t v else wrap (width t) v
/-- R238. -/
def divideRule (t : Ty) (fn : BitVec 5) (a b : Nat) : Nat :=
  if iv t b = 0 then (if fn = 0 then 2 ^ width t - 1 else a)
  else
    let q := (iv t a).tdiv (iv t b)
    if fn = 0 then wrap (width t) q else wrap (width t) (iv t a - q * iv t b)
/-- R241, by its table. -/
def shiftLeftRule (n a s : Nat) : Nat := if s < n then a * 2 ^ s % 2 ^ n else 0
def shiftRightRule (n : Nat) (fn : BitVec 5) (a s : Nat) : Nat :=
  if fn = 0 then (if s < n then a / 2 ^ s else 0)
  else
    let ones := if a.testBit (n - 1) then 2 ^ n - 2 ^ (n - min s n) else 0
    a / 2 ^ s % 2 ^ n + ones
/-- CMP of R183. -/
def relation (fn : BitVec 5) (x y : Int) : Bool :=
  match fn.toNat with
  | 0 => decide (x = y)
  | 1 => decide (x ≠ y)
  | 2 => decide (x < y)
  | 3 => decide (x ≤ y)
  | 4 => decide (y < x)
  | _ => decide (y ≤ x)

/-- The lane whose value a lane gets: with U = 1 the lowest active one (R171). -/
def sourceLane (u : Bool) (k : Ctx) (l : Nat) : Nat := if u then k.low else l

/-- Only registers of the named pair, for the lanes of the record, may differ. -/
def RegsBut (s t : State) (k : Ctx) (P : Nat → Nat → Prop) : Prop :=
  ∀ r l, l < 32 → regGet (coreOf t k.core) r l ≠ regGet (coreOf s k.core) r l → P r l

/-- What a record that computes values leaves as it was: all of the state but its core; the core's memory, groups, engine,
streams and debug registers; every other wave; its wave but for its own slot, its values and its uniform slots, with the
marks of damage that a write of them clears. Every byte of every memory, every register of the device and every other core
stands. -/
def Frame (s t : State) (k : Ctx) : Prop :=
  t = { s with cores := t.cores } ∧ (∀ d, d ≠ k.core → coreOf t d = coreOf s d)
    ∧ (∃ regs poison waves, coreOf t k.core = { coreOf s k.core with regs := regs, regPoison := poison, waves := waves })
    ∧ (∀ w, w ≠ k.w → waveOf t k.core w = waveOf s k.core w)
    ∧ ∃ v, waveOf t k.core k.w = some v
      ∧ v = { k.wave with slot0 := v.slot0, slot1 := v.slot1, vals := v.vals, uni := v.uni,
                          valPoison := v.valPoison, uniPoison := v.uniPoison }
      ∧ slotOf v (1 - k.x) = slotOf k.wave (1 - k.x)
      ∧ (slotOf v k.x).mask = k.slot.mask ∧ (slotOf v k.x).jblk = k.slot.jblk ∧ (slotOf v k.x).held = k.slot.held

/-- Records that compute values from values: opcodes 0x01 to 0x2F, BYSW, FEAT, SPCT, SPCC. -/
def computes (i : Instr) : Bool :=
  match i.opRecord with
  | some (op, _) => (0x01 ≤ op && op ≤ 0x2F) || op = 0x31 || op = 0x3D || op = 0x45 || op = 0x46
  | none => false

end Sys2Proof.Cert

open Sys2Proof.Cert

/-! ## Operands and results -/

/-- R167, R168, R174, R171, R189: what each operand form of a record reads in a lane, where no captured value stands in for
it. A U = 1 record's value is the same in every lane, a lane that is not active too; a keep slot that an earlier record of a
coupled body run as its SIMT reading has written reads as the iteration before left it (R53), which the model holds with that
record. -/
def Sys2Proof.Cert.OperandForms : Prop :=
  ∀ (s : State) (k : Ctx) (r : Record) (t : Ty) (l : Nat), s.cur.ops = none →
    (r.a = .dist 0 → opA s k r t l = 0)
    ∧ (∀ d, d ≠ 0 → r.a = .dist d →
      let i := s.cur.rcd - d.toNat
      ((s.cur.recs.getD i 0).getLsbD 56 = false ∨ l ∈ k.act → opA s k r t l = readWidth t (recordValue k.wave i l).lo)
      ∧ (∀ m ms, (s.cur.recs.getD i 0).getLsbD 56 = true → l ∉ k.act → k.act = m :: ms →
          opA s k r t l = readWidth t (recordValue k.wave i m).lo))
    ∧ (∀ n i, r.a = .keep n → s.cur.kind = 2 → keepWriter (s.cur.recs.take s.cur.rcd) n = some i →
        opA s k r t l = readWidth t (recordValue k.wave i l).hi)
    ∧ (∀ n, r.a = .keep n → s.cur.kind ≠ 2 ∨ keepWriter (s.cur.recs.take s.cur.rcd) n = none → opA s k r t l
        = readWidth t (regGet (coreOf s k.core) (keepReg k.wave n.toNat + 1) l ++ regGet (coreOf s k.core) (keepReg k.wave n.toNat) l : BitVec 64))
    ∧ (∀ n, r.a = .unif n → opA s k r t l = readWidth t (smGet 0 k.wave.uni n.toNat))
    ∧ (∀ n, r.a = .arg n → opA s k r t l = readWidth t (k.wave.args.getD n.toNat 0))
    ∧ (∀ v, r.a = .imm v → ¬ (6 ≤ t.code ∧ t.code ≤ 11) → opA s k r t l = readWidth t (BitVec.ofInt 64 v.toInt))
    ∧ (∀ n, r.a = .lit n → opA s k r t l = readWidth t (s.cur.lits.getD n.toNat 0))

/-- R168: a value is read at the width of its consumer's TY, and held extended as its producer's TY says. -/
def Sys2Proof.Cert.ValueWidths : Prop :=
  ∀ (t : Ty) (v : Word),
    (t.wide = true → readWidth t v = v ∧ extendValue t v = v)
    ∧ (t = .pred → (readWidth t v).toNat = v.toNat % 2 ∧ extendValue t v = readWidth t v)
    ∧ (t.wide = false → t ≠ .pred → (readWidth t v).toNat = v.toNat % 2 ^ 32)
    ∧ (t = .i32 → (extendValue t v).toInt = (v.setWidth 32).toInt)
    ∧ (t ≠ .i32 → extendValue t v = readWidth t v)

/-- R167, R168, R174: operands, and the widths they are read and held at. -/
def Obligations.OperandsAndWidths : Prop := OperandForms ∧ ValueWidths

/-- R168, R171, R173, R203, R204: where the values of a completed record are found, for each form of its destination: as the
record's own value while its pass goes on, in the registers or in the uniform slot that a die word names.
Die destinations are those of explicit code (the model's reading, log entry 3). -/
def Obligations.ResultDestination : Prop :=
  ∀ (s : State) (k : Ctx) (u : Bool) (out : Ty) (f : Nat → Val), ctxOf s = some k → (∀ l, (f l).hi = 0) →
    ∃ v, waveOf (commits s k u out f) k.core k.w = some v
      ∧ (s.cur.form.dest = .value → (slotOf v k.x).rcd ≠ 0 → ∀ l ∈ k.lanes,
          recordValue v s.cur.rcd l = ⟨extendValue out (f (sourceLane u k l)).lo, 0⟩)
      ∧ (∀ n, s.cur.form.dest = .vreg n → ∀ l ∈ k.lanes,
          regGet (coreOf (commits s k u out f) k.core) (s.cur.form.win + n.toNat) l
              = (readWidth out (f (sourceLane u k l)).lo).setWidth 32
            ∧ (out.wide = true → regGet (coreOf (commits s k u out f) k.core) (s.cur.form.win + n.toNat + 1) l
                = (f (sourceLane u k l)).lo.extractLsb' 32 32))
      ∧ (∀ n, s.cur.form.dest = .ureg n → k.lanes ≠ [] →
          smGet 0 v.uni n.toNat = extendValue out (f k.low).lo)

/-- R235, R24: the frame of every record that computes values. Only its destination differs: the value of the record itself,
the registers of a vector name of a die word, or its uniform name. -/
def Obligations.ComputingRecordFrame : Prop :=
  ∀ (i : Instr) (s t : State) (k : Ctx), computes i = true → ctxOf s = some k → exec i s = .next t →
    Frame s t k
    ∧ RegsBut s t k (fun r l => ∃ n, s.cur.form.dest = .vreg n ∧ l ∈ k.lanes
        ∧ (r = s.cur.form.win + n.toNat ∨ r = s.cur.form.win + n.toNat + 1))
    ∧ (∀ v n, waveOf t k.core k.w = some v → smGet 0 v.uni n ≠ smGet 0 k.wave.uni n →
        ∃ m, s.cur.form.dest = .ureg m ∧ n = m.toNat)
    ∧ (∀ v n l, waveOf t k.core k.w = some v → (slotOf v k.x).rcd ≠ 0 → l < 32 → (n ≠ s.cur.rcd ∨ l ∉ k.lanes) →
        recordValue v n l = recordValue k.wave n l)

/-- R24, R172: a completed record moves its slot to the next record of the block; after the last one of a plain block, to
record 0 of the block that follows, with no value of the pass left. -/
def Obligations.PositionAfterRecord : Prop :=
  ∀ (s : State) (k : Ctx), ctxOf s = some k → s.cur.replay = false → k.slot.dieAt = none →
    (k.slot.rcd + 1 < blockRecs k.wave k.slot.blk →
      ∃ v, waveOf (advance s k) k.core k.w = some v ∧ (slotOf v k.x).rcd = k.slot.rcd + 1
        ∧ (slotOf v k.x).blk = k.slot.blk ∧ v.vals = k.wave.vals)
    ∧ (¬ k.slot.rcd + 1 < blockRecs k.wave k.slot.blk → k.slot.car = none → blockKind k.wave k.slot.blk = 0 →
      ∃ v, waveOf (advance s k) k.core k.w = some v ∧ (slotOf v k.x).rcd = 0 ∧ (slotOf v k.x).blk = k.slot.blk + 1
        ∧ (slotOf v k.x).baddr = blockAddr k.wave (k.slot.blk + 1)
        ∧ ∀ n l, l < 32 → k.slot.mask.getLsbD l = true → recordValue v n l = ⟨0, 0⟩)

/-! ## Integer and address records -/

/-- R237: IADD and ISUB, element by element, wrapping or saturating. -/
def Sys2Proof.Cert.IntegerAddSubtract : Prop :=
  ∀ r : Record, IntTy r.ty →
    Result (.iadd r) r r.ty (fun s k l => packed r.ty (fun j =>
      sumRule r.ty r.fn (iv r.ty (elt r.ty j (opA s k r r.ty l)) + iv r.ty (elt r.ty j (opB s k r r.ty l)))))
    ∧ Result (.isub r) r r.ty (fun s k l => packed r.ty (fun j =>
      sumRule r.ty r.fn (iv r.ty (elt r.ty j (opA s k r r.ty l)) - iv r.ty (elt r.ty j (opB s k r r.ty l)))))

/-- R237: IMUL and IMAD, the low half, the high half or saturating. -/
def Sys2Proof.Cert.IntegerMultiply : Prop :=
  ∀ r : Record, IntTy r.ty →
    Result (.imul r) r r.ty (fun s k l => packed r.ty (fun j =>
      productRule r.ty r.fn (iv r.ty (elt r.ty j (opA s k r r.ty l)) * iv r.ty (elt r.ty j (opB s k r r.ty l)))))
    ∧ Result (.imad r) r r.ty (fun s k l => packed r.ty (fun j =>
      productRule r.ty r.fn (iv r.ty (elt r.ty j (opA s k r r.ty l)) * iv r.ty (elt r.ty j (opB s k r r.ty l))
        + iv r.ty (elt r.ty j (opC s k r r.ty l)))))

/-- R238: IDIV rounds toward zero; a zero divisor gives all ones, or the dividend as the remainder, and no trap. -/
def Sys2Proof.Cert.IntegerDivide : Prop :=
  ∀ r : Record, (r.ty = .i32 ∨ r.ty = .n32 ∨ r.ty = .i64 ∨ r.ty = .n64) → r.fn = 0 ∨ r.fn = 1 →
    Result (.idiv r) r r.ty (fun s k l => packed r.ty (fun j =>
      divideRule r.ty r.fn (elt r.ty j (opA s k r r.ty l)) (elt r.ty j (opB s k r r.ty l))))

/-- R239: IMIN, IMAX and IABS. -/
def Sys2Proof.Cert.IntegerMinMaxAbs : Prop :=
  ∀ r : Record, IntTy r.ty →
    Result (.imin r) r r.ty (fun s k l => packed r.ty (fun j =>
      let a := elt r.ty j (opA s k r r.ty l)
      let b := elt r.ty j (opB s k r r.ty l)
      if iv r.ty a ≤ iv r.ty b then a else b))
    ∧ Result (.imax r) r r.ty (fun s k l => packed r.ty (fun j =>
      let a := elt r.ty j (opA s k r r.ty l)
      let b := elt r.ty j (opB s k r r.ty l)
      if iv r.ty b ≤ iv r.ty a then a else b))
    ∧ Result (.iabs r) r r.ty (fun s k l => packed r.ty (fun j =>
      sumRule r.ty r.fn ((iv r.ty (elt r.ty j (opA s k r r.ty l))).natAbs : Int)))

/-- R237 to R239: the integer arithmetic records. -/
def Obligations.IntegerArithmetic : Prop := IntegerAddSubtract ∧ IntegerMultiply ∧ IntegerDivide ∧ IntegerMinMaxAbs

/-- R240: AND, OR, XOR and ANDN bit by bit, at the width of TY. -/
def Sys2Proof.Cert.BitwiseLogic : Prop :=
  ∀ r : Record,
    ResultBits (.and r) r r.ty (fun s k l n => (opA s k r r.ty l).getLsbD n && (opB s k r r.ty l).getLsbD n)
    ∧ ResultBits (.or r) r r.ty (fun s k l n => (opA s k r r.ty l).getLsbD n || (opB s k r r.ty l).getLsbD n)
    ∧ ResultBits (.xor r) r r.ty (fun s k l n => (opA s k r r.ty l).getLsbD n ^^ (opB s k r r.ty l).getLsbD n)
    ∧ ResultBits (.andn r) r r.ty (fun s k l n => (opA s k r r.ty l).getLsbD n && !(opB s k r r.ty l).getLsbD n)

/-- R241, R242: shifts by any amount, element by element, and the funnel shift. -/
def Sys2Proof.Cert.Shifts : Prop :=
  ∀ r : Record, IntTy r.ty → r.fn = 0 ∨ r.fn = 1 →
    Result (.shl r) r r.ty (fun s k l => packed r.ty (fun j =>
      shiftLeftRule (width r.ty) (elt r.ty j (opA s k r r.ty l)) (elt r.ty j (opB s k r r.ty l))))
    ∧ Result (.shr r) r r.ty (fun s k l => packed r.ty (fun j =>
      shiftRightRule (width r.ty) r.fn (elt r.ty j (opA s k r r.ty l)) (elt r.ty j (opB s k r r.ty l))))
    ∧ (r.ty.code ≤ 5 → Result (.fshf r) r r.ty (fun s k l =>
      let n := width r.ty
      let p := (opA s k r r.ty l).toNat * 2 ^ n + (opB s k r r.ty l).toNat
      let m := min (opC s k r r.ty l).toNat n
      num (if r.fn = 0 then p * 2 ^ m % 2 ^ (2 * n) / 2 ^ n else p / 2 ^ m % 2 ^ n)))

/-- R240 to R242: bitwise operations and shifts. -/
def Obligations.LogicAndShifts : Prop := BitwiseLogic ∧ Shifts

/-- R243: BCNT counts one bits, or the zero bits above the highest or below the lowest one bit; n for 0. -/
def Sys2Proof.Cert.BitCounts : Prop :=
  ∀ r : Record, r.ty.code ≤ 5 →
    ∀ (s : State) (k : Ctx), ctxOf s = some k →
      ∃ f : Nat → Nat, exec (.bcnt r) s = .next (commits s k r.u r.ty (fun l => num (f l)))
        ∧ ∀ l, let a := (opA s k r r.ty l).toNat
          let n := width r.ty
          (r.fn = 0 → f l = ((List.range n).filter (fun i => a.testBit i)).length)
          ∧ (r.fn = 1 → (a = 0 → f l = n) ∧ (a ≠ 0 → f l < n ∧ 2 ^ (n - 1 - f l) ≤ a ∧ a < 2 ^ (n - f l)))
          ∧ (r.fn = 2 → (a = 0 → f l = n) ∧ (a ≠ 0 → f l < n ∧ a % 2 ^ f l = 0 ∧ a.testBit (f l) = true))

/-- R244: BFX extracts, extracts signed, or inserts a field of b[7:0] and b[15:8]. -/
def Sys2Proof.Cert.BitFields : Prop :=
  ∀ r : Record, r.ty.code ≤ 5 → r.fn.toNat ≤ 2 →
    ResultBits (.bfx r) r r.ty (fun s k l i =>
      let a := opA s k r r.ty l
      let c := opC s k r r.ty l
      let n := width r.ty
      let pos := (opB s k r r.ty l).toNat % 256
      let len := min ((opB s k r r.ty l).toNat / 256 % 256) n
      let field (j : Nat) : Bool := j < len && pos + j < n && a.getLsbD (pos + j)
      if r.fn = 0 then field i
      else if r.fn = 1 then i < n && len ≠ 0 && field (min i (len - 1))
      else if pos ≤ i && i < min (pos + len) n then c.getLsbD (i - pos)
      else a.getLsbD i)

/-- R243, R244: BCNT and BFX. -/
def Obligations.BitCountsAndFields : Prop := BitCounts ∧ BitFields

/-- R245: ICMP gives a predicate; for i16x2 both halves must satisfy the relation. -/
def Sys2Proof.Cert.IntegerCompare : Prop :=
  ∀ r : Record, IntTy r.ty → r.fn.toNat ≤ 5 →
    Result (.icmp r) r .pred (fun s k l =>
      let holds (j : Nat) : Bool :=
        relation r.fn (iv r.ty (elt r.ty j (opA s k r r.ty l))) (iv r.ty (elt r.ty j (opB s k r r.ty l)))
      num (if holds 0 && (r.ty ≠ .i16x2 || holds 1) then 1 else 0))

/-- R246 to R248: SEL chooses by bit 0 of C; LEA is a + b·2^FN modulo 2^64; MOV takes A, MOV.hi the high 8 bytes of the
record before it; NOP only moves on. -/
def Sys2Proof.Cert.SelectLeaMove : Prop :=
  ∀ r : Record,
    Result (.sel r) r r.ty (fun s k l => ⟨if (opC s k r .pred l).getLsbD 0 then opA s k r r.ty l else opB s k r r.ty l, 0⟩)
    ∧ Result (.lea r) r .b64 (fun s k l =>
        num (((opA s k r .b64 l).toNat + (opB s k r .i64 l).toNat * 2 ^ r.fn.toNat) % 2 ^ 64))
    ∧ (r.fn = 0 → Result (.mov r) r r.ty (fun s k l => ⟨opA s k r r.ty l, 0⟩))
    ∧ (r.fn = 1 → r.a = .dist 1 → ∀ (s : State) (k : Ctx), ctxOf s = some k → s.cur.ops = none →
        exec (.mov r) s = .next (commits s k r.u r.ty (fun l => ⟨(recordValue k.wave (s.cur.rcd - 1) l).hi, 0⟩)))
    ∧ (∀ (s : State) (k : Ctx), ctxOf s = some k → exec (.nop r) s = .next (advance s k))

/-- R245 to R248: ICMP, SEL, LEA, MOV, NOP. -/
def Obligations.CompareSelectMove : Prop := IntegerCompare ∧ SelectLeaMove

/-! ## Floating-point, conversion and row records -/

namespace Sys2Proof.Cert

/-- The pattern of an operand at the width of its format. -/
def pat (t : Ty) (v : Word) : Nat := v.toNat % 2 ^ (fmtOf t).bits

/-- The four formats of flt (R183, R210). -/
def FltTy (t : Ty) : Prop := t = .f16 ∨ t = .bf16 ∨ t = .f32 ∨ t = .f64

/-- Fraction bits of a format (R210). -/
def fractionBits (t : Ty) : Nat :=
  match t with
  | .f64 => 52
  | .f32 => 23
  | .f16 => 10
  | _ => 7
/-- A pattern of all-ones exponent and a fraction that is not zero: a NaN (R210). -/
def isNan (t : Ty) (x : Nat) : Prop :=
  x / 2 ^ fractionBits t % 2 ^ ((fmtOf t).bits - 1 - fractionBits t) = 2 ^ ((fmtOf t).bits - 1 - fractionBits t) - 1
    ∧ x % 2 ^ fractionBits t ≠ 0
/-- The canonical NaN: positive, quiet, nothing else (R213). -/
def canonicalNan (t : Ty) : Nat :=
  2 ^ ((fmtOf t).bits - 1) - 2 ^ (fractionBits t - 1)

end Sys2Proof.Cert

/-- R249: FADD, FSUB, FMUL and FFMA complete with the exact result rounded once to TY. -/
def Obligations.FloatArithmetic : Prop :=
  ∀ r : Record, FltTy r.ty →
    Result (.fadd r) r r.ty (fun s k l => num (fpRound (fmtOf r.ty) (rndOf r.fn.toNat) false
      (fvAdd (rndOf r.fn.toNat) (fpDecode (fmtOf r.ty) (pat r.ty (opA s k r r.ty l))) (fpDecode (fmtOf r.ty) (pat r.ty (opB s k r r.ty l))))))
    ∧ Result (.fsub r) r r.ty (fun s k l => num (fpRound (fmtOf r.ty) (rndOf r.fn.toNat) false
      (fvAdd (rndOf r.fn.toNat) (fpDecode (fmtOf r.ty) (pat r.ty (opA s k r r.ty l))) (fvNeg (fpDecode (fmtOf r.ty) (pat r.ty (opB s k r r.ty l)))))))
    ∧ Result (.fmul r) r r.ty (fun s k l => num (fpRound (fmtOf r.ty) (rndOf r.fn.toNat) false
      (fvMul (fpDecode (fmtOf r.ty) (pat r.ty (opA s k r r.ty l))) (fpDecode (fmtOf r.ty) (pat r.ty (opB s k r r.ty l))))))
    ∧ Result (.ffma r) r r.ty (fun s k l => num (fpRound (fmtOf r.ty) (rndOf r.fn.toNat) false
      (fvAdd (rndOf r.fn.toNat)
        (fvMul (fpDecode (fmtOf r.ty) (pat r.ty (opA s k r r.ty l))) (fpDecode (fmtOf r.ty) (pat r.ty (opB s k r r.ty l))))
        (fpDecode (fmtOf r.ty) (pat r.ty (opC s k r r.ty l))))))

/-- R249, R213: a NaN operand gives the canonical NaN, whatever the rounding mode; so do ∞ − ∞ and 0·∞. -/
def Sys2Proof.Cert.FloatNan : Prop :=
  ∀ (t : Ty) (md : Rnd) (a b c : Nat), FltTy t → a < 2 ^ (fmtOf t).bits → b < 2 ^ (fmtOf t).bits → c < 2 ^ (fmtOf t).bits →
    (isNan t a ∨ isNan t b →
      fpAdd (fmtOf t) md a b = canonicalNan t ∧ fpSub (fmtOf t) md a b = canonicalNan t
        ∧ fpMul (fmtOf t) md a b = canonicalNan t ∧ fpFma (fmtOf t) md a b c = canonicalNan t)
    ∧ (isNan t c → fpFma (fmtOf t) md a b c = canonicalNan t)
    ∧ fpSub (fmtOf t) md (fpInf (fmtOf t) false) (fpInf (fmtOf t) false) = canonicalNan t
    ∧ fpMul (fmtOf t) md 0 (fpInf (fmtOf t) false) = canonicalNan t

/-- R221, R222: rounding leaves a value of the format as it is, in every mode: a pattern that is no NaN decodes and rounds
to itself. -/
def Sys2Proof.Cert.RoundingKeepsFormatValues : Prop :=
  ∀ (t : Ty) (md : Rnd) (a : Nat), (t = .f16 ∨ t = .bf16 ∨ t = .f32 ∨ t = .f64) → a < 2 ^ (fmtOf t).bits → ¬ isNan t a →
    fpRound (fmtOf t) md false (fpDecode (fmtOf t) a) = a

/-- R213, R221, R222, R249: NaNs, and values that rounding keeps. -/
def Obligations.FloatNanAndRounding : Prop := FloatNan ∧ RoundingKeepsFormatValues

/-- R250 to R253: FMIN, FMAX, FSGN, FCMP and FCLS complete; a minimum is one of its operands or the canonical NaN; FSGN
changes the sign bit alone; FCLS sets exactly one of bits 0 to 9. -/
def Obligations.FloatSelectAndTest : Prop :=
  ∀ r : Record, FltTy r.ty → ∀ (s : State) (k : Ctx), ctxOf s = some k →
    (∃ f : Nat → Nat, exec (.fmin r) s = .next (commits s k r.u r.ty (fun l => num (f l)))
      ∧ ∀ l, let a := pat r.ty (opA s k r r.ty l)
        let b := pat r.ty (opB s k r r.ty l)
        (f l = a ∨ f l = b ∨ f l = canonicalNan r.ty)
        ∧ (r.fn = 1 → isNan r.ty a ∨ isNan r.ty b → f l = canonicalNan r.ty)
        ∧ (r.fn = 0 → isNan r.ty a → ¬ isNan r.ty b → f l = b))
    ∧ (∃ f : Nat → Nat, exec (.fmax r) s = .next (commits s k r.u r.ty (fun l => num (f l)))
      ∧ ∀ l, let a := pat r.ty (opA s k r r.ty l)
        let b := pat r.ty (opB s k r r.ty l)
        (f l = a ∨ f l = b ∨ f l = canonicalNan r.ty)
        ∧ (r.fn = 1 → isNan r.ty a ∨ isNan r.ty b → f l = canonicalNan r.ty)
        ∧ (r.fn = 0 → isNan r.ty a → ¬ isNan r.ty b → f l = b))
    ∧ (∃ f : Nat → Nat, exec (.fsgn r) s = .next (commits s k r.u r.ty (fun l => num (f l)))
      ∧ ∀ l, let h := (fmtOf r.ty).bits - 1
        let a := pat r.ty (opA s k r r.ty l)
        let b := pat r.ty (opB s k r r.ty l)
        f l % 2 ^ h = a % 2 ^ h ∧ f l < 2 ^ (h + 1)
        ∧ ((f l).testBit h = if r.fn = 0 then b.testBit h else if r.fn = 1 then !a.testBit h
            else if r.fn = 2 then false else (a.testBit h ^^ b.testBit h)))
    ∧ (∃ f : Nat → Bool, exec (.fcmp r) s = .next (commits s k r.u .pred (fun l => num (if f l then 1 else 0)))
      ∧ ∀ l, isNan r.ty (pat r.ty (opA s k r r.ty l)) ∨ isNan r.ty (pat r.ty (opB s k r r.ty l)) →
        f l = (r.fn = 1 ∨ r.fn = 7))
    ∧ (∃ f : Nat → Nat, exec (.fcls r) s = .next (commits s k r.u .n32 (fun l => num (2 ^ f l))) ∧ ∀ l, f l < 10)

/-- R254 to R258, R322, R323: FRND, FSCL, CVT, DOTP and SFN complete, and PACK and UNPK of the 16-bit and 8-bit formats: each
lane gets the value rounded, scaled, converted, packed, unpacked or summed as the rules say. -/
def Obligations.ConversionsComplete : Prop :=
  ∀ (r : Record) (s : State) (k : Ctx), ctxOf s = some k →
    (FltTy r.ty → exec (.frnd r) s = .next (commits s k r.u r.ty (fun l =>
      num (fpIntegral (fmtOf r.ty) (rndOf r.fn.toNat) (pat r.ty (opA s k r r.ty l))))))
    ∧ (FltTy r.ty → exec (.fscl r) s = .next (commits s k r.u r.ty (fun l =>
      num (fpRound (fmtOf r.ty) (rndOf r.fn.toNat) false
        (fvScale (iv .i32 (opB s k r .i32 l).toNat) (fpDecode (fmtOf r.ty) (pat r.ty (opA s k r r.ty l))))))))
    ∧ exec (.cvt r) s = .next (commits s k r.u r.ty (fun l =>
      num (cvtResult (readTy 0x21 r.ty r.fn r.b 0) r.ty r.fn.toNat (opA s k r (readTy 0x21 r.ty r.fn r.b 0) l).toNat)))
    ∧ (r.ty = .f16 ∨ r.ty = .bf16 ∨ r.ty = .e4m3 ∨ r.ty = .e5m2 → exec (.pack r) s = .next (commits s k r.u r.ty (fun l =>
      num (((opB s k r r.ty l).toNat * 2 ^ (if r.ty = .e4m3 ∨ r.ty = .e5m2 then 8 else 16)
        + fpRound (fmtOf r.ty) (rndOf r.fn.toNat) (decide (r.fn.toNat / 8 % 2 = 1)) (fpDecode fmtF32 (opA s k r .f32 l).toNat)) % 2 ^ 32))))
    ∧ (r.ty = .f16 ∨ r.ty = .bf16 ∨ r.ty = .e4m3 ∨ r.ty = .e5m2 → exec (.unpk r) s = .next (commits s k r.u .f32 (fun l =>
      num (fpRound fmtF32 .rn false (fpDecode (fmtOf r.ty)
        ((opA s k r r.ty l).toNat / 2 ^ ((fmtOf r.ty).bits * (r.fn.toNat % 8)) % 2 ^ (fmtOf r.ty).bits))))))
    ∧ exec (.dotp r) s = .next (commits s k r.u .f32 (fun l =>
      num (chunkInto (pat .f32 (opC s k r .f32 l)) ((List.range r.ty.elements).map (fun j =>
        fvMul (unpackFv r.ty (r.fn.toNat / 8) j (opA s k r r.ty l).toNat)
          (unpackFv r.ty (r.fn.toNat / 8) j (opB s k r r.ty l).toNat))))))
    ∧ exec (.sfn r) s = .next (commits s k r.u r.ty (fun l =>
      num (sfnValue (coreDie k.core) (dieOf s (coreDie k.core)).stepping r.ty r.fn.toNat (pat r.ty (opA s k r r.ty l)))))

/-- R324 to R327: the row records complete. Each row's lanes share one result of ROWMAX and ROWSUM, and a lane outside the
active lanes or with a zero mask bit is no leaf. -/
def Obligations.RowRecords : Prop :=
  ∀ (r : Record) (s : State) (k : Ctx), ctxOf s = some k →
    (∃ f : Nat → Nat, exec (.rowmax r) s = .next (commits s k r.u r.ty (fun l => num (f l)))
      ∧ (∀ l m, l / rowWidth r = m / rowWidth r → f l = f m)
      ∧ ∀ l, f l = rowRound r.ty (rowLargest fmtF32 (rowLeaves s k r true l)))
    ∧ (∃ f : Nat → Nat, exec (.rowsum r) s = .next (commits s k r.u r.ty (fun l => num (f l)))
      ∧ (∀ l m, l / rowWidth r = m / rowWidth r → f l = f m)
      ∧ ∀ l, f l = rowRound r.ty (treeSum fmtF32 (rowLeaves s k r true l)))
    ∧ exec (.smax r) s = .next (commits s k r.u r.ty (fun l =>
      num (smaxResult r.ty (rowLeaf s k r true l) (rowLeaves s k r true l))))
    ∧ (∃ f : Nat → Nat, exec (.rmsn r) s = .next (commits s k r.u r.ty (fun l => num (f l))))
    ∧ (∀ l, l ∉ k.act → rowLeaf s k r true l = none)
    ∧ (∀ l, r.b ≠ .absent → (opB s k r .pred l).getLsbD 0 = false → rowLeaf s k r true l = none)

/-! ## Records across lanes -/

/-- R259: SHFL reads A of a lane of the same group of width C; a source outside the active lanes reads as 0. -/
def Sys2Proof.Cert.Shuffle : Prop :=
  ∀ r : Record, r.fn.toNat ≤ 3 →
    Result (.shfl r) r r.ty (fun s k l =>
      let w := if r.c = .absent then 32 else (opC s k r .b32 l).toNat
      let x := (opB s k r r.ty l).toNat
      let g := l - l % w
      let i := l % w
      let j := if r.fn = 0 then g + x % w
        else if r.fn = 1 then (if i ≥ x then l - x else l)
        else if r.fn = 2 then (if i + x < w then l + x else l)
        else g + (i ^^^ x) % w
      ⟨if j ∈ k.act then opA s k r r.ty j else 0, 0⟩)

/-- R260, R264: VOTE and UNIF give one value for the wave: over the active lanes' predicates, and the lowest active lane's A. -/
def Sys2Proof.Cert.VoteAndUnif : Prop :=
  ∀ r : Record,
    (∀ (s : State) (k : Ctx), ctxOf s = some k →
      ∃ x : Word, exec (.vote r) s = .next (advance (writeResults s k r.ty (k.lanes.map (fun l => (l, ⟨x, 0⟩)))) k)
        ∧ let p (l : Nat) : Bool := (opA s k r .pred l).getLsbD 0
          (r.fn = 0 → x = if ∀ l ∈ k.act, p l = true then 1 else 0)
          ∧ (r.fn = 1 → x = if ∃ l ∈ k.act, p l = true then 1 else 0)
          ∧ (r.fn = 2 → ∀ n, n < 64 → x.getLsbD n = (k.act.contains n && p n))
          ∧ (r.fn = 3 → x = if (∀ l ∈ k.act, p l = true) ∨ (∀ l ∈ k.act, p l = false) then 1 else 0))
    ∧ WaveResult (.unif r) r.ty (fun s k => ⟨opA s k r r.ty (k.act.headD 0), 0⟩)

/-- R259, R260, R264: SHFL, VOTE and UNIF. -/
def Obligations.LaneExchange : Prop := Shuffle ∧ VoteAndUnif

/-- R261, R262: REDL and SCNL on integers: the exact sum of iv modulo 2^n, the extreme value, or the bitwise combination, over
the active lanes; a scan over those at or below a lane, or below it with .excl. -/
def Obligations.ReductionsAndScans : Prop :=
  ∀ (r : Record) (s : State) (k : Ctx), ctxOf s = some k →
    exec (.redl r) s = .next (advance (writeResults s k r.ty (k.lanes.map (fun l =>
      (l, num (redlValue r.ty r.fn.toNat k.act (fun i => (opA s k r r.ty i).toNat)))))) k)
    ∧ exec (.scnl r) s = .next (commits s k r.u r.ty (fun l =>
      num (scnlValue r.ty r.fn.toNat k.act (fun i => (opA s k r r.ty i).toNat) l)))
    ∧ (r.ty.code ≤ 5 → k.act ≠ [] →
      let a (l : Nat) : Nat := (opA s k r r.ty l).toNat
      let x := redlValue r.ty r.fn.toNat k.act a
      (r.fn = 0 → x = wrap (width r.ty) ((k.act.map (fun l => iv r.ty (a l))).sum))
      ∧ (r.fn = 1 → (∃ l ∈ k.act, x = a l) ∧ ∀ l ∈ k.act, iv r.ty x ≤ iv r.ty (a l))
      ∧ (r.fn = 2 → (∃ l ∈ k.act, x = a l) ∧ ∀ l ∈ k.act, iv r.ty (a l) ≤ iv r.ty x)
      ∧ (r.fn = 3 → ∀ n, x.testBit n = k.act.all (fun l => (a l).testBit n))
      ∧ (r.fn = 4 → ∀ n, x.testBit n = k.act.any (fun l => (a l).testBit n)))
    ∧ (∀ (op l : Nat) (a : Nat → Nat), op < 6 → r.ty.code ≤ 5 → k.act.filter (fun i => i ≤ l) ≠ [] →
      scnlValue r.ty op k.act a l = redlValue r.ty op (k.act.filter (fun i => i ≤ l)) a
        ∧ scnlValue r.ty (op + 8) k.act a l
          = (if k.act.filter (fun i => i < l) = [] then scanIdentity r.ty op else redlValue r.ty op (k.act.filter (fun i => i < l)) a))

/-- R263: GETS gives each lane its value of the special state that A names. -/
def Sys2Proof.Cert.SpecialState : Prop :=
  ∀ (r : Record) (i : BitVec 13) (s : State) (k : Ctx), r.a = .imm i → i.toNat < 16 → ctxOf s = some k →
    ∃ f : Nat → Word, exec (.gets r) s = .next (commits s k r.u r.ty (fun l => ⟨f l, 0⟩))
      ∧ ∀ l,
        (i = 0 → f l = BitVec.ofNat 64 l) ∧ (i = 1 → f l = BitVec.ofNat 64 k.w)
        ∧ (i = 2 → f l = BitVec.ofNat 64 k.wave.waveIdx) ∧ (i = 3 → f l = BitVec.ofNat 64 k.wave.blockIdx)
        ∧ (i = 4 → f l = BitVec.ofNat 64 k.wave.nblk) ∧ (i = 5 → f l = BitVec.ofNat 64 k.wave.waves)
        ∧ (i = 6 → f l = BitVec.ofNat 64 k.core) ∧ (i = 7 → f l = BitVec.ofNat 64 (k.core / 16))
        ∧ (i = 8 → f l = BitVec.ofNat 64 (k.core / 832)) ∧ (i = 9 → f l = BitVec.ofNat 64 k.wave.launch)
        ∧ (i = 10 → f l = BitVec.ofNat 64 k.wave.prio)
        ∧ (i = 11 → ∀ n, n < 64 → (f l).getLsbD n = k.act.contains n)
        ∧ (i = 12 → f l = BitVec.ofNat 64 (coreOf s k.core).cycle)
        ∧ (i = 13 → f l = match k.wave.kind with | .kernel => 0 | .task => 1 | .evaluator => 2 | .handler => 3)
        ∧ (i = 14 → f l = BitVec.ofNat 64 k.wave.part)
        ∧ (i = 15 → f l = if (coreOf s k.core).world then 1 else 0)

/-- R265, R174: KEEP writes the pair of registers of a keep slot in each active lane, or a uniform slot; nothing else of the
device's registers and memories. -/
def Obligations.KeepWrites : Prop :=
  ∀ (r : Record) (s : State) (k : Ctx), ctxOf s = some k →
    (∀ n, r.a = .keep n → ∃ t, exec (.keep r) s = .next t ∧ Frame s t k
      ∧ (∀ l ∈ k.lanes, keepGet (coreOf t k.core) k.wave n.toNat l = extendValue r.ty (opB s k r r.ty l))
      ∧ RegsBut s t k (fun q l => l ∈ k.lanes ∧ (q = keepReg k.wave n.toNat ∨ q = keepReg k.wave n.toNat + 1)))
    ∧ (∀ n, r.a = .unif n → ∃ t v, exec (.keep r) s = .next t ∧ Frame s t k ∧ waveOf t k.core k.w = some v
      ∧ smGet 0 v.uni n.toNat = extendValue r.ty (opB s k r r.ty k.low)
      ∧ (∀ m, m ≠ n.toNat → smGet 0 v.uni m = smGet 0 k.wave.uni m)
      ∧ RegsBut s t k (fun _ _ => False))

/-- R266, R278: BYSW places bytes of the pool A, B as the bytes of C say; FEAT gives the feature words. -/
def Sys2Proof.Cert.ByteSwizzleAndFeatures : Prop :=
  ∀ r : Record,
    Result (.bysw r) r .b32 (fun s k l =>
      let pool := (opA s k r .b32 l).toNat + (opB s k r .b32 l).toNat * 2 ^ 32
      let c := (opC s k r .b32 l).toNat
      num (byswByte pool (c % 256) + byswByte pool (c / 256 % 256) * 256 + byswByte pool (c / 256 ^ 2 % 256) * 256 ^ 2
        + byswByte pool (c / 256 ^ 3 % 256) * 256 ^ 3))
    ∧ (r.fn = 1 → Result (.feat r) r .n64 (fun s k _ =>
      num (coreDie k.core + (dieOf s (coreDie k.core)).stepping.toNat * 16 + (dieOf s (coreDie k.core)).stepset.toNat * 2 ^ 16)))
    ∧ (r.fn = 2 → Result (.feat r) r .n64 (fun s k _ =>
      num (k.wave.step.toNat + (dieOf s (coreDie k.core)).stepping.toNat * 16)))
    ∧ (∀ (s : State) (k : Ctx), ctxOf s = some k → ∃ x : Word, exec (.feat r) s = .next (commits s k r.u .n64 (fun _ => ⟨x, 0⟩)))

/-- R263, R266, R278: GETS, BYSW and FEAT. -/
def Obligations.StateAndFeatures : Prop := SpecialState ∧ ByteSwizzleAndFeatures

/-! ## Control -/

namespace Sys2Proof.Cert

/-- The record issues from a slot of a wave that runs no carriage, as a record and not as a die word. -/
def Plain (s : State) (k : Ctx) : Prop := ctxOf s = some k ∧ k.slot.car = none ∧ s.cur.form.dword = none

/-- The slot's path after a move: its position, its lanes, its reconvergence block. -/
def At (v : Wave) (x b r : Nat) (mask : W32) (jblk : Nat) : Prop :=
  (slotOf v x).st = .eligible ∧ (slotOf v x).blk = b ∧ (slotOf v x).rcd = r ∧ (slotOf v x).baddr = blockAddr v b
    ∧ (slotOf v x).mask = mask ∧ (slotOf v x).jblk = jblk

/-- What a control record leaves as it was: all of the state but the core's waves; every other wave; and of its own wave all
but its slots, its values and its divergence entries. -/
def ControlFrame (s t : State) (k : Ctx) : Prop :=
  t = { s with cores := t.cores } ∧ (∀ d, d ≠ k.core → coreOf t d = coreOf s d)
    ∧ (∃ waves, coreOf t k.core = { coreOf s k.core with waves := waves })
    ∧ (∀ w, w ≠ k.w → waveOf t k.core w = waveOf s k.core w)
    ∧ ∃ v, waveOf t k.core k.w = some v
      ∧ v = { k.wave with slot0 := v.slot0, slot1 := v.slot1, vals := v.vals, valPoison := v.valPoison, div := v.div }

/-- Where a slot goes on after record `r` of block `b`: the record after it, or past the last one record 0 of the block that
it falls through to (R24, R172). -/
def nextAt (v : Wave) (b r : Nat) : Nat × Nat := if r + 1 < blockRecs v b then (b, r + 1) else (fallTarget v b, 0)

end Sys2Proof.Cert

/-- R267, R276: BR moves the slot to record 0 of its target block with all its lanes; YIELD goes on a cycle later. -/
def Sys2Proof.Cert.BranchAndYield : Prop :=
  ∀ (r : Record) (s : State) (k : Ctx), Plain s k →
    (∃ t v, exec (.br r) s = .next t ∧ waveOf t k.core k.w = some v
      ∧ At v k.x (targetBlock s r.a) 0 k.slot.mask k.slot.jblk
      ∧ slotOf v (1 - k.x) = slotOf k.wave (1 - k.x) ∧ ControlFrame s t k)
    ∧ (∀ b : BitVec 13, r.a = .imm b → b.msb = false → targetBlock s r.a = b.toNat)
    ∧ (∀ n, r.a = .lit n → targetBlock s r.a = (s.cur.lits.getD n.toNat 0).toNat % 2 ^ 16)
    ∧ (∃ t v, exec (.yield r) s = .next t ∧ waveOf t k.core k.w = some v
      ∧ (slotOf v k.x).ready = (coreOf s k.core).cycle + 1 ∧ (slotOf v k.x).mask = k.slot.mask ∧ ControlFrame s t k)

/-- R268, R27, R270, R172: BRC and the LOOP of a plain block. With no lane taken the slot goes on to the next record, or,
from the last record of its block, as a LOOP always does, to the block it falls through to; with all taken it moves to the
target; else a reconvergence entry is pushed, the other lanes go on in the slot and the taken lanes take the sibling's slot,
whose path is pushed first where it has one. -/
def Obligations.BranchDiverges : Prop :=
  ∀ (i : Instr) (r : Record) (s : State) (k : Ctx) (taken : W32) (target join : Nat),
    (i = .brc r ∧ target = targetBlock s r.a ∧ (∀ l, l < 32 → (taken.getLsbD l = true ↔ l ∈ k.lanes ∧ ((opB s k r .pred l).getLsbD 0 = true ↔ r.fn = 0)))
      ∨ i = .loop r ∧ s.cur.kind ≠ 2 ∧ target = k.slot.blk
        ∧ (∀ l, l < 32 → (taken.getLsbD l = true ↔ l ∈ k.lanes ∧ (opB s k r .pred l).getLsbD 0 = true))) →
    join = (if r.c = .absent then 0xFFFF else targetBlock s r.c) →
    Plain s k → s.cur.lanes = k.slot.mask → s.cur.replay = false → k.slot.dieAt = none → k.x < 2 →
    let on := nextAt k.wave k.slot.blk k.slot.rcd
    (taken = 0 → ∃ t v, exec i s = .next t ∧ waveOf t k.core k.w = some v ∧ (slotOf v k.x).rcd = on.2
      ∧ (slotOf v k.x).blk = on.1 ∧ (slotOf v k.x).mask = k.slot.mask ∧ v.div = k.wave.div ∧ ControlFrame s t k)
    ∧ (taken ≠ 0 → taken = k.slot.mask → ∃ t v, exec i s = .next t ∧ waveOf t k.core k.w = some v
      ∧ At v k.x target 0 k.slot.mask k.slot.jblk ∧ v.div = k.wave.div ∧ ControlFrame s t k)
    ∧ (taken ≠ 0 → taken ≠ k.slot.mask → divCount k.wave < 64 → (slotOf k.wave (1 - k.x)).st = .empty →
        (slotOf k.wave (1 - k.x)).car = none →
      ∃ t v, exec i s = .next t ∧ waveOf t k.core k.w = some v
        ∧ v.div = .join join k.slot.mask 0 k.slot.jblk :: k.wave.div
        ∧ (slotOf v k.x).mask = k.slot.mask &&& ~~~taken ∧ (slotOf v k.x).rcd = on.2
        ∧ (slotOf v k.x).blk = on.1 ∧ (slotOf v k.x).jblk = join ∧ At v (1 - k.x) target 0 taken join)
    ∧ (taken ≠ 0 → taken ≠ k.slot.mask →
      let y := slotOf k.wave (1 - k.x)
      let held : List DivEntry := if y.held = 0 then [] else [.path (blockRecs k.wave y.blk - 1) y.blk y.held y.jblk]
      divCount k.wave + held.length < 63 → siblingState s k.core k.w k.wave (1 - k.x) = .spills → y.mask ≠ 0 → y.car = none →
      ∃ t v, exec i s = .next t ∧ waveOf t k.core k.w = some v
        ∧ v.div = .path y.rcd y.blk y.mask y.jblk :: held ++ .join join k.slot.mask 0 k.slot.jblk :: k.wave.div
        ∧ (slotOf v k.x).mask = k.slot.mask &&& ~~~taken ∧ (slotOf v k.x).rcd = on.2 ∧ (slotOf v k.x).blk = on.1
        ∧ (slotOf v k.x).jblk = join ∧ At v (1 - k.x) target 0 taken join)
    ∧ (taken ≠ 0 → taken ≠ k.slot.mask → siblingState s k.core k.w k.wave (1 - k.x) = .holds →
      exec i s = .next (slotWaits s k.core k.w k.x .stalled .sibling))

/-- R270: the LOOP of a coupled region run as its SIMT reading holds the lanes that leave; when none loops, every held lane
rejoins and the slot goes on. -/
def Sys2Proof.Cert.LoopOfCoupledRegion : Prop :=
  ∀ (r : Record) (s : State) (k : Ctx) (taken : W32), Plain s k → s.cur.kind = 2 → s.cur.replay = false →
    k.slot.dieAt = none → s.cur.lanes = k.slot.mask →
    (∀ l, l < 32 → (taken.getLsbD l = true ↔ l ∈ k.lanes ∧ (opB s k r .pred l).getLsbD 0 = true)) →
    (taken = 0 → k.slot.rcd + 1 < blockRecs k.wave k.slot.blk → ∃ t v, exec (.loop r) s = .next t
      ∧ waveOf t k.core k.w = some v ∧ (slotOf v k.x).mask = k.slot.mask ||| k.slot.held ∧ (slotOf v k.x).held = 0
      ∧ (slotOf v k.x).rcd = k.slot.rcd + 1)
    ∧ (taken ≠ 0 → ∃ t v, exec (.loop r) s = .next t ∧ waveOf t k.core k.w = some v ∧ (slotOf v k.x).rcd = 1
      ∧ (slotOf v k.x).mask = taken ∧ (slotOf v k.x).held = k.slot.held ||| (k.slot.mask &&& ~~~taken))

/-- R269, R28: a path passes over the JOIN of another block; at its own it waits in the reconvergence entry, and the last
one to arrive goes on after the JOIN with all the entry's lanes. -/
def Obligations.JoinReconverges : Prop :=
  ∀ (r : Record) (s : State) (k : Ctx) (m w : W32) (o : Nat) (es : List DivEntry),
    Plain s k → s.cur.replay = false → k.slot.dieAt = none → k.x < 2 →
    (k.slot.jblk ≠ k.slot.blk →
      ∃ t v, exec (.join r) s = .next t ∧ waveOf t k.core k.w = some v
        ∧ (slotOf v k.x).rcd = (nextAt k.wave k.slot.blk k.slot.rcd).2
        ∧ (slotOf v k.x).blk = (nextAt k.wave k.slot.blk k.slot.rcd).1
        ∧ (slotOf v k.x).mask = k.slot.mask ∧ v.div = k.wave.div)
    ∧ (k.slot.jblk = k.slot.blk → k.wave.divMem = 0 → k.wave.div = .join k.slot.blk m w o :: es →
        k.slot.mask &&& m = k.slot.mask →
      ∃ t v, exec (.join r) s = .next t ∧ waveOf t k.core k.w = some v
        ∧ (w ||| k.slot.mask ≠ m → .join k.slot.blk m (w ||| k.slot.mask) o ∈ v.div)
        ∧ (w ||| k.slot.mask = m → ∃ y, y < 2
          ∧ At v y (nextAt k.wave k.slot.blk 0).1 (nextAt k.wave k.slot.blk 0).2 m o))

/-- R271, R272, R274: CALL, and CALLI and RET whose lanes name one block, move the slot there; a call leaves the portable
address of the following block's record 0 as its link. -/
def Sys2Proof.Cert.CallsAndReturns : Prop :=
  ∀ (r : Record) (s : State) (k : Ctx), Plain s k →
    (∃ t v, exec (.call r) s = .next t ∧ waveOf t k.core k.w = some v
      ∧ At v k.x (targetBlock s r.a) 0 k.slot.mask k.slot.jblk
      ∧ (∀ n, r.b = .keep n → ∀ l ∈ k.lanes,
          keepGet (coreOf t k.core) k.wave n.toNat l = blockAddr k.wave (k.slot.blk + 1)))
    ∧ (∀ (a : Word) (b : Nat), k.lanes ≠ [] → (∀ l ∈ k.lanes, opA s k r .b64 l = a) → callTarget k.wave a = .block b →
      ∃ t v, exec (.calli r) s = .next t ∧ waveOf t k.core k.w = some v ∧ At v k.x b 0 k.slot.mask k.slot.jblk
        ∧ (∀ n, r.b = .keep n → ∀ l ∈ k.lanes,
            keepGet (coreOf t k.core) k.wave n.toNat l = blockAddr k.wave (k.slot.blk + 1)))
    ∧ (∀ (a : Word) (b : Nat), k.lanes ≠ [] → (∀ l ∈ k.lanes, opA s k r .b64 l = a) → linkTarget k.wave a = .block b →
      ∃ t v, exec (.ret r) s = .next t ∧ waveOf t k.core k.w = some v ∧ At v k.x b 0 k.slot.mask k.slot.jblk
        ∧ ControlFrame s t k)
    ∧ (∀ (a : Word), k.lanes ≠ [] → (∀ l ∈ k.lanes, opA s k r .b64 l = a) → a.toNat / 2 ^ 32 = 0xC0000000 →
      ∃ t v, exec (.calli r) s = .next t ∧ waveOf t k.core k.w = some v ∧ (slotOf v k.x).st = .stalled
        ∧ (slotOf v k.x).wait = .bind a)

/-- R273: binding resolves the stub of a slot; where its entry's BASE is the record 0 of a block that may be called, the
slot goes on there. -/
def Sys2Proof.Cert.StubBinds : Prop :=
  ∀ (s q : State) (core slot b : Nat) (v : Wave) (h : Word) (e : ResEntry),
    waveOf s core (slot / 2) = some v → v.halted = false → v.parked = false → (slotOf v (slot % 2)).wait = .bind h →
    resolve s v.part (coreOf s core).world 0 (h.setWidth 32) 3 2 0 0 h = (q, .ok e) → callableAt v e.l.base = some b →
    waveOf q core (slot / 2) = some v →
    ∃ t n, exec (.stubBind core slot) s = .next t ∧ waveOf t core (slot / 2) = some n
      ∧ At n (slot % 2) b 0 (slotOf v (slot % 2)).mask (slotOf v (slot % 2)).jblk ∧ (slotOf n (slot % 2)).wait = .none

/-- R267, R271 to R274, R276: BR, YIELD, CALL, CALLI, RET and the binding of a stub. -/
def Obligations.BranchesAndCalls : Prop := BranchAndYield ∧ CallsAndReturns ∧ StubBinds

/-- R275, R28: the lanes of an EXIT are live nowhere in their wave afterwards; a wave whose last lanes they were is gone. -/
def Obligations.ExitEndsLanes : Prop :=
  ∀ (r : Record) (s : State) (k : Ctx), Plain s k → k.wave.divMem = 0 → k.wave.evals = [] →
    ∃ t, exec (.exit r) s = .next t
      ∧ (∀ v, waveOf t k.core k.w = some v → liveLanes v &&& s.cur.lanes = 0)
      ∧ (liveLanes k.wave &&& ~~~s.cur.lanes = 0 → waveOf t k.core k.w = none)

/-- R205: WIN sets the window offset and the uniform bank of its slot, DLIT the prefix of the word after it, and DSPL does
the divergence work that the word before it left, as its field K says: here that of a branch that no lane or every lane
takes, of a JOIN of another block, and of an EXIT.
Die words run where a Sinter entry holds them (the model's reading, log entry 3). -/
def Obligations.DieWordsComplete : Prop :=
  ∀ (s : State) (k : Ctx) (m : Bool), ctxOf s = some k →
    (∀ (woff : BitVec 7) (ub : Bool), ∃ t v, exec (.win m woff ub) s = .next t ∧ waveOf t k.core k.w = some v
      ∧ (slotOf v k.x).woff = woff ∧ (slotOf v k.x).ub = ub ∧ ControlFrame s t k)
    ∧ (∀ p : BitVec 24, ∃ t v, exec (.dlit m p) s = .next t ∧ waveOf t k.core k.w = some v
      ∧ (slotOf v k.x).dlit = some p ∧ ControlFrame s t k)
    ∧ (∀ target join : Nat, s.cur.ops = none → k.slot.dspl = some ⟨0, 0, target, join⟩ →
      exec (.dspl m 0) s = .next (onWave s k.core k.w (fun v => stepSlot s.cur v k.x)))
    ∧ (∀ target join : Nat, s.cur.ops = none → k.slot.dspl = some ⟨0, maskOf k.lanes, target, join⟩ → maskOf k.lanes ≠ 0 →
      k.slot.car = none → ∃ t v, exec (.dspl m 0) s = .next t ∧ waveOf t k.core k.w = some v ∧ At v k.x target 0 k.slot.mask k.slot.jblk)
    ∧ (∀ p : Pending, s.cur.ops = none → k.slot.dspl = some p → k.slot.jblk ≠ k.slot.blk →
      exec (.dspl m 1) s = .next (onWave s k.core k.w (fun v => stepSlot s.cur v k.x)))
    ∧ (∀ p : Pending, s.cur.ops = none → k.slot.dspl = some p → k.slot.car = none → k.wave.divMem = 0 → k.wave.evals = [] →
      ∃ t, exec (.dspl m 2) s = .next t ∧ ∀ v, waveOf t k.core k.w = some v → liveLanes v &&& s.cur.lanes = 0)

/-! ## Memory -/

namespace Sys2Proof.Cert

/-- What the lanes of a record with a generic address in A ask of memory: kind of access, bytes, order and scope. -/
def asks (s : State) (k : Ctx) (i : Instr) (l : Nat) : Option Req :=
  match i with
  | .ld r => some ⟨l, .load, .load, opA s k r .b64 l, r.ty.memBytes, orderOf r, Scope.ofFn r.fn, 0, 0, none⟩
  | .st r => some ⟨l, .store, .store, opA s k r .b64 l, r.ty.memBytes, orderOf r, Scope.ofFn r.fn, opB s k r r.ty l,
      if r.ty = .kb then opC s k r r.ty l else 0, none⟩
  | .atom r => some ⟨l, .atom (match r.c with
      | .imm v => v.toNat
      | .dimm v => v.toNat
      | _ => 10), .atomic, opA s k r .b64 l, r.ty.memBytes, orderOf r, Scope.ofFn r.fn, opB s k r r.ty l, opC s k r r.ty l, none⟩
  | .atmf r =>
    if r.ty.isFlt then
      some ⟨l, .atmf (match r.c with
        | .imm v => v.toNat
        | .dimm v => v.toNat
        | _ => 10), .atomic, opA s k r .b64 l, r.ty.memBytes, orderOf r, Scope.ofFn r.fn, opB s k r r.ty l, 0, none⟩
    else some ⟨l, .atmf 3, .atomic, opA s k r .b64 l, 2 * r.ty.memBytes, orderOf r, Scope.ofFn r.fn, opB s k r r.ty l,
      opC s k r r.ty l, none⟩
  | .chase r => some ⟨l, .chase ((pairOf k r.a).getD 0) (opB s k r .i64 l), .load, opA s k r .b64 l, 8, .rx, .dv, 0, 0, none⟩
  | .cellMake r => some ⟨l, .make, .store, opA s k r .b64 l, 8, if cellOrder r = .sq then .sq else .rl, .dv,
      BitVec.ofNat 64 ((opB s k r .b64 l).toNat % 2 ^ 24 * 2 ^ 40 + (opC s k r .b64 l).toNat % 2 ^ 40), 0, none⟩
  | .cellPeek r => some ⟨l, .peek (pairOf k r.b), .load, opA s k r .b64 l, 8, cellOrder r, .dv, 0, 0, none⟩
  | _ => none

/-- The record of an instruction. -/
def recordOf (i : Instr) : Record := (i.opRecord.map (fun p => p.2)).getD ⟨false, .b32, 0, .absent, .absent, .absent⟩

/-- The lanes that make accesses: of a U = 1 record the lowest one (R282); of CHASE all of them. -/
def askingLanes (k : Ctx) (i : Instr) : List Nat :=
  match i with
  | .chase _ => k.lanes
  | _ => if (recordOf i).u then k.lanes.take 1 else k.lanes

/-- No access parks on a walk, and every access passes the checks of R359. -/
def AllPass (s q : State) (k : Ctx) (i : Instr) (reqs : List Req) (xs : List Checked) : Prop :=
  parkPage s k (reqs.map (fun p => (p.lane, .ok p))) = none ∧ reqs.length = xs.length
    ∧ ∀ p ∈ reqs.zip xs, laneCheck q k i p.1 = .ok p.2

/-- The accesses of a record take their places in flight, in lane order, under the number that the record has had since it
issued: a record that was parked on a walk keeps its own, and a fence of the sibling that it came before waits for it (R104).
Where the turn does not leave them there, those that may be performed are. -/
def issueAll (s q : State) (k : Ctx) (i : Instr) (ps : List (Req × Checked)) : State × List (Nat × Fail) :=
  let g := (parkedNumber k.slot).getD q.nextAcc
  let t := ps.foldl (startAccess k i (recordOf i) (issueOps s k i) g) q
  let t := match parkedNumber k.slot with
    | some g => fenceSees t k g
    | none => t
  if s.cur.defer then (t, []) else performGroup t g

/-- Resolves the resource pointers of lanes one after another (R280, R283). -/
def resolveLanes (k : Ctx) (right size : Nat) : State → List Word → State × List (Except Fail (ResEntry × Word))
  | s, [] => (s, [])
  | s, p :: ps =>
    let r := bufferPointer s k right size p
    let q := resolveLanes k right size r.1 ps
    (q.1, r.2 :: q.2)

/-- An access in flight to one place of device memory that nothing keeps from performing, no part of which has been performed:
no cell, no carriage on either side, no coupled region that waits for its reply, no lost peer, no poison. -/
def Ready (s : State) (a : Access) (pa : Nat) : Prop :=
  s.accs.find? (fun b => b.id = a.id) = some a ∧ performable s a = true ∧ a.failed = false ∧ a.cell = false
    ∧ a.pieces = [(.dev pa, a.size)] ∧ a.latch = none ∧ carriageOf s a = none ∧ awaited s a = false
    ∧ a.early = none ∧ a.half = none ∧ carriagesWith s (fun car => car.lines.contains (lineOf (.dev pa))) = []
    ∧ (lostPeer s a.core a.wuid a.lane).isSome = false ∧ placePoisoned s (.dev pa) a.size = false
    ∧ a.size ≤ 8 ∧ a.lane < 32 ∧ a.uniform = false ∧ a.form.dest = .value

end Sys2Proof.Cert

/-- R282, R284, R285, R291, R329: LD, ST, ATOM, ATMF, CHASE, CELL.make and CELL.peek whose accesses pass their checks issue
one access a lane, with the address in A and the size, order, scope and operands their rules give, and the slot goes on. -/
def Sys2Proof.Cert.GenericAccessesIssue : Prop :=
  ∀ (i : Instr) (s : State) (k : Ctx) (reqs : List Req) (xs : List Checked), ctxOf s = some k →
    (askingLanes k i).map (asks s k i) = reqs.map some → (∃ l, (asks s k i l).isSome = true) → AllPass s s k i reqs xs →
    (issueAll s s k i (reqs.zip xs)).2 = [] →
    exec i s = .next (advance (issueAll s s k i (reqs.zip xs)).1 k)

/-- R280, R283: LDB and STB resolve the resource pointer of each lane, with the right load or store, and access base + OFF. -/
def Sys2Proof.Cert.BufferAccessesIssue : Prop :=
  ∀ (i : Instr) (r : Record) (right : Nat) (kind : AKind) (need : Need) (s q : State) (k : Ctx) (es : List (ResEntry × Word))
    (xs : List Checked),
    (i = .ldb r ∧ right = 0 ∧ kind = .load ∧ need = .load ∨ i = .stb r ∧ right = 1 ∧ kind = .store ∧ need = .store) →
    ctxOf s = some k →
    resolveLanes k right r.ty.memBytes s ((askingLanes k i).map (fun l => opA s k r .b64 l)) = (q, es.map .ok) →
    (∀ e ∈ es, canonical e.2 = true) →
    let reqs := ((askingLanes k i).zip es).map (fun p => (⟨p.1, kind, need, p.2.2, r.ty.memBytes, orderOf r, Scope.ofFn r.fn,
      if kind = .store then opB s k r r.ty p.1 else 0, if kind = .store ∧ r.ty = .kb then opC s k r r.ty p.1 else 0,
      some p.2.1⟩ : Req))
    AllPass s q k i reqs xs → (issueAll s q k i (reqs.zip xs)).2 = [] →
    exec i s = .next (advance (issueAll s q k i (reqs.zip xs)).1 k)

/-- R282, R168: ACCESS_PERFORMED of a load gives its lane the little-endian number of the bytes at its place, and changes no
byte of memory. -/
def Sys2Proof.Cert.LoadPerforms : Prop :=
  ∀ (s : State) (a : Access) (pa : Nat) (v : Wave), Ready s a pa → a.kind = .load →
    (a.scope ≠ .wv ∧ a.scope ≠ .bk ∨ hasL1 (coreOf s a.core) = false) →
    waveOf s a.core a.wslot = some v → v.uid = a.wuid →
    ∃ t u, exec (.accessPerformed a.id .clean) s = .next t ∧ waveOf t a.core a.wslot = some u
      ∧ recordValue u a.rcd a.lane = ⟨extendValue a.ty (BitVec.ofNat 64 (leNat (memRead s.dmem pa a.size))), 0⟩
      ∧ t.dmem = s.dmem ∧ t.hmem = s.hmem ∧ t.fmem = s.fmem ∧ (∀ b ∈ t.accs, b.id ≠ a.id)

/-- R282: ACCESS_PERFORMED of a store writes the low bytes of B, little-endian, at its place, and no other byte of any
memory. -/
def Sys2Proof.Cert.StorePerforms : Prop :=
  ∀ (s : State) (a : Access) (pa : Nat), Ready s a pa → a.kind = .store →
    ∃ t, exec (.accessPerformed a.id .clean) s = .next t
      ∧ (∀ j, memByte t.dmem j = if pa ≤ j ∧ j < pa + a.size then BitVec.ofNat 8 (a.b.toNat / 256 ^ (j - pa)) else memByte s.dmem j)
      ∧ t.hmem = s.hmem ∧ t.fmem = s.fmem ∧ (∀ b ∈ t.accs, b.id ≠ a.id)

/-- R116, R284: ACCESS_PERFORMED of an ATOM returns the old value and writes the new one in the same event; one that does
not write leaves every byte as it was. -/
def Sys2Proof.Cert.AtomicPerforms : Prop :=
  ∀ (s : State) (a : Access) (pa op : Nat) (v : Wave), Ready s a pa → a.kind = .atom op → a.ty.code ≤ 5 →
    a.size = a.ty.memBytes → waveOf s a.core a.wslot = some v → v.uid = a.wuid →
    let old := leNat (memRead s.dmem pa a.size)
    let new := atomNew op (width a.ty) (signed a.ty) old a.b.toNat a.c.toNat
    ∃ t u, exec (.accessPerformed a.id .clean) s = .next t ∧ waveOf t a.core a.wslot = some u
      ∧ recordValue u a.rcd a.lane = ⟨extendValue a.ty (BitVec.ofNat 64 old), 0⟩
      ∧ (∀ j, memByte t.dmem j = if new.2 = true ∧ pa ≤ j ∧ j < pa + a.size then BitVec.ofNat 8 (new.1 / 256 ^ (j - pa))
          else memByte s.dmem j)
      ∧ t.hmem = s.hmem ∧ t.fmem = s.fmem

/-- R116, R282, R284: loads, stores and atomics are performed.
Performing as one event for each access is the model's reading (log entry 24). -/
def Obligations.AccessesPerform : Prop := LoadPerforms ∧ StorePerforms ∧ AtomicPerforms

/-- R284, its table: the new value of each operation, and whether a write takes place. -/
def Obligations.AtomOperations : Prop :=
  ∀ (t : Ty) (old b c : Nat), t.code ≤ 5 → old < 2 ^ width t → b < 2 ^ width t → c < 2 ^ width t →
    let new (op : Nat) : Nat × Bool := atomNew op (width t) (signed t) old b c
    new 0 = (wrap (width t) (iv t old + iv t b), true)
    ∧ new 1 = (if iv t old ≤ iv t b then old else b, true) ∧ new 2 = (if iv t b ≤ iv t old then old else b, true)
    ∧ new 3 = (old &&& b, true) ∧ new 4 = (old ||| b, true) ∧ new 5 = (old ^^^ b, true) ∧ new 6 = (b, true)
    ∧ new 7 = (if b ≤ old then 0 else wrap (width t) (old + 1), true)
    ∧ new 8 = (if old = 0 ∨ b < old then b else old - 1, true)
    ∧ new 9 = (sat t (iv t old + iv t b), true)
    ∧ new 10 = (if old = c then (b, true) else (old, false))

/-- R119, R120, R121: a fence waits at the port for the wave's accesses issued before it; when none is left, and for .sq the
token is free, it passes: an acquire at .cl or wider drops the lines of the core's L1, and nothing else changes.
What a fence waits for, and what it drops, is the model's reading of R119 to R121 (log entry 24). -/
def Obligations.FencePasses : Prop :=
  ∀ (i : Instr) (r : Record) (s : State) (k : Ctx), (i = .fence r ∨ i = .fenceEng r) → ctxOf s = some k →
    (openBelow s k (portBound s k) = true → ∃ t v, exec i s = .next t ∧ waveOf t k.core k.w = some v
      ∧ (slotOf v k.x).wait = .port (portBound s k) ∧ (slotOf v k.x).rcd = k.slot.rcd ∧ ControlFrame s t k)
    ∧ (openBelow s k (portBound s k) = false → (orderOf r = .sq → tokenFree s (k.core, k.w, k.x) = true) →
        lostLanes s k r = [] →
      exec i s = .next (advance (acquireL1 s k.core (orderOf r) (Scope.ofFn r.fn)) k))
    ∧ (acquireL1 s k.core (orderOf r) (Scope.ofFn r.fn) = s
      ∨ acquireL1 s k.core (orderOf r) (Scope.ofFn r.fn) = setCore s k.core { coreOf s k.core with l1 := [] })
    ∧ ((orderOf r = .aq ∨ orderOf r = .ar) → Scope.ofFn r.fn ≠ .wv → Scope.ofFn r.fn ≠ .bk →
      (coreOf (acquireL1 s k.core (orderOf r) (Scope.ofFn r.fn)) k.core).l1 = [])

namespace Sys2Proof.Cert

/-- R288: SPACE in bits 2 to 0, OWN in bit 3, of an address and the package index of the core that asks. -/
def spaceRule (core : Nat) (a : Word) : Nat :=
  let top := a.toNat / 2 ^ 56
  let own (b : Bool) : Nat := if b then 8 else 0
  if top = 0x80 then 1
  else if top = 0x81 then 2 + own (decide (a.toNat / 2 ^ 36 % 2 ^ 12 = core))
  else if top = 0x82 then 3 + own (decide (a.toNat / 2 ^ 36 % 2 ^ 12 / 16 = core / 16))
  else if canonical a then 0
  else 7

/-- The table of R289: FN 0 .gen, 1 .priv, 2 .scr, 3 .csh. -/
def convertRule (core fn : Nat) (a : Word) : Nat :=
  let top := a.toNat / 2 ^ 56
  let window := top = 0x81 ∨ top = 0x82
  match fn with
  | 0 => if window then a.toNat % 2 ^ 18 else if top = 0x80 then a.toNat % 2 ^ 40 else a.toNat
  | 1 => 0x80 * 2 ^ 56 + a.toNat % 2 ^ 40
  | 2 => if window then 0x81 * 2 ^ 56 + a.toNat % 2 ^ 56 else 0x81 * 2 ^ 56 + core * 2 ^ 36 + a.toNat % 2 ^ 18
  | _ => if window then 0x82 * 2 ^ 56 + a.toNat % 2 ^ 56
    else 0x82 * 2 ^ 56 + core / 16 * 2 ^ 40 + core % 16 * 2 ^ 36 + a.toNat % 2 ^ 18

/-- RQRY of the lanes that ask, one after another (R292). -/
def queryLanes (k : Ctx) (fn : Nat) : State → List Word → State × List (Except Fail Word)
  | s, [] => (s, [])
  | s, h :: hs =>
    let r := queryEntry s k fn h
    let q := queryLanes k fn r.1 hs
    (q.1, r.2 :: q.2)

end Sys2Proof.Cert

/-- R288, R289: SPCT and SPCC complete at every slot that issues them, whatever the address: SPCT gives its space and whether it
is the core's or its cluster's own; SPCC converts it between the spaces. -/
def Sys2Proof.Cert.SpaceQueries : Prop :=
  ∀ r : Record,
    Result (.spct r) r .n32 (fun s k l => num (spaceRule k.core (opA s k r .b64 l)))
    ∧ (r.fn.toNat ≤ 3 → Result (.spcc r) r .b64 (fun s k l => num (convertRule k.core r.fn.toNat (opA s k r .b64 l))))

/-- R290, R200: PFD and PFI complete at issue at every slot. PFD may fill lines of its core's L1 data cache and changes nothing
else; PFI may ask for lowerings, as a PFI, and changes nothing else. -/
def Sys2Proof.Cert.PrefetchesComplete : Prop :=
  ∀ (r : Record) (s : State) (k : Ctx), ctxOf s = some k →
    (∃ q : State, exec (.pfd r) s = .next (advance q k)
      ∧ (q = s ∨ ∃ lines, q = setCore s k.core { coreOf s k.core with l1 := lines }) ∧ (r.fn ≠ 1 → q = s))
    ∧ (∃ q : State, exec (.pfi r) s = .next (advance q k) ∧ q = { s with lowerReqs := q.lowerReqs }
      ∧ (∀ x ∈ s.lowerReqs, x ∈ q.lowerReqs) ∧ ∀ x ∈ q.lowerReqs, x ∈ s.lowerReqs ∨ x.pfi = true)

/-- R292: RQRY of handles that all pass its checks completes with the field that FN names: of each lane's own entry, or with
U = 1 of the lowest active lane's in all of them. The checks are of the index, of the entry's read, of GEN but for .kind and
.gen, and of the world. -/
def Sys2Proof.Cert.QueriesEntry : Prop :=
  ∀ (r : Record) (s : State) (k : Ctx), ctxOf s = some k →
    (∀ (q : State) (vs : List Word), queryLanes k r.fn.toNat s ((accessLanes k r).map (fun l => opA s k r .b64 l)) = (q, vs.map .ok) →
        sameRun q k = true →
      (r.u = false → exec (.rqry r) s = .next (advance (writeResults q k r.ty ((k.lanes.zip vs).map (fun p => (p.1, ⟨p.2, 0⟩)))) k))
      ∧ (∀ v ws, r.u = true → vs = v :: ws →
        exec (.rqry r) s = .next (advance (writeResults q k r.ty (k.lanes.map (fun l => (l, ⟨v, 0⟩)))) k)))
    ∧ (∀ (t q : State) (h : Word) (e : ResEntry), h.toNat % 2 ^ 32 / 256 < (partOf t k.wave.part).rtlen.toNat →
      readEntry true t k.wave.part (coreOf t k.core).world (h.toNat % 2 ^ 32 / 256) = (q, .ok e) →
      (r.fn = 2 ∨ r.fn = 3 ∨ e.l.gen = h.setWidth 8) → (e.l.world = false ∨ (coreOf t k.core).world = true) →
      queryEntry t k r.fn.toNat h = (acquireL1 q k.core .aq .dv, .ok (if r.fn = 0 then e.l.base else if r.fn = 1 then e.l.size
        else if r.fn = 2 then BitVec.ofNat 64 e.l.kind else if r.fn = 3 then e.l.gen.setWidth 64
        else if r.fn = 4 then e.l.pubver.setWidth 64 else e.l.rights.setWidth 64)))

/-- R200, R288 to R290, R292: SPCT, SPCC, RQRY, PFD, PFI. -/
def Obligations.QueriesAndHints : Prop := SpaceQueries ∧ QueriesEntry ∧ PrefetchesComplete

/-! ## Cells, barriers, tags, streams, tasks -/

/-- R144, R291: CELL.set and CELL.tag of lanes that may commit complete: they are noted in the carriage, with their lane and
record, and the lines of the lanes' cells join its footprint; the cells change at the commit alone. -/
def Sys2Proof.Cert.CellCommitsAreNoted : Prop :=
  ∀ (i : Instr) (r : Record) (s : State) (k : Ctx) (op : Nat → CellOp) (xs : List Checked) (car : Carriage),
    (i = .cellSet r ∧ (∀ l, op l = .set (opB s k r .b64 l)) ∨ i = .cellTag r ∧ (∀ l, op l = .tag)) →
    ctxOf s = some k → k.slot.car = some car →
    let reqs : List Req := k.lanes.map (fun l => ⟨l, .store, .write, opA s k r .b64 l, 8, .rx, .dv, 0, 0, none⟩)
    AllPass s s k i reqs xs → sameRun (xs.foldl (fun t x => markChecked t k.wave.part .write x) s) k = true →
    (∀ l ∈ k.lanes, mayCommit k l (opA s k r .b64 l) = true) →
    exec i s = .next (advance (onSlotOf ((xs.foldl (fun t x => markChecked t k.wave.part .write x) s)) k.core k.w k.x
      (fun t => { t with car := t.car.map (fun c => { c with
        cells := c.cells ++ k.lanes.map (fun l => ⟨l, s.cur.rcd, op l⟩),
        lines := (c.lines ++ k.lanes.filterMap (fun l => (evalOf k.wave l).map (fun e => lineOf (.dev e.pa)))).eraseDups }) })) k)

/-- R42, R145: a carriage that has ended commits: its stores, its cells, its tasks and its launches take effect in one event, and
its slot goes on without it. A commit whose cell is no longer the lane's stops the wave instead; so does an EXIT that meets a
damaged divergence area, and the carriage then commits nothing (R26, R275). -/
def Sys2Proof.Cert.CarriageCommits : Prop :=
  ∀ (s : State) (core slot : Nat) (v : Wave) (car : Carriage), waveOf s core (slot / 2) = some v →
    (slotOf v (slot % 2)).car = some car → commitReady s (core, slot / 2, slot % 2) v (slotOf v (slot % 2)) car = true →
    (exitDamaged s (core, slot / 2, slot % 2) car = false → lostCommits s v car = [] → exec (.carriageCommit core slot) s = .next (afterCarriage
      (commitEffects (onSlotOf s core (slot / 2) (slot % 2) (fun t => { t with car := none })) (core, slot / 2, slot % 2) v car)
      (core, slot / 2, slot % 2) (slotOf v (slot % 2)) car (blockRecs v (slotOf v (slot % 2)).blk)))
    ∧ (exitDamaged s (core, slot / 2, slot % 2) car = true → exec (.carriageCommit core slot) s
      = .next (exitFails s (core, slot / 2, slot % 2) v (slotOf v (slot % 2)) car))
    ∧ (∀ c cs, exitDamaged s (core, slot / 2, slot % 2) car = false → lostCommits s v car = c :: cs →
      exec (.carriageCommit core slot) s = .next (commitFails s (core, slot / 2, slot % 2) v (slotOf v (slot % 2)) car (c :: cs)))

/-- R42, R144, R145, R291: cell commits and the commit of a carriage.
The order of a commit and its control record is the model's reading (log entry 11). -/
def Obligations.CommitsOfCarriages : Prop := CellCommitsAreNoted ∧ CarriageCommits

/-- R35, R293: an arrival of a member is counted; the phase completes at the arrival that fills it when nothing is pending,
and then a waiting slot goes on; before that a BAR.wait leaves its slot waiting on the phase. -/
def Sys2Proof.Cert.BarrierArrivals : Prop :=
  ∀ (i : Instr) (r : Record) (wait : Bool) (s : State) (k : Ctx),
    (i = .barWait r ∧ wait = true ∨ i = .barArrive r ∧ wait = false) → ctxOf s = some k → s.cur.replay = false →
    let e := groupEntryOf k r.a
    let g := groupOf (coreOf s k.core) e
    g.members.getLsbD k.wave.waveIdx = true → openBelow s k (portBound s k) = false → g.arrived < g.expect →
    ∃ t v, exec i s = .next t ∧ waveOf t k.core k.w = some v
      ∧ (g.arrived + 1 ≠ g.expect ∨ g.pending ≠ 0 →
        groupOf (coreOf t k.core) e = { g with arrived := g.arrived + 1, amask := g.amask ||| BitVec.ofNat 16 (2 ^ k.wave.waveIdx) }
          ∧ (wait = true → (slotOf v k.x).st = .waiting ∧ (slotOf v k.x).wait = .barrier e g.phase))
      ∧ (g.arrived + 1 = g.expect → g.pending = 0 → g.held = [] →
        (groupOf (coreOf t k.core) e).phase = !g.phase ∧ (groupOf (coreOf t k.core) e).arrived = 0
          ∧ (wait = true → (slotOf v k.x).st = .eligible))

/-- R35, R293: BEXP claims CREDIT first and adds the rest to PENDING. -/
def Sys2Proof.Cert.BarrierExpects : Prop :=
  ∀ (r : Record) (s : State) (k : Ctx), ctxOf s = some k →
    let e := groupEntryOf k r.a
    let g := groupOf (coreOf s k.core) e
    let n := (opB s k r .n32 k.low).toNat
    g.pending + (n - g.credit) ≤ 0xFFFFFF → g.arrived ≠ g.expect →
    exec (.bexp r) s = .next (advance (onCore s k.core (fun q =>
      putGroup q e { g with credit := g.credit - n, pending := g.pending + (n - g.credit) })) k)

/-- R35, R293: arrivals and expectations. -/
def Obligations.Barriers : Prop := BarrierArrivals ∧ BarrierExpects

/-- R304, R122: a WAIT whose condition holds acquires and gives its value to every active lane, TAGS.read the tag bits,
TAGS.clr the bits before it clears those of the mask; a WAIT whose condition does not hold leaves its slot WAITING at the
record. -/
def Sys2Proof.Cert.TagRecords : Prop :=
  ∀ (r : Record) (s : State) (k : Ctx), ctxOf s = some k →
    let m := opA s k r .n64 k.low
    let b := (coreOf s k.core).tagBits &&& m
    let gives (q : State) (v : Word) : State := advance (writeResults q k r.ty (k.lanes.map (fun l => (l, ⟨v, 0⟩)))) k
    (b ≠ 0 ∨ m = 0 → exec (.waitAny r) s = .next (gives (acquireL1 s k.core .aq .dv) b))
    ∧ (b = m → exec (.waitAll r) s = .next (gives (acquireL1 s k.core .aq .dv) m))
    ∧ (m = 0 → exec (.waitFirst r) s = .next (gives (acquireL1 s k.core .aq .dv) 64))
    ∧ (∀ i, b.getLsbD i = true → (∀ j, j < i → b.getLsbD j = false) → exec (.waitFirst r) s = .next (gives (acquireL1
        (onCore s k.core (fun q => { q with tagBits := q.tagBits &&& ~~~((1 : Word) <<< i) })) k.core .aq .dv) (BitVec.ofNat 64 i)))
    ∧ exec (.tagsRead r) s = .next (gives s (coreOf s k.core).tagBits)
    ∧ exec (.tagsClr r) s = .next (gives (onCore s k.core (fun q => { q with tagBits := q.tagBits &&& ~~~m })) (coreOf s k.core).tagBits)
    ∧ (b = 0 → m ≠ 0 → exec (.waitAny r) s = .next (slotWaits s k.core k.w k.x .waiting (.tags m false))
      ∧ exec (.waitFirst r) s = .next (slotWaits s k.core k.w k.x .waiting (.tags m false)))
    ∧ (b ≠ m → exec (.waitAll r) s = .next (slotWaits s k.core k.w k.x .waiting (.tags m true)))

/-- R304: WAIT.ring gives HEAD once it differs from the index, and waits while it does not. -/
def Sys2Proof.Cert.RingWait : Prop :=
  ∀ (r : Record) (s q : State) (k : Ctx) (e : ResEntry), ctxOf s = some k →
    let h := opA s k r .n64 k.low
    let want := (opB s k r .n64 k.low).toNat % 2 ^ 32
    let head := leNat ((e.l.kspec.drop 4).take 4)
    resolve s k.wave.part (coreOf s k.core).world 0 (h.setWidth 32) 5 0 0 0 (h &&& 0xFFFFFFFF) = (q, .ok e) →
    (head ≠ want → exec (.waitRing r) s = .next (advance (writeResults (acquireL1 q k.core .aq .sy) k r.ty
      (k.lanes.map (fun l => (l, ⟨BitVec.ofNat 64 head, 0⟩)))) k))
    ∧ (head = want → exec (.waitRing r) s = .next (slotWaits q k.core k.w k.x .waiting (.ring e.l.idx want)))

/-- R304: the WAIT and TAGS records. -/
def Obligations.TagsAndRings : Prop := TagRecords ∧ RingWait

/-- R125, R305: SPOP takes the FULL slot at the read index and gives its address, SREL frees the oldest TAKEN slot; an
unbound stream traps with STREAM_UNBOUND. -/
def Obligations.StreamRecords : Prop :=
  ∀ (r : Record) (s : State) (k : Ctx) (a : BitVec 13) (t : Stream), ctxOf s = some k → r.a = .imm a → a.toNat < 8 →
    (streamAt (coreOf s k.core) a.toNat = some t → t.slots.getD t.ridx .free = .full →
      exec (.spop r) s = .next (advance (writeResults (acquireL1 (onCore s k.core (fun q => putStream q a.toNat
        (some { t with slots := setAt t.slots t.ridx .taken, ridx := nextSlot t t.ridx }))) k.core .aq .dv) k r.ty
        (k.lanes.map (fun l => (l, ⟨t.base + BitVec.ofNat 64 (t.slotsz * t.ridx), 0⟩)))) k))
    ∧ (streamAt (coreOf s k.core) a.toNat = some t → t.slots.getD t.ridx .free ≠ .full →
      exec (.spop r) s = .next (slotWaits s k.core k.w k.x .waiting (.stream a.toNat)))
    ∧ (streamAt (coreOf s k.core) a.toNat = some t → openBelow s k (portBound s k) = false →
      exec (.srel r) s = .next (advance (onCore s k.core (fun q => putStream q a.toNat (some (releaseSlot t)))) k)
        ∧ ∀ i, oldestTaken t = some i → releaseSlot t = { t with slots := setAt t.slots i .free })
    ∧ (streamAt (coreOf s k.core) a.toNat = none →
      exec (.spop r) s = .next (trapState s k (.spop r) causeStreamUnbound (BitVec.ofNat 64 a.toNat)))

/-- R37, R38, R294: SPAWN.task forms one record a lane, in ascending order: held by a carriage until it commits; handed to
the binning stage where the core has no deque; else pushed at the owner end. A record holds the portable address of its
entry's block and the lane's two arguments. -/
def Obligations.TaskSpawns : Prop :=
  ∀ (r : Record) (s : State) (k : Ctx), ctxOf s = some k →
    (k.slot.car.isSome = true → exec (.spawnTask r) s = .next (advance (onSlotOf s k.core k.w k.x (fun t =>
      { t with car := t.car.map (fun c => { c with spawns := c.spawns ++ k.lanes.map (spawnRecord s k r) }) })) k))
    ∧ (k.slot.car = none → openBelow s k (portBound s k) = false → (coreOf s k.core).dqbase = (coreOf s k.core).dqlim →
      ∃ t, exec (.spawnTask r) s = .next t
        ∧ (coreOf t k.core).stage = (coreOf s k.core).stage ++ k.lanes.map (spawnRecord s k r) ∧ t = { s with cores := t.cores })
    ∧ (∀ q, k.slot.car = none → openBelow s k (portBound s k) = false →
        pushLanes s k.core (k.lanes.map (fun l => (l, spawnRecord s k r l))) = (q, []) →
      exec (.spawnTask r) s = .next (advance q k))
    ∧ (∀ c l t ls, bypasses (coreOf s c) t = false → dequeRoom (coreOf s c) = true →
      pushLanes s c ((l, t) :: ls) = pushLanes (pushDeque s c t) c ls)
    ∧ (∀ l, (spawnRecord s k r l).entry = blockAddr k.wave (targetBlock s r.a) ∧ (spawnRecord s k r l).arg0 = opB s k r .b64 l
      ∧ (spawnRecord s k r l).arg1 = opC s k r .b64 l ∧ (spawnRecord s k r l).launch = BitVec.ofNat 32 k.wave.launch
      ∧ (spawnRecord s k r l).eval = false)

/-- R38, R39: DEQUE_POP hands the oldest staged record, else the newest of the deque, to the binning stage; a record of a new
pair starts a bin with its timer; one of a stale launch is dropped. BIN_TIMER_EXPIRY and BIN_LAUNCH launch a bin when its
time or its turn has come. -/
def Sys2Proof.Cert.BinningSteps : Prop :=
  ∀ (s : State) (core : Nat), partRuns s (corePart s core) = true →
    (stageBlocked (coreOf s core) = false → ∀ t r, (coreOf s core).stage = t :: r →
      (staleRecord s core t = true → exec (.dequePop core) s = .next (onCore s core (fun k => { k with stage := r })))
      ∧ (staleRecord s core t = false → (coreOf s core).bins = [] →
        ∃ u, exec (.dequePop core) s = .next u ∧ (coreOf u core).stage = r ∧ u = { s with cores := u.cores }
          ∧ (coreOf u core).bins = [⟨t.entry, t.launch, t.eval, [t],
            (coreOf s core).cycle + (if t.tmr = 0 then (coreOf s core).kcBintmr else 64 * 2 ^ t.tmr.toNat), false⟩]))
    ∧ (stageBlocked (coreOf s core) = false → (coreOf s core).stage = [] → (coreOf s core).dqCount ≠ 0 →
      let t := taskParse (placeRead s (dequePlace (coreOf s core) core ((coreOf s core).dqHead + (coreOf s core).dqCount - 1)) 32)
      staleRecord s core t = true →
        exec (.dequePop core) s = .next (onCore s core (fun k => { k with dqCount := k.dqCount - 1 })))
    ∧ (∀ i b, (coreOf s core).bins[i]? = some b → b.must = false → b.deadline ≤ (coreOf s core).cycle →
      exec (.binTimerExpiry core i) s = .next (launchBin s core i))
    ∧ (∀ i b, (coreOf s core).bins[i]? = some b → b.must = true → exec (.binLaunch core i) s = .next (launchBin s core i))
    ∧ (∀ i b f d sp, (coreOf s core).bins[i]? = some b → binHere s core b = true →
      let m := markBlocks s (corePart s core)
      findEntry m (corePart s core) b.entry (if b.eval then 3 else 2) = some (f, d) → coupledMode (coreOf m core) = false →
      (if b.eval then anySpot m core d.window d.groups.length else ordinarySpot m core d.window 0) = some sp →
      launchBin s core i = binWave (onCore m core (fun k => { k with bins := k.bins.take i ++ k.bins.drop (i + 1) })) core b f d sp)

/-- R40, R141: STEAL moves at most 8 of the victim's oldest records of one launch to the idle thief's binning stage;
EVAL_RECORD_MOVE moves the oldest record of a held evaluator bin, or an evaluator record of the binning stage, to a core with a
free reserve slot. -/
def Sys2Proof.Cert.RecordsMove : Prop :=
  ∀ (s : State) (a b : Nat),
    (a ≠ b → corePart s b = corePart s a → partRuns s (corePart s a) = true → coupledMode (coreOf s a) = false →
      (coreOf s a).dqCount = 0 → (coreOf s a).bins = [] → (coreOf s a).stage = [] → freeSlots (coreOf s a) (reserveOf s a) ≠ [] →
      ∃ t, exec (.steal a b) s = .next t ∧ (coreOf t a).stage = stealFrom s a b ∧ (stealFrom s a b).length ≤ 8
        ∧ (coreOf t b).dqCount = (coreOf s b).dqCount - (stealFrom s a b).length ∧ t = { s with cores := t.cores })
    ∧ (∀ (i : Nat) (n : Bin) (t : TaskRec) (r : List TaskRec), i < 8 → (coreOf s a).bins[i]? = some n → n.recs = t :: r →
      n.eval = true → n.must = true → heldRecord (coreOf s a) i = some (t, if r = [] then dropBin (coreOf s a) i
        else { coreOf s a with bins := setAt (coreOf s a).bins i { n with recs := r } }))
    ∧ (∀ (i : Nat) (t : TaskRec), (coreOf s a).stage[i]? = some t → t.eval = true →
      heldRecord (coreOf s a) (8 + i) = some (t, { coreOf s a with stage := (coreOf s a).stage.eraseIdx i }))
    ∧ (∀ (i : Nat) (t : TaskRec) (k : Core) (e : EvalInfo) (q : State) (x : Except (BitVec 8 × Word) ResEntry),
      heldRecord (coreOf s a) i = some (t, k) → t.ev = some e → a ≠ b →
      b < Config.numCores → corePart s b = corePart s a → partRuns s (corePart s a) = true → coupledMode (coreOf s b) = false →
      (reserveSpot s b).isSome = true → readEntry false s (corePart s a) true e.evix = (q, x) →
      (∀ f, x = .error f → a / 16 = b / 16) → (∀ m, x = .ok m → field m.l.kspec 8 1 % 4 ≠ 2) →
      exec (.evalRecordMove a i b) s = .next (pushStage (onCore q a (fun k => ((heldRecord k i).map (fun h => h.2)).getD k)) b t))

/-- R38 to R40, R141: binning, stealing, moving records.
Which records move, and the lowest free place, are the model's choice (log entries 6, 23). -/
def Obligations.TasksMove : Prop := BinningSteps ∧ RecordsMove

/-! ## The dray engine -/

namespace Sys2Proof.Cert

/-- Forms the commands of lanes one after another. -/
def formAll (form : State → Ctx → Nat → State × Except Fail Cmd) (k : Ctx) : State → List Nat → State × List (Except Fail Cmd)
  | s, [] => (s, [])
  | s, l :: ls =>
    let r := form s k l
    let q := formAll form k r.1 ls
    (q.1, r.2 :: q.2)

end Sys2Proof.Cert

/-- R281, R296, R297: SEND, COPY and PUBL whose commands all pass their checks issue one command for each asking lane, or one
for the wave where every operand is uniform-valued, and the slot goes on; with no room in the engine the slot waits, as it does
for a shadow destination whose OLDREF is not 0 (R99, R302). That the commands of one record wait together is the model's choice
(log entry 13), and that nothing of a record is issued while one of its shadow destinations waits is its reading (log
entry 39). -/
def Sys2Proof.Cert.CommandsIssue : Prop :=
  ∀ (i : Instr) (r : Record) (form : State → Ctx → Nat → State × Except Fail Cmd) (s q : State) (k : Ctx) (cs : List Cmd),
    (i = .send r ∧ form = sendCmd r ∨ i = .copy r ∧ form = copyCmd r
      ∨ i = .publ r ∧ form = publCmd r ∧ openBelow s k (portBound s k) = false) →
    ctxOf s = some k → formAll form k s (commandLanes s k r).1 = (q, cs.map .ok) →
    (engineRoom (coreOf s k.core) cs = true → shadowHeld q cs = none →
      exec i s = .next (advance (cs.foldl (startCmd k.core) q) k))
    ∧ (∀ e, engineRoom (coreOf s k.core) cs = true → shadowHeld q cs = some e →
      exec i s = .next (slotWaits q k.core k.w k.x .stalled (.shadow e)))
    ∧ (engineRoom (coreOf s k.core) cs = false → exec i s = .next (slotWaits s k.core k.w k.x .stalled .engine))
    ∧ ([r.a, r.b, r.c].all (fun o => o = Opnd.absent || uniformValued s o) = true → (commandLanes s k r).1 = k.lanes.take 1)

/-- R297: the tag of a command that has been issued is 0 with one more command outstanding, and returns to 1 when its last
command completes. -/
def Sys2Proof.Cert.TagsCountCommands : Prop :=
  ∀ (s : State) (c : Nat) (q : Cmd), q.tag < 64 →
    (q.len ≠ 0 ∨ q.kind = .publ → q.latch = none →
      (coreOf (startCmd c s q) c).tagBits.getLsbD q.tag = false
      ∧ smGet 0 (coreOf (startCmd c s q) c).tagCnt q.tag = smGet 0 (coreOf s c).tagCnt q.tag + 1
      ∧ (∀ n, n < 64 → n ≠ q.tag → (coreOf (startCmd c s q) c).tagBits.getLsbD n = (coreOf s c).tagBits.getLsbD n))
    ∧ (smGet 0 (coreOf s c).tagCnt q.tag = 1 → (tagDone (coreOf s c) q.tag).tagBits.getLsbD q.tag = true)
    ∧ (1 < smGet 0 (coreOf s c).tagCnt q.tag → (tagDone (coreOf s c) q.tag).tagBits = (coreOf s c).tagBits)

/-- R281, R296, R297: commands and their tags.
The clauses in which a record's commands wait together, and wait for a shadow destination with nothing issued, are the model's
(log entries 13, 39). -/
def Obligations.EngineCommands : Prop := CommandsIssue ∧ TagsCountCommands

/-- R298, R382: ENGINE_COMPLETE of a command whose bytes have all moved completes it; one with a publish to come goes on to
it; a command that has not moved all its bytes moves the rest first. -/
def Sys2Proof.Cert.EngineCompletes : Prop :=
  ∀ (s : State) (core id : Nat) (q : Cmd), cmdOf s core id = some q → partRuns s q.part = true →
    (q.stage = .done → exec (.engineComplete core id .clean) s = .next (asEngine s core (fun s => completeCmd s core q)))
    ∧ (q.stage = .moving → q.len ≤ q.moved → q.publ = true → q.status = 0 →
      exec (.engineComplete core id .clean) s = .next (putCmd (putCmd s core q) core { q with stage := .publish }))
    ∧ (q.stage = .moving → q.len ≤ q.moved → q.publ = false →
      exec (.engineComplete core id .clean) s
        = .next (asEngine s core (fun s => completeCmd (fillSlotOf (putCmd s core q) q) core q)))

/-- R125, R300: a SEND that arrives within its destination's scratchpad begins to move; one to a stream takes the FREE slot
at the write index, which is then reserved; one to an unbound stream is refused with STREAM_UNBOUND. -/
def Sys2Proof.Cert.SendArrives : Prop :=
  ∀ (s : State) (core id : Nat) (q : Cmd), cmdOf s core id = some q → partRuns s q.part = true → q.stage = .travel →
    (q.kind = .send → q.dstOff + q.len ≤ roleSize (coreOf s q.dstCore) 0 →
      exec (.sendArrive core id) s
        = .next (putCmd s core { q with owner := (groupOf (coreOf s q.dstCore) q.bent).owner, stage := .moving }))
    ∧ (q.kind = .sendStrm → streamAt (coreOf s q.dstCore) q.stream = none →
      let refused : Cmd := { q with owner := (groupOf (coreOf s q.dstCore) q.bent).owner, stage := .done, status := 2, fault := causeStreamUnbound }
      exec (.sendArrive core id) s = .next (putCmd s core refused))
    ∧ (∀ t : Stream, q.kind = .sendStrm → streamAt (coreOf s q.dstCore) q.stream = some t → q.len ≤ t.slotsz → t.waiting = [] →
        t.slots.getD t.widx .full = .free →
      ∃ u, exec (.sendArrive core id) s = .next u
        ∧ (core ≠ q.dstCore → streamAt (coreOf u q.dstCore) q.stream
          = some { t with slots := setAt t.slots t.widx .reserved, widx := nextSlot t t.widx, waiting := [] }))

/-- R99, R302: a publish on an entry whose PUBVER, generation and kind are as latched and whose OLDREF is 0 exchanges BASE
and SHADOW, makes INFLIGHT the OLDREF, and counts PUBVER; SHADOW_WRITE_ISSUE takes up, at OLDREF 0, the slot of a shadow write
that waits at issue. -/
def Sys2Proof.Cert.PublishExchanges : Prop :=
  (∀ (s t : State) (core id : Nat) (q : Cmd) (l : Latch) (e : ResEntry), cmdOf s core id = some q → partRuns s q.part = true →
    q.latch = some l →
    q.stage = .publish → earlierShadow s q l.idx = false →
    readEntry false { s with cur := { s.cur with who := .engine core } } q.part q.secure l.idx = (t, .ok e) →
        (xlatCheck t q.part q.secure .store (entryAddr s q.part l.idx)).isOk = true →
        e.l.pubver = l.pubver → e.l.gen = l.gen → e.l.kind = l.kind →
      (e.oldref = 0 → exec (.publish core id) s
        = .next { putCmd (swapEntry t q.part e) core { q with stage := .done, pubOut := some (e.l.pubver + 1) } with cur := s.cur })
      ∧ (e.oldref ≠ 0 → exec (.publish core id) s = .next s))
  ∧ ∀ (s t : State) (core slot i : Nat) (v : Wave) (e : ResEntry), waveOf s core (slot / 2) = some v →
    (slotOf v (slot % 2)).wait = .shadow i → v.halted = false → v.parked = false → partRuns s v.part = true →
    readEntry false s v.part (coreOf s core).world i = (t, .ok e) →
    (e.oldref = 0 → exec (.shadowWriteIssue core slot) s = .next (onSlotOf s core (slot / 2) (slot % 2)
      (fun t => { t with st := .eligible, wait := .none, ready := (coreOf s core).cycle })))
    ∧ (e.oldref ≠ 0 → exec (.shadowWriteIssue core slot) s = .next s)

/-- R99, R125, R298, R300, R302: what the engine does with a command.
That a shadow write latches anew when its wait at issue ends is the model's reading (log entry 39). -/
def Obligations.EngineSteps : Prop := EngineCompletes ∧ SendArrives ∧ PublishExchanges

/-- R354: RLIM_WINDOW clears the limiter's counts once the core's clock has passed a multiple of 1,024 cycles since they began,
and changes nothing before. -/
def Sys2Proof.Cert.LimiterWindowEnds : Prop :=
  ∀ (s : State) (core : Nat),
    ∃ t, exec (.rlimWindow core) s = .next t ∧ t = { s with cores := t.cores } ∧ (∀ d, d ≠ core → coreOf t d = coreOf s d)
      ∧ ((coreOf s core).cycle / 1024 ≠ (coreOf s core).rlWin →
        coreOf t core = { coreOf s core with rlSf := 0, rlMac := 0, rlWin := (coreOf s core).cycle / 1024 })
      ∧ ((coreOf s core).cycle / 1024 = (coreOf s core).rlWin → coreOf t core = coreOf s core)

/-! ## The tender -/

namespace Sys2Proof.Cert

/-- The byte ranges of a record's operands are free of what stops a stream: RZ bits clear, inside the role's space, aligned. -/
def RangeOk (k : Core) (role : Nat) (rz : Bool) (off n al : Nat) : Prop :=
  rz = false ∧ 0 < n ∧ off + n ≤ roleSize k role ∧ off % al = 0

/-- The operands of a matrix record, as R308 and R310 compute them: XA, XS, Y and MO, with p passes of XINC and YINC. -/
structure MatOps where
  xa : Nat
  xs : Nat
  y : Nat
  mo : Nat

/-- The operands of MMA and MMAS. -/
def matOps (s : State) (c : Nat) (t : Tender) (r : Record) : MatOps :=
  let a := (tenderOpnd s c t r.a).toNat
  let b := (tenderOpnd s c t r.b).toNat
  let m := (tenderOpnd s c t r.c).toNat
  let xi := t.p * (t.inc.toNat % 2 ^ 18)
  ⟨a % 2 ^ 18 + xi, a / 2 ^ 32 % 2 ^ 18 + xi, b % 2 ^ 18 + t.p * (t.inc.toNat / 2 ^ 32 % 2 ^ 18), m % 2 ^ 18 + xi⟩

/-- The bytes of an accumulator of TY: 8 for f64, else 4. -/
def accBytes (t : Ty) : Nat := if t = .f64 then 8 else 4

/-- What an MMA needs: service of the array, ranges, nothing poisoned, room in the rate window for its cycles. -/
def MatReady (s : State) (c : Nat) (t : Tender) (r : Record) (cycles : Nat) : Prop :=
  let o := matOps s c t r
  let sh := matShape r.ty (r.fn.toNat / 8)
  (r.ty = .e2m1 ∨ r.ty = .kb ∧ r.fn.toNat / 8 = 0 → fourBit s (coreDie c) = true)
    ∧ RangeOk (coreOf s c) 4 (strays (tenderOpnd s c t r.a) 0x3FFFF0003FFFF) o.xa (32 * sh.rs) 32
    ∧ (sh.scales = true → RangeOk (coreOf s c) 4 false o.xs 1024 32)
    ∧ RangeOk (coreOf s c) 5 (strays (tenderOpnd s c t r.b) 0x3FFFF) o.y (1024 * accBytes r.ty) 32
    ∧ (coreOf s c).tilePoison = [] ∧ (coreOf s c).regPoison = [] ∧ macAdmits (coreOf s c) cycles = true

/-- The accumulators of an MMA: element (i, j) from row i of A, column j of B and the old value, over the products `p` keeps. -/
def MatResult (s : State) (c : Nat) (t : Tender) (r : Record) (p : Present) (bs : List Byte) : Prop :=
  let o := matOps s c t r
  let mem := r.fn.toNat / 8
  let sh := matShape r.ty mem
  let es := accBytes r.ty
  let k := coreOf s c
  bs.length = 1024 * es ∧ ∀ i j, i < 32 → j < 32 →
    leNat ((bs.drop (es * (32 * i + j))).take es)
      = updateAcc r.ty sh p j
          (rowOfA r.ty mem (roleRead k 4 (o.xa + sh.rs * i) sh.rs) (if sh.scales then roleRead k 4 (o.xs + 32 * i) 32 else []))
          (columnOfB k t r.ty mem j) (leNat (roleRead k 5 (o.y + es * (32 * i + j)) es)) % 256 ^ es

end Sys2Proof.Cert

/-- R308, R310, R313 to R318: the records of the matrix array. MMA and MMAS write the 1,024 accumulators of the Y buffer, MZY
zeroes them, MSTY converts them, MTILE sets QMAP and INC; then the stream goes to its next record. -/
def Sys2Proof.Cert.MatrixRecords : Prop :=
  ∀ (r : Record) (s : State) (c i : Nat) (t : Tender), tenderOf s = some (c, i, t) →
    let k := coreOf s c
    let a := tenderOpnd s c t r.a
    let b := tenderOpnd s c t r.b
    let m := tenderOpnd s c t r.c
    let yi := t.p * (t.inc.toNat / 2 ^ 32 % 2 ^ 18)
    (MatReady s c t r 128 → ∃ bs, MatResult s c t r (allPresent r.ty (matShape r.ty (r.fn.toNat / 8))) bs
      ∧ exec (.mma r) s = .next (tenderGoes (onCore (storeY s c (matOps s c t r).y bs) c (fun k => { k with rlMac := k.rlMac + 128 })) c i t (t.pc + 1)))
    ∧ (∀ live, let sh := matShape r.ty (r.fn.toNat / 8)
      let mo := (matOps s c t r).mo
      let cycles := (64 * live + vectorCount sh - 1) / vectorCount sh
      mo + 16 ≤ roleSize k 4 → live = (liveVectors sh (leNat (roleRead k 4 mo 16))).length →
      RangeOk k 4 (strays m 0x3FFFF) mo (16 + 4 * live) 32 → MatReady s c t r cycles →
      ∃ bs, MatResult s c t r (sparsePresent r.ty sh (roleRead k 4 mo (16 + 4 * live))) bs
        ∧ exec (.mmas r) s = .next (tenderGoes (onCore (storeY s c (matOps s c t r).y bs) c (fun k => { k with rlMac := k.rlMac + cycles })) c i t (t.pc + 1)))
    ∧ (strays a 0xFFFFFF = false → strays b 0x3FFFF0003FFFF = false → exec (.mtile r) s
      = .next (tenderGoes (onCore s c (fun k => onTenderAt k i (fun t => { t with qmap := a, inc := b }))) c i t (t.pc + 1)))
    ∧ (∀ n, b = 0 ∧ n = 4096 ∨ b = 1 ∧ n = 8192 → RangeOk k 5 (strays a 0x3FFFF) (a.toNat % 2 ^ 18 + yi) n 32 →
      exec (.mzy r) s = .next (tenderGoes (storeY s c (a.toNat % 2 ^ 18 + yi) (List.replicate n 0)) c i t (t.pc + 1)))
    ∧ (∀ es, m = 0 ∧ es = 4 ∨ m = 1 ∧ es = 8 → FltTy r.ty ∨ r.ty = .e4m3 ∨ r.ty = .e5m2 →
      RangeOk k 5 (strays a 0x3FFFF) (a.toNat % 2 ^ 18 + yi) (1024 * es) 32 →
      RangeOk k 5 (strays b 0x3FFFF) (b.toNat % 2 ^ 18 + yi) (1024 * ((fmtOf r.ty).bits / 8)) 32 → k.tilePoison = [] →
      ∃ bs, exec (.msty r) s = .next (tenderGoes (storeY s c (b.toNat % 2 ^ 18 + yi) bs) c i t (t.pc + 1))
        ∧ bs.length = 1024 * ((fmtOf r.ty).bits / 8)
        ∧ ∀ n, n < 1024 → leNat ((bs.drop ((fmtOf r.ty).bits / 8 * n)).take ((fmtOf r.ty).bits / 8))
          = fpRound (fmtOf r.ty) (rndOf r.fn.toNat) (r.fn.getLsbD 3) (fpDecode (if es = 8 then fmtF64 else fmtF32)
              (leNat (roleRead k 5 (a.toNat % 2 ^ 18 + yi + es * n) es))) % 256 ^ ((fmtOf r.ty).bits / 8))

/-- R307, R311, R312, R35, R248: the tender's own control. LOOP goes back to RST with the next p, and ends the stream after N
passes; TMEET arrives at its group, or its arrival is held; a tender without a stream takes one that is ready and has waited
longest; NOP goes on. -/
def Obligations.TenderControl : Prop :=
  ∀ (r : Record) (s : State) (c i : Nat) (t : Tender), tenderOf s = some (c, i, t) →
    let k := coreOf s c
    let b := tenderOpnd s c t r.b
    exec (.nop r) s = .next (tenderGoes s c i t (t.pc + 1))
    ∧ (strays b 0xFFFFFFF = false → b.toNat / 2 ^ 16 % 2 ^ 12 < t.pc →
      (t.p + 1 < max 1 (b.toNat % 2 ^ 16) → exec (.tenderLoop r) s = .next (onCore s c (fun k =>
        onTenderAt k i (fun t => { t with p := t.p + 1, pc := b.toNat / 2 ^ 16 % 2 ^ 12 }))))
      ∧ (max 1 (b.toNat % 2 ^ 16) ≤ t.p + 1 → exec (.tenderLoop r) s = .next (tenderEnds s c i)))
    ∧ (k.active = none → ∃ o, exec (.tenderSwitch r) s = .next (onCore s c (fun k => { k with active := o }))
      ∧ (∀ j, o = some j → ∃ u, k.tenders[j]? = some u ∧ u.st = .ready
          ∧ ∀ (n : Nat) (w : Tender), k.tenders[n]? = some w → w.st = .ready → u.since ≤ w.since)
      ∧ (o = none → ∀ w ∈ k.tenders, w.st ≠ .ready))
    ∧ (∀ (n : BitVec 13) (p : PlacedBlock), r.a = .imm n → blockOfTender k t = some p →
      let e := p.groupBase + n.toNat
      let g := groupOf k e
      (g.arrived + 1 < g.expect → exec (.tmeet r) s = .next (onCore s c (fun k =>
        { onTenderAt (putGroup k e { g with arrived := g.arrived + 1, tmeet := true }) i
            (fun t => { t with pc := t.pc + 1, st := .tmeet e g.phase false }) with active := none })))
      ∧ (g.expect ≤ g.arrived → exec (.tmeet r) s = .next (onCore s c (fun k =>
        { onTenderAt (putGroup k e { g with held := g.held ++ [.tender i] }) i
            (fun t => { t with pc := t.pc + 1, st := .tmeet e g.phase true }) with active := none })))
      ∧ (g.arrived + 1 = g.expect → g.pending = 0 → g.held = [] → ∃ u, exec (.tmeet r) s = .next u
        ∧ (groupOf (coreOf u c) e).phase = !g.phase ∧ (groupOf (coreOf u c) e).arrived = 0))

/-- R321: LDQ fills five keep slots of each active lane from the W buffer: the quarter's elements in four, low word first, and
its scales in the fifth. -/
def Sys2Proof.Cert.QuarterLoads : Prop :=
  ∀ (r : Record) (n : BitVec 8) (s : State) (k : Ctx), ctxOf s = some k → r.b = .keep n → n.toNat + 5 ≤ k.wave.nkeep →
    2 * k.wave.nkeep ≤ k.wave.window →
    let q := coreOf s k.core
    let wb := (opA s k r .n32 k.low).toNat
    let so := (opC s k r .n32 k.low).toNat
    wb % 16 = 0 → wb + ldqBytes r ≤ roleSize q 3 → (r.c ≠ .absent → so % 8 = 0 ∧ so + 256 ≤ roleSize q 3) → q.tilePoison = [] →
    ∃ t, exec (.ldq r) s = .next t ∧ Frame s t k
      ∧ (∀ l ∈ k.lanes, ∀ j, j < 4 → keepGet (coreOf t k.core) k.wave (n.toNat + j) l
          = BitVec.ofNat 64 (ldqElements q r wb l / 2 ^ (64 * j)))
      ∧ (∀ l ∈ k.lanes, keepGet (coreOf t k.core) k.wave (n.toNat + 4) l
          = if r.c = .absent then 0 else leWord (roleRead q 3 (so + 8 * l) 8))
      ∧ RegsBut s t k (fun g l => l ∈ k.lanes ∧ keepReg k.wave (n.toNat + 4) ≤ g ∧ g ≤ keepReg k.wave n.toNat + 1)
/-! ## Exceptions -/

/-- R310, R313 to R318, R321: the matrix array, and the quarters of B.
Where the 4-bit formats are usable is the model's reading (log entry 22). -/
def Obligations.MatrixWork : Prop := MatrixRecords ∧ QuarterLoads

namespace Sys2Proof.Cert

/-- A wave that can stop with nothing left to settle: no carriage, no access in flight, no record parked at the port or on a
walk. -/
def Settled (s : State) (k : Ctx) : Prop :=
  k.wave.slot0.car = none ∧ k.wave.slot1.car = none ∧ waveAccs s k.core k.w k.wave.uid = []
    ∧ ∀ x, (∀ n g, (slotOf k.wave x).wait ≠ .walk n g) ∧ (∀ g r, (slotOf k.wave x).wait ≠ .walked g r)
      ∧ (∀ n, (slotOf k.wave x).wait ≠ .port n)

/-- If the wave is still there, it is HALTED and holds this stop. -/
def HaltedBy (t : State) (k : Ctx) (cause : BitVec 8) (stop blk rcd : Nat) (lanes : W32) (addr : Word) : Prop :=
  ∀ v, waveOf t k.core k.w = some v → v.halted = true ∧ ∃ p, v.stop = some ⟨cause, stop, k.x, p, blk, rcd, lanes, addr⟩

end Sys2Proof.Cert

/-- R149, R154, R277, R199: TRAP stops its wave with SOFT_TRAP and stays at its position; BRK halts it with BREAK and stands at
the next record; a fetch marker stops it with the marker's cause and address and names the record in whose place it stands
(R385). A wave that no handler takes is not there afterwards. -/
def Obligations.StopsHaltTheWave : Prop :=
  ∀ (r : Record) (s : State) (k : Ctx), ctxOf s = some k → Settled s k → s.cur.replay = false → k.slot.st = .eligible →
    (∃ t, exec (.trap r) s = .next t ∧ HaltedBy t k causeSoftTrap 0 s.cur.blk s.cur.rcd (maskOf k.act) 0
      ∧ ∀ v, waveOf t k.core k.w = some v → (slotOf v k.x).blk = k.slot.blk ∧ (slotOf v k.x).rcd = k.slot.rcd)
    ∧ (∃ t, exec (.brk r) s = .next t ∧ HaltedBy t k causeBreak 2 s.cur.blk s.cur.rcd (maskOf k.lanes) 0
      ∧ ∀ v, waveOf t k.core k.w = some v → k.slot.dieAt = none →
        (slotOf v k.x).blk = (nextAt k.wave k.slot.blk k.slot.rcd).1
          ∧ (slotOf v k.x).rcd = (nextAt k.wave k.slot.blk k.slot.rcd).2)
    ∧ (∀ (c : BitVec 16) (e : SEntry) (m : Marker), slotEntry s k.core k.wave k.slot = some e → e.marker = some m →
      ∃ t, exec (.fetchMarker c) s = .next t ∧ HaltedBy t k (c.setWidth 8) 0 s.cur.blk m.rcd k.slot.mask m.addr
        ∧ ∀ v, waveOf t k.core k.w = some v → (slotOf v k.x).blk = k.slot.blk ∧ (slotOf v k.x).rcd = k.slot.rcd)

/-- R156, R157: how a stop is delivered. A trap of a wave with a handler waits for a handler wave; one without ends the wave;
a trap of a handler wave is only logged; a pre-emption is delivered to nobody. -/
def Sys2Proof.Cert.StopDelivery : Prop :=
  ∀ (s : State) (c w : Nat) (v : Wave) (q : StopInfo), waveOf s c w = some v → v.stop = some q →
    (q.stop = 1 → deliverStop s c w = s)
    ∧ (q.stop = 0 ∨ (coreOf s c).kcDbgring = 0 → q.stop ≠ 1 →
      let m := handlerReads s c v
      (∀ f, v.kind ≠ .handler → handlerEntry m c v = some f →
        deliverStop s c w = onCore m c (fun k => { k with handlers := k.handlers ++ [w] }))
      ∧ (v.kind ≠ .handler → handlerEntry m c v = none → v.divMem = 0 → v.evals = [] → waveOf m c w = some v →
          let e := logEvent m 4 q.cause v.part 0 c q.addr noStage
          waveOf e c w = some v → waveOf (deliverStop s c w) c w = none)
      ∧ (v.kind = .handler → deliverStop s c w = logEvent s 5 q.cause v.part 0 c q.addr noStage))

/-- R154, R158: the fields of the frame header, at their offsets, and what SEAL covers: KILL, FLAGS bit 0, SEAL itself and the
DONE of each replay entry may change without breaking it.
SEAL over its own bytes as zero is the model's reading (log entry 21). -/
def Obligations.FrameHeaderLayout : Prop :=
  (∀ (s : State) (c w : Nat) (v : Wave) (q : StopReq) (nrep : Nat) (sl : W32), c < Config.numCores → w < 16 →
    q.stop < 256 → q.x < 256 → nrep < 256 → q.blk < 2 ^ 16 → q.cmp < 256 → divCount v < 256 → v.launch < 2 ^ 32 → v.waveIdx < 2 ^ 16 →
    let hd := headerBytes s c w v q nrep sl
    hd.length = 0x400 ∧ field hd 0 1 = q.cause.toNat ∧ field hd 1 1 = q.stop ∧ field hd 2 1 = q.x ∧ field hd 3 1 = nrep
      ∧ field hd 4 4 = q.lanes.toNat ∧ field hd 8 8 = v.modl.toNat ∧ field hd 0x10 2 = q.blk ∧ field hd 0x12 2 = q.rcd % 4096
      ∧ field hd 0x14 1 = q.cmp ∧ field hd 0x16 1 = v.step.toNat ∧ field hd 0x17 1 = coreDie c ∧ field hd 0x18 8 = q.addr.toNat
      ∧ field hd 0x28 4 = (v.slot0.held ||| v.slot1.held).toNat ∧ field hd 0x2C 4 = 0 ∧ field hd 0x50 1 = divCount v
      ∧ field hd 0x5C 4 = sl.toNat ∧ field hd 0x80 8 = v.launch * 2 ^ 32 + w * 2 ^ 28 + c * 2 ^ 16 + v.waveIdx)
  ∧ (∀ (hd hd' : List Byte) (es es' : List (List Byte)), hd.length = 0x400 → hd'.length = 0x400 → es.length = es'.length →
    (∀ i, i < 0x400 → ¬ (0x2C ≤ i ∧ i < 0x30) → ¬ (0x5C ≤ i ∧ i < 0x60) → i ≠ 0x15 → hd[i]? = hd'[i]?) →
    (hd.getD 0x15 0).toNat / 2 = (hd'.getD 0x15 0).toNat / 2 →
    (∀ n, n < es.length → ∀ i, i < 32 → ¬ (0x18 ≤ i ∧ i < 0x1C) → (es.getD n [])[i]? = (es'.getD n [])[i]?) →
    (∀ n, n < es.length → (es.getD n []).length = (es'.getD n []).length) → sealedBytes hd es = sealedBytes hd' es')

/-- R156: HANDLER_PLACE gives a stopped wave that waits for its handler a handler wave in a free place: lane 0 alone, at record
0 of the handler's block, the frame address in k0 and the WAVEID in k1; the wave waits for no other. -/
def Sys2Proof.Cert.HandlerPlaces : Prop :=
  ∀ (s : State) (c w : Nat) (v : Wave) (f : FoundBlock) (d : EntryDesc) (sp : Spot), waveOf s c w = some v →
    (coreOf s c).handlers.contains w = true → v.halted = true → coupledMode (coreOf s c) = false → partRuns s v.part = true →
    handlerEntry s c v = some (f, d) → anySpot s c d.window d.groups.length = some sp → 4 ≤ d.window →
    ∃ t h, exec (.handlerPlace c w) s = .next t ∧ waveOf t c sp.wslot = some h ∧ h.kind = .handler ∧ h.serves = some w
      ∧ h.slot0.mask = 1 ∧ h.slot0.blk = f.blk ∧ h.slot0.rcd = 0 ∧ h.slot0.st = .eligible ∧ h.slot1.st = .empty ∧ h.launch = 0
      ∧ h.prio = 0 ∧ keepGet (coreOf t c) h 0 0 = frameBase v ∧ keepGet (coreOf t c) h 1 0 = waveId v c w
      ∧ (coreOf t c).handlers.contains w = false ∧ (sp.wslot ≠ w → waveOf t c w = some v)

/-- R156, R157: the delivery of stops, and handler waves.
ADDR of the log entries and the lowest free place are the model's choice (log entries 6, 21). -/
def Obligations.TrapsAreDelivered : Prop := StopDelivery ∧ HandlerPlaces

/-- R158, R159, R331: the return. A frame whose SEAL holds gives the wave its replay entries as the frame has them, takes it out
of HALTED and ends the lanes of KILL; a frame whose SEAL does not hold leaves the wave as it was. SYS.tret makes the return of
the HALTED wave of its core that A names, and goes on; where A names none, it only goes on.
A frame that cannot be read is the model's choice (log entry 14). -/
def Obligations.ReturnResumes : Prop :=
  (∀ (s t q : State) (c w : Nat) (v : Wave) (hd rp : List Byte), waveOf s c w = some v →
    readVirtual s v.part (coreOf s c).world (frameBase v) 0x400 = (t, .ok hd) →
    readVirtual t v.part (coreOf s c).world (frameBase v + 0x1400) ((v.replay.map (fun e => replaySize e.opmap)).sum) = (q, .ok rp) →
    let good := crc32c (sealedBytes hd (splitEntries v.replay rp)) = BitVec.ofNat 32 (field hd 0x5C 4)
    (good → waveOf q c w = some v → v.evals = [] → v.divMem = 0 → (returnFrom s c w).2 = .resumed
      ∧ ∀ u, waveOf (returnFrom s c w).1 c w = some u → u.halted = false ∧ u.stop = none
          ∧ u.replay = (v.replay.zip (splitEntries v.replay rp)).map (fun p => refreshEntry v p.1 p.2)
          ∧ liveLanes u &&& BitVec.ofNat 32 (field hd 0x2C 4) = 0)
    ∧ (¬ good → returnFrom s c w = (q, .damaged (frameBase v))))
  ∧ ∀ (r : Record) (s q : State) (k : Ctx) (w : Nat) (v : Wave), ctxOf s = some k →
    let a := opA s k r .b64 k.low
    (tretTarget s k a = none → exec (.sysTret r) s = .next (advance s k))
    ∧ (tretTarget s k a = some (w, v) → openBelow s k (portBound s k) = false → frameNames s k.core w v a = true →
        returnFrom s k.core w = (q, .resumed) → exec (.sysTret r) s = .next (advance q k))
    ∧ (tretTarget s k a = some (w, v) → waveOf s k.core w = some v ∧ v.halted = true
        ∧ a.toNat / 2 ^ 16 % 2 ^ 12 = k.core ∧ a.toNat / 2 ^ 28 % 16 = w)

/-! ## System records -/

namespace Sys2Proof.Cert

/-- The value, written in every active lane, and the advance. -/
def gives (t : State) (k : Ctx) (r : Record) (v : Word) : State :=
  advance (writeResults t k r.ty (k.lanes.map (fun l => (l, ⟨v, 0⟩)))) k

/-- R332: SYS.snap takes a cut where the partition allows it, nothing of an earlier snapshot is under way and the wave's
earlier accesses have performed; while an earlier one streams it waits; without the enable it is a DATA_RIGHTS trap. -/
def SnapRecords : Prop :=
  ∀ (r : Record) (s : State) (k : Ctx), ctxOf s = some k →
    let p := k.wave.part
    let q := partOf s p
    (q.snap.getLsbD 0 = true → q.snapState ≠ 1 → s.cut = none → s.serial = none →
        (∀ a ∈ s.accs, a.guards = []) → openBelow s k (portBound s k) = false →
      ∃ t v, exec (.sysSnap r) s = .next t ∧ t.cut = some ⟨p, k.core, k.w, k.x, [], []⟩
        ∧ partOf t p = { q with snapSeq := q.snapSeq + 1, snapState := 1, snapFault := 0, snapPages := [] }
        ∧ waveOf t k.core k.w = some v ∧ (slotOf v k.x).st = .waiting ∧ (slotOf v k.x).wait = .cut
        ∧ (s.cur.replay = false → k.slot.dieAt = none → k.slot.rcd + 1 < blockRecs k.wave k.slot.blk →
          (slotOf v k.x).blk = k.slot.blk ∧ (slotOf v k.x).rcd = k.slot.rcd + 1))
    ∧ (q.snap.getLsbD 0 = true → q.snapState = 1 →
      exec (.sysSnap r) s = .next (onSlotOf s k.core k.w k.x (fun t => { t with st := .waiting, wait := .snap })))
    ∧ (q.snap.getLsbD 0 = false → exec (.sysSnap r) s = .next (trapState s k (.sysSnap r) causeDataRights 0))
    ∧ exec (.sysSnapq r) s = .next (gives s k r
        (BitVec.ofNat 64 (q.snapSeq.toNat * 2 ^ 32 + q.snapFault.toNat * 2 ^ 8 + q.snapState % 4)))

/-- R333: SYS.cfg writes KC_CPLQ and KC_BINTMR within their bounds and KC_DBGRING from 0 or a handle that resolves as a
completion ring with the write right, and gives the old value. -/
def CfgValues : Prop :=
  ∀ (r : Record) (s : State) (k : Ctx), ctxOf s = some k →
    let b := (opB s k r .b64 k.low).toNat
    let h : W32 := (opB s k r .b64 k.low).setWidth 32
    let ring (s : State) (v : W32) : State := onCore s k.core (fun c => { c with kcDbgring := v })
    let old : Word := (coreOf s k.core).kcDbgring.setWidth 64
    (r.a = .imm 8 → exec (.sysCfg r) s = .next (gives
        (onCore s k.core (fun c => { c with kcCplq := max 4096 (min 0xFFFFFF b) })) k r (BitVec.ofNat 64 (coreOf s k.core).kcCplq)))
    ∧ (r.a = .imm 9 → exec (.sysCfg r) s = .next (gives
        (onCore s k.core (fun c => { c with kcBintmr := max 1 (min 0xFFFF b) })) k r (BitVec.ofNat 64 (coreOf s k.core).kcBintmr)))
    ∧ (r.a = .imm 10 → h = 0 → exec (.sysCfg r) s = .next (gives (ring s 0) k r old))
    ∧ (r.a = .imm 10 → h ≠ 0 → ∀ q e,
        resolve s k.wave.part (coreOf s k.core).world 1 h 5 1 0 0 (h.setWidth 64) = (q, .ok e) →
        exec (.sysCfg r) s = .next (gives (ring (latchAcquire q k.core) h) k r old))

/-- R333: SYS.cfg binds and unbinds a stream, and gives the old handle: 0 where none was bound. A binding with a slot that
is not FREE, or with a SEND waiting, stays; bit 63 of the value says so. -/
def CfgStreams : Prop :=
  ∀ (r : Record) (s : State) (k : Ctx) (n : BitVec 13), ctxOf s = some k → r.a = .imm n → n.toNat < 8 →
    let h : W32 := (opB s k r .b64 k.low).setWidth 32
    let old := streamAt (coreOf s k.core) n.toNat
    let oldHandle : Word := (old.map (fun t => t.handle.setWidth 64)).getD 0
    let free (t : Stream) : Prop := (∀ x ∈ t.slots, x = .free) ∧ t.waiting = []
    let busy (t : Stream) : Prop := (∃ x ∈ t.slots, x ≠ .free) ∨ t.waiting ≠ []
    (h = 0 → (∀ t, old = some t → free t) →
      exec (.sysCfg r) s = .next (gives (onCore s k.core (fun c => putStream c n.toNat none)) k r oldHandle))
    ∧ (h = 0 → ∀ t, old = some t → busy t →
      exec (.sysCfg r) s = .next (gives s k r (t.handle.setWidth 64 ||| ((1 : Word) <<< 63))))
    ∧ (h ≠ 0 → ∀ q e, resolve s k.wave.part (coreOf s k.core).world 1 h 4 1 0 0 (h.setWidth 64) = (q, .ok e) →
      ∀ u, bindingOf (coreOf s k.core) k.core h e.l = .ok u →
      (u.handle = h ∧ u.base = e.l.base ∧ u.ridx = 0 ∧ u.widx = 0 ∧ free u)
      ∧ ((∀ t, old = some t → free t) → exec (.sysCfg r) s = .next
          (gives (onCore (latchAcquire q k.core) k.core (fun c => putStream c n.toNat (some u))) k r oldHandle))
      ∧ (∀ t, old = some t → busy t → exec (.sysCfg r) s = .next
          (gives (latchAcquire q k.core) k r (t.handle.setWidth 64 ||| ((1 : Word) <<< 63)))))

/-- R334, R335: SYS.dbgset writes both words of one comparator and nothing else; SYS.haltq gives its word. -/
def DebugRecords : Prop :=
  ∀ (r : Record) (s : State) (k : Ctx), ctxOf s = some k →
    (∀ n : BitVec 13, r.a = .imm n → ∃ t, exec (.sysDbgset r) s = .next (advance t k)
      ∧ t = { s with cores := t.cores } ∧ (∀ d, d ≠ k.core → coreOf t d = coreOf s d)
      ∧ (n.toNat < 8 → smGet 0 (coreOf t k.core).dbgPcA n.toNat = opB s k r .b64 k.low
          ∧ smGet 0 (coreOf t k.core).dbgPcB n.toNat = opC s k r .b64 k.low
          ∧ (∀ m, m ≠ n.toNat → smGet 0 (coreOf t k.core).dbgPcA m = smGet 0 (coreOf s k.core).dbgPcA m
            ∧ smGet 0 (coreOf t k.core).dbgPcB m = smGet 0 (coreOf s k.core).dbgPcB m)
          ∧ coreOf t k.core = { coreOf s k.core with dbgPcA := (coreOf t k.core).dbgPcA, dbgPcB := (coreOf t k.core).dbgPcB })
      ∧ (8 ≤ n.toNat → smGet 0 (coreOf t k.core).dbgDaA (n.toNat - 8) = opB s k r .b64 k.low
          ∧ smGet 0 (coreOf t k.core).dbgDaB (n.toNat - 8) = opC s k r .b64 k.low
          ∧ (∀ m, m ≠ n.toNat - 8 → smGet 0 (coreOf t k.core).dbgDaA m = smGet 0 (coreOf s k.core).dbgDaA m
            ∧ smGet 0 (coreOf t k.core).dbgDaB m = smGet 0 (coreOf s k.core).dbgDaB m)
          ∧ coreOf t k.core = { coreOf s k.core with dbgDaA := (coreOf t k.core).dbgDaA, dbgDaB := (coreOf t k.core).dbgDaB }))
    ∧ (∃ x : Word, exec (.sysHaltq r) s = .next (gives s k r x)
      ∧ (∀ i, 32 ≤ i → x.getLsbD i = false)
      ∧ ∀ w, w < 16 → x.getLsbD w = (match waveOf s k.core w with
          | some v => v.halted
          | none => false)
        ∧ x.getLsbD (16 + w) = (match waveOf s k.core w with
          | some v => v.halted && (v.stop.map (fun q => q.posted)).getD false
          | none => false))

end Sys2Proof.Cert

/-- R332 to R335: the other SYS records. -/
def Obligations.SystemRecords : Prop := SnapRecords ∧ CfgValues ∧ CfgStreams ∧ DebugRecords

/-- R130: the cut's mark reaches each slice once and its token comes back to it once; the slot that took the cut goes on when
the mark has passed the last slice, and the cut is over when the token is back from the last one. -/
def Sys2Proof.Cert.SnapshotCutCircuit : Prop :=
  ∀ (s : State) (c : Cut) (n : Nat), s.cut = some c → n < Config.numSlices →
    (c.marked.contains n = false → ∃ t, exec (.snapMarkArrive n) s = .next t ∧ t.cut = some { c with marked := c.marked ++ [n] }
      ∧ (c.marked.length + 1 ≠ Config.numSlices → t = { s with cut := t.cut })
      ∧ (c.marked.length + 1 = Config.numSlices → ∀ v, waveOf s c.core c.wslot = some v → (slotOf v c.x).wait = .cut →
        ∃ u, waveOf t c.core c.wslot = some u ∧ (slotOf u c.x).st = .eligible ∧ (slotOf u c.x).wait = .none))
    ∧ (Config.numSlices ≤ c.marked.length → c.released.contains n = false →
      let left : Cut := { c with released := c.released ++ [n] }
      exec (.snapTokenReturn n) s
        = .next { s with cut := if c.released.length + 1 = Config.numSlices then none else some left })
/-! ## Launches -/

namespace Sys2Proof.Cert

/-- The scheduler's list with one launch changed. -/
def relaunch (s : State) (id : Nat) (f : Launch → Launch) : List Launch := s.launches.map (fun l => if l.id = id then f l else l)

end Sys2Proof.Cert

/-- R45, R295: SPAWN.launch outside a carriage accepts one launch for each active lane, in ascending order, from what it has read
of the lane's record; one whose kernel is found, whose lists and clusters are in range and which waits for no input is ready at
once, with the grid, the arguments, the class and the clusters of its record. -/
def Sys2Proof.Cert.LaunchesAreAccepted : Prop :=
  ∀ (r : Record) (s q : State) (k : Ctx) (rds : List (Nat × LaunchRead)), ctxOf s = some k →
    (k.slot.car = none → openBelow s k (portBound s k) = false → readLaunches s k r = (q, [], rds) →
      exec (.spawnLaunch r) s = .next (advance (rds.foldl (fun t p => acceptLaunch t k.core k.w p.1 p.2) q) k))
    ∧ (∀ (lane : Nat) (rd : LaunchRead) (f : FoundBlock) (d : EntryDesc), rd.inputs = [] →
      let m := markBlocks s k.wave.part
      findEntry m k.wave.part (leWord (rd.raw.take 8)) 1 = some (f, d) → field rd.raw 0xC 2 ≤ 256 → field rd.raw 0xE 1 ≤ 32 →
      field rd.raw 0xF 1 < 4 → clustersOk m k.wave.part (field rd.raw 0x18 2) (field rd.raw 0x1A 2) = true →
      (partOf m k.wave.part).bothw = false → 0 < m.nextLaunch → m.nextLaunch < 2 ^ 32 → (∀ l ∈ m.launches, l.id ≠ m.nextLaunch) →
      ∃ l, (acceptLaunch s k.core k.w lane rd).launches = m.launches ++ [l] ∧ l.id = m.nextLaunch ∧ l.part = k.wave.part
        ∧ l.st = .ready ∧ l.nblk = field rd.raw 8 4 ∧ l.args = rd.args ∧ l.inputs = [] ∧ l.prio = field rd.raw 0xF 1
        ∧ l.done = leWord ((rd.raw.drop 0x10).take 8) ∧ l.desc = d ∧ l.modl = f.modl ∧ l.nextBlock = 0 ∧ l.retired = 0
        ∧ l.pred = none ∧ l.adopt = none ∧ l.world = (partOf m k.wave.part).world
        ∧ l.ncl = (if field rd.raw 0x1A 2 = 0 then Config.numClusters else field rd.raw 0x1A 2))

/-- R46, R392: LAUNCH_READY of a waiting launch makes it ready when every input it waits for holds VALUE, fails it when one has
failed, and leaves it as it is while one is to come; a failed launch is logged and leaves the scheduler. -/
def Sys2Proof.Cert.LaunchReadiness : Prop :=
  ∀ (s q : State) (l : Launch), launchOf s l.id = some l →
    (l.st = .waiting → launchInputs s l false = (q, .value) →
      let ready := relaunch q l.id (fun l => { l with st := .ready, age := q.nextAge, waited := q.fabricCycle })
      exec (.launchReady l.id) s = .next { q with nextAge := q.nextAge + 1, launches := ready })
    ∧ (l.st = .waiting → launchInputs s l false = (q, .waits) →
      exec (.launchReady l.id) s = .next q)
    ∧ (l.st = .failed → exec (.launchReady l.id) s = .next (dropLaunch (failCompletion
        (logEvent s 6 l.cause l.part 4 (((partClusters s l.part).headD 0) / 52) l.record noStage) l) l.id))

/-- R45, R46, R295, R392: launches are accepted and become ready.
AIDX of the log entry and the order of causes are the model's choice (log entry 23). -/
def Obligations.LaunchesBegin : Prop := LaunchesAreAccepted ∧ LaunchReadiness

/-- R25, R30, R47: BLOCK_PLACE gives the next block of a launch its waves on a core that can hold them and that no launch before
it could use; where the kernel has no tender block: each wave with its index, 32 lanes at record 0 of the kernel and its own
place; the launch counts the block. -/
def Sys2Proof.Cert.BlocksArePlaced : Prop :=
  ∀ (s : State) (c : Nat) (l : Launch) (sps : List Spot), launchOf s l.id = some l → canPlace s c l = true →
    reservedElse s c l = false → coreTaken s c l = false → blockSpots s c l = some sps →
    exec (.blockPlace l.id c) s = .next (placeBlock s c l sps)
    ∧ (l.desc.tblk = 0xFFFF → ∃ t, exec (.blockPlace l.id c) s = .next t
      ∧ t.launches = relaunch s l.id (fun q => { q with nextBlock := q.nextBlock + 1, waited := s.fabricCycle })
      ∧ t = { s with cores := t.cores, launches := t.launches, nextUid := t.nextUid }
      ∧ (∀ d, d ≠ c → coreOf t d = coreOf s d)
      ∧ ∀ (i : Nat) (sp : Spot), sps[i]? = some sp → ∃ v, waveOf t c sp.wslot = some v ∧ v.kind = .kernel ∧ v.launch = l.id
          ∧ v.blockIdx = l.nextBlock ∧ v.waveIdx = i ∧ v.nblk = l.nblk ∧ v.args = l.args ∧ v.winBase = sp.base
          ∧ v.window = l.desc.window ∧ v.slot0.mask = 0xFFFFFFFF ∧ v.slot0.rcd = 0 ∧ v.slot0.blk = l.entry
          ∧ v.slot0.st = .eligible ∧ v.slot1.st = .empty ∧ v.halted = false)

/-- R32, R33, R47: LAUNCH_RESERVE gives a launch that has waited 2^20 fabric cycles the lowest core it can use; CONFIG_SWAP sets
a core without anything of its own to the launch's configuration, with its tiles zeroed, its L1, its deque and its tags empty
and, into another world, its registers zeroed. -/
def Sys2Proof.Cert.CoresAreTakenForLaunches : Prop :=
  ∀ (s : State) (c : Nat) (l : Launch), launchOf s l.id = some l →
    (wantsReserve s l = true → reservable s c l = true →
      (∀ i, i < l.ncl * 16 → 16 * l.cl0 + i < c → reservable s (16 * l.cl0 + i) l = false) →
      (∀ q ∈ s.launches, q.id ≠ l.id → launchBefore q l = true → wantsReserve s q = true → reservable s c q = false) →
      exec (.launchReserve l.id c) s = .next (onCore s c (fun k => { k with reserved := some l.id })))
    ∧ (canHold s c l = true → sameConfig (coreOf s c) l = false → reservedElse s c l = false → coreTaken s c l = false →
        l.splice = false →
      ∃ t, exec (.configSwap l.id c) s = .next t ∧ t = { s with cores := t.cores } ∧ (∀ d, d ≠ c → coreOf t d = coreOf s d)
        ∧ (let k := coreOf t c
          k.tiles = l.desc.tiles ∧ k.dqbase = l.desc.dqbase ∧ k.dqlim = l.desc.dqlim ∧ k.world = l.world ∧ k.tileMem = []
            ∧ k.l1 = [] ∧ k.dqCount = 0 ∧ k.tagBits = 0 ∧ k.streams = [] ∧ k.cycle = (coreOf s c).cycle
            ∧ ((coreOf s c).world = l.world → k.regs = (coreOf s c).regs ∧ k.waves = (coreOf s c).waves)
            ∧ ((coreOf s c).world ≠ l.world → k.regs = []
              ∧ k.waves = (coreOf s c).waves.map (fun q => (q.1, q.2.map (fun v => { v with uni := [], vals := [], uniPoison := [], valPoison := [] }))))))

/-- R25, R30, R32, R33, R47: placement, reservation, configuration.
The lowest free places are the model's choice (log entry 6). -/
def Obligations.BlocksGoToCores : Prop := BlocksArePlaced ∧ CoresAreTakenForLaunches

/-- R48, R307: BLOCK_RETIRE takes a block without waves, whose stream has ended, from its core and counts it; LAUNCH_COMPLETE of
a launch whose blocks and tasks have all retired writes its completion cell, where it has one, and the launch is gone. -/
def Obligations.LaunchesComplete : Prop :=
  (∀ (s : State) (c : Nat) (b : PlacedBlock), (coreOf s c).blocks.find? (fun q => q.uid = b.uid) = some b → b.live = [] →
    streamEnded (coreOf s c) b.uid = true →
    ∃ t, exec (.blockRetire c b.uid) s = .next t ∧ (∀ q ∈ (coreOf t c).blocks, q.uid ≠ b.uid)
      ∧ (coreOf t c).blocks = (coreOf s c).blocks.filter (fun q => q.uid ≠ b.uid)
      ∧ t.launches = relaunch s b.launch (fun l => { l with retired := l.retired + 1 })
      ∧ t = { s with cores := t.cores, launches := t.launches } ∧ (∀ d, d ≠ c → coreOf t d = coreOf s d))
  ∧ (∀ (s : State) (l : Launch), launchOf s l.id = some l → launchDone s l = true →
    (l.adopt = none → l.done = 0 → exec (.launchComplete l.id) s = .next (dropLaunch s l.id))
    ∧ (l.adopt = none → l.done ≠ 0 → exec (.launchComplete l.id) s = .next (dropLaunch (writeDone s l) l.id))
    ∧ (∀ e r, l.adopt = some e → wakingOf s e.pa = some r → r.inst = e.inst → r.slice = e.slice →
      exec (.launchComplete l.id) s = .next (dropLaunch (cellCommit s [] r (BitVec.ofNat 64 l.nblk)) l.id))
    ∧ ∀ t, exec (.launchComplete l.id) s = .next t → ∀ q ∈ t.launches, q.id ≠ l.id)

/-- R104: WALK_COMPLETE takes up every slot of its partition that is parked on the page, with what the walk of the page has
found, and no other slot. -/
def Sys2Proof.Cert.WalksComplete : Prop :=
  ∀ (s : State) (p : Nat) (va : Word), walkWanted s p (pageOf va) = true →
    let found : Walked := ⟨pageOf va,
      (walk s p (BitVec.ofNat 64 (pageOf va * 4096))).map (fun l => (l.pte, l.val, l.bytes))⟩
    ∃ t, exec (.walkComplete p va) s = .next t
      ∧ (∀ c w v, waveOf s c w = some v → ∃ u, waveOf t c w = some u ∧ ∀ x,
          (∀ g, v.part = p → (slotOf v x).wait = .walk (pageOf va) g → (slotOf u x).st = .eligible ∧ (slotOf u x).wait = .walked g found)
          ∧ (v.part ≠ p ∨ (∀ g, (slotOf v x).wait ≠ .walk (pageOf va) g) → slotOf u x = slotOf v x))
      ∧ t.dmem = s.dmem ∧ t.accs = s.accs ∧ t.parts = s.parts

/-- R104, R280, R282 to R285, R291, R329: the records that access memory, and the end of a walk.
The list of accesses in flight is the model's reading (log entry 24). -/
def Obligations.AccessesIssue : Prop := GenericAccessesIssue ∧ BufferAccessesIssue ∧ WalksComplete

/-! ## Coupled regions -/

/-- The entry of a pair says that it cannot be placed (R64, R191). -/
def Sys2Proof.Cert.PairFails (s : State) (k : Ctx) (w : Nat) : Prop :=
  ∃ e, pairFound s k.core k.wave k.slot k.lanes.length w = some e ∧ (e.failed = true ∨ e.placement = none)

/-- The widths of the region and the issuing lanes that are wider than `w` are known to fail. -/
def Sys2Proof.Cert.WiderFail (s : State) (k : Ctx) (w : Nat) : Prop :=
  ∀ u ∈ pairWidths k.wave k.slot.blk k.lanes.length, w < u → PairFails s k u

/-- R54, R55, R56, R64, R70, R373: COUPLE and UNCPL. A COUPLE that no other slot keeps waiting runs its region as the SIMT reading
where the sibling holds a path, a path waits or a comparator names a record of it; else it takes the widest pair that has a
placement and parks the other waves, asks for one where the widest pair left is not known, or runs the SIMT reading where
every pair has failed. With held lanes alone it leaves the region, as UNCPL does: the held lanes are back, the slot stands after the
region, and the keep slots are as they were. -/
def Sys2Proof.Cert.CoupleAndUncouple : Prop :=
  ∀ (r : Record) (s : State) (k : Ctx), ctxOf s = some k → k.wave.divMem = 0 →
    let ws := pairWidths k.wave k.slot.blk k.lanes.length
    let free := coupleHeld (coreOf s k.core) k.w k.x = false
    let alone := (slotOf k.wave (1 - k.x)).st = .empty ∧ holdsPath k.wave = false
        ∧ pcComparatorOn (coreOf s k.core) k.wave.modl k.w k.slot.blk = false
    let begun : State := onSlotOf s k.core k.w k.x (fun t => { t with cpl := false })
    let reads (b : Bool) : State := advance (onSlotOf begun k.core k.w k.x (fun t => { t with simt := b })) k
    (k.slot.mask ≠ 0 →
      (coupleHeld (coreOf s k.core) k.w k.x = true →
        exec (.couple r) s = .next (onSlotOf s k.core k.w k.x (fun t => { t with st := .stalled, wait := .couple })))
      ∧ (free → ¬ alone → exec (.couple r) s = .next (reads false))
      ∧ (free → alone → k.slot.simt = true → exec (.couple r) s = .next (reads true))
      ∧ (∀ w e p, free → alone → k.slot.simt = false → w ∈ ws → WiderFail s k w →
        pairFound s k.core k.wave k.slot k.lanes.length w = some e → e.failed = false → e.placement = some p →
        exec (.couple r) s = .next (onCore (slotWaits begun k.core k.w k.x .stalled .region) k.core
          (fun q => { setParked q k.w true with region := some (newRegion k.w k.x k.slot e p) })))
      ∧ (free → alone → k.slot.simt = false → (∀ w ∈ ws, PairFails s k w) → exec (.couple r) s = .next (reads true))
      ∧ (∀ w, free → alone → k.slot.simt = false → w ∈ ws → WiderFail s k w →
        pairFound s k.core k.wave k.slot k.lanes.length w = none →
        exec (.couple r) s = .next (onCore (slotWaits begun k.core k.w k.x .stalled .region) k.core
          (fun q => { q with region := some (placingRegion k.w k.x k.slot q.cycle) }))))
    ∧ (k.slot.mask = 0 → k.slot.held ≠ 0 → exec (.couple r) s = exec (.uncpl r) s)
    ∧ (∃ t v, exec (.uncpl r) s = .next t ∧ waveOf t k.core k.w = some v
      ∧ (slotOf v k.x).mask = k.slot.mask ||| k.slot.held ∧ (slotOf v k.x).held = 0 ∧ (slotOf v k.x).rcd = 0
      ∧ (slotOf v k.x).blk = fallTarget k.wave k.slot.blk ∧ (slotOf v k.x).simt = false ∧ (slotOf v k.x).st = .eligible
      ∧ (∀ n l, n < k.wave.nkeep → l < 32 → keepGet (coreOf t k.core) v n l = keepGet (coreOf s k.core) k.wave n l)
      ∧ t.dmem = s.dmem ∧ t.accs = s.accs ∧ t.parts = s.parts ∧ (∀ d, d ≠ k.core → coreOf t d = coreOf s d))

/-- R55, R56, R70, R270: COUPLE, UNCPL, and the LOOP of a coupled region.
The key of a placed pair is the model's reading (log entry 15). -/
def Obligations.CoupledRecords : Prop := LoopOfCoupledRegion ∧ CoupleAndUncouple

/-- R55, R57, R59, R64, R66, R72: the steps of a region. A placement of the region whose wider pairs fail starts the parking, the
report that none fits lets the slot read on as SIMT; with every other wave of the core without a word in flight it runs; its
stations fire once in a cycle; a head without a token on its feedback injects the next channel; a pass that has run KC_CPLQ
cycles is gated. -/
def Sys2Proof.Cert.RegionSteps : Prop :=
  ∀ (s : State) (c : Nat) (r : Region) (v : Wave), regionOf s c = some r → waveOf s c r.wslot = some v →
    let slot := slotOf v r.x
    let ws := pairWidths v slot.blk r.lanes.length
    (∀ p q lw s', r.st = .placing → v.halted = false → p.width ∈ ws → placedEntry s c v slot p = some (q, lw) →
      failPairs false s c v slot r.lanes.length (ws.filter (fun w => p.width < w)) = some s' →
      let i := installPair s' q lw (some p)
      exec (.couplePlacementDone c (some p)) s = .next (startParking i.1 c r.wslot r.x slot i.2 p)
        ∧ i.2.placement = some p ∧ i.2.failed = false ∧ i.2.key = q.key)
    ∧ (∀ s', r.st = .placing → v.halted = false →
        failPairs (decide (r.since + 4096 ≤ (coreOf s c).cycle)) s c v slot r.lanes.length ws = some s' →
      ∃ t, exec (.couplePlacementDone c none) s = .next t ∧ regionOf t c = none
        ∧ ∀ u, waveOf s' c r.wslot = some u → (slotOf u r.x).rcd + 1 < blockRecs u (slotOf u r.x).blk →
          ∃ u', waveOf t c r.wslot = some u' ∧ (slotOf u' r.x).st = .eligible ∧ (slotOf u' r.x).rcd = (slotOf u r.x).rcd + 1
            ∧ (slotOf u' r.x).simt = true)
    ∧ (r.st = .parking → v.halted = false → parkingBusy s c r.wslot = false →
      exec (.parkingQuiet c) s
        = .next (onCore s c (fun k => { k with region := some { r with st := .running, since := k.cycle, moved := k.cycle } })))
    ∧ (r.st = .parking → parkingBusy s c r.wslot = true → exec (.parkingQuiet c) s = .next s)
    ∧ ((∃ a ∈ s.accs, a.core = c ∧ a.wslot ≠ r.wslot) → parkingBusy s c r.wslot = true)
    ∧ (∀ j t, r.firedNow.contains j = false → tryFire s c j = .fired t → exec (.stationFire c j) s = .next (noteFired t c j))
    ∧ (∀ j, r.firedNow.contains j = true → exec (.stationFire c j) s = .next s)
    ∧ (∀ j, let repl := replIn r j
      r.firedNow.contains j = false → r.st = .running → j < r.stations.length → roleIn r j = some .head →
        (∀ p ∈ inputsOf r j, queueOf r p.1 = []) → r.ended.contains j = false → (∀ e ∈ r.asked, e.station ≠ j) →
        r.injected.getD repl 0 < channelCount r repl → (∀ p ∈ outputsOf r j, couplingRoom r p.1 = true) →
      let ch := r.injected.getD repl 0
      let lane := channelLane r repl ch
      let tokens := (outputsOf r j).map (fun p => (p.1, headToken s c v r j lane ch false p.2))
      let r1 := tokens.foldl (fun q p => pushToken q p.1 p.2) { r with injected := setAt r.injected repl (ch + 1) }
      let r2 := countFiring { r1 with iters := r1.iters ++ [⟨repl, ch, lane, [j], [], [], false, [], []⟩] } j (coreOf s c).cycle
      exec (.stationFire c j) s = .next (noteFired (settleRegion (setRegion s c r2) c) c j))
    ∧ (∀ (j lane ch n : Nat) (p : Coupling), p.val = .keep n → let t := headToken s c v r j lane ch false p
      t.kind = .data ∧ t.ch = ch ∧ t.value = halfOf (channelKeep s c v r lane n) p.high)
    ∧ (r.st = .running → r.since + (coreOf s c).kcCplq ≤ (coreOf s c).cycle → exec (.coupleQuantumExpiry c) s
      = .next (onCore s c (fun k => { k with region := some { r with st := .gated, gate := .quantum } })))
    ∧ (r.st = .running → (coreOf s c).cycle < r.since + (coreOf s c).kcCplq → exec (.coupleQuantumExpiry c) s = .next s)

/-- R70 to R72, R160, R163, R370, R371: how a region ends. When its end token is there, no station fires and
nothing retired is left to do, what could not retire is discarded; a region without a gate leaves its slot after UNCPL; one gated
by the quantum puts it back at COUPLE with the finished lanes held; one that a fault gated stops its wave there, and one that a pre-emption gated stops every wave of the core. A token left over freezes it, as do
4,096 still cycles. -/
def Sys2Proof.Cert.RegionEnds : Prop :=
  ∀ (s : State) (c : Nat) (r : Region) (v : Wave), regionOf s c = some r → waveOf s c r.wslot = some v →
    let quiet := drainDue s c r = true
    let left := discardIters s c (fun _ => true)
    let back := backToCouple s c r false
    (∀ q, quiet → (∀ q ∈ r.queues, q = []) → regionOf left c = some q →
      let back := backToCouple left c q false
      (q.gate = .none → exec (.regionDrained c) s = .next (leaveRegion (dropRegion left c) c q.wslot q.x))
      ∧ (q.gate = .quantum → exec (.regionDrained c) s = .next back)
      ∧ (q.gate = .preempt → exec (.regionDrained c) s = .next (preemptCore (preemptWave back c q.wslot true) c))
      ∧ (∀ cause rcd lane addr, q.gate = .fault cause rcd lane addr → exec (.regionDrained c) s
        = .next (preemptDue (coupleStop back c q.wslot q.x cause ((q.entry.map (fun e => e.blk)).getD 0) rcd (laneBit lane) addr) c)))
    ∧ (drainDue s c r = (decide (r.st = .draining) && drainEnded r && decide (r.tail = []) && !r.iters.any (processed r)
        && !(List.range r.stations.length).any (fun j => canFire s c j)))
    ∧ (∀ i, quiet → (∀ j, j < i → r.queues.getD j [] = []) → i < r.queues.length → r.queues.getD i [] ≠ [] →
      exec (.regionDrained c) s = .next (freezeRegion s c r causeCoupleUnbalanced 0xFF i none))
    ∧ (¬ quiet → exec (.regionDrained c) s = .next s)
    ∧ (r.st = .running ∨ r.st = .gated ∨ r.st = .draining → ¬ quiet → r.moved + 4096 ≤ (coreOf s c).cycle →
      (∀ j, j < r.stations.length → canFire s c j = false ∧ waitsMemory s c j = false) →
      exec (.coupleStill c) s = .next (freezeRegion s c r causeCoupleStill 0xFF 0xFF none))
    ∧ regionOf (leaveRegion (dropRegion s c) c r.wslot r.x) c = none ∧ regionOf back c = none
    ∧ (∀ u, waveOf back c r.wslot = some u → (slotOf u r.x).rcd = 0
      ∧ (slotOf u r.x).mask = (slotOf v r.x).mask &&& ~~~r.finished
      ∧ (slotOf u r.x).held = (slotOf v r.x).held ||| ((slotOf v r.x).mask &&& r.finished))

/-- R55 to R57, R59, R70 to R72, R370, R371: the course of a region.
Which graphs are placements, and the corners of a drain, are the model's reading (log entries 16, 28). -/
def Obligations.Regions : Prop := RegionSteps ∧ RegionEnds

/-! ## Lowering and modules -/

/-- R187, R193, R195, R200: LOWERING_COMPLETE answers a request: one entry of its key stands in the die's store, in place of any
other, with what the engine read; the request is gone, and no other entry is new. Where a page waits for the writes that R195
names, nothing happens; where a page fails for a request of PFI alone, nothing is installed. SINTER_EVICT takes one entry out
of a store. -/
def Sys2Proof.Cert.SinterStore : Prop :=
  (∀ (s : State) (n : Nat) (q : LowerReq), s.lowerReqs[n]? = some q → q.die < s.dies.length →
    let b := lowerBlock s q
    (trWaits s q.part q.key.sec b.pages = true → exec (.loweringComplete q.die n) s = .next s)
    ∧ (trWaits s q.part q.key.sec b.pages = false → q.pfi = true → (∃ m, b.marker = some m ∧ m.cause ≠ causeLowerReject) →
      exec (.loweringComplete q.die n) s = .next { s with lowerReqs := s.lowerReqs.filter (fun r => r ≠ q) })
    ∧ (trWaits s q.part q.key.sec b.pages = false → q.pfi = false ∨ b.marker = none ∨ (∃ m, b.marker = some m ∧ m.cause = causeLowerReject) →
      ∃ t e, exec (.loweringComplete q.die n) s = .next t ∧ q ∉ t.lowerReqs
        ∧ (dieOf t q.die).sinter.filter (fun x => x.key = q.key) = [e]
        ∧ e.key = q.key ∧ e.part = q.part ∧ e.recs = b.recs ∧ e.lits = b.lits ∧ e.marker = b.marker ∧ e.pages = b.pages
        ∧ ∀ d, d < s.dies.length → ∀ x ∈ (dieOf t d).sinter, x.key ≠ q.key ∨ d ≠ q.die → x ∈ (dieOf s d).sinter))
  ∧ (∀ (s : State) (d n : Nat) (e : SEntry), (dieOf s d).sinter[n]? = some e →
    ∃ t, exec (.sinterEvict d n) s = .next t ∧ t = { s with dies := t.dies }
      ∧ (dieOf t d).sinter = (dieOf s d).sinter.filter (fun x => x ≠ e) ∧ ∀ m, m ≠ d → dieOf t m = dieOf s m)

/-- R181: a write of MG_MODVER submits a module and the register reads as all ones until MODULE_VERIFIED gives the verification
word, which is kept for the module. -/
def Sys2Proof.Cert.ModulesAreVerified : Prop :=
  ∀ (s : State) (p : Nat), p < 8 →
    exec (.mgModver p .read) s = .next { s with hostWord := (partOf s p).modWord }
    ∧ (∀ v, ∃ t, exec (.mgModver p (.write v)) s = .next t
      ∧ partOf t p = { partOf s p with modAddr := some v, modWord := BitVec.allOnes 64 } ∧ (∀ q, q ≠ p → partOf t q = partOf s q)
      ∧ t = { s with parts := t.parts })
    ∧ (∀ base, (partOf s p).modAddr = some base →
      let sec := (partOf s p).world || (partOf s p).bothw
      let rd := fetchBytes s p sec
      trWaits s p sec (imagePages rd base) = false →
      ∃ t m, exec (.moduleVerified p) s = .next t ∧ (partOf t p).modWord = verifyModule rd base ∧ (partOf t p).modAddr = none
        ∧ t.modules.filter (fun m => m.part = p && m.base = base) = [m] ∧ m.word = verifyModule rd base)
/-! ## The host and the peers -/

/-- R181, R187, R193: the Sinter store and the verification of modules.
The instance that verifies is the model's reading (log entry 29). -/
def Obligations.LoweringAndModules : Prop := SinterStore ∧ ModulesAreVerified

/-- R136, R147, R345, R399: on the function of a configured partition, HOST_BAR0_READ gives the bytes of a range that
translates, and HOST_BAR0_WRITE writes them to the place of its address; on a cell page a whole cell is written, and a part
of one where its tag is VALUE, else the access is refused and logged. A range that meets a world violation reads as zeros, or is not
written, and the violation is logged. -/
def Sys2Proof.Cert.HostAccesses : Prop :=
  ∀ (s : State) (p : Nat) (off : Word) (n : Nat) (bs : List Byte), functionOf s p = true → off.toNat + n ≤ 2 ^ 40 →
      bs.length = n →
    let va := (partOf s p).hbase + off
    (hostFault s p .load va n = none → ∃ t, exec (.hostBar0Read p off n) s = .next t
      ∧ t.hostData = (hostBytes s p va n).2.1 ∧ t.hostPoison = (hostBytes s p va n).2.2)
    ∧ (∀ a, hostFault s p .load va n = some (causeWorld, a) → exec (.hostBar0Read p off n) s
      = .next { logEvent s 2 causeWorld p 5 (p + 1) a noStage with hostData := List.replicate n 0, hostPoison := false })
    ∧ (∀ (x : Xlat) (pa : Nat), 0 < n → va.toNat % 64 + n ≤ 64 → xlatCheck s p (partOf s p).world .store va = .ok x →
        x.place = .dev pa → storeHeld s p [] (.dev pa) = false →
      let q := breakTr (xlatMark s p .store va x.leaf) p va x.leaf
      (x.cell = false ∨ n = 8 ∧ pa % 8 = 0 ∧ cellLost q pa = false ∨ n < 8 ∧ pa % 8 + n ≤ 8 ∧ cellTag q pa = 0 →
        exec (.hostBar0Write p off bs) s = .next (placeWrite q (hostWriter p) (.dev pa) bs))
      ∧ (x.cell = true → n < 8 → pa % 8 + n ≤ 8 → cellTag q pa ≠ 0 → cellLost q pa = false → exec (.hostBar0Write p off bs) s
        = .next (logEvent q 1 0 p 5 (p + 1) (BitVec.ofNat 64 (va.toNat / 8 * 8)) noStage)))
    ∧ (∀ a, hostFault s p .store va n = some (causeWorld, a) →
      exec (.hostBar0Write p off bs) s = .next (logEvent s 2 causeWorld p 5 (p + 1) a noStage))

/-- R136, R147, R346: the touch window. TOUCH wakes a DORMANT cell and leaves another as it is; MKPAY makes the cell at MKADDR
DORMANT with its payload, unless it is WAKING; what is no cell is refused, with the STATUS bit and a log entry. A read of STATUS
clears the bit, and PKTAG gives VALID and the tag of the cell at PKADDR. -/
def Sys2Proof.Cert.TouchWindow : Prop :=
  ∀ (s : State) (p : Nat) (a v : Word), functionOf s p = true →
    let refused : State := logEvent (onPart s p (fun q => { q with status := true })) 1 0 p 5 (p + 1) a noStage
    (windowCell s p .load a = none → exec (.touch p a) s = .next refused)
    ∧ (∀ pa l, windowCell s p .load a = some (pa, l) → storeHeld s p [] (.dev pa) = false →
      let m := xlatMark s p .load a l
      (cellTag m pa = 1 → exec (.touch p a) s = .next (wakeCell m p pa a (BitVec.ofNat 64 (devNat m pa 8)) (partOf m p).world
        ⟨(5, p + 1), [], none, none, none, []⟩).1)
      ∧ (cellTag m pa ≠ 1 → cellLost m pa = false → exec (.touch p a) s = .next m))
    ∧ (∀ pa l, (partOf s p).mkaddr = a → windowCell s p .store a = some (pa, l) → storeHeld s p [] (.dev pa) = false →
      (cellTag s pa ≠ 2 → ∃ t, exec (.mkpay p v) s = .next t ∧ cellTag t pa = 1
        ∧ ∀ i, i < 8 → memByte t.dmem (pa + i) = BitVec.ofNat 8 (v.toNat / 256 ^ i))
      ∧ (cellTag s pa = 2 → cellLost s pa = false → exec (.mkpay p v) s = .next refused))
    ∧ (∃ t, exec (.touchStatusRead p) s = .next t ∧ t.hostWord = (if (partOf s p).status then 1 else 0) ∧ (partOf t p).status = false
      ∧ partOf t p = { partOf s p with status := false })
    ∧ (∃ t, exec (.pktag p) s = .next t ∧ t.hostWord = pktagWord s p ∧ (pktagViolates s p = false → t = { s with hostWord := t.hostWord }))
    ∧ (∀ x pa, (partOf s p).pkaddr = a → canonical a = true → a.toNat % 8 = 0 → leafOf s p a = some x → pteBit x.val 59 = true →
      leafSecure s x a = false → leafPlace x a = .dev pa → pktagWord s p = BitVec.ofNat 64 (4 + (cellTag s pa).toNat))

/-- R345 to R347: BAR0 and the touch window.
What TOUCH_REFUSED logs is the model's reading (log entry 25). -/
def Obligations.HostInterface : Prop := HostAccesses ∧ TouchWindow

/-- R103, R347: MSI_X_UNMASK sends one message for a pending vector and none for another; a write of MG_TLBINV drops the
cached translations of the range that MG_TLBVA names at the write, and a read gives 1 until no access that may have used one of
any range written is left, then 0. -/
def Sys2Proof.Cert.VectorsAndInvalidation : Prop :=
  ∀ (s : State) (p : Nat),
    (∀ n, functionOf s p = true → ∃ t, exec (.msiXUnmask p n) s = .next t ∧ n ∉ (partOf t p).msixMask ∧ n ∉ (partOf t p).msixPend
      ∧ (n ∈ (partOf s p).msixMask → n ∈ (partOf s p).msixPend → t.msix = s.msix ++ [(p, n)])
      ∧ (n ∉ (partOf s p).msixPend → t.msix = s.msix))
    ∧ (∀ v, ∃ t, exec (.mgTlbinv p (.write v)) s = .next t
      ∧ (∀ x, x ∈ (partOf t p).tlbinv ↔
          (x ∈ (partOf s p).tlbinv ∨ x = ((partOf s p).tlbva, v.toNat)) ∧ rangeInUse s x.1 x.2 p = true)
      ∧ (∀ x ∈ s.tlb, x.part ≠ p → x ∈ t.tlb) ∧ (∀ x ∈ t.tlb, x ∈ s.tlb)
      ∧ (∀ x ∈ t.tlb, x.part = p → ¬ (pageOf (partOf s p).tlbva ≤ x.page ∧ x.page < pageOf (partOf s p).tlbva + v.toNat)))
    ∧ (∃ t, exec (.mgTlbinv p .read) s = .next t ∧ t.hostWord = (if (partOf t p).tlbinv = [] then 0 else 1)
      ∧ ∀ x, x ∈ (partOf t p).tlbinv ↔ x ∈ (partOf s p).tlbinv ∧ rangeInUse s x.1 x.2 p = true)
    ∧ (∀ base n, (∃ a ∈ s.accs, usesRange base n p a = true) → rangeInUse s base n p = true)
    ∧ ((partOf s p).tlbinv = [] → exec (.mgTlbinv p .read) s = .next { s with hostWord := 0 })

/-- R352: SNAP_STREAM_COMPLETE ends a snapshot whose cut is over: complete where its target took the stream, else failed with the
cause. -/
def Sys2Proof.Cert.SnapshotStreams : Prop :=
  ∀ (s t : State) (p : Nat), (partOf s p).snapState = 1 → s.cut = none →
    (snapTarget s p (snapImage s p).1 (snapImage s p).2 = (t, .ok ()) → exec (.snapStreamComplete p) s
      = .next (onPart t p (fun q => { q with snapState := 2, snapPages := [] })))
    ∧ (∀ c, snapTarget s p (snapImage s p).1 (snapImage s p).2 = (t, .error c) → exec (.snapStreamComplete p) s
      = .next (onPart t p (fun q => { q with snapState := 3, snapFault := c, snapPages := [] })))

/-- R130, R352: the circuit of a cut, and the end of its stream.
The encoding of the target is presumed (log entry 17). -/
def Obligations.Snapshots : Prop := SnapshotCutCircuit ∧ SnapshotStreams

/-- R348, R284: after bring-up has begun, where no carriage has used the line, a store of a fabric peer within one line writes its
bytes; an atomic returns the old value and writes the new one; a peer that reaches a secure range is refused and logged.
That a peer holds no world is the model's reading (log entry 26). -/
def Obligations.PeersAccessMemory : Prop :=
  ∀ (s : State) (port pa : Nat), s.ports.getLsbD port = true → s.stage ≠ 0 →
    (∀ bs : List Byte, bs ≠ [] → pa % 64 + bs.length ≤ 64 → pa + bs.length ≤ Config.deviceBytes →
        peerHeld s pa bs.length = false → peerSecure s pa bs.length = false →
        carriagesWith s (fun car => car.lines.contains (lineOf (.dev pa))) = [] →
      ∃ t, exec (.fabricPeerAccess port pa (.store bs)) s = .next t
        ∧ exec (.fabricPeerAccess port pa (.push bs)) s = .next t
        ∧ (∀ j, memByte t.dmem j = if pa ≤ j ∧ j < pa + bs.length then bs.getD (j - pa) 0 else memByte s.dmem j)
        ∧ t.hmem = s.hmem ∧ t.fmem = s.fmem)
    ∧ (∀ (op : Nat) (ty : Ty) (b c : Word), ty.code ≤ 5 → pa % ty.memBytes = 0 → pa + ty.memBytes ≤ Config.deviceBytes →
        peerHeld s pa ty.memBytes = false → peerSecure s pa ty.memBytes = false →
        carriagesWith s (fun car => car.lines.contains (lineOf (.dev pa))) = [] →
      let old := leNat (memRead s.dmem pa ty.memBytes)
      let new := atomNew op (width ty) (signed ty) old b.toNat c.toNat
      ∃ t, exec (.fabricPeerAccess port pa (.atom op ty b c)) s = .next t ∧ t.hostWord = BitVec.ofNat 64 old
        ∧ ∀ j, memByte t.dmem j = if new.2 = true ∧ pa ≤ j ∧ j < pa + ty.memBytes then BitVec.ofNat 8 (new.1 / 256 ^ (j - pa))
            else memByte s.dmem j)
    ∧ (∀ op : PeerOp, pa + peerSize op ≤ Config.deviceBytes → 0 < peerSize op → peerHeld s pa (peerSize op) = false →
        peerSecure s pa (peerSize op) = true →
      exec (.fabricPeerAccess port pa op) s = .next (logEvent s 2 causeWorld 0xFF 6 port (BitVec.ofNat 64 pa) noStage))

/-! ## Management -/

/-- R350, R355, R357: a write of a word of CLMAP that names only clusters that may be assigned, and changes nothing of a busy
partition, is applied; CTL gives RSV, the world, BOTHW and the ASID; a refused write sets CFGREF alone, which a read of
MG_STATUS gives and clears. -/
def Sys2Proof.Cert.PartitionConfiguration : Prop :=
  ∀ (s : State) (p : Nat) (v : Word), p < 8 →
    (∀ i, i < 4 → let m := newClmap (partOf s p) i v
      (clmapRefused s p m = false → exec (.mgPartitionConfig p (8 * i) v) s = .next (onPart s p (fun q => { q with clmap := m })))
      ∧ (clmapRefused s p m = true → exec (.mgPartitionConfig p (8 * i) v) s = .next { s with cfgRef := true })
      ∧ (∀ n, m.getLsbD n = if 64 * i ≤ n ∧ n < 64 * i + 64 then v.getLsbD (n - 64 * i) && decide (n < 208)
          else (partOf s p).clmap.getLsbD n && decide (n < 208)))
    ∧ (ctlRefused s p (v.toNat % 8) (v.toNat / 2 ^ 5 % 2 ^ 16) = false → ∃ t, exec (.mgPartitionConfig p 0x20 v) s = .next t
      ∧ partOf t p = { partOf s p with rsv := v.toNat % 8, world := v.getLsbD 3, bothw := v.getLsbD 4, asid := v.toNat / 2 ^ 5 % 2 ^ 16 }
      ∧ t = { s with parts := t.parts })
    ∧ (ctlRefused s p (v.toNat % 8) (v.toNat / 2 ^ 5 % 2 ^ 16) = true →
      exec (.mgPartitionConfig p 0x20 v) s = .next { s with cfgRef := true })
    ∧ (∃ t, exec .mgStatus s = .next t ∧ t = { s with cfgRef := false, hostWord := t.hostWord }
      ∧ t.hostWord.toNat % 4 = s.stage % 4 ∧ t.hostWord.getLsbD 6 = s.cfgRef ∧ t.hostWord.getLsbD 7 = s.fwFail
      ∧ ∀ d, d < 4 → t.hostWord.getLsbD (2 + d) = (dieOf s d).joined)

/-- R357, R354, R351: MG_REGISTER_WRITE: what is written to a management register without a row of its own is what a read gives
back, but for the bits that read as zero; a write of PWR, whose bits [63:32] read as zero, sets KC_RLIM of every core of the partition. -/
def Sys2Proof.Cert.ManagementRegisters : Prop :=
  ∀ (s : State) (v : Word),
    (∃ t, exec (.mgRegisterWrite 0x20 v) s = .next t ∧ mgWord t 0x20 = v ∧ t = { s with mbox := v })
    ∧ (∀ n, n < 16 → ∃ t u, exec (.mgRegisterWrite (0x100 + 16 * n) v) s = .next t
      ∧ mgWord t (0x100 + 16 * n) = v &&& 0x800FFFFFFFFFF000 ∧ t = { s with secBase := t.secBase }
      ∧ exec (.mgRegisterWrite (0x108 + 16 * n) v) s = .next u
      ∧ mgWord u (0x108 + 16 * n) = v &&& 0x000FFFFFFFFFF000 ∧ u = { s with secLimit := u.secLimit })
    ∧ (∀ p off, p < 8 → off ∈ [0x28, 0x30, 0x38, 0x40, 0x58, 0x68, 0x70, 0x78, 0x80, 0x90, 0x98, 0xA0] →
      ∃ t, exec (.mgRegisterWrite (0x1000 * (p + 1) + off) v) s = .next t ∧ mgWord t (0x1000 * (p + 1) + off) = v
        ∧ t = { s with parts := t.parts } ∧ ∀ q, q ≠ p → partOf t q = partOf s q)
    ∧ (∀ p, p < 8 → ∃ t, exec (.mgRegisterWrite (0x1000 * (p + 1) + 0x88) v) s = .next t
      ∧ (∀ c ∈ partCores s p, (coreOf t c).kcRlim = v &&& 0xFFFFFFFF) ∧ mgWord t (0x1000 * (p + 1) + 0x88) = v &&& 0xFFFFFFFF)

/-- R103, R347, R350, R357: configuration, registers, invalidation, vectors. -/
def Obligations.ManagementInterface : Prop := VectorsAndInvalidation ∧ PartitionConfiguration ∧ ManagementRegisters

/-- R163, R353: HALT and EXCHANGE of a running partition begin to stop it; when every core of it has stopped it is HALTED, with
no other change; an exchange then exchanges each core's context with its standby context and lets the partition run on, as
RESUME does after a halt. -/
def Sys2Proof.Cert.PartitionsStopAndResume : Prop :=
  ∀ (s : State) (p : Nat), p < 8 →
    ((partOf s p).pswap = .running → exec (.halt p) s = .next (stopPart s p false)
      ∧ exec (.exchange p) s = .next (stopPart s p true))
    ∧ ((partOf s p).pswap = .stopping → partStopped s p = true →
      exec (.pswapHalted p) s = .next (onPart s p (fun q => { q with pswap := .halted, exchAt := s.now })))
    ∧ ((partOf s p).pswap = .halted → (partOf s p).exch = true →
      exec (.pswapHalted p) s = .next (onPart s p (fun q => { q with pswap := .exchanging })))
    ∧ ((partOf s p).pswap = .exchanging → exec (.pswapExchangeDone p) s = .next (resumePart (swapContexts s p) p))
    ∧ ((partOf s p).pswap = .halted → (partOf s p).exch = false → exec (.resume p) s = .next (resumePart s p))
    ∧ (∀ c, c ∈ partCores s p → (partCores s p).Nodup →
      let here := coreOf s c
      let k := coreOf (swapContexts s p) c
      let there := smGet Core.reset s.standby c
      k = { there with cycle := k.cycle, due := k.due, tenderAt := k.tenderAt, kcRlim := k.kcRlim, rlSf := k.rlSf,
                       rlMac := k.rlMac, rlWin := k.rlWin, l1 := [], bins := k.bins, tenders := k.tenders }
        ∧ k.bins = there.bins.map (fun b => { b with deadline := here.cycle + b.deadline - there.cycle })
        ∧ k.tenders = there.tenders.map (fun t => { t with since := here.cycle + t.since - there.cycle })
        ∧ k.cycle = here.cycle ∧ k.kcRlim = here.kcRlim
        ∧ smGet Core.reset (swapContexts s p).standby c = { here with l1 := [] })

/-- R401: RESETP ends every wave of its partition and every command of its engines, whatever they do; its launches that had not
completed fail, what it had asked of the lowering engines is dropped, and the partition runs. -/
def Sys2Proof.Cert.PartitionReset : Prop :=
  ∀ (s : State) (p : Nat), p < 8 → ∃ t, exec (.resetp p) s = .next t ∧ (partOf t p).pswap = .running ∧ (partOf t p).exch = false
    ∧ (∀ c k, (c, k) ∈ s.cores → corePart s c = p → (coreOf t c).waves = [] ∧ (coreOf t c).cmds = [])
    ∧ (∀ l ∈ t.launches, l.part = p → l.st ≠ .waiting ∧ l.st ≠ .ready) ∧ (∀ r ∈ t.lowerReqs, r.part ≠ p)

/-- R146, R157, R353: the mailbox. A wave that is ended leaves its slot; a stopped wave is resumed as by SYS.tret; a context of a
halted partition is read as it stands and, restored, is the context of the core it goes to, in that core's partition. -/
def Sys2Proof.Cert.MailboxCommands : Prop :=
  ∀ (s : State) (c w : Nat) (v : Wave),
    (waveOf s c w = some v → v.evals = [] → v.divMem = 0 → v.slot0.car = none → v.slot1.car = none →
        waveAccs s c w v.uid = [] → regionOf s c = none →
      ∃ t, exec (.mailboxEndWave c w) s = .next t ∧ waveOf t c w = none)
    ∧ (waveOf s c w = some v → v.halted = true → partRuns s v.part = true →
      exec (.mailboxTret c w) s = .next (returnFrom s c w).1)
    ∧ ((partOf s (corePart s c)).pswap = .halted → ∃ t, exec (.mailboxReadContext c) s = .next t
      ∧ smGet Core.reset t.mboxCtx c = coreOf s c ∧ (∀ d, d ≠ c → smGet Core.reset t.mboxCtx d = smGet Core.reset s.mboxCtx d)
      ∧ t = { s with mboxCtx := t.mboxCtx })
    ∧ (∀ p src, p < 8 → corePart s c = p → (partOf s p).pswap = .halted → stepsHeld s c (smGet Core.reset s.mboxCtx src) = true →
        lostWaking s p = [] → (coreOf s c).cmds = [] →
      ∃ t, exec (.mailboxRestoreContext p src c) s = .next t ∧ t = { s with cores := t.cores }
        ∧ (∀ d, d ≠ c → coreOf t d = coreOf s d) ∧ (coreOf t c).regs = (smGet Core.reset s.mboxCtx src).regs
        ∧ (coreOf t c).tileMem = (smGet Core.reset s.mboxCtx src).tileMem ∧ (coreOf t c).cycle = (coreOf s c).cycle
        ∧ ∀ x u, waveOf t c x = some u → u.part = p)

/-- R146, R157, R163, R353, R401: halt, exchange, reset, and the mailbox.
What RESETP and an exchange keep is the model's reading (log entry 27). -/
def Obligations.PartitionsAsWholes : Prop := PartitionsStopAndResume ∧ PartitionReset ∧ MailboxCommands

/-- R355, R356, R400: firmware, attestation and bring-up. An image whose signature holds takes its slot, another sets the failure
bit alone; a request with a nonce of 32 bytes gets one signed reply that begins with the nonce; die 0 joins first, with a
verified image and every stack of memory, at 1 GHz; another die joins from stage 1 on at 4 GHz; and the last of the four makes full service. -/
def Sys2Proof.Cert.BringUp : Prop :=
  (∀ (s : State) (n : Nat) (im sig : List Byte),
    (Config.signatureOk s.fusedKey im sig = true →
      exec (.firmwareVerify n im sig) s = .next { s with fwImages := smSet [] s.fwImages n im })
    ∧ (Config.signatureOk s.fusedKey im sig = false → exec (.firmwareVerify n im sig) s = .next { s with fwFail := true }))
  ∧ (∀ (s : State) (nonce : List Byte), nonce.length = 32 → ∃ body, exec (.attestationRequest nonce) s
      = .next { s with attest := s.attest ++ [body ++ Config.sign body] } ∧ body.take 32 = nonce)
  ∧ (∀ s : State, s.dies.length = 4 → (dieOf s 0).joined = false → (dieOf s 0).failed = false → s.stage = 0 → s.fwImages ≠ [] →
      s.stacksFailed = [] →
      ∃ t, exec (.dieSelftest 0 true) s = .next t ∧ t.stage = 1 ∧ (dieOf t 0).joined = true ∧ (dieOf t 0).mhz = 1000)
  ∧ (∀ (s : State) (d : Nat), s.dies.length = 4 → 0 < d → d < 4 → s.stage = 1 ∨ s.stage = 2 → (dieOf s d).joined = false →
      (dieOf s d).failed = false →
      (∃ t, exec (.dieSelftest d true) s = .next t ∧ (dieOf t d).joined = true ∧ (dieOf t d).mhz = 4000
        ∧ ((∀ e, e < 4 → e ≠ d → (dieOf s e).joined = true) → t.stage = 3 ∧ (dieOf t 0).mhz = 4000)
        ∧ ((∃ e, e < 4 ∧ e ≠ d ∧ (dieOf s e).joined = false) → t.stage = 2))
      ∧ ∃ t, exec (.dieSelftest d false) s = .next t ∧ (dieOf t d).failed = true ∧ (dieOf t d).joined = false ∧ t.stage = 2)

/-- R355, R394, R345, R13: DEVICE_RESET begins bring-up again with memory cleared; a port that goes down is closed and logged; the
links and the clocks take what training and management give them, a clock up to its nominal frequency. -/
def Sys2Proof.Cert.DeviceEvents : Prop :=
  ∀ s : State,
    (∃ t, exec .deviceReset s = .next t ∧ t.stage = 0 ∧ t.dmem = [] ∧ t.tags = [] ∧ t.cores = [] ∧ t.parts = [] ∧ t.launches = []
      ∧ t.hmem = s.hmem ∧ t.fmem = s.fmem ∧ t.devno = s.devno ∧ ∀ d ∈ t.dies, d.joined = false ∧ d.sinter = [])
    ∧ (∀ n, n < 36 → s.ports.getLsbD n = true → ∃ q : BitVec 36, q.getLsbD n = false
      ∧ (∀ m, m < 36 → m ≠ n → q.getLsbD m = s.ports.getLsbD m)
      ∧ exec (.fabricPortDown n) s = .next (logEvent { s with ports := q } 3 causeIntegrity 0xFF 6 n 0 5))
    ∧ (∀ a b, exec (.linkTraining a b) s = .next { s with cxlCache := a, cxlMem := b })
    ∧ (∀ m, 0 < m → m ≤ 2000 → exec (.clockChange none m) s = .next { s with fabricMhz := m })
    ∧ (∀ d m, d < 4 → 0 < m → m ≤ (if d = 0 ∧ s.stage < 3 then 1000 else 4000) →
      exec (.clockChange (some d) m) s = .next (onDie s d (fun q => { q with mhz := m })))

/-- R13, R345, R354 to R356, R394: bring-up, reset, ports, links, clocks.
Signatures are free values (log entry 9), and clocks count as log entry 4 says. -/
def Obligations.DeviceLife : Prop := LimiterWindowEnds ∧ BringUp ∧ DeviceEvents

/-! ## The machine -/

namespace Sys2Proof.Cert

/-- The issue of the record at a slot's position in its Sinter entry, for the slot's lanes. -/
def recordIssue (c w x : Nat) (v : Wave) (e : SEntry) (defer : Bool) : Issue where
  who := .slot c w x
  lanes := (slotOf v x).mask
  blk := (slotOf v x).blk
  rcd := (slotOf v x).rcd
  nrec := e.nrec
  kind := e.kind
  recs := e.recs
  lits := e.lits
  form := ⟨.value, v.winBase, none⟩
  next := none
  ends := [(slotOf v x).rcd]
  walk := match (slotOf v x).wait with
    | .walked _ r => some (e.part, r)
    | _ => none
  ops := none
  replay := false
  defer := defer

/-- What a turn comes to: where a home made it wait, it has not happened (R43, R130); what follows it by itself is done. -/
def turnEnds (t : Turn) (s : State) : Host.Outcome State Fault Refusal → Host.Outcome State Fault Refusal
  | .next q => .next (settleAll (if q.homeWaits then turnHeld t s else q))
  | o => o

end Sys2Proof.Cert

/-- A step runs what the agenda's turn names (log entry 5). A core's turn: once its waits are up to date, the slot that R50 picks
issues the word that stands at its position (R24, R166, R201), which runs by `exec` where no comparator and no poisoned
register stops it; then the cycle ends, and what follows a turn by itself is done. The word of a slot in an entry that runs its records is
the record at its position. A tender's turn: the record at its stream's position. An event: itself.
The agenda is the model's choice. -/
def Obligations.StepRunsDecodedRecord : Prop :=
  (∀ (s : State) (c w x : Nat) (defer : Bool) (rest : List Turn) (v : Wave) (i : Instr) (cur : Issue) (n : Option Nat) (k : Ctx),
    s.agenda = .issue c defer :: rest → c < Config.numCores →
    let s0 := refresh (turnStart { s with agenda := rest }) c
    let s1 := { atWord s0 c w x cur n with cur := cur }
    pickSlot s0 c = some (w, x) → waveOf s0 c w = some v → v.replay = [] → nextIssue s0 c w x v defer = .word i cur n →
    ctxOf s1 = some k → k.lanes ≠ [] → k.slot.stepOver = none → matchOf s1 k i = none → poisonedLanes s1 k i = [] →
    step s = turnEnds (.issue c defer) (turnStart { s with agenda := rest })
      (mapNext (fun t => afterIssue t c w x (paceOf s0 c w x) (some v)) (exec i s1)))
  ∧ (∀ (s : State) (c w x : Nat) (defer : Bool) (v : Wave) (e : SEntry) (word : Word) (i : Instr),
    v.replay = [] → slotCode s c v (slotOf v x) = some e → e.marker = none → e.code = [] →
    e.recs[(slotOf v x).rcd]? = some word → decode word = .ok i →
    nextIssue s c w x v defer = .word i (recordIssue c w x v e defer) none)
  ∧ (∀ (s : State) (c n : Nat) (rest : List Turn) (t : Tender) (word : Word) (i : Instr),
    s.agenda = .tender c :: rest → c < Config.numCores → partRuns s (corePart s c) = true → (coreOf s c).active = some n →
    (coreOf s c).tenders[n]? = some t → t.bad = none → t.recs[t.pc]? = some word → decodeTender word = .ok i →
    let s0 := turnStart { s with agenda := rest }
    let s1 := { onCore s0 c (fun k => { k with tenderAt := k.cycle + 1 }) with
      cur := { Issue.reset with who := .tender c n, recs := t.recs, lits := t.lits } }
    step s = turnEnds (.tender c) s0 (exec i s1))
  ∧ (∀ (s : State) (rest : List Turn) (i : Instr), s.agenda = .event i :: rest → isRecord i = false →
    step s = turnEnds (.event i) (turnStart { s with agenda := rest }) (exec i (turnStart { s with agenda := rest })))

/-- Words written out from R166 and R167, and from R203 and R205, decode to the instructions they stand for.
That WIN, DLIT and DSPL stand alone in a word is R205. -/
def Obligations.WordsDecode : Prop :=
  decode 0x2A80080000000000 = .ok (.mov ⟨false, .f32, 0, .keep 0, .dist 0, .dist 0⟩)
  ∧ decode 0x3280000054016000 = .ok (.ffma ⟨false, .f32, 0, .dist 1, .unif 2, .lit 0⟩)
  ∧ decode 0x8806900040000000 = .ok (.fenceEng ⟨false, .b32, 13, .imm 1, .dist 0, .dist 0⟩)
  ∧ decode 0xA206800100018002 = .ok (.copy ⟨false, .b32, 13, .dist 4, .dist 3, .dist 2⟩)
  ∧ decodeTableWord 32 0x60000000 = some (.win false 0 false)
  ∧ decodeTableWord 32 0x61000000 = some (.dlit false 0)
  ∧ decodeTableWord 32 0x62000000 = some (.dspl false 0)

/-- R166, R167, R183, R311: decoding and encoding agree. Every well-formed record instruction has a word, which decodes to it, as a
record of a tender block where it is the tender's LOOP; a word that decodes is the word of what it decodes to; and the die-only
words decode to themselves. -/
def Obligations.EncodeDecodeRoundTrip : Prop :=
  (∀ (i : Instr) (op : Nat) (r : Record), i.opRecord = some (op, r) → i.wellFormed = true →
    ∃ w, encode i = some w ∧ (i ≠ .tenderLoop r → decode w = .ok i) ∧ (i ≠ .loop r → decodeTender w = .ok i))
  ∧ (∀ (w : Word) (i : Instr), decode w = .ok i → encode i = some w)
  ∧ (∀ (i : Instr) (w : W32), encodeDie i = some w → ∃ d, decodeDie none w [0] = .ok d ∧ d.ins = i ∧ d.words = 1)

namespace Sys2Proof.Cert

/-- The memories the State holds are in their one canonical form (log entry 2): device memory, its cell tags, host memory. -/
def MemoryCanonical (s : State) : Prop :=
  Memory.wf s.dmem = true ∧ Memory.wf s.hmem = true ∧ smWf (0 : BitVec 2) s.tags = true

end Sys2Proof.Cert

/-- Every step keeps the canonical form of the memories: two states whose bytes and tags read the same hold the same memories.
The form of memory is the model's (log entry 2). -/
def Obligations.MemoryStaysCanonical : Prop :=
  ∀ s t : State, MemoryCanonical s → step s = .next t → MemoryCanonical t

/-- What a device reset leaves (R355, R106, R39, R72, R354, R263): stage 0, no die joined, memory of zeros, no partition, no
launch; a core's counters at their reset values. The memories of that state are canonical.
An empty list of partitions and cores stands for their reset registers, whose values are the model's choice where
spec/ gives none (log entry 1). -/
def Obligations.ResetState : Prop :=
  MemoryCanonical State.reset ∧ State.reset.stage = 0 ∧ (∀ d, (dieOf State.reset d).joined = false)
    ∧ (∀ a, memByte State.reset.dmem a = 0) ∧ State.reset.parts = [] ∧ State.reset.launches = []
    ∧ (∀ c, (coreOf State.reset c).kcBintmr = 256 ∧ (coreOf State.reset c).kcCplq = 65536 ∧ (coreOf State.reset c).kcRlim = 0
        ∧ (coreOf State.reset c).cycle = 0)

/-- R268: BRC completes whatever its predicate: where no lane is taken its slot goes on, where every lane is taken it moves
to the target, and where the lanes part and the sibling is EMPTY the taken lanes take the sibling's slot. -/
def Obligations.ConditionalBranch : Prop :=
  ∀ (r : Record) (s : State) (k : Ctx), Plain s k → s.cur.replay = false → k.slot.dieAt = none →
    let taken (l : Nat) : Prop := (opB s k r .pred l).getLsbD 0 = true ↔ r.fn = 0
    ((∀ l ∈ k.lanes, ¬ taken l) →
      exec (.brc r) s = .next (onWave s k.core k.w (fun v => stepSlot s.cur v k.x)))
    ∧ (k.lanes ≠ [] → (∀ l ∈ k.lanes, taken l) →
      exec (.brc r) s = .next (onWave s k.core k.w (fun v => moveSlot v k.x (targetBlock s r.a) 0)))
    ∧ ((∃ l ∈ k.lanes, taken l) → (∃ l ∈ k.lanes, ¬ taken l) → k.x < 2 → (slotOf k.wave (1 - k.x)).st = .empty →
        (slotOf k.wave (1 - k.x)).car = none → divCount k.wave < 64 →
      ∃ t v, exec (.brc r) s = .next t ∧ waveOf t k.core k.w = some v
        ∧ (slotOf v (1 - k.x)).blk = targetBlock s r.a ∧ (slotOf v (1 - k.x)).rcd = 0
        ∧ ∀ l, l < 32 → ((slotOf v (1 - k.x)).mask.getLsbD l = true ↔ l ∈ k.lanes ∧ taken l))
end

