-- ==== Sys2Proof/Laws/Sparse.lean ====
section
/-! SUPPORT. What reading and writing a sparse map, a memory and a list of lanes can do: read after write, and the one
canonical form that every write keeps. -/

namespace Sys2Proof.Machine

/-! ## Maps -/

theorem smGet_append {α : Type} (d : α) (m q : SMap α) (k : Nat) (h : ∀ p ∈ m, p.1 ≠ k) : smGet d (m ++ q) k = smGet d q k := by
  induction m with
  | nil => rfl
  | cons p m ih =>
    have hp : p.1 ≠ k := h p (by simp)
    simpa [smGet, hp] using ih (fun r hr => h r (by simp [hr]))

theorem smGet_none {α : Type} (d : α) (m : SMap α) (k : Nat) (h : ∀ p ∈ m, p.1 ≠ k) : smGet d m k = d := by
  simpa [smGet] using smGet_append d m [] k h

theorem smGet_filter {α : Type} (d : α) (m : SMap α) (k : Nat) (f : Nat × α → Bool) (h : ∀ p ∈ m, p.1 = k → f p = true) :
    smGet d (m.filter f) k = smGet d m k := by
  induction m with
  | nil => rfl
  | cons p m ih =>
    have ih := ih (fun r hr => h r (by simp [hr]))
    by_cases hk : p.1 = k
    · simp [h p (by simp) hk, smGet, hk]
    · cases hf : f p <;> simp [hf, smGet, hk, ih]

/-- A key below a bound is found among the entries below it. -/
theorem smGet_below {α : Type} (d : α) (q : SMap α) (k j : Nat) (hj : j < k) (hq : ∀ p ∈ q, p.1 ≠ j) :
    ∀ m : SMap α, smGet d (m.filter (fun p => decide (p.1 < k)) ++ q) j = smGet d m j := by
  intro m
  induction m with
  | nil => simpa [smGet] using smGet_none d q j hq
  | cons p m ih =>
    by_cases hp : p.1 = j
    · have hk : p.1 < k := by omega
      rw [List.filter_cons_of_pos (by simpa using hk)]
      simp [smGet, hp]
    · by_cases hk : p.1 < k <;> simp [hk, smGet, hp, ih]

/-- A read of the key just written. -/
@[simp] theorem smGet_smSet_same {α : Type} [DecidableEq α] (d : α) (m : SMap α) (k : Nat) (v : α) :
    smGet d (smSet d m k v) k = v := by
  have hlo : ∀ p ∈ m.filter (fun p => decide (p.1 < k)), p.1 ≠ k := by
    intro p hp; simp at hp; omega
  have hhi : ∀ p ∈ m.filter (fun p => decide (k < p.1)), p.1 ≠ k := by
    intro p hp; simp at hp; omega
  unfold smSet
  rw [List.append_assoc, smGet_append d _ _ k hlo]
  by_cases hv : v = d
  · simpa [hv] using smGet_none d _ k hhi
  · simp [hv, smGet]

/-- A read of another key. -/
theorem smGet_smSet_other {α : Type} [DecidableEq α] (d : α) (m : SMap α) (k j : Nat) (v : α) (h : j ≠ k) :
    smGet d (smSet d m k v) j = smGet d m j := by
  have hv : smGet d ((if v = d then [] else [(k, v)]) ++ m.filter (fun p => decide (k < p.1))) j
      = smGet d (m.filter (fun p => decide (k < p.1))) j := by
    apply smGet_append
    intro p hp
    split at hp <;> simp at hp
    subst hp; exact fun e => h e.symm
  unfold smSet
  rw [List.append_assoc]
  rcases Nat.lt_or_gt_of_ne h with hj | hj
  · apply smGet_below d _ k j hj
    intro p hp
    simp only [List.mem_append, List.mem_filter, decide_eq_true_eq] at hp
    rcases hp with hp | hp
    · split at hp <;> simp at hp
      subst hp; exact fun e => h e.symm
    · omega
  · rw [smGet_append d _ _ j (by intro p hp; simp at hp; omega), hv]
    exact smGet_filter d m j _ (by intro p _ hp; simp; omega)

theorem smGet_smSet {α : Type} [DecidableEq α] (d : α) (m : SMap α) (k j : Nat) (v : α) :
    smGet d (smSet d m k v) j = if j = k then v else smGet d m j := by
  split
  · subst_vars; simp
  · exact smGet_smSet_other d m k j v ‹_›

/-- Writes of other keys leave a key as it is. -/
theorem smGet_smSetAll_other {α : Type} [DecidableEq α] (d : α) (ws : List (Nat × α)) (j : Nat) (h : ∀ p ∈ ws, p.1 ≠ j) :
    ∀ m : SMap α, smGet d (smSetAll d m ws) j = smGet d m j := by
  induction ws with
  | nil => intro m; rfl
  | cons p ws ih =>
    intro m
    rw [smSetAll, ih (fun q hq => h q (by simp [hq])), smGet_smSet_other d m p.1 j p.2 (fun e => h p (by simp) e.symm)]

/-- A read of one of several keys, each written once. -/
theorem smGet_smSetAll_mem {α : Type} [DecidableEq α] (d : α) (ws : List (Nat × α)) (hn : (ws.map (fun p => p.1)).Nodup)
    (k : Nat) (v : α) (h : (k, v) ∈ ws) : ∀ m : SMap α, smGet d (smSetAll d m ws) k = v := by
  induction ws with
  | nil => simp at h
  | cons p ws ih =>
    intro m
    simp only [List.map_cons, List.nodup_cons] at hn
    rw [smSetAll]
    rcases List.mem_cons.mp h with h | h
    · subst h
      rw [smGet_smSetAll_other d ws k]
      · simp
      · intro q hq e
        exact hn.1 (List.mem_map.mpr ⟨q, hq, e⟩)
    · exact ih hn.2 h _

/-! ## The canonical form -/

theorem smRising_iff {α : Type} (m : SMap α) : smRising m = true ↔ m.Pairwise (fun p q => p.1 < q.1) := by
  induction m with
  | nil => simp [smRising]
  | cons p m ih =>
    cases m with
    | nil => simp [smRising]
    | cons q m =>
      simp only [smRising, Bool.and_eq_true, decide_eq_true_eq, ih, List.pairwise_cons]
      constructor
      · rintro ⟨h, hq, hm⟩
        refine ⟨?_, hq, hm⟩
        intro r hr
        rcases List.mem_cons.mp hr with hr | hr
        · rw [hr]; exact h
        · exact Nat.lt_trans h (hq r hr)
      · rintro ⟨hp, hm⟩
        exact ⟨hp q (by simp), hm⟩

theorem smWf_iff {α : Type} [DecidableEq α] (d : α) (m : SMap α) :
    smWf d m = true ↔ m.Pairwise (fun p q => p.1 < q.1) ∧ ∀ p ∈ m, p.2 ≠ d := by
  simp [smWf, smRising_iff]

@[simp] theorem smWf_nil {α : Type} [DecidableEq α] (d : α) : smWf d ([] : SMap α) = true := rfl

/-- Keys below a bound, entries in between, keys above: a map in canonical form again. -/
theorem smWf_splice {α : Type} [DecidableEq α] (d : α) (m e : SMap α) (lo hi : Nat) (h : smWf d m = true)
    (he : smWf d e = true) (hb : ∀ p ∈ e, lo ≤ p.1 ∧ p.1 < hi) (hh : lo ≤ hi) :
    smWf d (m.filter (fun p => decide (p.1 < lo)) ++ e ++ m.filter (fun p => decide (hi ≤ p.1))) = true := by
  rw [smWf_iff] at h he ⊢
  constructor
  · rw [List.pairwise_append, List.pairwise_append]
    refine ⟨⟨h.1.filter _, he.1, ?_⟩, h.1.filter _, ?_⟩
    · intro p hp q hq
      have := hb q hq
      simp at hp
      omega
    · intro p hp q hq
      simp at hq
      rcases List.mem_append.mp hp with hp | hp
      · simp at hp; omega
      · have := hb p hp; omega
  · intro p hp
    simp only [List.mem_append, List.mem_filter] at hp
    rcases hp with (hp | hp) | hp
    · exact h.2 p hp.1
    · exact he.2 p hp
    · exact h.2 p hp.1

/-- A write keeps the canonical form. -/
theorem smWf_smSet {α : Type} [DecidableEq α] (d : α) (m : SMap α) (k : Nat) (v : α) (h : smWf d m = true) :
    smWf d (smSet d m k v) = true := by
  have he : smWf d (if v = d then [] else [(k, v)]) = true := by
    split <;> simp_all [smWf, smRising]
  have := smWf_splice d m _ k (k + 1) h he (by intro p hp; split at hp <;> simp at hp; subst hp; simp) (by omega)
  simpa [smSet, Nat.succ_le_iff] using this

/-- Several writes keep the canonical form. -/
theorem smWf_smSetAll {α : Type} [DecidableEq α] (d : α) (ws : List (Nat × α)) :
    ∀ m : SMap α, smWf d m = true → smWf d (smSetAll d m ws) = true := by
  induction ws with
  | nil => intro m h; exact h
  | cons p ws ih => intro m h; exact ih _ (smWf_smSet d m p.1 p.2 h)

/-- Dropping entries keeps the canonical form. -/
theorem smWf_filter {α : Type} [DecidableEq α] (d : α) (m : SMap α) (f : Nat × α → Bool) (h : smWf d m = true) :
    smWf d (m.filter f) = true := by
  rw [smWf_iff] at h ⊢
  exact ⟨h.1.filter _, fun p hp => h.2 p (List.mem_filter.mp hp).1⟩

/-! ## Memories -/

theorem memCells_wf (bs : List Byte) : ∀ a, smWf unlistedByte (memCells a bs) = true ∧ ∀ p ∈ memCells a bs, a ≤ p.1 ∧ p.1 < a + bs.length := by
  induction bs with
  | nil => intro a; simp [memCells]
  | cons b bs ih =>
    intro a
    have h := ih (a + 1)
    have hb : ∀ p ∈ memCells (a + 1) bs, a < p.1 ∧ p.1 < a + (bs.length + 1) := by
      intro p hp; have := h.2 p hp; omega
    unfold memCells
    split
    · refine ⟨h.1, fun p hp => ?_⟩
      have := hb p hp
      simp only [List.length_cons]; omega
    · rename_i hne
      constructor
      · rw [smWf_iff] at h ⊢
        refine ⟨List.pairwise_cons.mpr ⟨fun p hp => (hb p hp).1, h.1.1⟩, ?_⟩
        intro p hp
        rcases List.mem_cons.mp hp with hp | hp
        · rw [hp]; exact hne
        · exact h.1.2 p hp
      · intro p hp
        rcases List.mem_cons.mp hp with hp | hp
        · subst hp; simp
        · have := hb p hp; simp only [List.length_cons]; omega

/-- A write keeps a memory's canonical form. -/
theorem memWrite_wf (m : List Host.Cell) (a : Nat) (bs : List Byte) (h : Memory.wf m = true) : Memory.wf (memWrite m a bs) = true :=
  smWf_splice unlistedByte m _ a (a + bs.length) h (memCells_wf bs a).1 (memCells_wf bs a).2 (by omega)

/-- The empty memory has the canonical form. -/
@[simp] theorem memory_wf_nil : Memory.wf [] = true := rfl

theorem memCells_get (bs : List Byte) : ∀ a j, smGet unlistedByte (memCells a bs) j
    = if a ≤ j ∧ j < a + bs.length then bs.getD (j - a) unlistedByte else unlistedByte := by
  induction bs with
  | nil => intro a j; simp [memCells, smGet]
  | cons b bs ih =>
    intro a j
    have step : smGet unlistedByte (memCells a (b :: bs)) j = if a = j then b else smGet unlistedByte (memCells (a + 1) bs) j := by
      rw [memCells]
      split
      · rename_i hb
        split
        · rename_i hj
          subst hj
          rw [hb]
          exact smGet_none _ _ _ (fun p hp => by have := (memCells_wf bs (a + 1)).2 p hp; omega)
        · rfl
      · rw [smGet]
    rw [step, ih]
    by_cases hj : a = j
    · subst hj; simp
    · by_cases hr : a ≤ j ∧ j < a + (b :: bs).length
      · obtain ⟨n, rfl⟩ : ∃ n, j = a + 1 + n := ⟨j - a - 1, by omega⟩
        have h1 : a + 1 + n < a + 1 + bs.length := by simp at hr; omega
        simp only [hj, if_false, hr, and_self, if_true, h1, Nat.le_add_right]
        have e1 : a + 1 + n - (a + 1) = n := by omega
        have e2 : a + 1 + n - a = n + 1 := by omega
        rw [e1, e2]; simp
      · have h1 : ¬ (a + 1 ≤ j ∧ j < a + 1 + bs.length) := by simp at hr ⊢; omega
        simp only [hj, if_false, hr, h1]

/-- What a byte reads as after a write: the byte written, or what it read as before. -/
theorem memByte_memWrite (m : List Host.Cell) (a : Nat) (bs : List Byte) (j : Nat) :
    memByte (memWrite m a bs) j = if a ≤ j ∧ j < a + bs.length then bs.getD (j - a) unlistedByte else memByte m j := by
  have hc := memCells_get bs a j
  have hb := (memCells_wf bs a).2
  unfold memByte memWrite
  by_cases hr : a ≤ j ∧ j < a + bs.length
  · simp only [hr, and_self, if_true] at hc ⊢
    rw [List.append_assoc, smGet_append _ _ _ _ (by intro p hp; simp at hp; omega)]
    by_cases hm : ∃ p ∈ memCells a bs, p.1 = j
    · have key : ∀ (e q : SMap Byte), (∃ p ∈ e, p.1 = j) → smGet unlistedByte (e ++ q) j = smGet unlistedByte e j := by
        intro e q he
        induction e with
        | nil => simp at he
        | cons p e ih =>
          by_cases hp : p.1 = j
          · simp [smGet, hp]
          · simp only [List.cons_append, smGet, hp, if_false]
            apply ih
            obtain ⟨r, hr, hj⟩ := he
            rcases List.mem_cons.mp hr with hr | hr
            · exact absurd (hr ▸ hj) hp
            · exact ⟨r, hr, hj⟩
      rw [key _ _ hm, hc]
    · have hm : ∀ p ∈ memCells a bs, p.1 ≠ j := fun p hp e => hm ⟨p, hp, e⟩
      rw [smGet_append _ _ _ _ hm, smGet_none _ _ _ (by intro p hp; simp at hp; omega)]
      rw [← hc, smGet_none _ _ _ hm]
  · simp only [hr, if_false]
    have hcm : ∀ p ∈ memCells a bs, p.1 ≠ j := fun p hp e => hr (e ▸ hb p hp)
    rw [List.append_assoc]
    by_cases hj : j < a
    · apply smGet_below _ _ a j hj
      intro p hp
      rcases List.mem_append.mp hp with hp | hp
      · exact hcm p hp
      · simp at hp; omega
    · rw [smGet_append _ _ _ _ (by intro p hp; simp at hp; omega), smGet_append _ _ _ _ hcm]
      exact smGet_filter _ m j _ (by intro p _ hp; simp; omega)

/-- A read of bytes gives as many as it asks for. -/
@[simp] theorem memRead_length (m : List Host.Cell) (n : Nat) : ∀ a, (memRead m a n).length = n := by
  induction n with
  | zero => intro a; rfl
  | succ n ih => intro a; simp [memRead, ih]

@[simp] theorem leBytes_length (n : Nat) : ∀ v, (leBytes n v).length = n := by
  induction n with
  | zero => intro v; rfl
  | succ n ih => intro v; simp [leBytes, ih]

/-- A number from its own bytes. -/
theorem leNat_leBytes (n : Nat) : ∀ v, leNat (leBytes n v) = v % 256 ^ n := by
  induction n with
  | zero => intro v; simp [leBytes, leNat, Nat.mod_one]
  | succ n ih =>
    intro v
    rw [leBytes, leNat, ih, Nat.pow_succ', Nat.mod_mul]
    simp

/-! ## Lanes -/

theorem mem_lanesOf (m : W32) (l : Nat) : l ∈ lanesOf m ↔ l < 32 ∧ m.getLsbD l = true := by
  simp [lanesOf, allLanes]

theorem lanesOf_nodup (m : W32) : (lanesOf m).Nodup := List.Pairwise.filter _ List.nodup_range

end Sys2Proof.Machine
end

