-- ==== Sys2Proof/Laws/State.lean ====
section
/-! SUPPORT. What each named update of the state leaves as it was, one lemma per field, and what it reads back as. -/

namespace Sys2Proof.Machine

/-! ## Updates of the state -/

@[simp] theorem setCore_stage (s : State) (c : Nat) (k : Core) : (setCore s c k).stage = s.stage := rfl
@[simp] theorem setCore_dies (s : State) (c : Nat) (k : Core) : (setCore s c k).dies = s.dies := rfl
@[simp] theorem setCore_fabricMhz (s : State) (c : Nat) (k : Core) : (setCore s c k).fabricMhz = s.fabricMhz := rfl
@[simp] theorem setCore_fabricCycle (s : State) (c : Nat) (k : Core) : (setCore s c k).fabricCycle = s.fabricCycle := rfl
@[simp] theorem setCore_now (s : State) (c : Nat) (k : Core) : (setCore s c k).now = s.now := rfl
@[simp] theorem setCore_fabricDue (s : State) (c : Nat) (k : Core) : (setCore s c k).fabricDue = s.fabricDue := rfl
@[simp] theorem setCore_cfgRef (s : State) (c : Nat) (k : Core) : (setCore s c k).cfgRef = s.cfgRef := rfl
@[simp] theorem setCore_fwFail (s : State) (c : Nat) (k : Core) : (setCore s c k).fwFail = s.fwFail := rfl
@[simp] theorem setCore_fwImages (s : State) (c : Nat) (k : Core) : (setCore s c k).fwImages = s.fwImages := rfl
@[simp] theorem setCore_fusedKey (s : State) (c : Nat) (k : Core) : (setCore s c k).fusedKey = s.fusedKey := rfl
@[simp] theorem setCore_attest (s : State) (c : Nat) (k : Core) : (setCore s c k).attest = s.attest := rfl
@[simp] theorem setCore_errlog (s : State) (c : Nat) (k : Core) : (setCore s c k).errlog = s.errlog := rfl
@[simp] theorem setCore_errIdx (s : State) (c : Nat) (k : Core) : (setCore s c k).errIdx = s.errIdx := rfl
@[simp] theorem setCore_errSeq (s : State) (c : Nat) (k : Core) : (setCore s c k).errSeq = s.errSeq := rfl
@[simp] theorem setCore_secBase (s : State) (c : Nat) (k : Core) : (setCore s c k).secBase = s.secBase := rfl
@[simp] theorem setCore_secLimit (s : State) (c : Nat) (k : Core) : (setCore s c k).secLimit = s.secLimit := rfl
@[simp] theorem setCore_mbox (s : State) (c : Nat) (k : Core) : (setCore s c k).mbox = s.mbox := rfl
@[simp] theorem setCore_mboxCtx (s : State) (c : Nat) (k : Core) : (setCore s c k).mboxCtx = s.mboxCtx := rfl
@[simp] theorem setCore_cxlCache (s : State) (c : Nat) (k : Core) : (setCore s c k).cxlCache = s.cxlCache := rfl
@[simp] theorem setCore_cxlMem (s : State) (c : Nat) (k : Core) : (setCore s c k).cxlMem = s.cxlMem := rfl
@[simp] theorem setCore_ports (s : State) (c : Nat) (k : Core) : (setCore s c k).ports = s.ports := rfl
@[simp] theorem setCore_devno (s : State) (c : Nat) (k : Core) : (setCore s c k).devno = s.devno := rfl
@[simp] theorem setCore_unacked (s : State) (c : Nat) (k : Core) : (setCore s c k).unacked = s.unacked := rfl
@[simp] theorem setCore_dmem (s : State) (c : Nat) (k : Core) : (setCore s c k).dmem = s.dmem := rfl
@[simp] theorem setCore_tags (s : State) (c : Nat) (k : Core) : (setCore s c k).tags = s.tags := rfl
@[simp] theorem setCore_poison (s : State) (c : Nat) (k : Core) : (setCore s c k).poison = s.poison := rfl
@[simp] theorem setCore_hmem (s : State) (c : Nat) (k : Core) : (setCore s c k).hmem = s.hmem := rfl
@[simp] theorem setCore_atsFail (s : State) (c : Nat) (k : Core) : (setCore s c k).atsFail = s.atsFail := rfl
@[simp] theorem setCore_fmem (s : State) (c : Nat) (k : Core) : (setCore s c k).fmem = s.fmem := rfl
@[simp] theorem setCore_wakeCtr (s : State) (c : Nat) (k : Core) : (setCore s c k).wakeCtr = s.wakeCtr := rfl
@[simp] theorem setCore_waking (s : State) (c : Nat) (k : Core) : (setCore s c k).waking = s.waking := rfl
@[simp] theorem setCore_cut (s : State) (c : Nat) (k : Core) : (setCore s c k).cut = s.cut := rfl
@[simp] theorem setCore_serial (s : State) (c : Nat) (k : Core) : (setCore s c k).serial = s.serial := rfl
@[simp] theorem setCore_accs (s : State) (c : Nat) (k : Core) : (setCore s c k).accs = s.accs := rfl
@[simp] theorem setCore_nextAcc (s : State) (c : Nat) (k : Core) : (setCore s c k).nextAcc = s.nextAcc := rfl
@[simp] theorem setCore_tlb (s : State) (c : Nat) (k : Core) : (setCore s c k).tlb = s.tlb := rfl
@[simp] theorem setCore_lowerReqs (s : State) (c : Nat) (k : Core) : (setCore s c k).lowerReqs = s.lowerReqs := rfl
@[simp] theorem setCore_modules (s : State) (c : Nat) (k : Core) : (setCore s c k).modules = s.modules := rfl
@[simp] theorem setCore_parts (s : State) (c : Nat) (k : Core) : (setCore s c k).parts = s.parts := rfl
@[simp] theorem setCore_standby (s : State) (c : Nat) (k : Core) : (setCore s c k).standby = s.standby := rfl
@[simp] theorem setCore_launches (s : State) (c : Nat) (k : Core) : (setCore s c k).launches = s.launches := rfl
@[simp] theorem setCore_nextLaunch (s : State) (c : Nat) (k : Core) : (setCore s c k).nextLaunch = s.nextLaunch := rfl
@[simp] theorem setCore_nextAge (s : State) (c : Nat) (k : Core) : (setCore s c k).nextAge = s.nextAge := rfl
@[simp] theorem setCore_nextUid (s : State) (c : Nat) (k : Core) : (setCore s c k).nextUid = s.nextUid := rfl
@[simp] theorem setCore_msix (s : State) (c : Nat) (k : Core) : (setCore s c k).msix = s.msix := rfl
@[simp] theorem setCore_hostData (s : State) (c : Nat) (k : Core) : (setCore s c k).hostData = s.hostData := rfl
@[simp] theorem setCore_hostPoison (s : State) (c : Nat) (k : Core) : (setCore s c k).hostPoison = s.hostPoison := rfl
@[simp] theorem setCore_hostWord (s : State) (c : Nat) (k : Core) : (setCore s c k).hostWord = s.hostWord := rfl
@[simp] theorem setCore_freeCtr (s : State) (c : Nat) (k : Core) : (setCore s c k).freeCtr = s.freeCtr := rfl
@[simp] theorem setCore_homeWaits (s : State) (c : Nat) (k : Core) : (setCore s c k).homeWaits = s.homeWaits := rfl
@[simp] theorem setCore_cur (s : State) (c : Nat) (k : Core) : (setCore s c k).cur = s.cur := rfl
@[simp] theorem setCore_agenda (s : State) (c : Nat) (k : Core) : (setCore s c k).agenda = s.agenda := rfl
@[simp] theorem setCore_stacksFailed (s : State) (c : Nat) (k : Core) : (setCore s c k).stacksFailed = s.stacksFailed := rfl
@[simp] theorem setCore_owed (s : State) (c : Nat) (k : Core) : (setCore s c k).owed = s.owed := rfl

@[simp] theorem onCore_stage (s : State) (c : Nat) (f : Core → Core) : (onCore s c f).stage = s.stage := rfl
@[simp] theorem onCore_dies (s : State) (c : Nat) (f : Core → Core) : (onCore s c f).dies = s.dies := rfl
@[simp] theorem onCore_fabricMhz (s : State) (c : Nat) (f : Core → Core) : (onCore s c f).fabricMhz = s.fabricMhz := rfl
@[simp] theorem onCore_fabricCycle (s : State) (c : Nat) (f : Core → Core) : (onCore s c f).fabricCycle = s.fabricCycle := rfl
@[simp] theorem onCore_now (s : State) (c : Nat) (f : Core → Core) : (onCore s c f).now = s.now := rfl
@[simp] theorem onCore_fabricDue (s : State) (c : Nat) (f : Core → Core) : (onCore s c f).fabricDue = s.fabricDue := rfl
@[simp] theorem onCore_cfgRef (s : State) (c : Nat) (f : Core → Core) : (onCore s c f).cfgRef = s.cfgRef := rfl
@[simp] theorem onCore_fwFail (s : State) (c : Nat) (f : Core → Core) : (onCore s c f).fwFail = s.fwFail := rfl
@[simp] theorem onCore_fwImages (s : State) (c : Nat) (f : Core → Core) : (onCore s c f).fwImages = s.fwImages := rfl
@[simp] theorem onCore_fusedKey (s : State) (c : Nat) (f : Core → Core) : (onCore s c f).fusedKey = s.fusedKey := rfl
@[simp] theorem onCore_attest (s : State) (c : Nat) (f : Core → Core) : (onCore s c f).attest = s.attest := rfl
@[simp] theorem onCore_errlog (s : State) (c : Nat) (f : Core → Core) : (onCore s c f).errlog = s.errlog := rfl
@[simp] theorem onCore_errIdx (s : State) (c : Nat) (f : Core → Core) : (onCore s c f).errIdx = s.errIdx := rfl
@[simp] theorem onCore_errSeq (s : State) (c : Nat) (f : Core → Core) : (onCore s c f).errSeq = s.errSeq := rfl
@[simp] theorem onCore_secBase (s : State) (c : Nat) (f : Core → Core) : (onCore s c f).secBase = s.secBase := rfl
@[simp] theorem onCore_secLimit (s : State) (c : Nat) (f : Core → Core) : (onCore s c f).secLimit = s.secLimit := rfl
@[simp] theorem onCore_mbox (s : State) (c : Nat) (f : Core → Core) : (onCore s c f).mbox = s.mbox := rfl
@[simp] theorem onCore_mboxCtx (s : State) (c : Nat) (f : Core → Core) : (onCore s c f).mboxCtx = s.mboxCtx := rfl
@[simp] theorem onCore_cxlCache (s : State) (c : Nat) (f : Core → Core) : (onCore s c f).cxlCache = s.cxlCache := rfl
@[simp] theorem onCore_cxlMem (s : State) (c : Nat) (f : Core → Core) : (onCore s c f).cxlMem = s.cxlMem := rfl
@[simp] theorem onCore_ports (s : State) (c : Nat) (f : Core → Core) : (onCore s c f).ports = s.ports := rfl
@[simp] theorem onCore_devno (s : State) (c : Nat) (f : Core → Core) : (onCore s c f).devno = s.devno := rfl
@[simp] theorem onCore_unacked (s : State) (c : Nat) (f : Core → Core) : (onCore s c f).unacked = s.unacked := rfl
@[simp] theorem onCore_dmem (s : State) (c : Nat) (f : Core → Core) : (onCore s c f).dmem = s.dmem := rfl
@[simp] theorem onCore_tags (s : State) (c : Nat) (f : Core → Core) : (onCore s c f).tags = s.tags := rfl
@[simp] theorem onCore_poison (s : State) (c : Nat) (f : Core → Core) : (onCore s c f).poison = s.poison := rfl
@[simp] theorem onCore_hmem (s : State) (c : Nat) (f : Core → Core) : (onCore s c f).hmem = s.hmem := rfl
@[simp] theorem onCore_atsFail (s : State) (c : Nat) (f : Core → Core) : (onCore s c f).atsFail = s.atsFail := rfl
@[simp] theorem onCore_fmem (s : State) (c : Nat) (f : Core → Core) : (onCore s c f).fmem = s.fmem := rfl
@[simp] theorem onCore_wakeCtr (s : State) (c : Nat) (f : Core → Core) : (onCore s c f).wakeCtr = s.wakeCtr := rfl
@[simp] theorem onCore_waking (s : State) (c : Nat) (f : Core → Core) : (onCore s c f).waking = s.waking := rfl
@[simp] theorem onCore_cut (s : State) (c : Nat) (f : Core → Core) : (onCore s c f).cut = s.cut := rfl
@[simp] theorem onCore_serial (s : State) (c : Nat) (f : Core → Core) : (onCore s c f).serial = s.serial := rfl
@[simp] theorem onCore_accs (s : State) (c : Nat) (f : Core → Core) : (onCore s c f).accs = s.accs := rfl
@[simp] theorem onCore_nextAcc (s : State) (c : Nat) (f : Core → Core) : (onCore s c f).nextAcc = s.nextAcc := rfl
@[simp] theorem onCore_tlb (s : State) (c : Nat) (f : Core → Core) : (onCore s c f).tlb = s.tlb := rfl
@[simp] theorem onCore_lowerReqs (s : State) (c : Nat) (f : Core → Core) : (onCore s c f).lowerReqs = s.lowerReqs := rfl
@[simp] theorem onCore_modules (s : State) (c : Nat) (f : Core → Core) : (onCore s c f).modules = s.modules := rfl
@[simp] theorem onCore_parts (s : State) (c : Nat) (f : Core → Core) : (onCore s c f).parts = s.parts := rfl
@[simp] theorem onCore_standby (s : State) (c : Nat) (f : Core → Core) : (onCore s c f).standby = s.standby := rfl
@[simp] theorem onCore_launches (s : State) (c : Nat) (f : Core → Core) : (onCore s c f).launches = s.launches := rfl
@[simp] theorem onCore_nextLaunch (s : State) (c : Nat) (f : Core → Core) : (onCore s c f).nextLaunch = s.nextLaunch := rfl
@[simp] theorem onCore_nextAge (s : State) (c : Nat) (f : Core → Core) : (onCore s c f).nextAge = s.nextAge := rfl
@[simp] theorem onCore_nextUid (s : State) (c : Nat) (f : Core → Core) : (onCore s c f).nextUid = s.nextUid := rfl
@[simp] theorem onCore_msix (s : State) (c : Nat) (f : Core → Core) : (onCore s c f).msix = s.msix := rfl
@[simp] theorem onCore_hostData (s : State) (c : Nat) (f : Core → Core) : (onCore s c f).hostData = s.hostData := rfl
@[simp] theorem onCore_hostPoison (s : State) (c : Nat) (f : Core → Core) : (onCore s c f).hostPoison = s.hostPoison := rfl
@[simp] theorem onCore_hostWord (s : State) (c : Nat) (f : Core → Core) : (onCore s c f).hostWord = s.hostWord := rfl
@[simp] theorem onCore_freeCtr (s : State) (c : Nat) (f : Core → Core) : (onCore s c f).freeCtr = s.freeCtr := rfl
@[simp] theorem onCore_homeWaits (s : State) (c : Nat) (f : Core → Core) : (onCore s c f).homeWaits = s.homeWaits := rfl
@[simp] theorem onCore_cur (s : State) (c : Nat) (f : Core → Core) : (onCore s c f).cur = s.cur := rfl
@[simp] theorem onCore_agenda (s : State) (c : Nat) (f : Core → Core) : (onCore s c f).agenda = s.agenda := rfl
@[simp] theorem onCore_stacksFailed (s : State) (c : Nat) (f : Core → Core) : (onCore s c f).stacksFailed = s.stacksFailed := rfl
@[simp] theorem onCore_owed (s : State) (c : Nat) (f : Core → Core) : (onCore s c f).owed = s.owed := rfl

@[simp] theorem setWave_stage (s : State) (c w : Nat) (v : Option Wave) : (setWave s c w v).stage = s.stage := rfl
@[simp] theorem setWave_dies (s : State) (c w : Nat) (v : Option Wave) : (setWave s c w v).dies = s.dies := rfl
@[simp] theorem setWave_fabricMhz (s : State) (c w : Nat) (v : Option Wave) : (setWave s c w v).fabricMhz = s.fabricMhz := rfl
@[simp] theorem setWave_fabricCycle (s : State) (c w : Nat) (v : Option Wave) : (setWave s c w v).fabricCycle = s.fabricCycle := rfl
@[simp] theorem setWave_now (s : State) (c w : Nat) (v : Option Wave) : (setWave s c w v).now = s.now := rfl
@[simp] theorem setWave_fabricDue (s : State) (c w : Nat) (v : Option Wave) : (setWave s c w v).fabricDue = s.fabricDue := rfl
@[simp] theorem setWave_cfgRef (s : State) (c w : Nat) (v : Option Wave) : (setWave s c w v).cfgRef = s.cfgRef := rfl
@[simp] theorem setWave_fwFail (s : State) (c w : Nat) (v : Option Wave) : (setWave s c w v).fwFail = s.fwFail := rfl
@[simp] theorem setWave_fwImages (s : State) (c w : Nat) (v : Option Wave) : (setWave s c w v).fwImages = s.fwImages := rfl
@[simp] theorem setWave_fusedKey (s : State) (c w : Nat) (v : Option Wave) : (setWave s c w v).fusedKey = s.fusedKey := rfl
@[simp] theorem setWave_attest (s : State) (c w : Nat) (v : Option Wave) : (setWave s c w v).attest = s.attest := rfl
@[simp] theorem setWave_errlog (s : State) (c w : Nat) (v : Option Wave) : (setWave s c w v).errlog = s.errlog := rfl
@[simp] theorem setWave_errIdx (s : State) (c w : Nat) (v : Option Wave) : (setWave s c w v).errIdx = s.errIdx := rfl
@[simp] theorem setWave_errSeq (s : State) (c w : Nat) (v : Option Wave) : (setWave s c w v).errSeq = s.errSeq := rfl
@[simp] theorem setWave_secBase (s : State) (c w : Nat) (v : Option Wave) : (setWave s c w v).secBase = s.secBase := rfl
@[simp] theorem setWave_secLimit (s : State) (c w : Nat) (v : Option Wave) : (setWave s c w v).secLimit = s.secLimit := rfl
@[simp] theorem setWave_mbox (s : State) (c w : Nat) (v : Option Wave) : (setWave s c w v).mbox = s.mbox := rfl
@[simp] theorem setWave_mboxCtx (s : State) (c w : Nat) (v : Option Wave) : (setWave s c w v).mboxCtx = s.mboxCtx := rfl
@[simp] theorem setWave_cxlCache (s : State) (c w : Nat) (v : Option Wave) : (setWave s c w v).cxlCache = s.cxlCache := rfl
@[simp] theorem setWave_cxlMem (s : State) (c w : Nat) (v : Option Wave) : (setWave s c w v).cxlMem = s.cxlMem := rfl
@[simp] theorem setWave_ports (s : State) (c w : Nat) (v : Option Wave) : (setWave s c w v).ports = s.ports := rfl
@[simp] theorem setWave_devno (s : State) (c w : Nat) (v : Option Wave) : (setWave s c w v).devno = s.devno := rfl
@[simp] theorem setWave_unacked (s : State) (c w : Nat) (v : Option Wave) : (setWave s c w v).unacked = s.unacked := rfl
@[simp] theorem setWave_dmem (s : State) (c w : Nat) (v : Option Wave) : (setWave s c w v).dmem = s.dmem := rfl
@[simp] theorem setWave_tags (s : State) (c w : Nat) (v : Option Wave) : (setWave s c w v).tags = s.tags := rfl
@[simp] theorem setWave_poison (s : State) (c w : Nat) (v : Option Wave) : (setWave s c w v).poison = s.poison := rfl
@[simp] theorem setWave_hmem (s : State) (c w : Nat) (v : Option Wave) : (setWave s c w v).hmem = s.hmem := rfl
@[simp] theorem setWave_atsFail (s : State) (c w : Nat) (v : Option Wave) : (setWave s c w v).atsFail = s.atsFail := rfl
@[simp] theorem setWave_fmem (s : State) (c w : Nat) (v : Option Wave) : (setWave s c w v).fmem = s.fmem := rfl
@[simp] theorem setWave_wakeCtr (s : State) (c w : Nat) (v : Option Wave) : (setWave s c w v).wakeCtr = s.wakeCtr := rfl
@[simp] theorem setWave_waking (s : State) (c w : Nat) (v : Option Wave) : (setWave s c w v).waking = s.waking := rfl
@[simp] theorem setWave_cut (s : State) (c w : Nat) (v : Option Wave) : (setWave s c w v).cut = s.cut := rfl
@[simp] theorem setWave_serial (s : State) (c w : Nat) (v : Option Wave) : (setWave s c w v).serial = s.serial := rfl
@[simp] theorem setWave_accs (s : State) (c w : Nat) (v : Option Wave) : (setWave s c w v).accs = s.accs := rfl
@[simp] theorem setWave_nextAcc (s : State) (c w : Nat) (v : Option Wave) : (setWave s c w v).nextAcc = s.nextAcc := rfl
@[simp] theorem setWave_tlb (s : State) (c w : Nat) (v : Option Wave) : (setWave s c w v).tlb = s.tlb := rfl
@[simp] theorem setWave_lowerReqs (s : State) (c w : Nat) (v : Option Wave) : (setWave s c w v).lowerReqs = s.lowerReqs := rfl
@[simp] theorem setWave_modules (s : State) (c w : Nat) (v : Option Wave) : (setWave s c w v).modules = s.modules := rfl
@[simp] theorem setWave_parts (s : State) (c w : Nat) (v : Option Wave) : (setWave s c w v).parts = s.parts := rfl
@[simp] theorem setWave_standby (s : State) (c w : Nat) (v : Option Wave) : (setWave s c w v).standby = s.standby := rfl
@[simp] theorem setWave_launches (s : State) (c w : Nat) (v : Option Wave) : (setWave s c w v).launches = s.launches := rfl
@[simp] theorem setWave_nextLaunch (s : State) (c w : Nat) (v : Option Wave) : (setWave s c w v).nextLaunch = s.nextLaunch := rfl
@[simp] theorem setWave_nextAge (s : State) (c w : Nat) (v : Option Wave) : (setWave s c w v).nextAge = s.nextAge := rfl
@[simp] theorem setWave_nextUid (s : State) (c w : Nat) (v : Option Wave) : (setWave s c w v).nextUid = s.nextUid := rfl
@[simp] theorem setWave_msix (s : State) (c w : Nat) (v : Option Wave) : (setWave s c w v).msix = s.msix := rfl
@[simp] theorem setWave_hostData (s : State) (c w : Nat) (v : Option Wave) : (setWave s c w v).hostData = s.hostData := rfl
@[simp] theorem setWave_hostPoison (s : State) (c w : Nat) (v : Option Wave) : (setWave s c w v).hostPoison = s.hostPoison := rfl
@[simp] theorem setWave_hostWord (s : State) (c w : Nat) (v : Option Wave) : (setWave s c w v).hostWord = s.hostWord := rfl
@[simp] theorem setWave_freeCtr (s : State) (c w : Nat) (v : Option Wave) : (setWave s c w v).freeCtr = s.freeCtr := rfl
@[simp] theorem setWave_homeWaits (s : State) (c w : Nat) (v : Option Wave) : (setWave s c w v).homeWaits = s.homeWaits := rfl
@[simp] theorem setWave_cur (s : State) (c w : Nat) (v : Option Wave) : (setWave s c w v).cur = s.cur := rfl
@[simp] theorem setWave_agenda (s : State) (c w : Nat) (v : Option Wave) : (setWave s c w v).agenda = s.agenda := rfl
@[simp] theorem setWave_stacksFailed (s : State) (c w : Nat) (v : Option Wave) : (setWave s c w v).stacksFailed = s.stacksFailed := rfl
@[simp] theorem setWave_owed (s : State) (c w : Nat) (v : Option Wave) : (setWave s c w v).owed = s.owed := rfl

@[simp] theorem onWave_stage (s : State) (c w : Nat) (f : Wave → Wave) : (onWave s c w f).stage = s.stage := by unfold onWave; split <;> rfl
@[simp] theorem onWave_dies (s : State) (c w : Nat) (f : Wave → Wave) : (onWave s c w f).dies = s.dies := by unfold onWave; split <;> rfl
@[simp] theorem onWave_fabricMhz (s : State) (c w : Nat) (f : Wave → Wave) : (onWave s c w f).fabricMhz = s.fabricMhz := by unfold onWave; split <;> rfl
@[simp] theorem onWave_fabricCycle (s : State) (c w : Nat) (f : Wave → Wave) : (onWave s c w f).fabricCycle = s.fabricCycle := by unfold onWave; split <;> rfl
@[simp] theorem onWave_now (s : State) (c w : Nat) (f : Wave → Wave) : (onWave s c w f).now = s.now := by unfold onWave; split <;> rfl
@[simp] theorem onWave_fabricDue (s : State) (c w : Nat) (f : Wave → Wave) : (onWave s c w f).fabricDue = s.fabricDue := by unfold onWave; split <;> rfl
@[simp] theorem onWave_cfgRef (s : State) (c w : Nat) (f : Wave → Wave) : (onWave s c w f).cfgRef = s.cfgRef := by unfold onWave; split <;> rfl
@[simp] theorem onWave_fwFail (s : State) (c w : Nat) (f : Wave → Wave) : (onWave s c w f).fwFail = s.fwFail := by unfold onWave; split <;> rfl
@[simp] theorem onWave_fwImages (s : State) (c w : Nat) (f : Wave → Wave) : (onWave s c w f).fwImages = s.fwImages := by unfold onWave; split <;> rfl
@[simp] theorem onWave_fusedKey (s : State) (c w : Nat) (f : Wave → Wave) : (onWave s c w f).fusedKey = s.fusedKey := by unfold onWave; split <;> rfl
@[simp] theorem onWave_attest (s : State) (c w : Nat) (f : Wave → Wave) : (onWave s c w f).attest = s.attest := by unfold onWave; split <;> rfl
@[simp] theorem onWave_errlog (s : State) (c w : Nat) (f : Wave → Wave) : (onWave s c w f).errlog = s.errlog := by unfold onWave; split <;> rfl
@[simp] theorem onWave_errIdx (s : State) (c w : Nat) (f : Wave → Wave) : (onWave s c w f).errIdx = s.errIdx := by unfold onWave; split <;> rfl
@[simp] theorem onWave_errSeq (s : State) (c w : Nat) (f : Wave → Wave) : (onWave s c w f).errSeq = s.errSeq := by unfold onWave; split <;> rfl
@[simp] theorem onWave_secBase (s : State) (c w : Nat) (f : Wave → Wave) : (onWave s c w f).secBase = s.secBase := by unfold onWave; split <;> rfl
@[simp] theorem onWave_secLimit (s : State) (c w : Nat) (f : Wave → Wave) : (onWave s c w f).secLimit = s.secLimit := by unfold onWave; split <;> rfl
@[simp] theorem onWave_mbox (s : State) (c w : Nat) (f : Wave → Wave) : (onWave s c w f).mbox = s.mbox := by unfold onWave; split <;> rfl
@[simp] theorem onWave_mboxCtx (s : State) (c w : Nat) (f : Wave → Wave) : (onWave s c w f).mboxCtx = s.mboxCtx := by unfold onWave; split <;> rfl
@[simp] theorem onWave_cxlCache (s : State) (c w : Nat) (f : Wave → Wave) : (onWave s c w f).cxlCache = s.cxlCache := by unfold onWave; split <;> rfl
@[simp] theorem onWave_cxlMem (s : State) (c w : Nat) (f : Wave → Wave) : (onWave s c w f).cxlMem = s.cxlMem := by unfold onWave; split <;> rfl
@[simp] theorem onWave_ports (s : State) (c w : Nat) (f : Wave → Wave) : (onWave s c w f).ports = s.ports := by unfold onWave; split <;> rfl
@[simp] theorem onWave_devno (s : State) (c w : Nat) (f : Wave → Wave) : (onWave s c w f).devno = s.devno := by unfold onWave; split <;> rfl
@[simp] theorem onWave_unacked (s : State) (c w : Nat) (f : Wave → Wave) : (onWave s c w f).unacked = s.unacked := by unfold onWave; split <;> rfl
@[simp] theorem onWave_dmem (s : State) (c w : Nat) (f : Wave → Wave) : (onWave s c w f).dmem = s.dmem := by unfold onWave; split <;> rfl
@[simp] theorem onWave_tags (s : State) (c w : Nat) (f : Wave → Wave) : (onWave s c w f).tags = s.tags := by unfold onWave; split <;> rfl
@[simp] theorem onWave_poison (s : State) (c w : Nat) (f : Wave → Wave) : (onWave s c w f).poison = s.poison := by unfold onWave; split <;> rfl
@[simp] theorem onWave_hmem (s : State) (c w : Nat) (f : Wave → Wave) : (onWave s c w f).hmem = s.hmem := by unfold onWave; split <;> rfl
@[simp] theorem onWave_atsFail (s : State) (c w : Nat) (f : Wave → Wave) : (onWave s c w f).atsFail = s.atsFail := by unfold onWave; split <;> rfl
@[simp] theorem onWave_fmem (s : State) (c w : Nat) (f : Wave → Wave) : (onWave s c w f).fmem = s.fmem := by unfold onWave; split <;> rfl
@[simp] theorem onWave_wakeCtr (s : State) (c w : Nat) (f : Wave → Wave) : (onWave s c w f).wakeCtr = s.wakeCtr := by unfold onWave; split <;> rfl
@[simp] theorem onWave_waking (s : State) (c w : Nat) (f : Wave → Wave) : (onWave s c w f).waking = s.waking := by unfold onWave; split <;> rfl
@[simp] theorem onWave_cut (s : State) (c w : Nat) (f : Wave → Wave) : (onWave s c w f).cut = s.cut := by unfold onWave; split <;> rfl
@[simp] theorem onWave_serial (s : State) (c w : Nat) (f : Wave → Wave) : (onWave s c w f).serial = s.serial := by unfold onWave; split <;> rfl
@[simp] theorem onWave_accs (s : State) (c w : Nat) (f : Wave → Wave) : (onWave s c w f).accs = s.accs := by unfold onWave; split <;> rfl
@[simp] theorem onWave_nextAcc (s : State) (c w : Nat) (f : Wave → Wave) : (onWave s c w f).nextAcc = s.nextAcc := by unfold onWave; split <;> rfl
@[simp] theorem onWave_tlb (s : State) (c w : Nat) (f : Wave → Wave) : (onWave s c w f).tlb = s.tlb := by unfold onWave; split <;> rfl
@[simp] theorem onWave_lowerReqs (s : State) (c w : Nat) (f : Wave → Wave) : (onWave s c w f).lowerReqs = s.lowerReqs := by unfold onWave; split <;> rfl
@[simp] theorem onWave_modules (s : State) (c w : Nat) (f : Wave → Wave) : (onWave s c w f).modules = s.modules := by unfold onWave; split <;> rfl
@[simp] theorem onWave_parts (s : State) (c w : Nat) (f : Wave → Wave) : (onWave s c w f).parts = s.parts := by unfold onWave; split <;> rfl
@[simp] theorem onWave_standby (s : State) (c w : Nat) (f : Wave → Wave) : (onWave s c w f).standby = s.standby := by unfold onWave; split <;> rfl
@[simp] theorem onWave_launches (s : State) (c w : Nat) (f : Wave → Wave) : (onWave s c w f).launches = s.launches := by unfold onWave; split <;> rfl
@[simp] theorem onWave_nextLaunch (s : State) (c w : Nat) (f : Wave → Wave) : (onWave s c w f).nextLaunch = s.nextLaunch := by unfold onWave; split <;> rfl
@[simp] theorem onWave_nextAge (s : State) (c w : Nat) (f : Wave → Wave) : (onWave s c w f).nextAge = s.nextAge := by unfold onWave; split <;> rfl
@[simp] theorem onWave_nextUid (s : State) (c w : Nat) (f : Wave → Wave) : (onWave s c w f).nextUid = s.nextUid := by unfold onWave; split <;> rfl
@[simp] theorem onWave_msix (s : State) (c w : Nat) (f : Wave → Wave) : (onWave s c w f).msix = s.msix := by unfold onWave; split <;> rfl
@[simp] theorem onWave_hostData (s : State) (c w : Nat) (f : Wave → Wave) : (onWave s c w f).hostData = s.hostData := by unfold onWave; split <;> rfl
@[simp] theorem onWave_hostPoison (s : State) (c w : Nat) (f : Wave → Wave) : (onWave s c w f).hostPoison = s.hostPoison := by unfold onWave; split <;> rfl
@[simp] theorem onWave_hostWord (s : State) (c w : Nat) (f : Wave → Wave) : (onWave s c w f).hostWord = s.hostWord := by unfold onWave; split <;> rfl
@[simp] theorem onWave_freeCtr (s : State) (c w : Nat) (f : Wave → Wave) : (onWave s c w f).freeCtr = s.freeCtr := by unfold onWave; split <;> rfl
@[simp] theorem onWave_homeWaits (s : State) (c w : Nat) (f : Wave → Wave) : (onWave s c w f).homeWaits = s.homeWaits := by unfold onWave; split <;> rfl
@[simp] theorem onWave_cur (s : State) (c w : Nat) (f : Wave → Wave) : (onWave s c w f).cur = s.cur := by unfold onWave; split <;> rfl
@[simp] theorem onWave_agenda (s : State) (c w : Nat) (f : Wave → Wave) : (onWave s c w f).agenda = s.agenda := by unfold onWave; split <;> rfl
@[simp] theorem onWave_stacksFailed (s : State) (c w : Nat) (f : Wave → Wave) : (onWave s c w f).stacksFailed = s.stacksFailed := by unfold onWave; split <;> rfl
@[simp] theorem onWave_owed (s : State) (c w : Nat) (f : Wave → Wave) : (onWave s c w f).owed = s.owed := by unfold onWave; split <;> rfl

@[simp] theorem onSlotOf_stage (s : State) (c w x : Nat) (f : Slot → Slot) : (onSlotOf s c w x f).stage = s.stage := onWave_stage ..
@[simp] theorem onSlotOf_dies (s : State) (c w x : Nat) (f : Slot → Slot) : (onSlotOf s c w x f).dies = s.dies := onWave_dies ..
@[simp] theorem onSlotOf_fabricMhz (s : State) (c w x : Nat) (f : Slot → Slot) : (onSlotOf s c w x f).fabricMhz = s.fabricMhz := onWave_fabricMhz ..
@[simp] theorem onSlotOf_fabricCycle (s : State) (c w x : Nat) (f : Slot → Slot) : (onSlotOf s c w x f).fabricCycle = s.fabricCycle := onWave_fabricCycle ..
@[simp] theorem onSlotOf_now (s : State) (c w x : Nat) (f : Slot → Slot) : (onSlotOf s c w x f).now = s.now := onWave_now ..
@[simp] theorem onSlotOf_fabricDue (s : State) (c w x : Nat) (f : Slot → Slot) : (onSlotOf s c w x f).fabricDue = s.fabricDue := onWave_fabricDue ..
@[simp] theorem onSlotOf_cfgRef (s : State) (c w x : Nat) (f : Slot → Slot) : (onSlotOf s c w x f).cfgRef = s.cfgRef := onWave_cfgRef ..
@[simp] theorem onSlotOf_fwFail (s : State) (c w x : Nat) (f : Slot → Slot) : (onSlotOf s c w x f).fwFail = s.fwFail := onWave_fwFail ..
@[simp] theorem onSlotOf_fwImages (s : State) (c w x : Nat) (f : Slot → Slot) : (onSlotOf s c w x f).fwImages = s.fwImages := onWave_fwImages ..
@[simp] theorem onSlotOf_fusedKey (s : State) (c w x : Nat) (f : Slot → Slot) : (onSlotOf s c w x f).fusedKey = s.fusedKey := onWave_fusedKey ..
@[simp] theorem onSlotOf_attest (s : State) (c w x : Nat) (f : Slot → Slot) : (onSlotOf s c w x f).attest = s.attest := onWave_attest ..
@[simp] theorem onSlotOf_errlog (s : State) (c w x : Nat) (f : Slot → Slot) : (onSlotOf s c w x f).errlog = s.errlog := onWave_errlog ..
@[simp] theorem onSlotOf_errIdx (s : State) (c w x : Nat) (f : Slot → Slot) : (onSlotOf s c w x f).errIdx = s.errIdx := onWave_errIdx ..
@[simp] theorem onSlotOf_errSeq (s : State) (c w x : Nat) (f : Slot → Slot) : (onSlotOf s c w x f).errSeq = s.errSeq := onWave_errSeq ..
@[simp] theorem onSlotOf_secBase (s : State) (c w x : Nat) (f : Slot → Slot) : (onSlotOf s c w x f).secBase = s.secBase := onWave_secBase ..
@[simp] theorem onSlotOf_secLimit (s : State) (c w x : Nat) (f : Slot → Slot) : (onSlotOf s c w x f).secLimit = s.secLimit := onWave_secLimit ..
@[simp] theorem onSlotOf_mbox (s : State) (c w x : Nat) (f : Slot → Slot) : (onSlotOf s c w x f).mbox = s.mbox := onWave_mbox ..
@[simp] theorem onSlotOf_mboxCtx (s : State) (c w x : Nat) (f : Slot → Slot) : (onSlotOf s c w x f).mboxCtx = s.mboxCtx := onWave_mboxCtx ..
@[simp] theorem onSlotOf_cxlCache (s : State) (c w x : Nat) (f : Slot → Slot) : (onSlotOf s c w x f).cxlCache = s.cxlCache := onWave_cxlCache ..
@[simp] theorem onSlotOf_cxlMem (s : State) (c w x : Nat) (f : Slot → Slot) : (onSlotOf s c w x f).cxlMem = s.cxlMem := onWave_cxlMem ..
@[simp] theorem onSlotOf_ports (s : State) (c w x : Nat) (f : Slot → Slot) : (onSlotOf s c w x f).ports = s.ports := onWave_ports ..
@[simp] theorem onSlotOf_devno (s : State) (c w x : Nat) (f : Slot → Slot) : (onSlotOf s c w x f).devno = s.devno := onWave_devno ..
@[simp] theorem onSlotOf_unacked (s : State) (c w x : Nat) (f : Slot → Slot) : (onSlotOf s c w x f).unacked = s.unacked := onWave_unacked ..
@[simp] theorem onSlotOf_dmem (s : State) (c w x : Nat) (f : Slot → Slot) : (onSlotOf s c w x f).dmem = s.dmem := onWave_dmem ..
@[simp] theorem onSlotOf_tags (s : State) (c w x : Nat) (f : Slot → Slot) : (onSlotOf s c w x f).tags = s.tags := onWave_tags ..
@[simp] theorem onSlotOf_poison (s : State) (c w x : Nat) (f : Slot → Slot) : (onSlotOf s c w x f).poison = s.poison := onWave_poison ..
@[simp] theorem onSlotOf_hmem (s : State) (c w x : Nat) (f : Slot → Slot) : (onSlotOf s c w x f).hmem = s.hmem := onWave_hmem ..
@[simp] theorem onSlotOf_atsFail (s : State) (c w x : Nat) (f : Slot → Slot) : (onSlotOf s c w x f).atsFail = s.atsFail := onWave_atsFail ..
@[simp] theorem onSlotOf_fmem (s : State) (c w x : Nat) (f : Slot → Slot) : (onSlotOf s c w x f).fmem = s.fmem := onWave_fmem ..
@[simp] theorem onSlotOf_wakeCtr (s : State) (c w x : Nat) (f : Slot → Slot) : (onSlotOf s c w x f).wakeCtr = s.wakeCtr := onWave_wakeCtr ..
@[simp] theorem onSlotOf_waking (s : State) (c w x : Nat) (f : Slot → Slot) : (onSlotOf s c w x f).waking = s.waking := onWave_waking ..
@[simp] theorem onSlotOf_cut (s : State) (c w x : Nat) (f : Slot → Slot) : (onSlotOf s c w x f).cut = s.cut := onWave_cut ..
@[simp] theorem onSlotOf_serial (s : State) (c w x : Nat) (f : Slot → Slot) : (onSlotOf s c w x f).serial = s.serial := onWave_serial ..
@[simp] theorem onSlotOf_accs (s : State) (c w x : Nat) (f : Slot → Slot) : (onSlotOf s c w x f).accs = s.accs := onWave_accs ..
@[simp] theorem onSlotOf_nextAcc (s : State) (c w x : Nat) (f : Slot → Slot) : (onSlotOf s c w x f).nextAcc = s.nextAcc := onWave_nextAcc ..
@[simp] theorem onSlotOf_tlb (s : State) (c w x : Nat) (f : Slot → Slot) : (onSlotOf s c w x f).tlb = s.tlb := onWave_tlb ..
@[simp] theorem onSlotOf_lowerReqs (s : State) (c w x : Nat) (f : Slot → Slot) : (onSlotOf s c w x f).lowerReqs = s.lowerReqs := onWave_lowerReqs ..
@[simp] theorem onSlotOf_modules (s : State) (c w x : Nat) (f : Slot → Slot) : (onSlotOf s c w x f).modules = s.modules := onWave_modules ..
@[simp] theorem onSlotOf_parts (s : State) (c w x : Nat) (f : Slot → Slot) : (onSlotOf s c w x f).parts = s.parts := onWave_parts ..
@[simp] theorem onSlotOf_standby (s : State) (c w x : Nat) (f : Slot → Slot) : (onSlotOf s c w x f).standby = s.standby := onWave_standby ..
@[simp] theorem onSlotOf_launches (s : State) (c w x : Nat) (f : Slot → Slot) : (onSlotOf s c w x f).launches = s.launches := onWave_launches ..
@[simp] theorem onSlotOf_nextLaunch (s : State) (c w x : Nat) (f : Slot → Slot) : (onSlotOf s c w x f).nextLaunch = s.nextLaunch := onWave_nextLaunch ..
@[simp] theorem onSlotOf_nextAge (s : State) (c w x : Nat) (f : Slot → Slot) : (onSlotOf s c w x f).nextAge = s.nextAge := onWave_nextAge ..
@[simp] theorem onSlotOf_nextUid (s : State) (c w x : Nat) (f : Slot → Slot) : (onSlotOf s c w x f).nextUid = s.nextUid := onWave_nextUid ..
@[simp] theorem onSlotOf_msix (s : State) (c w x : Nat) (f : Slot → Slot) : (onSlotOf s c w x f).msix = s.msix := onWave_msix ..
@[simp] theorem onSlotOf_hostData (s : State) (c w x : Nat) (f : Slot → Slot) : (onSlotOf s c w x f).hostData = s.hostData := onWave_hostData ..
@[simp] theorem onSlotOf_hostPoison (s : State) (c w x : Nat) (f : Slot → Slot) : (onSlotOf s c w x f).hostPoison = s.hostPoison := onWave_hostPoison ..
@[simp] theorem onSlotOf_hostWord (s : State) (c w x : Nat) (f : Slot → Slot) : (onSlotOf s c w x f).hostWord = s.hostWord := onWave_hostWord ..
@[simp] theorem onSlotOf_freeCtr (s : State) (c w x : Nat) (f : Slot → Slot) : (onSlotOf s c w x f).freeCtr = s.freeCtr := onWave_freeCtr ..
@[simp] theorem onSlotOf_homeWaits (s : State) (c w x : Nat) (f : Slot → Slot) : (onSlotOf s c w x f).homeWaits = s.homeWaits := onWave_homeWaits ..
@[simp] theorem onSlotOf_cur (s : State) (c w x : Nat) (f : Slot → Slot) : (onSlotOf s c w x f).cur = s.cur := onWave_cur ..
@[simp] theorem onSlotOf_agenda (s : State) (c w x : Nat) (f : Slot → Slot) : (onSlotOf s c w x f).agenda = s.agenda := onWave_agenda ..
@[simp] theorem onSlotOf_stacksFailed (s : State) (c w x : Nat) (f : Slot → Slot) : (onSlotOf s c w x f).stacksFailed = s.stacksFailed := onWave_stacksFailed ..
@[simp] theorem onSlotOf_owed (s : State) (c w x : Nat) (f : Slot → Slot) : (onSlotOf s c w x f).owed = s.owed := onWave_owed ..

@[simp] theorem onPart_stage (s : State) (p : Nat) (f : Part → Part) : (onPart s p f).stage = s.stage := rfl
@[simp] theorem onPart_dies (s : State) (p : Nat) (f : Part → Part) : (onPart s p f).dies = s.dies := rfl
@[simp] theorem onPart_fabricMhz (s : State) (p : Nat) (f : Part → Part) : (onPart s p f).fabricMhz = s.fabricMhz := rfl
@[simp] theorem onPart_fabricCycle (s : State) (p : Nat) (f : Part → Part) : (onPart s p f).fabricCycle = s.fabricCycle := rfl
@[simp] theorem onPart_now (s : State) (p : Nat) (f : Part → Part) : (onPart s p f).now = s.now := rfl
@[simp] theorem onPart_fabricDue (s : State) (p : Nat) (f : Part → Part) : (onPart s p f).fabricDue = s.fabricDue := rfl
@[simp] theorem onPart_cfgRef (s : State) (p : Nat) (f : Part → Part) : (onPart s p f).cfgRef = s.cfgRef := rfl
@[simp] theorem onPart_fwFail (s : State) (p : Nat) (f : Part → Part) : (onPart s p f).fwFail = s.fwFail := rfl
@[simp] theorem onPart_fwImages (s : State) (p : Nat) (f : Part → Part) : (onPart s p f).fwImages = s.fwImages := rfl
@[simp] theorem onPart_fusedKey (s : State) (p : Nat) (f : Part → Part) : (onPart s p f).fusedKey = s.fusedKey := rfl
@[simp] theorem onPart_attest (s : State) (p : Nat) (f : Part → Part) : (onPart s p f).attest = s.attest := rfl
@[simp] theorem onPart_errlog (s : State) (p : Nat) (f : Part → Part) : (onPart s p f).errlog = s.errlog := rfl
@[simp] theorem onPart_errIdx (s : State) (p : Nat) (f : Part → Part) : (onPart s p f).errIdx = s.errIdx := rfl
@[simp] theorem onPart_errSeq (s : State) (p : Nat) (f : Part → Part) : (onPart s p f).errSeq = s.errSeq := rfl
@[simp] theorem onPart_secBase (s : State) (p : Nat) (f : Part → Part) : (onPart s p f).secBase = s.secBase := rfl
@[simp] theorem onPart_secLimit (s : State) (p : Nat) (f : Part → Part) : (onPart s p f).secLimit = s.secLimit := rfl
@[simp] theorem onPart_mbox (s : State) (p : Nat) (f : Part → Part) : (onPart s p f).mbox = s.mbox := rfl
@[simp] theorem onPart_mboxCtx (s : State) (p : Nat) (f : Part → Part) : (onPart s p f).mboxCtx = s.mboxCtx := rfl
@[simp] theorem onPart_cxlCache (s : State) (p : Nat) (f : Part → Part) : (onPart s p f).cxlCache = s.cxlCache := rfl
@[simp] theorem onPart_cxlMem (s : State) (p : Nat) (f : Part → Part) : (onPart s p f).cxlMem = s.cxlMem := rfl
@[simp] theorem onPart_ports (s : State) (p : Nat) (f : Part → Part) : (onPart s p f).ports = s.ports := rfl
@[simp] theorem onPart_devno (s : State) (p : Nat) (f : Part → Part) : (onPart s p f).devno = s.devno := rfl
@[simp] theorem onPart_unacked (s : State) (p : Nat) (f : Part → Part) : (onPart s p f).unacked = s.unacked := rfl
@[simp] theorem onPart_dmem (s : State) (p : Nat) (f : Part → Part) : (onPart s p f).dmem = s.dmem := rfl
@[simp] theorem onPart_tags (s : State) (p : Nat) (f : Part → Part) : (onPart s p f).tags = s.tags := rfl
@[simp] theorem onPart_poison (s : State) (p : Nat) (f : Part → Part) : (onPart s p f).poison = s.poison := rfl
@[simp] theorem onPart_hmem (s : State) (p : Nat) (f : Part → Part) : (onPart s p f).hmem = s.hmem := rfl
@[simp] theorem onPart_atsFail (s : State) (p : Nat) (f : Part → Part) : (onPart s p f).atsFail = s.atsFail := rfl
@[simp] theorem onPart_fmem (s : State) (p : Nat) (f : Part → Part) : (onPart s p f).fmem = s.fmem := rfl
@[simp] theorem onPart_wakeCtr (s : State) (p : Nat) (f : Part → Part) : (onPart s p f).wakeCtr = s.wakeCtr := rfl
@[simp] theorem onPart_waking (s : State) (p : Nat) (f : Part → Part) : (onPart s p f).waking = s.waking := rfl
@[simp] theorem onPart_cut (s : State) (p : Nat) (f : Part → Part) : (onPart s p f).cut = s.cut := rfl
@[simp] theorem onPart_serial (s : State) (p : Nat) (f : Part → Part) : (onPart s p f).serial = s.serial := rfl
@[simp] theorem onPart_accs (s : State) (p : Nat) (f : Part → Part) : (onPart s p f).accs = s.accs := rfl
@[simp] theorem onPart_nextAcc (s : State) (p : Nat) (f : Part → Part) : (onPart s p f).nextAcc = s.nextAcc := rfl
@[simp] theorem onPart_tlb (s : State) (p : Nat) (f : Part → Part) : (onPart s p f).tlb = s.tlb := rfl
@[simp] theorem onPart_lowerReqs (s : State) (p : Nat) (f : Part → Part) : (onPart s p f).lowerReqs = s.lowerReqs := rfl
@[simp] theorem onPart_modules (s : State) (p : Nat) (f : Part → Part) : (onPart s p f).modules = s.modules := rfl
@[simp] theorem onPart_cores (s : State) (p : Nat) (f : Part → Part) : (onPart s p f).cores = s.cores := rfl
@[simp] theorem onPart_standby (s : State) (p : Nat) (f : Part → Part) : (onPart s p f).standby = s.standby := rfl
@[simp] theorem onPart_launches (s : State) (p : Nat) (f : Part → Part) : (onPart s p f).launches = s.launches := rfl
@[simp] theorem onPart_nextLaunch (s : State) (p : Nat) (f : Part → Part) : (onPart s p f).nextLaunch = s.nextLaunch := rfl
@[simp] theorem onPart_nextAge (s : State) (p : Nat) (f : Part → Part) : (onPart s p f).nextAge = s.nextAge := rfl
@[simp] theorem onPart_nextUid (s : State) (p : Nat) (f : Part → Part) : (onPart s p f).nextUid = s.nextUid := rfl
@[simp] theorem onPart_msix (s : State) (p : Nat) (f : Part → Part) : (onPart s p f).msix = s.msix := rfl
@[simp] theorem onPart_hostData (s : State) (p : Nat) (f : Part → Part) : (onPart s p f).hostData = s.hostData := rfl
@[simp] theorem onPart_hostPoison (s : State) (p : Nat) (f : Part → Part) : (onPart s p f).hostPoison = s.hostPoison := rfl
@[simp] theorem onPart_hostWord (s : State) (p : Nat) (f : Part → Part) : (onPart s p f).hostWord = s.hostWord := rfl
@[simp] theorem onPart_freeCtr (s : State) (p : Nat) (f : Part → Part) : (onPart s p f).freeCtr = s.freeCtr := rfl
@[simp] theorem onPart_homeWaits (s : State) (p : Nat) (f : Part → Part) : (onPart s p f).homeWaits = s.homeWaits := rfl
@[simp] theorem onPart_cur (s : State) (p : Nat) (f : Part → Part) : (onPart s p f).cur = s.cur := rfl
@[simp] theorem onPart_agenda (s : State) (p : Nat) (f : Part → Part) : (onPart s p f).agenda = s.agenda := rfl
@[simp] theorem onPart_stacksFailed (s : State) (p : Nat) (f : Part → Part) : (onPart s p f).stacksFailed = s.stacksFailed := rfl
@[simp] theorem onPart_owed (s : State) (p : Nat) (f : Part → Part) : (onPart s p f).owed = s.owed := rfl

@[simp] theorem onDie_stage (s : State) (d : Nat) (f : Die → Die) : (onDie s d f).stage = s.stage := rfl
@[simp] theorem onDie_fabricMhz (s : State) (d : Nat) (f : Die → Die) : (onDie s d f).fabricMhz = s.fabricMhz := rfl
@[simp] theorem onDie_fabricCycle (s : State) (d : Nat) (f : Die → Die) : (onDie s d f).fabricCycle = s.fabricCycle := rfl
@[simp] theorem onDie_now (s : State) (d : Nat) (f : Die → Die) : (onDie s d f).now = s.now := rfl
@[simp] theorem onDie_fabricDue (s : State) (d : Nat) (f : Die → Die) : (onDie s d f).fabricDue = s.fabricDue := rfl
@[simp] theorem onDie_cfgRef (s : State) (d : Nat) (f : Die → Die) : (onDie s d f).cfgRef = s.cfgRef := rfl
@[simp] theorem onDie_fwFail (s : State) (d : Nat) (f : Die → Die) : (onDie s d f).fwFail = s.fwFail := rfl
@[simp] theorem onDie_fwImages (s : State) (d : Nat) (f : Die → Die) : (onDie s d f).fwImages = s.fwImages := rfl
@[simp] theorem onDie_fusedKey (s : State) (d : Nat) (f : Die → Die) : (onDie s d f).fusedKey = s.fusedKey := rfl
@[simp] theorem onDie_attest (s : State) (d : Nat) (f : Die → Die) : (onDie s d f).attest = s.attest := rfl
@[simp] theorem onDie_errlog (s : State) (d : Nat) (f : Die → Die) : (onDie s d f).errlog = s.errlog := rfl
@[simp] theorem onDie_errIdx (s : State) (d : Nat) (f : Die → Die) : (onDie s d f).errIdx = s.errIdx := rfl
@[simp] theorem onDie_errSeq (s : State) (d : Nat) (f : Die → Die) : (onDie s d f).errSeq = s.errSeq := rfl
@[simp] theorem onDie_secBase (s : State) (d : Nat) (f : Die → Die) : (onDie s d f).secBase = s.secBase := rfl
@[simp] theorem onDie_secLimit (s : State) (d : Nat) (f : Die → Die) : (onDie s d f).secLimit = s.secLimit := rfl
@[simp] theorem onDie_mbox (s : State) (d : Nat) (f : Die → Die) : (onDie s d f).mbox = s.mbox := rfl
@[simp] theorem onDie_mboxCtx (s : State) (d : Nat) (f : Die → Die) : (onDie s d f).mboxCtx = s.mboxCtx := rfl
@[simp] theorem onDie_cxlCache (s : State) (d : Nat) (f : Die → Die) : (onDie s d f).cxlCache = s.cxlCache := rfl
@[simp] theorem onDie_cxlMem (s : State) (d : Nat) (f : Die → Die) : (onDie s d f).cxlMem = s.cxlMem := rfl
@[simp] theorem onDie_ports (s : State) (d : Nat) (f : Die → Die) : (onDie s d f).ports = s.ports := rfl
@[simp] theorem onDie_devno (s : State) (d : Nat) (f : Die → Die) : (onDie s d f).devno = s.devno := rfl
@[simp] theorem onDie_unacked (s : State) (d : Nat) (f : Die → Die) : (onDie s d f).unacked = s.unacked := rfl
@[simp] theorem onDie_dmem (s : State) (d : Nat) (f : Die → Die) : (onDie s d f).dmem = s.dmem := rfl
@[simp] theorem onDie_tags (s : State) (d : Nat) (f : Die → Die) : (onDie s d f).tags = s.tags := rfl
@[simp] theorem onDie_poison (s : State) (d : Nat) (f : Die → Die) : (onDie s d f).poison = s.poison := rfl
@[simp] theorem onDie_hmem (s : State) (d : Nat) (f : Die → Die) : (onDie s d f).hmem = s.hmem := rfl
@[simp] theorem onDie_atsFail (s : State) (d : Nat) (f : Die → Die) : (onDie s d f).atsFail = s.atsFail := rfl
@[simp] theorem onDie_fmem (s : State) (d : Nat) (f : Die → Die) : (onDie s d f).fmem = s.fmem := rfl
@[simp] theorem onDie_wakeCtr (s : State) (d : Nat) (f : Die → Die) : (onDie s d f).wakeCtr = s.wakeCtr := rfl
@[simp] theorem onDie_waking (s : State) (d : Nat) (f : Die → Die) : (onDie s d f).waking = s.waking := rfl
@[simp] theorem onDie_cut (s : State) (d : Nat) (f : Die → Die) : (onDie s d f).cut = s.cut := rfl
@[simp] theorem onDie_serial (s : State) (d : Nat) (f : Die → Die) : (onDie s d f).serial = s.serial := rfl
@[simp] theorem onDie_accs (s : State) (d : Nat) (f : Die → Die) : (onDie s d f).accs = s.accs := rfl
@[simp] theorem onDie_nextAcc (s : State) (d : Nat) (f : Die → Die) : (onDie s d f).nextAcc = s.nextAcc := rfl
@[simp] theorem onDie_tlb (s : State) (d : Nat) (f : Die → Die) : (onDie s d f).tlb = s.tlb := rfl
@[simp] theorem onDie_lowerReqs (s : State) (d : Nat) (f : Die → Die) : (onDie s d f).lowerReqs = s.lowerReqs := rfl
@[simp] theorem onDie_modules (s : State) (d : Nat) (f : Die → Die) : (onDie s d f).modules = s.modules := rfl
@[simp] theorem onDie_parts (s : State) (d : Nat) (f : Die → Die) : (onDie s d f).parts = s.parts := rfl
@[simp] theorem onDie_cores (s : State) (d : Nat) (f : Die → Die) : (onDie s d f).cores = s.cores := rfl
@[simp] theorem onDie_standby (s : State) (d : Nat) (f : Die → Die) : (onDie s d f).standby = s.standby := rfl
@[simp] theorem onDie_launches (s : State) (d : Nat) (f : Die → Die) : (onDie s d f).launches = s.launches := rfl
@[simp] theorem onDie_nextLaunch (s : State) (d : Nat) (f : Die → Die) : (onDie s d f).nextLaunch = s.nextLaunch := rfl
@[simp] theorem onDie_nextAge (s : State) (d : Nat) (f : Die → Die) : (onDie s d f).nextAge = s.nextAge := rfl
@[simp] theorem onDie_nextUid (s : State) (d : Nat) (f : Die → Die) : (onDie s d f).nextUid = s.nextUid := rfl
@[simp] theorem onDie_msix (s : State) (d : Nat) (f : Die → Die) : (onDie s d f).msix = s.msix := rfl
@[simp] theorem onDie_hostData (s : State) (d : Nat) (f : Die → Die) : (onDie s d f).hostData = s.hostData := rfl
@[simp] theorem onDie_hostPoison (s : State) (d : Nat) (f : Die → Die) : (onDie s d f).hostPoison = s.hostPoison := rfl
@[simp] theorem onDie_hostWord (s : State) (d : Nat) (f : Die → Die) : (onDie s d f).hostWord = s.hostWord := rfl
@[simp] theorem onDie_freeCtr (s : State) (d : Nat) (f : Die → Die) : (onDie s d f).freeCtr = s.freeCtr := rfl
@[simp] theorem onDie_homeWaits (s : State) (d : Nat) (f : Die → Die) : (onDie s d f).homeWaits = s.homeWaits := rfl
@[simp] theorem onDie_cur (s : State) (d : Nat) (f : Die → Die) : (onDie s d f).cur = s.cur := rfl
@[simp] theorem onDie_agenda (s : State) (d : Nat) (f : Die → Die) : (onDie s d f).agenda = s.agenda := rfl
@[simp] theorem onDie_stacksFailed (s : State) (d : Nat) (f : Die → Die) : (onDie s d f).stacksFailed = s.stacksFailed := rfl
@[simp] theorem onDie_owed (s : State) (d : Nat) (f : Die → Die) : (onDie s d f).owed = s.owed := rfl

@[simp] theorem devPut_stage (s : State) (pa : Nat) (bs : List Byte) : (devPut s pa bs).stage = s.stage := rfl
@[simp] theorem devPut_dies (s : State) (pa : Nat) (bs : List Byte) : (devPut s pa bs).dies = s.dies := rfl
@[simp] theorem devPut_fabricMhz (s : State) (pa : Nat) (bs : List Byte) : (devPut s pa bs).fabricMhz = s.fabricMhz := rfl
@[simp] theorem devPut_fabricCycle (s : State) (pa : Nat) (bs : List Byte) : (devPut s pa bs).fabricCycle = s.fabricCycle := rfl
@[simp] theorem devPut_now (s : State) (pa : Nat) (bs : List Byte) : (devPut s pa bs).now = s.now := rfl
@[simp] theorem devPut_fabricDue (s : State) (pa : Nat) (bs : List Byte) : (devPut s pa bs).fabricDue = s.fabricDue := rfl
@[simp] theorem devPut_cfgRef (s : State) (pa : Nat) (bs : List Byte) : (devPut s pa bs).cfgRef = s.cfgRef := rfl
@[simp] theorem devPut_fwFail (s : State) (pa : Nat) (bs : List Byte) : (devPut s pa bs).fwFail = s.fwFail := rfl
@[simp] theorem devPut_fwImages (s : State) (pa : Nat) (bs : List Byte) : (devPut s pa bs).fwImages = s.fwImages := rfl
@[simp] theorem devPut_fusedKey (s : State) (pa : Nat) (bs : List Byte) : (devPut s pa bs).fusedKey = s.fusedKey := rfl
@[simp] theorem devPut_attest (s : State) (pa : Nat) (bs : List Byte) : (devPut s pa bs).attest = s.attest := rfl
@[simp] theorem devPut_errlog (s : State) (pa : Nat) (bs : List Byte) : (devPut s pa bs).errlog = s.errlog := rfl
@[simp] theorem devPut_errIdx (s : State) (pa : Nat) (bs : List Byte) : (devPut s pa bs).errIdx = s.errIdx := rfl
@[simp] theorem devPut_errSeq (s : State) (pa : Nat) (bs : List Byte) : (devPut s pa bs).errSeq = s.errSeq := rfl
@[simp] theorem devPut_secBase (s : State) (pa : Nat) (bs : List Byte) : (devPut s pa bs).secBase = s.secBase := rfl
@[simp] theorem devPut_secLimit (s : State) (pa : Nat) (bs : List Byte) : (devPut s pa bs).secLimit = s.secLimit := rfl
@[simp] theorem devPut_mbox (s : State) (pa : Nat) (bs : List Byte) : (devPut s pa bs).mbox = s.mbox := rfl
@[simp] theorem devPut_mboxCtx (s : State) (pa : Nat) (bs : List Byte) : (devPut s pa bs).mboxCtx = s.mboxCtx := rfl
@[simp] theorem devPut_cxlCache (s : State) (pa : Nat) (bs : List Byte) : (devPut s pa bs).cxlCache = s.cxlCache := rfl
@[simp] theorem devPut_cxlMem (s : State) (pa : Nat) (bs : List Byte) : (devPut s pa bs).cxlMem = s.cxlMem := rfl
@[simp] theorem devPut_ports (s : State) (pa : Nat) (bs : List Byte) : (devPut s pa bs).ports = s.ports := rfl
@[simp] theorem devPut_devno (s : State) (pa : Nat) (bs : List Byte) : (devPut s pa bs).devno = s.devno := rfl
@[simp] theorem devPut_unacked (s : State) (pa : Nat) (bs : List Byte) : (devPut s pa bs).unacked = s.unacked := rfl
@[simp] theorem devPut_tags (s : State) (pa : Nat) (bs : List Byte) : (devPut s pa bs).tags = s.tags := rfl
@[simp] theorem devPut_poison (s : State) (pa : Nat) (bs : List Byte) : (devPut s pa bs).poison = s.poison := rfl
@[simp] theorem devPut_hmem (s : State) (pa : Nat) (bs : List Byte) : (devPut s pa bs).hmem = s.hmem := rfl
@[simp] theorem devPut_atsFail (s : State) (pa : Nat) (bs : List Byte) : (devPut s pa bs).atsFail = s.atsFail := rfl
@[simp] theorem devPut_fmem (s : State) (pa : Nat) (bs : List Byte) : (devPut s pa bs).fmem = s.fmem := rfl
@[simp] theorem devPut_wakeCtr (s : State) (pa : Nat) (bs : List Byte) : (devPut s pa bs).wakeCtr = s.wakeCtr := rfl
@[simp] theorem devPut_waking (s : State) (pa : Nat) (bs : List Byte) : (devPut s pa bs).waking = s.waking := rfl
@[simp] theorem devPut_cut (s : State) (pa : Nat) (bs : List Byte) : (devPut s pa bs).cut = s.cut := rfl
@[simp] theorem devPut_serial (s : State) (pa : Nat) (bs : List Byte) : (devPut s pa bs).serial = s.serial := rfl
@[simp] theorem devPut_accs (s : State) (pa : Nat) (bs : List Byte) : (devPut s pa bs).accs = s.accs := rfl
@[simp] theorem devPut_nextAcc (s : State) (pa : Nat) (bs : List Byte) : (devPut s pa bs).nextAcc = s.nextAcc := rfl
@[simp] theorem devPut_tlb (s : State) (pa : Nat) (bs : List Byte) : (devPut s pa bs).tlb = s.tlb := rfl
@[simp] theorem devPut_lowerReqs (s : State) (pa : Nat) (bs : List Byte) : (devPut s pa bs).lowerReqs = s.lowerReqs := rfl
@[simp] theorem devPut_modules (s : State) (pa : Nat) (bs : List Byte) : (devPut s pa bs).modules = s.modules := rfl
@[simp] theorem devPut_parts (s : State) (pa : Nat) (bs : List Byte) : (devPut s pa bs).parts = s.parts := rfl
@[simp] theorem devPut_cores (s : State) (pa : Nat) (bs : List Byte) : (devPut s pa bs).cores = s.cores := rfl
@[simp] theorem devPut_standby (s : State) (pa : Nat) (bs : List Byte) : (devPut s pa bs).standby = s.standby := rfl
@[simp] theorem devPut_launches (s : State) (pa : Nat) (bs : List Byte) : (devPut s pa bs).launches = s.launches := rfl
@[simp] theorem devPut_nextLaunch (s : State) (pa : Nat) (bs : List Byte) : (devPut s pa bs).nextLaunch = s.nextLaunch := rfl
@[simp] theorem devPut_nextAge (s : State) (pa : Nat) (bs : List Byte) : (devPut s pa bs).nextAge = s.nextAge := rfl
@[simp] theorem devPut_nextUid (s : State) (pa : Nat) (bs : List Byte) : (devPut s pa bs).nextUid = s.nextUid := rfl
@[simp] theorem devPut_msix (s : State) (pa : Nat) (bs : List Byte) : (devPut s pa bs).msix = s.msix := rfl
@[simp] theorem devPut_hostData (s : State) (pa : Nat) (bs : List Byte) : (devPut s pa bs).hostData = s.hostData := rfl
@[simp] theorem devPut_hostPoison (s : State) (pa : Nat) (bs : List Byte) : (devPut s pa bs).hostPoison = s.hostPoison := rfl
@[simp] theorem devPut_hostWord (s : State) (pa : Nat) (bs : List Byte) : (devPut s pa bs).hostWord = s.hostWord := rfl
@[simp] theorem devPut_freeCtr (s : State) (pa : Nat) (bs : List Byte) : (devPut s pa bs).freeCtr = s.freeCtr := rfl
@[simp] theorem devPut_homeWaits (s : State) (pa : Nat) (bs : List Byte) : (devPut s pa bs).homeWaits = s.homeWaits := rfl
@[simp] theorem devPut_cur (s : State) (pa : Nat) (bs : List Byte) : (devPut s pa bs).cur = s.cur := rfl
@[simp] theorem devPut_agenda (s : State) (pa : Nat) (bs : List Byte) : (devPut s pa bs).agenda = s.agenda := rfl
@[simp] theorem devPut_stacksFailed (s : State) (pa : Nat) (bs : List Byte) : (devPut s pa bs).stacksFailed = s.stacksFailed := rfl
@[simp] theorem devPut_owed (s : State) (pa : Nat) (bs : List Byte) : (devPut s pa bs).owed = s.owed := rfl

@[simp] theorem logPut_stage (s : State) (e : Nat) (q : BitVec 8) (p a i : Nat) (va : Word) (st n : Nat) : (logPut s e q p a i va st n).stage = s.stage := rfl
@[simp] theorem logPut_dies (s : State) (e : Nat) (q : BitVec 8) (p a i : Nat) (va : Word) (st n : Nat) : (logPut s e q p a i va st n).dies = s.dies := rfl
@[simp] theorem logPut_fabricMhz (s : State) (e : Nat) (q : BitVec 8) (p a i : Nat) (va : Word) (st n : Nat) : (logPut s e q p a i va st n).fabricMhz = s.fabricMhz := rfl
@[simp] theorem logPut_fabricCycle (s : State) (e : Nat) (q : BitVec 8) (p a i : Nat) (va : Word) (st n : Nat) : (logPut s e q p a i va st n).fabricCycle = s.fabricCycle := rfl
@[simp] theorem logPut_now (s : State) (e : Nat) (q : BitVec 8) (p a i : Nat) (va : Word) (st n : Nat) : (logPut s e q p a i va st n).now = s.now := rfl
@[simp] theorem logPut_fabricDue (s : State) (e : Nat) (q : BitVec 8) (p a i : Nat) (va : Word) (st n : Nat) : (logPut s e q p a i va st n).fabricDue = s.fabricDue := rfl
@[simp] theorem logPut_cfgRef (s : State) (e : Nat) (q : BitVec 8) (p a i : Nat) (va : Word) (st n : Nat) : (logPut s e q p a i va st n).cfgRef = s.cfgRef := rfl
@[simp] theorem logPut_fwFail (s : State) (e : Nat) (q : BitVec 8) (p a i : Nat) (va : Word) (st n : Nat) : (logPut s e q p a i va st n).fwFail = s.fwFail := rfl
@[simp] theorem logPut_fwImages (s : State) (e : Nat) (q : BitVec 8) (p a i : Nat) (va : Word) (st n : Nat) : (logPut s e q p a i va st n).fwImages = s.fwImages := rfl
@[simp] theorem logPut_fusedKey (s : State) (e : Nat) (q : BitVec 8) (p a i : Nat) (va : Word) (st n : Nat) : (logPut s e q p a i va st n).fusedKey = s.fusedKey := rfl
@[simp] theorem logPut_attest (s : State) (e : Nat) (q : BitVec 8) (p a i : Nat) (va : Word) (st n : Nat) : (logPut s e q p a i va st n).attest = s.attest := rfl
@[simp] theorem logPut_errlog (s : State) (e : Nat) (q : BitVec 8) (p a i : Nat) (va : Word) (st n : Nat) : (logPut s e q p a i va st n).errlog = s.errlog := rfl
@[simp] theorem logPut_secBase (s : State) (e : Nat) (q : BitVec 8) (p a i : Nat) (va : Word) (st n : Nat) : (logPut s e q p a i va st n).secBase = s.secBase := rfl
@[simp] theorem logPut_secLimit (s : State) (e : Nat) (q : BitVec 8) (p a i : Nat) (va : Word) (st n : Nat) : (logPut s e q p a i va st n).secLimit = s.secLimit := rfl
@[simp] theorem logPut_mbox (s : State) (e : Nat) (q : BitVec 8) (p a i : Nat) (va : Word) (st n : Nat) : (logPut s e q p a i va st n).mbox = s.mbox := rfl
@[simp] theorem logPut_mboxCtx (s : State) (e : Nat) (q : BitVec 8) (p a i : Nat) (va : Word) (st n : Nat) : (logPut s e q p a i va st n).mboxCtx = s.mboxCtx := rfl
@[simp] theorem logPut_cxlCache (s : State) (e : Nat) (q : BitVec 8) (p a i : Nat) (va : Word) (st n : Nat) : (logPut s e q p a i va st n).cxlCache = s.cxlCache := rfl
@[simp] theorem logPut_cxlMem (s : State) (e : Nat) (q : BitVec 8) (p a i : Nat) (va : Word) (st n : Nat) : (logPut s e q p a i va st n).cxlMem = s.cxlMem := rfl
@[simp] theorem logPut_ports (s : State) (e : Nat) (q : BitVec 8) (p a i : Nat) (va : Word) (st n : Nat) : (logPut s e q p a i va st n).ports = s.ports := rfl
@[simp] theorem logPut_devno (s : State) (e : Nat) (q : BitVec 8) (p a i : Nat) (va : Word) (st n : Nat) : (logPut s e q p a i va st n).devno = s.devno := rfl
@[simp] theorem logPut_unacked (s : State) (e : Nat) (q : BitVec 8) (p a i : Nat) (va : Word) (st n : Nat) : (logPut s e q p a i va st n).unacked = s.unacked := rfl
@[simp] theorem logPut_tags (s : State) (e : Nat) (q : BitVec 8) (p a i : Nat) (va : Word) (st n : Nat) : (logPut s e q p a i va st n).tags = s.tags := rfl
@[simp] theorem logPut_poison (s : State) (e : Nat) (q : BitVec 8) (p a i : Nat) (va : Word) (st n : Nat) : (logPut s e q p a i va st n).poison = s.poison := rfl
@[simp] theorem logPut_hmem (s : State) (e : Nat) (q : BitVec 8) (p a i : Nat) (va : Word) (st n : Nat) : (logPut s e q p a i va st n).hmem = s.hmem := rfl
@[simp] theorem logPut_atsFail (s : State) (e : Nat) (q : BitVec 8) (p a i : Nat) (va : Word) (st n : Nat) : (logPut s e q p a i va st n).atsFail = s.atsFail := rfl
@[simp] theorem logPut_fmem (s : State) (e : Nat) (q : BitVec 8) (p a i : Nat) (va : Word) (st n : Nat) : (logPut s e q p a i va st n).fmem = s.fmem := rfl
@[simp] theorem logPut_wakeCtr (s : State) (e : Nat) (q : BitVec 8) (p a i : Nat) (va : Word) (st n : Nat) : (logPut s e q p a i va st n).wakeCtr = s.wakeCtr := rfl
@[simp] theorem logPut_waking (s : State) (e : Nat) (q : BitVec 8) (p a i : Nat) (va : Word) (st n : Nat) : (logPut s e q p a i va st n).waking = s.waking := rfl
@[simp] theorem logPut_cut (s : State) (e : Nat) (q : BitVec 8) (p a i : Nat) (va : Word) (st n : Nat) : (logPut s e q p a i va st n).cut = s.cut := rfl
@[simp] theorem logPut_serial (s : State) (e : Nat) (q : BitVec 8) (p a i : Nat) (va : Word) (st n : Nat) : (logPut s e q p a i va st n).serial = s.serial := rfl
@[simp] theorem logPut_accs (s : State) (e : Nat) (q : BitVec 8) (p a i : Nat) (va : Word) (st n : Nat) : (logPut s e q p a i va st n).accs = s.accs := rfl
@[simp] theorem logPut_nextAcc (s : State) (e : Nat) (q : BitVec 8) (p a i : Nat) (va : Word) (st n : Nat) : (logPut s e q p a i va st n).nextAcc = s.nextAcc := rfl
@[simp] theorem logPut_tlb (s : State) (e : Nat) (q : BitVec 8) (p a i : Nat) (va : Word) (st n : Nat) : (logPut s e q p a i va st n).tlb = s.tlb := rfl
@[simp] theorem logPut_lowerReqs (s : State) (e : Nat) (q : BitVec 8) (p a i : Nat) (va : Word) (st n : Nat) : (logPut s e q p a i va st n).lowerReqs = s.lowerReqs := rfl
@[simp] theorem logPut_modules (s : State) (e : Nat) (q : BitVec 8) (p a i : Nat) (va : Word) (st n : Nat) : (logPut s e q p a i va st n).modules = s.modules := rfl
@[simp] theorem logPut_parts (s : State) (e : Nat) (q : BitVec 8) (p a i : Nat) (va : Word) (st n : Nat) : (logPut s e q p a i va st n).parts = s.parts := rfl
@[simp] theorem logPut_cores (s : State) (e : Nat) (q : BitVec 8) (p a i : Nat) (va : Word) (st n : Nat) : (logPut s e q p a i va st n).cores = s.cores := rfl
@[simp] theorem logPut_standby (s : State) (e : Nat) (q : BitVec 8) (p a i : Nat) (va : Word) (st n : Nat) : (logPut s e q p a i va st n).standby = s.standby := rfl
@[simp] theorem logPut_launches (s : State) (e : Nat) (q : BitVec 8) (p a i : Nat) (va : Word) (st n : Nat) : (logPut s e q p a i va st n).launches = s.launches := rfl
@[simp] theorem logPut_nextLaunch (s : State) (e : Nat) (q : BitVec 8) (p a i : Nat) (va : Word) (st n : Nat) : (logPut s e q p a i va st n).nextLaunch = s.nextLaunch := rfl
@[simp] theorem logPut_nextAge (s : State) (e : Nat) (q : BitVec 8) (p a i : Nat) (va : Word) (st n : Nat) : (logPut s e q p a i va st n).nextAge = s.nextAge := rfl
@[simp] theorem logPut_nextUid (s : State) (e : Nat) (q : BitVec 8) (p a i : Nat) (va : Word) (st n : Nat) : (logPut s e q p a i va st n).nextUid = s.nextUid := rfl
@[simp] theorem logPut_msix (s : State) (e : Nat) (q : BitVec 8) (p a i : Nat) (va : Word) (st n : Nat) : (logPut s e q p a i va st n).msix = s.msix := rfl
@[simp] theorem logPut_hostData (s : State) (e : Nat) (q : BitVec 8) (p a i : Nat) (va : Word) (st n : Nat) : (logPut s e q p a i va st n).hostData = s.hostData := rfl
@[simp] theorem logPut_hostPoison (s : State) (e : Nat) (q : BitVec 8) (p a i : Nat) (va : Word) (st n : Nat) : (logPut s e q p a i va st n).hostPoison = s.hostPoison := rfl
@[simp] theorem logPut_hostWord (s : State) (e : Nat) (q : BitVec 8) (p a i : Nat) (va : Word) (st n : Nat) : (logPut s e q p a i va st n).hostWord = s.hostWord := rfl
@[simp] theorem logPut_freeCtr (s : State) (e : Nat) (q : BitVec 8) (p a i : Nat) (va : Word) (st n : Nat) : (logPut s e q p a i va st n).freeCtr = s.freeCtr := rfl
@[simp] theorem logPut_homeWaits (s : State) (e : Nat) (q : BitVec 8) (p a i : Nat) (va : Word) (st n : Nat) : (logPut s e q p a i va st n).homeWaits = s.homeWaits := rfl
@[simp] theorem logPut_cur (s : State) (e : Nat) (q : BitVec 8) (p a i : Nat) (va : Word) (st n : Nat) : (logPut s e q p a i va st n).cur = s.cur := rfl
@[simp] theorem logPut_agenda (s : State) (e : Nat) (q : BitVec 8) (p a i : Nat) (va : Word) (st n : Nat) : (logPut s e q p a i va st n).agenda = s.agenda := rfl
@[simp] theorem logPut_stacksFailed (s : State) (e : Nat) (q : BitVec 8) (p a i : Nat) (va : Word) (st n : Nat) : (logPut s e q p a i va st n).stacksFailed = s.stacksFailed := rfl
@[simp] theorem logPut_owed (s : State) (e : Nat) (q : BitVec 8) (p a i : Nat) (va : Word) (st n : Nat) : (logPut s e q p a i va st n).owed = s.owed := rfl

/-! ## Updates of a core and of a wave -/

@[simp] theorem putWave_tiles (k : Core) (w : Nat) (v : Option Wave) : (putWave k w v).tiles = k.tiles := rfl
@[simp] theorem putWave_dqbase (k : Core) (w : Nat) (v : Option Wave) : (putWave k w v).dqbase = k.dqbase := rfl
@[simp] theorem putWave_dqlim (k : Core) (w : Nat) (v : Option Wave) : (putWave k w v).dqlim = k.dqlim := rfl
@[simp] theorem putWave_world (k : Core) (w : Nat) (v : Option Wave) : (putWave k w v).world = k.world := rfl
@[simp] theorem putWave_cycle (k : Core) (w : Nat) (v : Option Wave) : (putWave k w v).cycle = k.cycle := rfl
@[simp] theorem putWave_regs (k : Core) (w : Nat) (v : Option Wave) : (putWave k w v).regs = k.regs := rfl
@[simp] theorem putWave_tileMem (k : Core) (w : Nat) (v : Option Wave) : (putWave k w v).tileMem = k.tileMem := rfl
@[simp] theorem putWave_l1 (k : Core) (w : Nat) (v : Option Wave) : (putWave k w v).l1 = k.l1 := rfl
@[simp] theorem putWave_groups (k : Core) (w : Nat) (v : Option Wave) : (putWave k w v).groups = k.groups := rfl
@[simp] theorem putWave_dqHead (k : Core) (w : Nat) (v : Option Wave) : (putWave k w v).dqHead = k.dqHead := rfl
@[simp] theorem putWave_dqCount (k : Core) (w : Nat) (v : Option Wave) : (putWave k w v).dqCount = k.dqCount := rfl
@[simp] theorem putWave_bins (k : Core) (w : Nat) (v : Option Wave) : (putWave k w v).bins = k.bins := rfl
@[simp] theorem putWave_stage (k : Core) (w : Nat) (v : Option Wave) : (putWave k w v).stage = k.stage := rfl
@[simp] theorem putWave_cmds (k : Core) (w : Nat) (v : Option Wave) : (putWave k w v).cmds = k.cmds := rfl
@[simp] theorem putWave_tagBits (k : Core) (w : Nat) (v : Option Wave) : (putWave k w v).tagBits = k.tagBits := rfl
@[simp] theorem putWave_tagCnt (k : Core) (w : Nat) (v : Option Wave) : (putWave k w v).tagCnt = k.tagCnt := rfl
@[simp] theorem putWave_streams (k : Core) (w : Nat) (v : Option Wave) : (putWave k w v).streams = k.streams := rfl
@[simp] theorem putWave_kcCplq (k : Core) (w : Nat) (v : Option Wave) : (putWave k w v).kcCplq = k.kcCplq := rfl
@[simp] theorem putWave_kcBintmr (k : Core) (w : Nat) (v : Option Wave) : (putWave k w v).kcBintmr = k.kcBintmr := rfl
@[simp] theorem putWave_kcDbgring (k : Core) (w : Nat) (v : Option Wave) : (putWave k w v).kcDbgring = k.kcDbgring := rfl
@[simp] theorem putWave_kcRlim (k : Core) (w : Nat) (v : Option Wave) : (putWave k w v).kcRlim = k.kcRlim := rfl
@[simp] theorem putWave_rlSf (k : Core) (w : Nat) (v : Option Wave) : (putWave k w v).rlSf = k.rlSf := rfl
@[simp] theorem putWave_rlMac (k : Core) (w : Nat) (v : Option Wave) : (putWave k w v).rlMac = k.rlMac := rfl
@[simp] theorem putWave_dbgPcA (k : Core) (w : Nat) (v : Option Wave) : (putWave k w v).dbgPcA = k.dbgPcA := rfl
@[simp] theorem putWave_dbgPcB (k : Core) (w : Nat) (v : Option Wave) : (putWave k w v).dbgPcB = k.dbgPcB := rfl
@[simp] theorem putWave_dbgDaA (k : Core) (w : Nat) (v : Option Wave) : (putWave k w v).dbgDaA = k.dbgDaA := rfl
@[simp] theorem putWave_dbgDaB (k : Core) (w : Nat) (v : Option Wave) : (putWave k w v).dbgDaB = k.dbgDaB := rfl
@[simp] theorem putWave_last (k : Core) (w : Nat) (v : Option Wave) : (putWave k w v).last = k.last := rfl
@[simp] theorem putWave_tenders (k : Core) (w : Nat) (v : Option Wave) : (putWave k w v).tenders = k.tenders := rfl
@[simp] theorem putWave_active (k : Core) (w : Nat) (v : Option Wave) : (putWave k w v).active = k.active := rfl
@[simp] theorem putWave_region (k : Core) (w : Nat) (v : Option Wave) : (putWave k w v).region = k.region := rfl
@[simp] theorem putWave_blocks (k : Core) (w : Nat) (v : Option Wave) : (putWave k w v).blocks = k.blocks := rfl
@[simp] theorem putWave_handlers (k : Core) (w : Nat) (v : Option Wave) : (putWave k w v).handlers = k.handlers := rfl
@[simp] theorem putWave_reserved (k : Core) (w : Nat) (v : Option Wave) : (putWave k w v).reserved = k.reserved := rfl
@[simp] theorem putWave_due (k : Core) (w : Nat) (v : Option Wave) : (putWave k w v).due = k.due := rfl
@[simp] theorem putWave_tenderAt (k : Core) (w : Nat) (v : Option Wave) : (putWave k w v).tenderAt = k.tenderAt := rfl
@[simp] theorem putWave_rlWin (k : Core) (w : Nat) (v : Option Wave) : (putWave k w v).rlWin = k.rlWin := rfl
@[simp] theorem putWave_tilePoison (k : Core) (w : Nat) (v : Option Wave) : (putWave k w v).tilePoison = k.tilePoison := rfl
@[simp] theorem putWave_regPoison (k : Core) (w : Nat) (v : Option Wave) : (putWave k w v).regPoison = k.regPoison := rfl

@[simp] theorem putSlot_uid (v : Wave) (x : Nat) (t : Slot) : (putSlot v x t).uid = v.uid := by unfold putSlot; split <;> rfl
@[simp] theorem putSlot_kind (v : Wave) (x : Nat) (t : Slot) : (putSlot v x t).kind = v.kind := by unfold putSlot; split <;> rfl
@[simp] theorem putSlot_part (v : Wave) (x : Nat) (t : Slot) : (putSlot v x t).part = v.part := by unfold putSlot; split <;> rfl
@[simp] theorem putSlot_block (v : Wave) (x : Nat) (t : Slot) : (putSlot v x t).block = v.block := by unfold putSlot; split <;> rfl
@[simp] theorem putSlot_launch (v : Wave) (x : Nat) (t : Slot) : (putSlot v x t).launch = v.launch := by unfold putSlot; split <;> rfl
@[simp] theorem putSlot_blockIdx (v : Wave) (x : Nat) (t : Slot) : (putSlot v x t).blockIdx = v.blockIdx := by unfold putSlot; split <;> rfl
@[simp] theorem putSlot_waveIdx (v : Wave) (x : Nat) (t : Slot) : (putSlot v x t).waveIdx = v.waveIdx := by unfold putSlot; split <;> rfl
@[simp] theorem putSlot_waves (v : Wave) (x : Nat) (t : Slot) : (putSlot v x t).waves = v.waves := by unfold putSlot; split <;> rfl
@[simp] theorem putSlot_nblk (v : Wave) (x : Nat) (t : Slot) : (putSlot v x t).nblk = v.nblk := by unfold putSlot; split <;> rfl
@[simp] theorem putSlot_prio (v : Wave) (x : Nat) (t : Slot) : (putSlot v x t).prio = v.prio := by unfold putSlot; split <;> rfl
@[simp] theorem putSlot_modl (v : Wave) (x : Nat) (t : Slot) : (putSlot v x t).modl = v.modl := by unfold putSlot; split <;> rfl
@[simp] theorem putSlot_entry (v : Wave) (x : Nat) (t : Slot) : (putSlot v x t).entry = v.entry := by unfold putSlot; split <;> rfl
@[simp] theorem putSlot_table (v : Wave) (x : Nat) (t : Slot) : (putSlot v x t).table = v.table := by unfold putSlot; split <;> rfl
@[simp] theorem putSlot_winBase (v : Wave) (x : Nat) (t : Slot) : (putSlot v x t).winBase = v.winBase := by unfold putSlot; split <;> rfl
@[simp] theorem putSlot_window (v : Wave) (x : Nat) (t : Slot) : (putSlot v x t).window = v.window := by unfold putSlot; split <;> rfl
@[simp] theorem putSlot_nkeep (v : Wave) (x : Nat) (t : Slot) : (putSlot v x t).nkeep = v.nkeep := by unfold putSlot; split <;> rfl
@[simp] theorem putSlot_ngroup (v : Wave) (x : Nat) (t : Slot) : (putSlot v x t).ngroup = v.ngroup := by unfold putSlot; split <;> rfl
@[simp] theorem putSlot_groupBase (v : Wave) (x : Nat) (t : Slot) : (putSlot v x t).groupBase = v.groupBase := by unfold putSlot; split <;> rfl
@[simp] theorem putSlot_priv (v : Wave) (x : Nat) (t : Slot) : (putSlot v x t).priv = v.priv := by unfold putSlot; split <;> rfl
@[simp] theorem putSlot_privBase (v : Wave) (x : Nat) (t : Slot) : (putSlot v x t).privBase = v.privBase := by unfold putSlot; split <;> rfl
@[simp] theorem putSlot_step (v : Wave) (x : Nat) (t : Slot) : (putSlot v x t).step = v.step := by unfold putSlot; split <;> rfl
@[simp] theorem putSlot_args (v : Wave) (x : Nat) (t : Slot) : (putSlot v x t).args = v.args := by unfold putSlot; split <;> rfl
@[simp] theorem putSlot_uni (v : Wave) (x : Nat) (t : Slot) : (putSlot v x t).uni = v.uni := by unfold putSlot; split <;> rfl
@[simp] theorem putSlot_vals (v : Wave) (x : Nat) (t : Slot) : (putSlot v x t).vals = v.vals := by unfold putSlot; split <;> rfl
@[simp] theorem putSlot_div (v : Wave) (x : Nat) (t : Slot) : (putSlot v x t).div = v.div := by unfold putSlot; split <;> rfl
@[simp] theorem putSlot_divMem (v : Wave) (x : Nat) (t : Slot) : (putSlot v x t).divMem = v.divMem := by unfold putSlot; split <;> rfl
@[simp] theorem putSlot_evals (v : Wave) (x : Nat) (t : Slot) : (putSlot v x t).evals = v.evals := by unfold putSlot; split <;> rfl
@[simp] theorem putSlot_committed (v : Wave) (x : Nat) (t : Slot) : (putSlot v x t).committed = v.committed := by unfold putSlot; split <;> rfl
@[simp] theorem putSlot_adopted (v : Wave) (x : Nat) (t : Slot) : (putSlot v x t).adopted = v.adopted := by unfold putSlot; split <;> rfl
@[simp] theorem putSlot_parked (v : Wave) (x : Nat) (t : Slot) : (putSlot v x t).parked = v.parked := by unfold putSlot; split <;> rfl
@[simp] theorem putSlot_halted (v : Wave) (x : Nat) (t : Slot) : (putSlot v x t).halted = v.halted := by unfold putSlot; split <;> rfl
@[simp] theorem putSlot_stop (v : Wave) (x : Nat) (t : Slot) : (putSlot v x t).stop = v.stop := by unfold putSlot; split <;> rfl
@[simp] theorem putSlot_replay (v : Wave) (x : Nat) (t : Slot) : (putSlot v x t).replay = v.replay := by unfold putSlot; split <;> rfl
@[simp] theorem putSlot_report (v : Wave) (x : Nat) (t : Slot) : (putSlot v x t).report = v.report := by unfold putSlot; split <;> rfl
@[simp] theorem putSlot_serves (v : Wave) (x : Nat) (t : Slot) : (putSlot v x t).serves = v.serves := by unfold putSlot; split <;> rfl
@[simp] theorem putSlot_uniPoison (v : Wave) (x : Nat) (t : Slot) : (putSlot v x t).uniPoison = v.uniPoison := by unfold putSlot; split <;> rfl
@[simp] theorem putSlot_valPoison (v : Wave) (x : Nat) (t : Slot) : (putSlot v x t).valPoison = v.valPoison := by unfold putSlot; split <;> rfl
@[simp] theorem putSlot_divRan (v : Wave) (x : Nat) (t : Slot) : (putSlot v x t).divRan = v.divRan := by unfold putSlot; split <;> rfl
@[simp] theorem putSlot_divLanes (v : Wave) (x : Nat) (t : Slot) : (putSlot v x t).divLanes = v.divLanes := by unfold putSlot; split <;> rfl

@[simp] theorem slotOf_putSlot (v : Wave) (x : Nat) (t : Slot) : slotOf (putSlot v x t) x = t := by
  unfold slotOf putSlot; split <;> simp_all

theorem slotOf_putSlot_other (v : Wave) (x y : Nat) (t : Slot) (h : (x = 0) ≠ (y = 0)) :
    slotOf (putSlot v x t) y = slotOf v y := by
  unfold slotOf putSlot; split <;> split <;> simp_all

/-! ## Reading back -/

@[simp] theorem coreOf_setCore (s : State) (c : Nat) (k : Core) : coreOf (setCore s c k) c = k := smGet_smSet_same ..

theorem coreOf_setCore_other (s : State) (c d : Nat) (k : Core) (h : d ≠ c) : coreOf (setCore s c k) d = coreOf s d :=
  smGet_smSet_other _ _ _ _ _ h

@[simp] theorem coreOf_onCore (s : State) (c : Nat) (f : Core → Core) : coreOf (onCore s c f) c = f (coreOf s c) := coreOf_setCore ..

theorem coreOf_onCore_other (s : State) (c d : Nat) (f : Core → Core) (h : d ≠ c) : coreOf (onCore s c f) d = coreOf s d :=
  coreOf_setCore_other _ _ _ _ h

@[simp] theorem waveOf_setWave (s : State) (c w : Nat) (v : Option Wave) : waveOf (setWave s c w v) c w = v := by
  simp [waveOf, setWave, putWave]

theorem waveOf_setWave_other (s : State) (c w d u : Nat) (v : Option Wave) (h : d ≠ c ∨ u ≠ w) :
    waveOf (setWave s c w v) d u = waveOf s d u := by
  unfold waveOf setWave
  by_cases hd : d = c
  · subst hd
    have hu : u ≠ w := h.resolve_left (fun e => e rfl)
    simp [putWave, smGet_smSet_other _ _ _ _ _ hu]
  · rw [coreOf_onCore_other _ _ _ _ hd]

@[simp] theorem waveOf_onWave (s : State) (c w : Nat) (f : Wave → Wave) : waveOf (onWave s c w f) c w = (waveOf s c w).map f := by
  unfold onWave
  split <;> simp_all

theorem waveOf_onWave_other (s : State) (c w d u : Nat) (f : Wave → Wave) (h : d ≠ c ∨ u ≠ w) :
    waveOf (onWave s c w f) d u = waveOf s d u := by
  unfold onWave
  split
  · exact waveOf_setWave_other _ _ _ _ _ _ h
  · rfl

@[simp] theorem waveOf_onSlotOf (s : State) (c w x : Nat) (f : Slot → Slot) :
    waveOf (onSlotOf s c w x f) c w = (waveOf s c w).map (fun v => putSlot v x (f (slotOf v x))) := waveOf_onWave ..

theorem waveOf_onCore (s : State) (c w : Nat) (f : Core → Core) (h : (f (coreOf s c)).waves = (coreOf s c).waves) (d : Nat) :
    waveOf (onCore s c f) d w = waveOf s d w := by
  unfold waveOf
  by_cases hd : d = c
  · subst hd; simp [h]
  · rw [coreOf_onCore_other _ _ _ _ hd]

/-- Another core is as it was. -/
theorem coreOf_onWave_other (s : State) (c w d : Nat) (f : Wave → Wave) (h : d ≠ c) : coreOf (onWave s c w f) d = coreOf s d := by
  unfold onWave
  split
  · exact coreOf_onCore_other _ _ _ _ h
  · rfl

/-- A change of a wave leaves the rest of its core. -/
theorem coreOf_onWave (s : State) (c w : Nat) (f : Wave → Wave) :
    ∃ m, coreOf (onWave s c w f) c = { coreOf s c with waves := m } := by
  unfold onWave
  split
  · exact ⟨_, coreOf_onCore ..⟩
  · exact ⟨_, rfl⟩

@[simp] theorem partOf_onPart (s : State) (p : Nat) (f : Part → Part) : partOf (onPart s p f) p = f (partOf s p) := smGet_smSet_same ..

theorem partOf_onPart_other (s : State) (p q : Nat) (f : Part → Part) (h : q ≠ p) : partOf (onPart s p f) q = partOf s q :=
  smGet_smSet_other _ _ _ _ _ h

/-- The device's own writes keep the canonical form of its memory. -/
theorem devPut_wf (s : State) (pa : Nat) (bs : List Byte) (h : Memory.wf s.dmem = true) : Memory.wf (devPut s pa bs).dmem = true :=
  memWrite_wf _ _ _ h

/-- The error log keeps the canonical form of device memory. -/
theorem logPut_wf (s : State) (e : Nat) (q : BitVec 8) (p a i : Nat) (va : Word) (st n : Nat) (h : Memory.wf s.dmem = true) :
    Memory.wf (logPut s e q p a i va st n).dmem = true :=
  memWrite_wf _ _ _ h

end Sys2Proof.Machine
end

