-- ==== Sys2Proof/Laws/Ops.lean ====
section
/-! SUPPORT. What each shared operation of a record's meaning can do: which part of the state it may change, and what its
result reads back as. -/

namespace Sys2Proof.Machine

/-! ## The issuing slot -/

/-- A record's meaning at a slot that issues. -/
theorem onSlot_next (s : State) (k : Ctx) (f : Ctx → State) (h : ctxOf s = some k) : onSlot s f = .next (f k) := by
  simp [onSlot, h]

/-- What the issuing slot sees is its wave's. -/
theorem ctxOf_spec (s : State) (k : Ctx) (h : ctxOf s = some k) :
    s.cur.who = .slot k.core k.w k.x ∧ waveOf s k.core k.w = some k.wave ∧ k.slot = slotOf k.wave k.x
      ∧ k.lanes = lanesOf s.cur.lanes ∧ k.act = lanesOf (activeLanes s k.wave) := by
  unfold ctxOf at h
  split at h
  · rename_i c w x hw
    cases hv : waveOf s c w with
    | none => simp [hv] at h
    | some v => simp [hv] at h; subst h; simp [hw, hv]
  · simp at h

/-- A tender record's meaning at a stream that issues. -/
theorem onTender_next (s : State) (c i : Nat) (t : Tender) (f : Nat → Nat → Tender → State) (h : tenderOf s = some (c, i, t)) :
    onTender s f = .next (f c i t) := by
  simp [onTender, h]

/-- A record that computes a value for each active lane completes. -/
theorem laneOp_next (s : State) (k : Ctx) (r : Record) (out : Ty) (f : Ctx → Nat → Val) (h : ctxOf s = some k) :
    laneOp s r out f = .next (advance (writeResults s k out (resultVals r.u k.lanes (f k))) k) :=
  onSlot_next s k _ h

/-- A record that computes one value completes. -/
theorem waveOp_next (s : State) (k : Ctx) (out : Ty) (f : Ctx → Val) (h : ctxOf s = some k) :
    waveOp s out f = .next (advance (writeResults s k out (k.lanes.map (fun l => (l, f k)))) k) :=
  onSlot_next s k _ h

/-! ## What an operation may change -/

/-- The states differ in their cores alone. -/
def OnlyCores (s t : State) : Prop := t = { s with cores := t.cores }

theorem OnlyCores.refl (s : State) : OnlyCores s s := rfl

theorem OnlyCores.trans {s t u : State} (h : OnlyCores s t) (g : OnlyCores t u) : OnlyCores s u := by
  unfold OnlyCores at *
  rw [g, h]

theorem onCore_onlyCores (s : State) (c : Nat) (f : Core → Core) : OnlyCores s (onCore s c f) := rfl

theorem onWave_onlyCores (s : State) (c w : Nat) (f : Wave → Wave) : OnlyCores s (onWave s c w f) := by
  unfold onWave; split <;> rfl

theorem onSlotOf_onlyCores (s : State) (c w x : Nat) (f : Slot → Slot) : OnlyCores s (onSlotOf s c w x f) := onWave_onlyCores ..

theorem writeRegs_onlyCores (s : State) (c w x : Nat) (ws : List (Nat × W32)) : OnlyCores s (writeRegs s c w x ws) := by
  unfold writeRegs
  exact (onSlotOf_onlyCores s c w x _).trans (onCore_onlyCores ..)

theorem writeKeep_onlyCores (s : State) (c w x n : Nat) (vs : List (Nat × Word)) : OnlyCores s (writeKeep s c w x n vs) := by
  unfold writeKeep; split
  · exact writeRegs_onlyCores ..
  · rfl

theorem writeUni_onlyCores (s : State) (c w x n : Nat) (v : Word) : OnlyCores s (writeUni s c w x n v) := onWave_onlyCores ..

theorem writeResults_onlyCores (s : State) (k : Ctx) (out : Ty) (vs : List (Nat × Val)) : OnlyCores s (writeResults s k out vs) := by
  unfold writeResults
  split
  · exact onWave_onlyCores ..
  · split
    · exact (writeRegs_onlyCores ..).trans (writeRegs_onlyCores ..)
    · exact writeRegs_onlyCores ..
  · split
    · rfl
    · exact writeUni_onlyCores ..

theorem advance_onlyCores (s : State) (k : Ctx) : OnlyCores s (advance s k) := by
  unfold advance; split
  · rfl
  · exact onWave_onlyCores ..

theorem slotWaits_onlyCores (s : State) (c w x : Nat) (st : SlotSt) (why : Wait) : OnlyCores s (slotWaits s c w x st why) :=
  onSlotOf_onlyCores ..

/-! ## Positions -/

/-- The waves differ in their slots and record values (and their damage) alone. -/
def OnlyPath (v u : Wave) : Prop := u = { v with slot0 := u.slot0, slot1 := u.slot1, vals := u.vals, valPoison := u.valPoison }

theorem putSlot_onlyPath (v : Wave) (x : Nat) (t : Slot) : OnlyPath v (putSlot v x t) := by
  unfold putSlot; split <;> rfl

theorem moveSlot_onlyPath (v : Wave) (x b r : Nat) : OnlyPath v (moveSlot v x b r) := by
  unfold moveSlot putSlot; split <;> rfl

theorem advanceSlot_onlyPath (v : Wave) (x : Nat) : OnlyPath v (advanceSlot v x) := by
  simp only [advanceSlot]
  split
  · exact putSlot_onlyPath ..
  · split
    · exact putSlot_onlyPath ..
    · exact moveSlot_onlyPath ..

/-- A completed record moves its slot: the rest of its wave stands. -/
theorem stepSlot_onlyPath (cur : Issue) (v : Wave) (x : Nat) : OnlyPath v (stepSlot cur v x) := by
  simp only [stepSlot]
  split
  · exact advanceSlot_onlyPath ..
  · split
    · exact putSlot_onlyPath ..
    · split
      · exact putSlot_onlyPath ..
      · exact moveSlot_onlyPath ..

/-- A record that is not its block's last goes on to the next one. -/
theorem advanceSlot_next (v : Wave) (x : Nat) (h : (slotOf v x).rcd + 1 < blockRecs v (slotOf v x).blk) :
    advanceSlot v x = putSlot v x { slotOf v x with rcd := (slotOf v x).rcd + 1, dlit := none, dspl := none, dieAt := none, illegal := none } := by
  simp [advanceSlot, h]

/-- The position of a slot after a plain block's last record: record 0 of the block it falls through to. -/
theorem advanceSlot_last (v : Wave) (x : Nat) (h : ¬ (slotOf v x).rcd + 1 < blockRecs v (slotOf v x).blk)
    (hc : (slotOf v x).car = none) : advanceSlot v x = moveSlot v x (fallTarget v (slotOf v x).blk) 0 := by
  simp [advanceSlot, h, hc]

/-! ## Values -/

/-- A lane's value of the record just completed reads as what was written for it. -/
theorem recordValue_set (v : Wave) (rcd l : Nat) (vals : List (Nat × Val)) 
    (hn : (vals.map (fun p => p.1)).Nodup) (x : Val) (hx : (l, x) ∈ vals) :
    recordValue { v with vals := smSetAll ⟨0, 0⟩ v.vals (vals.map (fun p => (rcd * 32 + p.1, p.2))) } rcd l = x := by
  apply smGet_smSetAll_mem
  · rw [List.map_map]
    have e : ((fun p : Nat × Val => p.1) ∘ fun p : Nat × Val => (rcd * 32 + p.1, p.2)) = (fun n => rcd * 32 + n) ∘ fun p => p.1 := rfl
    rw [e, ← List.map_map]
    exact List.Pairwise.map _ (fun a b hab e => hab (by simpa using e)) hn
  · exact List.mem_map.mpr ⟨_, hx, rfl⟩

/-- The lanes a record's values are written for are the lanes it runs for. -/
theorem resultVals_lanes (u : Bool) (ls : List Nat) (f : Nat → Val) : (resultVals u ls f).map (fun p => p.1) = ls := by
  unfold resultVals
  split
  · cases ls <;> simp [Function.comp_def]
  · simp [Function.comp_def]

end Sys2Proof.Machine
end

