-- ==== Sys2Proof/Laws/PerInstr.lean ====
section
/-! SUPPORT. Family `Word`, one lemma per constructor of `Instr`: a record's word holds the fields of the record where R166
places them. -/

namespace Sys2Proof.Laws.Word

/-- The instruction has a record: its opcode is one that R183 assigns, and OP, U, TY, FN and the RZ bits 46:45 of its word
are the record's. -/
def Statement (i : Instr) : Prop :=
  ∀ op r, i.opRecord = some (op, r) →
    op < 0x60 ∧ ∃ w, encode i = some w ∧ bitsOf w.toNat 63 57 = op ∧ bitsOf w.toNat 56 56 = (if r.u then 1 else 0)
      ∧ bitsOf w.toNat 55 52 = r.ty.code ∧ bitsOf w.toNat 51 47 = r.fn.toNat ∧ bitsOf w.toNat 46 45 = 0

theorem code_lt (t : Ty) : t.code < 16 := by cases t <;> decide

theorem fields (op : Nat) (r : Record) (h : op < 0x60) :
    ∃ w : BitVec 64, BitVec.ofNat 64 (op * 2 ^ 57 + (if r.u then 2 ^ 56 else 0) + r.ty.code * 2 ^ 52 + r.fn.toNat * 2 ^ 47
      + r.a.encode.toNat * 2 ^ 30 + r.b.encode.toNat * 2 ^ 15 + r.c.encode.toNat) = w
      ∧ bitsOf w.toNat 63 57 = op ∧ bitsOf w.toNat 56 56 = (if r.u then 1 else 0)
      ∧ bitsOf w.toNat 55 52 = r.ty.code ∧ bitsOf w.toNat 51 47 = r.fn.toNat ∧ bitsOf w.toNat 46 45 = 0 := by
  refine ⟨_, rfl, ?_⟩
  have ht := code_lt r.ty
  have hf := r.fn.isLt
  have ha := r.a.encode.isLt
  have hb := r.b.encode.isLt
  have hc := r.c.encode.isLt
  generalize r.ty.code = t at *
  generalize r.fn.toNat = f at *
  generalize r.a.encode.toNat = a at *
  generalize r.b.encode.toNat = b at *
  generalize r.c.encode.toNat = c at *
  simp only [bitsOf, BitVec.toNat_ofNat]
  cases r.u <;> simp only [Bool.false_eq_true, if_true, if_false] <;> omega

theorem of_record (i : Instr) (op : Nat) (r : Record) (h : i.opRecord = some (op, r)) (ho : op < 0x60) : Statement i := by
  intro op' r' h'
  rw [h] at h'
  simp only [Option.some.injEq, Prod.mk.injEq] at h'
  obtain ⟨rfl, rfl⟩ := h'
  obtain ⟨w, hw, rest⟩ := fields op r ho
  exact ⟨ho, w, by simp only [encode, h, hw], rest⟩

theorem of_none (i : Instr) (h : i.opRecord = none) : Statement i := by
  intro op r h'
  rw [h] at h'
  simp at h'

theorem nop (r : Record) : Statement (.nop r) := of_record _ 0x00 r rfl (by decide)
theorem iadd (r : Record) : Statement (.iadd r) := of_record _ 0x01 r rfl (by decide)
theorem isub (r : Record) : Statement (.isub r) := of_record _ 0x02 r rfl (by decide)
theorem imul (r : Record) : Statement (.imul r) := of_record _ 0x03 r rfl (by decide)
theorem imad (r : Record) : Statement (.imad r) := of_record _ 0x04 r rfl (by decide)
theorem idiv (r : Record) : Statement (.idiv r) := of_record _ 0x05 r rfl (by decide)
theorem imin (r : Record) : Statement (.imin r) := of_record _ 0x06 r rfl (by decide)
theorem imax (r : Record) : Statement (.imax r) := of_record _ 0x07 r rfl (by decide)
theorem iabs (r : Record) : Statement (.iabs r) := of_record _ 0x08 r rfl (by decide)
theorem and (r : Record) : Statement (.and r) := of_record _ 0x09 r rfl (by decide)
theorem or (r : Record) : Statement (.or r) := of_record _ 0x0A r rfl (by decide)
theorem xor (r : Record) : Statement (.xor r) := of_record _ 0x0B r rfl (by decide)
theorem andn (r : Record) : Statement (.andn r) := of_record _ 0x0C r rfl (by decide)
theorem shl (r : Record) : Statement (.shl r) := of_record _ 0x0D r rfl (by decide)
theorem shr (r : Record) : Statement (.shr r) := of_record _ 0x0E r rfl (by decide)
theorem fshf (r : Record) : Statement (.fshf r) := of_record _ 0x0F r rfl (by decide)
theorem bcnt (r : Record) : Statement (.bcnt r) := of_record _ 0x10 r rfl (by decide)
theorem bfx (r : Record) : Statement (.bfx r) := of_record _ 0x11 r rfl (by decide)
theorem icmp (r : Record) : Statement (.icmp r) := of_record _ 0x12 r rfl (by decide)
theorem sel (r : Record) : Statement (.sel r) := of_record _ 0x13 r rfl (by decide)
theorem lea (r : Record) : Statement (.lea r) := of_record _ 0x14 r rfl (by decide)
theorem mov (r : Record) : Statement (.mov r) := of_record _ 0x15 r rfl (by decide)
theorem fadd (r : Record) : Statement (.fadd r) := of_record _ 0x16 r rfl (by decide)
theorem fsub (r : Record) : Statement (.fsub r) := of_record _ 0x17 r rfl (by decide)
theorem fmul (r : Record) : Statement (.fmul r) := of_record _ 0x18 r rfl (by decide)
theorem ffma (r : Record) : Statement (.ffma r) := of_record _ 0x19 r rfl (by decide)
theorem fmin (r : Record) : Statement (.fmin r) := of_record _ 0x1A r rfl (by decide)
theorem fmax (r : Record) : Statement (.fmax r) := of_record _ 0x1B r rfl (by decide)
theorem fsgn (r : Record) : Statement (.fsgn r) := of_record _ 0x1C r rfl (by decide)
theorem fcmp (r : Record) : Statement (.fcmp r) := of_record _ 0x1D r rfl (by decide)
theorem fcls (r : Record) : Statement (.fcls r) := of_record _ 0x1E r rfl (by decide)
theorem frnd (r : Record) : Statement (.frnd r) := of_record _ 0x1F r rfl (by decide)
theorem fscl (r : Record) : Statement (.fscl r) := of_record _ 0x20 r rfl (by decide)
theorem cvt (r : Record) : Statement (.cvt r) := of_record _ 0x21 r rfl (by decide)
theorem pack (r : Record) : Statement (.pack r) := of_record _ 0x22 r rfl (by decide)
theorem unpk (r : Record) : Statement (.unpk r) := of_record _ 0x23 r rfl (by decide)
theorem dotp (r : Record) : Statement (.dotp r) := of_record _ 0x24 r rfl (by decide)
theorem sfn (r : Record) : Statement (.sfn r) := of_record _ 0x25 r rfl (by decide)
theorem rowmax (r : Record) : Statement (.rowmax r) := of_record _ 0x26 r rfl (by decide)
theorem rowsum (r : Record) : Statement (.rowsum r) := of_record _ 0x27 r rfl (by decide)
theorem smax (r : Record) : Statement (.smax r) := of_record _ 0x28 r rfl (by decide)
theorem rmsn (r : Record) : Statement (.rmsn r) := of_record _ 0x29 r rfl (by decide)
theorem shfl (r : Record) : Statement (.shfl r) := of_record _ 0x2A r rfl (by decide)
theorem vote (r : Record) : Statement (.vote r) := of_record _ 0x2B r rfl (by decide)
theorem redl (r : Record) : Statement (.redl r) := of_record _ 0x2C r rfl (by decide)
theorem scnl (r : Record) : Statement (.scnl r) := of_record _ 0x2D r rfl (by decide)
theorem gets (r : Record) : Statement (.gets r) := of_record _ 0x2E r rfl (by decide)
theorem unif (r : Record) : Statement (.unif r) := of_record _ 0x2F r rfl (by decide)
theorem keep (r : Record) : Statement (.keep r) := of_record _ 0x30 r rfl (by decide)
theorem bysw (r : Record) : Statement (.bysw r) := of_record _ 0x31 r rfl (by decide)
theorem br (r : Record) : Statement (.br r) := of_record _ 0x32 r rfl (by decide)
theorem brc (r : Record) : Statement (.brc r) := of_record _ 0x33 r rfl (by decide)
theorem join (r : Record) : Statement (.join r) := of_record _ 0x34 r rfl (by decide)
theorem loop (r : Record) : Statement (.loop r) := of_record _ 0x35 r rfl (by decide)
theorem call (r : Record) : Statement (.call r) := of_record _ 0x36 r rfl (by decide)
theorem calli (r : Record) : Statement (.calli r) := of_record _ 0x37 r rfl (by decide)
theorem stubBind : ∀ core slot, Statement (.stubBind core slot) := fun _ _ => of_none _ rfl
theorem ret (r : Record) : Statement (.ret r) := of_record _ 0x38 r rfl (by decide)
theorem exit (r : Record) : Statement (.exit r) := of_record _ 0x39 r rfl (by decide)
theorem yield (r : Record) : Statement (.yield r) := of_record _ 0x3A r rfl (by decide)
theorem trap (r : Record) : Statement (.trap r) := of_record _ 0x3B r rfl (by decide)
theorem brk (r : Record) : Statement (.brk r) := of_record _ 0x3C r rfl (by decide)
theorem feat (r : Record) : Statement (.feat r) := of_record _ 0x3D r rfl (by decide)
theorem ld (r : Record) : Statement (.ld r) := of_record _ 0x3E r rfl (by decide)
theorem st (r : Record) : Statement (.st r) := of_record _ 0x3F r rfl (by decide)
theorem ldb (r : Record) : Statement (.ldb r) := of_record _ 0x40 r rfl (by decide)
theorem stb (r : Record) : Statement (.stb r) := of_record _ 0x41 r rfl (by decide)
theorem atom (r : Record) : Statement (.atom r) := of_record _ 0x42 r rfl (by decide)
theorem atmf (r : Record) : Statement (.atmf r) := of_record _ 0x43 r rfl (by decide)
theorem fence (r : Record) : Statement (.fence r) := of_record _ 0x44 r rfl (by decide)
theorem fenceEng (r : Record) : Statement (.fenceEng r) := of_record _ 0x44 r rfl (by decide)
theorem spct (r : Record) : Statement (.spct r) := of_record _ 0x45 r rfl (by decide)
theorem spcc (r : Record) : Statement (.spcc r) := of_record _ 0x46 r rfl (by decide)
theorem pfd (r : Record) : Statement (.pfd r) := of_record _ 0x47 r rfl (by decide)
theorem pfi (r : Record) : Statement (.pfi r) := of_record _ 0x48 r rfl (by decide)
theorem cellMake (r : Record) : Statement (.cellMake r) := of_record _ 0x49 r rfl (by decide)
theorem cellSet (r : Record) : Statement (.cellSet r) := of_record _ 0x49 r rfl (by decide)
theorem cellTag (r : Record) : Statement (.cellTag r) := of_record _ 0x49 r rfl (by decide)
theorem cellPeek (r : Record) : Statement (.cellPeek r) := of_record _ 0x49 r rfl (by decide)
theorem rqry (r : Record) : Statement (.rqry r) := of_record _ 0x4A r rfl (by decide)
theorem barWait (r : Record) : Statement (.barWait r) := of_record _ 0x4B r rfl (by decide)
theorem barArrive (r : Record) : Statement (.barArrive r) := of_record _ 0x4B r rfl (by decide)
theorem bexp (r : Record) : Statement (.bexp r) := of_record _ 0x4C r rfl (by decide)
theorem spawnTask (r : Record) : Statement (.spawnTask r) := of_record _ 0x4D r rfl (by decide)
theorem spawnLaunch (r : Record) : Statement (.spawnLaunch r) := of_record _ 0x4D r rfl (by decide)
theorem waitAny (r : Record) : Statement (.waitAny r) := of_record _ 0x4E r rfl (by decide)
theorem waitAll (r : Record) : Statement (.waitAll r) := of_record _ 0x4E r rfl (by decide)
theorem waitFirst (r : Record) : Statement (.waitFirst r) := of_record _ 0x4E r rfl (by decide)
theorem waitRing (r : Record) : Statement (.waitRing r) := of_record _ 0x4E r rfl (by decide)
theorem tagsRead (r : Record) : Statement (.tagsRead r) := of_record _ 0x4F r rfl (by decide)
theorem tagsClr (r : Record) : Statement (.tagsClr r) := of_record _ 0x4F r rfl (by decide)
theorem send (r : Record) : Statement (.send r) := of_record _ 0x50 r rfl (by decide)
theorem copy (r : Record) : Statement (.copy r) := of_record _ 0x51 r rfl (by decide)
theorem publ (r : Record) : Statement (.publ r) := of_record _ 0x52 r rfl (by decide)
theorem spop (r : Record) : Statement (.spop r) := of_record _ 0x53 r rfl (by decide)
theorem srel (r : Record) : Statement (.srel r) := of_record _ 0x54 r rfl (by decide)
theorem mma (r : Record) : Statement (.mma r) := of_record _ 0x55 r rfl (by decide)
theorem mmas (r : Record) : Statement (.mmas r) := of_record _ 0x56 r rfl (by decide)
theorem mtile (r : Record) : Statement (.mtile r) := of_record _ 0x57 r rfl (by decide)
theorem ldq (r : Record) : Statement (.ldq r) := of_record _ 0x58 r rfl (by decide)
theorem msty (r : Record) : Statement (.msty r) := of_record _ 0x59 r rfl (by decide)
theorem mzy (r : Record) : Statement (.mzy r) := of_record _ 0x5A r rfl (by decide)
theorem tmeet (r : Record) : Statement (.tmeet r) := of_record _ 0x5B r rfl (by decide)
theorem tenderLoop (r : Record) : Statement (.tenderLoop r) := of_record _ 0x35 r rfl (by decide)
theorem tenderSwitch : ∀ r, Statement (.tenderSwitch r) := fun _ => of_none _ rfl
theorem couple (r : Record) : Statement (.couple r) := of_record _ 0x5C r rfl (by decide)
theorem uncpl (r : Record) : Statement (.uncpl r) := of_record _ 0x5D r rfl (by decide)
theorem chase (r : Record) : Statement (.chase r) := of_record _ 0x5E r rfl (by decide)
theorem sysTret (r : Record) : Statement (.sysTret r) := of_record _ 0x5F r rfl (by decide)
theorem sysSnap (r : Record) : Statement (.sysSnap r) := of_record _ 0x5F r rfl (by decide)
theorem sysSnapq (r : Record) : Statement (.sysSnapq r) := of_record _ 0x5F r rfl (by decide)
theorem sysCfg (r : Record) : Statement (.sysCfg r) := of_record _ 0x5F r rfl (by decide)
theorem sysDbgset (r : Record) : Statement (.sysDbgset r) := of_record _ 0x5F r rfl (by decide)
theorem sysHaltq (r : Record) : Statement (.sysHaltq r) := of_record _ 0x5F r rfl (by decide)
theorem win : ∀ m woff ub, Statement (.win m woff ub) := fun _ _ _ => of_none _ rfl
theorem dlit : ∀ m p, Statement (.dlit m p) := fun _ _ => of_none _ rfl
theorem dspl : ∀ m k, Statement (.dspl m k) := fun _ _ => of_none _ rfl
theorem fetchMarker : ∀ cause, Statement (.fetchMarker cause) := fun _ => of_none _ rfl
theorem handlerPlace : ∀ core wslot, Statement (.handlerPlace core wslot) := fun _ _ => of_none _ rfl
theorem accessPerformed : ∀ id damage, Statement (.accessPerformed id damage) := fun _ _ => of_none _ rfl
theorem walkComplete : ∀ part va, Statement (.walkComplete part va) := fun _ _ => of_none _ rfl
theorem evalRecordMove : ∀ src bin dst, Statement (.evalRecordMove src bin dst) := fun _ _ _ => of_none _ rfl
theorem carriageCommit : ∀ core slot, Statement (.carriageCommit core slot) := fun _ _ => of_none _ rfl
theorem dequePop : ∀ core, Statement (.dequePop core) := fun _ => of_none _ rfl
theorem binTimerExpiry : ∀ core bin, Statement (.binTimerExpiry core bin) := fun _ _ => of_none _ rfl
theorem binLaunch : ∀ core bin, Statement (.binLaunch core bin) := fun _ _ => of_none _ rfl
theorem steal : ∀ thief victim, Statement (.steal thief victim) := fun _ _ => of_none _ rfl
theorem launchReady : ∀ launch, Statement (.launchReady launch) := fun _ => of_none _ rfl
theorem blockPlace : ∀ launch core, Statement (.blockPlace launch core) := fun _ _ => of_none _ rfl
theorem launchReserve : ∀ launch core, Statement (.launchReserve launch core) := fun _ _ => of_none _ rfl
theorem configSwap : ∀ launch core, Statement (.configSwap launch core) := fun _ _ => of_none _ rfl
theorem blockRetire : ∀ core block, Statement (.blockRetire core block) := fun _ _ => of_none _ rfl
theorem launchComplete : ∀ launch, Statement (.launchComplete launch) := fun _ => of_none _ rfl
theorem engineComplete : ∀ core cmd damage, Statement (.engineComplete core cmd damage) := fun _ _ _ => of_none _ rfl
theorem sendArrive : ∀ core cmd, Statement (.sendArrive core cmd) := fun _ _ => of_none _ rfl
theorem publish : ∀ core cmd, Statement (.publish core cmd) := fun _ _ => of_none _ rfl
theorem shadowWriteIssue : ∀ core cmd, Statement (.shadowWriteIssue core cmd) := fun _ _ => of_none _ rfl
theorem couplePlacementDone : ∀ core placement, Statement (.couplePlacementDone core placement) := fun _ _ => of_none _ rfl
theorem parkingQuiet : ∀ core, Statement (.parkingQuiet core) := fun _ => of_none _ rfl
theorem stationFire : ∀ core station, Statement (.stationFire core station) := fun _ _ => of_none _ rfl
theorem coupleQuantumExpiry : ∀ core, Statement (.coupleQuantumExpiry core) := fun _ => of_none _ rfl
theorem coupleStill : ∀ core, Statement (.coupleStill core) := fun _ => of_none _ rfl
theorem regionDrained : ∀ core, Statement (.regionDrained core) := fun _ => of_none _ rfl
theorem loweringComplete : ∀ die request, Statement (.loweringComplete die request) := fun _ _ => of_none _ rfl
theorem sinterEvict : ∀ die entry, Statement (.sinterEvict die entry) := fun _ _ => of_none _ rfl
theorem snapMarkArrive : ∀ slice, Statement (.snapMarkArrive slice) := fun _ => of_none _ rfl
theorem snapTokenReturn : ∀ slice, Statement (.snapTokenReturn slice) := fun _ => of_none _ rfl
theorem snapStreamComplete : ∀ part, Statement (.snapStreamComplete part) := fun _ => of_none _ rfl
theorem rlimWindow : ∀ core, Statement (.rlimWindow core) := fun _ => of_none _ rfl
theorem hostBar0Read : ∀ part off size, Statement (.hostBar0Read part off size) := fun _ _ _ => of_none _ rfl
theorem hostBar0Write : ∀ part off data, Statement (.hostBar0Write part off data) := fun _ _ _ => of_none _ rfl
theorem touch : ∀ part addr, Statement (.touch part addr) := fun _ _ => of_none _ rfl
theorem mkpay : ∀ part payload, Statement (.mkpay part payload) := fun _ _ => of_none _ rfl
theorem pktag : ∀ part, Statement (.pktag part) := fun _ => of_none _ rfl
theorem touchStatusRead : ∀ part, Statement (.touchStatusRead part) := fun _ => of_none _ rfl
theorem msiXUnmask : ∀ part vec, Statement (.msiXUnmask part vec) := fun _ _ => of_none _ rfl
theorem mgTlbinv : ∀ part access, Statement (.mgTlbinv part access) := fun _ _ => of_none _ rfl
theorem mgModver : ∀ part access, Statement (.mgModver part access) := fun _ _ => of_none _ rfl
theorem moduleVerified : ∀ part, Statement (.moduleVerified part) := fun _ => of_none _ rfl
theorem exchange : ∀ part, Statement (.exchange part) := fun _ => of_none _ rfl
theorem halt : ∀ part, Statement (.halt part) := fun _ => of_none _ rfl
theorem resume : ∀ part, Statement (.resume part) := fun _ => of_none _ rfl
theorem pswapHalted : ∀ part, Statement (.pswapHalted part) := fun _ => of_none _ rfl
theorem pswapExchangeDone : ∀ part, Statement (.pswapExchangeDone part) := fun _ => of_none _ rfl
theorem mgPartitionConfig : ∀ part off value, Statement (.mgPartitionConfig part off value) := fun _ _ _ => of_none _ rfl
theorem mgStatus : Statement .mgStatus := of_none _ rfl
theorem mgRegisterWrite : ∀ off value, Statement (.mgRegisterWrite off value) := fun _ _ => of_none _ rfl
theorem resetp : ∀ part, Statement (.resetp part) := fun _ => of_none _ rfl
theorem mailboxEndWave : ∀ core wslot, Statement (.mailboxEndWave core wslot) := fun _ _ => of_none _ rfl
theorem mailboxTret : ∀ core wslot, Statement (.mailboxTret core wslot) := fun _ _ => of_none _ rfl
theorem mailboxReadContext : ∀ core, Statement (.mailboxReadContext core) := fun _ => of_none _ rfl
theorem attestationRequest : ∀ nonce, Statement (.attestationRequest nonce) := fun _ => of_none _ rfl
theorem firmwareVerify : ∀ slot image signature, Statement (.firmwareVerify slot image signature) := fun _ _ _ => of_none _ rfl
theorem dieSelftest : ∀ die pass, Statement (.dieSelftest die pass) := fun _ _ => of_none _ rfl
theorem deviceReset : Statement .deviceReset := of_none _ rfl
theorem fabricPortDown : ∀ port, Statement (.fabricPortDown port) := fun _ => of_none _ rfl
theorem linkTraining : ∀ cxlCache cxlMem, Statement (.linkTraining cxlCache cxlMem) := fun _ _ => of_none _ rfl
theorem clockChange : ∀ die mhz, Statement (.clockChange die mhz) := fun _ _ => of_none _ rfl
theorem fabricPeerAccess : ∀ port addr op, Statement (.fabricPeerAccess port addr op) := fun _ _ _ => of_none _ rfl
theorem mailboxRestoreContext : ∀ part src dst, Statement (.mailboxRestoreContext part src dst) := fun _ _ _ => of_none _ rfl

end Sys2Proof.Laws.Word
end

