-- ==== Sys2Proof/Tests/Slice0.lean ====
section
/-! SUPPORT. Tests: ill-formed instructions that WellFormed refuses, words written out from the encodings of spec/ that decode
to what they stand for, single steps whose results spec/ gives, and for each statement a concrete state and operands that meet
its hypotheses. -/

open Sys2Proof Sys2Proof.Machine Sys2Proof.Cert

namespace Sys2Proof.Tests

set_option Elab.async false

/-! ## Small states -/

/-- A record without U. -/
def rc (t : Ty) (fn : BitVec 5) (a b c : Opnd) : Record := ⟨false, t, fn, a, b, c⟩

/-- A record of TY b32 without operands. -/
def rc0 : Record := rc .b32 0 .absent .absent .absent

/-- A table of a module: a block of three records, a block of two. -/
def table2 : List BlockInfo := [⟨0x100040, 3, 0, 0, 0xFFFF, 0, 0x100060, none⟩, ⟨0x100058, 2, 0, 0, 0xFFFF, 0, 0x100060, none⟩]

/-- A wave of 32 lanes in wave slot 0 of core 0, at record 0 of block 0: 8 keep slots in a window of 128 registers. -/
def wave0 : Wave := { fetchWave (fetchPart State.reset) with part := 0, privBase := 0, table := table2 }

/-- Its record issues for every lane. -/
def issue0 : Issue := { Issue.reset with who := .slot 0 0 0, lanes := 0xFFFFFFFF, nrec := 3, recs := [0, 0, 0] }

/-- Partition 0: cluster 0, a resource table of 16 entries from address 0. -/
def part0 : Part := { Part.reset with clmap := 1, rtlen := 16 }

/-- A page of partition 0 in core 0's translation cache, and in that of the agents outside the cores. -/
def pageAt (n : Nat) (leaf : Word) (pte : Nat) : List Tlb := [0, Config.numCores + Config.numClusters].map (fun u => ⟨u, 0, n, leaf, 4096, pte⟩)

/-- A state with one wave on core 0, whose partition maps page 0 to frame 0. -/
def put (v : Wave) (k : Core) (i : Issue) : State :=
  { State.reset with parts := [(0, part0)], tlb := pageAt 0 0x02000000000001F1 0x8000,
                     cores := [(0, { k with waves := [(0, some v)] })], cur := i }

/-- What the issuing record of such a state sees. -/
def ctx (v : Wave) (i : Issue) : Ctx := ⟨0, 0, 0, v, slotOf v 0, lanesOf i.lanes, lanesOf i.lanes⟩

def st0 : State := put wave0 Core.reset issue0
def ctx0 : Ctx := ctx wave0 issue0

/-- The outcome is a next state that passes a test. -/
def next (o : Host.Outcome State Fault Refusal) (f : State → Bool) : Bool :=
  match o with
  | .next s => f s
  | _ => false

/-- A lane's value of record `n` of the wave. -/
def valueAt (s : State) (n l : Nat) : Word := ((waveOf s 0 0).map (fun v => (recordValue v n l).lo)).getD 0

/-- PC slot 0 of the wave. -/
def slot0At (s : State) : Slot := ((waveOf s 0 0).map (fun v => v.slot0)).getD Slot.reset

/-! ## Ill-formed instructions -/

theorem test_wf_ty : (Instr.iadd (rc .f32 0 (.keep 0) (.imm 1) .absent)).wellFormed = false := by decide
theorem test_wf_fn : (Instr.iadd (rc .i32 2 (.keep 0) (.imm 1) .absent)).wellFormed = false := by decide
theorem test_wf_order : (Instr.ld (rc .b32 13 (.keep 0) .absent .absent)).wellFormed = false := by decide
theorem test_wf_absent : (Instr.iadd (rc .i32 0 (.keep 0) .absent .absent)).wellFormed = false := by decide
theorem test_wf_extra : (Instr.iabs (rc .i32 0 (.keep 0) (.imm 1) .absent)).wellFormed = false := by decide
theorem test_wf_die_operand : (Instr.iadd (rc .i32 0 (.vreg 0) (.imm 1) .absent)).wellFormed = false := by decide
theorem test_wf_uniform_never : (Instr.nop ⟨true, .b32, 0, .absent, .absent, .absent⟩).wellFormed = false := by decide
theorem test_wf_uniform_must : (Instr.vote ⟨false, .pred, 0, .keep 0, .absent, .absent⟩).wellFormed = false := by decide
theorem test_wf_row : (Instr.fenceEng (rc .b32 22 .absent .absent .absent)).wellFormed = false := by decide
theorem test_wf_good : (Instr.iadd (rc .i32 1 (.keep 0) (.imm 1) .absent)).wellFormed = true := by decide

/-! ## Words (R166, R167; R203, R205 for die words) -/

theorem test_word_mov : decode 0x2A80080000000000 = .ok (.mov (rc .f32 0 (.keep 0) .absent .absent)) := rfl
theorem test_word_ffma : decode 0x3280000054016000 = .ok (.ffma (rc .f32 0 (.dist 1) (.unif 2) (.lit 0))) := rfl
theorem test_word_fcmp : decode 0x3A82000060000000 = .ok (.fcmp (rc .f32 4 (.dist 1) (.imm 0) .absent)) := rfl
theorem test_word_keep : decode 0x6080080040010000 = .ok (.keep (rc .f32 0 (.keep 1) (.dist 2) .absent)) := rfl
theorem test_word_ld : decode 0x7C02000040000000 = .ok (.ld (rc .b32 4 (.dist 1) .absent .absent)) := rfl
theorem test_word_st : decode 0x7E80800040010000 = .ok (.st (rc .f32 1 (.dist 1) (.dist 2) .absent)) := rfl
theorem test_word_icmp : decode 0x2451000090018000 = .ok (.icmp (rc .n64 2 (.dist 2) (.keep 3) .absent)) := rfl
theorem test_word_loop : decode 0x6A001000C0008000 = .ok (.loop (rc .b32 0 (.imm 3) (.dist 1) .absent)) := rfl
theorem test_word_join : decode 0x6800000000000000 = .ok (.join rc0) := rfl
theorem test_word_calli : decode 0x6E00000050050000 = .ok (.calli (rc .b32 0 (.dist 1) (.keep 10) .absent)) := rfl
theorem test_word_sfn : decode 0x4A8D000040000000 = .ok (.sfn (rc .f32 26 (.dist 1) .absent .absent)) := rfl
theorem test_word_fenceEng : decode 0x8806900040000000 = .ok (.fenceEng (rc .b32 13 (.imm 1) .absent .absent)) := rfl
theorem test_word_copy : decode 0xA206800100018002 = .ok (.copy (rc .b32 13 (.dist 4) (.dist 3) (.dist 2))) := rfl
theorem test_word_waitAll : decode 0x9C50900800000000 = .ok (.waitAll (rc .n64 1 (.imm 32) .absent .absent)) := rfl
theorem test_word_mov_uniform : decode 0x2B10180000000000 = .ok (.mov ⟨true, .b64, 0, .lit 0, .absent, .absent⟩) := rfl
theorem test_word_chase : decode 0xBC10080120080000 = .ok (.chase (rc .b64 0 (.keep 4) (.imm 16) .absent)) := rfl
theorem test_word_sysSnap : decode 0xBE10800000000000 = .ok (.sysSnap (rc .b64 1 .absent .absent .absent)) := rfl
theorem test_word_sysSnapq : decode 0xBE11000000000000 = .ok (.sysSnapq (rc .b64 2 .absent .absent .absent)) := rfl
theorem test_word_sysHaltq : decode 0xBE12800000000000 = .ok (.sysHaltq (rc .b64 5 .absent .absent .absent)) := rfl
theorem test_word_mma : decode 0xAA70100020000000 = .ok (.mma (rc .bf16 0 (.imm 0) (.imm 0) .absent)) := rfl
theorem test_word_mtile : decode 0xAE00180024000000 = .ok (.mtile (rc .b32 0 (.lit 0) (.imm 0x800) .absent)) := rfl
theorem test_word_mzy : decode 0xB400100020000000 = .ok (.mzy (rc .b32 0 (.imm 0) (.imm 0) .absent)) := rfl
theorem test_word_tmeet : decode 0xB600100000000000 = .ok (.tmeet (rc .b32 0 (.imm 0) .absent .absent)) := rfl
theorem test_word_couple : decode 0xB800000000000000 = .ok (.couple rc0) := rfl
theorem test_word_uncpl : decode 0xBA00000000000000 = .ok (.uncpl rc0) := rfl
theorem test_word_tender_loop : decodeTender 0x6A001000F0008000 = .ok (.tenderLoop (rc .b32 0 (.imm 3) (.lit 1) .absent)) := rfl
theorem test_word_reserved_op : decode 0xC000000000000000 = .error .reservedOp := rfl
theorem test_word_rz : decode 0x6800200000000000 = .error .rzSet := rfl
theorem test_word_win : decodeTableWord 32 0xE0000081 = some (.win true 1 true) := by decide
theorem test_word_dlit : decodeTableWord 32 0x61ABCDEF = some (.dlit false 0xABCDEF) := by decide
theorem test_word_dspl : decodeTableWord 32 0x62000002 = some (.dspl false 2) := by decide
theorem test_word_dspl_rz : decodeTableWord 32 0x62000004 = none := by decide

/-! ## Single records: values that the rules give -/

/-- `st0` with literal slots. -/
def stL (ls : List Word) : State := { st0 with cur := { issue0 with lits := ls } }

/-- The value of lane 5 after a record whose A, B and C are the literals given. -/
def gives (i : Record → Instr) (t : Ty) (fn : BitVec 5) (ls : List Word) (v : Word) : Bool :=
  let c : Opnd := if ls.length < 3 then .absent else .lit 2
  let b : Opnd := if ls.length < 2 then .absent else .lit 1
  next (exec (i (rc t fn (.lit 0) b c)) (stL ls)) (fun s => valueAt s 0 5 = v)

-- R236, R237
theorem test_iadd_wraps : gives .iadd .i32 0 [0x7FFFFFFF, 1] 0xFFFFFFFF80000000 = true := by decide +kernel
theorem test_iadd_saturates : gives .iadd .i32 1 [0x7FFFFFFF, 1] 0x7FFFFFFF = true := by decide +kernel
theorem test_isub_saturates : gives .isub .n32 1 [0, 1] 0 = true := by decide +kernel
theorem test_isub_halves : gives .isub .i16x2 0 [0x00010000, 0x00010001] 0x0000FFFF = true := by decide +kernel
theorem test_imul_high : gives .imul .i32 1 [0x80000000, 0x80000000] 0x40000000 = true := by decide +kernel
theorem test_imad_low : gives .imad .n64 0 [0xFFFFFFFFFFFFFFFF, 2, 3] 1 = true := by decide +kernel
-- R238
theorem test_idiv_toward_zero : gives .idiv .i32 0 [0xFFFFFFF9, 2] 0xFFFFFFFFFFFFFFFD = true := by decide +kernel
theorem test_idiv_by_zero : gives .idiv .n32 0 [7, 0] 0xFFFFFFFF = true := by decide +kernel
-- R239
theorem test_imin_signed : gives .imin .i32 0 [0xFFFFFFFF, 1] 0xFFFFFFFFFFFFFFFF = true := by decide +kernel
theorem test_imax_unsigned : gives .imax .n32 0 [0xFFFFFFFF, 1] 0xFFFFFFFF = true := by decide +kernel
theorem test_iabs_saturates : gives .iabs .i32 1 [0x80000000] 0x7FFFFFFF = true := by decide +kernel
-- R240 to R244
theorem test_and : gives .and .b32 0 [0xFF00, 0x0FF0] 0x0F00 = true := by decide +kernel
theorem test_or : gives .or .b32 0 [0xFF00, 0x0FF0] 0xFFF0 = true := by decide +kernel
theorem test_xor : gives .xor .b32 0 [0xFF00, 0x0FF0] 0xF0F0 = true := by decide +kernel
theorem test_andn : gives .andn .b32 0 [0xFF00, 0x0FF0] 0xF000 = true := by decide +kernel
theorem test_shl_past_width : gives .shl .n32 0 [1, 32] 0 = true := by decide +kernel
theorem test_shr_arithmetic : gives .shr .i32 1 [0x80000000, 40] 0xFFFFFFFFFFFFFFFF = true := by decide +kernel
theorem test_fshf_left : gives .fshf .n32 0 [0x1, 0x80000000, 1] 3 = true := by decide +kernel
theorem test_bcnt_leading : gives .bcnt .b32 1 [0x00010000] 15 = true := by decide +kernel
theorem test_bfx_signed : gives .bfx .i32 1 [0x00000F00, 0x0408] 0xFFFFFFFFFFFFFFFF = true := by decide +kernel
theorem test_bfx_insert : gives .bfx .b32 2 [0xFFFFFFFF, 0x0808, 0x12] 0xFFFF12FF = true := by decide +kernel
-- R245 to R248
theorem test_icmp_halves : gives .icmp .i16x2 2 [0xFFFF0000, 0x00000001] 1 = true := by decide +kernel
theorem test_sel : gives .sel .b32 0 [7, 9, 1] 7 = true := by decide +kernel
theorem test_lea : gives .lea .b64 3 [0x1000, 0xFFFFFFFFFFFFFFFF] 0xFF8 = true := by decide +kernel
theorem test_mov_imm_float : next (exec (.mov (rc .f32 0 (.imm 3) .absent .absent)) st0) (fun s => valueAt s 0 0 = 0x40400000) = true := by decide +kernel
-- R249 to R253
theorem test_fadd : gives .fadd .f32 0 [0x3FC00000, 0x3E800000] 0x3FE00000 = true := by decide +kernel
theorem test_fadd_toward_plus : gives .fadd .f32 2 [0x3F800000, 0x00000001] 0x3F800001 = true := by decide +kernel
theorem test_fsub_infinities : gives .fsub .f32 0 [0x7F800000, 0x7F800000] 0x7FC00000 = true := by decide +kernel
theorem test_fmul_f16 : gives .fmul .f16 0 [0x4000, 0x4200] 0x4600 = true := by decide +kernel
theorem test_ffma_once : gives .ffma .f32 0 [0x3F800001, 0x3F800001, 0xBF800002] 0x28800000 = true := by decide +kernel
theorem test_fmin_nan : gives .fmin .f32 0 [0x7FC00000, 0x3F800000] 0x3F800000 = true := by decide +kernel
theorem test_fmax_zero : gives .fmax .f32 0 [0x80000000, 0] 0 = true := by decide +kernel
theorem test_fsgn_negate : gives .fsgn .f64 1 [0x3FF0000000000000] 0xBFF0000000000000 = true := by decide +kernel
theorem test_fcmp_nan : gives .fcmp .f32 0 [0x7FC00000, 0x7FC00000] 0 = true := by decide +kernel
theorem test_fcls : next (exec (.fcls (rc .f32 0 (.lit 0) .absent .absent)) (stL [0x7FC00000])) (fun s => valueAt s 0 0 ≠ 0) = true := by decide +kernel
-- R254 to R258
theorem test_frnd_even : gives .frnd .f32 0 [0x40200000] 0x40000000 = true := by decide +kernel
theorem test_fscl : gives .fscl .f32 0 [0x3F800000, 3] 0x41000000 = true := by decide +kernel
theorem test_pack_f16 : gives .pack .f16 0 [0x3F800000, 0x1234] 0x12343C00 = true := by decide +kernel
theorem test_unpk_high : gives .unpk .f16 1 [0x3C000000] 0x3F800000 = true := by decide +kernel
-- R171, R259 to R266
theorem test_vote_ballot : next (exec (.vote ⟨true, .b64, 2, .imm 1, .absent, .absent⟩) st0) (fun s => valueAt s 0 31 = 0xFFFFFFFF) = true := by decide +kernel
theorem test_gets_lane : next (exec (.gets (rc .n32 0 (.imm 0) .absent .absent)) st0) (fun s => valueAt s 0 17 = 17) = true := by decide +kernel
theorem test_keep : next (exec (.keep (rc .i32 0 (.keep 3) (.imm (-1)) .absent)) st0)
    (fun s => keepGet (coreOf s 0) wave0 3 9 = 0xFFFFFFFFFFFFFFFF && keepGet (coreOf s 0) wave0 2 9 = 0) = true := by decide +kernel
theorem test_bysw : gives .bysw .b32 0 [0x44332211, 0x88776655, 0x04050003] 0x55661144 = true := by decide +kernel
theorem test_nop : next (exec (.nop rc0) st0) (fun s => (slot0At s).rcd = 1) = true := by decide +kernel

/-! ## Witnesses: values, control (the hypotheses of each statement, clause by clause) -/

/-- `st0` where the record's result goes elsewhere. -/
def stDest (d : Dest) : State := { st0 with cur := { issue0 with form := ⟨d, 0, none⟩ } }

/-- The slot of a wave at a record of a block, with its lanes and its reconvergence block. -/
def at' (blk rcd : Nat) (mask : W32) (jblk : Nat) : Slot :=
  { Slot.reset with st := .eligible, blk := blk, rcd := rcd, baddr := 0x100040, mask := mask, jblk := jblk }

/-- A wave whose slots stand so. -/
def wave2 (t u : Slot) (d : List DivEntry) : Wave := { wave0 with slot0 := t, slot1 := u, div := d }

/-- The state of a wave whose slot 0 issues for its lanes. -/
def stW (v : Wave) : State := put v Core.reset { issue0 with lanes := v.slot0.mask, blk := v.slot0.blk, rcd := v.slot0.rcd }
/-- What its record sees. -/
def ctxW (v : Wave) : Ctx := ctx v { issue0 with lanes := v.slot0.mask }

/-- The hypotheses of every statement that asks only for a slot that issues: BitwiseLogic, Shifts, BitFields, IntegerCompare,
FloatArithmetic, VoteAndUnif and the records of that kind in the others. -/
theorem witness_slot : ctxOf st0 = some ctx0 ∧ ctx0.lanes ≠ [] ∧ st0.cur.ops = none ∧ st0.cur.replay = false
    ∧ ctx0.slot.dieAt = none := by decide +kernel

theorem witness_OperandForms : st0.cur.ops = none ∧ opA st0 ctx0 rc0 .b32 0 = 0
    ∧ opA st0 ctx0 (rc .i32 0 (.imm (-1)) .absent .absent) .i32 31 = 0xFFFFFFFF
    ∧ opA (stL [5]) ctx0 (rc .b64 0 (.lit 0) .absent .absent) .b64 31 = 5 := by decide +kernel
/-- Record 2 of a coupled body whose record 1 is KEEP k1; and a U = 1 record 0 that ran for lane 2 alone. -/
theorem witness_OperandForms_kept :
    (let w := (encode (.keep (rc .b32 0 (.keep 1) (.imm 5) .absent))).getD 0
     keepWriter ([0, w, 0].take 2) 1 = some 1 ∧ keepWriter ([0, w, 0].take 2) 2 = none)
    ∧ ((encode (.mov ⟨true, .b32, 0, .imm 1, .absent, .absent⟩)).getD 0).getLsbD 56 = true := by decide +kernel
theorem witness_ValueWidths : Ty.wide .b64 = true ∧ Ty.wide .i32 = false ∧ Ty.i32 ≠ .pred ∧ Ty.n32 ≠ .i32
    ∧ extendValue .i32 0x80000000 = 0xFFFFFFFF80000000 ∧ readWidth .pred 3 = 1 := by decide +kernel
theorem witness_ResultDestination_value : ctxOf st0 = some ctx0 ∧ st0.cur.form.dest = .value
    ∧ (slot0At (commits st0 ctx0 true .i32 (fun _ => ⟨0xFFFFFFFF, 0⟩))).rcd = 1
    ∧ valueAt (commits st0 ctx0 true .i32 (fun _ => ⟨0xFFFFFFFF, 0⟩)) 0 31 = 0xFFFFFFFFFFFFFFFF := by decide +kernel
theorem witness_ResultDestination_registers : ctxOf (stDest (.vreg 126)) = some ctx0 ∧ ctxOf (stDest (.ureg 127)) = some ctx0
    ∧ regGet (coreOf (commits (stDest (.vreg 126)) ctx0 false .b64 (fun l => ⟨BitVec.ofNat 64 (l * 2 ^ 32), 0⟩)) 0) 127 31 = 31 := by decide +kernel
theorem witness_ComputingRecordFrame : computes (.iadd (rc .i32 0 (.imm 1) (.imm 1) .absent)) = true ∧ ctxOf st0 = some ctx0
    ∧ next (exec (.iadd (rc .i32 0 (.imm 1) (.imm 1) .absent)) st0) (fun t => valueAt t 0 3 = 2) = true := by decide +kernel
theorem witness_PositionAfterRecord : ctx0.slot.rcd + 1 < blockRecs wave0 0 ∧ blockKind wave0 1 = 0
    ∧ (let v := wave2 (at' 0 2 0xFFFFFFFF 0xFFFF) Slot.reset []
      ¬ (ctxW v).slot.rcd + 1 < blockRecs v 0 ∧ blockKind v 0 = 0 ∧ (ctxW v).slot.car = none ∧ ctxOf (stW v) = some (ctxW v)) := by
  decide +kernel
theorem witness_IntegerArithmetic : IntTy .i16x2 ∧ IntTy .n64 ∧ ¬ IntTy .f32 ∧ ctxOf st0 = some ctx0 := by
  refine ⟨Or.inr rfl, Or.inl (by decide), ?_, by decide +kernel⟩
  unfold IntTy; decide
theorem witness_BitCounts : gives .bcnt .n64 1 [0] 64 = true ∧ gives .bcnt .n64 2 [0x8000000000000000] 63 = true
    ∧ gives .bcnt .n32 0 [0xFFFFFFFF] 32 = true := by decide +kernel
theorem witness_SelectLeaMove : ctxOf st0 = some ctx0 ∧ st0.cur.ops = none
    ∧ (⟨false, .b64, 1, .dist 1, .absent, .absent⟩ : Record).fn = 1 := by decide +kernel
theorem witness_FloatNan : FltTy .f16 ∧ isNan .f16 0x7C01 ∧ isNan .f16 0xFFFF ∧ ¬ isNan .f16 0x7C00 ∧ 0xFFFF < 2 ^ (fmtOf .f16).bits := by
  refine ⟨Or.inl rfl, ?_, ?_, ?_, by decide⟩ <;> unfold isNan <;> decide
theorem witness_RoundingKeeps : ¬ isNan .f64 0x7FF0000000000000 ∧ 0x7FF0000000000000 < 2 ^ (fmtOf .f64).bits := by
  refine ⟨?_, by decide⟩; unfold isNan; decide
theorem witness_FloatSelectAndTest : FltTy .bf16 ∧ ctxOf st0 = some ctx0 ∧ isNan .bf16 0x7FC0 := by
  refine ⟨Or.inr (Or.inl rfl), by decide +kernel, ?_⟩; unfold isNan; decide
theorem witness_ConversionsComplete : ctxOf st0 = some ctx0 ∧ FltTy .f64 :=
  ⟨by decide +kernel, Or.inr (Or.inr (Or.inr rfl))⟩
theorem witness_RowRecords : 32 ∉ ctx0.act ∧ (Opnd.imm 0) ≠ .absent
    ∧ (opB st0 ctx0 (rc .f32 0 (.imm 1) (.imm 0) .absent) .pred 3).getLsbD 0 = false := by decide +kernel
theorem witness_Shuffle : next (exec (.shfl (rc .b32 2 (.imm 5) (.imm 31) .absent)) st0) (fun t => valueAt t 0 0 = 5) = true := by decide +kernel
theorem witness_ReductionsAndScans : ctx0.act ≠ [] ∧ ctx0.act.filter (fun i => i ≤ 0) = [0] ∧ ctx0.act.filter (fun i => i < 0) = []
    ∧ redlValue .i32 0 ctx0.act (fun _ => 1) = 32 := by decide +kernel
theorem witness_SpecialState : (15 : BitVec 13).toNat < 16 ∧ ctxOf st0 = some ctx0
    ∧ next (exec (.gets (rc .n64 0 (.imm 11) .absent .absent)) st0) (fun t => valueAt t 0 0 = 0xFFFFFFFF) = true := by decide +kernel
theorem witness_KeepWrites : next (exec (.keep (rc .i32 0 (.unif 255) (.imm (-1)) .absent)) st0)
    (fun t => ((waveOf t 0 0).map (fun v => smGet 0 v.uni 255)).getD 0 = 0xFFFFFFFFFFFFFFFF) = true := by decide +kernel
theorem witness_ByteSwizzleAndFeatures : next (exec (.feat (rc .n64 1 .absent .absent .absent)) st0) (fun t => valueAt t 0 0 = 0x10000) = true
    ∧ next (exec (.feat (rc .n64 2 .absent .absent .absent)) st0) (fun t => valueAt t 0 0 = 0) = true := by decide +kernel

/-- Lanes 0 to 3 of 8 take a branch. -/
def branchWave : Wave := { wave2 (at' 0 0 0xFF 0xFFFF) Slot.reset [] with uni := [(0, 1)] }
/-- A predicate that is 1 in lanes 0 to 3, as record 0 of the block. -/
def halfWave : Wave := { wave2 (at' 0 1 0xFF 0xFFFF) Slot.reset [] with vals := [0, 1, 2, 3].map (fun l => (l, ⟨1, 0⟩)) }
/-- The same with a sibling on a path of its own. -/
def twoWave : Wave := { halfWave with slot1 := at' 1 0 0xFF00 0xFFFF }

theorem plain_branch : Plain (stW branchWave) (ctxW branchWave) := by unfold Plain; decide +kernel
theorem plain_half : Plain (stW halfWave) (ctxW halfWave) := by unfold Plain; decide +kernel
theorem plain_two : Plain (stW twoWave) (ctxW twoWave) := by unfold Plain; decide +kernel

theorem witness_BranchAndYield : (5 : BitVec 13).msb = false ∧ targetBlock (stW branchWave) (.imm 5) = 5
    ∧ next (exec (.br (rc .b32 0 (.imm 1) .absent .absent)) (stW branchWave)) (fun t => (slot0At t).blk = 1) = true := by decide +kernel
/-- The record BRC 1, p, join 2, with the predicate the record before it left; all lanes, no lane, some lanes. -/
def brcRec (fn : BitVec 5) (b : Opnd) : Record := rc .b32 fn (.imm 1) b (.imm 2)
theorem witness_BranchDiverges_none : (∀ l, l < 32 → ((0 : W32).getLsbD l = true ↔ l ∈ (ctxW branchWave).lanes
      ∧ ((opB (stW branchWave) (ctxW branchWave) (brcRec 0 .absent) .pred l).getLsbD 0 = true ↔ (brcRec 0 .absent).fn = 0)))
    ∧ nextAt branchWave 0 0 = (0, 1) ∧ (stW branchWave).cur.lanes = (ctxW branchWave).slot.mask := by decide +kernel
theorem witness_BranchDiverges_all : (∀ l, l < 32 → ((0xFF : W32).getLsbD l = true ↔ l ∈ (ctxW branchWave).lanes
      ∧ ((opB (stW branchWave) (ctxW branchWave) (brcRec 1 .absent) .pred l).getLsbD 0 = true ↔ (brcRec 1 .absent).fn = 0)))
    ∧ (0xFF : W32) ≠ 0 ∧ (0xFF : W32) = (ctxW branchWave).slot.mask := by decide +kernel
theorem witness_BranchDiverges_some : (∀ l, l < 32 → ((0x0F : W32).getLsbD l = true ↔ l ∈ (ctxW halfWave).lanes
      ∧ ((opB (stW halfWave) (ctxW halfWave) (brcRec 0 (.dist 1)) .pred l).getLsbD 0 = true ↔ (brcRec 0 (.dist 1)).fn = 0)))
    ∧ (0x0F : W32) ≠ (ctxW halfWave).slot.mask ∧ divCount halfWave < 64 ∧ halfWave.slot1.st = .empty ∧ halfWave.slot1.car = none
    ∧ (ctxW halfWave).slot.rcd + 1 < blockRecs halfWave 0 := by decide +kernel
theorem witness_BranchDiverges_sibling : (∀ l, l < 32 → ((0x0F : W32).getLsbD l = true ↔ l ∈ (ctxW twoWave).lanes
      ∧ ((opB (stW twoWave) (ctxW twoWave) (brcRec 0 (.dist 1)) .pred l).getLsbD 0 = true ↔ (brcRec 0 (.dist 1)).fn = 0)))
    ∧ divCount twoWave < 63 ∧ twoWave.slot1.mask ≠ 0 ∧ siblingState (stW twoWave) 0 0 twoWave 1 = .spills ∧ twoWave.slot1.car = none := by decide +kernel
theorem witness_BranchDiverges_loop : (stW halfWave).cur.kind ≠ 2 ∧ (∀ l, l < 32 → ((0x0F : W32).getLsbD l = true ↔ l ∈ (ctxW halfWave).lanes
      ∧ (opB (stW halfWave) (ctxW halfWave) (rc .b32 0 (.imm 0) (.dist 1) .absent) .pred l).getLsbD 0 = true)) := by decide +kernel
/-- The sibling waits at the port, so the branch waits; or it holds lanes beside its own. -/
def portWave : Wave := { halfWave with slot1 := { at' 1 0 0xFF00 0xFFFF with st := .waiting, wait := .port 9 } }
def heldWave : Wave := { halfWave with slot1 := { at' 1 0 0xF000 0xFFFF with held := 0x0F00 } }
theorem witness_BranchDiverges_waits : siblingState (stW portWave) 0 0 portWave 1 = .holds ∧ ctxOf (stW portWave) = some (ctxW portWave)
    ∧ siblingState (stW heldWave) 0 0 heldWave 1 = .spills ∧ divCount heldWave + 1 < 63 ∧ heldWave.slot1.mask ≠ 0 := by decide +kernel
/-- At the last record of the block, where a LOOP stands: the predicate of record 1 is 1 in lanes 0 to 3. -/
def lastWave : Wave := { wave2 (at' 0 2 0xFF 0xFFFF) Slot.reset [] with vals := [0, 1, 2, 3].map (fun l => (32 + l, ⟨1, 0⟩)) }
def lastState : State := stW lastWave
theorem witness_BranchDiverges_last : ¬ (ctxW lastWave).slot.rcd + 1 < blockRecs lastWave 0 ∧ nextAt lastWave 0 2 = (1, 0)
    ∧ ctxOf lastState = some (ctxW lastWave) ∧ lastState.cur.kind ≠ 2 ∧ lastState.cur.lanes = (ctxW lastWave).slot.mask
    ∧ (∀ l, l < 32 → ((0x0F : W32).getLsbD l = true ↔ l ∈ (ctxW lastWave).lanes
      ∧ (opB lastState (ctxW lastWave) (rc .b32 0 (.imm 0) (.dist 1) .absent) .pred l).getLsbD 0 = true)) := by decide +kernel
theorem test_loop_last : next (exec (.loop (rc .b32 0 (.imm 0) (.dist 1) .absent)) lastState) (fun t =>
    match waveOf t 0 0 with
    | some v => v.slot0.mask = 0xF0 && v.slot0.blk = 1 && v.slot0.rcd = 0 && v.slot1.mask = 0x0F && v.slot1.blk = 0
    | none => false) = true := by decide +kernel
/-- No lane, all lanes and some lanes of BRC's predicate; the sibling is EMPTY. -/
theorem witness_ConditionalBranch : Plain (stW halfWave) (ctxW halfWave) ∧ (stW halfWave).cur.replay = false ∧ (ctxW halfWave).slot.dieAt = none
    ∧ (∀ l ∈ (ctxW branchWave).lanes, ¬ ((opB (stW branchWave) (ctxW branchWave) (brcRec 0 .absent) .pred l).getLsbD 0 = true ↔ (brcRec 0 .absent).fn = 0))
    ∧ (ctxW branchWave).lanes ≠ []
    ∧ (∀ l ∈ (ctxW branchWave).lanes, ((opB (stW branchWave) (ctxW branchWave) (brcRec 1 .absent) .pred l).getLsbD 0 = true ↔ (brcRec 1 .absent).fn = 0))
    ∧ (∃ l ∈ (ctxW halfWave).lanes, ((opB (stW halfWave) (ctxW halfWave) (brcRec 0 (.dist 1)) .pred l).getLsbD 0 = true ↔ (brcRec 0 (.dist 1)).fn = 0))
    ∧ (∃ l ∈ (ctxW halfWave).lanes, ¬ ((opB (stW halfWave) (ctxW halfWave) (brcRec 0 (.dist 1)) .pred l).getLsbD 0 = true ↔ (brcRec 0 (.dist 1)).fn = 0)) := by
  unfold Plain; decide +kernel
theorem test_brc_splits : next (exec (.brc (brcRec 0 (.dist 1))) (stW halfWave)) (fun t =>
    match waveOf t 0 0 with
    | some v => v.slot0.mask = 0xF0 && v.slot1.mask = 0x0F && v.slot1.blk = 1 && v.div = [.join 2 0xFF 0 0xFFFF]
    | none => false) = true := by decide +kernel

/-- A coupled block read as SIMT: the LOOP at record 1 with four held lanes. -/
def coupledLoop (w : Wave) : State := { stW w with cur := { (stW w).cur with kind := 2 } }
theorem witness_LoopOfCoupledRegion : Plain (coupledLoop halfWave) (ctxW halfWave) ∧ (coupledLoop halfWave).cur.kind = 2
    ∧ next (exec (.loop (rc .b32 0 (.imm 0) (.dist 1) .absent)) (coupledLoop halfWave)) (fun t => (slot0At t).mask = 0x0F && (slot0At t).held = 0xF0 && (slot0At t).rcd = 1) = true
    ∧ next (exec (.loop (rc .b32 0 (.imm 0) .absent .absent)) (coupledLoop halfWave)) (fun t => (slot0At t).mask = 0xFF && (slot0At t).rcd = 2) = true := by
  unfold Plain; decide +kernel
/-- The JOIN of block 0, to which four lanes have come before, and four have not. -/
def joinWave (came : W32) : Wave := wave2 (at' 0 0 0xF0 0) Slot.reset [.join 0 0xFF came 0xFFFF]
theorem witness_JoinReconverges : Plain (stW (joinWave 0)) (ctxW (joinWave 0)) ∧ (joinWave 0).slot0.jblk = (joinWave 0).slot0.blk
    ∧ (joinWave 0).divMem = 0 ∧ (0xF0 &&& 0xFF : W32) = 0xF0 ∧ (0 ||| 0xF0 : W32) ≠ 0xFF ∧ (0x0F ||| 0xF0 : W32) = 0xFF
    ∧ 1 < blockRecs (joinWave 0) 0 ∧ (ctxW branchWave).slot.jblk ≠ (ctxW branchWave).slot.blk := by unfold Plain; decide +kernel
theorem test_join_last : next (exec (.join rc0) (stW (joinWave 0x0F))) (fun t => (slot0At t).mask = 0xFF && (slot0At t).rcd = 1) = true := by decide +kernel

/-- The link to block 1, in the literal slot. -/
def callState (a : Word) : State := { stW branchWave with cur := { (stW branchWave).cur with lits := [a] } }
theorem witness_CallsAndReturns : Plain (callState 0) (ctxW branchWave) ∧ (ctxW branchWave).lanes ≠ []
    ∧ linkTarget branchWave 0x100058 = .block 1 ∧ (∀ l ∈ (ctxW branchWave).lanes,
      opA (callState 0x100058) (ctxW branchWave) (rc .b32 0 (.lit 0) (.keep 7) .absent) .b64 l = 0x100058)
    ∧ (0xC0000000FFFFFFFF : Word).toNat / 2 ^ 32 = 0xC0000000 := by unfold Plain; decide +kernel

/-! ## Witnesses: stubs, exits, die words, memory -/

/-- An entry of the resource table (R95): BASE, SIZE, SHADOW, INFLIGHT, OLDREF, PUBVER, KIND, GEN 1, all rights, KSPEC. -/
def resBytes (base size shadow infl old ver kind : Nat) (kspec : List Byte) : List Byte :=
  leBytes 8 base ++ leBytes 8 size ++ leBytes 8 shadow ++ leBytes 4 infl ++ leBytes 4 old ++ leBytes 4 ver ++ leBytes 1 kind
    ++ [1, 0xFF, 0] ++ kspec

/-- Entry 1 a buffer, 2 a code symbol of block 1, 3 a completion ring of 16 records with HEAD 4, 4 a buffer whose shadow is
set, 5 a buffer whose OLDREF is 1; data from 0x400. -/
def mem0 : List Host.Cell :=
  memWrite (memWrite (memWrite (memWrite (memWrite (memWrite [] 64 (resBytes 0x400 0x100 0 0 0 5 1 []))
    128 (resBytes 0x100058 0 0 0 0 5 3 []))
    192 (resBytes 0x800 0x100 0 0 0 5 5 (leBytes 4 16 ++ leBytes 4 4 ++ leBytes 2 0xFFFF)))
    256 (resBytes 0x400 0x100 0x500 2 0 5 1 []))
    320 (resBytes 0x400 0x100 0x500 2 1 5 1 []))
    0x400 [0x78, 0x56, 0x34, 0x12]

/-- The state with that memory. -/
def withMem (s : State) : State := { s with dmem := mem0 }

/-- A check of a resolution's entry. -/
def okAnd {ε α : Type} (r : State × Except ε α) (f : State → α → Bool) : Bool :=
  match r.2 with
  | .ok e => f r.1 e
  | .error _ => false

/-- Slot 0 in binding of the stub of entry 2. -/
def bindState : State := withMem (put (wave2 { at' 0 0 0xFF 0xFFFF with st := .stalled, wait := .bind 0xC000000000000201 } Slot.reset [])
  Core.reset issue0)
theorem witness_StubBinds : okAnd (resolve bindState 0 false 0 0x201 3 2 0 0 0xC000000000000201)
      (fun q e => callableAt wave0 e.l.base = some 1 && (waveOf q 0 0).isSome && waveOf q 0 0 = waveOf bindState 0 0) = true
    ∧ ((waveOf bindState 0 0).map (fun v => v.halted || v.parked)) = some false := by decide +kernel
theorem test_stub_binds : next (exec (.stubBind 0 0) bindState) (fun t => (slot0At t).blk = 1 && (slot0At t).st = .eligible) = true := by
  decide +kernel

theorem witness_ExitEndsLanes : branchWave.divMem = 0 ∧ branchWave.evals = []
    ∧ liveLanes branchWave &&& ~~~(stW branchWave).cur.lanes = 0 ∧ liveLanes twoWave &&& ~~~(stW twoWave).cur.lanes ≠ 0 := by decide +kernel
theorem test_exit_last : next (exec (.exit rc0) (stW branchWave)) (fun t => (waveOf t 0 0).isNone) = true := by decide +kernel

/-- A slot whose word before has left divergence work. -/
def workWave (p : Pending) : Wave := wave2 { at' 0 1 0xFF 0xFFFF with dspl := some p } Slot.reset []
theorem witness_DieWordsComplete : ctxOf (stW (workWave ⟨0, 0xFF, 1, 2⟩)) = some (ctxW (workWave ⟨0, 0xFF, 1, 2⟩))
    ∧ (ctxW (workWave ⟨0, 0xFF, 1, 2⟩)).slot.dspl = some ⟨0, maskOf (ctxW (workWave ⟨0, 0xFF, 1, 2⟩)).lanes, 1, 2⟩
    ∧ maskOf (ctxW (workWave ⟨0, 0xFF, 1, 2⟩)).lanes ≠ 0 ∧ (ctxW (workWave ⟨0, 0xFF, 1, 2⟩)).slot.car = none
    ∧ (ctxW (workWave ⟨0, 0, 1, 2⟩)).slot.dspl = some ⟨0, 0, 1, 2⟩ ∧ (ctxW (workWave ⟨1, 0, 1, 2⟩)).slot.dspl = some ⟨1, 0, 1, 2⟩
    ∧ (workWave ⟨1, 0, 1, 2⟩).slot0.jblk ≠ (workWave ⟨1, 0, 1, 2⟩).slot0.blk := by decide +kernel
theorem test_dspl_exit : next (exec (.dspl false 2) (stW (workWave ⟨2, 0, 0, 0⟩))) (fun t => (waveOf t 0 0).isNone) = true := by decide +kernel
theorem test_win : next (exec (.win false 127 true) st0) (fun t => (slot0At t).woff = 127 && (slot0At t).ub) = true := by decide +kernel

/-- Lane 31 alone, with memory behind it and a global address in literal slot 0. -/
def memState (a : Word) : State :=
  withMem (put (wave2 (at' 0 0 0x80000000 0xFFFF) Slot.reset []) Core.reset { issue0 with lanes := 0x80000000, lits := [a] })
/-- What the record of lane 31 sees. -/
def memCtx : Ctx := ctx (wave2 (at' 0 0 0x80000000 0xFFFF) Slot.reset []) { issue0 with lanes := 0x80000000 }
/-- The same with page 0 a cell page. -/
def cellState (a : Word) : State := { memState a with tlb := pageAt 0 0x0A000000000001F1 0x8000 }

/-- What lanes ask for, and their checked addresses. -/
def reqsOf (s : State) (k : Ctx) (i : Instr) : List Req := (askingLanes k i).filterMap (asks s k i)
def checkedOf (s : State) (k : Ctx) (i : Instr) (reqs : List Req) : List Checked :=
  reqs.filterMap (fun p => match laneCheck s k i p with
    | .ok x => some x
    | .error _ => none)
/-- AllPass, computed. -/
def passes (s q : State) (k : Ctx) (i : Instr) (reqs : List Req) (xs : List Checked) : Bool :=
  parkPage s k (reqs.map (fun p => (p.lane, .ok p))) = none && reqs.length = xs.length
    && (reqs.zip xs).all (fun p => match laneCheck q k i p.1 with
      | .ok x => x = p.2
      | .error _ => false)
/-- All that GenericAccessesIssue assumes of a record, with at least one access. -/
def issues (i : Instr) (s : State) (k : Ctx) : Bool :=
  let reqs := reqsOf s k i
  ctxOf s = some k && reqs ≠ [] && (askingLanes k i).map (asks s k i) = reqs.map some
    && passes s s k i reqs (checkedOf s k i reqs) && (issueAll s s k i (reqs.zip (checkedOf s k i reqs))).2 = []

theorem witness_GenericAccessesIssue_load : issues (.ld (rc .b32 4 (.lit 0) .absent .absent)) (memState 0x400) memCtx = true := by decide +kernel
theorem witness_GenericAccessesIssue_store : issues (.st (rc .kb 4 (.lit 0) (.imm 1) (.imm 2))) (memState 0xFF0) memCtx = true := by decide +kernel
theorem witness_GenericAccessesIssue_atom : issues (.atom (rc .i64 4 (.lit 0) (.imm 1) (.imm 9))) (memState 0xFF8) memCtx = true := by decide +kernel
theorem witness_GenericAccessesIssue_atmf : issues (.atmf (rc .f32 4 (.lit 0) (.imm 1) (.imm 2))) (memState 0x400) memCtx = true := by decide +kernel
theorem witness_GenericAccessesIssue_chase : issues (.chase (rc .b64 0 (.keep 7) (.imm 16) .absent)) (memState 0) memCtx = true := by decide +kernel
theorem witness_GenericAccessesIssue_make : issues (.cellMake (rc .b64 0 (.lit 0) (.imm 1) .absent)) (cellState 0x408) memCtx = true := by decide +kernel
theorem witness_GenericAccessesIssue_peek : issues (.cellPeek (rc .b64 3 (.lit 0) (.keep 0) .absent)) (cellState 0x408) memCtx = true := by decide +kernel
theorem test_ld : next (exec (.ld (rc .b32 4 (.lit 0) .absent .absent)) (memState 0x400)) (fun t => valueAt t 0 31 = 0x12345678) = true := by decide +kernel
theorem test_st : next (exec (.st (rc .b32 4 (.lit 0) (.imm (-1)) .absent)) (memState 0x404))
    (fun t => memRead t.dmem 0x403 6 = [0x12, 0xFF, 0xFF, 0xFF, 0xFF, 0]) = true := by decide +kernel
theorem test_atom_add : next (exec (.atom (rc .n32 4 (.lit 0) (.imm 1) (.imm 0))) (memState 0x400))
    (fun t => valueAt t 0 31 = 0x12345678 && memRead t.dmem 0x400 4 = [0x79, 0x56, 0x34, 0x12]) = true := by decide +kernel
theorem test_cell_make : next (exec (.cellMake (rc .b64 0 (.lit 0) (.imm 3) .absent)) (cellState 0x408))
    (fun t => cellTag t 0x408 = 1 && devNat t 0x408 8 = 3 * 2 ^ 40) = true := by decide +kernel

/-- The pointer of a buffer record: OFF 0x10 of entry 1, GEN 1. -/
def bufState : State := memState 0x0000001000000101
/-- The state with the entries resolved, and the lane's entry and address. -/
def bufResolved (right : Nat) : State × List (ResEntry × Word) :=
  let p := resolveLanes memCtx right 4 bufState [0x0000001000000101]
  (p.1, p.2.filterMap (fun e => match e with
    | .ok x => some x
    | .error _ => none))
theorem witness_BufferAccessesIssue_load :
    (let p := bufResolved 0
     let reqs : List Req := p.2.map (fun e => ⟨31, .load, .load, e.2, 4, .rx, .dv, 0, 0, some e.1⟩)
     p.2.length = 1 ∧ (∀ e ∈ p.2, canonical e.2 = true ∧ e.2 = 0x410)
      ∧ passes bufState p.1 memCtx (.ldb (rc .b32 4 (.lit 0) .absent .absent)) reqs
          (checkedOf p.1 memCtx (.ldb (rc .b32 4 (.lit 0) .absent .absent)) reqs) = true) := by decide +kernel
theorem witness_BufferAccessesIssue_store :
    (let p := bufResolved 1
     let reqs : List Req := p.2.map (fun e => ⟨31, .store, .store, e.2, 4, .rx, .dv, 1, 0, some e.1⟩)
     p.2.length = 1 ∧ passes bufState p.1 memCtx (.stb (rc .b32 4 (.lit 0) (.imm 1) .absent)) reqs
          (checkedOf p.1 memCtx (.stb (rc .b32 4 (.lit 0) (.imm 1) .absent)) reqs) = true) := by decide +kernel
theorem test_stb : next (exec (.stb (rc .b32 4 (.lit 0) (.imm 1) .absent)) bufState)
    (fun t => memRead t.dmem 0x410 4 = [1, 0, 0, 0] && devNat t (64 + 0x18) 4 = 0) = true := by decide +kernel

/-- An access in flight of lane 31 to the last bytes of page 0. -/
def flight (i : Instr) (kind : AKind) (t : Ty) (n : Nat) : Access :=
  { accessOf (memState 0) memCtx i (rc t 4 (.lit 0) (.imm 1) .absent) ([], []) 1
      ⟨31, kind, .load, BitVec.ofNat 64 (4096 - n), n, .rx, .dv, 1, 0, none⟩ ([(.dev (4096 - n), n)], false, []) with id := 1 }
/-- The state with it in flight. -/
def flightState (a : Access) : State := { memState 0 with accs := [a], nextAcc := 2 }
def ld8 : Access := flight (.ld (rc .b64 4 (.lit 0) .absent .absent)) .load .b64 8
def st1 : Access := flight (.st (rc .b32 4 (.lit 0) (.imm 1) .absent)) .store .b32 4
def add4 : Access := flight (.atom (rc .i32 4 (.lit 0) (.imm 1) (.imm 0))) (.atom 0) .i32 4
theorem witness_LoadPerforms : Ready (flightState ld8) ld8 4088 ∧ ld8.kind = .load ∧ ld8.scope ≠ .wv ∧ ld8.scope ≠ .bk
    ∧ hasL1 (coreOf (flightState ld8) ld8.core) = false
    ∧ (waveOf (flightState ld8) ld8.core ld8.wslot).map (fun v => v.uid) = some ld8.wuid := by unfold Ready; decide +kernel
theorem witness_StorePerforms : Ready (flightState st1) st1 4092 ∧ st1.kind = .store := by unfold Ready; decide +kernel
theorem witness_AtomicPerforms : Ready (flightState add4) add4 4092 ∧ add4.kind = .atom 0 ∧ add4.ty.code ≤ 5
    ∧ add4.size = add4.ty.memBytes := by unfold Ready; decide +kernel
theorem witness_AtomOperations : Ty.n64.code ≤ 5 ∧ 2 ^ 64 - 1 < 2 ^ width .n64 ∧ 0 < 2 ^ width .n64 := by decide

/-- A fence at .aq.cl, with nothing before it and behind a store of its own wave. -/
theorem witness_FencePasses : openBelow (flightState st1) memCtx (portBound (flightState st1) memCtx) = true
    ∧ openBelow (memState 0) memCtx (portBound (memState 0) memCtx) = false
    ∧ orderOf (rc .b32 28 .absent .absent .absent) = .sq ∧ tokenFree (memState 0) (0, 0, 0) = true
    ∧ orderOf (rc .b32 8 .absent .absent .absent) = .aq ∧ Scope.ofFn (8 : BitVec 5) ≠ .wv ∧ Scope.ofFn (8 : BitVec 5) ≠ .bk
    ∧ lostLanes (memState 0) memCtx (rc .b32 29 .absent .absent .absent) = [] := by decide +kernel
theorem test_fence_waits : next (exec (.fence (rc .b32 12 .absent .absent .absent)) (flightState st1))
    (fun t => (slot0At t).wait = .port 2 && (slot0At t).rcd = 0) = true := by decide +kernel

theorem witness_SpaceQueries : (0x8100000000000000 : Word).toNat / 2 ^ 56 = 0x81 ∧ (0x82FFFFFFFFFFFFFF : Word).toNat / 2 ^ 56 = 0x82
    ∧ (0x80FFFFFFFFFFFFFF : Word).toNat / 2 ^ 56 = 0x80 ∧ canonical 0x00FFFFFFFFFFFFFF = true
    ∧ canonical 0xFF00000000000000 = true ∧ (0 : Word).toNat / 2 ^ 56 ≠ 0x81 := by decide +kernel
theorem test_spct_own : next (exec (.spct (rc .n32 0 (.lit 0) .absent .absent)) (memState 0x8100000000000000)) (fun t => valueAt t 0 31 = 10) = true := by
  decide +kernel
theorem test_spcc_csh : next (exec (.spcc (rc .b64 3 (.lit 0) .absent .absent)) (memState 0x8100000000001234)) (fun t => valueAt t 0 31 = 0x8200000000001234) = true := by
  decide +kernel
theorem witness_PrefetchesComplete : ctxOf (memState 0x400) = some memCtx ∧ (memState 0).cur.replay = false
    ∧ next (exec (.pfd (rc .b32 1 (.lit 0) .absent .absent)) (memState 0x400)) (fun t => t.dmem = mem0 && (slot0At t).rcd = 1) = true
    ∧ next (exec (.pfi (rc .b32 0 (.lit 0) (.imm 64) .absent)) (memState 0x100040)) (fun t => (slot0At t).rcd = 1) = true := by decide +kernel
/-- The handle of entry 15, the last of the table, and of entry 1. -/
theorem witness_QueriesEntry : accessLanes memCtx (rc .b64 0 (.lit 0) .absent .absent) = [31]
    ∧ (0x101 : Word).toNat % 2 ^ 32 / 256 < (partOf (memState 0x101) 0).rtlen.toNat
    ∧ okAnd (readEntry true (memState 0x101) 0 false 1) (fun _ e => e.l.gen = (0x101 : Word).setWidth 8 && !e.l.world) = true := by decide +kernel
theorem witness_QueriesEntry_lanes : sameRun (queryLanes memCtx 1 (memState 0x101) [0x101]).1 memCtx = true
    ∧ (queryLanes memCtx 1 (memState 0x101) [0x101]).2.map (fun e => e.toOption) = [some 0x100]
    ∧ accessLanes memCtx ⟨true, .b64, 1, .lit 0, .absent, .absent⟩ = [31] := by decide +kernel
theorem test_rqry_size : next (exec (.rqry (rc .b64 1 (.lit 0) .absent .absent)) (memState 0x101)) (fun t => valueAt t 0 31 = 0x100) = true := by decide +kernel

/-! ## Witnesses: cells, barriers, tags, streams, tasks -/

/-- A conclusion's state, compared. -/
def isNext (o : Host.Outcome State Fault Refusal) (t : State) : Bool := next o (fun s => s = t)

/-- An evaluator lane 31 in a carriage; its own cell at 0x408, instance 7 of slice 0. -/
def evalCar : Carriage := newCarriage 0 0 0x100040 0x80000000
def evalWave (t : Slot) : Wave :=
  { wave2 t Slot.reset [] with kind := .evaluator, evals := [(31, ⟨0x408, 0x408, 0, 7, 1, [0x408]⟩)] }
def evalSlot : Slot := { at' 0 0 0x80000000 0xFFFF with car := some evalCar }
def evalState (t : Slot) : State :=
  { withMem (put (evalWave t) Core.reset { issue0 with lanes := 0x80000000, lits := [0x408] }) with
    tlb := pageAt 0 0x0A000000000001F1 0x8000, tags := [(0x81, 2)], waking := [⟨0x408, 0x408, 0, 0, 7, 1, [], []⟩] }
def evalCtx (t : Slot) : Ctx := ctx (evalWave t) { issue0 with lanes := 0x80000000 }
/-- The commit requests of the lane. -/
def commitReqs : List Req := [⟨31, .store, .write, 0x408, 8, .rx, .dv, 0, 0, none⟩]
theorem witness_CellCommitsAreNoted : ctxOf (evalState evalSlot) = some (evalCtx evalSlot) ∧ (evalCtx evalSlot).slot.car = some evalCar
    ∧ (∀ l ∈ (evalCtx evalSlot).lanes, mayCommit (evalCtx evalSlot) l 0x408 = true)
    ∧ (∀ i ∈ [Instr.cellSet (rc .b64 0 (.lit 0) (.imm 5) .absent), .cellTag (rc .b64 0 (.lit 0) .absent .absent)],
      sameRun ((checkedOf (evalState evalSlot) (evalCtx evalSlot) i commitReqs).foldl (fun t x => markChecked t 0 .write x) (evalState evalSlot)) (evalCtx evalSlot) = true)
    ∧ passes (evalState evalSlot) (evalState evalSlot) (evalCtx evalSlot) (.cellSet (rc .b64 0 (.lit 0) (.imm 5) .absent)) commitReqs
      (checkedOf (evalState evalSlot) (evalCtx evalSlot) (.cellSet (rc .b64 0 (.lit 0) (.imm 5) .absent)) commitReqs) = true
    ∧ passes (evalState evalSlot) (evalState evalSlot) (evalCtx evalSlot) (.cellTag (rc .b64 0 (.lit 0) .absent .absent)) commitReqs
      (checkedOf (evalState evalSlot) (evalCtx evalSlot) (.cellTag (rc .b64 0 (.lit 0) .absent .absent)) commitReqs) = true := by decide +kernel
theorem test_cell_set_noted : next (exec (.cellSet (rc .b64 0 (.lit 0) (.imm 5) .absent)) (evalState evalSlot))
    (fun t => ((slot0At t).car.map (fun c => c.cells)) = some [⟨31, 0, .set 5⟩] && cellTag t 0x408 = 2) = true := by decide +kernel

/-- A carriage that has ended, with a set of its lane's cell. -/
def endedCar : Carriage := { evalCar with cells := [⟨31, 0, .set 5⟩] }
def endedSlot : Slot := { at' 0 3 0x80000000 0xFFFF with st := .stalled, wait := .commit, car := some endedCar }
theorem witness_CarriageCommits : commitReady (evalState endedSlot) (0, 0, 0) (evalWave endedSlot) endedSlot endedCar = true
    ∧ lostCommits (evalState endedSlot) (evalWave endedSlot) endedCar = []
    ∧ lostCommits { evalState endedSlot with waking := [] } (evalWave endedSlot) endedCar = [⟨31, 0, .set 5⟩]
    ∧ exitDamaged (evalState endedSlot) (0, 0, 0) endedCar = false := by decide +kernel
/-- An EXIT of a wave whose divergence area lies on an unmapped page. -/
theorem witness_CarriageCommits_damaged : exitDamaged (onWave (evalState endedSlot) 0 0 (fun v => { v with divMem := 1, privBase := 0x5000 }))
    (0, 0, 0) { endedCar with exiting := true } = true := by decide +kernel
theorem test_carriage_commits : next (exec (.carriageCommit 0 0) (evalState endedSlot))
    (fun t => cellTag t 0x408 = 0 && devNat t 0x408 8 = 5 && (slot0At t).blk = 1 && t.waking = []) = true := by decide +kernel

/-- A group of two members, this wave (index 0) and another; `n` have arrived, `q` is pending. -/
def groupState (n q : Nat) : State :=
  put wave0 { Core.reset with groups := [(255, { Group.reset with owner := 1, members := 3, expect := 2, arrived := n, pending := q, credit := 1 })] }
    { issue0 with recs := [0, 0, 0] }
/-- The same wave with its groups from entry 255 on. -/
def barWave : Wave := { wave0 with groupBase := 255, ngroup := 1 }
def barState (n q : Nat) : State := { groupState n q with
  cores := (groupState n q).cores.map (fun p => (p.1, { p.2 with waves := [(0, some barWave)] })) }
def barCtx : Ctx := ctx barWave issue0
def barRec : Record := rc .b32 0 (.imm 0) .absent .absent
theorem witness_BarrierArrivals : ctxOf (barState 0 0) = some barCtx ∧ groupEntryOf barCtx barRec.a = 255
    ∧ (groupOf (coreOf (barState 0 0) 0) 255).members.getLsbD barWave.waveIdx = true
    ∧ openBelow (barState 0 0) barCtx (portBound (barState 0 0) barCtx) = false
    ∧ (groupOf (coreOf (barState 1 1) 0) 255).arrived + 1 = 2 ∧ (groupOf (coreOf (barState 1 1) 0) 255).pending ≠ 0
    ∧ (groupOf (coreOf (barState 1 0) 0) 255).held = [] := by decide +kernel
theorem test_barrier_waits : next (exec (.barWait barRec) (barState 0 0))
    (fun t => (slot0At t).wait = .barrier 255 false && (groupOf (coreOf t 0) 255).arrived = 1) = true := by decide +kernel
theorem test_barrier_completes : next (exec (.barWait barRec) (barState 1 0))
    (fun t => (slot0At t).st = .eligible && (groupOf (coreOf t 0) 255).phase && (groupOf (coreOf t 0) 255).arrived = 0) = true := by decide +kernel
theorem witness_BarrierExpects : (groupOf (coreOf (barState 0 0xFFFFFF) 0) 255).pending + (1 - 1) ≤ 0xFFFFFF
    ∧ (groupOf (coreOf (barState 0 0xFFFFFF) 0) 255).arrived ≠ (groupOf (coreOf (barState 0 0xFFFFFF) 0) 255).expect
    ∧ (groupOf (coreOf (barState 0 0xFFFFFF) 0) 255).credit = 1 := by decide +kernel
theorem test_bexp_credit_first : next (exec (.bexp (rc .b32 0 (.imm 0) (.imm 3) .absent)) (barState 0 0))
    (fun t => (groupOf (coreOf t 0) 255).pending = 2 && (groupOf (coreOf t 0) 255).credit = 0) = true := by decide +kernel

/-- Tags 5 and 63 are done. -/
def tagState (m : Word) : State := put wave0 { Core.reset with tagBits := 0x8000000000000020 } { issue0 with lits := [m] }
theorem witness_TagRecords : ctxOf (tagState 0x8000000000000000) = some ctx0
    ∧ (0x8000000000000020 : Word) &&& 0x8000000000000001 ≠ 0 ∧ (0x8000000000000020 : Word) &&& 0x8000000000000020 = 0x8000000000000020
    ∧ ((0x8000000000000020 : Word) &&& 0x8000000000000000).getLsbD 63 = true
    ∧ (∀ j, j < 63 → ((0x8000000000000020 : Word) &&& 0x8000000000000000).getLsbD j = false)
    ∧ (0x8000000000000020 : Word) &&& 1 = 0 ∧ (0x8000000000000020 : Word) &&& 0x21 ≠ 0x21 := by decide +kernel
theorem test_wait_first_clears : next (exec (.waitFirst ⟨true, .n64, 2, .lit 0, .absent, .absent⟩) (tagState 0x8000000000000000))
    (fun t => valueAt t 0 3 = 63 && (coreOf t 0).tagBits = 0x20) = true := by decide +kernel
theorem test_wait_all_waits : next (exec (.waitAll ⟨true, .n64, 1, .lit 0, .absent, .absent⟩) (tagState 0x21))
    (fun t => (slot0At t).wait = .tags 0x21 true && (slot0At t).rcd = 0) = true := by decide +kernel
theorem witness_RingWait : okAnd (resolve (memState 0x301) 0 false 0 0x301 5 0 0 0 0x301)
      (fun _ e => leNat ((e.l.kspec.drop 4).take 4) = 4) = true
    ∧ opA (memState 0x301) memCtx (rc .n64 0 (.lit 0) (.imm 4) .absent) .n64 memCtx.low = 0x301
    ∧ (opB (memState 0x301) memCtx (rc .n64 0 (.lit 0) (.imm 4) .absent) .n64 memCtx.low).toNat % 2 ^ 32 = 4
    ∧ (opB (memState 0x301) memCtx (rc .n64 0 (.lit 0) (.imm 3) .absent) .n64 memCtx.low).toNat % 2 ^ 32 ≠ 4 := by decide +kernel

/-- Stream 7 bound: two slots of 32 bytes, the second FULL and next to be read. -/
def stream7 (a b : RingSlot) : Stream := ⟨5, 0x8100000000000100, 32, [a, b], 0, 1, []⟩
def streamState (a b : RingSlot) : State := put wave0 { Core.reset with streams := [(7, some (stream7 a b))] } issue0
theorem witness_StreamRecords : ctxOf (streamState .free .full) = some ctx0 ∧ (7 : BitVec 13).toNat < 8
    ∧ streamAt (coreOf (streamState .free .full) 0) 7 = some (stream7 .free .full)
    ∧ (stream7 .free .full).slots.getD (stream7 .free .full).ridx .free = .full
    ∧ (stream7 .taken .free).slots.getD (stream7 .taken .free).ridx .free ≠ .full
    ∧ oldestTaken (stream7 .taken .free) = some 0 ∧ openBelow (streamState .taken .free) ctx0 (portBound (streamState .taken .free) ctx0) = false
    ∧ streamAt (coreOf st0 0) 7 = none := by decide +kernel
theorem test_spop : next (exec (.spop ⟨true, .b64, 0, .imm 7, .absent, .absent⟩) (streamState .free .full))
    (fun t => valueAt t 0 0 = 0x8100000000000120 && streamAt (coreOf t 0) 7 = some { stream7 .free .taken with ridx := 0 }) = true := by decide +kernel

/-- A module at 0x600: a kernel, a task, an evaluator and a handler entry, each a block of two records from 0x7C0, window 16. -/
def modBlock (i : Nat) : List Byte :=
  leBytes 4 (0x1C0 + 16 * i) ++ leBytes 2 2 ++ leBytes 2 0 ++ leBytes 2 0xFFFF ++ leBytes 2 0 ++ leBytes 4 0x1C0
    ++ leBytes 4 (0xC0 + 64 * i) ++ leBytes 12 0
def modDesc (ekind tiles : Nat) : List Byte :=
  leBytes 1 ekind ++ [1] ++ leBytes 2 16 ++ leBytes 4 0 ++ leBytes 8 tiles ++ leBytes 8 0 ++ leBytes 2 0xFFFF ++ leBytes 2 0
    ++ leBytes 2 4 ++ leBytes 34 0
def modBytes : List Byte :=
  leBytes 8 0 ++ leBytes 4 4 ++ leBytes 4 0 ++ leBytes 4 0x40 ++ leBytes 4 0 ++ leBytes 4 0x200 ++ leBytes 2 3 ++ leBytes 34 0
    ++ modBlock 0 ++ modBlock 1 ++ modBlock 2 ++ modBlock 3 ++ modDesc 1 1 ++ modDesc 2 0 ++ modDesc 3 0 ++ modDesc 4 0 ++ leBytes 64 0
def memMod : List Host.Cell := memWrite mem0 0x600 modBytes
/-- The state with that module verified, for partition 0, and one core. -/
def withMod (s : State) : State := { s with dmem := memMod, modules := [⟨0, 0x600, 0, 0x40, [], [], []⟩] }
def coreState (k : Core) : State :=
  withMod { State.reset with parts := [(0, part0)], tlb := pageAt 0 0x02000000000001F1 0x8000, cores := [(0, k)] }

/-- A task record of the module's task entry; `id` names its launch. -/
def task0 (id : W32) : TaskRec := ⟨id, 0, false, false, 22, 11, 0x7D0, none⟩
theorem witness_TaskSpawns : ctxOf st0 = some ctx0 ∧ ctx0.slot.car = none ∧ openBelow st0 ctx0 (portBound st0 ctx0) = false
    ∧ (coreOf st0 0).dqbase = (coreOf st0 0).dqlim ∧ evalSlot.car.isSome = true
    ∧ bypasses { Core.reset with dqlim := 64 } (task0 0) = false ∧ dequeRoom { Core.reset with dqlim := 64 } = true
    ∧ dequeRoom { Core.reset with dqlim := 64, dqCount := 2 } = false := by decide +kernel
/-- A deque of two records in the first role-0 tile takes two lanes' records, none is left. -/
theorem witness_TaskSpawns_deque : (pushLanes (coreState { Core.reset with dqlim := 64 }) 0 [(0, task0 0), (1, task0 0)]).2 = []
    ∧ (pushLanes (coreState { Core.reset with dqlim := 64 }) 0 [(0, task0 0), (1, task0 0), (2, task0 0)]).2 = [2] := by decide +kernel
theorem test_spawn_stages : next (exec (.spawnTask (rc .b64 0 (.imm 1) (.imm 7) .absent)) st0)
    (fun t => (coreOf t 0).stage.length = 32 && ((coreOf t 0).stage.head?.map (fun q => q.entry)) = some 0x100058) = true := by decide +kernel

theorem witness_BinningSteps_stage : partRuns (coreState { Core.reset with stage := [task0 0] }) (corePart (coreState { Core.reset with stage := [task0 0] }) 0) = true
    ∧ stageBlocked { Core.reset with stage := [task0 0] } = false
    ∧ staleRecord (coreState { Core.reset with stage := [task0 9] }) 0 (task0 9) = true
    ∧ staleRecord (coreState { Core.reset with stage := [task0 0] }) 0 (task0 0) = false := by decide +kernel
/-- A bin of that record, due at cycle 256. -/
def bin0 (must : Bool) : Bin := ⟨0x7D0, 0, false, [task0 0], 256, must⟩
def binState (must : Bool) : State := coreState { Core.reset with bins := [bin0 must], cycle := 256 }
theorem witness_BinningSteps_deque :
    (let s := coreState { Core.reset with dqlim := 64, dqCount := 1, tileMem := memWrite [] 24 (leBytes 8 (9 * 256)) }
     stageBlocked (coreOf s 0) = false ∧ (coreOf s 0).dqCount ≠ 0
      ∧ staleRecord s 0 (taskParse (placeRead s (dequePlace (coreOf s 0) 0 0) 32)) = true) := by decide +kernel
theorem witness_BinningSteps_bins : (coreOf (binState false) 0).bins[0]? = some (bin0 false) ∧ (bin0 false).deadline ≤ 256
    ∧ (coreOf (binState true) 0).bins[0]? = some (bin0 true) ∧ (bin0 true).must = true
    ∧ binHere (binState true) 0 (bin0 true) = true
    ∧ (let m := markBlocks (binState true) (corePart (binState true) 0)
      ((findEntry m (corePart (binState true) 0) 0x7D0 2).map (fun p => p.2.window)) = some 16
        ∧ coupledMode (coreOf m 0) = false ∧ ordinarySpot m 0 16 0 = some ⟨0, 0, 0⟩) := by decide +kernel
theorem test_bin_launches : next (exec (.binTimerExpiry 0 0) (binState false)) (fun t =>
    match waveOf t 0 0 with
    | some v => v.kind = .task && v.slot0.mask = 1 && keepGet (coreOf t 0) v 0 0 = 11 && keepGet (coreOf t 0) v 1 0 = 22
    | none => false) = true := by decide +kernel

/-- Core 1 has two records of launch 9, of which core 0 holds a block. -/
def launch9 : Launch :=
  { id := 9, part := 0, kernel := 0x7C0, modl := 0x600, entry := 0, table := [], desc := ⟨1, 1, 16, 0, 1, 0, 0, 0xFFFF, 0, 4, 0, false, []⟩,
    nblk := 2, args := [], inputs := [], prio := 0, splice := false, pred := none, adopt := none, done := 0, cl0 := 0, ncl := 208,
    secure := false, world := false, st := .ready, age := 0, nextBlock := 0, retired := 0, waited := 0, record := 0, cause := 0 }
def stealState : State :=
  { coreState { Core.reset with blocks := [⟨1, 9, 0, 0x600, 0, 0, 0, 4, [], []⟩] } with
    cores := [(0, { Core.reset with blocks := [⟨1, 9, 0, 0x600, 0, 0, 0, 4, [], []⟩] }),
              (1, { Core.reset with dqlim := 64, dqCount := 2, tileMem := memWrite (memWrite [] 24 (leBytes 8 (9 * 256))) 56 (leBytes 8 (9 * 256)) })],
    launches := [launch9] }
theorem witness_RecordsMove_steal : (0 : Nat) ≠ 1 ∧ corePart stealState 1 = corePart stealState 0 ∧ partRuns stealState (corePart stealState 0) = true
    ∧ coupledMode (coreOf stealState 0) = false ∧ (coreOf stealState 0).dqCount = 0 ∧ (coreOf stealState 0).bins = []
    ∧ (coreOf stealState 0).stage = [] ∧ freeSlots (coreOf stealState 0) (reserveOf stealState 0) ≠ []
    ∧ (stealFrom stealState 0 1).length = 2 := by decide +kernel
/-- A held bin of one evaluator record on core 0; the partition reserves a slot on core 15. -/
def evalBin : Bin := ⟨0x7E0, 0, true, [⟨0, 0, true, true, 0, 0x408, 0x7E0, some ⟨0x408, 0x408, 0, 7, 1, [0x408]⟩⟩], 0, true⟩
def moveState : State := { coreState { Core.reset with bins := [evalBin] } with parts := [(0, { part0 with rsv := 1 })] }
theorem witness_RecordsMove_move : (coreOf moveState 0).bins[0]? = some evalBin ∧ evalBin.eval = true ∧ evalBin.must = true
    ∧ 15 < Config.numCores ∧ corePart moveState 15 = corePart moveState 0 ∧ coupledMode (coreOf moveState 15) = false
    ∧ (reserveSpot moveState 15).isSome = true
    ∧ okAnd (readEntry false moveState (corePart moveState 0) true 1) (fun _ m => field m.l.kspec 8 1 % 4 ≠ 2) = true := by decide +kernel
/-- The same record in the stage. -/
theorem witness_RecordsMove_stage : (heldRecord { Core.reset with stage := [task0 0] ++ evalBin.recs } 9).map (fun p => p.1) = evalBin.recs.head?
    ∧ heldRecord { Core.reset with stage := [task0 0] } 8 = none ∧ ((heldRecord (coreOf moveState 0) 0).map (fun p => p.1)) = evalBin.recs.head?
    ∧ (evalBin.recs.head?.map (fun t => t.ev.map (fun e => e.evix))) = some (some 1) := by decide +kernel
theorem test_record_moves : next (exec (.evalRecordMove 0 0 15) moveState)
    (fun t => (coreOf t 0).bins = [] && (coreOf t 15).stage = evalBin.recs) = true := by decide +kernel

/-! ## Witnesses: the engine, the tender, the matrix array -/

/-- Core 0 with one scratchpad tile, a wave that asks for a SEND, a COPY or a PUBL, and memory. -/
def scrCore : Core := { Core.reset with tiles := 0 }
def engState (ls : List Word) : State := withMem (put wave0 scrCore { issue0 with lits := ls })
/-- The commands of the lanes that ask, and the state after their checks; none where one fails. -/
def formed (form : State → Ctx → Nat → State × Except Fail Cmd) (s : State) (ls : List Nat) : Option (State × List Cmd) :=
  let r := formAll form ctx0 s ls
  let cs := r.2.filterMap (fun e => match e with
    | .ok c => some c
    | .error _ => none)
  if cs.length = r.2.length && cs ≠ [] then some (r.1, cs) else none
/-- Operands from literals: A, B, C. -/
def rec3 (fn : BitVec 5) : Record := rc .b64 fn (.lit 0) (.lit 1) (.lit 2)
/-- SEND of 16 bytes to core 0's scratchpad offset 0x100; COPY of 16 bytes of entry 1 in; PUBL of entry 4. -/
def sendLits : List Word := [0x8100000000000100, 0x0000001000000000, 63]
def copyLits : List Word := [0x0000000000000101, 0x0000001000000000, 63]
def publLits : List Word := [0x0000000000000401, 63, 0x301]
theorem witness_CommandsIssue_send : (commandLanes (engState sendLits) ctx0 (rec3 0)).1 = ctx0.lanes.take 1
    ∧ ((formed (sendCmd (rec3 0)) (engState sendLits) [0]).map (fun p => engineRoom (coreOf (engState sendLits) 0) p.2)) = some true := by decide +kernel
theorem witness_CommandsIssue_copy : ((formed (copyCmd (rec3 0)) (engState copyLits) [0]).map (fun p => engineRoom (coreOf (engState copyLits) 0) p.2)) = some true
    ∧ ((formed (copyCmd (rec3 0)) (engState copyLits) [0]).map (fun p => engineRoom { scrCore with tagCnt := [(63, 255)] } p.2)) = some false := by decide +kernel
theorem witness_CommandsIssue_publ : openBelow (engState publLits) ctx0 (portBound (engState publLits) ctx0) = false
    ∧ (formed (publCmd (rec3 0)) (engState publLits) [0]).isSome = true
    ∧ [Opnd.lit 0, Opnd.lit 1, Opnd.lit 2].all (fun o => o = Opnd.absent || uniformValued (engState publLits) o) = true := by decide +kernel
theorem test_copy_issues : next (exec (.copy (rec3 0)) (engState copyLits))
    (fun t => (coreOf t 0).cmds.length = 1 && !(coreOf t 0).tagBits.getLsbD 63 && smGet 0 (coreOf t 0).tagCnt 63 = 1) = true := by decide +kernel

/-- A command of core 0 with tag 63. -/
def cmd0 (kind : CmdKind) (stage : CmdStage) (len : Nat) : Cmd :=
  { id := 3, kind := kind, stage := stage, tag := 63, role := 0, off := 0, len := len, locOff := none, latch := none, roff := 0,
    shadow := false, publ := false, counted := false, ring := none, ben := false, bent := 0, ev := false, owner := 0, dstCore := 1,
    dstOff := 0, stream := 7, slot := 0, moved := len, carry := [], written := len, lowHalf := false, status := 0, fault := 0, secure := false, part := 0, pubOut := none, told := [] }
/-- Entry 5's OLDREF is 1: a write of its shadow waits at issue. -/
theorem witness_CommandsIssue_shadow : shadowHeld (engState copyLits)
    [{ cmd0 .copyOut .moving 16 with latch := some (parseEntry 5 (memRead mem0 320 64)).l, shadow := true }] = some 5 := by decide +kernel
def cmdState (q : Cmd) : State :=
  { withMem (put wave0 { scrCore with cmds := [q], tagCnt := [(63, 1)] } issue0) with
    cores := [(0, { scrCore with cmds := [q], tagCnt := [(63, 1)] }), (1, { scrCore with streams := [(7, some { stream7 .free .free with base := 0x8100001000000100 })] })] }
theorem witness_TagsCountCommands : (cmd0 .send .travel 16).tag < 64 ∧ (cmd0 .send .travel 16).len ≠ 0 ∧ (cmd0 .publ .publish 0).kind = .publ
    ∧ (cmd0 .send .travel 16).latch = none ∧ smGet 0 (coreOf (cmdState (cmd0 .send .travel 16)) 0).tagCnt 63 = 1
    ∧ 1 < smGet 0 { scrCore with tagCnt := [(63, 255)] }.tagCnt 63 := by decide +kernel
theorem witness_EngineCompletes : cmdOf (cmdState (cmd0 .send .done 16)) 0 3 = some (cmd0 .send .done 16)
    ∧ partRuns (cmdState (cmd0 .send .done 16)) 0 = true
    ∧ cmdOf (cmdState { cmd0 .copyOut .moving 16 with publ := true }) 0 3 = some { cmd0 .copyOut .moving 16 with publ := true }
    ∧ cmdOf (cmdState (cmd0 .copyIn .moving 16)) 0 3 = some (cmd0 .copyIn .moving 16) ∧ (cmd0 .copyIn .moving 16).publ = false := by decide +kernel
theorem test_engine_completes : next (exec (.engineComplete 0 3 .clean) (cmdState (cmd0 .send .moving 16)))
    (fun t => (coreOf t 0).cmds = [] && (coreOf t 0).tagBits.getLsbD 63) = true := by decide +kernel
theorem witness_SendArrives : cmdOf (cmdState (cmd0 .send .travel 262144)) 0 3 = some (cmd0 .send .travel 262144)
    ∧ (cmd0 .send .travel 262144).dstOff + 262144 ≤ roleSize (coreOf (cmdState (cmd0 .send .travel 262144)) 1) 0
    ∧ streamAt (coreOf (cmdState { cmd0 .sendStrm .travel 32 with stream := 6 }) 1) 6 = none
    ∧ ((streamAt (coreOf (cmdState (cmd0 .sendStrm .travel 32)) 1) 7).map (fun t =>
        decide (32 ≤ t.slotsz) && t.waiting = [] && t.slots.getD t.widx .full = .free)) = some true := by decide +kernel
theorem test_send_reserves : next (exec (.sendArrive 0 3) (cmdState (cmd0 .sendStrm .travel 32)))
    (fun t => ((streamAt (coreOf t 1) 7).map (fun q => q.slots)) = some [.reserved, .free]) = true := by decide +kernel

/-- A publish of entry 4 (OLDREF 0) or 5 (OLDREF 1), latched as they stand. -/
def latchOf (i : Nat) : Latch := (parseEntry i (memRead mem0 (64 * i) 64)).l
def publCmd0 (i : Nat) (stage : CmdStage) : Cmd := { cmd0 .publ stage 0 with latch := some (latchOf i), publ := true }
def publOk (i old : Nat) : Bool :=
  let s := cmdState (publCmd0 i .publish)
  okAnd (readEntry false { s with cur := { s.cur with who := .engine 0 } } 0 false i) (fun t e => (xlatCheck t 0 false .store (entryAddr s 0 i)).isOk && e.oldref = old
    && e.l.pubver = (latchOf i).pubver && e.l.gen = (latchOf i).gen && e.l.kind = (latchOf i).kind)
  && !earlierShadow s (publCmd0 i .publish) i && partRuns s 0 && cmdOf s 0 3 = some (publCmd0 i .publish)
/-- Slot 0 waits at the issue of a shadow write of an entry. -/
def shadowState (i : Nat) : State := withMem (put { wave0 with slot0 := { wave0.slot0 with st := .stalled, wait := .shadow i } } scrCore issue0)
theorem witness_PublishExchanges : publOk 4 0 = true ∧ publOk 5 1 = true
    ∧ ((waveOf (shadowState 5) 0 0).map (fun v => decide (v.slot0.wait = .shadow 5) && !v.halted && !v.parked && partRuns (shadowState 5) v.part)) = some true
    ∧ okAnd (readEntry true (shadowState 4) 0 false 4) (fun _ e => e.oldref = 0) = true
    ∧ okAnd (readEntry true (shadowState 5) 0 false 5) (fun _ e => e.oldref = 1) = true := by decide +kernel
theorem test_publish : next (exec (.publish 0 3) (cmdState (publCmd0 4 .publish)))
    (fun t => devNat t 256 8 = 0x500 && devNat t (256 + 0x10) 8 = 0x400 && devNat t (256 + 0x18) 4 = 0 && devNat t (256 + 0x1C) 4 = 2
      && devNat t (256 + 0x20) 4 = 6) = true := by decide +kernel
/-- A core whose counts are of an earlier window than its clock's. -/
def winCore : Core := { Core.reset with cycle := 2050, rlWin := 1, rlSf := 7, rlMac := 9 }
theorem witness_LimiterWindowEnds : winCore.cycle / 1024 ≠ winCore.rlWin ∧ Core.reset.cycle / 1024 = Core.reset.rlWin := by decide
theorem test_limiter_window : next (exec (.rlimWindow 0) (put wave0 winCore issue0))
    (fun t => (coreOf t 0).rlSf = 0 && (coreOf t 0).rlMac = 0 && (coreOf t 0).rlWin = 2 && (coreOf t 0).cycle = 2050) = true := by decide +kernel

/-- A stream at record 1 of three, on a core with tiles of the X and Y buffers, and its block with group 4. -/
def stream0 (ls : List Word) : Tender := ⟨1, 0, [0, 0, 0], ls, none, 1, 0, 0, 0, .ready, 0⟩
def block1 : PlacedBlock := ⟨1, 9, 0, 0x600, 0, 4, 1, 8, [0], [0]⟩
/-- Tile 0 and 1 of role 4, tile 2 of role 5, tile 3 of role 3. -/
def tendCore (ls : List Word) (g : Group) : Core :=
  { Core.reset with tiles := 0b011101100100, tenders := [stream0 ls], active := some 0, blocks := [block1], groups := [(4, g)] }
def tendState (ls : List Word) (g : Group) : State :=
  { State.reset with cores := [(0, tendCore ls g)], cur := { Issue.reset with who := .tender 0 0, recs := [0, 0, 0], lits := ls } }
theorem witness_MatrixRecords_mma : tenderOf (tendState [] Group.reset) = some (0, 0, stream0 [])
    ∧ MatReady (tendState [] Group.reset) 0 (stream0 []) (rc .f32 0 (.imm 0) (.imm 0) .absent) 128
    ∧ MatReady (tendState [] Group.reset) 0 (stream0 []) (rc .e4m3 0 (.imm 0) (.imm 0) .absent) 128 := by
  unfold MatReady RangeOk; decide +kernel
theorem witness_MatrixRecords_mmas :
    (let s := tendState [] Group.reset
     let r := rc .f16 0 (.imm 0) (.imm 0) (.imm 0x800)
     (matOps s 0 (stream0 []) r).mo + 16 ≤ roleSize (coreOf s 0) 4
      ∧ (liveVectors (matShape .f16 0) (leNat (roleRead (coreOf s 0) 4 0x800 16))).length = 0
      ∧ RangeOk (coreOf s 0) 4 (strays (tenderOpnd s 0 (stream0 []) r.c) 0x3FFFF) 0x800 16 32
      ∧ MatReady s 0 (stream0 []) r ((64 * 0 + vectorCount (matShape .f16 0) - 1) / vectorCount (matShape .f16 0))) := by
  unfold MatReady RangeOk; decide +kernel
theorem witness_MatrixRecords_rest : strays 0xFFFFFF 0xFFFFFF = false ∧ strays 0x3FFFF0003FFFF 0x3FFFF0003FFFF = false
    ∧ RangeOk (tendCore [] Group.reset) 5 (strays 0x2000 0x3FFFF) 0x2000 8192 32 ∧ RangeOk (tendCore [] Group.reset) 5 false 0x3000 4096 32
    ∧ (tendCore [] Group.reset).tilePoison = [] := by unfold RangeOk; decide +kernel
theorem test_mtile : next (exec (.mtile (rc .b32 0 (.lit 0) (.lit 1) .absent)) (tendState [0x123456, 0x2000000040] Group.reset))
    (fun t => (coreOf t 0).tenders = [{ stream0 [0x123456, 0x2000000040] with qmap := 0x123456, inc := 0x2000000040, pc := 2 }]) = true := by decide +kernel
theorem test_mma_stops_misaligned : next (exec (.mma (rc .f32 0 (.imm 4) (.imm 0) .absent)) (tendState [] Group.reset))
    (fun t => (coreOf t 0).active.isNone && ((coreOf t 0).tenders.map (fun q => q.st)) = [.ended]) = true := by decide +kernel

/-- Pass count 2 and RST 0 of the tender's LOOP. -/
theorem witness_TenderControl_loop : strays 2 0xFFFFFFF = false ∧ (2 : Word).toNat / 2 ^ 16 % 2 ^ 12 < (stream0 [2]).pc
    ∧ (stream0 [2]).p + 1 < max 1 ((2 : Word).toNat % 2 ^ 16) ∧ max 1 ((0 : Word).toNat % 2 ^ 16) ≤ (stream0 [0]).p + 1
    ∧ tenderOpnd (tendState [2] Group.reset) 0 (stream0 [2]) (.lit 0) = 2 := by decide +kernel
theorem test_tender_loop : next (exec (.tenderLoop (rc .b32 0 (.imm 0) (.lit 0) .absent)) (tendState [2] Group.reset))
    (fun t => ((coreOf t 0).tenders.map (fun q => (q.pc, q.p))) = [(0, 1)]) = true := by decide +kernel
def meet (n e p : Nat) : Group := { Group.reset with owner := 1, members := 1, tm := true, arrived := n, expect := e, pending := p }
theorem witness_TenderControl_meet : blockOfTender (tendCore [] (meet 0 2 0)) (stream0 []) = some block1
    ∧ (groupOf (tendCore [] (meet 0 2 0)) 4).arrived + 1 < 2 ∧ (groupOf (tendCore [] (meet 2 2 1)) 4).expect ≤ 2
    ∧ (groupOf (tendCore [] (meet 1 2 0)) 4).arrived + 1 = 2 ∧ (meet 1 2 0).held = [] ∧ { tendCore [] Group.reset with active := none }.active = none := by
  decide +kernel
theorem test_tmeet_completes : next (exec (.tmeet (rc .b32 0 (.imm 0) .absent .absent)) (tendState [] (meet 1 2 0)))
    (fun t => (groupOf (coreOf t 0) 4).phase && (groupOf (coreOf t 0) 4).arrived = 0 && (coreOf t 0).active = some 0) = true := by decide +kernel
theorem test_tender_switch : next (exec (.tenderSwitch rc0) (let s := tendState [] Group.reset
      { s with cores := [(0, { tendCore [] Group.reset with active := none, tenders := [{ stream0 [] with since := 5 }, { stream0 [] with since := 4 }] })] }))
    (fun t => (coreOf t 0).active = some 1) = true := by decide +kernel

/-- The W buffer is tile 3, whose last 512 bytes are read. -/
def ldqState : State := put wave0 { Core.reset with tiles := 0b011000000000 } { issue0 with lits := [0x3E00, 0] }
theorem witness_QuarterLoads : ctxOf ldqState = some ctx0 ∧ (3 : BitVec 8).toNat + 5 ≤ ctx0.wave.nkeep ∧ 2 * ctx0.wave.nkeep ≤ ctx0.wave.window
    ∧ (opA ldqState ctx0 (rc .f16 0 (.lit 0) (.keep 3) (.lit 1)) .n32 0).toNat = 0x3E00
    ∧ 0x3E00 + ldqBytes (rc .f16 0 (.lit 0) (.keep 3) (.lit 1)) ≤ roleSize (coreOf ldqState 0) 3 ∧ 0 + 256 ≤ roleSize (coreOf ldqState 0) 3
    ∧ (coreOf ldqState 0).tilePoison = [] := by decide +kernel

/-! ## Witnesses: exceptions, system records -/

/-- Pages 0 to 2 mapped to frames 0 to 2: a wave's area and frame. -/
def withPages (s : State) : State :=
  { s with tlb := pageAt 0 0x02000000000001F1 0x8000 ++ pageAt 1 0x02000000000011F1 0x8008 ++ pageAt 2 0x02000000000021F1 0x8010 }
/-- A wave whose module's header names handler block 3; record 2 of block 0 has a fetch marker. -/
def modTable : List BlockInfo :=
  [⟨0x7C0, 2, 0, 0, 0xFFFF, 0, 0x7C0, none⟩, ⟨0x7D0, 2, 0, 0, 0xFFFF, 0, 0x7C0, none⟩, ⟨0x7E0, 2, 0, 0, 0xFFFF, 0, 0x7C0, none⟩,
    ⟨0x7F0, 2, 0, 0, 0xFFFF, 0, 0x7C0, some (parseDesc (modDesc 4 0) [])⟩]
def trapWave : Wave := { wave0 with modl := 0x600, table := modTable, privBase := 0x40000000 }
def trapState0 : State := withPages (withMod (put trapWave Core.reset { issue0 with nrec := 2, recs := [0, 0] }))
def trapCtx : Ctx := ctx trapWave issue0
/-- The entry of its block with a marker at record 0. -/
def markedEntry : SEntry :=
  ⟨slotKey trapState0 0 trapWave 0 0x7C0, 0, 0, 0x600, 0, 0, 0xFFFF, 2, [0, 0], [], some ⟨0, 5, 0x7C0⟩, [], [], false, none, []⟩
def markedState : State := { trapState0 with dies := [{ Die.reset 1000 with sinter := [markedEntry] }, Die.reset 4000, Die.reset 4000, Die.reset 4000] }
/-- The wave at record 0 of block 0 of that module. -/
def markedWave : Wave := { trapWave with slot0 := { trapWave.slot0 with baddr := 0x7C0 } }
theorem witness_StopsHaltTheWave : ctxOf trapState0 = some trapCtx ∧ trapState0.cur.replay = false ∧ trapCtx.slot.st = .eligible
    ∧ trapWave.slot0.car = none ∧ trapWave.slot1.car = none ∧ waveAccs trapState0 0 0 trapWave.uid = []
    ∧ trapWave.slot0.wait = .none ∧ trapWave.slot1.wait = .none ∧ trapCtx.slot.dieAt = none
    ∧ trapCtx.slot.rcd + 1 < blockRecs trapWave trapCtx.slot.blk := by decide +kernel
theorem witness_Settled : Settled trapState0 trapCtx := by
  refine ⟨by decide +kernel, by decide +kernel, by decide +kernel, fun x => ?_⟩
  have h : (slotOf trapCtx.wave x).wait = .none := by
    unfold slotOf; split <;> rfl
  rw [h]
  exact ⟨fun _ _ => by simp, fun _ => by simp, fun _ => by simp⟩
theorem witness_StopsHaltTheWave_marker : slotEntry markedState 0 markedWave markedWave.slot0 = some markedEntry
    ∧ markedEntry.marker = some ⟨0, 5, 0x7C0⟩ := by decide +kernel
theorem test_trap : next (exec (.trap rc0) trapState0) (fun t => (coreOf t 0).handlers = [0] &&
    (match waveOf t 0 0 with
      | some v => v.halted && (v.stop.map (fun q => q.cause)) = some causeSoftTrap && v.slot0.rcd = 0
      | none => false)) = true := by decide +kernel
theorem test_brk_no_handler : next (exec (.brk rc0) (put { wave0 with privBase := 0x40000000 } Core.reset issue0))
    (fun t => (waveOf t 0 0).isNone) = true := by decide +kernel

/-- A wave that is HALTED with a stop. -/
def haltedBy (kind : WKind) (stop : Nat) : Wave :=
  { trapWave with privBase := 0, kind := kind, halted := true, stop := some ⟨causeSoftTrap, stop, 0, false, 0, 0, 0xFFFFFFFF, 0⟩ }
def haltedState (v : Wave) : State := withPages (withMod (put v { Core.reset with handlers := [0] } Issue.reset))
theorem witness_StopDelivery : ((haltedBy .kernel 1).stop.map (fun q => q.stop)) = some 1 ∧ (haltedBy .kernel 0).kind ≠ .handler
    ∧ (let m := handlerReads (haltedState (haltedBy .kernel 0)) 0 (haltedBy .kernel 0)
      (handlerEntry m 0 (haltedBy .kernel 0)).isSome = true)
    ∧ (let m := handlerReads st0 0 wave0
      handlerEntry m 0 wave0 = none ∧ waveOf m 0 0 = some wave0
        ∧ waveOf (logEvent m 4 causeSoftTrap 0 0 0 0 noStage) 0 0 = some wave0)
    ∧ (haltedBy .handler 2).kind = .handler
    ∧ (coreOf (haltedState (haltedBy .handler 2)) 0).kcDbgring = 0 ∧ (haltedBy .kernel 0).divMem = 0 := by decide +kernel
theorem witness_FrameHeaderLayout : 3327 < Config.numCores ∧ 15 < 16 ∧ divCount trapWave < 256 ∧ trapWave.launch < 2 ^ 32 ∧ trapWave.waveIdx < 2 ^ 16
    ∧ (headerBytes trapState0 0 0 trapWave ⟨causeSoftTrap, 255, 255, 1, 0xFFFF, 4095, 0, 255, false, false, none, 0, false, false⟩ 255 0).length = 0x400 := by
  decide +kernel
theorem witness_HandlerPlaces : (coreOf (haltedState (haltedBy .kernel 0)) 0).handlers.contains 0 = true ∧ (haltedBy .kernel 0).halted = true
    ∧ coupledMode (coreOf (haltedState (haltedBy .kernel 0)) 0) = false ∧ partRuns (haltedState (haltedBy .kernel 0)) 0 = true
    ∧ ((handlerEntry (haltedState (haltedBy .kernel 0)) 0 (haltedBy .kernel 0)).map (fun p =>
        (p.2.window, (anySpot (haltedState (haltedBy .kernel 0)) 0 p.2.window p.2.groups.length).map (fun sp => sp.wslot)))) = some (16, some 1) := by decide +kernel
theorem test_handler_placed : next (exec (.handlerPlace 0 0) (haltedState (haltedBy .kernel 0))) (fun t =>
    match waveOf t 0 1 with
    | some h => h.kind = .handler && h.slot0.mask = 1 && keepGet (coreOf t 0) h 0 0 = 0x400 && keepGet (coreOf t 0) h 1 0 = 0
    | none => false) = true := by decide +kernel

theorem crc_zeros_0 : (List.replicate 50 (0 : Byte)).foldl crcByte 0xFFFFFFFF = 0x60A4729D := by decide +kernel
theorem crc_zeros_1 : (List.replicate 50 (0 : Byte)).foldl crcByte 0x60A4729D = 0xF8346009 := by decide +kernel
theorem crc_zeros_2 : (List.replicate 50 (0 : Byte)).foldl crcByte 0xF8346009 = 0xA0F5F276 := by decide +kernel
theorem crc_zeros_3 : (List.replicate 50 (0 : Byte)).foldl crcByte 0xA0F5F276 = 0x3498D82D := by decide +kernel
theorem crc_zeros_4 : (List.replicate 50 (0 : Byte)).foldl crcByte 0x3498D82D = 0x5AEAAD47 := by decide +kernel
theorem crc_zeros_5 : (List.replicate 50 (0 : Byte)).foldl crcByte 0x5AEAAD47 = 0x9BAA88EF := by decide +kernel
theorem crc_zeros_6 : (List.replicate 50 (0 : Byte)).foldl crcByte 0x9BAA88EF = 0xF6B3FB3 := by decide +kernel
theorem crc_zeros_7 : (List.replicate 50 (0 : Byte)).foldl crcByte 0xF6B3FB3 = 0x4B11D908 := by decide +kernel
/-- The CRC-32C of 0x190 zero bytes. -/
theorem crc_zeros : crc32c (List.replicate 0x190 0) = 0xB4EE26F7 := by
  have h : List.replicate 0x190 (0 : Byte) = List.replicate 50 0 ++ (List.replicate 50 0 ++ (List.replicate 50 0 ++ (List.replicate 50 0
      ++ (List.replicate 50 0 ++ (List.replicate 50 0 ++ (List.replicate 50 0 ++ List.replicate 50 0)))))) := by decide +kernel
  rw [h]
  unfold crc32c
  simp only [List.foldl_append, crc_zeros_0, crc_zeros_1, crc_zeros_2, crc_zeros_3, crc_zeros_4, crc_zeros_5, crc_zeros_6, crc_zeros_7]
  decide
/-- A stopped wave whose frame is zero but for SEAL. -/
def stopped : State := withPages { put (haltedBy .kernel 0) Core.reset Issue.reset with
  dmem := [(0x45C, 0xF7), (0x45D, 0x26), (0x45E, 0xEE), (0x45F, 0xB4)] }
/-- The header of that frame. -/
def sealedHeader : List Byte := List.replicate 0x5C 0 ++ [0xF7, 0x26, 0xEE, 0xB4] ++ List.replicate 0x3A0 0
theorem ok_of_toOption {ε α : Type} {e : Except ε α} {a : α} (h : e.toOption = some a) : e = .ok a := by
  cases e <;> simp_all [Except.toOption]
theorem witness_ReturnResumes_reads : (readVirtual stopped 0 false (frameBase (haltedBy .kernel 0)) 0x400).2.toOption = some sealedHeader
    ∧ (readVirtual (readVirtual stopped 0 false (frameBase (haltedBy .kernel 0)) 0x400).1 0 false 0x1800 0).2.toOption = some []
    ∧ waveOf (readVirtual (readVirtual stopped 0 false 0x400 0x400).1 0 false 0x1800 0).1 0 0 = some (haltedBy .kernel 0)
    ∧ (haltedBy .kernel 0).evals = [] ∧ (haltedBy .kernel 0).divMem = 0 := by decide +kernel
theorem witness_ReturnResumes_good : crc32c (sealedBytes sealedHeader (splitEntries (haltedBy .kernel 0).replay []))
    = BitVec.ofNat 32 (field sealedHeader 0x5C 4) := by
  rw [show sealedBytes sealedHeader (splitEntries (haltedBy .kernel 0).replay []) = List.replicate 0x190 0 by decide +kernel, crc_zeros]
  decide +kernel
/-- With another SEAL the frame is damaged. -/
theorem witness_ReturnResumes_damaged : crc32c (sealedBytes (List.replicate 0x400 0) []) ≠ BitVec.ofNat 32 (field (List.replicate 0x400 0) 0x5C 4) := by
  rw [show sealedBytes (List.replicate 0x400 0) [] = List.replicate 0x190 0 by decide +kernel, crc_zeros]
  decide +kernel
/-- Wave slot 1 issues SYS.tret for the stopped wave of slot 0. -/
def tretState : State :=
  { onCore stopped 0 (fun k => putWave k 1 (some wave0)) with cur := { issue0 with who := .slot 0 1 0, lits := [0] } }
def tretCtx : Ctx := { ctx0 with w := 1 }
theorem witness_ReturnResumes_tret : ctxOf tretState = some tretCtx ∧ tretTarget tretState tretCtx 0 = some (0, haltedBy .kernel 0)
    ∧ openBelow tretState tretCtx (portBound tretState tretCtx) = false
    ∧ frameNames tretState 0 0 (haltedBy .kernel 0) 0 = true ∧ tretTarget tretState tretCtx 0x10000 = none := by decide +kernel
theorem resumed_of {s : State} {c w : Nat} {v : Wave} {hd rp : List Byte} (h1 : waveOf s c w = some v)
    (h2 : (readVirtual s v.part (coreOf s c).world (frameBase v) 0x400).2 = .ok hd)
    (h3 : (readVirtual (readVirtual s v.part (coreOf s c).world (frameBase v) 0x400).1 v.part (coreOf s c).world (frameBase v + 0x1400)
      ((v.replay.map (fun e => replaySize e.opmap)).sum)).2 = .ok rp)
    (h4 : crc32c (sealedBytes hd (splitEntries v.replay rp)) = BitVec.ofNat 32 (field hd 0x5C 4)) : (returnFrom s c w).2 = .resumed := by
  unfold returnFrom
  rw [h1]
  dsimp only
  rw [h3, h2]
  dsimp only
  rw [if_neg (fun h => h h4)]
theorem witness_ReturnResumes_resumed : (returnFrom tretState 0 0).2 = .resumed := by
  refine resumed_of (v := haltedBy .kernel 0) (hd := sealedHeader) (rp := []) (by decide +kernel) (ok_of_toOption (by decide +kernel))
    (ok_of_toOption (by decide +kernel)) ?_
  exact witness_ReturnResumes_good

/-- A partition that may take snapshots; core 0 with stream 7 bound and idle, or busy. -/
def sysState (ls : List Word) (a b : RingSlot) : State :=
  { put wave0 { Core.reset with streams := [(7, some (stream7 a b))] } { issue0 with lits := ls } with parts := [(0, { part0 with snap := 1 })] }
theorem witness_SystemRecords : ctxOf (sysState [] .free .free) = some ctx0 ∧ (partOf (sysState [] .free .free) 0).snap.getLsbD 0 = true
    ∧ (partOf (sysState [] .free .free) 0).snapState ≠ 1 ∧ (sysState [] .free .free).cut = none ∧ (sysState [] .free .free).serial = none
    ∧ (sysState [] .free .free).accs = []
    ∧ openBelow (sysState [] .free .free) ctx0 (portBound (sysState [] .free .free) ctx0) = false
    ∧ streamAt (coreOf (sysState [] .free .free) 0) 7 = some (stream7 .free .free) ∧ (∀ x ∈ (stream7 .free .free).slots, x = .free)
    ∧ (stream7 .free .free).waiting = [] ∧ (∃ x ∈ (stream7 .free .full).slots, x ≠ .free) := by decide +kernel
theorem witness_SnapRecords_waits : (partOf { sysState [] .free .free with parts := [(0, { part0 with snap := 1, snapState := 1 })] } 0).snapState = 1
    ∧ (partOf st0 0).snap.getLsbD 0 = false := by decide +kernel
/-- Entry 6 is a stream of two slots of 32 bytes on core 0. -/
def cfgState (old : Option Stream) : State :=
  { put wave0 { scrCore with streams := [(7, old)] } { issue0 with lits := [0x601] } with
    dmem := memWrite mem0 (6 * 64) (resBytes 0x8100000000000000 0 0 0 0 0 4 (leBytes 4 32 ++ leBytes 2 2)) }
theorem witness_CfgRecords :
    okAnd (resolve (cfgState none) 0 false 1 0x601 4 1 0 0 0x601) (fun _ e => (bindingOf (coreOf (cfgState none) 0) 0 0x601 e.l).isOk) = true
    ∧ okAnd (resolve (cfgState none) 0 false 1 0x301 5 1 0 0 0x301) (fun _ _ => true) = true
    ∧ (∃ x ∈ (stream7 .taken .free).slots, x ≠ .free) := by decide +kernel
theorem test_sys_cfg_binds : next (exec (.sysCfg ⟨true, .b64, 4, .imm 7, .lit 0, .absent⟩) (cfgState none))
    (fun t => valueAt t 0 0 = 0 && streamAt (coreOf t 0) 7 = some ⟨0x601, 0x8100000000000000, 32, [.free, .free], 0, 0, []⟩) = true := by decide +kernel
theorem test_sys_cfg_clamps : next (exec (.sysCfg ⟨true, .b64, 4, .imm 8, .lit 0, .absent⟩) (sysState [1] .free .free))
    (fun t => (coreOf t 0).kcCplq = 4096 && valueAt t 0 0 = 65536) = true := by decide +kernel
theorem test_sys_cfg_busy : next (exec (.sysCfg ⟨true, .b64, 4, .imm 7, .lit 0, .absent⟩) (sysState [0] .full .free))
    (fun t => valueAt t 0 0 = 0x8000000000000005 && (streamAt (coreOf t 0) 7).isSome) = true := by decide +kernel
theorem test_sys_snap : next (exec (.sysSnap ⟨true, .b64, 1, .absent, .absent, .absent⟩) (sysState [] .free .free))
    (fun t => (partOf t 0).snapSeq = 1 && (partOf t 0).snapState = 1 && (slot0At t).wait = .cut && t.cut.isSome) = true := by decide +kernel
theorem test_sys_haltq : next (exec (.sysHaltq ⟨true, .b64, 5, .absent, .absent, .absent⟩) tretState)
    (fun t => ((waveOf t 0 1).map (fun v => (recordValue v 0 0).lo)) = some 1) = true := by decide +kernel

/-- A cut that has marked no slice, all but the last, all. -/
def cutOf (m r : Nat) : Cut := ⟨0, 0, 0, 0, List.range m, List.range r⟩
theorem witness_SnapshotCutCircuit : 255 < Config.numSlices ∧ (cutOf 255 0).marked.contains 255 = false ∧ (cutOf 255 0).marked.length + 1 = Config.numSlices
    ∧ (cutOf 0 0).marked.length + 1 ≠ Config.numSlices ∧ Config.numSlices ≤ (cutOf 256 255).marked.length
    ∧ (cutOf 256 255).released.contains 255 = false := by decide +kernel

/-! ## Witnesses: launches -/

/-- A launch record at 0x900 of the module's kernel: a grid of 2, one argument, no input, class 1, clusters `cl0` and up. -/
def launchBytes9 (cl0 ncl : Nat) : List Byte :=
  leBytes 8 0x7C0 ++ leBytes 4 2 ++ leBytes 2 1 ++ leBytes 1 0 ++ leBytes 1 1 ++ leBytes 8 0x400 ++ leBytes 2 cl0 ++ leBytes 2 ncl
    ++ leBytes 4 0 ++ leBytes 8 0 ++ leBytes 8 0x940 ++ leBytes 16 0 ++ leBytes 8 77
def lnchState (cl0 ncl : Nat) : State :=
  { withMod (memState 0x900) with dmem := memWrite memMod 0x900 (launchBytes9 cl0 ncl) }
def lnchRead (cl0 ncl : Nat) : List (Nat × LaunchRead) := (readLaunches (lnchState cl0 ncl) memCtx (rc .b64 0 (.lit 0) .absent .absent)).2.2
/-- For NCL 0 and for the partition's one cluster. -/
theorem witness_LaunchesAreAccepted : ∀ ncl ∈ [0, 1], (lnchRead 0 ncl).length = 1
    ∧ (readLaunches (lnchState 0 ncl) memCtx (rc .b64 0 (.lit 0) .absent .absent)).2.1 = []
    ∧ memCtx.slot.car = none ∧ openBelow (lnchState 0 ncl) memCtx (portBound (lnchState 0 ncl) memCtx) = false
    ∧ ctxOf (lnchState 0 ncl) = some memCtx ∧ (markBlocks (lnchState 0 ncl) 0).launches = [] ∧ (markBlocks (lnchState 0 ncl) 0).nextLaunch = 1
    ∧ ∀ p ∈ lnchRead 0 ncl, p.2.inputs = [] ∧ p.2.args = [77]
      ∧ ((findEntry (markBlocks (lnchState 0 ncl) 0) 0 (leWord (p.2.raw.take 8)) 1).map (fun q => q.2.window)) = some 16
      ∧ field p.2.raw 0xC 2 ≤ 256 ∧ field p.2.raw 0xE 1 ≤ 32 ∧ field p.2.raw 0xF 1 < 4
      ∧ clustersOk (markBlocks (lnchState 0 ncl) 0) 0 (field p.2.raw 0x18 2) (field p.2.raw 0x1A 2) = true
      ∧ (partOf (markBlocks (lnchState 0 ncl) 0) 0).bothw = false := by decide +kernel
theorem test_launch : next (exec (.spawnLaunch (rc .b64 0 (.lit 0) .absent .absent)) (lnchState 0 1)) (fun t =>
    match t.launches with
    | [l] => l.nblk = 2 && l.args = [77] && l.st = .ready && l.prio = 1 && l.ncl = 1 && l.done = 0x400
    | _ => false) = true := by decide +kernel

/-- The scheduler with one launch, and page 0 a cell page where `cells` is set. -/
def schedState (l : Launch) (k : Core) : State := { coreState k with launches := [l] }
def schedCells (l : Launch) : State :=
  { schedState l Core.reset with tlb := pageAt 0 0x0A000000000001F1 0x8000 }
def waits9 : Launch := { launch9 with st := .waiting, inputs := [0x408], ncl := 1 }
def ready9 : Launch := { launch9 with nblk := 1, ncl := 1, age := 1, desc := { launch9.desc with tiles := 0 } }
theorem witness_LaunchReadiness_value : launchOf (schedState waits9 Core.reset) 9 = some waits9 ∧ waits9.st = .waiting
    ∧ (launchInputs (schedState waits9 Core.reset) waits9 false).2 = .value := by decide +kernel
theorem witness_LaunchReadiness_waits : (launchInputs { schedCells waits9 with tags := [(0x408 / 8, 1)] } waits9 false).2 = .waits := by decide +kernel
theorem witness_LaunchReadiness_failed : launchOf (schedState { waits9 with st := .failed, cause := causeLowerReject } Core.reset) 9
    = some { waits9 with st := .failed, cause := causeLowerReject } := by decide +kernel
theorem test_launch_ready : next (exec (.launchReady 9) (schedState waits9 Core.reset)) (fun t =>
    t.launches.map (fun l => decide (l.st = .ready)) = [true]) = true := by decide +kernel

theorem witness_BlocksArePlaced : launchOf (schedState ready9 Core.reset) 9 = some ready9
    ∧ canPlace (schedState ready9 Core.reset) 0 ready9 = true ∧ reservedElse (schedState ready9 Core.reset) 0 ready9 = false
    ∧ coreTaken (schedState ready9 Core.reset) 0 ready9 = false
    ∧ blockSpots (schedState ready9 Core.reset) 0 ready9 = some [⟨0, 0, 0⟩] := by decide +kernel
theorem test_block_place : next (exec (.blockPlace 9 0) (schedState ready9 Core.reset)) (fun t =>
    (waveOf t 0 0).isSome && t.launches.map (fun l => l.nextBlock) = [1] && (coreOf t 0).blocks.length = 1) = true := by decide +kernel
/-- A launch with another tile configuration, for CONFIG_SWAP; one that has waited, for LAUNCH_RESERVE. -/
def swap9 : Launch := { ready9 with desc := { ready9.desc with tiles := 1 } }
theorem witness_CoresAreTakenForLaunches : wantsReserve { schedState ready9 Core.reset with fabricCycle := 2 ^ 20 } ready9 = true
    ∧ reservable { schedState ready9 Core.reset with fabricCycle := 2 ^ 20 } 0 ready9 = true
    ∧ canHold (schedState swap9 Core.reset) 0 swap9 = true ∧ sameConfig (coreOf (schedState swap9 Core.reset) 0) swap9 = false
    ∧ reservedElse (schedState swap9 Core.reset) 0 swap9 = false ∧ coreTaken (schedState swap9 Core.reset) 0 swap9 = false
    ∧ swap9.splice = false ∧ launchOf (schedState swap9 Core.reset) 9 = some swap9 := by decide +kernel
/-- The same, in the other world. -/
theorem witness_CoresAreTaken_world : (let l := { swap9 with world := true }
    let s := schedState l Core.reset
    canHold s 0 l && !sameConfig (coreOf s 0) l && !reservedElse s 0 l && !coreTaken s 0 l && (coreOf s 0).world ≠ l.world) = true := by decide +kernel
theorem test_config_swap : next (exec (.configSwap 9 0) (schedState swap9 { Core.reset with regs := [(3, 5)], tileMem := [(0, 1)] }))
    (fun t => (coreOf t 0).tiles = 1 && (coreOf t 0).tileMem = [] && (coreOf t 0).regs = [(3, 5)]) = true := by decide +kernel

def block9 : PlacedBlock := ⟨1, 9, 0, 0x600, 0, 0, 0, 4, [], []⟩
def over9 : Launch := { ready9 with nextBlock := 1, retired := 1 }
def adopt9 : Launch := { over9 with adopt := some ⟨0x408, 0x408, 0, 7, 1, [0x408]⟩ }
theorem witness_LaunchesComplete : (coreOf (schedState ready9 { Core.reset with blocks := [block9] }) 0).blocks.find? (fun q => q.uid = block9.uid)
      = some block9 ∧ block9.live = [] ∧ streamEnded { Core.reset with blocks := [block9] } 1 = true
    ∧ launchDone (schedState over9 Core.reset) over9 = true ∧ over9.adopt = none ∧ over9.done = 0
    ∧ launchDone (schedState { over9 with done := 0x400 } Core.reset) { over9 with done := 0x400 } = true
    ∧ launchDone (schedState adopt9 Core.reset) adopt9 = true ∧ launchOf (schedState adopt9 Core.reset) 9 = some adopt9 := by decide +kernel
theorem witness_LaunchesComplete_adopted (r : WakeRec) (h : r.pa = 0x408 ∧ r.inst = 7 ∧ r.slice = 0) :
    wakingOf { schedState adopt9 Core.reset with waking := [r] } 0x408 = some r := by
  simp [wakingOf, h.1]
theorem test_block_retire : next (exec (.blockRetire 0 1) (schedState ready9 { Core.reset with blocks := [block9] }))
    (fun t => (coreOf t 0).blocks = [] && t.launches.map (fun l => l.retired) = [1]) = true := by decide +kernel
theorem test_launch_complete : next (exec (.launchComplete 9) (schedState { over9 with done := 0x400 } Core.reset))
    (fun t => t.launches = [] && memRead t.dmem 0x400 8 = [1, 0, 0, 0, 0, 0, 0, 0]) = true := by decide +kernel

/-- Slot 0 is parked on page 5, slot 1 is not. -/
def parkedWave : Wave := wave2 { at' 0 0 0xFF 0xFFFF with st := .waiting, wait := .walk 5 3 } Slot.reset []
theorem witness_WalksComplete : walkWanted (put parkedWave Core.reset Issue.reset) 0 (pageOf 0x5123) = true
    ∧ waveOf (put parkedWave Core.reset Issue.reset) 0 0 = some parkedWave ∧ parkedWave.part = 0 ∧ pageOf 0x5123 = 5
    ∧ (slotOf parkedWave 0).wait = .walk 5 3 ∧ (slotOf parkedWave 1).wait = .none := by decide +kernel

/-! ## Witnesses: coupled regions -/

/-- COUPLE; KEEP k1 from k0; UNCPL. -/
def cplRecs : List Word := [0xB800000000000000, (encode (.keep (rc .b32 0 (.keep 1) (.keep 0) .absent))).getD 0, 0xBA00000000000000]
/-- A module at 0x600 whose block 0 is a kernel entry and whose block 1 is that region. -/
def cplModule : List Byte :=
  leBytes 8 0 ++ leBytes 4 2 ++ leBytes 4 0 ++ leBytes 4 0x40 ++ leBytes 4 0 ++ leBytes 4 0x200 ++ leBytes 2 0xFFFF ++ leBytes 34 0
    ++ (leBytes 4 0x1C0 ++ leBytes 2 2 ++ leBytes 2 0 ++ leBytes 2 0xFFFF ++ leBytes 2 0 ++ leBytes 4 0x1E8 ++ leBytes 4 0xC0 ++ leBytes 12 0)
    ++ (leBytes 4 0x1D0 ++ leBytes 2 3 ++ leBytes 1 2 ++ leBytes 1 1 ++ leBytes 2 0xFFFF ++ leBytes 2 0 ++ leBytes 4 0x1E8 ++ leBytes 16 0)
    ++ leBytes 64 0 ++ leBytes 256 0 ++ leBytes 16 0 ++ cplRecs.flatMap (fun w => leBytes 8 w.toNat)
def cplTable : List BlockInfo := [⟨0x7C0, 2, 0, 0, 0xFFFF, 0, 0x7E8, none⟩, ⟨0x7D0, 3, 2, 1, 0xFFFF, 0, 0x7E8, none⟩]
/-- A wave at record 0 of the region with four lanes. -/
def cplWave (t : Slot) : Wave := { wave2 t Slot.reset [] with modl := 0x600, table := cplTable, window := 32, nkeep := 4 }
def cplSlot : Slot := { at' 1 0 0xF 0xFFFF with baddr := 0x7D0 }
def cplCtx : Ctx := ctx (cplWave cplSlot) { issue0 with lanes := 0xF }
def cplState (k : Core) : State :=
  { put (cplWave cplSlot) k { issue0 with lanes := 0xF, kind := 2, recs := cplRecs } with
    dmem := memWrite mem0 0x600 cplModule, modules := [⟨0, 0x600, 0, 0x40, cplTable, [], []⟩] }
/-- A head and a write-back station, and the coupling of keep slot 0 between them. -/
def cplPlace : Placement := ⟨1, 1, [⟨0, 0, .head, []⟩, ⟨1, 0, .writeBack, [1]⟩], [⟨0, 1, 0, .keep 0, false⟩]⟩
def cplEntry (failed : Bool) : SEntry :=
  ⟨pairKey (cplState Core.reset) 0 (cplWave cplSlot) cplSlot 1 4, 0, 0, 0x600, 1, 2, 0xFFFF, 3, cplRecs, [], none, [], [], failed,
    if failed then none else some cplPlace, []⟩
def withEntry (s : State) (e : SEntry) : State :=
  { s with dies := [{ Die.reset 1000 with sinter := [e] }, Die.reset 4000, Die.reset 4000, Die.reset 4000] }
/-- The region of slot 0 at a state, running from cycle 0. -/
def cplRegion (st : RegionSt) (gate : Gate) : Region :=
  { newRegion 0 0 cplSlot (cplEntry false) cplPlace with st := st, gate := gate }
def regionState (r : Region) (cycle : Nat) : State :=
  let s := cplState { Core.reset with region := some r, cycle := cycle }
  onSlotOf s 0 0 0 (fun t => { t with st := .stalled, wait := .region })

theorem witness_CoupleAndUncouple : ctxOf (cplState Core.reset) = some cplCtx ∧ cplCtx.wave.divMem = 0 ∧ cplCtx.slot.mask ≠ 0
    ∧ coupleHeld (coreOf (cplState Core.reset) 0) 0 0 = false ∧ (slotOf cplCtx.wave 1).st = .empty ∧ holdsPath cplCtx.wave = false
    ∧ pcComparatorOn (coreOf (cplState Core.reset) 0) 0x600 0 1 = false ∧ cplCtx.slot.simt = false
    ∧ pairWidths cplCtx.wave 1 cplCtx.lanes.length = [1]
    ∧ pairFound (cplState Core.reset) 0 cplCtx.wave cplCtx.slot cplCtx.lanes.length 1 = none
    ∧ pairFound (withEntry (cplState Core.reset) (cplEntry false)) 0 cplCtx.wave cplCtx.slot cplCtx.lanes.length 1 = some (cplEntry false)
    ∧ (cplEntry false).failed = false ∧ (cplEntry false).placement = some cplPlace ∧ (cplEntry true).failed = true
    ∧ pairFound (withEntry (cplState Core.reset) (cplEntry true)) 0 cplCtx.wave cplCtx.slot cplCtx.lanes.length 1 = some (cplEntry true)
    ∧ coupleHeld { Core.reset with region := some { cplRegion .running .none with wslot := 3 } } 0 0 = true := by decide +kernel
theorem witness_CoupleAndUncouple_simt : (slotOf { cplWave cplSlot with slot1 := at' 0 0 0xF0 0xFFFF } 1).st ≠ .empty
    ∧ ctxOf (stW (cplWave { cplSlot with simt := true })) = some (ctxW (cplWave { cplSlot with simt := true }))
    ∧ ((cplSlot.mask = 0) = False) ∧ { cplSlot with mask := 0, held := 0xF }.held ≠ 0 := by decide +kernel
theorem test_couple_places : next (exec (.couple rc0) (cplState Core.reset)) (fun t =>
    (coreOf t 0).region.map (fun r => decide (r.st = .placing)) = some true && (slot0At t).wait = .region && (slot0At t).rcd = 0) = true := by decide +kernel
theorem test_uncpl : next (exec (.uncpl rc0) (stW (cplWave { cplSlot with mask := 1, held := 0xE, rcd := 2, simt := true })))
    (fun t => (slot0At t).mask = 0xF && (slot0At t).held = 0 && (slot0At t).blk = 2) = true := by decide +kernel

/-- The region while it is placed: the placement is one of the region. -/
def placingState : State := regionState (placingRegion 0 0 cplSlot 0) 0
theorem witness_RegionSteps_placing : regionOf placingState 0 = some (placingRegion 0 0 cplSlot 0)
    ∧ (placingRegion 0 0 cplSlot 0).st = .placing
    ∧ ((waveOf placingState 0 0).bind (fun v => (placedEntry placingState 0 v (slotOf v 0) cplPlace).map (fun q =>
        !v.halted && q.2.recs = cplRecs && decide (3 = blockRecs v (slotOf v 0).blk)))) = some true
    ∧ ((waveOf placingState 0 0).map (fun v => pairWidths v (slotOf v 0).blk 4)) = some [1] ∧ cplPlace.width = 1
    ∧ ((waveOf placingState 0 0).map (fun v => (failPairs false placingState 0 v (slotOf v 0) 4 []).isSome
        && (failPairs false placingState 0 v (slotOf v 0) 4 [1]).isSome)) = some true := by decide +kernel
theorem witness_RegionSteps_running : regionOf (regionState (cplRegion .parking .none) 0) 0 = some (cplRegion .parking .none)
    ∧ parkingBusy (regionState (cplRegion .parking .none) 0) 0 0 = false
    ∧ parkingBusy { regionState (cplRegion .parking .none) 0 with accs := [{ st1 with wslot := 3 }] } 0 0 = true
    ∧ (cplRegion .running .none).asked = []
    ∧ (match tryFire (regionState (cplRegion .running .none) 0) 0 0 with
        | .fired _ => true
        | _ => false) = true
    ∧ (0 : Nat) < (cplRegion .running .none).stations.length ∧ roleIn (cplRegion .running .none) 0 = some .head
    ∧ inputsOf (cplRegion .running .none) 0 = [] ∧ (cplRegion .running .none).ended.contains 0 = false
    ∧ (cplRegion .running .none).injected.getD (replIn (cplRegion .running .none) 0) 0 < channelCount (cplRegion .running .none) 0
    ∧ (∀ p ∈ outputsOf (cplRegion .running .none) 0, couplingRoom (cplRegion .running .none) p.1 = true)
    ∧ (cplRegion .running .none).since + (coreOf (regionState (cplRegion .running .none) 65536) 0).kcCplq
        ≤ (coreOf (regionState (cplRegion .running .none) 65536) 0).cycle := by decide +kernel
theorem witness_RegionSteps_waits : (∃ a ∈ ({ regionState (cplRegion .parking .none) 0 with accs := [{ st1 with wslot := 3 }] } : State).accs, a.core = 0 ∧ a.wslot ≠ 0)
    ∧ { cplRegion .running .none with firedNow := [1] }.firedNow.contains 1 = true := by
  decide +kernel
theorem test_placement_done : next (exec (.couplePlacementDone 0 (some cplPlace)) placingState) (fun t =>
    (coreOf t 0).region.map (fun r => r.st = .parking && r.stations.length = 2) = some true) = true := by decide +kernel
theorem test_head_fires : next (exec (.stationFire 0 0) (regionState (cplRegion .running .none) 0)) (fun t =>
    (coreOf t 0).region.map (fun r => r.injected = [1] && (queueOf r 0).length = 1 && r.fired = [1, 0]) = some true) = true := by decide +kernel

/-- A region at its end: the write-back has the end token. -/
def endedRegion (gate : Gate) (q : List Token) : Region :=
  { cplRegion .draining gate with ended := [0, 1], injected := [4], queues := [q], finished := 3 }
theorem witness_RegionEnds : (∀ g ∈ [Gate.none, .quantum, .preempt, .fault causeIntegrity 1 2 0],
      drainDue (regionState (endedRegion g []) 0) 0 (endedRegion g []) = true
        ∧ (regionOf (discardIters (regionState (endedRegion g []) 0) 0 (fun _ => true)) 0).map (fun q => q.gate) = some g)
    ∧ drainDue (regionState (endedRegion .none [⟨.data, 0, 1, false⟩]) 0) 0 (endedRegion .none [⟨.data, 0, 1, false⟩]) = true
    ∧ drainDue (regionState (cplRegion .running .none) 0) 0 (cplRegion .running .none) = false
    ∧ (∀ j, j < 2 → canFire (regionState (endedRegion .none []) 0) 0 j = false ∧ canFire (regionState (endedRegion .quantum []) 0) 0 j = false
        ∧ canFire (regionState (endedRegion .none [⟨.data, 0, 1, false⟩]) 0) 0 j = false)
    ∧ (endedRegion .none [⟨.data, 0, 1, false⟩]).queues.getD 0 [] ≠ []
    ∧ regionOf (regionState (endedRegion .none []) 0) 0 = some (endedRegion .none [])
    ∧ (endedRegion .none []).moved + 4096 ≤ (coreOf (regionState (endedRegion .none []) 4096) 0).cycle
    ∧ (∀ j, j < 2 → canFire (regionState (endedRegion .none []) 4096) 0 j = false
        ∧ waitsMemory (regionState (endedRegion .none []) 4096) 0 j = false) := by decide +kernel
/-- Still for 4,096 cycles: the head has ended, and no token comes to the write-back. -/
def stillRegion (st : RegionSt) : Region := { endedRegion .none [] with st := st, ended := [0] }
theorem witness_RegionEnds_still : ∀ st ∈ [RegionSt.running, .gated, .draining],
    let s := regionState (stillRegion st) 4096
    drainDue s 0 (stillRegion st) = false ∧ (stillRegion st).moved + 4096 ≤ (coreOf s 0).cycle
      ∧ ∀ j, j < 2 → canFire s 0 j = false ∧ waitsMemory s 0 j = false := by decide +kernel
theorem test_region_drained : next (exec (.regionDrained 0) (regionState (endedRegion .quantum []) 0)) (fun t =>
    (coreOf t 0).region.isNone && (slot0At t).mask = 0xC && (slot0At t).held = 3 && (slot0At t).rcd = 0) = true := by decide +kernel

/-! ## Witnesses: lowering, modules -/

def lowerReq9 : LowerReq := ⟨0, 0, slotKey (cplState Core.reset) 0 (cplWave { cplSlot with blk := 0 }) 0 0x7C0, 0x600, 0, false⟩
def lowState : State := { cplState Core.reset with lowerReqs := [lowerReq9] }
theorem witness_SinterStore : lowState.lowerReqs[0]? = some lowerReq9 ∧ lowerReq9.die < lowState.dies.length
    ∧ trWaits lowState 0 false (lowerBlock lowState lowerReq9).pages = false ∧ (lowerBlock lowState lowerReq9).marker = none
    ∧ trWaits { lowState with accs := [st1] } 0 false (lowerBlock { lowState with accs := [st1] } lowerReq9).pages = true
    ∧ 0 < (dieOf (withEntry lowState (cplEntry true)) 0).sinter.length := by decide +kernel
/-- The same request as a PFI's, with no page mapped. -/
def pfiState : State := { lowState with tlb := [], lowerReqs := [{ lowerReq9 with pfi := true }] }
theorem witness_SinterStore_pfi : trWaits pfiState 0 false (lowerBlock pfiState { lowerReq9 with pfi := true }).pages = false
    ∧ ((lowerBlock pfiState { lowerReq9 with pfi := true }).marker.map (fun m => decide (m.cause ≠ causeLowerReject))) = some true := by decide +kernel
theorem test_lowering : next (exec (.loweringComplete 0 0) lowState) (fun t =>
    t.lowerReqs = [] && (dieOf t 0).sinter.map (fun e => e.recs) = [[0, 0]]) = true := by decide +kernel
/-- A module submitted at an address. -/
def submitted (a : Word) : State := { cplState Core.reset with parts := [(0, { part0 with modAddr := some a })] }
theorem witness_ModulesAreVerified : (partOf (submitted 0x600) 0).modAddr = some 0x600
    ∧ trWaits (submitted 0x600) 0 false (imagePages (fetchBytes (submitted 0x600) 0 false) 0x600) = false
    ∧ ((partOf (submitted 0x600) 0).world || (partOf (submitted 0x600) 0).bothw) = false := by decide +kernel

/-! ## Witnesses: the host, the peers, management -/

/-- Partition 0 with the aperture at 0; page 0 is a page of its memory. -/
def hostState : State := memState 0
theorem witness_HostAccesses : functionOf hostState 0 = true ∧ (0x404 : Word).toNat + 8 ≤ 2 ^ 40 ∧ (partOf hostState 0).hbase = 0 ∧ hostFault hostState 0 .load 0x404 8 = none
    ∧ hostFault { hostState with secBase := [(0, 0x8000000000000000)], secLimit := [(0, 0x1000)] } 0 .load 0x404 8 = some (causeWorld, 0x404)
    ∧ hostFault { hostState with secBase := [(0, 0x8000000000000000)], secLimit := [(0, 0x1000)] } 0 .store 0x404 8 = some (causeWorld, 0x404)
    ∧ (0x404 : Word).toNat % 64 + 8 ≤ 64
    ∧ (match xlatCheck hostState 0 false .store 0x404 with
        | .ok x => decide (x.place = .dev 0x404) && !x.cell && !storeHeld hostState 0 [] (.dev 0x404)
        | .error _ => false) = true := by decide +kernel
theorem test_bar0_read : next (exec (.hostBar0Read 0 0x400 4) hostState) (fun t => t.hostData = [0x78, 0x56, 0x34, 0x12]) = true := by decide +kernel

/-- Page 0 a cell page, with the tag of the cell at 0x408. -/
def winState (tag : BitVec 2) : State :=
  { cellState 0 with tags := [(0x408 / 8, tag)], parts := [(0, { part0 with mkaddr := 0x408, pkaddr := 0x408 })] }
theorem witness_TouchWindow : windowCell (winState 1) 0 .load 0x40C = none
    ∧ ((windowCell (winState 1) 0 .load 0x408).map (fun p => p.1)) = some 0x408 ∧ ((windowCell (winState 1) 0 .store 0x408).map (fun p => p.1)) = some 0x408
    ∧ storeHeld (winState 1) 0 [] (.dev 0x408) = false ∧ cellTag (winState 1) 0x408 = 1 ∧ cellTag (winState 3) 0x408 ≠ 1
    ∧ cellTag (winState 2) 0x408 = 2 ∧ storeHeld (winState 2) 0 [] (.dev 0x408) = false
    ∧ (partOf (winState 1) 0).mkaddr = 0x408 ∧ (partOf (winState 1) 0).pkaddr = 0x408 ∧ canonical 0x408 = true
    ∧ ((leafOf (winState 1) 0 0x408).map (fun x => pteBit x.val 59 && !leafSecure (winState 1) x 0x408 && leafPlace x 0x408 = .dev 0x408)) = some true
    ∧ pktagViolates (winState 1) 0 = false := by decide +kernel
/-- The cell is WAKING, and the record of its waking stands. -/
def wakingWin : State := { winState 2 with waking := [⟨0x408, 0x408, 0, 0, 7, 1, [], []⟩] }
theorem witness_TouchWindow_function : functionOf (winState 1) 0 = true ∧ functionOf wakingWin 0 = true
    ∧ cellTag wakingWin 0x408 = 2 ∧ cellLost wakingWin 0x408 = false ∧ storeHeld wakingWin 0 [] (.dev 0x408) = false
    ∧ ((windowCell wakingWin 0 .store 0x408).map (fun p => p.1)) = some 0x408 ∧ cellLost (winState 3) 0x408 = false := by decide +kernel
/-- A part of a cell at 0x40C, and a whole one, through a cell page. -/
theorem witness_HostAccesses_cells : ∀ t ∈ [(0 : BitVec 2), 1], (match xlatCheck (winState t) 0 false .store 0x408 with
        | .ok x => x.cell && x.place = .dev 0x408
            && cellTag (breakTr (xlatMark (winState t) 0 .store 0x408 x.leaf) 0 0x408 x.leaf) 0x40C = t
            && !cellLost (breakTr (xlatMark (winState t) 0 .store 0x408 x.leaf) 0 0x408 x.leaf) 0x408
        | .error _ => false) = true := by decide +kernel
theorem test_pktag : next (exec (.pktag 0) (winState 3)) (fun t => t.hostWord = 7) = true := by decide +kernel
theorem test_mkpay : next (exec (.mkpay 0 0x0102030405060708) (winState 0)) (fun t => cellTag t 0x408 = 1 && devNat t 0x408 8 = 0x0102030405060708) = true := by
  decide +kernel

theorem witness_VectorsAndInvalidation :
    (let s : State := { hostState with parts := [(0, { part0 with msixMask := [3], msixPend := [3], tlbinv := [(0, 1)] })] }
     3 ∈ (partOf s 0).msixMask ∧ 3 ∈ (partOf s 0).msixPend ∧ 4 ∉ (partOf s 0).msixPend ∧ (partOf s 0).tlbinv = [(0, 1)]
      ∧ rangeInUse s (partOf s 0).tlbva 1 0 = false ∧ functionOf s 0 = true
      ∧ rangeInUse { s with accs := [st1] } (partOf s 0).tlbva 1 0 = true
      ∧ (partOf hostState 0).tlbinv = [] ∧ s.tlb ≠ []) := by decide +kernel
theorem test_msix_unmask : next (exec (.msiXUnmask 0 3) { hostState with parts := [(0, { part0 with msixMask := [3], msixPend := [3] })] })
    (fun t => t.msix = [(0, 3)]) = true := by decide +kernel

/-- A partition whose cut is over: its target is host region 0 of the table, which is none, or a device without a port. -/
def snapState9 (snap : Word) : State := { hostState with parts := [(0, { part0 with snap := snap, snapState := 1 })] }
theorem witness_SnapshotStreams : (partOf (snapState9 1) 0).snapState = 1 ∧ (snapState9 1).cut = none := by decide +kernel
theorem witness_SnapshotStreams_ends (s : State) (p : Nat) : (∃ t, snapTarget s p (snapImage s p).1 (snapImage s p).2 = (t, .ok ()))
    ∨ ∃ t c, snapTarget s p (snapImage s p).1 (snapImage s p).2 = (t, .error c) := by
  cases h : snapTarget s p (snapImage s p).1 (snapImage s p).2 with
  | mk t e => cases e with
    | ok u => exact .inl ⟨t, by cases u; rfl⟩
    | error c => exact .inr ⟨t, c, rfl⟩
/-- A stream to a device of the fabric with the ports up is taken. -/
theorem witness_SnapshotStreams_ok (bs : List Byte) (bad : List Nat) :
    (snapTarget { snapState9 0x103 with ports := 1, devno := 0 } 0 bs bad).2 = .ok () := by
  unfold snapTarget
  rw [if_pos (by decide +kernel), if_neg (by decide +kernel), if_neg (by decide +kernel)]
/-- With every port down the target faults. -/
theorem witness_SnapshotStreams_error (bs : List Byte) (bad : List Nat) :
    (snapTarget { snapState9 0x103 with ports := 0, devno := 0 } 0 bs bad).2 = .error causeIntegrity := by
  unfold snapTarget
  rw [if_pos (by decide +kernel), if_neg (by decide +kernel), if_pos (by decide +kernel)]

def peerState : State := { hostState with stage := 1, ports := 0x800000000 }
theorem witness_PeersAccessMemory : peerState.ports.getLsbD 35 = true ∧ (0x430 : Nat) % 64 + 16 ≤ 64 ∧ 0x430 + 16 ≤ Config.deviceBytes
    ∧ carriagesWith peerState (fun car => car.lines.contains (lineOf (.dev 0x430))) = []
    ∧ peerHeld peerState 0x430 16 = false ∧ peerSecure peerState 0x430 16 = false ∧ peerSecure peerState (Config.deviceBytes - 8) 8 = false
    ∧ peerHeld peerState (Config.deviceBytes - 8) 8 = false ∧ (Config.deviceBytes - 8) % Ty.i64.memBytes = 0
    ∧ Ty.i64.memBytes = 8 ∧ Ty.i64.code ≤ 5
    ∧ peerSecure { peerState with secBase := [(0, 0x8000000000000000)], secLimit := [(0, 0x1000)] } 0x430 16 = true
    ∧ peerHeld { peerState with secBase := [(0, 0x8000000000000000)], secLimit := [(0, 0x1000)] } 0x430 16 = false := by decide +kernel
theorem test_peer_atom : next (exec (.fabricPeerAccess 35 0x400 (.atom 0 .n32 1 0)) peerState) (fun t =>
    t.hostWord = 0x12345678 && memRead t.dmem 0x400 4 = [0x79, 0x56, 0x34, 0x12]) = true := by decide +kernel

/-- A device with die 0 joined, and nothing resident. -/
def mgState : State := { State.reset with stage := 1, dies := [{ Die.reset 1000 with joined := true }, Die.reset 4000, Die.reset 4000, Die.reset 4000] }
theorem witness_PartitionConfiguration : clmapRefused mgState 7 (newClmap (partOf mgState 7) 0 0xF) = false
    ∧ clmapRefused mgState 7 (newClmap (partOf mgState 7) 3 0xFFFF) = true ∧ ctlRefused mgState 7 7 0xFFFF = false
    ∧ ctlRefused hostState 0 7 0 = true := by decide +kernel
theorem test_clmap : next (exec (.mgPartitionConfig 7 0 0xF) mgState) (fun t => (partOf t 7).clmap = 0xF) = true := by decide +kernel
theorem test_clmap_refused : next (exec (.mgPartitionConfig 7 0x18 0x8000) mgState) (fun t => t.cfgRef && (partOf t 7).clmap = 0) = true := by decide +kernel
theorem witness_ManagementRegisters : (15 : Nat) < 16 ∧ (7 : Nat) < 8 ∧ (0xA0 : Nat) ∈ [0x28, 0x30, 0x38, 0x40, 0x58, 0x68, 0x70, 0x78, 0x80, 0x90, 0x98, 0xA0]
    ∧ 15 ∈ partCores hostState 0 := by decide +kernel
theorem test_mg_sec : next (exec (.mgRegisterWrite 0x1F0 0xFFFFFFFFFFFFFFFF) mgState) (fun t => mgWord t 0x1F0 = 0x800FFFFFFFFFF000) = true := by decide +kernel

/-- A partition in one mode of MG_PSWAP. -/
def swapState (m : Pswap) (e : Bool) : State := { hostState with parts := [(0, { part0 with pswap := m, exch := e })] }
theorem witness_PartitionsStopAndResume : (partOf (swapState .running false) 0).pswap = .running
    ∧ (partOf (swapState .stopping true) 0).pswap = .stopping ∧ partStopped { swapState .stopping true with cores := [] } 0 = true
    ∧ (partOf (swapState .halted true) 0).exch = true ∧ (partOf (swapState .exchanging true) 0).pswap = .exchanging
    ∧ (partOf (swapState .halted false) 0).exch = false ∧ 15 ∈ partCores (swapState .exchanging true) 0
    ∧ (partCores (swapState .exchanging true) 0).Nodup := by decide +kernel
theorem test_halt : next (exec (.halt 0) { swapState .running false with cores := [] }) (fun t => (partOf t 0).pswap = .stopping) = true := by decide +kernel

theorem witness_MailboxCommands : waveOf hostState 0 0 = some memCtx.wave ∧ memCtx.wave.evals = [] ∧ memCtx.wave.divMem = 0
    ∧ memCtx.wave.slot0.car = none ∧ memCtx.wave.slot1.car = none ∧ waveAccs hostState 0 0 memCtx.wave.uid = [] ∧ regionOf hostState 0 = none
    ∧ (waveOf stopped 0 0).map (fun v => v.halted && partRuns stopped v.part) = some true
    ∧ (partOf (swapState .halted false) (corePart (swapState .halted false) 0)).pswap = .halted
    ∧ corePart (swapState .halted false) 1 = 0
    ∧ stepsHeld (swapState .halted false) 1 (smGet Core.reset (swapState .halted false).mboxCtx 0) = true
    ∧ corePart { swapState .halted false with dmem := [] } 1 = 0 ∧ lostWaking { swapState .halted false with dmem := [] } 0 = []
    ∧ (coreOf (swapState .halted false) 1).cmds = [] := by decide +kernel
theorem test_mailbox_end : next (exec (.mailboxEndWave 0 0) hostState) (fun t => (waveOf t 0 0).isNone) = true := by decide +kernel

theorem witness_BringUp_signature (s : State) (im sig : List Byte) : Config.signatureOk s.fusedKey im sig = true
    ∨ Config.signatureOk s.fusedKey im sig = false := by cases Config.signatureOk s.fusedKey im sig <;> simp
/-- Before die 0 joins; with die 0 alone; with all but die 3. -/
def bringState (n : Nat) : State :=
  let die (i : Nat) : Die := { Die.reset 1000 with joined := decide (i < n) }
  { State.reset with stage := min n 2, dies := [die 0, die 1, die 2, die 3], fwImages := [(0, [1])] }
theorem witness_BringUp : (List.replicate 32 (0 : Byte)).length = 32 ∧ (bringState 0).dies.length = 4 ∧ (dieOf (bringState 0) 0).joined = false
    ∧ (dieOf (bringState 0) 0).failed = false ∧ (bringState 0).stage = 0 ∧ (bringState 0).fwImages ≠ []
    ∧ (bringState 0).stacksFailed = []
    ∧ (bringState 1).stage = 1 ∧ (bringState 3).stage = 2 ∧ (dieOf (bringState 3) 3).joined = false
    ∧ (∀ e, e < 4 → e ≠ 3 → (dieOf (bringState 3) e).joined = true)
    ∧ (∃ e, e < 4 ∧ e ≠ 1 ∧ (dieOf (bringState 1) e).joined = false) := by
  refine ⟨rfl, rfl, rfl, rfl, rfl, by decide, rfl, rfl, rfl, rfl, by decide +kernel, 2, by decide +kernel⟩
theorem test_full_service : next (exec (.dieSelftest 3 true) (bringState 3)) (fun t => t.stage = 3 && (dieOf t 0).mhz = 4000) = true := by decide +kernel
theorem test_selftest_fails : next (exec (.dieSelftest 3 false) (bringState 3)) (fun t => t.stage = 2 && (dieOf t 3).failed) = true := by decide +kernel

theorem witness_DeviceEvents : peerState.ports.getLsbD 35 = true ∧ (35 : Nat) < 36 ∧ (2000 : Nat) ≤ 2000 ∧ (4000 : Nat) ≤ 4000 := by decide +kernel
theorem test_port_down : next (exec (.fabricPortDown 35) peerState) (fun t => t.ports = 0 && t.errSeq = 1) = true := by decide +kernel
theorem test_clock_over : next (exec (.clockChange none 2001) State.reset) (fun t => t.fabricMhz = 2000) = true := by decide +kernel

/-! ## Witnesses: the machine -/

/-- KEEP k2 from an immediate at reset, where step fetches it. -/
def fetchKeep : State := State.reset.withFetchWord 64 ((encode (.keep (rc .b32 0 (.keep 2) (.imm 5) .absent))).getD 0).toNat
def keep2 : Instr := .keep (rc .b32 0 (.keep 2) (.imm 5) .absent)
/-- That state once the waits of its core are up to date, and when the record stands at its slot's position. -/
def freshKeep : State := refresh (turnStart { fetchKeep with agenda := [] }) 0
def fetchedKeep : State :=
  let cur := recordIssue 0 0 0 (fetchWave (fetchPart State.reset)) (fetchEntry (fetchPart State.reset) [(encode keep2).getD 0, 0] []) false
  { atWord freshKeep 0 0 0 cur none with cur := cur }
theorem witness_StepRunsDecodedRecord : fetchKeep.agenda = [.issue 0 false] ∧ pickSlot freshKeep 0 = some (0, 0)
    ∧ waveOf freshKeep 0 0 = some (fetchWave (fetchPart State.reset)) ∧ (fetchWave (fetchPart State.reset)).replay = []
    ∧ slotCode freshKeep 0 (fetchWave (fetchPart State.reset)) (fetchWave (fetchPart State.reset)).slot0 = some (fetchEntry (fetchPart State.reset) [(encode keep2).getD 0, 0] [])
    ∧ (decode ((encode keep2).getD 0)).toOption = some keep2
    ∧ (match nextIssue freshKeep 0 0 0 (fetchWave (fetchPart State.reset)) false with
        | .word i _ n => decide (i = keep2) && n.isNone
        | _ => false) = true
    ∧ ((ctxOf fetchedKeep).map (fun k => k.lanes ≠ [] && k.slot.stepOver.isNone
        && (matchOf fetchedKeep k keep2).isNone
        && poisonedLanes fetchedKeep k keep2 = [])) = some true := by decide +kernel
theorem test_step_keep : next (step fetchKeep) (fun t => (waveOf t 0 0).map (fun v => (keepGet (coreOf t 0) v 2 31, v.slot0.rcd)) = some (5, 1)) = true := by
  decide +kernel
/-- TMEET 0 as the record of the tender of core 0. -/
def fetchMeet : State := State.reset.withFetchWord 64 0xB600100000000000
theorem witness_StepRunsDecodedRecord_tender : fetchMeet.agenda = [.tender 0] ∧ partRuns { fetchMeet with agenda := [] } (corePart fetchMeet 0) = true
    ∧ (fetchStream 0xB600100000000000).bad = none ∧ (coreOf fetchMeet 0).active = some 0 ∧ (coreOf fetchMeet 0).tenders[0]? = some (fetchStream 0xB600100000000000)
    ∧ (fetchStream 0xB600100000000000).recs[(fetchStream 0xB600100000000000).pc]? = some 0xB600100000000000
    := by decide +kernel
theorem witness_StepRunsDecodedRecord_word : decodeTender 0xB600100000000000 = .ok (.tmeet (rc .b32 0 (.imm 0) .absent .absent)) := rfl
theorem witness_StepRunsDecodedRecord_event : isRecord .deviceReset = false
    ∧ ({ State.reset with agenda := [.event .deviceReset] } : State).agenda = [.event .deviceReset] := by decide
theorem witness_EncodeDecodeRoundTrip : (Instr.ldb ⟨true, .e2m1, 9, .dist 8191, .keep 511, .unif 4095⟩).opRecord.isSome = true
    ∧ (Instr.ld ⟨true, .b32, 4, .dist 8191, .absent, .absent⟩).wellFormed = true
    ∧ (Instr.tenderLoop (rc .b32 0 (.imm 3) (.lit 1) .absent)).wellFormed = true
    ∧ (encodeDie (.win true 127 true)).isSome = true ∧ (encodeDie (.dspl false 3)).isSome = true := by decide +kernel
/-- The canonical form holds of reset, and of a step from it. -/
theorem witness_MemoryStaysCanonical : MemoryCanonical State.reset ∧ (next (step fetchKeep) (fun _ => true)) = true := by
  unfold MemoryCanonical; decide +kernel

end Sys2Proof.Tests
end

section
/-! SUPPORT. The integer, logic, compare and move records (R236 to R248) and the exchanges across lanes (R259, R260, R264):
what their functions on patterns compute, in the order of the model's definitions, and the statements about them. -/

open Sys2Proof Sys2Proof.Machine Sys2Proof.Cert

namespace Sys2Proof.Proofs.Compute

/-! ## From a lane's value to a completed record -/

/-- A record that is a lane operation completes with the values of the lane operation. -/
theorem laneOp_result {i : Instr} {r : Record} {out : Ty} {f g : State → Ctx → Nat → Val}
    (he : ∀ s, exec i s = laneOp s r out (f s)) (hv : ∀ s k l, f s k l = g s k l) : Result i r out g := by
  intro s k hk
  have hfg : f s k = g s k := funext (hv s k)
  rw [he, laneOp_next s k r out _ hk, hfg]
  rfl

/-- As `laneOp_result`, where the rule gives the bits of the value. -/
theorem laneOp_resultBits {i : Instr} {r : Record} {out : Ty} {f : State → Ctx → Nat → Word}
    {bit : State → Ctx → Nat → Nat → Bool} (he : ∀ s, exec i s = laneOp s r out (fun k l => ⟨f s k l, 0⟩))
    (hv : ∀ s k l n, n < 64 → (f s k l).getLsbD n = bit s k l n) : ResultBits i r out bit := by
  intro s k hk
  exact ⟨f s k, (he s).trans (laneOp_next s k r out _ hk), hv s k⟩

/-! ## The meaning of each record -/

section
variable (r : Record) (s : State)
theorem exec_iadd : exec (.iadd r) s = execIadd r s := rfl
theorem exec_isub : exec (.isub r) s = execIsub r s := rfl
theorem exec_imul : exec (.imul r) s = execImul r s := rfl
theorem exec_imad : exec (.imad r) s = execImad r s := rfl
theorem exec_idiv : exec (.idiv r) s = execIdiv r s := rfl
theorem exec_imin : exec (.imin r) s = execImin r s := rfl
theorem exec_imax : exec (.imax r) s = execImax r s := rfl
theorem exec_iabs : exec (.iabs r) s = execIabs r s := rfl
theorem exec_and : exec (.and r) s = execAnd r s := rfl
theorem exec_or : exec (.or r) s = execOr r s := rfl
theorem exec_xor : exec (.xor r) s = execXor r s := rfl
theorem exec_andn : exec (.andn r) s = execAndn r s := rfl
theorem exec_shl : exec (.shl r) s = execShl r s := rfl
theorem exec_shr : exec (.shr r) s = execShr r s := rfl
theorem exec_fshf : exec (.fshf r) s = execFshf r s := rfl
theorem exec_bcnt : exec (.bcnt r) s = execBcnt r s := rfl
theorem exec_bfx : exec (.bfx r) s = execBfx r s := rfl
theorem exec_icmp : exec (.icmp r) s = execIcmp r s := rfl
theorem exec_sel : exec (.sel r) s = execSel r s := rfl
theorem exec_lea : exec (.lea r) s = execLea r s := rfl
theorem exec_mov : exec (.mov r) s = execMov r s := rfl
theorem exec_nop : exec (.nop r) s = execNop r s := rfl
theorem exec_shfl : exec (.shfl r) s = execShfl r s := rfl
theorem exec_vote : exec (.vote r) s = execVote r s := rfl
theorem exec_unif : exec (.unif r) s = execUnif r s := rfl
end

/-! ## Elements (R236) -/

theorem width_pos (t : Ty) : 0 < width t := by
  unfold width; split
  · omega
  · split <;> omega

/-- The model's element width is that of R236: its case of pred is no integer type. -/
theorem elemBits_eq_width {t : Ty} (ht : IntTy t) : elemBits t = width t := by
  have hp : t ≠ .pred := by rintro rfl; exact absurd ht (by unfold IntTy; decide)
  simp [elemBits, width, hp]

theorem elt_lt (t : Ty) (j : Nat) (v : Word) : elt t j v < 2 ^ width t := Nat.mod_lt _ (Nat.two_pow_pos _)

theorem elt_zero (t : Ty) (v : Word) : elt t 0 v = v.toNat % 2 ^ width t := by simp [elt]

/-- An operation on elements gives the value packed from its results. -/
theorem perElem_eq_packed {t : Ty} (ht : IntTy t) (f : Nat → Nat → Nat → Nat) (a b c : Word) :
    (⟨perElem t f a b c, 0⟩ : Val) = packed t (fun j => f (elt t j a) (elt t j b) (elt t j c)) := by
  by_cases h : t = .i16x2
  · subst h; rfl
  · simp [perElem, packed, num, h, elemBits_eq_width ht, elt_zero]

/-- The integer of a pattern that fits its width is iv of R236. -/
theorem intOf_eq_iv {t : Ty} {x : Nat} (hx : x < 2 ^ width t) : intOf (width t) (signed t) x = iv t x := by
  simp [intOf, iv, Nat.mod_eq_of_lt hx]

/-- A record of two operands whose elements combine gives the value packed from the rule's elements. -/
theorem intOp2_result {i : Instr} {r : Record} {f : Nat → Bool → Nat → Nat → Nat} (g : Nat → Nat → Nat) (ht : IntTy r.ty)
    (he : ∀ s, exec i s = intOp2 s r f)
    (hg : ∀ a b, a < 2 ^ width r.ty → b < 2 ^ width r.ty → f (width r.ty) (signed r.ty) a b = g a b) :
    Result i r r.ty (fun s k l => packed r.ty (fun j => g (elt r.ty j (opA s k r r.ty l)) (elt r.ty j (opB s k r r.ty l)))) :=
  laneOp_result he fun s k l => by
    rw [perElem_eq_packed ht, elemBits_eq_width ht]
    exact congrArg (packed r.ty) (funext fun j => hg _ _ (elt_lt ..) (elt_lt ..))

/-! ## Results chosen by FN (R237, R238) -/

/-- A function code is the one that its number names. -/
theorem toNat_fn_eq {fn : BitVec 5} {m : Nat} (hm : m < 32) : fn.toNat = m ↔ fn = BitVec.ofNat 5 m := by
  rw [← BitVec.toNat_inj, BitVec.toNat_ofNat, Nat.mod_eq_of_lt hm]

theorem addResult_eq_sumRule (t : Ty) (fn : BitVec 5) (v : Int) :
    addResult (width t) (signed t) fn.toNat v = sumRule t fn v := by
  simp only [addResult, sumRule, toNat_fn_eq (m := 1) (by decide)]
  rfl

theorem mulResult_eq_productRule (t : Ty) (fn : BitVec 5) (v : Int) :
    mulResult (width t) (signed t) fn.toNat v = productRule t fn v := by
  simp only [mulResult, productRule, toNat_fn_eq (m := 1) (by decide), toNat_fn_eq (m := 2) (by decide)]
  rfl

theorem divResult_eq_divideRule {t : Ty} {fn : BitVec 5} (hfn : fn = 0 ∨ fn = 1) {a b : Nat} (ha : a < 2 ^ width t)
    (hb : b < 2 ^ width t) : divResult (width t) (signed t) (fn.toNat = 1) a b = divideRule t fn a b := by
  simp only [divResult, divideRule, intOf_eq_iv ha, intOf_eq_iv hb]
  rcases hfn with rfl | rfl <;> rfl

theorem absResult_eq_sumRule {t : Ty} (fn : BitVec 5) {a : Nat} (ha : a < 2 ^ width t) :
    absResult (width t) (signed t) (fn.toNat = 1) a = sumRule t fn ((iv t a).natAbs : Int) := by
  simp only [absResult, sumRule, intOf_eq_iv ha, toNat_fn_eq (m := 1) (by decide), decide_eq_true_eq]
  rfl

/-! ## Integer arithmetic (R237 to R239) -/

theorem integerAddSubtract : IntegerAddSubtract := fun r ht =>
  ⟨intOp2_result (fun a b => sumRule r.ty r.fn (iv r.ty a + iv r.ty b)) ht (exec_iadd r)
      fun a b ha hb => by rw [intOf_eq_iv ha, intOf_eq_iv hb, addResult_eq_sumRule],
    intOp2_result (fun a b => sumRule r.ty r.fn (iv r.ty a - iv r.ty b)) ht (exec_isub r)
      fun a b ha hb => by rw [intOf_eq_iv ha, intOf_eq_iv hb, addResult_eq_sumRule]⟩

theorem integerMultiply : IntegerMultiply := fun r ht =>
  ⟨intOp2_result (fun a b => productRule r.ty r.fn (iv r.ty a * iv r.ty b)) ht (exec_imul r)
      fun a b ha hb => by rw [intOf_eq_iv ha, intOf_eq_iv hb, mulResult_eq_productRule],
    laneOp_result (exec_imad r) fun s k l => by
      simp only [perElem_eq_packed ht, elemBits_eq_width ht]
      refine congrArg (packed r.ty) (funext fun j => ?_)
      rw [← mulResult_eq_productRule, ← intOf_eq_iv (elt_lt ..), ← intOf_eq_iv (elt_lt ..), ← intOf_eq_iv (elt_lt ..)]
      rfl⟩

theorem integerDivide : IntegerDivide := fun r ht hfn =>
  have hi : IntTy r.ty := by rcases ht with h | h | h | h <;> exact Or.inl (by rw [h]; decide)
  intOp2_result (divideRule r.ty r.fn) hi (exec_idiv r) fun _ _ ha hb => divResult_eq_divideRule hfn ha hb

theorem integerMinMaxAbs : IntegerMinMaxAbs := fun r ht =>
  ⟨intOp2_result (fun a b => if iv r.ty a ≤ iv r.ty b then a else b) ht (exec_imin r) fun a b ha hb => by
      simp only [intOf_eq_iv ha, intOf_eq_iv hb, ← Int.not_le, ite_not],
    intOp2_result (fun a b => if iv r.ty b ≤ iv r.ty a then a else b) ht (exec_imax r) fun a b ha hb => by
      simp only [intOf_eq_iv ha, intOf_eq_iv hb, ← Int.not_le, ite_not],
    laneOp_result (exec_iabs r) fun s k l => by
      rw [perElem_eq_packed ht, elemBits_eq_width ht]
      exact congrArg (packed r.ty) (funext fun j => absResult_eq_sumRule r.fn (elt_lt ..))⟩

/-- Settles O5: each record is a lane operation, and each element of its value is the rule's for the function code. -/
theorem integerArithmetic : Obligations.IntegerArithmetic :=
  ⟨integerAddSubtract, integerMultiply, integerDivide, integerMinMaxAbs⟩

/-! ## Logic (R240) -/

theorem bitwiseLogic : BitwiseLogic := fun r =>
  ⟨laneOp_resultBits (exec_and r) fun _ _ _ _ _ => BitVec.getLsbD_and,
    laneOp_resultBits (exec_or r) fun _ _ _ _ _ => BitVec.getLsbD_or,
    laneOp_resultBits (exec_xor r) fun _ _ _ _ _ => BitVec.getLsbD_xor,
    laneOp_resultBits (exec_andn r) fun _ _ _ _ hn => by simp [hn]⟩

/-! ## Shifts (R241, R242) -/

/-- An n-bit pattern has no bit at n or above. -/
theorem testBit_eq_false_of_le {n a i : Nat} (ha : a < 2 ^ n) (h : n ≤ i) : a.testBit i = false :=
  Nat.testBit_lt_two_pow (Nat.lt_of_lt_of_le ha (Nat.pow_le_pow_right (by decide) h))

/-- The highest bit of an n-bit pattern, by its value. -/
theorem testBit_top {n a : Nat} (hn : 0 < n) (ha : a < 2 ^ n) : a.testBit (n - 1) = decide (2 ^ (n - 1) ≤ a) := by
  by_cases h : 2 ^ (n - 1) ≤ a
  · simpa [h] using Nat.testBit_of_two_pow_le_and_two_pow_add_one_gt h (by rwa [Nat.sub_add_cancel hn])
  · simpa [h] using Nat.testBit_lt_two_pow (Nat.lt_of_not_le h)

theorem wrapInt_nat (n x : Nat) : wrapInt n x = x % 2 ^ n := by
  rw [wrapInt, ← Int.natCast_emod, Int.toNat_natCast]

/-- A negative number not below -2^n wraps to its sum with 2^n. -/
theorem wrapInt_sub {n x y : Nat} (hxy : x < y) (hy : y ≤ 2 ^ n) : wrapInt n ((x : Int) - y) = x + (2 ^ n - y) := by
  have h : ((x : Int) - y) % (2 ^ n : Nat) = (x + (2 ^ n - y) : Nat) := by
    rw [← Int.add_emod_right, Int.emod_eq_of_lt] <;> omega
  rw [wrapInt, h, Int.toNat_natCast]

/-- SHL's two cases are R241's. -/
theorem shl_eq_shiftLeftRule (n a s : Nat) : (if n ≤ s then 0 else a * 2 ^ s % 2 ^ n) = shiftLeftRule n a s := by
  simp only [shiftLeftRule, ← Nat.not_lt, ite_not]

/-- An arithmetic shift of a pattern whose top bit is 1: the quotient below copies of that bit. -/
theorem wrapInt_shift_negative {n a m : Nat} (ha : a < 2 ^ n) (hm : m ≤ n) :
    wrapInt n (((a : Int) - (2 ^ n : Nat)) / (2 ^ m : Nat)) = a / 2 ^ m + (2 ^ n - 2 ^ (n - m)) := by
  have hp : 2 ^ n = 2 ^ (n - m) * 2 ^ m := by rw [← Nat.pow_add, Nat.sub_add_cancel hm]
  have hq : a / 2 ^ m < 2 ^ (n - m) := Nat.div_lt_of_lt_mul (by rwa [Nat.mul_comm, ← hp])
  have hd : ((a : Int) - (2 ^ n : Nat)) / (2 ^ m : Nat) = (a / 2 ^ m : Nat) - (2 ^ (n - m) : Nat) := by
    rw [hp, Int.natCast_mul, Int.sub_mul_ediv_right _ _ (by exact_mod_cast Nat.ne_of_gt (Nat.two_pow_pos m)), Int.natCast_ediv]
  rw [hd, wrapInt_sub hq (Nat.pow_le_pow_right (by decide) (Nat.sub_le n m))]

/-- Shifting an n-bit pattern by more than n bits gives what shifting by n gives: nothing is left. -/
theorem div_two_pow_min {n a : Nat} (ha : a < 2 ^ n) (s : Nat) : a / 2 ^ min s n = a / 2 ^ s := by
  rcases Nat.le_total s n with h | h
  · rw [Nat.min_eq_left h]
  · rw [Nat.min_eq_right h, Nat.div_eq_of_lt ha, Nat.div_eq_of_lt (Nat.lt_of_lt_of_le ha (Nat.pow_le_pow_right (by decide) h))]

theorem shrResult_eq_shiftRightRule {n : Nat} {fn : BitVec 5} (hfn : fn = 0 ∨ fn = 1) (hn : 0 < n) {a : Nat} (ha : a < 2 ^ n)
    (s : Nat) : shrResult n (fn.toNat = 1) a s = shiftRightRule n fn a s := by
  rcases hfn with rfl | rfl
  · change (if n ≤ s then 0 else a / 2 ^ s) = if s < n then a / 2 ^ s else 0
    simp only [← Nat.not_lt, ite_not]
  · have hs : a / 2 ^ s % 2 ^ n = a / 2 ^ s := Nat.mod_eq_of_lt (Nat.lt_of_le_of_lt (Nat.div_le_self ..) ha)
    change wrapInt n (intOf n true a / (2 ^ min s n : Nat)) = a / 2 ^ s % 2 ^ n + if a.testBit (n - 1) then _ else 0
    rw [testBit_top hn ha, hs]
    by_cases h : 2 ^ (n - 1) ≤ a
    · simp only [intOf, Nat.mod_eq_of_lt ha, h, Bool.true_and, decide_true, if_true]
      rw [wrapInt_shift_negative ha (Nat.min_le_right s n), div_two_pow_min ha]
    · simp only [intOf, Nat.mod_eq_of_lt ha, h, Bool.true_and, decide_false, Bool.false_eq_true, if_false]
      rw [← Int.natCast_ediv, wrapInt_nat, div_two_pow_min ha, hs, Nat.add_zero]

/-- FSHF's two halves are R242's: the high half of 2n bits is what is above n bits, at n bits. -/
theorem fshfResult_eq {fn : BitVec 5} (hfn : fn = 0 ∨ fn = 1) (n a b c : Nat) : fshfResult n (fn.toNat = 1) a b c
    = if fn = 0 then (a * 2 ^ n + b) * 2 ^ min c n % 2 ^ (2 * n) / 2 ^ n else (a * 2 ^ n + b) / 2 ^ min c n % 2 ^ n := by
  rcases hfn with rfl | rfl
  · change (a * 2 ^ n + b) * 2 ^ min c n / 2 ^ n % 2 ^ n = (a * 2 ^ n + b) * 2 ^ min c n % 2 ^ (2 * n) / 2 ^ n
    rw [Nat.two_mul, Nat.pow_add, Nat.mod_mul_right_div_self]
  · rfl

theorem shifts : Shifts := fun r ht hfn =>
  ⟨intOp2_result (shiftLeftRule (width r.ty)) ht (exec_shl r) fun a b _ _ => shl_eq_shiftLeftRule _ a b,
    intOp2_result (shiftRightRule (width r.ty) r.fn) ht (exec_shr r) fun _ b ha _ =>
      shrResult_eq_shiftRightRule hfn (width_pos _) ha b,
    fun _ => laneOp_result (exec_fshf r) fun s k l => by
      rw [elemBits_eq_width ht, fshfResult_eq hfn]
      rfl⟩

/-- Settles O6: the logic records act on each bit, and the shifts' elements are those of R241 and R242. -/
theorem logicAndShifts : Obligations.LogicAndShifts := ⟨bitwiseLogic, shifts⟩

/-! ## Operands that fit their width (R168) -/

theorem readWidth_lt {t : Ty} (ht : t ≠ .pred) (h16 : t ≠ .i16x2) (v : Word) : (readWidth t v).toNat < 2 ^ width t := by
  cases hw : t.wide
  · simpa [readWidth, width, hw, ht, h16] using Nat.lt_of_le_of_lt (Nat.mod_le ..) (Nat.mod_lt v.toNat (by decide : 2 ^ 32 > 0))
  · simpa [readWidth, width, hw, h16] using v.isLt

theorem operand_eq_readWidth (s : State) (k : Ctx) (r : Record) (t : Ty) (pos l : Nat) :
    ∃ v, operand s k r t pos l = readWidth t v := by
  unfold operand; split <;> exact ⟨_, rfl⟩

/-- Operand A of an integer record is a pattern of the width of its type. -/
theorem opA_lt {t : Ty} (ht : t.code ≤ 5) (s : State) (k : Ctx) (r : Record) (l : Nat) :
    (opA s k r t l).toNat < 2 ^ width t := by
  obtain ⟨v, hv⟩ := operand_eq_readWidth s k r t 0 l
  rw [opA, hv]
  exact readWidth_lt (by rintro rfl; exact absurd ht (by decide)) (by rintro rfl; exact absurd ht (by decide)) v

/-! ## Bit counts (R243) -/

/-- The zero bits above the highest one bit. -/
theorem leadingZeros_spec {n a : Nat} (h0 : a ≠ 0) (ha : a < 2 ^ n) :
    n - 1 - Nat.log2 a < n ∧ 2 ^ (n - 1 - (n - 1 - Nat.log2 a)) ≤ a ∧ a < 2 ^ (n - (n - 1 - Nat.log2 a)) := by
  have hlog : Nat.log2 a < n := (Nat.log2_lt h0).mpr ha
  have hlo : n - 1 - (n - 1 - Nat.log2 a) = Nat.log2 a := by omega
  have hhi : n - (n - 1 - Nat.log2 a) = Nat.log2 a + 1 := by omega
  rw [hlo, hhi]
  exact ⟨by omega, Nat.log2_self_le h0, Nat.lt_log2_self⟩

theorem findAt_eq_findIdx? {α : Type} (p : α → Bool) (xs : List α) (i : Nat) :
    findAt p xs i = (xs.findIdx? p).map (fun j => j + i) := by
  induction xs generalizing i with
  | nil => rfl
  | cons x xs ih =>
    rw [findAt, List.findIdx?_cons, ih]
    cases p x
    · simp [Function.comp_def, Nat.add_assoc, Nat.add_comm 1]
    · simp

/-- The first number below n that a test holds of. -/
theorem findAt_range_spec {p : Nat → Bool} {n i : Nat} (hi : i < n) (hp : p i = true) :
    ∃ j, findAt p (List.range n) 0 = some j ∧ j < n ∧ p j = true ∧ ∀ m, m < j → p m = false := by
  cases h : (List.range n).findIdx? p with
  | none => exact absurd hp (by simpa using List.findIdx?_eq_none_iff.mp h i (List.mem_range.mpr hi))
  | some j =>
    obtain ⟨hj, hpj, hmin⟩ := List.findIdx?_eq_some_iff_getElem.mp h
    exact ⟨j, by simp [findAt_eq_findIdx?, h], by simpa using hj, by simpa using hpj, fun m hm => by simpa using hmin m hm⟩

/-- The zero bits below the lowest one bit. -/
theorem trailingZeros_spec {n a : Nat} (h0 : a ≠ 0) (ha : a < 2 ^ n) :
    ∃ j, findAt (fun i => a.testBit i) (List.range n) 0 = some j ∧ j < n ∧ a % 2 ^ j = 0 ∧ a.testBit j = true := by
  obtain ⟨i, hi⟩ := Nat.exists_testBit_of_ne_zero h0
  have hin : i < n := Nat.lt_of_not_le fun h => absurd hi (by simp [testBit_eq_false_of_le ha h])
  obtain ⟨j, hj, hjn, hbit, hlow⟩ := findAt_range_spec (p := fun i => a.testBit i) hin hi
  refine ⟨j, hj, hjn, Nat.eq_of_testBit_eq fun m => ?_, hbit⟩
  rw [Nat.testBit_mod_two_pow, Nat.zero_testBit]
  by_cases hm : m < j
  · simp [hlow m hm]
  · simp [hm]

theorem bitCounts : BitCounts := by
  intro r ht s k hk
  refine ⟨fun l => bcntResult (width r.ty) r.fn.toNat (opA s k r r.ty l).toNat, ?_, fun l => ?_⟩
  · rw [exec_bcnt, execBcnt, elemBits_eq_width (Or.inl ht), laneOp_next s k r _ _ hk]
    rfl
  · have ha := opA_lt ht s k r l
    refine ⟨fun h => ?_, fun h => ⟨fun h0 => ?_, fun h0 => ?_⟩, fun h => ⟨fun h0 => ?_, fun h0 => ?_⟩⟩
    · simp only [h]; rfl
    · simp [h, h0, bcntResult]
    · simpa [h, h0, bcntResult] using leadingZeros_spec h0 ha
    · simp [h, h0, bcntResult]
    · obtain ⟨j, hj, hspec⟩ := trailingZeros_spec h0 ha
      simpa [h, h0, bcntResult, hj] using hspec

/-! ## Bit fields (R244) -/

/-- An extracted field: positions at n and above read as 0. -/
theorem testBit_field {n a : Nat} (ha : a < 2 ^ n) (pos len i : Nat) :
    (if n ≤ pos then 0 else a / 2 ^ pos % 2 ^ len).testBit i
      = (decide (i < len) && decide (pos + i < n) && a.testBit (pos + i)) := by
  by_cases hi : pos + i < n
  · have hp : ¬ n ≤ pos := by omega
    simp [hp, hi, Nat.testBit_mod_two_pow, Nat.testBit_div_two_pow, Nat.add_comm]
  · have hz := testBit_eq_false_of_le ha (Nat.le_of_not_lt hi)
    split <;> simp [hi, Nat.testBit_mod_two_pow, Nat.testBit_div_two_pow, Nat.add_comm i, hz]

/-- Bit j of the field that b names in an n-bit pattern (R244). -/
def fieldBit (n a b j : Nat) : Bool :=
  decide (j < min (b / 256 % 256) n) && decide (b % 256 + j < n) && a.testBit (b % 256 + j)

/-- A pattern read as a signed integer is the integer of the bit vector. -/
theorem intOf_true_eq_toInt {n : Nat} (hn : 0 < n) (x : Nat) : intOf n true x = (BitVec.ofNat n x).toInt := by
  have hp : 2 ^ n = 2 * 2 ^ (n - 1) := by rw [← Nat.pow_succ', Nat.succ_eq_add_one, Nat.sub_add_cancel hn]
  simp only [intOf, BitVec.toInt, BitVec.toNat_ofNat, Bool.true_and, decide_eq_true_eq]
  by_cases h : 2 ^ (n - 1) ≤ x % 2 ^ n
  · rw [if_pos h, if_neg (by omega)]
  · rw [if_neg h, if_pos (by omega)]

/-- A field with its top bit copied upward to n bits: bit len - 1 stands for every bit above it. -/
theorem testBit_wrapInt_intOf {n len f : Nat} (hl : 0 < len) (i : Nat) :
    (wrapInt n (intOf len true f)).testBit i = (decide (i < n) && f.testBit (min i (len - 1))) := by
  have hw : wrapInt n (intOf len true f) = ((BitVec.ofNat len f).signExtend n).toNat := by
    rw [intOf_true_eq_toInt hl, BitVec.signExtend, BitVec.toNat_ofInt, wrapInt]
  have hbit (j : Nat) (hj : j < len) : (BitVec.ofNat len f).getLsbD j = f.testBit j := by
    rw [BitVec.getLsbD_ofNat]
    simp [hj]
  rw [hw, BitVec.testBit_toNat, BitVec.getLsbD_signExtend]
  by_cases h : i < len
  · rw [if_pos h, hbit i h, Nat.min_eq_left (by omega)]
  · rw [if_neg h, BitVec.msb_eq_getLsbD_last, hbit _ (by omega), Nat.min_eq_right (by omega)]

/-- A pattern with w bits from position pos replaced. -/
theorem testBit_replace (a c pos w i : Nat) : (a - a / 2 ^ pos % 2 ^ w * 2 ^ pos + c % 2 ^ w * 2 ^ pos).testBit i
    = if pos ≤ i ∧ i < pos + w then c.testBit (i - pos) else a.testBit i := by
  have hw : 2 ^ w * (a / 2 ^ pos / 2 ^ w) + a / 2 ^ pos % 2 ^ w = a / 2 ^ pos := Nat.div_add_mod ..
  have hsum : a - a / 2 ^ pos % 2 ^ w * 2 ^ pos + c % 2 ^ w * 2 ^ pos
      = 2 ^ pos * (2 ^ w * (a / 2 ^ pos / 2 ^ w) + c % 2 ^ w) + a % 2 ^ pos := by
    have ha := Nat.div_add_mod a (2 ^ pos)
    rw [← hw, Nat.mul_add] at ha
    rw [Nat.mul_add, Nat.mul_comm (a / 2 ^ pos % 2 ^ w), Nat.mul_comm (c % 2 ^ w)]
    omega
  rw [hsum, Nat.testBit_two_pow_mul_add _ (Nat.mod_lt _ (Nat.two_pow_pos _)),
    Nat.testBit_two_pow_mul_add _ (Nat.mod_lt _ (Nat.two_pow_pos _))]
  simp only [Nat.testBit_mod_two_pow, Nat.testBit_div_two_pow]
  by_cases h1 : i < pos
  · rw [if_pos h1, if_neg (by omega)]
    simp [h1]
  · by_cases h2 : i - pos < w
    · rw [if_neg h1, if_pos h2, if_pos (by omega)]
      simp [h2]
    · rw [if_neg h1, if_neg h2, if_neg (by omega)]
      congr 1
      omega

/-- BFX.ext: the field, which reads no bit at n or above. -/
theorem testBit_bfxResult_extract {n a : Nat} (ha : a < 2 ^ n) (b c i : Nat) : (bfxResult n 0 a b c).testBit i
    = fieldBit n a b i := testBit_field ha _ _ i

/-- BFX.sext: a field of no bits is 0, another has its top bit copied upward. -/
theorem testBit_bfxResult_signed {n a : Nat} (ha : a < 2 ^ n) (b c i : Nat) : (bfxResult n 1 a b c).testBit i
    = (decide (i < n) && decide (min (b / 256 % 256) n ≠ 0) && fieldBit n a b (min i (min (b / 256 % 256) n - 1))) := by
  change (if min (b / 256 % 256) n = 0 then 0 else _ : Nat).testBit i = _
  by_cases h : min (b / 256 % 256) n = 0
  · simp [h]
  · rw [if_neg h, testBit_wrapInt_intOf (Nat.pos_of_ne_zero h), testBit_field ha]
    simp [h, fieldBit]

/-- BFX.ins: bits pos and above are replaced, as many as the field has below n. -/
theorem testBit_bfxResult_insert (n a b c i : Nat) : (bfxResult n 2 a b c).testBit i
    = if b % 256 ≤ i ∧ i < min (b % 256 + min (b / 256 % 256) n) n then c.testBit (i - b % 256) else a.testBit i := by
  simp only [bfxResult, if_true]
  by_cases h : n ≤ b % 256
  · rw [if_pos h, if_neg (by omega)]
  · rw [if_neg h, testBit_replace]
    exact ite_congr (propext (by omega)) (fun _ => rfl) (fun _ => rfl)

theorem bitFields : BitFields := fun r ht hfn => by
  refine laneOp_resultBits (exec_bfx r) fun s k l i hi => ?_
  have ha := opA_lt ht s k r l
  have hfn : r.fn = 0 ∨ r.fn = 1 ∨ r.fn = 2 := by
    simp only [← BitVec.toNat_inj]
    simp
    omega
  simp only [elemBits_eq_width (Or.inl ht), BitVec.getLsbD_ofNat, hi, decide_true, Bool.true_and]
  rcases hfn with h | h | h <;> simp only [h, ← BitVec.testBit_toNat]
  · exact testBit_bfxResult_extract ha _ _ i
  · exact testBit_bfxResult_signed ha _ _ i
  · simpa using testBit_bfxResult_insert ..

/-- Settles O7: counts by the first and last one bit, fields bit by bit. -/
theorem bitCountsAndFields : Obligations.BitCountsAndFields := ⟨bitCounts, bitFields⟩

/-! ## Compare (R245) -/

theorem intOrder_eq_lt (x y : Int) : intOrder x y = .lt ↔ x < y := by
  unfold intOrder; split
  · simpa
  · split <;> simp <;> omega

theorem intOrder_eq_eq (x y : Int) : intOrder x y = .eq ↔ x = y := by
  unfold intOrder; split
  · simp; omega
  · split <;> simpa

theorem intOrder_eq_gt (x y : Int) : intOrder x y = .gt ↔ y < x := by
  unfold intOrder; split
  · simp; omega
  · split <;> simp <;> omega

/-- The relation of an order of integers is CMP on the integers. -/
theorem cmpHolds_intOrder (fn : BitVec 5) (x y : Int) : cmpHolds fn.toNat (intOrder x y) = relation fn x y := by
  unfold cmpHolds relation
  generalize fn.toNat = m
  rw [Bool.eq_iff_iff]
  rcases m with _ | _ | _ | _ | _ | m <;>
    simp only [beq_iff_eq, bne_iff_ne, ne_eq, decide_eq_true_eq, intOrder_eq_lt, intOrder_eq_eq, intOrder_eq_gt, Int.not_lt]

/-- ICMP asks its relation of element 0, and of i16x2's other element too. -/
theorem icmpHolds_eq {t : Ty} (ht : IntTy t) (fn : BitVec 5) (a b : Word) :
    icmpHolds t fn.toNat a.toNat b.toNat
      = (relation fn (iv t (elt t 0 a)) (iv t (elt t 0 b))
        && (decide (t ≠ .i16x2) || relation fn (iv t (elt t 1 a)) (iv t (elt t 1 b)))) := by
  have hone (i j : Nat) (x y : Word) : cmpHolds fn.toNat
      (intOrder (intOf (width t) (signed t) (elt t i x)) (intOf (width t) (signed t) (elt t j y)))
        = relation fn (iv t (elt t i x)) (iv t (elt t j y)) := by
    rw [cmpHolds_intOrder, intOf_eq_iv (elt_lt ..), intOf_eq_iv (elt_lt ..)]
  rw [← hone, ← hone]
  by_cases h : t = .i16x2
  · subst h
    rw [elt_zero, elt_zero]
    rfl
  · simp only [icmpHolds, h, if_false, elemBits_eq_width ht, elt_zero, ne_eq, not_false_eq_true, decide_true, Bool.true_or,
      Bool.and_true]
    rfl

theorem predWord_eq_num (b : Bool) : (⟨predWord b, 0⟩ : Val) = num (if b then 1 else 0) := by cases b <;> rfl

theorem integerCompare : IntegerCompare := fun r ht _ =>
  laneOp_result (exec_icmp r) fun s k l => by rw [icmpHolds_eq ht, predWord_eq_num]

/-! ## Select, addresses, moves (R246 to R248) -/

/-- The sum of a base and a scaled index, modulo 2^64. -/
theorem add_shiftLeft_eq_num (a b : Word) (m : Nat) :
    (⟨a + b <<< m, 0⟩ : Val) = num ((a.toNat + b.toNat * 2 ^ m) % 2 ^ 64) := by
  refine congrArg (Val.mk · 0) (BitVec.eq_of_toNat_eq ?_)
  simp [Nat.shiftLeft_eq]

/-- MOV reads its operand A. -/
theorem captureValue_mov {r : Record} (h : r.fn = 0) (s : State) (k : Ctx) (l : Nat) :
    captureValue s k (.mov r) 0 l = opA s k r r.ty l := by
  simp [captureValue, h, opA]

/-- MOV.hi reads the high bytes of the record before it. -/
theorem captureValue_movHi {r : Record} (h : r.fn = 1) (ha : r.a = .dist 1) {s : State} (ho : s.cur.ops = none) (k : Ctx)
    (l : Nat) : captureValue s k (.mov r) 0 l = (recordValue k.wave (s.cur.rcd - 1) l).hi := by
  simp [captureValue, h, ha, ho]

/-- A slot's step is no tender stream's. -/
theorem tenderOf_eq_none {s : State} {k : Ctx} (hk : ctxOf s = some k) : tenderOf s = none := by
  simp [tenderOf, (ctxOf_spec s k hk).1]

theorem execNop_next {s : State} {k : Ctx} (r : Record) (hk : ctxOf s = some k) : execNop r s = .next (advance s k) := by
  rw [execNop, tenderOf_eq_none hk]
  exact onSlot_next s k _ hk

theorem selectLeaMove : SelectLeaMove := by
  intro r
  refine ⟨laneOp_result (exec_sel r) fun _ _ _ => rfl, laneOp_result (exec_lea r) fun s k l => add_shiftLeft_eq_num ..,
    fun h => laneOp_result (exec_mov r) fun s k l => by rw [captureValue_mov h], fun h ha s k hk ho => ?_,
    fun s k hk => (exec_nop r s).trans (execNop_next r hk)⟩
  rw [exec_mov, execMov, laneOp_next s k r _ _ hk]
  simp only [captureValue_movHi h ha ho]
  rfl

/-- Settles O8: ICMP by the trichotomy of integers, the moves from the operands they read. -/
theorem compareSelectMove : Obligations.CompareSelectMove := ⟨integerCompare, selectLeaMove⟩

/-! ## Across lanes (R259, R260, R264) -/

/-- The source lane of SHFL, by its four forms. -/
theorem shflLane_eq (fn : BitVec 5) (w l x : Nat) : shflLane fn.toNat w l x
    = if fn = 0 then l - l % w + x % w
      else if fn = 1 then (if l % w ≥ x then l - x else l)
      else if fn = 2 then (if l % w + x < w then l + x else l)
      else l - l % w + (l % w ^^^ x) % w := by
  simp only [shflLane, toNat_fn_eq (m := 0) (by decide), toNat_fn_eq (m := 1) (by decide), toNat_fn_eq (m := 2) (by decide)]
  rfl

theorem shuffle : Shuffle := fun r _ =>
  laneOp_result (exec_shfl r) fun s k l => by
    simp only [shflLane_eq, List.contains_iff_mem]

/-- The mask of one lane of a wave has that lane's bit alone. -/
theorem getLsbD_laneBit (l n : Nat) : (laneBit l).getLsbD n = (decide (n < 32) && decide (l = n)) := by
  rw [laneBit, BitVec.getLsbD_ofNat, Nat.testBit_two_pow]

theorem getLsbD_foldl_laneBit (ls : List Nat) (m : W32) (n : Nat) :
    (ls.foldl (fun m l => m ||| laneBit l) m).getLsbD n = (m.getLsbD n || (decide (n < 32) && ls.contains n)) := by
  induction ls generalizing m with
  | nil => simp
  | cons l ls ih =>
    rw [List.foldl_cons, ih, BitVec.getLsbD_or, getLsbD_laneBit, List.contains_cons, Bool.or_assoc, ← Bool.and_or_distrib_left]
    simp [Bool.beq_eq_decide_eq, eq_comm (a := n)]

/-- The bits of a mask are its lanes. -/
theorem getLsbD_maskOf (ls : List Nat) (n : Nat) : (maskOf ls).getLsbD n = (decide (n < 32) && ls.contains n) := by
  simp [maskOf, getLsbD_foldl_laneBit]

/-- VOTE.ballot: the bits are the active lanes that have 1; every lane is below 32. -/
theorem getLsbD_ballot {act : List Nat} (hact : ∀ l ∈ act, l < 32) (p : Nat → Bool) {n : Nat} (hn : n < 64) :
    (voteValue 2 act p).getLsbD n = (act.contains n && p n) := by
  change ((maskOf (act.filter p)).setWidth 64).getLsbD n = _
  rw [BitVec.getLsbD_setWidth, getLsbD_maskOf, Bool.eq_iff_iff]
  simp only [hn, decide_true, Bool.true_and, Bool.and_eq_true, decide_eq_true_eq, List.contains_iff_mem, List.mem_filter]
  exact ⟨fun h => h.2, fun h => ⟨hact n h.1, h⟩⟩

/-- A predicate value says whether a proposition holds. -/
theorem predWord_eq_ite {b : Bool} {p : Prop} [Decidable p] (h : b = true ↔ p) : predWord b = if p then 1 else 0 := by
  simp [predWord, h]

/-- The lanes a slot's record sees as active are lanes of a wave. -/
theorem act_lt {s : State} {k : Ctx} (hk : ctxOf s = some k) : ∀ l ∈ k.act, l < 32 := by
  obtain ⟨-, -, -, -, hact⟩ := ctxOf_spec s k hk
  intro l hl
  exact ((mem_lanesOf _ _).mp (hact ▸ hl)).1

theorem voteAndUnif : VoteAndUnif := by
  intro r
  refine ⟨fun s k hk => ⟨_, (exec_vote r s).trans (waveOp_next s k _ _ hk), ?_⟩,
    fun s k hk => (exec_unif r s).trans (waveOp_next s k _ _ hk)⟩
  refine ⟨fun h => ?_, fun h => ?_, fun h n hn => ?_, fun h => ?_⟩ <;> rw [h]
  · exact predWord_eq_ite List.all_eq_true
  · exact predWord_eq_ite List.any_eq_true
  · exact getLsbD_ballot (act_lt hk) _ hn
  · exact predWord_eq_ite (by simp)

/-- Settles O14: SHFL by its source lane, VOTE and UNIF as one value over the active lanes. -/
theorem laneExchange : Obligations.LaneExchange := ⟨shuffle, voteAndUnif⟩

end Sys2Proof.Proofs.Compute
end

section
/-! SUPPORT. Encoding and decoding (R166, R167, R183, R203 to R205): operand fields, rows and words are read back as what
they were written from. -/

open Sys2Proof Sys2Proof.Machine Sys2Proof.Cert

namespace Sys2Proof.Proofs.Encoding

/-! ## Types and operand fields (R167, R169) -/

theorem ofCode_code (t : Ty) : Ty.ofCode t.code = t := by cases t <;> rfl

theorem code_ofCode {n : Nat} (h : n < 16) : (Ty.ofCode n).code = n := by
  exact (by decide : ∀ m, m < 16 → (Ty.ofCode m).code = m) n h

theorem toNat_append_eq_add {m n : Nat} (x : BitVec m) (y : BitVec n) : (x ++ y).toNat = x.toNat * 2 ^ n + y.toNat := by
  rw [BitVec.toNat_append, ← Nat.shiftLeft_add_eq_or_of_lt y.isLt, Nat.shiftLeft_eq]

/-- The form and the body of an operand field. -/
theorem append_shift_and_low (x : BitVec 2) (y : BitVec 13) :
    ((x ++ y : BitVec 15) >>> 13).toNat = x.toNat ∧ (x ++ y : BitVec 15).setWidth 13 = y := by
  have hy := y.isLt
  have h : (x ++ y : BitVec 15).toNat = x.toNat * 2 ^ 13 + y.toNat := toNat_append_eq_add x y
  refine ⟨?_, BitVec.eq_of_toNat_eq ?_⟩
  · rw [BitVec.toNat_ushiftRight, h, Nat.shiftRight_eq_div_pow]; omega
  · rw [BitVec.toNat_setWidth, h]; omega

/-- A field is its form above its body. -/
theorem eq_append_of_shift {f : BitVec 15} {x : BitVec 2} (h : (f >>> 13).toNat = x.toNat) :
    f = (x ++ (f.setWidth 13 : BitVec 13) : BitVec 15) := by
  refine BitVec.eq_of_toNat_eq ?_
  rw [show (x ++ f.setWidth 13 : BitVec 15).toNat = _ from toNat_append_eq_add x _]
  rw [BitVec.toNat_ushiftRight, Nat.shiftRight_eq_div_pow] at h
  rw [BitVec.toNat_setWidth]
  omega

/-- The body of a named operand: its kind in bits 12:11, its number in bits 7:0. -/
theorem named_body (q : BitVec 2) (n : BitVec 8) :
    ((q ++ (0#3 ++ n) : BitVec 13) >>> 11).toNat = q.toNat ∧ ((q ++ (0#3 ++ n) : BitVec 13) >>> 8).toNat % 8 = 0
      ∧ (q ++ (0#3 ++ n) : BitVec 13).setWidth 8 = n := by
  have hn := n.isLt
  have h : (q ++ (0#3 ++ n) : BitVec 13).toNat = q.toNat * 2 ^ 11 + n.toNat := by
    rw [show (q ++ (0#3 ++ n) : BitVec 13).toNat = _ from toNat_append_eq_add q _, toNat_append_eq_add]
    simp
  refine ⟨?_, ?_, BitVec.eq_of_toNat_eq ?_⟩
  · rw [BitVec.toNat_ushiftRight, h, Nat.shiftRight_eq_div_pow]; omega
  · rw [BitVec.toNat_ushiftRight, h, Nat.shiftRight_eq_div_pow]; omega
  · rw [BitVec.toNat_setWidth, h]; omega

/-- A body whose RZ bits are clear is that of its kind and number. -/
theorem eq_named_body {y : BitVec 13} {q : BitVec 2} (hq : (y >>> 11).toNat = q.toNat) (hz : (y >>> 8).toNat % 8 = 0) :
    y = (q ++ (0#3 ++ (y.setWidth 8 : BitVec 8)) : BitVec 13) := by
  refine BitVec.eq_of_toNat_eq ?_
  rw [show (q ++ (0#3 ++ y.setWidth 8) : BitVec 13).toNat = _ from toNat_append_eq_add q _, toNat_append_eq_add]
  rw [BitVec.toNat_ushiftRight, Nat.shiftRight_eq_div_pow] at hq hz
  simp only [BitVec.toNat_setWidth, BitVec.toNat_ofNat]
  omega

/-- A named operand's field is read by its kind. -/
theorem decode_named (q : BitVec 2) (n : BitVec 8) :
    Opnd.decode (1#2 ++ (q ++ (0#3 ++ n)) : BitVec 15) = some (match q.toNat with
      | 0 => .keep n
      | 1 => .unif n
      | 2 => .arg n
      | _ => .spec n) := by
  obtain ⟨hform, hlow⟩ := append_shift_and_low 1#2 (q ++ (0#3 ++ n) : BitVec 13)
  obtain ⟨hkind, hrz, hnum⟩ := named_body q n
  simp only [Opnd.decode, hform, hlow, hkind, hrz, hnum]
  change (if (0 : Nat) ≠ 0 then none else _) = _
  rw [if_neg (fun h => h rfl)]
  generalize q.toNat = m
  match m with
  | 0 | 1 | 2 | _ + 3 => rfl

/-- An operand that a record can hold is read back from its field. -/
theorem decode_encode_operand {o : Opnd} (h : o.isRecord = true) : Opnd.decode o.encode = some o := by
  cases o with
  | vreg | ureg | dimm => simp [Opnd.isRecord] at h
  | dist d => simp only [Opnd.decode, Opnd.encode, (append_shift_and_low 0#2 d).1, (append_shift_and_low 0#2 d).2]; rfl
  | imm d => simp only [Opnd.decode, Opnd.encode, (append_shift_and_low 2#2 d).1, (append_shift_and_low 2#2 d).2]; rfl
  | lit d => simp only [Opnd.decode, Opnd.encode, (append_shift_and_low 3#2 d).1, (append_shift_and_low 3#2 d).2]; rfl
  | keep n => exact decode_named 0#2 n
  | unif n => exact decode_named 1#2 n
  | arg n => exact decode_named 2#2 n
  | spec n => exact decode_named 3#2 n

/-- The form of a field, and the kind of a body, is one of four. -/
theorem shift_lt_four {m n : Nat} (f : BitVec m) (h : m = 2 + n) : (f >>> n).toNat < 4 := by
  subst h
  have hf := f.isLt
  rw [BitVec.toNat_ushiftRight, Nat.shiftRight_eq_div_pow, Nat.div_lt_iff_lt_mul (Nat.two_pow_pos n)]
  rwa [Nat.pow_add] at hf

theorem eq_three {n : Nat} (h : n < 4) (h0 : n ≠ 0) (h1 : n ≠ 1) (h2 : n ≠ 2) : n = 3 := by omega

/-- A field that is read as an operand is that operand's. -/
theorem encode_decode_operand {f : BitVec 15} {o : Opnd} (h : Opnd.decode f = some o) : o.encode = f := by
  simp only [Opnd.decode] at h
  split at h
  case h_1 hf => cases h; exact (eq_append_of_shift (x := 0#2) hf).symm
  case h_2 hf =>
    split at h
    · simp at h
    · rename_i hz
      have key (q : BitVec 2) (hq : ((f.setWidth 13 : BitVec 13) >>> 11).toNat = q.toNat) :
          (1#2 ++ (q ++ (0#3 ++ ((f.setWidth 13 : BitVec 13).setWidth 8 : BitVec 8))) : BitVec 15) = f := by
        rw [← eq_named_body hq (by omega)]
        exact (eq_append_of_shift (x := 1#2) hf).symm
      split at h
      case h_1 hq => cases h; exact key 0#2 hq
      case h_2 hq => cases h; exact key 1#2 hq
      case h_3 hq => cases h; exact key 2#2 hq
      case h_4 h0 h1 h2 => cases h; exact key 3#2 (eq_three (shift_lt_four _ rfl) h0 h1 h2)
  case h_3 hf => cases h; exact (eq_append_of_shift (x := 2#2) hf).symm
  case h_4 h0 h1 h2 =>
    cases h
    exact (eq_append_of_shift (x := 3#2) (eq_three (shift_lt_four _ rfl) h0 h1 h2)).symm

/-! ## Rows (R183) -/

/-- A row that an opcode's fields select has that opcode and those fields. -/
theorem opRecord_of_ofOp {op : Nat} {r : Record} {i : Instr} (h : Instr.ofOp op r = some i) : i.opRecord = some (op, r) := by
  unfold Instr.ofOp at h
  split at h
  case h_69 | h_76 | h_78 | h_80 => split at h <;> cases h <;> rfl
  case h_74 | h_79 | h_96 => split at h <;> cases h <;> rfl
  case h_97 => cases h
  all_goals cases h; rfl

/-- The row that the decoder gives for a row's opcode and fields: in a plain block the tender's LOOP is a LOOP. -/
def asPlain : Instr → Instr
  | .tenderLoop r => .loop r
  | i => i

section
variable (r : Record)

theorem ofOp_fence : Instr.ofOp 0x44 r = if r.a = .imm 1 then some (.fenceEng r) else some (.fence r) := rfl
theorem ofOp_cell : Instr.ofOp 0x49 r = match r.fn.toNat % 4 with
    | 0 => some (.cellMake r) | 1 => some (.cellSet r) | 2 => some (.cellTag r) | _ => some (.cellPeek r) := rfl
theorem ofOp_barrier : Instr.ofOp 0x4B r = if r.fn = 0 then some (.barWait r) else some (.barArrive r) := rfl
theorem ofOp_spawn : Instr.ofOp 0x4D r = if r.fn = 0 then some (.spawnTask r) else some (.spawnLaunch r) := rfl
theorem ofOp_wait : Instr.ofOp 0x4E r = match r.fn.toNat with
    | 0 => some (.waitAny r) | 1 => some (.waitAll r) | 2 => some (.waitFirst r) | _ => some (.waitRing r) := rfl
theorem ofOp_tags : Instr.ofOp 0x4F r = if r.fn = 0 then some (.tagsRead r) else some (.tagsClr r) := rfl
theorem ofOp_sys : Instr.ofOp 0x5F r = match r.fn.toNat with
    | 0 => some (.sysTret r) | 1 => some (.sysSnap r) | 2 => some (.sysSnapq r)
    | 3 => some (.sysCfg r) | 4 => some (.sysDbgset r) | _ => some (.sysHaltq r) := rfl
end

/-- A record is read as the row of its opcode, FN and operand A. -/
theorem ofOp_of_rowOk {i : Instr} {op : Nat} {r : Record} (h : i.opRecord = some (op, r)) (hrow : i.rowOk = true) :
    Instr.ofOp op r = some (asPlain i) := by
  unfold Instr.opRecord at h
  split at h
  case h_113 => simp at h
  all_goals obtain ⟨rfl, rfl⟩ := Prod.mk.inj (Option.some.inj h)
  all_goals simp only [Instr.rowOk, decide_eq_true_eq, Opnd.isAbsent] at hrow
  case h_70 | h_71 => rw [ofOp_fence, hrow]; rfl
  case h_76 | h_77 | h_78 | h_79 => rw [ofOp_cell, hrow]; rfl
  case h_81 | h_82 => rw [ofOp_barrier, hrow]; rfl
  case h_84 | h_85 => rw [ofOp_spawn, hrow]; rfl
  case h_86 | h_87 | h_88 | h_89 => rw [ofOp_wait, hrow]; rfl
  case h_90 | h_91 => rw [ofOp_tags, hrow]; rfl
  case h_107 | h_108 | h_109 | h_110 | h_111 | h_112 => rw [ofOp_sys, hrow]; rfl
  all_goals rfl

theorem opcode_lt {i : Instr} {op : Nat} {r : Record} (h : i.opRecord = some (op, r)) : op < 0x60 := by
  unfold Instr.opRecord at h
  split at h
  case h_113 => simp at h
  all_goals obtain ⟨rfl, rfl⟩ := Prod.mk.inj (Option.some.inj h); decide

/-! ## Record words (R166) -/

/-- The word holds these fields (R166). -/
structure Holds (w : Word) (op : Nat) (r : Record) : Prop where
  op : bitsOf w.toNat 63 57 = op
  u : bitsOf w.toNat 56 56 = if r.u then 1 else 0
  ty : bitsOf w.toNat 55 52 = r.ty.code
  fn : bitsOf w.toNat 51 47 = r.fn.toNat
  rz : bitsOf w.toNat 46 45 = 0
  a : bitsOf w.toNat 44 30 = r.a.encode.toNat
  b : bitsOf w.toNat 29 15 = r.b.encode.toNat
  c : bitsOf w.toNat 14 0 = r.c.encode.toNat

/-- A row's word holds its record, and no other word does. -/
theorem encode_eq_some_iff {i : Instr} {op : Nat} {r : Record} (h : i.opRecord = some (op, r)) (w : Word) :
    encode i = some w ↔ Holds w op r := by
  have hop := opcode_lt h
  have ht := Laws.Word.code_lt r.ty
  have hf := r.fn.isLt
  have ha := r.a.encode.isLt
  have hb := r.b.encode.isLt
  have hc := r.c.encode.isLt
  have hw := w.isLt
  simp only [encode, h, Option.some.injEq, ← BitVec.toNat_inj, BitVec.toNat_ofNat]
  constructor
  · intro e
    constructor <;> simp only [bitsOf] <;> cases hu : r.u <;> simp only [hu, Bool.false_eq_true, if_true, if_false] at e ⊢ <;> omega
  · rintro ⟨h1, h2, h3, h4, h5, h6, h7, h8⟩
    simp only [bitsOf] at h1 h2 h3 h4 h5 h6 h7 h8
    cases hu : r.u <;> simp only [hu, Bool.false_eq_true, if_true, if_false] at h2 ⊢ <;> omega

/-- A word that holds a record whose fields R166, R111 and R183 allow is read as the record's row. -/
theorem decode_of_holds {w : Word} {op : Nat} {r : Record} {i : Instr} (hw : Holds w op r) (hop : op < 0x60)
    (hty : tyListed op r.ty = true) (hfn : fnListed op r.ty r.fn.toNat = true) (hord : orderOk op r.fn = true)
    (ha : r.a.isRecord = true) (hb : r.b.isRecord = true) (hc : r.c.isRecord = true) (hi : Instr.ofOp op r = some i) :
    decode w = .ok i := by
  have hu : decide (bitsOf w.toNat 56 56 = 1) = r.u := by rw [hw.u]; cases r.u <;> rfl
  simp only [decode, hw.op, hw.rz, hw.ty, hw.fn, hw.a, hw.b, hw.c, hu, ofCode_code, BitVec.ofNat_toNat, BitVec.setWidth_eq,
    decode_encode_operand ha, decode_encode_operand hb, decode_encode_operand hc, hty, hfn, hord, hi,
    Nat.not_le.mpr hop, ne_eq, not_true_eq_false, if_false, Bool.not_true, Bool.false_eq_true]

theorem eq_ite_eq_one {n : Nat} (h : n < 2) : n = if decide (n = 1) then 1 else 0 := by
  match n, h with
  | 0, _ | 1, _ => rfl
  | _ + 2, h => exact absurd h (by omega)

/-- A word that is read as an instruction holds its record. -/
theorem holds_of_decode {w : Word} {i : Instr} (h : decode w = .ok i) : ∃ op r, i.opRecord = some (op, r) ∧ Holds w op r := by
  simp only [decode] at h
  split at h
  · cases h
  split at h
  · cases h
  split at h
  case h_2 => cases h
  case h_1 hrz _ _ _ a b c ha hb hc =>
    split at h
    · cases h
    split at h
    · cases h
    split at h
    · cases h
    split at h
    case h_2 => cases h
    case h_1 hi =>
      cases h
      refine ⟨_, _, opRecord_of_ofOp hi, ⟨rfl, ?_, ?_, ?_, ?_, ?_, ?_, ?_⟩⟩
      · exact eq_ite_eq_one (Nat.mod_lt _ (by decide))
      · exact (code_ofCode (Nat.mod_lt _ (by decide))).symm
      · simp only [bitsOf, BitVec.toNat_ofNat]; omega
      · exact Classical.not_not.mp hrz
      · rw [encode_decode_operand ha]; simp only [bitsOf, BitVec.toNat_ofNat]; omega
      · rw [encode_decode_operand hb]; simp only [bitsOf, BitVec.toNat_ofNat]; omega
      · rw [encode_decode_operand hc]; simp only [bitsOf, BitVec.toNat_ofNat]; omega

/-- A well-formed record instruction has a word, and the word is read as its row. -/
theorem decode_encode {i : Instr} {op : Nat} {r : Record} (h : i.opRecord = some (op, r)) (hwf : i.wellFormed = true) :
    ∃ w, encode i = some w ∧ decode w = .ok (asPlain i) := by
  obtain ⟨w, hw⟩ : ∃ w, encode i = some w := by simp [encode, h]
  refine ⟨w, hw, ?_⟩
  simp only [Instr.wellFormed, h, Bool.and_eq_true] at hwf
  obtain ⟨⟨⟨⟨⟨⟨⟨⟨hty, hfn⟩, hord⟩, ha⟩, hb⟩, hc⟩, -⟩, -⟩, hrow⟩ := hwf
  exact decode_of_holds ((encode_eq_some_iff h _).mp hw) (opcode_lt h) hty hfn hord ha hb hc (ofOp_of_rowOk h hrow)

theorem encode_of_decode {w : Word} {i : Instr} (h : decode w = .ok i) : encode i = some w := by
  obtain ⟨op, r, hr, hw⟩ := holds_of_decode h
  exact (encode_eq_some_iff hr w).mpr hw

/-- Only a LOOP of a tender block is read otherwise in a plain one. -/
theorem asPlain_of_ne {i : Instr} (h : ∀ r, i ≠ .tenderLoop r) : asPlain i = i := by
  unfold asPlain
  split
  · exact absurd rfl (h _)
  · rfl

theorem decodeTender_of_decode {w : Word} {i : Instr} (h : decode w = .ok (asPlain i)) (hl : ∀ r, i ≠ .loop r) :
    decodeTender w = .ok i := by
  by_cases hi : ∃ r, i = .tenderLoop r
  · obtain ⟨r, rfl⟩ := hi
    simp [decodeTender, h, asPlain]
  · rw [asPlain_of_ne fun r hr => hi ⟨r, hr⟩] at h
    unfold decodeTender
    rw [h]
    split
    · rename_i r heq
      exact absurd (Except.ok.inj heq) (hl r)
    · rfl

/-! ## Die-only words (R205) -/

section
variable {pre : Option (BitVec 24)} {w : W32} {rest : List W32}

theorem decodeDie_dlit (hop : bitsOf w.toNat 30 24 = 0x61) : decodeDie pre w rest
    = .ok ⟨.dlit (bitsOf w.toNat 31 31 = 1) (BitVec.ofNat 24 w.toNat), 0, false, bitsOf w.toNat 31 31 = 1, 1⟩ := by
  simp [decodeDie, hop]

theorem decodeDie_win (hop : bitsOf w.toNat 30 24 = 0x60) (hl : bitsOf w.toNat 23 23 = 0) (hz : bitsOf w.toNat 22 14 = 0)
    (hz' : bitsOf w.toNat 6 1 = 0) : decodeDie pre w rest
    = .ok ⟨.win (bitsOf w.toNat 31 31 = 1) (BitVec.ofNat 7 (bitsOf w.toNat 13 7)) (bitsOf w.toNat 0 0 = 1), 0, false,
        bitsOf w.toNat 31 31 = 1, 1⟩ := by
  simp [decodeDie, hop, hl, hz, hz']

theorem decodeDie_dspl (hop : bitsOf w.toNat 30 24 = 0x62) (hl : bitsOf w.toNat 23 23 = 0) (hz : bitsOf w.toNat 22 2 = 0) :
    decodeDie pre w rest
    = .ok ⟨.dspl (bitsOf w.toNat 31 31 = 1) (BitVec.ofNat 2 (bitsOf w.toNat 1 0)), 0, false, bitsOf w.toNat 31 31 = 1, 1⟩ := by
  simp [decodeDie, hop, hl, hz]
end

/-- M and OP of a die-only word, and its 24 bits below them. -/
theorem die_fields (m : Bool) {op n : Nat} (hop : op < 128) (hn : n < 2 ^ 24) :
    ∃ w : W32, BitVec.ofNat 32 ((if m then 2 ^ 31 else 0) + op * 2 ^ 24 + n) = w
      ∧ bitsOf w.toNat 30 24 = op ∧ decide (bitsOf w.toNat 31 31 = 1) = m ∧ w.toNat % 2 ^ 24 = n := by
  refine ⟨_, rfl, ?_⟩
  cases m <;> simp only [bitsOf, BitVec.toNat_ofNat, Bool.false_eq_true, if_true, if_false, decide_eq_true_eq,
    decide_eq_false_iff_not] <;> omega

/-- A die-only word is read as its instruction, in one word. -/
theorem decodeDie_encodeDie {i : Instr} {w : W32} (h : encodeDie i = some w) :
    ∃ d, decodeDie none w [0] = .ok d ∧ d.ins = i ∧ d.words = 1 := by
  unfold encodeDie at h
  split at h
  case h_4 => cases h
  all_goals obtain rfl := Option.some.inj h
  case h_1 m woff ub =>
    have hw := woff.isLt
    have hb : (if ub then 1 else 0) < 2 ∧ decide ((if ub then 1 else 0) = 1) = ub := by cases ub <;> decide
    rw [Nat.add_assoc]
    generalize (if ub then 1 else 0 : Nat) = b at hb
    obtain ⟨w, hword, hop, hm, hn⟩ := die_fields m (op := 0x60) (n := woff.toNat * 2 ^ 7 + b) (by decide) (by omega)
    rw [hword]
    have hoff : BitVec.ofNat 7 (bitsOf w.toNat 13 7) = woff := by
      refine BitVec.eq_of_toNat_eq ?_
      simp only [bitsOf, BitVec.toNat_ofNat]
      omega
    have hbank : bitsOf w.toNat 0 0 = b := by simp only [bitsOf]; omega
    refine ⟨_, decodeDie_win hop ?_ ?_ ?_, ?_, rfl⟩
    · simp only [bitsOf]; omega
    · simp only [bitsOf]; omega
    · simp only [bitsOf]; omega
    · simp only [hm, hoff, hbank, hb.2]
  case h_2 m p =>
    obtain ⟨w, hword, hop, hm, hn⟩ := die_fields m (op := 0x61) (by decide) p.isLt
    rw [hword]
    have hp : BitVec.ofNat 24 w.toNat = p := BitVec.eq_of_toNat_eq hn
    exact ⟨_, decodeDie_dlit hop, by simp only [hm, hp], rfl⟩
  case h_3 m k =>
    have hk := k.isLt
    obtain ⟨w, hword, hop, hm, hn⟩ := die_fields m (op := 0x62) (n := k.toNat) (by decide) (by omega)
    rw [hword]
    have hkk : BitVec.ofNat 2 (bitsOf w.toNat 1 0) = k := by
      refine BitVec.eq_of_toNat_eq ?_
      simp only [bitsOf, BitVec.toNat_ofNat]
      omega
    refine ⟨_, decodeDie_dspl hop ?_ ?_, by simp only [hm, hkk], rfl⟩
    · simp only [bitsOf]; omega
    · simp only [bitsOf]; omega

/-- Settles O57: a word holds the fields of its record, in both directions; a die-only word is its opcode and its fields. -/
theorem encodeDecodeRoundTrip : Obligations.EncodeDecodeRoundTrip := by
  refine ⟨fun i op r h hwf => ?_, fun w i h => encode_of_decode h, fun i w h => decodeDie_encodeDie h⟩
  obtain ⟨w, hw, hd⟩ := decode_encode h hwf
  have hrow {q : Record} (hq : i.opRecord = some (0x35, q)) : r = q := by
    rw [h] at hq; exact (Prod.mk.inj (Option.some.inj hq)).2
  refine ⟨w, hw, fun hn => ?_, fun hn => ?_⟩
  · rw [hd, asPlain_of_ne]
    rintro q rfl
    exact hn (by rw [hrow rfl])
  · apply decodeTender_of_decode hd
    rintro q rfl
    exact hn (by rw [hrow rfl])

end Sys2Proof.Proofs.Encoding
end

section
/-! SUPPORT. The machine's fixed points: words that decode to what they stand for, the state a device reset leaves, and the
new values of ATOM (R284). -/

open Sys2Proof Sys2Proof.Machine Sys2Proof.Cert

namespace Sys2Proof.Proofs.Basics

/-- Settles O56: the words evaluated. -/
theorem wordsDecode : Obligations.WordsDecode := by
  exact ⟨rfl, rfl, rfl, rfl, by decide, by decide, by decide⟩

/-- Settles O59: the memories, partitions and launches of the reset state are empty, and a core that nothing has written is
the reset core. -/
theorem resetState : Obligations.ResetState := by
  refine ⟨⟨rfl, rfl, rfl⟩, rfl, fun d => ?_, fun a => rfl, rfl, rfl, fun c => ⟨rfl, rfl, rfl, rfl⟩⟩
  match d with
  | 0 | 1 | 2 | 3 | _ + 4 => rfl

/-- Settles O24: ATOM's operands fit their width, so its wrapping reads are the operands themselves. -/
theorem atomOperations : Obligations.AtomOperations := by
  intro t old b c ht ho hb hc
  have hwrap : (old + 1) % 2 ^ width t = wrap (width t) (old + 1) := by unfold wrap; norm_cast
  simp only [atomNew, Compute.intOf_eq_iv ho, Compute.intOf_eq_iv hb, Nat.mod_eq_of_lt hb, Nat.mod_eq_of_lt hc, hwrap,
    Bool.or_eq_true, decide_eq_true_eq, ← Int.not_le, ite_not, true_and]
  exact ⟨rfl, rfl, rfl, rfl, rfl, trivial⟩

end Sys2Proof.Proofs.Basics
end

section
/-! SUPPORT. What a record that computes values changes: its own slot, values, uniform slots and the registers of its
destination (R24, R168, R173, R203, R235); and where its values are found afterwards. -/

open Sys2Proof Sys2Proof.Machine Sys2Proof.Cert

namespace Sys2Proof.Proofs.Frames

/-! ## Slots of a wave -/

/-- The sibling's slot is another. -/
theorem sibling_ne (x : Nat) : (x = 0) ≠ (1 - x = 0) := by
  simp only [ne_eq, eq_iff_iff]; omega

@[simp] theorem slotOf_putSlot_sibling (v : Wave) (x : Nat) (t : Slot) : slotOf (putSlot v x t) (1 - x) = slotOf v (1 - x) :=
  slotOf_putSlot_other v x (1 - x) t (sibling_ne x)

@[simp] theorem slotOf_dropValues (v : Wave) (m : W32) (x : Nat) : slotOf (dropValues v m) x = slotOf v x := rfl

@[simp] theorem slotOf_writeVals (v : Wave) (ws : List (Nat × Val)) (x : Nat) : slotOf (writeVals v ws) x = slotOf v x := rfl

/-- The slot's path stands: its lanes, its reconvergence block, its held lanes. -/
def SamePath (t u : Slot) : Prop := u.mask = t.mask ∧ u.jblk = t.jblk ∧ u.held = t.held

theorem SamePath.refl (t : Slot) : SamePath t t := ⟨rfl, rfl, rfl⟩

theorem SamePath.trans {t u w : Slot} (h : SamePath t u) (g : SamePath u w) : SamePath t w :=
  ⟨g.1.trans h.1, g.2.1.trans h.2.1, g.2.2.trans h.2.2⟩

/-! ## The frame of a record that computes values -/

/-- One wave after part of a computing record of slot `x`. -/
structure WaveStep (x : Nat) (v u : Wave) : Prop where
  rest : u = { v with slot0 := u.slot0, slot1 := u.slot1, vals := u.vals, uni := u.uni,
                      valPoison := u.valPoison, uniPoison := u.uniPoison }
  sibling : slotOf u (1 - x) = slotOf v (1 - x)
  path : SamePath (slotOf v x) (slotOf u x)

theorem WaveStep.refl (x : Nat) (v : Wave) : WaveStep x v v := ⟨rfl, rfl, SamePath.refl _⟩

theorem WaveStep.trans {x : Nat} {v u w : Wave} (h : WaveStep x v u) (g : WaveStep x u w) : WaveStep x v w := by
  refine ⟨?_, g.sibling.trans h.sibling, h.path.trans g.path⟩
  rw [g.rest, h.rest]

/-- A slot of the wave replaced, its path standing. -/
theorem waveStep_putSlot {x : Nat} {v : Wave} {t : Slot} (h : SamePath (slotOf v x) t) : WaveStep x v (putSlot v x t) := by
  refine ⟨?_, slotOf_putSlot_sibling .., by rw [slotOf_putSlot]; exact h⟩
  unfold putSlot; split <;> rfl

theorem waveStep_dropValues (x : Nat) (v : Wave) (m : W32) : WaveStep x v (dropValues v m) := ⟨rfl, rfl, SamePath.refl _⟩

theorem waveStep_writeVals (x : Nat) (v : Wave) (ws : List (Nat × Val)) : WaveStep x v (writeVals v ws) :=
  ⟨rfl, rfl, SamePath.refl _⟩

theorem waveStep_moveSlot (v : Wave) (x b r : Nat) : WaveStep x v (moveSlot v x b r) :=
  (waveStep_dropValues x v _).trans (waveStep_putSlot ⟨rfl, rfl, rfl⟩)

theorem waveStep_advanceSlot (v : Wave) (x : Nat) : WaveStep x v (advanceSlot v x) := by
  simp only [advanceSlot]
  split
  · exact waveStep_putSlot ⟨rfl, rfl, rfl⟩
  · split
    · exact waveStep_putSlot ⟨rfl, rfl, rfl⟩
    · exact waveStep_moveSlot ..

theorem waveStep_stepSlot (cur : Issue) (v : Wave) (x : Nat) : WaveStep x v (stepSlot cur v x) := by
  simp only [stepSlot]
  split
  · exact waveStep_advanceSlot ..
  · split
    · exact waveStep_putSlot ⟨rfl, rfl, rfl⟩
    · split
      · exact waveStep_putSlot ⟨rfl, rfl, rfl⟩
      · exact waveStep_moveSlot ..

/-- The state after part of a computing record of slot `x` of a wave. -/
structure SlotStep (c w x : Nat) (s t : State) : Prop where
  rest : t = { s with cores := t.cores }
  core : ∀ d, d ≠ c → coreOf t d = coreOf s d
  parts : ∃ regs poison waves, coreOf t c = { coreOf s c with regs := regs, regPoison := poison, waves := waves }
  others : ∀ u, u ≠ w → waveOf t c u = waveOf s c u
  wave : ∀ v, waveOf s c w = some v → ∃ u, waveOf t c w = some u ∧ WaveStep x v u

theorem SlotStep.refl (c w x : Nat) (s : State) : SlotStep c w x s s :=
  ⟨rfl, fun _ _ => rfl, ⟨_, _, _, rfl⟩, fun _ _ => rfl, fun v h => ⟨v, h, WaveStep.refl x v⟩⟩

theorem SlotStep.trans {c w x : Nat} {s t u : State} (h : SlotStep c w x s t) (g : SlotStep c w x t u) : SlotStep c w x s u := by
  refine ⟨?_, fun d hd => (g.core d hd).trans (h.core d hd), ?_, fun y hy => (g.others y hy).trans (h.others y hy), fun v hv => ?_⟩
  · rw [g.rest, h.rest]
  · obtain ⟨r1, p1, w1, h1⟩ := h.parts
    obtain ⟨r2, p2, w2, h2⟩ := g.parts
    exact ⟨r2, p2, w2, by rw [h2, h1]⟩
  · obtain ⟨u1, hu1, s1⟩ := h.wave v hv
    obtain ⟨u2, hu2, s2⟩ := g.wave u1 hu1
    exact ⟨u2, hu2, s1.trans s2⟩

theorem slotStep_onWave {c w x : Nat} {s : State} {f : Wave → Wave} (h : ∀ v, waveOf s c w = some v → WaveStep x v (f v)) :
    SlotStep c w x s (onWave s c w f) := by
  refine ⟨onWave_onlyCores .., fun d hd => coreOf_onWave_other _ _ _ _ _ hd, ?_,
    fun u hu => waveOf_onWave_other _ _ _ _ _ _ (.inr hu), fun v hv => ⟨f v, by simp [hv], h v hv⟩⟩
  obtain ⟨m, hm⟩ := coreOf_onWave s c w f
  exact ⟨_, _, m, hm⟩

/-- Registers of the core changed, and their marks of damage. -/
theorem slotStep_onCore {c w x : Nat} {s : State} {f : Core → Core} {regs : SMap W32} {poison : List Nat}
    (h : f (coreOf s c) = { coreOf s c with regs := regs, regPoison := poison }) : SlotStep c w x s (onCore s c f) := by
  have hw : (f (coreOf s c)).waves = (coreOf s c).waves := by rw [h]
  exact ⟨rfl, fun d hd => coreOf_onCore_other _ _ _ _ hd, ⟨regs, poison, _, (coreOf_onCore ..).trans h⟩,
    fun u _ => waveOf_onCore _ _ _ _ hw _, fun v hv => ⟨v, (waveOf_onCore _ _ _ _ hw _).trans hv, WaveStep.refl x v⟩⟩

theorem samePath_logRegs (k : Core) (keys : List Nat) (t : Slot) : SamePath t (logRegs k keys t) := by
  unfold logRegs; split <;> exact SamePath.refl _

theorem slotStep_writeRegs (s : State) (c w x : Nat) (ws : List (Nat × W32)) : SlotStep c w x s (writeRegs s c w x ws) := by
  unfold writeRegs
  exact SlotStep.trans (slotStep_onWave fun _ _ => waveStep_putSlot (samePath_logRegs ..)) (slotStep_onCore rfl)

theorem slotStep_writeUni (s : State) (c w x n : Nat) (a : Word) : SlotStep c w x s (writeUni s c w x n a) := by
  refine slotStep_onWave fun v _ => ?_
  dsimp only
  refine WaveStep.trans (u := { v with uni := smSet 0 v.uni n a, uniPoison := v.uniPoison.filter (fun i => i / 2 ≠ n) })
    ⟨rfl, rfl, SamePath.refl _⟩ (waveStep_putSlot ?_)
  split <;> exact SamePath.refl _

theorem slotStep_writeResults (s : State) (k : Ctx) (out : Ty) (vals : List (Nat × Val)) :
    SlotStep k.core k.w k.x s (writeResults s k out vals) := by
  unfold writeResults
  split
  · exact slotStep_onWave fun v _ => waveStep_writeVals ..
  · split
    · exact (slotStep_writeRegs ..).trans (slotStep_writeRegs ..)
    · exact slotStep_writeRegs ..
  · split
    · exact SlotStep.refl ..
    · exact slotStep_writeUni ..

theorem slotStep_advance (s : State) (k : Ctx) : SlotStep k.core k.w k.x s (advance s k) := by
  unfold advance
  split
  · exact SlotStep.refl ..
  · exact slotStep_onWave fun v _ => waveStep_stepSlot ..

/-- What a completed record changes is within the frame of those that compute values. -/
theorem frame_of_slotStep {s t : State} {k : Ctx} (hk : ctxOf s = some k) (h : SlotStep k.core k.w k.x s t) : Frame s t k := by
  obtain ⟨-, hv, hslot, -, -⟩ := ctxOf_spec s k hk
  obtain ⟨u, hu, hstep⟩ := h.wave _ hv
  obtain ⟨hm, hj, hh⟩ := hstep.path
  exact ⟨h.rest, h.core, h.parts, h.others, u, hu, hstep.rest, hstep.sibling, by rw [hm, hslot], by rw [hj, hslot],
    by rw [hh, hslot]⟩

/-! ## Positions and values -/

theorem stepSlot_vals {cur : Issue} {v : Wave} {x : Nat} (h : (slotOf (stepSlot cur v x) x).rcd ≠ 0) :
    (stepSlot cur v x).vals = v.vals := by
  have hmove (b : Nat) : (slotOf (moveSlot v x b 0) x).rcd = 0 := by simp [moveSlot]
  simp only [stepSlot, advanceSlot, leaveBlock] at h ⊢
  split at h
  · rename_i hd
    simp only [hd, if_true]
    split at h
    · rename_i hr; simp [hr]
    · rename_i hr
      split at h
      · rename_i hc; simp [hr, hc]
      · exact absurd (hmove _) h
  · rename_i hd
    simp only [hd]
    split at h
    · simp
    · split at h
      · rename_i hc; simp [hc]
      · exact absurd (hmove _) h

/-- Where a slot's pass goes on after a record, the values of the pass stand. -/
theorem waveOf_advance (s : State) (k : Ctx) : waveOf (advance s k) k.core k.w
    = (waveOf s k.core k.w).map (fun v => if s.cur.replay || !sameRun s k then v else stepSlot s.cur v k.x) := by
  unfold advance
  split
  · simp
  · simp

theorem stepSlot_uni (cur : Issue) (v : Wave) (x : Nat) : (stepSlot cur v x).uni = v.uni := by
  rw [stepSlot_onlyPath cur v x]

@[simp] theorem advance_regs (s : State) (k : Ctx) (c : Nat) : (coreOf (advance s k) c).regs = (coreOf s c).regs := by
  unfold advance
  split
  · rfl
  · by_cases hc : c = k.core
    · subst hc
      obtain ⟨m, hm⟩ := coreOf_onWave s k.core k.w (fun v => stepSlot s.cur v k.x)
      rw [hm]
    · rw [coreOf_onWave_other _ _ _ _ _ hc]

/-! ## Registers (R174, R189, R203) -/

theorem regKey_inj {r q l m : Nat} (hl : l < 32) (hm : m < 32) : regKey r l = regKey q m ↔ r = q ∧ l = m := by
  unfold regKey; omega

@[simp] theorem writeRegs_regs (s : State) (c w x : Nat) (ws : List (Nat × W32)) :
    (coreOf (writeRegs s c w x ws) c).regs = smSetAll 0 (coreOf s c).regs ws := by
  simp only [writeRegs, coreOf_onCore, onSlotOf]
  obtain ⟨m, hm⟩ := coreOf_onWave s c w (fun v => putSlot v x (logRegs (coreOf s c) (ws.map (fun p => p.1)) (slotOf v x)))
  rw [hm]

@[simp] theorem waveOf_writeRegs (s : State) (c w x : Nat) (ws : List (Nat × W32)) : waveOf (writeRegs s c w x ws) c w
    = (waveOf s c w).map (fun v => putSlot v x (logRegs (coreOf s c) (ws.map (fun p => p.1)) (slotOf v x))) := by
  simp only [writeRegs]
  rw [waveOf_onCore _ _ _ _ (by rfl), waveOf_onSlotOf]

/-- The keys that a pair of registers takes in some lanes. -/
theorem mem_pairWrites {r : Nat} {vs : List (Nat × Word)} {p : Nat × W32} (h : p ∈ pairWrites r vs) :
    ∃ q ∈ vs, p = (regKey r q.1, q.2.setWidth 32) ∨ p = (regKey (r + 1) q.1, q.2.extractLsb' 32 32) := by
  simpa [pairWrites] using h

theorem pairWrites_keys_nodup (r : Nat) {vs : List (Nat × Word)} (hn : (vs.map (fun p => p.1)).Nodup)
    (hl : ∀ p ∈ vs, p.1 < 32) : ((pairWrites r vs).map (fun p => p.1)).Nodup := by
  induction vs with
  | nil => simp [pairWrites]
  | cons p vs ih =>
    simp only [List.map_cons, List.nodup_cons] at hn
    have hp : p.1 < 32 := hl p (by simp)
    have ih := ih hn.2 fun q hq => hl q (by simp [hq])
    have hother (q : Nat) : regKey (r + q) p.1 ∉ (pairWrites r vs).map (fun p => p.1) := by
      rintro hm
      obtain ⟨u, hu, he⟩ := List.mem_map.mp hm
      obtain ⟨v, hv, hw⟩ := mem_pairWrites hu
      have hv32 : v.1 < 32 := hl v (by simp [hv])
      have hne : v.1 ≠ p.1 := fun e => hn.1 (List.mem_map.mpr ⟨v, hv, e⟩)
      rcases hw with rfl | rfl <;> exact hne (((regKey_inj hv32 hp).mp he).2)
    change (regKey r p.1 :: regKey (r + 1) p.1 :: (pairWrites r vs).map (fun p => p.1)).Nodup
    refine List.nodup_cons.mpr ⟨?_, List.nodup_cons.mpr ⟨hother 1, ih⟩⟩
    rw [List.mem_cons]
    rintro (he | hm)
    · exact absurd ((regKey_inj hp hp).mp he).1 (by omega)
    · exact hother 0 hm

/-- A pair of registers, as it was written, in a lane of the write. -/
theorem smGet_pairWrites {r l : Nat} {a : Word} {vs : List (Nat × Word)} (hn : (vs.map (fun p => p.1)).Nodup)
    (hl : ∀ p ∈ vs, p.1 < 32) (h : (l, a) ∈ vs) (m : SMap W32) :
    smGet 0 (smSetAll 0 m (pairWrites r vs)) (regKey r l) = a.setWidth 32
      ∧ smGet 0 (smSetAll 0 m (pairWrites r vs)) (regKey (r + 1) l) = a.extractLsb' 32 32 := by
  have hmem (p : Nat × W32) (hp : p ∈ [(regKey r l, a.setWidth 32), (regKey (r + 1) l, a.extractLsb' 32 32)]) :
      p ∈ pairWrites r vs := List.mem_flatMap.mpr ⟨_, h, hp⟩
  exact ⟨smGet_smSetAll_mem 0 _ (pairWrites_keys_nodup r hn hl) _ _ (hmem _ (by simp)) m,
    smGet_smSetAll_mem 0 _ (pairWrites_keys_nodup r hn hl) _ _ (hmem _ (by simp)) m⟩

/-- A register outside the pair, or in a lane outside the write, is as it was. -/
theorem smGet_pairWrites_other {r q l : Nat} {vs : List (Nat × Word)} (hv : ∀ p ∈ vs, p.1 < 32) (hl : l < 32)
    (h : ¬ ((q = r ∨ q = r + 1) ∧ ∃ p ∈ vs, p.1 = l)) (m : SMap W32) :
    smGet 0 (smSetAll 0 m (pairWrites r vs)) (regKey q l) = smGet 0 m (regKey q l) := by
  refine smGet_smSetAll_other 0 _ _ (fun p hp he => h ?_) m
  obtain ⟨u, hu, hw⟩ := mem_pairWrites hp
  rcases hw with rfl | rfl
  · obtain ⟨h1, h2⟩ := (regKey_inj (hv u hu) hl).mp he
    exact ⟨.inl h1.symm, u, hu, h2⟩
  · obtain ⟨h1, h2⟩ := (regKey_inj (hv u hu) hl).mp he
    exact ⟨.inr h1.symm, u, hu, h2⟩

/-! ## The lanes of the issuing slot -/

theorem lanes_nodup {s : State} {k : Ctx} (hk : ctxOf s = some k) : k.lanes.Nodup := by
  obtain ⟨-, -, -, hl, -⟩ := ctxOf_spec s k hk
  exact hl ▸ lanesOf_nodup _

theorem lane_lt {s : State} {k : Ctx} (hk : ctxOf s = some k) {l : Nat} (h : l ∈ k.lanes) : l < 32 := by
  obtain ⟨-, -, -, hl, -⟩ := ctxOf_spec s k hk
  exact ((mem_lanesOf _ _).mp (hl ▸ h)).1

/-- A lane's value among a record's results: its own, or with U = 1 that of the lowest active lane. -/
theorem mem_resultVals {u : Bool} {k : Ctx} {f : Nat → Val} {l : Nat} (h : l ∈ k.lanes) :
    (l, f (sourceLane u k l)) ∈ resultVals u k.lanes f := by
  unfold resultVals sourceLane Ctx.low
  cases u with
  | false => exact List.mem_map.mpr ⟨l, h, rfl⟩
  | true =>
    cases hl : k.lanes with
    | nil => simp [hl] at h
    | cons m ms => simpa [hl] using h

end Sys2Proof.Proofs.Frames
end

section
/-! SUPPORT. Operands, results, frames and positions of records (R24, R53, R167, R168, R171 to R174, R189, R203, R235). -/

open Sys2Proof Sys2Proof.Machine Sys2Proof.Cert
open Sys2Proof.Proofs.Frames

namespace Sys2Proof.Proofs.Values

/-! ## Operands (R167, R168, R171) -/

/-- Where no captured operand stands in, operand A is what its form names, cut to the reader's width. -/
theorem opA_of_ops {s : State} (h : s.cur.ops = none) (k : Ctx) (r : Record) (t : Ty) (l : Nat) :
    opA s k r t l = readWidth t (operandRaw s k t r.a l) := by
  simp [opA, operand, capturedOperand, h]

theorem readWidth_zero (t : Ty) : readWidth t 0 = 0 := by
  unfold readWidth; split
  · rfl
  · split <;> rfl

/-- A lane reads its own copy of a value, unless the record is U = 1 and the lane is not active. -/
theorem valueLane_own {s : State} {k : Ctx} {i l : Nat} (h : (s.cur.recs.getD i 0).getLsbD 56 = false ∨ l ∈ k.act) :
    valueLane s k i l = l := by
  unfold valueLane
  rcases h with h | h
  · rw [h]; rfl
  · simp [h]

theorem valueLane_uniform {s : State} {k : Ctx} {i l m : Nat} {ms : List Nat} (hu : (s.cur.recs.getD i 0).getLsbD 56 = true)
    (hl : l ∉ k.act) (ha : k.act = m :: ms) : valueLane s k i l = m := by
  rw [ha] at hl
  simp only [valueLane, hu, ha, Bool.true_and]
  simp [hl]

theorem isFloat_iff (t : Ty) : Ty.isFloat t = true ↔ 6 ≤ t.code ∧ t.code ≤ 11 := by cases t <;> decide

theorem operandForms : OperandForms := by
  intro s k r t l ho
  have hA := opA_of_ops ho k r t l
  refine ⟨fun h => ?_, fun d hd h => ⟨fun hv => ?_, fun m ms hu hl ha => ?_⟩, fun n i h hkind hw => ?_, fun n h hw => ?_,
    fun n h => ?_, fun n h => ?_, fun v h ht => ?_, fun n h => ?_⟩ <;> rw [hA, h]
  · exact readWidth_zero t
  · simp only [operandRaw, hd, if_false, valueLane_own hv]
  · simp only [operandRaw, hd, if_false, valueLane_uniform hu hl ha]
  · simp only [operandRaw, keepRead, hkind, if_true, hw]
  · have hnone : (if s.cur.kind = 2 then keepWriter (s.cur.recs.take s.cur.rcd) n else none) = none := by
      rcases hw with hw | hw <;> simp [hw]
    simp only [operandRaw, keepRead, hnone, keepGet]
  · rfl
  · rfl
  · have hf : Ty.isFloat t = false := by rw [← Bool.not_eq_true, isFloat_iff]; exact ht
    simp only [operandRaw, immValue, hf]
    rfl
  · rfl

/-- R168: the widths a value is read and held at. -/
theorem valueWidths : ValueWidths := by
  intro t v
  refine ⟨fun h => ?_, fun h => ?_, fun h hp => ?_, fun h => ?_, fun h => ?_⟩
  · have hi : t ≠ .i32 := by rintro rfl; simp [Ty.wide] at h
    simp [readWidth, extendValue, h, hi]
  · subst h
    refine ⟨?_, rfl⟩
    change (v &&& 1#64).toNat = _
    rw [BitVec.toNat_and]
    exact Nat.and_one_is_mod _
  · have : v.toNat % 2 ^ 32 < 2 ^ 64 := by omega
    simpa [readWidth, h, hp] using this
  · subst h
    change ((v.setWidth 32).signExtend 64).toInt = _
    exact BitVec.toInt_signExtend_of_le (by decide)
  · simp [extendValue, h]

/-- Settles O1: each form of operand A read off the model's own case of it, and the two functions of width. -/
theorem operandsAndWidths : Obligations.OperandsAndWidths := ⟨operandForms, valueWidths⟩

/-! ## Results (R168, R171, R173, R203, R204) -/

/-- What a completed record's lanes read as its own value while its pass goes on. -/
theorem recordValue_writeVals {v : Wave} {out : Ty} {u : Bool} {k : Ctx} {f : Nat → Val} (rcd : Nat) (hn : k.lanes.Nodup) {l : Nat}
    (hl : l ∈ k.lanes) : recordValue (writeVals v ((resultVals u k.lanes f).map (fun p => (rcd * 32 + p.1, Val.mk (extendValue out p.2.lo) p.2.hi))))
      rcd l = ⟨extendValue out (f (sourceLane u k l)).lo, (f (sourceLane u k l)).hi⟩ := by
  have h := recordValue_set v rcd l ((resultVals u k.lanes f).map (fun p => (p.1, Val.mk (extendValue out p.2.lo) p.2.hi)))
    (by rw [List.map_map]; exact (resultVals_lanes u k.lanes f).symm ▸ hn) _ (List.mem_map.mpr ⟨_, mem_resultVals hl, rfl⟩)
  rw [List.map_map] at h
  exact h

theorem recordValue_of_vals {v u : Wave} (h : v.vals = u.vals) (rcd l : Nat) : recordValue v rcd l = recordValue u rcd l := by
  simp [recordValue, h]

/-- A wave after its slot has gone on: its uniform slots stand, and while the pass goes on its values. -/
theorem exists_wave_advance {s : State} {k : Ctx} {u : Wave} (h : waveOf s k.core k.w = some u) :
    ∃ v, waveOf (advance s k) k.core k.w = some v ∧ v.uni = u.uni ∧ ((slotOf v k.x).rcd ≠ 0 → v.vals = u.vals) := by
  refine ⟨_, by rw [waveOf_advance, h]; rfl, ?_⟩
  split
  · exact ⟨rfl, fun _ => rfl⟩
  · exact ⟨stepSlot_uni .., stepSlot_vals⟩

section
variable {s : State} {k : Ctx} {out : Ty}

/-- Every result is a lane's value. -/
theorem exists_of_mem_resultVals {u : Bool} {ls : List Nat} {f : Nat → Val} {p : Nat × Val} (h : p ∈ resultVals u ls f) :
    ∃ i, p.2 = f i := by
  unfold resultVals at h
  split at h
  · split at h
    · simp at h
    · obtain ⟨i, -, rfl⟩ := List.mem_map.mp h; exact ⟨_, rfl⟩
  · obtain ⟨i, -, rfl⟩ := List.mem_map.mp h; exact ⟨_, rfl⟩

/-- The first result is the lowest active lane's. -/
theorem resultVals_eq_cons {k : Ctx} (u : Bool) (f : Nat → Val) (h : k.lanes ≠ []) :
    ∃ ps, resultVals u k.lanes f = (k.low, f k.low) :: ps := by
  obtain ⟨l, ls, he⟩ := List.exists_cons_of_ne_nil h
  rw [Ctx.low, he]
  cases u <;> exact ⟨_, rfl⟩

/-- The destination is the record's own value. -/
theorem writeResults_value (hd : s.cur.form.dest = .value) (vs : List (Nat × Val)) : writeResults s k out vs
    = onWave s k.core k.w (fun v => writeVals v (vs.map (fun p => (s.cur.rcd * 32 + p.1, Val.mk (extendValue out p.2.lo) p.2.hi)))) := by
  simp [writeResults, hd]

/-- The destination is a uniform slot. -/
theorem writeResults_ureg {m : BitVec 8} (hd : s.cur.form.dest = .ureg m) {p : Nat × Val} {vs : List (Nat × Val)} :
    writeResults s k out (p :: vs) = writeUni s k.core k.w k.x m.toNat (extendValue out p.2.lo) := by
  simp [writeResults, hd]

/-- The destination is a vector register of a 32-bit type. -/
theorem writeResults_vreg {m : BitVec 7} (hd : s.cur.form.dest = .vreg m) (ho : out.wide = false) (vs : List (Nat × Val)) :
    writeResults s k out vs = writeRegs s k.core k.w k.x
      (vs.map (fun p => (regKey (s.cur.form.win + m.toNat) p.1, (readWidth out p.2.lo).setWidth 32))) := by
  simp [writeResults, hd, ho]

/-- The destination is a pair of vector registers, and no value has high bytes. -/
theorem writeResults_vreg_wide {m : BitVec 7} (hd : s.cur.form.dest = .vreg m) (ho : out.wide = true) {vs : List (Nat × Val)}
    (hhi : ∀ p ∈ vs, p.2.hi = 0) : writeResults s k out vs
      = writeRegs (writeRegs s k.core k.w k.x (pairWrites (s.cur.form.win + m.toNat) (vs.map (fun p => (p.1, p.2.lo)))))
        k.core k.w k.x [] := by
  have hno : vs.filter (fun p => decide (p.2.hi ≠ 0)) = [] := by simpa using hhi
  simp only [writeResults, hd, ho, if_true, hno]
  rfl

theorem waveOf_writeUni (s : State) (c w x n : Nat) (a : Word) {v : Wave} (h : waveOf s c w = some v) :
    ∃ u, waveOf (writeUni s c w x n a) c w = some u ∧ u.uni = smSet 0 v.uni n a ∧ u.vals = v.vals := by
  refine ⟨_, by rw [writeUni, waveOf_onWave, h]; rfl, ?_⟩
  simp

/-- The wave once its record's values stand at their destination. -/
theorem exists_wave_writeResults {v : Wave} (hv : waveOf s k.core k.w = some v) (vs : List (Nat × Val)) :
    ∃ w, waveOf (writeResults s k out vs) k.core k.w = some w
      ∧ (s.cur.form.dest = .value → w.vals = (writeVals v (vs.map (fun p => (s.cur.rcd * 32 + p.1, Val.mk (extendValue out p.2.lo) p.2.hi)))).vals)
      ∧ (s.cur.form.dest ≠ .value → w.vals = v.vals)
      ∧ (∀ m p ps, s.cur.form.dest = .ureg m → vs = p :: ps → w.uni = smSet 0 v.uni m.toNat (extendValue out p.2.lo))
      ∧ ((vs = [] ∨ ∀ m, s.cur.form.dest ≠ .ureg m) → w.uni = v.uni) := by
  cases hd : s.cur.form.dest with
  | value =>
    rw [writeResults_value hd]
    exact ⟨_, by rw [waveOf_onWave, hv]; rfl, by simp [writeVals], by simp, by simp, by simp [writeVals]⟩
  | vreg m =>
    simp only [writeResults, hd]
    split
    · exact ⟨_, by rw [waveOf_writeRegs, waveOf_writeRegs, hv]; rfl, by simp, by simp, by simp, by simp⟩
    · exact ⟨_, by rw [waveOf_writeRegs, hv]; rfl, by simp, by simp, by simp, by simp⟩
  | ureg m =>
    cases vs with
    | nil => exact ⟨v, by simp [writeResults, hd, hv], by simp, by simp, by simp, by simp⟩
    | cons p ps =>
      rw [writeResults_ureg hd]
      obtain ⟨w, hw, huni, hvals⟩ := waveOf_writeUni s k.core k.w k.x m.toNat (extendValue out p.2.lo) hv
      refine ⟨w, hw, by simp, by simp [hvals], ?_, by simp⟩
      rintro n q qs hn he
      cases hn; cases he; exact huni

/-- The registers once a record's values stand at the vector name of a die word, in a lane of theirs. -/
theorem regs_writeResults_vreg {m : BitVec 7} (hd : s.cur.form.dest = .vreg m) {vs : List (Nat × Val)}
    (hhi : ∀ p ∈ vs, p.2.hi = 0) (hn : (vs.map (fun p => p.1)).Nodup) (hlt : ∀ p ∈ vs, p.1 < 32) {l : Nat} {a : Val}
    (hl : (l, a) ∈ vs) :
    regGet (coreOf (writeResults s k out vs) k.core) (s.cur.form.win + m.toNat) l = (readWidth out a.lo).setWidth 32
      ∧ (out.wide = true →
        regGet (coreOf (writeResults s k out vs) k.core) (s.cur.form.win + m.toNat + 1) l = a.lo.extractLsb' 32 32) := by
  cases ho : out.wide with
  | true =>
    have hlo : ((vs.map (fun p => (p.1, p.2.lo))).map (fun p => p.1)).Nodup := by rw [List.map_map]; exact hn
    obtain ⟨h1, h2⟩ := smGet_pairWrites (r := s.cur.form.win + m.toNat) (vs := vs.map (fun p => (p.1, p.2.lo))) hlo
      (fun p hp => by obtain ⟨q, hq, rfl⟩ := List.mem_map.mp hp; exact hlt q hq) (List.mem_map.mpr ⟨_, hl, rfl⟩)
      (coreOf s k.core).regs
    rw [writeResults_vreg_wide hd ho hhi]
    simp only [regGet, writeRegs_regs, smSetAll, readWidth, ho, if_true]
    exact ⟨h1, fun _ => h2⟩
  | false =>
    rw [writeResults_vreg hd ho]
    refine ⟨?_, by simp⟩
    simp only [regGet, writeRegs_regs]
    refine smGet_smSetAll_mem (α := W32) 0 _ ?_ _ _ (List.mem_map.mpr ⟨(l, a), hl, rfl⟩) _
    have hinj (i j : Nat) (h : i ≠ j) : regKey (s.cur.form.win + m.toNat) i ≠ regKey (s.cur.form.win + m.toNat) j := by
      unfold regKey; omega
    have hkeys := List.Pairwise.map (S := (· ≠ ·)) (regKey (s.cur.form.win + m.toNat)) hinj hn
    rwa [List.map_map] at hkeys ⊢

/-- A register that is not of the vector name, or in another lane, is as it was. -/
theorem regs_writeResults_other {vs : List (Nat × Val)} (hhi : ∀ p ∈ vs, p.2.hi = 0) (hlt : ∀ p ∈ vs, p.1 < 32) {r l : Nat}
    (hl : l < 32) (h : ¬ ∃ n, s.cur.form.dest = .vreg n ∧ (∃ p ∈ vs, p.1 = l)
      ∧ (r = s.cur.form.win + n.toNat ∨ r = s.cur.form.win + n.toNat + 1)) :
    regGet (coreOf (writeResults s k out vs) k.core) r l = regGet (coreOf s k.core) r l := by
  cases hd : s.cur.form.dest with
  | value =>
    rw [writeResults_value hd]
    obtain ⟨m, hm⟩ := coreOf_onWave s k.core k.w (fun v => writeVals v (vs.map (fun p => (s.cur.rcd * 32 + p.1, Val.mk (extendValue out p.2.lo) p.2.hi))))
    rw [hm]
    rfl
  | ureg n =>
    cases vs with
    | nil => simp [writeResults, hd]
    | cons p ps =>
      rw [writeResults_ureg hd]
      unfold writeUni
      rw [(coreOf_onWave s k.core k.w _).choose_spec]
      rfl
  | vreg n =>
    simp only [hd, Dest.vreg.injEq, exists_eq_left'] at h
    cases ho : out.wide with
    | true =>
      rw [writeResults_vreg_wide hd ho hhi]
      simp only [regGet, writeRegs_regs, smSetAll]
      refine smGet_pairWrites_other
        (fun p hp => by obtain ⟨q, hq, rfl⟩ := List.mem_map.mp hp; exact hlt q hq) hl (fun hx => h ?_) _
      obtain ⟨hr, p, hp, rfl⟩ := hx
      obtain ⟨q, hq, rfl⟩ := List.mem_map.mp hp
      exact ⟨⟨q, hq, rfl⟩, hr⟩
    | false =>
      rw [writeResults_vreg hd ho]
      simp only [regGet, writeRegs_regs]
      refine smGet_smSetAll_other 0 _ _ (fun p hp he => h ?_) _
      obtain ⟨q, hq, rfl⟩ := List.mem_map.mp hp
      obtain ⟨h1, h2⟩ := (regKey_inj (hlt q hq) hl).mp he
      exact ⟨⟨q, hq, h2⟩, .inl h1.symm⟩

/-- Settles O2: the writes of each destination, read back after the slot has gone on. -/
theorem resultDestination : Obligations.ResultDestination := by
  intro s k u out f hk hhi
  obtain ⟨-, hwave, hslot, -, -⟩ := ctxOf_spec s k hk
  have hn := lanes_nodup hk
  have hnodup : ((resultVals u k.lanes f).map (fun p => p.1)).Nodup := (resultVals_lanes u k.lanes f).symm ▸ hn
  obtain ⟨w, hw, hval, -, huni, -⟩ := exists_wave_writeResults (out := out) hwave (resultVals u k.lanes f)
  obtain ⟨v, hv, hvu, hvv⟩ := exists_wave_advance hw
  refine ⟨v, hv, fun hd hr l hl => ?_, fun n hd l hl => ?_, fun n hd hl => ?_⟩
  · rw [recordValue_of_vals ((hvv hr).trans (hval hd)), recordValue_writeVals _ hn hl, hhi]
  · have hl32 : ∀ p ∈ resultVals u k.lanes f, p.1 < 32 := fun p hp =>
      lane_lt hk (resultVals_lanes u k.lanes f ▸ List.mem_map.mpr ⟨p, hp, rfl⟩)
    have hvhi : ∀ p ∈ resultVals u k.lanes f, p.2.hi = 0 := fun p hp => by
      obtain ⟨i, hi⟩ := exists_of_mem_resultVals hp
      rw [hi, hhi]
    have h := regs_writeResults_vreg (k := k) (out := out) hd hvhi hnodup hl32 (mem_resultVals hl)
    simpa only [commits, regGet, advance_regs] using h
  · obtain ⟨ps, he⟩ := resultVals_eq_cons u f hl
    rw [hvu, huni n _ ps hd he, smGet_smSet_same]
end

/-! ## The frame (R24, R235) -/

/-- At every slot that issues it, the record writes values of its lanes, without high bytes, and its slot goes on. -/
def WritesLanes (i : Instr) : Prop :=
  ∀ (s : State) (k : Ctx), ctxOf s = some k → ∃ out vs, exec i s = .next (advance (writeResults s k out vs) k)
    ∧ (∀ p ∈ vs, p.1 ∈ k.lanes) ∧ ∀ p ∈ vs, p.2.hi = 0

theorem writesLanes_of_laneOp {i : Instr} {r : Record} {out : Ty} {f : State → Ctx → Nat → Val}
    (he : ∀ s, exec i s = laneOp s r out (f s)) (hhi : ∀ s k l, (f s k l).hi = 0) : WritesLanes i := by
  intro s k hk
  refine ⟨out, _, (he s).trans (laneOp_next s k r out _ hk), fun p hp => ?_, fun p hp => ?_⟩
  · exact resultVals_lanes r.u k.lanes _ ▸ List.mem_map.mpr ⟨p, hp, rfl⟩
  · obtain ⟨l, hl⟩ := exists_of_mem_resultVals hp
    rw [hl, hhi]

theorem writesLanes_of_waveOp {i : Instr} {out : Ty} {f : State → Ctx → Val} (he : ∀ s, exec i s = waveOp s out (f s))
    (hhi : ∀ s k, (f s k).hi = 0) : WritesLanes i := by
  intro s k hk
  refine ⟨out, _, (he s).trans (waveOp_next s k out _ hk), fun p hp => ?_, fun p hp => ?_⟩ <;>
    obtain ⟨l, hl, rfl⟩ := List.mem_map.mp hp
  · exact hl
  · exact hhi s k

/-- PACK's value, whatever its type. -/
theorem writesLanes_pack (r : Record) : WritesLanes (.pack r) := by
  refine writesLanes_of_laneOp (fun _ => rfl) fun s k l => ?_
  split
  · rfl
  · split <;> rfl

theorem writesLanes_unpk (r : Record) : WritesLanes (.unpk r) := by
  refine writesLanes_of_laneOp (fun _ => rfl) fun s k l => ?_
  dsimp only
  split <;> rfl

/-- The computing records by their opcodes: PACK and UNPK, the wave's one value, else a value for each lane. -/
theorem writesLanes_of_computes {i : Instr} (h : computes i = true) : WritesLanes i := by
  cases hr : i.opRecord with
  | none => simp [computes, hr] at h
  | some p =>
    unfold Instr.opRecord at hr
    split at hr
    all_goals try exact absurd h Bool.false_ne_true
    case h_35 => exact writesLanes_pack _
    case h_36 => exact writesLanes_unpk _
    case h_113 => cases hr
    case h_44 | h_45 | h_48 => exact writesLanes_of_waveOp (fun _ => rfl) fun _ _ => rfl
    all_goals exact writesLanes_of_laneOp (fun _ => rfl) fun _ _ _ => rfl

/-- A write of one record's values leaves those of the others. -/
theorem recordValue_writeVals_other {v : Wave} {rcd n l : Nat} {vs : List (Nat × Val)} (hlt : ∀ p ∈ vs, p.1 < 32) (hl : l < 32)
    (h : n ≠ rcd ∨ ∀ p ∈ vs, p.1 ≠ l) (g : Nat × Val → Val) :
    recordValue (writeVals v (vs.map (fun p => (rcd * 32 + p.1, g p)))) n l = recordValue v n l := by
  refine smGet_smSetAll_other _ _ _ (fun q hq he => ?_) _
  obtain ⟨p, hp, rfl⟩ := List.mem_map.mp hq
  have hp32 := hlt p hp
  have he : rcd * 32 + p.1 = n * 32 + l := he
  rcases h with h | h
  · omega
  · exact h p hp (by omega)

/-- Settles O3: a computing record writes values of its lanes and advances, and both stay within the frame. -/
theorem computingRecordFrame : Obligations.ComputingRecordFrame := by
  intro i s t k hi hk ht
  obtain ⟨out, vs, he, hlanes, hhi⟩ := writesLanes_of_computes hi s k hk
  obtain rfl : advance (writeResults s k out vs) k = t := by rw [he] at ht; exact Host.Outcome.next.inj ht
  have hlt : ∀ p ∈ vs, p.1 < 32 := fun p hp => lane_lt hk (hlanes p hp)
  obtain ⟨-, hwave, -, -, -⟩ := ctxOf_spec s k hk
  obtain ⟨w, hw, hval, hval', huni, huni'⟩ := exists_wave_writeResults (out := out) hwave vs
  obtain ⟨v, hv, hvu, hvv⟩ := exists_wave_advance hw
  refine ⟨frame_of_slotStep hk ((slotStep_writeResults ..).trans (slotStep_advance ..)), fun r l hl hne => ?_, ?_, ?_⟩
  · refine Classical.byContradiction fun hno => ?_
    refine hne ?_
    have hreg := regs_writeResults_other (k := k) (out := out) hhi hlt (r := r) hl (fun ⟨n, hd, ⟨p, hp, hpl⟩, hr⟩ =>
      hno ⟨n, hd, hpl ▸ hlanes p hp, hr⟩)
    simpa only [regGet, advance_regs] using hreg
  · intro u n hu hne
    obtain rfl : v = u := Option.some.inj (hv.symm.trans hu)
    refine Classical.byContradiction fun hno => hne ?_
    rw [hvu]
    cases hd : s.cur.form.dest with
    | ureg m =>
      cases vs with
      | nil => rw [huni' (.inl rfl)]
      | cons p ps =>
        rw [huni m p ps hd rfl]
        exact smGet_smSet_other _ _ _ _ _ fun h => hno ⟨m, hd, h⟩
    | _ => rw [huni' (.inr (by simp [hd]))]
  · intro u n l hu hr hl hother
    obtain rfl : v = u := Option.some.inj (hv.symm.trans hu)
    rw [recordValue_of_vals (hvv hr)]
    by_cases hd : s.cur.form.dest = .value
    · rw [recordValue_of_vals (hval hd)]
      exact recordValue_writeVals_other hlt hl (hother.imp id fun h p hp e => h (e ▸ hlanes p hp)) _
    · rw [recordValue_of_vals (hval' hd)]

/-! ## Positions (R24, R172) -/

/-- At the issuing slot no carriage has been aborted since. -/
theorem sameRun_ctx {s : State} {k : Ctx} (hk : ctxOf s = some k) : sameRun s k = true := by
  obtain ⟨-, hwave, hslot, -, -⟩ := ctxOf_spec s k hk
  simp only [sameRun, hwave, Option.bind_some, ← hslot]
  cases k.slot.car <;> simp

/-- The issuing slot's wave after its record, outside a re-injection. -/
theorem waveOf_advance_ctx {s : State} {k : Ctx} (hk : ctxOf s = some k) (hr : s.cur.replay = false) :
    waveOf (advance s k) k.core k.w = some (stepSlot s.cur k.wave k.x) := by
  obtain ⟨-, hwave, -, -, -⟩ := ctxOf_spec s k hk
  simp [waveOf_advance, hwave, hr, sameRun_ctx hk]

/-- Outside explicit code a record's slot goes on to the next record. -/
theorem stepSlot_record {cur : Issue} {v : Wave} {x : Nat} (h : (slotOf v x).dieAt = none) : stepSlot cur v x = advanceSlot v x := by
  simp [stepSlot, h]

theorem fallTarget_plain {v : Wave} {b : Nat} (h : blockKind v b = 0) : fallTarget v b = b + 1 := by
  unfold fallTarget
  unfold blockKind at h
  cases hb : blockOf v b with
  | none => rfl
  | some i =>
    have hi : i.kind = 0 := by simpa [hb] using h
    simp [hi]

/-- A lane whose pass has ended holds no value of it. -/
theorem recordValue_dropValues {v : Wave} {m : W32} {l : Nat} (hl : l < 32) (hm : m.getLsbD l = true) (n : Nat) :
    recordValue (dropValues v m) n l = ⟨0, 0⟩ := by
  refine smGet_none _ _ _ fun p hp he => ?_
  have hlane : p.1 % 32 = l := by omega
  have hp : p ∈ v.vals.filter (fun p => !m.getLsbD (p.1 % 32)) := hp
  simp [hlane, hm] at hp

/-- Settles O4: the two cases of `advanceSlot` outside a carriage. -/
theorem positionAfterRecord : Obligations.PositionAfterRecord := by
  intro s k hk hr hd
  obtain ⟨-, -, hslot, -, -⟩ := ctxOf_spec s k hk
  have hw := waveOf_advance_ctx hk hr
  rw [stepSlot_record (hslot ▸ hd)] at hw
  rw [hslot]
  refine ⟨fun hlt => ⟨_, hw, ?_⟩, fun hlt hcar hkind => ⟨_, hw, ?_⟩⟩
  · rw [advanceSlot_next _ _ hlt]
    simp
  · rw [advanceSlot_last _ _ hlt hcar, fallTarget_plain hkind]
    refine ⟨by simp [moveSlot], by simp [moveSlot], ?_, fun n l hl hm => ?_⟩
    · simp [moveSlot]
    · rw [moveSlot, recordValue_of_vals (putSlot_vals ..)]
      exact recordValue_dropValues hl hm n

end Sys2Proof.Proofs.Values
end


section
/-! SUPPORT. Floating-point, conversion and row records (R210 to R228, R249 to R258, R322 to R327): what decoding and rounding
do to the patterns of a format, and the values the records complete with. -/

open Sys2Proof Sys2Proof.Machine Sys2Proof.Cert
open Sys2Proof.Proofs.Compute

namespace Sys2Proof.Proofs.Floats

/-! ## NaNs (R210, R213) -/

/-- The patterns that decode to a NaN are those of R210. -/
theorem fpDecode_eq_nan_iff {t : Ty} (ht : FltTy t) {a : Nat} : fpDecode (fmtOf t) a = .nan ↔ isNan t a := by
  have key (f : Fmt) : fpDecode f a = .nan ↔ f.infBits ≠ some (a % 2 ^ (f.bits - 1)) ∧ f.maxBits < a % 2 ^ (f.bits - 1) := by
    unfold fpDecode
    dsimp only
    split
    · simp_all
    · split
      · simp_all
      · split <;> simp_all
  rw [key]
  rcases ht with rfl | rfl | rfl | rfl <;>
    simp only [fmtOf, fmtF16, fmtBf16, fmtF32, fmtF64, isNan, fractionBits, ne_eq, Option.some.injEq] <;> omega

theorem nanBits_eq_canonicalNan {t : Ty} (ht : FltTy t) : (fmtOf t).nanBits = canonicalNan t := by
  rcases ht with rfl | rfl | rfl | rfl <;> rfl

theorem fpRound_nan {t : Ty} (ht : FltTy t) (md : Rnd) (sat : Bool) : fpRound (fmtOf t) md sat .nan = canonicalNan t :=
  nanBits_eq_canonicalNan ht

@[simp] theorem fvAdd_nan_left (md : Rnd) (y : Fv) : fvAdd md .nan y = .nan := by cases y <;> rfl
@[simp] theorem fvAdd_nan_right (md : Rnd) (x : Fv) : fvAdd md x .nan = .nan := by cases x <;> rfl
@[simp] theorem fvMul_nan_left (y : Fv) : fvMul .nan y = .nan := by cases y <;> rfl
@[simp] theorem fvMul_nan_right (x : Fv) : fvMul x .nan = .nan := by cases x <;> rfl
@[simp] theorem fvNeg_nan : fvNeg .nan = .nan := rfl

/-- R213, R249: a NaN operand, ∞ − ∞ and 0 · ∞ give the canonical NaN. -/
theorem floatNan : FloatNan := by
  intro t md a b c ht _ _ _
  refine ⟨fun hab => ?_, fun hc => ?_, ?_, ?_⟩
  · rw [← fpDecode_eq_nan_iff ht, ← fpDecode_eq_nan_iff ht] at hab
    rcases hab with h | h <;>
      simp only [fpAdd, fpSub, fpMul, fpFma, h, fvAdd_nan_left, fvAdd_nan_right, fvMul_nan_left, fvMul_nan_right, fvNeg_nan,
        fpRound_nan ht, and_self]
  · rw [← fpDecode_eq_nan_iff ht] at hc
    simp only [fpFma, hc, fvAdd_nan_right, fpRound_nan ht]
  · rcases ht with rfl | rfl | rfl | rfl <;> rfl
  · rcases ht with rfl | rfl | rfl | rfl <;> rfl

/-! ## Values of a format round to themselves (R221, R222) -/

/-- An exact quotient by 1 is rounded to itself, in every mode. -/
theorem roundQuot_one (md : Rnd) (neg : Bool) (n : Nat) : roundQuot md neg n 1 = n := by
  cases md <;> simp [roundQuot, Nat.mod_one]

theorem scaleQuot_same (n : Nat) (e : Int) : scaleQuot n 1 e e = (n, 1) := by simp [scaleQuot]

/-- A number on the grid of its own exponent keeps its bits: a subnormal (or least normal) at the least exponent, else one whose
leading bit is the hidden one. -/
theorem roundMagnitude_grid {f : Fmt} (md : Rnd) (neg : Bool) {m E : Nat} (hp : 2 ≤ f.prec) (hm : m < 2 ^ f.prec) (hm0 : m ≠ 0)
    (hE : E < 2 ^ (f.bits - f.prec)) (hgrid : E = 0 ∨ 2 ^ (f.prec - 1) ≤ m) :
    roundMagnitude f md neg m 1 (f.qmin + E) = E * 2 ^ (f.prec - 1) + m := by
  have hlog : Nat.log2 m < f.prec := (Nat.log2_lt hm0).mpr hm
  have htop : E = 0 ∨ Nat.log2 m + 1 = f.prec := hgrid.imp id fun h => by
    have := (Nat.le_log2 hm0).mpr h
    omega
  have hlow : ¬ ((Nat.log2 m : Nat) - ((Nat.log2 1 : Nat) : Int) + (f.qmin + E) < f.qmin - 4) := by
    rw [show Nat.log2 1 = 0 by decide]; omega
  have hhigh : ¬ (f.qmin + ((2 ^ (f.bits - f.prec) : Nat) : Int) + f.prec + 4
      < (Nat.log2 m : Nat) - ((Nat.log2 1 : Nat) : Int) + (f.qmin + E)) := by
    rw [show Nat.log2 1 = 0 by decide]; omega
  have hq0 : max ((Nat.log2 m : Nat) - ((Nat.log2 1 : Nat) : Int) + (f.qmin + E) + 1 - f.prec) f.qmin = f.qmin + E := by
    rw [show Nat.log2 1 = 0 by decide]; omega
  have hq : (if m / 1 < 2 ^ (f.prec - 1) then max (f.qmin + E - 1) f.qmin else f.qmin + E) = f.qmin + E := by
    split
    · rcases hgrid with h | h <;> omega
    · rfl
  simp only [roundMagnitude, hm0, if_false, hlow, hhigh, hq0, scaleQuot_same, hq, roundQuot_one]
  rw [show (f.qmin + E - f.qmin).toNat = E by omega]

/-- Sign and magnitude of a pattern. -/
theorem sign_add_magnitude {f : Fmt} (hb : 0 < f.bits) {a : Nat} (ha : a < 2 ^ f.bits) :
    fpSign f (decide (a / 2 ^ (f.bits - 1) % 2 = 1)) + a % 2 ^ (f.bits - 1) = a := by
  obtain ⟨n, hn⟩ : ∃ n, f.bits = n + 1 := ⟨f.bits - 1, by omega⟩
  rw [hn, Nat.pow_succ] at ha
  have hdiv := Nat.div_add_mod a (2 ^ n)
  have hlt : a / 2 ^ n < 2 := Nat.div_lt_of_lt_mul ha
  simp only [fpSign, hn, Nat.add_sub_cancel, decide_eq_true_eq, Nat.mod_eq_of_lt hlt]
  generalize a / 2 ^ n = q at hdiv hlt ⊢
  split
  · rename_i h1
    rwa [h1, Nat.mul_one] at hdiv
  · obtain rfl : q = 0 := by omega
    rwa [Nat.mul_zero] at hdiv

/-- A pattern that decodes to no NaN is what its value rounds to. -/
theorem fpRound_fpDecode {f : Fmt} (md : Rnd) (hp : 2 ≤ f.prec) (hpb : f.prec ≤ f.bits) {a : Nat} (ha : a < 2 ^ f.bits)
    (hnan : fpDecode f a ≠ .nan) : fpRound f md false (fpDecode f a) = a := by
  have hsum := sign_add_magnitude (by omega) ha
  have hmag : a % 2 ^ (f.bits - 1) < 2 ^ (f.bits - 1) := Nat.mod_lt _ (Nat.two_pow_pos _)
  have hh : 0 < 2 ^ (f.prec - 1) := Nat.two_pow_pos _
  unfold fpDecode at hnan ⊢
  dsimp only at hnan ⊢
  split at hnan
  · rename_i hinf
    simpa [fpRound, fpInf, hinf] using hsum
  split at hnan
  · exact absurd rfl hnan
  rename_i hinf hmax
  generalize hneg : decide (a / 2 ^ (f.bits - 1) % 2 = 1) = neg at hsum
  generalize a % 2 ^ (f.bits - 1) = mag at *
  simp only [hinf, hmax, if_false]
  have key (m E : Nat) (hm : m < 2 ^ f.prec) (hE : E < 2 ^ (f.bits - f.prec)) (hgrid : E = 0 ∨ 2 ^ (f.prec - 1) ≤ m)
      (heq : E * 2 ^ (f.prec - 1) + m = mag) : fpRound f md false (.fin neg m (f.qmin + E)) = a := by
    have hround : roundMagnitude f md neg m 1 (f.qmin + E) = mag := by
      by_cases hm0 : m = 0
      · obtain rfl : E = 0 := by omega
        simpa [hm0, roundMagnitude] using heq
      · rw [roundMagnitude_grid md neg hp hm hm0 hE hgrid, heq]
    simpa only [fpRound, roundRatio, hround, hmax, if_false] using hsum
  have hpow : 2 ^ f.prec = 2 * 2 ^ (f.prec - 1) := by rw [← Nat.pow_succ']; congr 1; omega
  have hbits : 2 ^ (f.bits - 1) = 2 ^ (f.prec - 1) * 2 ^ (f.bits - f.prec) := by rw [← Nat.pow_add]; congr 1; omega
  split
  · rename_i hsub
    simpa using key mag 0 (by omega) (Nat.two_pow_pos _) (.inl rfl) (by omega)
  · rename_i hsub
    have hdiv := Nat.div_add_mod mag (2 ^ (f.prec - 1))
    have hmod := Nat.mod_lt mag hh
    have hpos : 1 ≤ mag / 2 ^ (f.prec - 1) := (Nat.le_div_iff_mul_le hh).mpr (by omega)
    have hlt : mag / 2 ^ (f.prec - 1) < 2 ^ (f.bits - f.prec) := Nat.div_lt_of_lt_mul (hbits ▸ hmag)
    obtain ⟨E, hE⟩ : ∃ E, mag / 2 ^ (f.prec - 1) = E + 1 := ⟨_, (Nat.sub_add_cancel hpos).symm⟩
    rw [hE] at hdiv hlt ⊢
    have h := key (2 ^ (f.prec - 1) + mag % 2 ^ (f.prec - 1)) E (by omega) (by omega) (.inr (by omega))
      (by rw [Nat.mul_comm]; rw [Nat.mul_succ] at hdiv; omega)
    rwa [show f.qmin + ((E + 1 : Nat) : Int) - 1 = f.qmin + (E : Int) by push_cast; omega]

theorem roundingKeepsFormatValues : RoundingKeepsFormatValues := by
  intro t md a ht ha hnan
  have hnan : fpDecode (fmtOf t) a ≠ .nan := fun h => hnan ((fpDecode_eq_nan_iff ht).mp h)
  refine fpRound_fpDecode md ?_ ?_ ha hnan <;> rcases ht with rfl | rfl | rfl | rfl <;> decide

/-- Settles O10: NaNs go through every operation, and a value of a format lies on its own rounding grid. -/
theorem floatNanAndRounding : Obligations.FloatNanAndRounding := ⟨floatNan, roundingKeepsFormatValues⟩

/-! ## Arithmetic (R249) -/

/-- Settles O9: the four records are lane operations whose value is the operation's on the decoded operands. -/
theorem floatArithmetic : Obligations.FloatArithmetic := fun _ _ =>
  ⟨laneOp_result (fun _ => rfl) fun _ _ _ => rfl, laneOp_result (fun _ => rfl) fun _ _ _ => rfl,
    laneOp_result (fun _ => rfl) fun _ _ _ => rfl, laneOp_result (fun _ => rfl) fun _ _ _ => rfl⟩

/-! ## Selection, signs, comparison, class (R250 to R253) -/

theorem fvNan_iff {x : Fv} : fvNan x = true ↔ x = .nan := by cases x <;> simp [fvNan]

/-- A NaN of a format, as the model tests for it. -/
theorem fvNan_fpDecode {t : Ty} (ht : FltTy t) (a : Nat) : fvNan (fpDecode (fmtOf t) a) = true ↔ isNan t a :=
  fvNan_iff.trans (fpDecode_eq_nan_iff ht)

theorem ite_eq_left_or_right {α : Type} {c : Prop} [Decidable c] (a b : α) : (if c then a else b) = a ∨ (if c then a else b) = b := by
  split
  · exact .inl rfl
  · exact .inr rfl

section
variable {f : Fmt} (mx win : Bool) {a b : Nat}

theorem fpMinMax_nan_left (ha : fvNan (fpDecode f a) = true) :
    fpMinMax f mx win a b = if fvNan (fpDecode f b) || win then f.nanBits else b := by
  cases hb : fvNan (fpDecode f b) <;> simp [fpMinMax, ha, hb]

theorem fpMinMax_nan_right (ha : fvNan (fpDecode f a) = false) (hb : fvNan (fpDecode f b) = true) :
    fpMinMax f mx win a b = if win then f.nanBits else a := by
  simp [fpMinMax, ha, hb]

theorem fpMinMax_numbers (ha : fvNan (fpDecode f a) = false) (hb : fvNan (fpDecode f b) = false) :
    fpMinMax f mx win a b = a ∨ fpMinMax f mx win a b = b := by
  simp only [fpMinMax, ha, hb, Bool.and_self, Bool.false_eq_true, if_false]
  exact ite_eq_left_or_right _ _
end

/-- R250: a minimum or maximum is one of its operands or the canonical NaN; with .nan (`win`) any NaN operand gives the NaN,
without it a NaN yields to the other operand. -/
theorem fpMinMax_spec {t : Ty} (ht : FltTy t) (mx win : Bool) (a b : Nat) :
    (fpMinMax (fmtOf t) mx win a b = a ∨ fpMinMax (fmtOf t) mx win a b = b ∨ fpMinMax (fmtOf t) mx win a b = canonicalNan t)
      ∧ (win = true → isNan t a ∨ isNan t b → fpMinMax (fmtOf t) mx win a b = canonicalNan t)
      ∧ (win = false → isNan t a → ¬ isNan t b → fpMinMax (fmtOf t) mx win a b = b) := by
  rw [← fvNan_fpDecode ht, ← fvNan_fpDecode ht, ← nanBits_eq_canonicalNan ht]
  cases ha : fvNan (fpDecode (fmtOf t) a) with
  | true =>
    rw [fpMinMax_nan_left mx win ha]
    cases fvNan (fpDecode (fmtOf t) b) <;> cases win <;> simp
  | false =>
    cases hb : fvNan (fpDecode (fmtOf t) b) with
    | true =>
      rw [fpMinMax_nan_right mx win ha hb]
      cases win <;> simp
    | false => exact ⟨(fpMinMax_numbers mx win ha hb).imp id .inl, by simp, by simp⟩

/-- The clauses of FMIN and FMAX. -/
theorem select_next {r : Record} (ht : FltTy r.ty) {i : Instr} (mx : Bool)
    (he : ∀ s, exec i s = floatOp2 s r (fun f a b => fpMinMax f mx (r.fn.toNat = 1) a b)) {s : State} {k : Ctx}
    (hk : ctxOf s = some k) : ∃ f : Nat → Nat, exec i s = .next (commits s k r.u r.ty (fun l => num (f l)))
      ∧ ∀ l, let a := pat r.ty (opA s k r r.ty l)
        let b := pat r.ty (opB s k r r.ty l)
        (f l = a ∨ f l = b ∨ f l = canonicalNan r.ty)
        ∧ (r.fn = 1 → isNan r.ty a ∨ isNan r.ty b → f l = canonicalNan r.ty)
        ∧ (r.fn = 0 → isNan r.ty a → ¬ isNan r.ty b → f l = b) := by
  refine ⟨_, (he s).trans (laneOp_next s k r _ _ hk), fun l => ?_⟩
  obtain ⟨hmem, hwin, hnum⟩ := fpMinMax_spec ht mx (decide (r.fn.toNat = 1)) (pat r.ty (opA s k r r.ty l)) (pat r.ty (opB s k r r.ty l))
  exact ⟨hmem, fun h => hwin (by rw [h]; rfl), fun h => hnum (by rw [h]; rfl)⟩

/-- The sign bit of FSGN (R251), for each function code. -/
def fsgnBit (fn : BitVec 5) (sa sb : Bool) : Bool :=
  if fn = 0#5 then sb else if fn = 1#5 then !sa else if fn = 2#5 then false else (sa ^^ sb)

/-- FSGN keeps the magnitude and sets the sign bit. -/
theorem fsgnResult_eq (f : Fmt) (fn : BitVec 5) (a b : Nat) : fsgnResult f fn.toNat a b
    = (fsgnBit fn (a.testBit (f.bits - 1)) (b.testBit (f.bits - 1))).toNat * 2 ^ (f.bits - 1) + a % 2 ^ (f.bits - 1) := by
  simp only [fsgnResult, fsgnBit, toNat_fn_eq (m := 0) (by decide), toNat_fn_eq (m := 1) (by decide),
    toNat_fn_eq (m := 2) (by decide), ← Nat.toNat_testBit]
  generalize a.testBit (f.bits - 1) = x
  generalize b.testBit (f.bits - 1) = y
  congr 2
  by_cases h0 : fn = 0#5
  · rw [if_pos h0, if_pos h0]
  rw [if_neg h0, if_neg h0]
  by_cases h1 : fn = 1#5
  · rw [if_pos h1, if_pos h1]
    cases x <;> rfl
  rw [if_neg h1, if_neg h1]
  by_cases h2 : fn = 2#5
  · rw [if_pos h2, if_pos h2]
    rfl
  · rw [if_neg h2, if_neg h2]
    cases x <;> cases y <;> rfl

/-- A magnitude below a sign bit: the parts read back. -/
theorem sign_above {m h : Nat} (g : Bool) (hm : m < 2 ^ h) :
    (g.toNat * 2 ^ h + m) % 2 ^ h = m ∧ g.toNat * 2 ^ h + m < 2 ^ (h + 1) ∧ (g.toNat * 2 ^ h + m).testBit h = g := by
  have hp := Nat.pow_succ' (m := h) (n := 2)
  refine ⟨?_, ?_, ?_⟩
  · rw [Nat.mul_comm, Nat.mul_add_mod, Nat.mod_eq_of_lt hm]
  · cases g <;> simp <;> omega
  · rw [Nat.testBit_eq_decide_div_mod_eq, Nat.mul_comm, Nat.mul_add_div (Nat.two_pow_pos h), Nat.div_eq_of_lt hm]
    cases g <;> rfl

theorem fsgn_next {r : Record} {s : State} {k : Ctx} (hk : ctxOf s = some k) :
    ∃ f : Nat → Nat, exec (.fsgn r) s = .next (commits s k r.u r.ty (fun l => num (f l)))
      ∧ ∀ l, let h := (fmtOf r.ty).bits - 1
        let a := pat r.ty (opA s k r r.ty l)
        let b := pat r.ty (opB s k r r.ty l)
        f l % 2 ^ h = a % 2 ^ h ∧ f l < 2 ^ (h + 1)
        ∧ ((f l).testBit h = if r.fn = 0 then b.testBit h else if r.fn = 1 then !a.testBit h
            else if r.fn = 2 then false else (a.testBit h ^^ b.testBit h)) := by
  refine ⟨fun l => fsgnResult (fmtOf r.ty) r.fn.toNat (pat r.ty (opA s k r r.ty l)) (pat r.ty (opB s k r r.ty l)),
    laneOp_next s k r _ _ hk, fun l => ?_⟩
  dsimp only
  rw [fsgnResult_eq]
  exact sign_above _ (Nat.mod_lt _ (Nat.two_pow_pos _))

/-- R252: of unordered operands hold the two relations that name them. -/
theorem fcmpHolds_nan {t : Ty} (ht : FltTy t) (fn : BitVec 5) {a b : Nat} (h : isNan t a ∨ isNan t b) :
    (fcmpHolds (fmtOf t) fn.toNat a b = true) = (fn = 1 ∨ fn = 7) := by
  have hun : (fvNan (fpDecode (fmtOf t) a) || fvNan (fpDecode (fmtOf t) b)) = true := by
    rwa [Bool.or_eq_true, fvNan_fpDecode ht, fvNan_fpDecode ht]
  simp only [fcmpHolds, hun, Bool.not_true, if_true, toNat_fn_eq (m := 6) (by decide), toNat_fn_eq (m := 7) (by decide),
    toNat_fn_eq (m := 1) (by decide)]
  by_cases h6 : fn = 6#5
  · subst h6; simp
  · simp [h6, or_comm]

/-- R253: one of ten classes. -/
theorem fpClass_lt (f : Fmt) (a : Nat) : fpClass f a < 10 := by
  unfold fpClass
  split
  · split <;> decide
  · split <;> decide
  · split
    · split <;> decide
    · split
      · split <;> decide
      · split <;> decide

/-- Settles O11: the operations on two patterns, and the class bit. -/
theorem floatSelectAndTest : Obligations.FloatSelectAndTest := fun r ht s k hk =>
  ⟨select_next ht false (fun _ => rfl) hk, select_next ht true (fun _ => rfl) hk, fsgn_next hk,
    ⟨fun l => fcmpHolds (fmtOf r.ty) r.fn.toNat (pat r.ty (opA s k r r.ty l)) (pat r.ty (opB s k r r.ty l)), by
      simp only [← predWord_eq_num]
      exact laneOp_next s k r _ _ hk, fun l h => fcmpHolds_nan ht r.fn h⟩,
    ⟨_, laneOp_next s k r _ _ hk, fun l => fpClass_lt ..⟩⟩

/-! ## Conversions (R254 to R258, R322, R323) -/

theorem opB_lt {t : Ty} (ht : t.code ≤ 5) (s : State) (k : Ctx) (r : Record) (l : Nat) :
    (opB s k r t l).toNat < 2 ^ width t := by
  obtain ⟨v, hv⟩ := operand_eq_readWidth s k r t 1 l
  rw [opB, hv]
  exact readWidth_lt (by rintro rfl; exact absurd ht (by decide)) (by rintro rfl; exact absurd ht (by decide)) v

/-- Settles O12: each record is a lane operation, and its function on patterns is the rule's at its types. -/
theorem conversionsComplete : Obligations.ConversionsComplete := by
  intro r s k hk
  refine ⟨fun _ => laneOp_next s k r _ _ hk, fun _ => ?_, laneOp_next s k r _ _ hk, fun ht => ?_, fun ht => ?_,
    laneOp_next s k r _ _ hk, laneOp_next s k r _ _ hk⟩
  · simp only [← intOf_eq_iv (t := .i32) (opB_lt (t := .i32) (by decide) s k r _)]
    exact laneOp_next s k r _ _ hk
  · refine (laneOp_next s k r _ _ hk).trans ?_
    rcases ht with h | h | h | h <;> rw [h] <;> rfl
  · refine (laneOp_next s k r _ _ hk).trans ?_
    rcases ht with h | h | h | h <;> rw [h] <;> rfl

/-! ## Rows (R324 to R327) -/

theorem rowLeaf_inactive {s : State} {k : Ctx} (r : Record) (m : Bool) {l : Nat} (h : l ∉ k.act) : rowLeaf s k r m l = none := by
  simp [rowLeaf, h]

theorem rowLeaf_masked {s : State} {k : Ctx} {r : Record} {l : Nat} (hb : r.b ≠ .absent)
    (h : (opB s k r .pred l).getLsbD 0 = false) : rowLeaf s k r true l = none := by
  simp only [rowLeaf, hb, h, Bool.not_true, decide_false, Bool.or_self, Bool.and_false, Bool.false_eq_true, if_false]

/-- Settles O13: lane operations on the leaves of the lane's row. -/
theorem rowRecords : Obligations.RowRecords := fun r s k hk =>
  ⟨⟨_, laneOp_next s k r _ _ hk, fun l m h => by simp only [rowLeaves, h], fun _ => rfl⟩,
    ⟨_, laneOp_next s k r _ _ hk, fun l m h => by simp only [rowLeaves, h], fun _ => rfl⟩,
    laneOp_next s k r _ _ hk, ⟨_, laneOp_next s k r _ _ hk⟩, fun l h => rowLeaf_inactive r true h,
    fun l hb h => rowLeaf_masked hb h⟩

end Sys2Proof.Proofs.Floats
end

section
/-! SUPPORT. Reductions and scans (R261, R262), special state, KEEP, BYSW and FEAT (R263, R265, R266, R278). -/

open Sys2Proof Sys2Proof.Machine Sys2Proof.Cert
open Sys2Proof.Proofs.Compute Sys2Proof.Proofs.Frames Sys2Proof.Proofs.Values

namespace Sys2Proof.Proofs.Lanes

/-! ## Integer reductions (R261) -/

/-- The integer types are none of the floating-point ones, and their elements are whole values. -/
theorem isFlt_of_int {t : Ty} (ht : t.code ≤ 5) : t.isFlt = false := by
  simp only [Ty.isFlt]
  have : ¬ 6 ≤ t.code := by omega
  simp [this]

theorem redlValue_int {t : Ty} (ht : t.code ≤ 5) (op : Nat) (act : List Nat) (a : Nat → Nat) :
    redlValue t op act a = (foldSteps (intStep op (width t) (signed t)) (act.map a)).getD 0 := by
  simp only [redlValue, isFlt_of_int ht, Bool.false_eq_true, if_false, elemBits_eq_width (.inl ht)]
  rfl

/-- A pattern is the wrapped integer it stands for. -/
theorem wrap_iv {t : Ty} {x : Nat} (hx : x < 2 ^ width t) : wrap (width t) (iv t x) = x := by
  have hx' : (x : Int) < (2 ^ width t : Nat) := by exact_mod_cast hx
  unfold wrap iv
  split
  · rw [Int.sub_emod_right, Int.emod_eq_of_lt (by omega) hx']; simp
  · rw [Int.emod_eq_of_lt (by omega) hx']; simp

/-- A wrapped integer and the integer itself are the same modulo 2^n. -/
theorem iv_wrap_emod (t : Ty) (v : Int) : iv t (wrap (width t) v) % (2 ^ width t : Nat) = v % (2 ^ width t : Nat) := by
  have h0 : (0 : Int) < (2 ^ width t : Nat) := by exact_mod_cast Nat.two_pow_pos _
  have hw : ((wrap (width t) v : Nat) : Int) = v % (2 ^ width t : Nat) := by
    unfold wrap; exact Int.toNat_of_nonneg (Int.emod_nonneg _ (by omega))
  unfold iv
  split
  · rw [hw, Int.sub_emod_right, Int.emod_emod_of_dvd _ (Int.dvd_refl _)]
  · rw [hw, Int.emod_emod_of_dvd _ (Int.dvd_refl _)]

theorem wrap_congr {n : Nat} {u v : Int} (h : u % (2 ^ n : Nat) = v % (2 ^ n : Nat)) : wrap n u = wrap n v := by
  unfold wrap; rw [h]

theorem wrap_lt (n : Nat) (v : Int) : wrap n v < 2 ^ n := by
  have h0 : (0 : Int) < (2 ^ n : Nat) := by exact_mod_cast Nat.two_pow_pos n
  have := Int.emod_lt_of_pos v h0
  unfold wrap
  omega


section
variable {t : Ty} {a : Nat → Nat}

/-- Adding patterns one after another wraps the exact sum (R236, R261). -/
theorem foldl_add (ls : List Nat) (ha : ∀ l, a l < 2 ^ width t) : ∀ v : Int,
    (ls.map a).foldl (intStep 0 (width t) (signed t)) (wrap (width t) v)
      = wrap (width t) (v + (ls.map (fun l => iv t (a l))).sum) := by
  induction ls with
  | nil => simp
  | cons l ls ih =>
    intro v
    have hstep : intStep 0 (width t) (signed t) (wrap (width t) v) (a l) = wrap (width t) (v + iv t (a l)) := by
      change wrap _ (intOf _ _ _ + intOf _ _ _) = _
      rw [intOf_eq_iv (wrap_lt _ _), intOf_eq_iv (ha l)]
      refine wrap_congr ?_
      rw [Int.add_emod, iv_wrap_emod, ← Int.add_emod]
    simp only [List.map_cons, List.foldl_cons, List.sum_cons, hstep, ih, Int.add_assoc]

/-- A choice of the smaller of two under an order of integers gives an element that none is below. -/
theorem foldl_least (g : Nat → Nat → Nat) (key : Nat → Int)
    (hg : ∀ x y, x < 2 ^ width t → y < 2 ^ width t → g x y = if key y < key x then y else x)
    (ls : List Nat) (ha : ∀ l, a l < 2 ^ width t) : ∀ l₀ : Nat,
    (∃ l ∈ l₀ :: ls, (ls.map a).foldl g (a l₀) = a l) ∧ ∀ l ∈ l₀ :: ls, key ((ls.map a).foldl g (a l₀)) ≤ key (a l) := by
  induction ls with
  | nil => intro l₀; simp
  | cons m ls ih =>
    intro l₀
    simp only [List.map_cons, List.foldl_cons, hg _ _ (ha l₀) (ha m)]
    split
    next hlt =>
      obtain ⟨⟨l, hl, he⟩, hle⟩ := ih m
      refine ⟨⟨l, List.mem_cons_of_mem _ hl, he⟩, fun i hi => ?_⟩
      rcases List.mem_cons.mp hi with rfl | hi
      · exact Int.le_trans (hle m (List.mem_cons_self ..)) (Int.le_of_lt hlt)
      · exact hle i hi
    next hge =>
      obtain ⟨⟨l, hl, he⟩, hle⟩ := ih l₀
      refine ⟨⟨l, ?_, he⟩, fun i hi => ?_⟩
      · rcases List.mem_cons.mp hl with rfl | hl
        · exact List.mem_cons_self ..
        · exact List.mem_cons_of_mem _ (List.mem_cons_of_mem _ hl)
      · rcases List.mem_cons.mp hi with rfl | hi
        · exact hle _ (List.mem_cons_self ..)
        · rcases List.mem_cons.mp hi with rfl | hi
          · exact Int.le_trans (hle l₀ (List.mem_cons_self ..)) (Int.not_lt.mp hge)
          · exact hle i (List.mem_cons_of_mem _ hi)

theorem testBit_foldl_land (ls : List Nat) (n : Nat) : ∀ x : Nat,
    ((ls.map a).foldl Nat.land x).testBit n = (x.testBit n && ls.all (fun l => (a l).testBit n)) := by
  induction ls with
  | nil => simp
  | cons l ls ih =>
    intro x
    simp [ih, Bool.and_assoc]

theorem testBit_foldl_lor (ls : List Nat) (n : Nat) : ∀ x : Nat,
    ((ls.map a).foldl Nat.lor x).testBit n = (x.testBit n || ls.any (fun l => (a l).testBit n)) := by
  induction ls with
  | nil => simp
  | cons l ls ih =>
    intro x
    simp [ih, Bool.or_assoc]

/-- REDL of the lanes of a list that is not empty folds the first lane's value with the others'. -/
theorem redlValue_cons (ht : t.code ≤ 5) (op l : Nat) (ls : List Nat) :
    redlValue t op (l :: ls) a = (ls.map a).foldl (intStep op (width t) (signed t)) (a l) := by
  rw [redlValue_int ht]; rfl

theorem redlValue_add (ht : t.code ≤ 5) (ha : ∀ l, a l < 2 ^ width t) {act : List Nat} (h : act ≠ []) :
    redlValue t 0 act a = wrap (width t) ((act.map (fun l => iv t (a l))).sum) := by
  obtain ⟨l, ls, rfl⟩ := List.exists_cons_of_ne_nil h
  rw [redlValue_cons ht, ← wrap_iv (ha l), foldl_add ls ha, List.map_cons, List.sum_cons]

theorem redlValue_min (ht : t.code ≤ 5) (ha : ∀ l, a l < 2 ^ width t) {act : List Nat} (h : act ≠ []) :
    (∃ l ∈ act, redlValue t 1 act a = a l) ∧ ∀ l ∈ act, iv t (redlValue t 1 act a) ≤ iv t (a l) := by
  obtain ⟨l, ls, rfl⟩ := List.exists_cons_of_ne_nil h
  rw [redlValue_cons ht]
  refine foldl_least _ (iv t) (fun x y hx hy => ?_) ls ha l
  simp only [intStep, intOf_eq_iv hx, intOf_eq_iv hy]

theorem redlValue_max (ht : t.code ≤ 5) (ha : ∀ l, a l < 2 ^ width t) {act : List Nat} (h : act ≠ []) :
    (∃ l ∈ act, redlValue t 2 act a = a l) ∧ ∀ l ∈ act, iv t (a l) ≤ iv t (redlValue t 2 act a) := by
  obtain ⟨l, ls, rfl⟩ := List.exists_cons_of_ne_nil h
  rw [redlValue_cons ht]
  obtain ⟨hm, hle⟩ := foldl_least (t := t) (a := a) (intStep 2 (width t) (signed t)) (fun x => - iv t x)
    (fun x y hx hy => by simp only [intStep, intOf_eq_iv hx, intOf_eq_iv hy, Int.neg_lt_neg_iff]) ls ha l
  exact ⟨hm, fun i hi => Int.neg_le_neg_iff.mp (hle i hi)⟩

theorem testBit_redlValue_and (ht : t.code ≤ 5) {act : List Nat} (h : act ≠ []) (n : Nat) :
    (redlValue t 3 act a).testBit n = act.all (fun l => (a l).testBit n) := by
  obtain ⟨l, ls, rfl⟩ := List.exists_cons_of_ne_nil h
  rw [redlValue_cons ht]
  exact testBit_foldl_land ls n (a l)

theorem testBit_redlValue_or (ht : t.code ≤ 5) {act : List Nat} (h : act ≠ []) (n : Nat) :
    (redlValue t 4 act a).testBit n = act.any (fun l => (a l).testBit n) := by
  obtain ⟨l, ls, rfl⟩ := List.exists_cons_of_ne_nil h
  rw [redlValue_cons ht]
  exact testBit_foldl_lor ls n (a l)

/-! ## Scans (R262) -/

theorem scnlValue_incl (ht : t.code ≤ 5) {op : Nat} (hop : op < 6) {act : List Nat} {l : Nat}
    (h : act.filter (fun i => i ≤ l) ≠ []) :
    scnlValue t op act a l = redlValue t op (act.filter (fun i => i ≤ l)) a := by
  have hdiv : op / 8 ≠ 1 := by omega
  obtain ⟨m, ms, hm⟩ := List.exists_cons_of_ne_nil h
  simp only [scnlValue, isFlt_of_int ht, Bool.false_eq_true, if_false, hdiv, Nat.mod_eq_of_lt (show op < 8 by omega),
    elemBits_eq_width (.inl ht), hm, redlValue_cons ht]
  rfl

theorem scnlValue_excl (ht : t.code ≤ 5) {op : Nat} (hop : op < 6) (act : List Nat) (l : Nat) :
    scnlValue t (op + 8) act a l = if act.filter (fun i => i < l) = [] then scanIdentity t op
      else redlValue t op (act.filter (fun i => i < l)) a := by
  have hdiv : (op + 8) / 8 = 1 := by omega
  have hmod : (op + 8) % 8 = op := by omega
  simp only [scnlValue, isFlt_of_int ht, Bool.false_eq_true, if_false, hdiv, hmod, if_true, elemBits_eq_width (.inl ht)]
  split
  next he => rw [he]; rfl
  next he =>
    obtain ⟨m, ms, hm⟩ := List.exists_cons_of_ne_nil he
    rw [hm, redlValue_cons ht]
    rfl

end

theorem exec_redl (r : Record) (s : State) : exec (.redl r) s
    = waveOp s r.ty (fun k => flVal (redlValue r.ty r.fn.toNat k.act (fun l => (opA s k r r.ty l).toNat))) := rfl

theorem exec_scnl (r : Record) (s : State) : exec (.scnl r) s
    = laneOp s r r.ty (fun k l => flVal (scnlValue r.ty r.fn.toNat k.act (fun i => (opA s k r r.ty i).toNat) l)) := rfl

/-- Settles O15: REDL folds the active lanes' values, a scan those of the lanes at or below (or below) a lane. -/
theorem reductionsAndScans : Obligations.ReductionsAndScans := by
  intro r s k hk
  refine ⟨?_, ?_, fun ht hact => ?_, fun op l a hop ht h => ⟨scnlValue_incl ht hop h, scnlValue_excl ht hop _ l⟩⟩
  · rw [exec_redl, waveOp_next s k _ _ hk]; rfl
  · rw [exec_scnl, laneOp_next s k _ _ _ hk]; rfl
  · have ha (l : Nat) : (opA s k r r.ty l).toNat < 2 ^ width r.ty := opA_lt ht s k r l
    refine ⟨fun hf => ?_, fun hf => ?_, fun hf => ?_, fun hf => ?_, fun hf => ?_⟩ <;> simp only [hf]
    · exact redlValue_add ht ha hact
    · exact redlValue_min ht ha hact
    · exact redlValue_max ht ha hact
    · exact testBit_redlValue_and ht hact
    · exact testBit_redlValue_or ht hact

/-! ## KEEP (R265) -/

theorem exec_keep (r : Record) (s : State) : exec (.keep r) s = execKeep r s := rfl

theorem slotStep_keepAside (s : State) (k : Ctx) (n : Nat) : SlotStep k.core k.w k.x s (keepAside s k n) := by
  unfold keepAside
  split
  · exact SlotStep.refl ..
  · exact slotStep_onWave fun v _ => waveStep_writeVals ..

theorem slotStep_writeKeep (s : State) (c w x n : Nat) (vals : List (Nat × Word)) :
    SlotStep c w x s (writeKeep s c w x n vals) := by
  unfold writeKeep
  split
  · exact slotStep_writeRegs ..
  · exact SlotStep.refl ..

@[simp] theorem onWave_regs (s : State) (c w : Nat) (f : Wave → Wave) : (coreOf (onWave s c w f) c).regs = (coreOf s c).regs := by
  obtain ⟨m, hm⟩ := coreOf_onWave s c w f
  rw [hm]

@[simp] theorem keepAside_regs (s : State) (k : Ctx) (n : Nat) : (coreOf (keepAside s k n) k.core).regs = (coreOf s k.core).regs := by
  unfold keepAside
  split
  · rfl
  · exact onWave_regs ..

/-- A wave of the same window names the same registers. -/
theorem keepReg_of_waveStep {x : Nat} {v u : Wave} (h : WaveStep x v u) (n : Nat) : keepReg u n = keepReg v n := by
  rw [h.rest]; rfl

/-- The registers after KEEP to a keep slot of wave `v`. -/
theorem writeKeep_regs {s : State} {c w : Nat} {v : Wave} (hv : waveOf s c w = some v) (x n : Nat) (vals : List (Nat × Word)) :
    (coreOf (writeKeep s c w x n vals) c).regs = smSetAll 0 (coreOf s c).regs (pairWrites (keepReg v n) vals) := by
  simp only [writeKeep, hv, writeRegs_regs]

/-- A pair of register halves is the word they came from. -/
theorem halves_append (a : Word) : (a.extractLsb' 32 32 ++ a.setWidth 32 : BitVec 64) = a := by
  ext i hi
  simp only [BitVec.getElem_append, BitVec.getElem_extractLsb', BitVec.getElem_setWidth]
  split
  · rfl
  · rw [BitVec.getLsbD_eq_getElem (by omega)]
    congr 1; omega

section
variable {s : State} {k : Ctx} (hk : ctxOf s = some k)
include hk

/-- KEEP to a keep slot: the registers that change are the slot's pair, in the lanes that run. -/
theorem keep_keepSlot {r : Record} {n : BitVec 8} (hr : r.a = .keep n) :
    ∃ t, exec (.keep r) s = .next t ∧ Frame s t k
      ∧ (coreOf t k.core).regs = smSetAll 0 (coreOf s k.core).regs
          (pairWrites (keepReg k.wave n.toNat) (k.lanes.map (fun l => (l, extendValue r.ty (opB s k r r.ty l))))) := by
  obtain ⟨-, hv, -⟩ := ctxOf_spec s k hk
  obtain ⟨v, hv', hvs⟩ := (slotStep_keepAside s k n.toNat).wave _ hv
  refine ⟨_, (onSlot_next s k _ hk).trans (congrArg _ (by rw [hr])), ?_, ?_⟩
  · exact frame_of_slotStep hk (((slotStep_keepAside ..).trans (slotStep_writeKeep ..)).trans (slotStep_advance ..))
  · rw [advance_regs, writeKeep_regs hv', keepAside_regs, keepReg_of_waveStep hvs]

/-- KEEP to a uniform slot. -/
theorem keep_uniSlot {r : Record} {n : BitVec 8} (hr : r.a = .unif n) :
    ∃ t v, exec (.keep r) s = .next t ∧ Frame s t k ∧ waveOf t k.core k.w = some v
      ∧ v.uni = smSet 0 k.wave.uni n.toNat (extendValue r.ty (opB s k r r.ty k.low))
      ∧ (coreOf t k.core).regs = (coreOf s k.core).regs := by
  obtain ⟨-, hv, -⟩ := ctxOf_spec s k hk
  obtain ⟨u, hu, huni, -⟩ := waveOf_writeUni s k.core k.w k.x n.toNat (extendValue r.ty (opB s k r r.ty k.low)) hv
  obtain ⟨v, hv', hvu, -⟩ := exists_wave_advance hu
  refine ⟨_, v, (onSlot_next s k _ hk).trans (congrArg _ (by rw [hr])), ?_, hv', hvu.trans huni, ?_⟩
  · exact frame_of_slotStep hk ((slotStep_writeUni ..).trans (slotStep_advance ..))
  · rw [advance_regs, writeUni, onWave_regs]

end

/-- Settles O16: the lane's pair of registers, or the uniform slot, is what the writes set; other keys stand. -/
theorem keepWrites : Obligations.KeepWrites := by
  intro r s k hk
  have hlt : ∀ p ∈ k.lanes.map (fun l => (l, extendValue r.ty (opB s k r r.ty l))), p.1 < 32 := by
    simpa using fun l hl => lane_lt hk hl
  have hn : ((k.lanes.map (fun l => (l, extendValue r.ty (opB s k r r.ty l)))).map (fun p => p.1)).Nodup := by
    simpa [Function.comp_def] using lanes_nodup hk
  refine ⟨fun n hr => ?_, fun n hr => ?_⟩
  · obtain ⟨t, ht, hf, hregs⟩ := keep_keepSlot hk hr
    refine ⟨t, ht, hf, fun l hl => ?_, fun q l hl hne => ?_⟩
    · obtain ⟨hlo, hhi⟩ := smGet_pairWrites (r := keepReg k.wave n.toNat) hn hlt (List.mem_map_of_mem hl) (coreOf s k.core).regs
      rw [keepGet, regGet, regGet, hregs, hlo, hhi, halves_append]
    · refine Classical.byContradiction fun hno => ?_
      refine hne ?_
      rw [regGet, hregs, smGet_pairWrites_other hlt hl]
      · rfl
      · rintro ⟨hq, p, hp, rfl⟩
        obtain ⟨m, hm, rfl⟩ := List.mem_map.mp hp
        exact hno ⟨hm, hq⟩
  · obtain ⟨t, v, ht, hf, hv, huni, hregs⟩ := keep_uniSlot hk hr
    refine ⟨t, v, ht, hf, hv, by rw [huni, smGet_smSet_same], fun m hm => by rw [huni, smGet_smSet_other _ _ _ _ _ hm], ?_⟩
    intro q l _ hne
    exact hne (by rw [regGet, regGet, hregs])

/-! ## GETS, BYSW, FEAT (R263, R266, R278) -/

theorem exec_gets (r : Record) (s : State) :
    exec (.gets r) s = laneOp s r r.ty (fun k l => ⟨specialState s k (constOf r.a) l, 0⟩) := rfl

theorem exec_bysw (r : Record) (s : State) : exec (.bysw r) s = laneOp s r .b32 (fun k l =>
    let pool := (opA s k r .b32 l).toNat + (opB s k r .b32 l).toNat * 2 ^ 32
    let c := (opC s k r .b32 l).toNat
    flVal ((List.range 4).foldl (fun a i => a + byswByte pool (c / 256 ^ i % 256) * 256 ^ i) 0)) := rfl

theorem exec_feat (r : Record) (s : State) :
    exec (.feat r) s = laneOp s r .n64 (fun k _ => ⟨featWord s k r.fn.toNat, 0⟩) := rfl

/-- A small immediate names its own number. -/
theorem constOf_imm {i : BitVec 13} (hi : i.toNat < 16) : constOf (.imm i) = i.toNat := by
  have : i.toInt = i.toNat := BitVec.toInt_eq_toNat_of_lt (by omega)
  simp [constOf, this]

theorem specialState_holds : SpecialState := by
  intro r i s k hr hi hk
  refine ⟨fun l => specialState s k i.toNat l, ?_, fun l => ?_⟩
  · rw [exec_gets, laneOp_next s k r _ _ hk, hr, constOf_imm hi]; rfl
  · have hmask : i = 11 → ∀ n, n < 64 → (specialState s k i.toNat l).getLsbD n = k.act.contains n := by
      rintro rfl n hn
      change ((maskOf k.act).setWidth 64).getLsbD n = _
      have hact := act_lt hk n
      rw [BitVec.getLsbD_setWidth, getLsbD_maskOf]
      by_cases hm : n ∈ k.act
      · simp [hm, hn, hact hm]
      · simp [hm]
    refine ⟨?_, ?_, ?_, ?_, ?_, ?_, ?_, ?_, ?_, ?_, ?_, hmask, ?_, ?_, ?_, ?_⟩ <;> rintro rfl <;> rfl

/-- Four bytes added at their places, lowest first. -/
theorem foldl_four (f : Nat → Nat) (b : Nat) : (List.range 4).foldl (fun a i => a + f i * b ^ i) 0
    = f 0 + f 1 * b + f 2 * b ^ 2 + f 3 * b ^ 3 := by
  have h4 : List.range 4 = [0, 1, 2, 3] := rfl
  simp only [h4, List.foldl_cons, List.foldl_nil, Nat.zero_add, Nat.pow_zero, Nat.mul_one, Nat.pow_one]

theorem byteSwizzle (r : Record) : Result (.bysw r) r .b32 (fun s k l =>
    num ((List.range 4).foldl (fun a i => a + byswByte ((opA s k r .b32 l).toNat + (opB s k r .b32 l).toNat * 2 ^ 32)
      ((opC s k r .b32 l).toNat / 256 ^ i % 256) * 256 ^ i) 0)) :=
  laneOp_result (exec_bysw r) fun _ _ _ => rfl

theorem byteSwizzleAndFeatures : ByteSwizzleAndFeatures := by
  intro r
  refine ⟨?_, fun hf => ?_, fun hf => ?_, fun s k hk => ⟨_, laneOp_next s k r _ _ hk⟩⟩
  · have h := byteSwizzle r
    simp only [foldl_four, Nat.pow_zero, Nat.pow_one, Nat.div_one] at h
    exact h
  · refine laneOp_result (exec_feat r) fun s k l => ?_
    rw [hf]; rfl
  · refine laneOp_result (exec_feat r) fun s k l => ?_
    rw [hf]; rfl

/-- Settles O17: the table of special states, the pool's bytes, the feature words. -/
theorem stateAndFeatures : Obligations.StateAndFeatures := ⟨specialState_holds, byteSwizzleAndFeatures⟩

end Sys2Proof.Proofs.Lanes
end

section
/-! SUPPORT. Control records (R267 to R270, R27, R28): what each leaves of its wave, and where its paths stand. -/

open Sys2Proof Sys2Proof.Machine Sys2Proof.Cert
open Sys2Proof.Proofs.Compute Sys2Proof.Proofs.Frames Sys2Proof.Proofs.Values

namespace Sys2Proof.Proofs.Control

/-! ## Masks and lanes -/

theorem maskOf_lanesOf (m : W32) : maskOf (lanesOf m) = m := by
  refine BitVec.eq_of_getLsbD_eq fun i hi => ?_
  rw [getLsbD_maskOf, Bool.eq_iff_iff]
  simp [hi, mem_lanesOf]

theorem maskOf_lanes {s : State} {k : Ctx} (hk : ctxOf s = some k) : maskOf k.lanes = s.cur.lanes := by
  obtain ⟨-, -, -, hl, -⟩ := ctxOf_spec s k hk
  rw [hl, maskOf_lanesOf]

theorem getLsbD_takenLanes {s : State} {k : Ctx} (r : Record) (want : Bool) {l : Nat} (hl : l < 32) :
    (takenLanes s k r want).getLsbD l = true ↔ l ∈ k.lanes ∧ (opB s k r .pred l).getLsbD 0 = want := by
  rw [takenLanes, getLsbD_maskOf]
  simp [hl, -BitVec.getLsbD_eq_getElem]

/-- A mask of the lanes whose predicate is the wanted one is the record's taken set. -/
theorem takenLanes_eq {s : State} {k : Ctx} {r : Record} {want : Bool} {m : W32}
    (h : ∀ l, l < 32 → (m.getLsbD l = true ↔ l ∈ k.lanes ∧ (opB s k r .pred l).getLsbD 0 = want)) : takenLanes s k r want = m := by
  refine BitVec.eq_of_getLsbD_eq fun i hi => ?_
  rw [Bool.eq_iff_iff, h i hi, getLsbD_takenLanes r want hi]

/-! ## One wave changed -/

/-- The states differ in one wave alone. -/
structure OneWave (c w : Nat) (s t : State) : Prop where
  rest : t = { s with cores := t.cores }
  core : ∀ d, d ≠ c → coreOf t d = coreOf s d
  parts : ∃ waves, coreOf t c = { coreOf s c with waves := waves }
  others : ∀ u, u ≠ w → waveOf t c u = waveOf s c u

theorem OneWave.refl (c w : Nat) (s : State) : OneWave c w s s := ⟨rfl, fun _ _ => rfl, ⟨_, rfl⟩, fun _ _ => rfl⟩

theorem OneWave.trans {c w : Nat} {s t u : State} (h : OneWave c w s t) (g : OneWave c w t u) : OneWave c w s u := by
  refine ⟨?_, fun d hd => (g.core d hd).trans (h.core d hd), ?_, fun y hy => (g.others y hy).trans (h.others y hy)⟩
  · rw [g.rest, h.rest]
  · obtain ⟨w1, h1⟩ := h.parts
    obtain ⟨w2, h2⟩ := g.parts
    exact ⟨w2, by rw [h2, h1]⟩

theorem oneWave_onWave (c w : Nat) (s : State) (f : Wave → Wave) : OneWave c w s (onWave s c w f) :=
  ⟨onWave_onlyCores .., fun d hd => coreOf_onWave_other _ _ _ _ _ hd, coreOf_onWave s c w f,
    fun u hu => waveOf_onWave_other _ _ _ _ _ _ (.inr hu)⟩

theorem oneWave_setWave (c w : Nat) (s : State) (v : Option Wave) : OneWave c w s (setWave s c w v) :=
  ⟨rfl, fun d hd => coreOf_onCore_other _ _ _ _ hd, ⟨_, coreOf_onCore ..⟩, fun u hu => waveOf_setWave_other _ _ _ _ _ _ (.inr hu)⟩

theorem oneWave_advance (s : State) (k : Ctx) : OneWave k.core k.w s (advance s k) := by
  unfold advance
  split
  · exact OneWave.refl ..
  · exact oneWave_onWave ..

/-- The waves differ in their slots, their values and their divergence entries. -/
def OnlyDiv (v u : Wave) : Prop :=
  u = { v with slot0 := u.slot0, slot1 := u.slot1, vals := u.vals, valPoison := u.valPoison, div := u.div }

theorem OnlyDiv.trans {v u w : Wave} (h : OnlyDiv v u) (g : OnlyDiv u w) : OnlyDiv v w := by
  unfold OnlyDiv at *
  rw [g, h]

theorem onlyDiv_of_path {v u : Wave} (h : OnlyPath v u) : OnlyDiv v u := by
  unfold OnlyDiv
  rw [h]

theorem controlFrame_of {s t : State} {k : Ctx} {v : Wave} (h : OneWave k.core k.w s t) (hv : waveOf t k.core k.w = some v)
    (hd : OnlyDiv k.wave v) : ControlFrame s t k :=
  ⟨h.rest, h.core, h.parts, h.others, v, hv, hd⟩

/-- A control record that changes its own wave alone. -/
theorem controlFrame_onWave {s : State} {k : Ctx} (hk : ctxOf s = some k) {f : Wave → Wave} (hd : OnlyDiv k.wave (f k.wave)) :
    ControlFrame s (onWave s k.core k.w f) k := by
  obtain ⟨-, hv, -⟩ := ctxOf_spec s k hk
  exact controlFrame_of (oneWave_onWave ..) (by rw [waveOf_onWave, hv]; rfl) hd

/-! ## Positions -/

theorem blockRecs_congr {v u : Wave} (h : u.table = v.table) (b : Nat) : blockRecs u b = blockRecs v b := by
  unfold blockRecs blockOf; rw [h]

theorem fallTarget_congr {v u : Wave} (h : u.table = v.table) (b : Nat) : fallTarget u b = fallTarget v b := by
  unfold fallTarget blockOf; rw [h]

theorem blockAddr_congr {v u : Wave} (h : u.table = v.table) (b : Nat) : blockAddr u b = blockAddr v b := by
  unfold blockAddr blockOf; rw [h]

theorem nextAt_congr {v u : Wave} (h : u.table = v.table) (b r : Nat) : nextAt u b r = nextAt v b r := by
  unfold nextAt; rw [blockRecs_congr h, fallTarget_congr h]

theorem recordAfter_eq (v : Wave) (b : Nat) : recordAfter v b 1 = nextAt v b 0 := rfl

@[simp] theorem slotOf_dropValues (v : Wave) (m : W32) (x : Nat) : slotOf (dropValues v m) x = slotOf v x := rfl

theorem dropValues_onlyPath (v : Wave) (m : W32) : OnlyPath v (dropValues v m) := rfl

theorem moveSlot_sibling (v : Wave) (x b r : Nat) : slotOf (moveSlot v x b r) (1 - x) = slotOf v (1 - x) := by
  simp [moveSlot]

/-- A slot that moves stands at the record it is moved to, with its lanes. -/
theorem at_moveSlot (v : Wave) (x b r : Nat) : At (moveSlot v x b r) x b r (slotOf v x).mask (slotOf v x).jblk := by
  have ht : blockAddr v b = blockAddr (moveSlot v x b r) b :=
    blockAddr_congr (by rw [moveSlot_onlyPath v x b r]) b
  refine ⟨?_, ?_, ?_, ht ▸ ?_, ?_, ?_⟩ <;> simp [moveSlot]

@[simp] theorem moveSlot_div (v : Wave) (x b r : Nat) : (moveSlot v x b r).div = v.div := by
  rw [moveSlot_onlyPath v x b r]

@[simp] theorem stepSlot_div (cur : Issue) (v : Wave) (x : Nat) : (stepSlot cur v x).div = v.div := by
  rw [stepSlot_onlyPath cur v x]

/-- The slot's record outside explicit code and carriages has completed: where its path stands. -/
theorem stepSlot_position {cur : Issue} {v : Wave} {x : Nat} (hd : (slotOf v x).dieAt = none) (hc : (slotOf v x).car = none) :
    (slotOf (stepSlot cur v x) x).blk = (nextAt v (slotOf v x).blk (slotOf v x).rcd).1
      ∧ (slotOf (stepSlot cur v x) x).rcd = (nextAt v (slotOf v x).blk (slotOf v x).rcd).2 := by
  rw [stepSlot_record hd]
  unfold nextAt
  split
  next h => rw [advanceSlot_next v x h]; simp
  next h =>
    rw [advanceSlot_last v x h hc]
    obtain ⟨-, hb, hr, -⟩ := at_moveSlot v x (fallTarget v (slotOf v x).blk) 0
    exact ⟨hb, hr⟩

theorem stepSlot_samePath (cur : Issue) (v : Wave) (x : Nat) : SamePath (slotOf v x) (slotOf (stepSlot cur v x) x) :=
  (waveStep_stepSlot cur v x).path

theorem stepSlot_sibling (cur : Issue) (v : Wave) (x : Nat) : slotOf (stepSlot cur v x) (1 - x) = slotOf v (1 - x) :=
  (waveStep_stepSlot cur v x).sibling

/-! ## A record outside a carriage -/

section
variable {s : State} {k : Ctx} (hp : Plain s k)
include hp

theorem plain_wave : waveOf s k.core k.w = some k.wave := (ctxOf_spec s k hp.1).2.1

theorem plain_slot : slotOf k.wave k.x = k.slot := (ctxOf_spec s k hp.1).2.2.1.symm

theorem plain_car : (slotOf k.wave k.x).car = none := (plain_slot hp).symm ▸ hp.2.1

theorem plain_isDie : isDie s = false := by
  obtain ⟨-, -, hd⟩ := hp
  simp [isDie, hd]

theorem afterCommit_plain (f : State) : afterCommit s k f = f := by
  simp [afterCommit, plain_car hp]

/-- The issuing slot moves to a block: its wave afterwards. -/
theorem goTo_plain (b : Nat) : ∃ v, waveOf (goTo s k b) k.core k.w = some v ∧ At v k.x b 0 k.slot.mask k.slot.jblk
    ∧ slotOf v (1 - k.x) = slotOf k.wave (1 - k.x) ∧ v.div = k.wave.div ∧ (slotOf v k.x).wait = .none ∧ ControlFrame s (goTo s k b) k := by
  have hat := at_moveSlot k.wave k.x b 0
  rw [plain_slot hp] at hat
  refine ⟨_, by rw [goTo, waveOf_onWave, plain_wave hp]; rfl, hat, moveSlot_sibling .., moveSlot_div .., by simp [moveSlot], ?_⟩
  exact controlFrame_onWave hp.1 (onlyDiv_of_path (moveSlot_onlyPath ..))

/-- The issuing slot goes on past its record: its wave afterwards. -/
theorem stepOn_plain (hd : k.slot.dieAt = none) : ∃ v, waveOf (stepOn s k) k.core k.w = some v
    ∧ (slotOf v k.x).rcd = (nextAt k.wave k.slot.blk k.slot.rcd).2 ∧ (slotOf v k.x).blk = (nextAt k.wave k.slot.blk k.slot.rcd).1
    ∧ (slotOf v k.x).mask = k.slot.mask ∧ v.div = k.wave.div ∧ ControlFrame s (stepOn s k) k := by
  have hs := plain_slot hp
  obtain ⟨hb, hr⟩ := stepSlot_position (cur := s.cur) (v := k.wave) (x := k.x) (by rw [hs]; exact hd) (plain_car hp)
  rw [hs] at hb hr
  refine ⟨_, by rw [stepOn, waveOf_onWave, plain_wave hp]; rfl, hr, hb, ?_, stepSlot_div .., ?_⟩
  · rw [(stepSlot_samePath s.cur k.wave k.x).1, hs]
  · exact controlFrame_onWave hp.1 (onlyDiv_of_path (stepSlot_onlyPath ..))

end

/-! ## Divergence (R27) -/

theorem carriageDiscard_none {s : State} {c w y : Nat} {v : Wave} (hv : waveOf s c w = some v) (hc : (slotOf v y).car = none)
    (more : Bool) : carriageDiscard s (c, w, y) more = s := by
  simp [carriageDiscard, discardBy, hv, hc]

/-- The wave once its sibling's path has been pushed. -/
def spilled (v : Wave) (y : Nat) : Wave :=
  if (slotOf v y).st = .empty then v
  else putSlot { v with div := siblingEntries v (slotOf v y) ++ v.div, divRan := spilledRan (slotOf v y) ++ v.divRan } y Slot.reset

theorem waveOf_spillSibling {s : State} {c w y : Nat} {v : Wave} (hv : waveOf s c w = some v) (hc : (slotOf v y).car = none) :
    waveOf (spillSibling s c w y) c w = some (spilled v y) := by
  have hcore : waveOf (onCore s c (fun k => unholdSlot k w y)) c w = some v := by
    rw [waveOf_onCore _ _ _ _ rfl, hv]
  rw [spillSibling, carriageDiscard_none hv hc, waveOf_onWave, hcore]
  rfl

/-- The wave after a divergence of slot `x`: an entry pushed, the sibling spilled, both paths placed. -/
def diverged (cur : Issue) (v : Wave) (cyc x : Nat) (taken : W32) (target join : Nat) : Wave :=
  let v := spilled { v with div := .join join (slotOf v x).mask 0 (slotOf v x).jblk :: v.div } (1 - x)
  let t := slotOf v x
  let v := putSlot (dropValues v taken) x { t with mask := t.mask &&& ~~~taken, jblk := join }
  let v := restCarriage (stepSlot cur v x) x
  putSlot v (1 - x) (pathSlot v cyc target 0 taken join)

theorem spillSibling_cur {s : State} {c w y : Nat} {v : Wave} (hv : waveOf s c w = some v) (hc : (slotOf v y).car = none) :
    (spillSibling s c w y).cur = s.cur := by
  rw [spillSibling, carriageDiscard_none hv hc, onWave_onlyCores]
  rfl

theorem waveOf_diverge {s : State} {k : Ctx} (hv : waveOf s k.core k.w = some k.wave)
    (hc : (slotOf k.wave (1 - k.x)).car = none) (taken : W32) (target join : Nat) :
    waveOf (diverge s k taken target join) k.core k.w
      = some (diverged s.cur k.wave (coreOf s k.core).cycle k.x taken target join) := by
  let u : Wave := { k.wave with div := .join join (slotOf k.wave k.x).mask 0 (slotOf k.wave k.x).jblk :: k.wave.div }
  have hu : waveOf (onWave s k.core k.w (fun v =>
      { v with div := .join join (slotOf v k.x).mask 0 (slotOf v k.x).jblk :: v.div })) k.core k.w = some u := by
    rw [waveOf_onWave, hv]; rfl
  have hcu : (slotOf u (1 - k.x)).car = none := hc
  have hcur := (spillSibling_cur hu hcu).trans (onWave_cur ..)
  rw [diverge, waveOf_onWave]
  simp only [sibling]
  rw [waveOf_spillSibling hu hcu, Option.map_some, hcur]
  rfl

theorem spilled_slot (v : Wave) (x : Nat) : slotOf (spilled v (1 - x)) x = slotOf v x := by
  unfold spilled
  split
  · rfl
  · exact slotOf_putSlot_other _ _ _ _ (sibling_ne x).symm

theorem spilled_table (v : Wave) (y : Nat) : (spilled v y).table = v.table := by
  unfold spilled
  split
  · rfl
  · rw [putSlot_onlyPath]

theorem spilled_div (v : Wave) (y : Nat) :
    (spilled v y).div = (if (slotOf v y).st = .empty then [] else siblingEntries v (slotOf v y)) ++ v.div := by
  unfold spilled
  split
  · rfl
  · simp

theorem restCarriage_onlyPath (v : Wave) (x : Nat) : OnlyPath v (restCarriage v x) := putSlot_onlyPath ..

theorem restCarriage_slot (v : Wave) (x : Nat) : ∃ c, slotOf (restCarriage v x) x = { slotOf v x with car := c } := by
  rw [restCarriage, slotOf_putSlot]
  split
  · exact ⟨_, rfl⟩
  · exact ⟨(slotOf v x).car, rfl⟩

/-- A path placed in a slot stands at its record. -/
theorem at_pathSlot {v u : Wave} (ht : u.table = v.table) (cyc x b r : Nat) (m : W32) (j : Nat)
    (h : slotOf u x = pathSlot v cyc b r m j) : At u x b r m j := by
  unfold At
  rw [h, blockAddr_congr ht]
  exact ⟨rfl, rfl, rfl, rfl, rfl, rfl⟩

/-- The wave after a divergence (R27): the entries, the path that goes on, the path that takes the sibling. -/
theorem diverged_spec (cur : Issue) (v : Wave) (cyc x : Nat) (taken : W32) (target join : Nat)
    (hd : (slotOf v x).dieAt = none) (hc : (slotOf v x).car = none) :
    let u := diverged cur v cyc x taken target join
    u.div = (if (slotOf v (1 - x)).st = .empty then [] else siblingEntries v (slotOf v (1 - x)))
        ++ .join join (slotOf v x).mask 0 (slotOf v x).jblk :: v.div
      ∧ (slotOf u x).mask = (slotOf v x).mask &&& ~~~taken
      ∧ (slotOf u x).rcd = (nextAt v (slotOf v x).blk (slotOf v x).rcd).2
      ∧ (slotOf u x).blk = (nextAt v (slotOf v x).blk (slotOf v x).rcd).1
      ∧ (slotOf u x).jblk = join ∧ At u (1 - x) target 0 taken join := by
  let v1 : Wave := { v with div := .join join (slotOf v x).mask 0 (slotOf v x).jblk :: v.div }
  let v2 := spilled v1 (1 - x)
  have hslot : slotOf v2 x = slotOf v x := spilled_slot v1 x
  let v3 := putSlot (dropValues v2 taken) x { slotOf v2 x with mask := (slotOf v2 x).mask &&& ~~~taken, jblk := join }
  have h3 : slotOf v3 x = { slotOf v x with mask := (slotOf v x).mask &&& ~~~taken, jblk := join } := by
    rw [show slotOf v3 x = _ from slotOf_putSlot .., hslot]
  have ht3 : v3.table = v.table := (putSlot_table ..).trans (spilled_table v1 _)
  let v4 := restCarriage (stepSlot cur v3 x) x
  have ht4 : v4.table = v3.table := by
    rw [show v4 = _ from restCarriage_onlyPath _ x, stepSlot_onlyPath cur v3 x]
  have hu : diverged cur v cyc x taken target join = putSlot v4 (1 - x) (pathSlot v4 cyc target 0 taken join) := rfl
  have hux : slotOf (putSlot v4 (1 - x) (pathSlot v4 cyc target 0 taken join)) x = slotOf v4 x :=
    slotOf_putSlot_other _ _ _ _ (sibling_ne x).symm
  obtain ⟨c, h4⟩ := restCarriage_slot (stepSlot cur v3 x) x
  obtain ⟨hb, hr⟩ := stepSlot_position (cur := cur) (v := v3) (x := x) (by rw [h3]; exact hd) (by rw [h3]; exact hc)
  obtain ⟨hm, hj, -⟩ := stepSlot_samePath cur v3 x
  rw [nextAt_congr ht3, h3] at hb hr
  rw [h3] at hm hj
  rw [hu]
  refine ⟨?_, ?_, ?_, ?_, ?_, at_pathSlot (putSlot_table ..) cyc (1 - x) _ _ _ _ (slotOf_putSlot ..)⟩
  · rw [putSlot_div, show v4.div = (stepSlot cur v3 x).div from putSlot_div .., stepSlot_div, putSlot_div]
    exact spilled_div v1 (1 - x)
  all_goals rw [hux, show slotOf v4 x = _ from h4]
  · exact hm
  · exact hr
  · exact hb
  · exact hj

/-! ## BRC and LOOP of a plain block (R268, R270) -/

theorem exec_brc (r : Record) (s : State) : exec (.brc r) s = execBrc r s := rfl
theorem exec_loop (r : Record) (s : State) : exec (.loop r) s = execLoop r s := rfl

theorem branch_none (s : State) (k : Ctx) (i : Instr) (target join : Nat) : branch s k i 0 target join = stepOn s k := by
  simp [branch]

section
variable {s : State} {k : Ctx} (hp : Plain s k)
include hp

theorem exec_brc_plain (r : Record) : exec (.brc r) s
    = .next (branch s k (.brc r) (takenLanes s k r (r.fn = 0)) (targetBlock s r.a) (joinBlock s r.c)) := by
  rw [exec_brc, execBrc, onSlot_next s k _ hp.1]
  simp [plain_isDie hp]

theorem exec_loop_plain (r : Record) (hk : s.cur.kind ≠ 2) : exec (.loop r) s
    = .next (branch s k (.loop r) (takenLanes s k r true) k.slot.blk (joinBlock s r.c)) := by
  rw [exec_loop, execLoop, onSlot_next s k _ hp.1]
  simp [hk]

theorem branch_all {i : Instr} {taken : W32} (h0 : taken ≠ 0) (ht : taken = maskOf k.lanes) (target join : Nat) :
    branch s k i taken target join = goTo s k target := by
  rw [branch, if_neg h0, afterCommit_plain hp, if_pos ht]

theorem branch_some {i : Instr} {taken : W32} (h0 : taken ≠ 0) (ht : taken ≠ maskOf k.lanes)
    (hh : siblingState s k.core k.w k.wave (1 - k.x) ≠ .holds)
    (hn : divCount k.wave + 1 + spillCost k.wave (1 - k.x) ≤ 64) (target join : Nat) :
    branch s k i taken target join = diverge s k taken target join := by
  have hheld : divergeHeld s k i 1 true = none := by
    simp only [divergeHeld, sibling]
    rw [if_neg (by simp [hh]), if_neg (by simpa using hn)]
  rw [branch, if_neg h0, afterCommit_plain hp, if_neg ht, hheld]

theorem branch_holds {i : Instr} {taken : W32} (h0 : taken ≠ 0) (ht : taken ≠ maskOf k.lanes)
    (hh : siblingState s k.core k.w k.wave (1 - k.x) = .holds) (target join : Nat) :
    branch s k i taken target join = slotWaits s k.core k.w k.x .stalled .sibling := by
  have hheld : divergeHeld s k i 1 true = some (slotWaits s k.core k.w k.x .stalled .sibling) := by
    simp [divergeHeld, sibling, hh]
  rw [branch, if_neg h0, afterCommit_plain hp, if_neg ht, hheld]

/-- A branch whose lanes part, into a sibling that can be taken: the wave afterwards. -/
theorem branch_parts {i : Instr} {taken : W32} {target join : Nat} (hd : k.slot.dieAt = none) (h0 : taken ≠ 0)
    (ht : taken ≠ maskOf k.lanes) (hh : siblingState s k.core k.w k.wave (1 - k.x) ≠ .holds)
    (hn : divCount k.wave + 1 + spillCost k.wave (1 - k.x) ≤ 64) (hc : (slotOf k.wave (1 - k.x)).car = none) :
    ∃ v, waveOf (branch s k i taken target join) k.core k.w = some v
      ∧ v.div = (if (slotOf k.wave (1 - k.x)).st = .empty then [] else siblingEntries k.wave (slotOf k.wave (1 - k.x)))
          ++ .join join k.slot.mask 0 k.slot.jblk :: k.wave.div
      ∧ (slotOf v k.x).mask = k.slot.mask &&& ~~~taken
      ∧ (slotOf v k.x).rcd = (nextAt k.wave k.slot.blk k.slot.rcd).2
      ∧ (slotOf v k.x).blk = (nextAt k.wave k.slot.blk k.slot.rcd).1
      ∧ (slotOf v k.x).jblk = join ∧ At v (1 - k.x) target 0 taken join := by
  have hs := plain_slot hp
  rw [branch_some hp h0 ht hh hn]
  have hspec := diverged_spec s.cur k.wave (coreOf s k.core).cycle k.x taken target join (by rw [hs]; exact hd) (plain_car hp)
  rw [hs] at hspec
  exact ⟨_, waveOf_diverge (plain_wave hp) hc taken target join, hspec⟩

end

theorem siblingState_empty {s : State} {c w y : Nat} {v : Wave} (h : (slotOf v y).st = .empty) :
    siblingState s c w v y = .free := by
  simp only [siblingState, h]

theorem spillCost_empty {v : Wave} {y : Nat} (h : (slotOf v y).st = .empty) : spillCost v y = 0 := by simp [spillCost, h]

theorem siblingEntries_plain {v : Wave} {t : Slot} (hc : t.car = none) (hm : t.mask ≠ 0) : siblingEntries v t
    = .path t.rcd t.blk t.mask t.jblk :: (if t.held = 0 then [] else [.path (blockRecs v t.blk - 1) t.blk t.held t.jblk]) := by
  simp only [siblingEntries, hc]
  rw [if_neg hm]; rfl

/-- Settles O18: each outcome of a branch, the taken set being that of the record's predicate. -/
theorem branchDiverges : Obligations.BranchDiverges := by
  intro i r s k taken target join hi hj hp hlanes _ hd _ on
  have hmask : maskOf k.lanes = k.slot.mask := (maskOf_lanes hp.1).trans hlanes
  have hexec : ∃ i', exec i s = .next (branch s k i' taken target join) := by
    have hjoin : joinBlock s r.c = join := hj.symm
    rcases hi with ⟨rfl, rfl, ht⟩ | ⟨rfl, hk2, rfl, ht⟩
    · have htk : takenLanes s k r (r.fn = 0) = taken := takenLanes_eq fun l hl => by
        rw [ht l hl, Bool.eq_iff_iff (b := decide _), decide_eq_true_eq]
      exact ⟨_, (exec_brc_plain hp r).trans (by rw [htk, hjoin])⟩
    · exact ⟨_, (exec_loop_plain hp r hk2).trans (by rw [takenLanes_eq ht, hjoin])⟩
  obtain ⟨i', hexec⟩ := hexec
  rw [hexec]
  refine ⟨?_, fun h0 hall => ?_, fun h0 hpart hn he hc => ?_, fun h0 hpart => ?_, fun h0 hpart hh => ?_⟩
  · rintro rfl
    obtain ⟨v, hv, hr, hb, hm, hdiv, hf⟩ := stepOn_plain hp hd
    exact ⟨_, v, congrArg _ (branch_none ..), hv, hr, hb, hm, hdiv, hf⟩
  · obtain ⟨v, hv, hat, -, hdiv, -, hf⟩ := goTo_plain hp target
    exact ⟨_, v, congrArg _ (branch_all hp h0 (hall.trans hmask.symm) ..), hv, hat, hdiv, hf⟩
  · obtain ⟨v, hv, hdiv, hm, hr, hb, hjb, hat⟩ := branch_parts (i := i') (target := target) (join := join) hp hd h0 (hmask ▸ hpart)
      (by rw [siblingState_empty he]; decide) (by rw [spillCost_empty he]; omega) hc
    rw [if_pos he] at hdiv
    exact ⟨_, v, rfl, hv, hdiv, hm, hr, hb, hjb, hat⟩
  · intro y held hn hsp hym hyc
    have hne : y.st ≠ .empty := fun he => by
      rw [siblingState_empty he] at hsp; exact absurd hsp (by decide)
    have hent : siblingEntries k.wave y = .path y.rcd y.blk y.mask y.jblk :: held := siblingEntries_plain hyc hym
    have hcost : spillCost k.wave (1 - k.x) = held.length + 1 := by
      rw [spillCost, if_neg hne, show siblingEntries k.wave (slotOf k.wave (1 - k.x)) = _ from hent]; rfl
    obtain ⟨v, hv, hdiv, hm, hr, hb, hjb, hat⟩ := branch_parts (i := i') (target := target) (join := join) hp hd h0 (hmask ▸ hpart)
      (by rw [hsp]; decide) (by rw [hcost]; omega) hyc
    rw [if_neg hne, show siblingEntries k.wave (slotOf k.wave (1 - k.x)) = _ from hent] at hdiv
    exact ⟨_, v, rfl, hv, hdiv, hm, hr, hb, hjb, hat⟩
  · exact congrArg _ (branch_holds hp h0 (hmask ▸ hpart) hh ..)

/-- Settles O60: the three outcomes of a BRC by its predicate. -/
theorem conditionalBranch : Obligations.ConditionalBranch := by
  intro r s k hp _ hd taken
  have hbit (l : Nat) (hl : l < 32) : (takenLanes s k r (r.fn = 0)).getLsbD l = true ↔ l ∈ k.lanes ∧ taken l := by
    rw [getLsbD_takenLanes _ _ hl, Bool.eq_iff_iff, decide_eq_true_eq]
  have hne {l : Nat} (hl : l ∈ k.lanes) (ht : taken l) : takenLanes s k r (r.fn = 0) ≠ 0 := fun h0 => by
    have := (hbit l (lane_lt hp.1 hl)).mpr ⟨hl, ht⟩
    rw [h0] at this
    simp at this
  rw [exec_brc_plain hp]
  refine ⟨fun hnone => ?_, fun hl hall => ?_, fun ⟨l, hl, ht⟩ ⟨m, hm, hmt⟩ _ he hc hn => ?_⟩
  · have h0 : takenLanes s k r (r.fn = 0) = 0 := BitVec.eq_of_getLsbD_eq fun i hi => by
      rw [Bool.eq_iff_iff, hbit i hi]
      simpa using hnone i
    rw [h0, branch_none]; rfl
  · obtain ⟨l, ls, hls⟩ := List.exists_cons_of_ne_nil hl
    have hmem : l ∈ k.lanes := by rw [hls]; exact List.mem_cons_self ..
    have heq : takenLanes s k r (r.fn = 0) = maskOf k.lanes := BitVec.eq_of_getLsbD_eq fun i hi => by
      rw [Bool.eq_iff_iff, hbit i hi, getLsbD_maskOf]
      simpa [hi] using hall i
    rw [branch_all hp (hne hmem (hall l hmem)) heq]; rfl
  · have hpart : takenLanes s k r (r.fn = 0) ≠ maskOf k.lanes := fun heq => by
      have hb := hbit m (lane_lt hp.1 hm)
      rw [heq, getLsbD_maskOf] at hb
      exact hmt (hb.mp (by simp [hm, lane_lt hp.1 hm])).2
    obtain ⟨v, hv, -, -, -, -, -, hat⟩ := branch_parts (i := .brc r) (target := targetBlock s r.a) (join := joinBlock s r.c) hp hd
      (hne hl ht) hpart (by rw [siblingState_empty he]; decide) (by rw [spillCost_empty he]; omega) hc
    obtain ⟨-, hb, hr, -, hmask, -⟩ := hat
    exact ⟨_, v, rfl, hv, hb, hr, fun i hi => by rw [hmask]; exact hbit i hi⟩

end Sys2Proof.Proofs.Control
end

section
/-! SUPPORT. JOIN, EXIT and the divergence words (R28, R205, R269, R275): the area's entries as paths come together and end. -/

open Sys2Proof Sys2Proof.Machine Sys2Proof.Cert
open Sys2Proof.Proofs.Compute Sys2Proof.Proofs.Frames Sys2Proof.Proofs.Values Sys2Proof.Proofs.Control

namespace Sys2Proof.Proofs.Paths

/-! ## The area on chip -/

theorem divLoad_onChip {s : State} {c w : Nat} {v : Wave} (hv : waveOf s c w = some v) (hd : v.divMem = 0) :
    divLoad s c w = some s := by
  simp [divLoad, hv, hd]

theorem withDivergence_onChip {s : State} {k : Ctx} (hk : ctxOf s = some k) (hd : k.wave.divMem = 0) (i : Instr)
    (f : State → Ctx → State) : withDivergence s k i f = f s k := by
  obtain ⟨-, hv, -⟩ := ctxOf_spec s k hk
  simp [withDivergence, divLoad_onChip hv hd, hk]

/-! ## EMPTY slots fill (R28) -/

theorem fillSlot_nonempty {v : Wave} {x : Nat} (h : (slotOf v x).st ≠ .empty) (cyc : Nat) : fillSlot v cyc x = v := by
  rw [fillSlot, if_neg h]

/-- Filling one slot leaves a slot that holds a path. -/
theorem fillSlot_slot {v : Wave} {y : Nat} (h : (slotOf v y).st ≠ .empty) (cyc x : Nat) (hx : x < 2) (hy : y < 2) :
    slotOf (fillSlot v cyc x) y = slotOf v y := by
  by_cases hxy : x = y
  · subst hxy; rw [fillSlot_nonempty h]
  · unfold fillSlot
    split
    · split
      · exact slotOf_putSlot_other _ _ _ _ (by simp only [ne_eq, eq_iff_iff]; omega)
      · rfl
    · rfl

theorem fillSlots_slot {v : Wave} {y : Nat} (h : (slotOf v y).st ≠ .empty) (cyc : Nat) (hy : y < 2) :
    slotOf (fillSlots v cyc) y = slotOf v y := by
  have h0 := fillSlot_slot h cyc 0 (by omega) hy
  rw [fillSlots, fillSlot_slot (h0 ▸ h) cyc 1 (by omega) hy, h0]

/-- Only a path entry is taken. -/
theorem mem_of_takePath {es fs : List DivEntry} {p : Nat × Nat × W32 × Nat} (h : takePath es = some (p, fs)) {j : Nat} {m w : W32} {o : Nat}
    (hj : DivEntry.join j m w o ∈ es) : DivEntry.join j m w o ∈ fs := by
  induction es generalizing p fs with
  | nil => simp at hj
  | cons e es ih =>
    cases e with
    | path r b n jb =>
      simp only [takePath, Option.some.injEq, Prod.mk.injEq] at h
      obtain ⟨-, rfl⟩ := h
      simpa using hj
    | join j' m' w' o' =>
      simp only [takePath, Option.map_eq_some_iff] at h
      obtain ⟨⟨q, gs⟩, hq, he⟩ := h
      simp only [Prod.mk.injEq] at he
      obtain ⟨-, rfl⟩ := he
      rcases List.mem_cons.mp hj with hj | hj
      · exact hj ▸ List.mem_cons_self ..
      · exact List.mem_cons_of_mem _ (ih hq hj)

theorem join_mem_fillSlot {v : Wave} {j : Nat} {m w : W32} {o : Nat} (h : DivEntry.join j m w o ∈ v.div) (cyc x : Nat) :
    DivEntry.join j m w o ∈ (fillSlot v cyc x).div := by
  unfold fillSlot
  split
  · split
    next ht => rw [putSlot_div]; exact mem_of_takePath ht h
    next => exact h
  · exact h

theorem join_mem_fillSlots {v : Wave} {j : Nat} {m w : W32} {o : Nat} (h : DivEntry.join j m w o ∈ v.div) (cyc : Nat) :
    DivEntry.join j m w o ∈ (fillSlots v cyc).div := join_mem_fillSlot (join_mem_fillSlot h cyc 0) cyc 1

theorem fillSlot_table (v : Wave) (cyc x : Nat) : (fillSlot v cyc x).table = v.table := by
  unfold fillSlot
  split
  · split
    · rw [putSlot_table]
    · rfl
  · rfl

theorem fillSlots_table (v : Wave) (cyc : Nat) : (fillSlots v cyc).table = v.table := by
  rw [fillSlots, fillSlot_table, fillSlot_table]

/-! ## JOIN (R269) -/

theorem exec_join (r : Record) (s : State) : exec (.join r) s = execJoin r s := rfl

theorem exec_join_plain {s : State} {k : Ctx} (hp : Plain s k) (r : Record) : exec (.join r) s = .next (joinWork s k (.join r)) := by
  rw [exec_join, execJoin, onSlot_next s k _ hp.1]
  simp [plain_isDie hp]

theorem joinWork_other {s : State} {k : Ctx} (h : k.slot.jblk ≠ k.slot.blk) (i : Instr) : joinWork s k i = stepOn s k := if_pos h

/-- A path that fills its entry is placed in an EMPTY slot, at the record after its JOIN. -/
theorem completeJoin_at {v : Wave} {x : Nat} (hx : x < 2) (he : (slotOf v x).st = .empty) (cyc j : Nat) (m : W32) (o : Nat) :
    ∃ y, y < 2 ∧ (completeJoin v cyc j m o).table = v.table
      ∧ slotOf (completeJoin v cyc j m o) y = pathSlot v cyc (nextAt v j 0).1 (nextAt v j 0).2 m o := by
  unfold completeJoin
  dsimp only
  split
  · exact ⟨0, by omega, putSlot_table .., slotOf_putSlot ..⟩
  · rename_i h0
    have hx1 : x = 1 := by
      refine Classical.byContradiction fun hne => ?_
      obtain rfl : x = 0 := by omega
      exact h0 he
    subst hx1
    have he1 : v.slot1.st = .empty := he
    rw [if_pos he1]
    exact ⟨1, by omega, putSlot_table .., slotOf_putSlot ..⟩

/-- A path reaches its own JOIN at the top entry: it waits in the entry, or the entry's path goes on. -/
theorem arriveJoin_top {v : Wave} {x : Nat} {m w : W32} {o : Nat} {es : List DivEntry} (hx : x < 2)
    (hdiv : v.div = .join (slotOf v x).blk m w o :: es) (hm : (slotOf v x).mask &&& m = (slotOf v x).mask) (cyc : Nat) :
    ∃ u, arriveJoin v cyc x = some u
      ∧ (w ||| (slotOf v x).mask ≠ m → .join (slotOf v x).blk m (w ||| (slotOf v x).mask) o ∈ u.div)
      ∧ (w ||| (slotOf v x).mask = m → ∃ y, y < 2
        ∧ At u y (nextAt v (slotOf v x).blk 0).1 (nextAt v (slotOf v x).blk 0).2 m o) := by
  have hfind : findJoin (slotOf v x).blk (slotOf v x).mask v.div = some ((m, w, o), [], es) := by
    simp [hdiv, findJoin, hm]
  by_cases hw : w ||| (slotOf v x).mask = m
  · let v1 : Wave := { putSlot (dropValues v (slotOf v x).mask) x Slot.reset with div := es }
    have ht1 : v1.table = v.table := putSlot_table ..
    have he : (slotOf v1 x).st = .empty := by
      rw [show slotOf v1 x = Slot.reset from slotOf_putSlot ..]; rfl
    obtain ⟨y, hy, ht, hslot⟩ := completeJoin_at hx he cyc (slotOf v x).blk m o
    refine ⟨fillSlots (completeJoin v1 cyc (slotOf v x).blk m o) cyc, by simp [arriveJoin, hfind, hw, v1], (absurd hw ·), fun _ => ⟨y, hy, ?_⟩⟩
    refine at_pathSlot (v := v1) ((fillSlots_table ..).trans ht) cyc y _ _ m o ?_
    have hne : (slotOf (completeJoin v1 cyc (slotOf v x).blk m o) y).st ≠ .empty := by
      rw [hslot]; exact fun h => SlotSt.noConfusion h
    rw [fillSlots_slot hne cyc hy, hslot, nextAt_congr ht1]
  · refine ⟨_, by simp only [arriveJoin, hfind, if_neg hw]; rfl, fun _ => join_mem_fillSlots (by simp) cyc, fun h => absurd h hw⟩

/-- Settles O19: the JOIN of another block is passed over; at its own the path meets the top entry. -/
theorem joinReconverges : Obligations.JoinReconverges := by
  intro r s k m w o es hp _ hd hx
  rw [exec_join_plain hp]
  refine ⟨fun hne => ?_, fun heq hmem hdiv hm => ?_⟩
  · obtain ⟨v, hv, hr, hb, hmask, hdiv, -⟩ := stepOn_plain hp hd
    exact ⟨_, v, congrArg _ (joinWork_other hne _), hv, hr, hb, hmask, hdiv⟩
  · have hs := plain_slot hp
    obtain ⟨u, hu, hwait, hdone⟩ := arriveJoin_top (v := k.wave) (m := m) (w := w) (o := o) (es := es) hx
      (by rw [hs]; exact hdiv) (by rw [hs]; exact hm) (coreOf s k.core).cycle
    rw [hs] at hwait hdone
    refine ⟨setWave s k.core k.w (some u), u, ?_, waveOf_setWave .., hwait, hdone⟩
    simp [joinWork, heq, withDivergence_onChip hp.1 hmem, hu]

/-! ## The lanes of a wave (R23) -/

/-- Every lane of one mask is one of another. -/
def Sub (a m : W32) : Prop := ∀ i, a.getLsbD i = true → m.getLsbD i = true

theorem sub_or {a b m : W32} : Sub (a ||| b) m ↔ Sub a m ∧ Sub b m := by
  simp only [Sub, BitVec.getLsbD_or, Bool.or_eq_true]
  exact ⟨fun h => ⟨fun i hi => h i (.inl hi), fun i hi => h i (.inr hi)⟩, fun ⟨h, g⟩ i hi => hi.elim (h i) (g i)⟩

theorem sub_zero (m : W32) : Sub 0 m := fun i hi => by simp at hi

theorem Sub.trans {a b c : W32} (h : Sub a b) (g : Sub b c) : Sub a c := fun i hi => g i (h i hi)

theorem sub_without {a m : W32} (h : Sub a m) (ls : W32) : Sub (a &&& ~~~ls) (m &&& ~~~ls) := by
  intro i hi
  simp only [BitVec.getLsbD_and, Bool.and_eq_true] at hi ⊢
  exact ⟨h i hi.1, hi.2⟩

theorem eq_zero_of_sub_zero {a : W32} (h : Sub a 0) : a = 0 :=
  BitVec.eq_of_getLsbD_eq fun i _ => by
    rw [Bool.eq_iff_iff]; exact ⟨h i, fun hi => by simp at hi⟩

theorem and_eq_zero_of_sub {a m ls : W32} (h : Sub a (m &&& ~~~ls)) : a &&& ls = 0 := by
  refine BitVec.eq_of_getLsbD_eq fun i hi => ?_
  have := h i
  simp only [BitVec.getLsbD_and, BitVec.getLsbD_not, hi, decide_true, Bool.true_and, Bool.and_eq_true] at this ⊢
  cases ha : a.getLsbD i with
  | false => simp
  | true => simpa using (this ha).2

/-- The lanes an entry of the divergence area holds (R26). -/
def entryMask : DivEntry → W32
  | .path _ _ m _ => m
  | .join _ _ w _ => w

theorem sub_foldl_entries {es : List DivEntry} {m : W32} : ∀ a : W32,
    Sub (es.foldl (fun m e => match e with
      | .path _ _ p _ => m ||| p
      | .join _ _ w _ => m ||| w) a) m ↔ Sub a m ∧ ∀ e ∈ es, Sub (entryMask e) m := by
  induction es with
  | nil => simp
  | cons e es ih =>
    intro a
    rw [List.foldl_cons, ih, List.forall_mem_cons, ← and_assoc]
    cases e <;> exact and_congr_left fun _ => sub_or

theorem sub_entriesLanes {es : List DivEntry} {m : W32} : Sub (entriesLanes es) m ↔ ∀ e ∈ es, Sub (entryMask e) m := by
  rw [entriesLanes]
  exact (sub_foldl_entries 0).trans (and_iff_right (sub_zero m))

/-- Every lane that a slot holds is one of a mask. -/
def SlotIn (m : W32) (t : Slot) : Prop := Sub t.mask m ∧ Sub t.held m

/-- Every live lane of a wave is one of a mask. -/
structure LanesIn (m : W32) (v : Wave) : Prop where
  entries : ∀ e ∈ v.div, Sub (entryMask e) m
  stored : Sub v.divLanes m
  slot0 : SlotIn m v.slot0
  slot1 : SlotIn m v.slot1

theorem sub_liveLanes {v : Wave} {m : W32} : Sub (liveLanes v) m ↔ LanesIn m v := by
  simp only [liveLanes, sub_or, sub_entriesLanes]
  exact ⟨fun ⟨⟨he, hs⟩, ⟨⟨h0, g0⟩, h1⟩, g1⟩ => ⟨he, hs, ⟨h0, g0⟩, h1, g1⟩,
    fun ⟨he, hs, h0, h1⟩ => ⟨⟨he, hs⟩, ⟨⟨h0.1, h0.2⟩, h1.1⟩, h1.2⟩⟩

theorem lanesIn_putSlot {m : W32} {v : Wave} (h : LanesIn m v) {t : Slot} (ht : SlotIn m t) (x : Nat) : LanesIn m (putSlot v x t) := by
  unfold putSlot
  split
  · exact ⟨h.entries, h.stored, ht, h.slot1⟩
  · exact ⟨h.entries, h.stored, h.slot0, ht⟩

theorem slotIn_pathSlot {m p : W32} (h : Sub p m) (v : Wave) (cyc b r j : Nat) : SlotIn m (pathSlot v cyc b r p j) := ⟨h, sub_zero m⟩

theorem takePath_lanes {es fs : List DivEntry} {r b j : Nat} {p m : W32} (h : takePath es = some ((r, b, p, j), fs))
    (hes : ∀ e ∈ es, Sub (entryMask e) m) : Sub p m ∧ ∀ e ∈ fs, Sub (entryMask e) m := by
  induction es generalizing fs with
  | nil => simp [takePath] at h
  | cons e es ih =>
    rw [List.forall_mem_cons] at hes
    cases e with
    | path r' b' n j' =>
      simp only [takePath, Option.some.injEq, Prod.mk.injEq] at h
      obtain ⟨⟨-, -, rfl, -⟩, rfl⟩ := h
      exact hes
    | join j' n w o =>
      simp only [takePath, Option.map_eq_some_iff] at h
      obtain ⟨⟨q, gs⟩, hq, he⟩ := h
      simp only [Prod.mk.injEq] at he
      obtain ⟨rfl, rfl⟩ := he
      obtain ⟨hp, hg⟩ := ih hq hes.2
      exact ⟨hp, List.forall_mem_cons.mpr ⟨hes.1, hg⟩⟩

theorem lanesIn_fillSlot {m : W32} {v : Wave} (h : LanesIn m v) (cyc x : Nat) : LanesIn m (fillSlot v cyc x) := by
  unfold fillSlot
  split
  · split
    next r b p j es ht =>
      obtain ⟨hp, hes⟩ := takePath_lanes ht h.entries
      have hrest : LanesIn m { v with div := es, divRan := v.divRan.filter (fun q => q.1 &&& p = 0) } :=
        ⟨hes, h.stored, h.slot0, h.slot1⟩
      refine lanesIn_putSlot hrest ?_ x
      exact ⟨hp, sub_zero m⟩
    next => exact h
  · exact h

theorem lanesIn_fillSlots {m : W32} {v : Wave} (h : LanesIn m v) (cyc : Nat) : LanesIn m (fillSlots v cyc) :=
  lanesIn_fillSlot (lanesIn_fillSlot h cyc 0) cyc 1

theorem lanesIn_completeJoin {m p : W32} {v : Wave} (h : LanesIn m v) (hp : Sub p m) (cyc j o : Nat) :
    LanesIn m (completeJoin v cyc j p o) := by
  unfold completeJoin
  dsimp only
  split
  · exact lanesIn_putSlot h (slotIn_pathSlot hp ..) 0
  · split
    · exact lanesIn_putSlot h (slotIn_pathSlot hp ..) 1
    · exact ⟨List.forall_mem_cons.mpr ⟨hp, h.entries⟩, h.stored, h.slot0, h.slot1⟩

theorem lanesIn_completeJoins {m : W32} {ps : List (Nat × W32 × Nat)} (hps : ∀ p ∈ ps, Sub p.2.1 m) (cyc : Nat) :
    ∀ {v : Wave}, LanesIn m v → LanesIn m (ps.foldl (fun v p => completeJoin v cyc p.1 p.2.1 p.2.2) v) := by
  induction ps with
  | nil => exact id
  | cons p ps ih =>
    intro v h
    rw [List.forall_mem_cons] at hps
    exact ih hps.2 (lanesIn_completeJoin h hps.1 cyc p.1 p.2.2)

/-- The entries that stay, and the paths that go on, hold none of the lanes that end. -/
theorem exitEntries_lanes {es : List DivEntry} {m : W32} (h : ∀ e ∈ es, Sub (entryMask e) m) (ls : W32) :
    (∀ e ∈ (exitEntries ls es).1, Sub (entryMask e) (m &&& ~~~ls)) ∧ ∀ p ∈ (exitEntries ls es).2, Sub p.2.1 (m &&& ~~~ls) := by
  induction es with
  | nil => simp [exitEntries]
  | cons e es ih =>
    rw [List.forall_mem_cons] at h
    obtain ⟨he, hps⟩ := ih h.2
    have hm := sub_without h.1 ls
    cases e with
    | path r b n j =>
      refine ⟨?_, hps⟩
      simp only [exitEntries]
      split
      · exact he
      · exact List.forall_mem_cons.mpr ⟨hm, he⟩
    | join j n w o =>
      simp only [exitEntries]
      split
      · exact ⟨he, hps⟩
      · split
        next heq => exact ⟨he, List.forall_mem_cons.mpr ⟨heq ▸ hm, hps⟩⟩
        next => exact ⟨List.forall_mem_cons.mpr ⟨hm, he⟩, hps⟩

theorem slotIn_without {m : W32} {t : Slot} (h : SlotIn m t) (ls : W32) : SlotIn (m &&& ~~~ls) (slotWithout t ls) := by
  simp only [slotWithout]
  split
  · exact ⟨sub_zero _, sub_zero _⟩
  · exact ⟨sub_without h.1 ls, sub_without h.2 ls⟩

/-- Lanes that end are live nowhere in the wave (R28). -/
theorem lanesIn_endLanes {m : W32} {v : Wave} (h : LanesIn m v) (cyc : Nat) (ls : W32) :
    LanesIn (m &&& ~~~ls) (endLanes v cyc ls) := by
  obtain ⟨he, hps⟩ := exitEntries_lanes h.entries ls
  exact lanesIn_fillSlots (lanesIn_completeJoins hps cyc
    ⟨he, sub_without h.stored ls, slotIn_without h.slot0 ls, slotIn_without h.slot1 ls⟩) cyc

theorem liveLanes_endLanes (v : Wave) (cyc : Nat) (ls : W32) : Sub (liveLanes (endLanes v cyc ls)) (liveLanes v &&& ~~~ls) :=
  sub_liveLanes.mpr (lanesIn_endLanes (sub_liveLanes.mp fun _ => id) cyc ls)

/-! ## A wave that has gone (R25) -/

/-- No wave stands in a wave slot. -/
def Gone (w : Nat) (k : Core) : Prop := smGet none k.waves w = none

theorem gone_of_waves {w : Nat} {k q : Core} (h : Gone w k) (hw : q.waves = k.waves) : Gone w q := by
  unfold Gone at *; rw [hw, h]

theorem smGet_map {α β : Type} (d : α) (e : β) (f : α → β) (hf : f d = e) (m : SMap α) (j : Nat) :
    smGet e (m.map (fun p => (p.1, f p.2))) j = f (smGet d m j) := by
  induction m with
  | nil => exact hf.symm
  | cons p m ih =>
    simp only [List.map_cons, smGet]
    split
    · rfl
    · exact ih

theorem gone_putGroup {w : Nat} {k : Core} (h : Gone w k) (e : Nat) (g : Group) : Gone w (putGroup k e g) := h

theorem gone_freeGroups {w : Nat} {k : Core} (h : Gone w k) (u : Nat) : Gone w (freeGroups k u) := h

theorem gone_wakePhase {w : Nat} {k : Core} (h : Gone w k) (e : Nat) (ph : Bool) : Gone w (wakePhase k e ph) := by
  unfold Gone wakePhase at *
  rw [smGet_map none none (Option.map _) rfl, h]
  rfl

theorem gone_putWave {w u : Nat} {k : Core} {v : Wave} (h : Gone w k) (hu : smGet none k.waves u = some v) (n : Option Wave) :
    Gone w (putWave k u n) := by
  have hne : w ≠ u := by
    rintro rfl
    rw [Gone, hu] at h
    exact absurd h (by simp)
  unfold Gone putWave
  rw [smGet_smSet_other _ _ _ _ _ hne]
  exact h

theorem onTenderAt_waves (k : Core) (i : Nat) (f : Tender → Tender) : (onTenderAt k i f).waves = k.waves := by
  unfold onTenderAt; split <;> rfl

theorem gone_countHeld {w : Nat} {k : Core} (h : Gone w k) (e : Nat) (a : Arrival) : Gone w (countHeld k e a) := by
  simp only [countHeld]
  split
  · cases a with
    | wave u x wait replay =>
      dsimp only
      split
      next v hv => exact gone_putWave (v := v) (gone_of_waves h rfl) hv _
      next => exact h
    | tender i => exact gone_of_waves h (onTenderAt_waves ..)
  · exact gone_of_waves h rfl

theorem gone_foldl {α : Type} {w : Nat} {f : Core → α → Core} (hf : ∀ k a, Gone w k → Gone w (f k a)) (as : List α) :
    ∀ {k : Core}, Gone w k → Gone w (as.foldl f k) := by
  induction as with
  | nil => exact id
  | cons a as ih => intro k h; exact ih (hf k a h)

theorem gone_groupTry {w : Nat} (n : Nat) : ∀ {k : Core}, Gone w k → ∀ e, Gone w (groupTry n k e) := by
  induction n with
  | zero => exact fun h _ => h
  | succ n ih =>
    intro k h e
    simp only [groupTry]
    split
    · exact ih (gone_foldl (fun k a hk => gone_countHeld hk e a) _ (gone_wakePhase (gone_putGroup h e _) e _)) e
    · exact h

theorem gone_groupSettle {w : Nat} {k : Core} (h : Gone w k) (e : Nat) : Gone w (groupSettle k e) := gone_groupTry 40 h e

theorem gone_groupExit {w : Nat} {k : Core} (h : Gone w k) (e i : Nat) : Gone w (groupExit k e i) := by
  simp only [groupExit]
  split
  · exact gone_groupSettle (gone_putGroup h e _) e
  · exact h

theorem gone_groupStreamEnd {w : Nat} {k : Core} (h : Gone w k) (e : Nat) : Gone w (groupStreamEnd k e) := by
  simp only [groupStreamEnd]
  split
  · exact gone_groupSettle (gone_putGroup h e _) e
  · exact h

theorem gone_endStream {w : Nat} {k : Core} (h : Gone w k) (b : PlacedBlock) : Gone w (endStream k b) := by
  simp only [endStream]
  split
  · exact h
  · refine gone_foldl (fun k n hk => gone_groupStreamEnd hk _) _ ?_
    split
    · exact gone_of_waves h (onTenderAt_waves ..)
    · exact gone_of_waves h (onTenderAt_waves ..)

theorem waveOf_setCore (s : State) (c w : Nat) (k : Core) : waveOf (setCore s c k) c w = smGet none k.waves w := by
  simp [waveOf]

/-- A wave that retires leaves its wave slot (R25). -/
theorem waveOf_retireWave (s : State) (c w : Nat) : waveOf (retireWave s c w) c w = none := by
  unfold retireWave
  split
  next h => exact h
  next v hv =>
    dsimp only
    have hput : Gone w (putWave (coreOf s c) w none) := by simp [Gone, putWave]
    have hleft (q : Core) (hq : Gone w q) : Gone w (freeGroups
        ((List.range v.ngroup).foldl (fun k n => groupExit k (v.groupBase + n) v.waveIdx) q) v.uid) :=
      gone_freeGroups (gone_foldl (fun k n h => gone_groupExit h _ _) _ hq) _
    have hk := hleft { unholdSlot (unholdSlot (putWave (coreOf s c) w none) w 0) w 1 with
      handlers := (coreOf s c).handlers.filter (fun i => i ≠ w),
      blocks := (coreOf s c).blocks.map (fun b =>
        if b.uid = v.block then { b with live := b.live.filter (fun i => i ≠ v.waveIdx) } else b) } hput
    split
    · rw [waveOf_setCore]; exact hk
    · split
      · rw [waveOf_setCore]; exact gone_endStream hk _
      · split
        · rw [waveOf_setCore]; exact hk
        · split
          next u hu => rw [waveOf_setCore]; exact gone_putWave hk hu _
          next => rw [waveOf_setCore]; exact hk

/-! ## EXIT (R275) -/

/-- The lanes of a wave end that evaluates no cell and whose entries are on chip. -/
theorem endWaveLanes_onChip {s : State} {c w : Nat} {v : Wave} (hv : waveOf s c w = some v) (hd : v.divMem = 0) (he : v.evals = [])
    (ls : W32) (why : BitVec 8 × Nat × Nat) : endWaveLanes s c w ls why =
      if liveLanes (endLanes v (coreOf s c).cycle ls) = 0
      then retireWave (onWave s c w (fun v => endLanes v (coreOf s c).cycle ls)) c w
      else onWave s c w (fun v => endLanes v (coreOf s c).cycle ls) := by
  have hu : waveOf (onWave s c w (fun v => endLanes v (coreOf s c).cycle ls)) c w = some (endLanes v (coreOf s c).cycle ls) := by
    rw [waveOf_onWave, hv]; rfl
  simp only [endWaveLanes, divLoad_onChip hv hd, Option.getD_some, hv, he, List.filter_nil, List.foldl_nil, hu]

/-- What is left of the wave is the wave without the lanes. -/
theorem waveOf_endWaveLanes {s : State} {c w : Nat} {v u : Wave} (hv : waveOf s c w = some v) (hd : v.divMem = 0) (he : v.evals = [])
    (ls : W32) (why : BitVec 8 × Nat × Nat) (h : waveOf (endWaveLanes s c w ls why) c w = some u) :
    u = endLanes v (coreOf s c).cycle ls := by
  rw [endWaveLanes_onChip hv hd he] at h
  split at h
  · rw [waveOf_retireWave] at h; exact absurd h (by simp)
  · rw [waveOf_onWave, hv] at h
    exact (Option.some.inj h).symm

theorem endWaveLanes_spec {s : State} {c w : Nat} {v : Wave} (hv : waveOf s c w = some v) (hd : v.divMem = 0) (he : v.evals = [])
    (ls : W32) (why : BitVec 8 × Nat × Nat) :
    (∀ u, waveOf (endWaveLanes s c w ls why) c w = some u → liveLanes u &&& ls = 0)
      ∧ (liveLanes v &&& ~~~ls = 0 → waveOf (endWaveLanes s c w ls why) c w = none) := by
  have hsub := liveLanes_endLanes v (coreOf s c).cycle ls
  refine ⟨fun u h => ?_, fun h0 => ?_⟩
  · rw [waveOf_endWaveLanes hv hd he ls why h]
    exact and_eq_zero_of_sub hsub
  · rw [h0] at hsub
    rw [endWaveLanes_onChip hv hd he, if_pos (eq_zero_of_sub_zero hsub), waveOf_retireWave]

theorem exec_exit (r : Record) (s : State) : exec (.exit r) s = execExit r s := rfl

theorem exitRecord_onChip {s : State} {k : Ctx} (hk : ctxOf s = some k) (hc : k.slot.car = none) (hd : k.wave.divMem = 0) (i : Instr) :
    exitRecord s k i = endWaveLanes s k.core k.w s.cur.lanes (causeCellShape, k.slot.blk, k.slot.rcd) := by
  obtain ⟨-, -, hs, -⟩ := ctxOf_spec s k hk
  rw [exitRecord, ← hs, hc]
  simp only [Option.isSome_none, Bool.false_eq_true, if_false, exitWork]
  rw [withDivergence_onChip hk hd, maskOf_lanes hk]

/-- Settles O21: the lanes leave slots and entries; a wave without lanes retires. -/
theorem exitEndsLanes : Obligations.ExitEndsLanes := by
  intro r s k hp hd he
  refine ⟨_, ?_, endWaveLanes_spec (plain_wave hp) hd he s.cur.lanes (causeCellShape, k.slot.blk, k.slot.rcd)⟩
  rw [exec_exit, execExit, onSlot_next s k _ hp.1, ← exitRecord_onChip hp.1 hp.2.1 hd (.exit r)]
  simp [plain_isDie hp]

/-! ## WIN, DLIT and DSPL (R205) -/

theorem exec_win (m : Bool) (woff : BitVec 7) (ub : Bool) (s : State) : exec (.win m woff ub) s = execWin m woff ub s := rfl
theorem exec_dlit (m : Bool) (p : BitVec 24) (s : State) : exec (.dlit m p) s = execDlit m p s := rfl
theorem exec_dspl (m : Bool) (kf : BitVec 2) (s : State) : exec (.dspl m kf) s = execDspl m kf s := rfl

section
variable {s : State} {k : Ctx} (hk : ctxOf s = some k)
include hk

/-- A die word that completes and sets a field of its slot. -/
theorem advance_onSlotOf (f : Slot → Slot) : ∃ v, waveOf (onSlotOf (advance s k) k.core k.w k.x f) k.core k.w = some v
    ∧ (∃ t, slotOf v k.x = f t) ∧ ControlFrame s (onSlotOf (advance s k) k.core k.w k.x f) k := by
  obtain ⟨-, hv, -⟩ := ctxOf_spec s k hk
  obtain ⟨u, hu, hpath⟩ : ∃ u, waveOf (advance s k) k.core k.w = some u ∧ OnlyPath k.wave u := by
    refine ⟨_, by rw [waveOf_advance, hv]; rfl, ?_⟩
    split
    · exact rfl
    · exact stepSlot_onlyPath ..
  have hw : waveOf (onSlotOf (advance s k) k.core k.w k.x f) k.core k.w = some (putSlot u k.x (f (slotOf u k.x))) := by
    rw [waveOf_onSlotOf, hu]; rfl
  refine ⟨_, hw, ⟨_, slotOf_putSlot ..⟩, ?_⟩
  exact controlFrame_of ((oneWave_advance s k).trans (oneWave_onWave ..)) hw
    ((onlyDiv_of_path hpath).trans (onlyDiv_of_path (putSlot_onlyPath ..)))

/-- DSPL behind a word that left its work. -/
theorem exec_dspl_next {p : Pending} (ho : s.cur.ops = none) (hp : k.slot.dspl = some p) (m : Bool) (kf : BitVec 2) :
    exec (.dspl m kf) s = .next
      (let kind := if kf = 3 then p.k else kf.toNat
      if kind = 0 then branch s k (.brc ⟨false, .b32, 0, .absent, .absent, .absent⟩) p.taken p.target p.join
      else if kind = 1 then joinWork s k (.join ⟨false, .b32, 0, .absent, .absent, .absent⟩)
      else exitRecord s k (.exit ⟨false, .b32, 0, .absent, .absent, .absent⟩)) := by
  have hwork : pendingWork s k = some p := by simp [pendingWork, ho, hp]
  rw [exec_dspl, execDspl, onSlot_next s k _ hk, hwork]

end

/-- Settles O22: each die word's slot field, and each kind of work that a DSPL completes. -/
theorem dieWordsComplete : Obligations.DieWordsComplete := by
  intro s k m hk
  obtain ⟨-, hv, hs, -⟩ := ctxOf_spec s k hk
  refine ⟨fun woff ub => ?_, fun p => ?_, fun target join ho hd => ?_, fun target join ho hd h0 hc => ?_, fun p ho hd hne => ?_,
    fun p ho hd hc hm he => ?_⟩
  · obtain ⟨v, hw, ⟨t, ht⟩, hf⟩ := advance_onSlotOf hk (fun t => { t with woff := woff, ub := ub })
    exact ⟨_, v, (exec_win m woff ub s).trans (onSlot_next s k _ hk), hw, by rw [ht], by rw [ht], hf⟩
  · obtain ⟨v, hw, ⟨t, ht⟩, hf⟩ := advance_onSlotOf hk (fun t => { t with dlit := some p })
    exact ⟨_, v, (exec_dlit m p s).trans (onSlot_next s k _ hk), hw, by rw [ht], hf⟩
  · rw [exec_dspl_next hk ho hd m 0]
    exact congrArg _ (branch_none s k (.brc ⟨false, .b32, 0, .absent, .absent, .absent⟩) target join)
  · have hbr : branch s k (.brc ⟨false, .b32, 0, .absent, .absent, .absent⟩) (maskOf k.lanes) target join = goTo s k target := by
      rw [branch, if_neg h0, if_pos rfl, afterCommit, ← hs, hc]; rfl
    have hat := at_moveSlot k.wave k.x target 0
    rw [← hs] at hat
    exact ⟨_, _, (exec_dspl_next hk ho hd m 0).trans (congrArg _ hbr), by rw [goTo, waveOf_onWave, hv]; rfl, hat⟩
  · exact (exec_dspl_next hk ho hd m 1).trans (congrArg _ (joinWork_other hne _))
  · exact ⟨_, (exec_dspl_next hk ho hd m 2).trans (congrArg _ (exitRecord_onChip hk hc hm _)), (endWaveLanes_spec hv hm he ..).1⟩

end Sys2Proof.Proofs.Paths
end

section
/-! SUPPORT. BR, YIELD, calls, returns and the binding of a stub (R267, R271 to R274, R276). -/

open Sys2Proof Sys2Proof.Machine Sys2Proof.Cert
open Sys2Proof.Proofs.Compute Sys2Proof.Proofs.Frames Sys2Proof.Proofs.Values Sys2Proof.Proofs.Lanes Sys2Proof.Proofs.Control

namespace Sys2Proof.Proofs.Calls

theorem exec_br (r : Record) (s : State) : exec (.br r) s = execBr r s := rfl
theorem exec_yield (r : Record) (s : State) : exec (.yield r) s = execYield r s := rfl
theorem exec_call (r : Record) (s : State) : exec (.call r) s = execCall r s := rfl
theorem exec_calli (r : Record) (s : State) : exec (.calli r) s = execCalli r s := rfl
theorem exec_ret (r : Record) (s : State) : exec (.ret r) s = execRet r s := rfl

/-- An immediate that is not negative names its own number. -/
theorem targetBlock_imm {b : BitVec 13} (h : b.msb = false) (s : State) : targetBlock s (.imm b) = b.toNat := by
  have : b.toInt = b.toNat := by rw [BitVec.toInt_eq_msb_cond, h]; rfl
  simp [targetBlock, this]

theorem branchAndYield : BranchAndYield := by
  intro r s k hp
  refine ⟨?_, fun b hr hb => by rw [hr, targetBlock_imm hb], fun n hr => by rw [hr]; rfl, ?_⟩
  · obtain ⟨v, hv, hat, hsib, -, -, hf⟩ := goTo_plain hp (targetBlock s r.a)
    refine ⟨_, v, ?_, hv, hat, hsib, hf⟩
    rw [exec_br, execBr, onSlot_next s k _ hp.1, afterCommit_plain hp]
  · have hu : waveOf (stepOn s k) k.core k.w = some (stepSlot s.cur k.wave k.x) := by
      rw [stepOn, waveOf_onWave, plain_wave hp]; rfl
    have hw : waveOf (onSlotOf (stepOn s k) k.core k.w k.x (fun t => { t with ready := (coreOf s k.core).cycle + 1 })) k.core k.w
        = some (putSlot (stepSlot s.cur k.wave k.x) k.x
            { slotOf (stepSlot s.cur k.wave k.x) k.x with ready := (coreOf s k.core).cycle + 1 }) := by
      rw [waveOf_onSlotOf, hu]; rfl
    refine ⟨_, _, onSlot_next s k _ hp.1, hw, by rw [slotOf_putSlot], ?_, ?_⟩
    · rw [slotOf_putSlot, ← plain_slot hp]
      exact (stepSlot_samePath s.cur k.wave k.x).1
    · exact controlFrame_of ((oneWave_onWave ..).trans (oneWave_onWave ..)) hw
        ((onlyDiv_of_path (stepSlot_onlyPath ..)).trans (onlyDiv_of_path (putSlot_onlyPath ..)))

/-! ## One group (R272, R274) -/

/-- Lanes that name one value form one group. -/
theorem foldl_insertGroup {f : Nat → Word} {a : Word} (ls : List Nat) (h : ∀ l ∈ ls, f l = a) : ∀ m : W32,
    ∃ m', ls.foldl (fun g l => insertGroup (f l) l g) [(a, m)] = [(a, m')] := by
  induction ls with
  | nil => exact fun m => ⟨m, rfl⟩
  | cons l ls ih =>
    intro m
    rw [List.forall_mem_cons] at h
    obtain ⟨m', hm⟩ := ih h.2 (m ||| laneBit l)
    exact ⟨m', by rw [List.foldl_cons, h.1, insertGroup, if_pos rfl, hm]⟩

theorem groupLanes_one {f : Nat → Word} {a : Word} {ls : List Nat} (hne : ls ≠ []) (h : ∀ l ∈ ls, f l = a) :
    ∃ m, groupLanes f ls = [(a, m)] := by
  obtain ⟨l, ls, rfl⟩ := List.exists_cons_of_ne_nil hne
  rw [List.forall_mem_cons] at h
  obtain ⟨m, hm⟩ := foldl_insertGroup ls h.2 (laneBit l)
  exact ⟨m, by rw [groupLanes, List.foldl_cons, h.1]; exact hm⟩

/-- The state with the link of a call in its link slot (R271). -/
def linked (s : State) (k : Ctx) (o : Opnd) : State :=
  match pairOf k o with
  | some n => writeRegs s k.core k.w k.x (pairWrites n (k.lanes.map (fun l => (l, blockAddr k.wave (k.slot.blk + 1)))))
  | none => s

theorem linked_cur (s : State) (k : Ctx) (o : Opnd) : (linked s k o).cur = s.cur := by
  unfold linked
  split
  · rw [writeRegs_onlyCores]
  · rfl

theorem targetBlock_congr {s t : State} (h : t.cur = s.cur) (o : Opnd) : targetBlock t o = targetBlock s o := by
  unfold targetBlock; rw [h]

section
variable {s : State} {k : Ctx} (hp : Plain s k)
include hp

theorem exec_call_plain (r : Record) : exec (.call r) s = .next (goTo (linked s k r.b) k (targetBlock s r.a)) := by
  rw [exec_call, execCall, onSlot_next s k _ hp.1, ← targetBlock_congr (linked_cur s k r.b)]
  rfl

theorem exec_calli_one {r : Record} {a : Word} (hne : k.lanes ≠ []) (ha : ∀ l ∈ k.lanes, opA s k r .b64 l = a) :
    ∃ m, exec (.calli r) s = .next (oneGroup (linked s k r.b) k (.calli r) (callTarget k.wave) (a, m)) := by
  obtain ⟨m, hm⟩ := groupLanes_one (f := fun l => opA s k r .b64 l) hne ha
  refine ⟨m, ?_⟩
  rw [exec_calli, execCalli, onSlot_next s k _ hp.1, hm]
  rfl

theorem exec_ret_one {r : Record} {a : Word} (hne : k.lanes ≠ []) (ha : ∀ l ∈ k.lanes, opA s k r .b64 l = a) :
    ∃ m, exec (.ret r) s = .next (oneGroup s k (.ret r) (linkTarget k.wave) (a, m)) := by
  obtain ⟨m, hm⟩ := groupLanes_one (f := fun l => opA s k r .b64 l) hne ha
  refine ⟨m, ?_⟩
  rw [exec_ret, execRet, onSlot_next s k _ hp.1, hm, afterCommit_plain hp]

/-- The link is written beside the wave: its slots stand. -/
theorem waveOf_linked (o : Opnd) : waveOf (linked s k o) k.core k.w
    = some (putSlot k.wave k.x (slotOf k.wave k.x)) ∨ waveOf (linked s k o) k.core k.w = some k.wave := by
  unfold linked
  split
  · left
    rw [waveOf_writeRegs, plain_wave hp, Option.map_some, logRegs, plain_car hp]
  · exact .inr (plain_wave hp)

theorem exists_wave_linked (o : Opnd) : ∃ u, waveOf (linked s k o) k.core k.w = some u ∧ slotOf u k.x = k.slot ∧ u.table = k.wave.table := by
  rcases waveOf_linked hp o with h | h
  · exact ⟨_, h, by rw [slotOf_putSlot, plain_slot hp], putSlot_table ..⟩
  · exact ⟨_, h, plain_slot hp, rfl⟩

/-- A call's slot stands at its target, and its link slot holds the link. -/
theorem goTo_linked (o : Opnd) (b : Nat) : ∃ v, waveOf (goTo (linked s k o) k b) k.core k.w = some v
    ∧ At v k.x b 0 k.slot.mask k.slot.jblk
    ∧ (∀ n, o = .keep n → ∀ l ∈ k.lanes,
        keepGet (coreOf (goTo (linked s k o) k b) k.core) k.wave n.toNat l = blockAddr k.wave (k.slot.blk + 1)) := by
  obtain ⟨u, hu, hs, -⟩ := exists_wave_linked hp o
  have hat := at_moveSlot u k.x b 0
  rw [hs] at hat
  refine ⟨_, by rw [goTo, waveOf_onWave, hu]; rfl, hat, ?_⟩
  rintro n rfl l hl
  have hlt : ∀ p ∈ k.lanes.map (fun l => (l, blockAddr k.wave (k.slot.blk + 1))), p.1 < 32 := by
    simpa using fun l hl => lane_lt hp.1 hl
  have hn : ((k.lanes.map (fun l => (l, blockAddr k.wave (k.slot.blk + 1)))).map (fun p => p.1)).Nodup := by
    simpa [Function.comp_def] using lanes_nodup hp.1
  obtain ⟨hlo, hhi⟩ := smGet_pairWrites (r := keepReg k.wave n.toNat) hn hlt (List.mem_map_of_mem hl) (coreOf s k.core).regs
  have hregs : (coreOf (goTo (linked s k (.keep n)) k b) k.core).regs = smSetAll 0 (coreOf s k.core).regs
      (pairWrites (keepReg k.wave n.toNat) (k.lanes.map (fun l => (l, blockAddr k.wave (k.slot.blk + 1))))) := by
    rw [goTo, onWave_regs]
    exact writeRegs_regs ..
  rw [keepGet, regGet, regGet, hregs, hlo, hhi, halves_append]

theorem waveOf_slotWaits_linked (o : Opnd) (st : SlotSt) (why : Wait) :
    ∃ v, waveOf (slotWaits (linked s k o) k.core k.w k.x st why) k.core k.w = some v ∧ (slotOf v k.x).st = st ∧ (slotOf v k.x).wait = why := by
  obtain ⟨u, hu, -⟩ := exists_wave_linked hp o
  exact ⟨_, by rw [slotWaits, waveOf_onSlotOf, hu]; rfl, by rw [slotOf_putSlot], by rw [slotOf_putSlot]⟩

end

theorem callsAndReturns : CallsAndReturns := by
  intro r s k hp
  refine ⟨?_, fun a b hne ha ht => ?_, fun a b hne ha ht => ?_, fun a hne ha hstub => ?_⟩
  · obtain ⟨v, hv, hat, hlink⟩ := goTo_linked hp r.b (targetBlock s r.a)
    exact ⟨_, v, exec_call_plain hp r, hv, hat, hlink⟩
  · obtain ⟨m, hm⟩ := exec_calli_one hp hne ha
    obtain ⟨v, hv, hat, hlink⟩ := goTo_linked hp r.b b
    exact ⟨_, v, hm.trans (by rw [oneGroup, ht]), hv, hat, hlink⟩
  · obtain ⟨m, hm⟩ := exec_ret_one hp hne ha
    obtain ⟨v, hv, hat, -, -, -, hf⟩ := goTo_plain hp b
    exact ⟨_, v, hm.trans (by rw [oneGroup, ht]), hv, hat, hf⟩
  · obtain ⟨m, hm⟩ := exec_calli_one hp hne ha
    have ht : callTarget k.wave a = .stub := if_pos hstub
    obtain ⟨v, hv, hst, hwait⟩ := waveOf_slotWaits_linked hp r.b .stalled (.bind a)
    exact ⟨_, v, hm.trans (by rw [oneGroup, ht]), hv, hst, hwait⟩

theorem stubBinds : StubBinds := by
  intro s q core slot b v h e hv hh hpk hw hr hb hq
  have hexec : exec (.stubBind core slot) s = .next (onWave q core (slot / 2) (fun v =>
      putSlot (moveSlot v (slot % 2) b 0) (slot % 2)
        { slotOf (moveSlot v (slot % 2) b 0) (slot % 2) with ready := (coreOf s core).cycle })) := by
    change execStubBind core slot s = _
    simp only [execStubBind, hv, hw, hh, hpk, hr, hb, Bool.false_or, Bool.false_eq_true, if_false]
  refine ⟨_, _, hexec, by rw [waveOf_onWave, hq]; rfl, ?_, ?_⟩
  · obtain ⟨hst, hblk, hrcd, hba, hm, hj⟩ := at_moveSlot v (slot % 2) b 0
    refine ⟨?_, ?_, ?_, ?_, ?_, ?_⟩ <;> rw [slotOf_putSlot]
    · exact hst
    · exact hblk
    · exact hrcd
    · rw [blockAddr_congr (putSlot_table ..)]; exact hba
    · exact hm
    · exact hj
  · rw [slotOf_putSlot]; simp [moveSlot]

/-- Settles O20: each record moves its slot as its rule says, and a bound stub goes to its entry's block. -/
theorem branchesAndCalls : Obligations.BranchesAndCalls := ⟨branchAndYield, callsAndReturns, stubBinds⟩

end Sys2Proof.Proofs.Calls
end

section
/-! SUPPORT. A fence at the port and a PFI change more of the state than their statements allow (R120, R102). -/

open Sys2Proof Sys2Proof.Machine Sys2Proof.Cert

namespace Sys2Proof.Proofs.Hints

/-- A next state of which a test does not hold. -/
theorem of_next_false {o : Host.Outcome State Fault Refusal} {f : State → Bool} (h : Tests.next o f = false) {t : State}
    (ht : o = .next t) : f t = false := by
  rw [ht] at h; exact h

/-- A fence that reaches the port while the wave has an access in flight takes a number there (R120). -/
theorem fence_takes_number : Tests.next (exec (.fence (Tests.rc .b32 12 .absent .absent .absent)) (Tests.flightState Tests.st1))
    (fun t => t.nextAcc = (Tests.flightState Tests.st1).nextAcc) = false := by decide +kernel

/-- Refutes O25: a fence that waits has taken a number at the port, so that the state differs outside the core's waves too; here
with a store of the wave in flight. -/
theorem not_fencePasses : ¬ Obligations.FencePasses := by
  intro h
  obtain ⟨hwait, -⟩ := h (.fence (Tests.rc .b32 12 .absent .absent .absent)) (Tests.rc .b32 12 .absent .absent .absent)
    (Tests.flightState Tests.st1) Tests.memCtx (.inl rfl) (by decide +kernel)
  obtain ⟨t, v, ht, -, -, -, hf⟩ := hwait (by decide +kernel)
  have hn : t.nextAcc = (Tests.flightState Tests.st1).nextAcc := by rw [hf.1]
  exact absurd hn (of_decide_eq_false (of_next_false fence_takes_number ht))

/-- A wave whose module's page has its A bit clear. -/
def unmarked : State := { Tests.trapState0 with tlb := Tests.pageAt 0 0x0200000000000071 0x8000 }

/-- PFI reads the module's header and so sets the A bit of its page in memory (R102). -/
theorem pfi_marks_page : Tests.next (exec (.pfi (Tests.rc .b32 0 (.lit 0) (.imm 64) .absent)) unmarked)
    (fun t => t.dmem = unmarked.dmem) = false := by decide +kernel

/-- Refutes O26: a PFI may change more than the requests of the lowering engine: the walk for the module's header sets the A bit
of its page. -/
theorem not_queriesAndHints : ¬ Obligations.QueriesAndHints := by
  rintro ⟨-, -, h⟩
  obtain ⟨-, q, ht, hq, -⟩ := h (Tests.rc .b32 0 (.lit 0) (.imm 64) .absent) unmarked
    Tests.trapCtx (by decide +kernel)
  have hm : (advance q Tests.trapCtx).dmem = unmarked.dmem := by rw [advance_onlyCores, hq]
  exact absurd hm (of_decide_eq_false (of_next_false pfi_marks_page ht))

end Sys2Proof.Proofs.Hints
end

section
/-! SUPPORT. Barriers, tags, rings and streams (R35, R125, R293, R304, R305). -/

open Sys2Proof Sys2Proof.Machine Sys2Proof.Cert
open Sys2Proof.Proofs.Compute Sys2Proof.Proofs.Frames Sys2Proof.Proofs.Values Sys2Proof.Proofs.Control Sys2Proof.Proofs.Paths

namespace Sys2Proof.Proofs.Sync

/-! ## Tags and rings (R304) -/

theorem exec_waitAny (r : Record) (s : State) : exec (.waitAny r) s = execWaitAny r s := rfl
theorem exec_waitAll (r : Record) (s : State) : exec (.waitAll r) s = execWaitAll r s := rfl
theorem exec_waitFirst (r : Record) (s : State) : exec (.waitFirst r) s = execWaitFirst r s := rfl
theorem exec_waitRing (r : Record) (s : State) : exec (.waitRing r) s = execWaitRing r s := rfl
theorem exec_tagsRead (r : Record) (s : State) : exec (.tagsRead r) s = execTagsRead r s := rfl
theorem exec_tagsClr (r : Record) (s : State) : exec (.tagsClr r) s = execTagsClr r s := rfl

/-- The lowest set bit is the one below which none is set. -/
theorem lowestBit_eq {m : Word} {i : Nat} (hi : m.getLsbD i = true) (h : ∀ j, j < i → m.getLsbD j = false) : lowestBit m = i := by
  have hlt : i < 64 := by
    refine Classical.byContradiction fun hge => ?_
    rw [BitVec.getLsbD_of_ge m i (by omega)] at hi
    exact absurd hi (by decide)
  have hfind : (List.range 64).find? (fun j => m.getLsbD j) = some i := by
    rw [List.find?_range_eq_some]
    exact ⟨hi, List.mem_range.mpr hlt, fun j hj => by simp [h j hj]⟩
  simp [lowestBit, hfind]

theorem tagRecords : TagRecords := by
  intro r s k hk m b gives
  have hne {i : Nat} (hi : b.getLsbD i = true) : b ≠ 0 := fun h0 => by rw [h0] at hi; simp at hi
  refine ⟨fun h => ?_, fun h => ?_, fun h => ?_, fun i hi hlow => ?_, ?_, ?_, fun h0 hm => ⟨?_, ?_⟩, fun h => ?_⟩
  · rw [exec_waitAny, execWaitAny, onSlot_next s k _ hk]
    exact congrArg _ (if_pos (by simpa using h))
  · rw [exec_waitAll, execWaitAll, onSlot_next s k _ hk]
    exact congrArg _ (if_pos h)
  · rw [exec_waitFirst, execWaitFirst, onSlot_next s k _ hk]
    exact congrArg _ (if_pos h)
  · have hm : m ≠ 0 := fun h0 => hne hi (by simp [b, h0])
    rw [exec_waitFirst, execWaitFirst, onSlot_next s k _ hk, ← lowestBit_eq hi hlow]
    exact congrArg _ ((if_neg hm).trans (if_pos (hne hi)))
  · exact onSlot_next s k _ hk
  · exact onSlot_next s k _ hk
  · rw [exec_waitAny, execWaitAny, onSlot_next s k _ hk]
    exact congrArg _ (if_neg (by simpa using ⟨h0, hm⟩))
  · rw [exec_waitFirst, execWaitFirst, onSlot_next s k _ hk]
    exact congrArg _ ((if_neg hm).trans (if_neg (Classical.not_not.mpr h0)))
  · rw [exec_waitAll, execWaitAll, onSlot_next s k _ hk]
    exact congrArg _ (if_neg h)

theorem ringWait : RingWait := by
  intro r s q k e hk h want head hres
  have hexec : exec (.waitRing r) s = .next (if ringHead e ≠ want then sameOp (acquireL1 q k.core .aq .sy) k r.ty (BitVec.ofNat 64 (ringHead e))
      else slotWaits q k.core k.w k.x .waiting (.ring e.l.idx want)) := by
    rw [exec_waitRing, execWaitRing, onSlot_next s k _ hk]
    dsimp only
    rw [hres]
  have hh : ringHead e = head := rfl
  rw [hexec, hh]
  exact ⟨fun hne => congrArg _ (if_pos hne), fun heq => congrArg _ (if_neg (Classical.not_not.mpr heq))⟩

/-- Settles O29: each record's condition, its value, and the wait where the condition does not hold. -/
theorem tagsAndRings : Obligations.TagsAndRings := ⟨tagRecords, ringWait⟩

/-! ## Streams (R305) -/

theorem exec_spop (r : Record) (s : State) : exec (.spop r) s = execSpop r s := rfl
theorem exec_srel (r : Record) (s : State) : exec (.srel r) s = execSrel r s := rfl

theorem streamOf_imm {a : BitVec 13} (h : a.toNat < 8) : streamOf (.imm a) = a.toNat := Nat.mod_eq_of_lt h

/-- With nothing of its slot open, a release takes effect. -/
theorem afterRelease_open {s : State} {k : Ctx} (h : openBelow s k (portBound s k) = false) (f : State) : afterRelease s k f = f := by
  simp [afterRelease, h]

/-- Settles O30: the FULL slot is taken, the oldest TAKEN one freed, an unbound stream refused. -/
theorem streamRecords : Obligations.StreamRecords := by
  intro r s k a t hk hr ha
  have hn : streamOf r.a = a.toNat := hr ▸ streamOf_imm ha
  have hspop : exec (.spop r) s = .next (match streamAt (coreOf s k.core) a.toNat with
      | none => trapState s k (.spop r) causeStreamUnbound (BitVec.ofNat 64 a.toNat)
      | some t =>
        match popSlot t with
        | some (t', a') => sameOp (acquireL1 (onCore s k.core (fun q => putStream q a.toNat (some t'))) k.core .aq .dv) k r.ty a'
        | none => slotWaits s k.core k.w k.x .waiting (.stream a.toNat)) := by
    rw [exec_spop, execSpop, onSlot_next s k _ hk, hn] <;> rfl
  refine ⟨fun ht hf => ?_, fun ht hf => ?_, fun ht ho => ⟨?_, fun i hi => ?_⟩, fun ht => ?_⟩
  · rw [hspop, ht]
    simp only [popSlot, if_pos hf] <;> rfl
  · rw [hspop, ht]
    simp only [popSlot, if_neg hf]
  · rw [exec_srel, execSrel, onSlot_next s k _ hk, hn]
    simp only [ht, afterRelease_open ho]
  · simp only [releaseSlot, hi]
  · rw [hspop, ht]

/-! ## Barriers (R35, R293) -/

theorem exec_barWait (r : Record) (s : State) : exec (.barWait r) s = barrierRecord (.barWait r) r s true := rfl
theorem exec_barArrive (r : Record) (s : State) : exec (.barArrive r) s = barrierRecord (.barArrive r) r s false := rfl
theorem exec_bexp (r : Record) (s : State) : exec (.bexp r) s = execBexp r s := rfl

@[simp] theorem groupOf_putGroup (k : Core) (e : Nat) (g : Group) : groupOf (putGroup k e g) e = g := smGet_smSet_same ..

/-- The slot of a wave that waited on a phase that has completed. -/
def wake (cyc e : Nat) (ph : Bool) (t : Slot) : Slot :=
  if t.wait = .barrier e ph then { t with st := .eligible, wait := .none, ready := cyc } else t

theorem smGet_wakePhase (k : Core) (e : Nat) (ph : Bool) (w : Nat) : smGet none (wakePhase k e ph).waves w
    = (smGet none k.waves w).map (fun v => { v with slot0 := wake k.cycle e ph v.slot0, slot1 := wake k.cycle e ph v.slot1 }) :=
  smGet_map none none (Option.map _) rfl k.waves w

@[simp] theorem groupOf_wakePhase (k : Core) (e f : Nat) (ph : Bool) : groupOf (wakePhase k e ph) f = groupOf k f := rfl

/-- A phase that cannot complete yet stands. -/
theorem groupSettle_open {k : Core} {e : Nat}
    (h : ¬ ((groupOf k e).arrived = (groupOf k e).expect ∧ 0 < (groupOf k e).expect ∧ (groupOf k e).pending = 0)) :
    groupSettle k e = k := by
  simp only [groupSettle, groupTry]
  rw [if_neg (by simpa [and_assoc] using h)]

/-- The group of an entry once its phase has completed. -/
def nextPhase (g : Group) : Group :=
  { g with phase := !g.phase, arrived := 0, amask := 0, expect := groupExpect g, held := [], tmeet := false }

/-- A phase that completes with no arrival held. -/
theorem groupSettle_complete {k : Core} {e : Nat} {g : Group} (hg : groupOf k e = g) (ha : g.arrived = g.expect) (h0 : 0 < g.expect)
    (hp : g.pending = 0) (hh : g.held = []) : groupSettle k e = wakePhase (putGroup k e (nextPhase g)) e g.phase := by
  have hopen : ¬ ((groupOf (wakePhase (putGroup k e (nextPhase g)) e g.phase) e).arrived
      = (groupOf (wakePhase (putGroup k e (nextPhase g)) e g.phase) e).expect
      ∧ 0 < (groupOf (wakePhase (putGroup k e (nextPhase g)) e g.phase) e).expect
      ∧ (groupOf (wakePhase (putGroup k e (nextPhase g)) e g.phase) e).pending = 0) := by
    rintro ⟨he, hpos, -⟩
    rw [groupOf_wakePhase, groupOf_putGroup] at he hpos
    rw [← he] at hpos
    exact absurd hpos (Nat.lt_irrefl 0)
  have hdone : groupTry 39 (wakePhase (putGroup k e (nextPhase g)) e g.phase) e = wakePhase (putGroup k e (nextPhase g)) e g.phase := by
    simp only [groupTry]
    rw [if_neg (by simpa [and_assoc] using hopen)]
  have hfirst : groupSettle k e = groupTry 39 (wakePhase (putGroup k e (nextPhase g)) e g.phase) e := by
    rw [groupSettle, groupTry]
    simp only [hg]
    rw [if_pos (by simp [ha, h0, hp]), hh]
    rfl
  rw [hfirst, hdone]

/-- A wave stands in a wave slot. -/
def Present (w : Nat) (k : Core) : Prop := ∃ v, smGet none k.waves w = some v

theorem present_wakePhase {w : Nat} {k : Core} (h : Present w k) (e : Nat) (ph : Bool) : Present w (wakePhase k e ph) := by
  obtain ⟨v, hv⟩ := h
  exact ⟨_, by rw [smGet_wakePhase, hv]; rfl⟩

theorem present_putWave {w : Nat} {k : Core} (h : Present w k) (u : Nat) (v : Wave) : Present w (putWave k u (some v)) := by
  unfold Present putWave
  by_cases hu : w = u
  · subst hu; exact ⟨v, smGet_smSet_same ..⟩
  · obtain ⟨n, hn⟩ := h
    exact ⟨n, by rw [smGet_smSet_other _ _ _ _ _ hu, hn]⟩

theorem present_of_waves {w : Nat} {k q : Core} (h : Present w k) (hw : q.waves = k.waves) : Present w q := by
  unfold Present at *; rw [hw]; exact h

theorem present_putGroup {w : Nat} {k : Core} (h : Present w k) (e : Nat) (g : Group) : Present w (putGroup k e g) := h

theorem present_countHeld {w : Nat} {k : Core} (h : Present w k) (e : Nat) (a : Arrival) : Present w (countHeld k e a) := by
  simp only [countHeld]
  split
  · cases a with
    | wave u x wait replay =>
      dsimp only
      split
      · exact present_putWave (present_of_waves h rfl) ..
      · exact h
    | tender i => exact present_of_waves h (onTenderAt_waves ..)
  · exact present_of_waves h rfl

theorem present_foldl_countHeld {w : Nat} (e : Nat) (as : List Arrival) :
    ∀ {k : Core}, Present w k → Present w (as.foldl (fun k a => countHeld k e a) k) := by
  induction as with
  | nil => exact id
  | cons a as ih => intro k h; exact ih (present_countHeld h e a)

theorem present_groupTry {w : Nat} (n : Nat) : ∀ {k : Core}, Present w k → ∀ e, Present w (groupTry n k e) := by
  induction n with
  | zero => exact fun h _ => h
  | succ n ih =>
    intro k h e
    simp only [groupTry]
    split
    · exact ih (present_foldl_countHeld e _ (present_wakePhase (present_putGroup h e _) e _)) e
    · exact h

theorem oneWave_slotWaits (s : State) (c w x : Nat) (st : SlotSt) (why : Wait) : OneWave c w s (slotWaits s c w x st why) :=
  oneWave_onWave ..

theorem groupOf_oneWave {c w : Nat} {s t : State} (h : OneWave c w s t) (e : Nat) :
    groupOf (coreOf t c) e = groupOf (coreOf s c) e := by
  obtain ⟨waves, hw⟩ := h.parts
  rw [hw]; rfl

/-- A counted arrival before its phase is looked at (R35). -/
def counted (s : State) (k : Ctx) (e : Nat) (wait : Bool) (g : Group) : State :=
  let s := advance (onCore s k.core (fun q => putGroup q e g)) k
  if wait then slotWaits s k.core k.w k.x .waiting (.barrier e g.phase) else s

theorem groupOf_counted (s : State) (k : Ctx) (e : Nat) (wait : Bool) (g : Group) :
    groupOf (coreOf (counted s k e wait g) k.core) e = g := by
  have hg : groupOf (coreOf (advance (onCore s k.core (fun q => putGroup q e g)) k) k.core) e = g := by
    rw [groupOf_oneWave (oneWave_advance ..), coreOf_onCore, groupOf_putGroup]
  unfold counted
  split
  · rw [groupOf_oneWave (oneWave_slotWaits ..), hg]
  · exact hg

section
variable {s : State} {k : Ctx} (hk : ctxOf s = some k)
include hk

theorem waveOf_advance_putGroup (e : Nat) (g : Group) :
    ∃ u, waveOf (advance (onCore s k.core (fun q => putGroup q e g)) k) k.core k.w = some u := by
  obtain ⟨-, hv, -⟩ := ctxOf_spec s k hk
  rw [waveOf_advance, waveOf_onCore _ _ _ _ rfl, hv]
  exact ⟨_, rfl⟩

/-- The wave of a counted arrival: waiting on the phase, where it waits. -/
theorem waveOf_counted (e : Nat) (wait : Bool) (g : Group) : ∃ u, waveOf (counted s k e wait g) k.core k.w = some u
    ∧ (wait = true → (slotOf u k.x).st = .waiting ∧ (slotOf u k.x).wait = .barrier e g.phase) := by
  obtain ⟨u, hu⟩ := waveOf_advance_putGroup hk e g
  cases wait with
  | false => exact ⟨u, hu, fun h => absurd h Bool.false_ne_true⟩
  | true =>
    refine ⟨_, by rw [counted, if_pos rfl, slotWaits, waveOf_onSlotOf, hu]; rfl, fun _ => ?_⟩
    rw [slotOf_putSlot]
    exact ⟨rfl, rfl⟩

end

theorem slotOf_wake (v : Wave) (x cyc e : Nat) (ph : Bool) :
    slotOf { v with slot0 := wake cyc e ph v.slot0, slot1 := wake cyc e ph v.slot1 } x = wake cyc e ph (slotOf v x) := by
  unfold slotOf; split <;> rfl

theorem waveOf_onCore_self (s : State) (c w : Nat) (f : Core → Core) : waveOf (onCore s c f) c w = smGet none (f (coreOf s c)).waves w := by
  simp [waveOf]

/-- A member's arrival that is counted (R35). -/
theorem barrierRecord_next {i : Instr} {r : Record} {wait : Bool} {s : State} {k : Ctx} (hk : ctxOf s = some k)
    (hm : (groupOf (coreOf s k.core) (groupEntryOf k r.a)).members.getLsbD k.wave.waveIdx = true)
    (ho : openBelow s k (portBound s k) = false)
    (hlt : (groupOf (coreOf s k.core) (groupEntryOf k r.a)).arrived < (groupOf (coreOf s k.core) (groupEntryOf k r.a)).expect) :
    barrierRecord i r s wait = .next (onCore (counted s k (groupEntryOf k r.a) wait
      { groupOf (coreOf s k.core) (groupEntryOf k r.a) with
        arrived := (groupOf (coreOf s k.core) (groupEntryOf k r.a)).arrived + 1,
        amask := (groupOf (coreOf s k.core) (groupEntryOf k r.a)).amask ||| BitVec.ofNat 16 (2 ^ k.wave.waveIdx) })
      k.core (fun q => groupSettle q (groupEntryOf k r.a))) := by
  rw [barrierRecord, onSlot_next s k _ hk]
  simp only [hm, Bool.not_true, Bool.false_eq_true, if_false, afterRelease_open ho, arrive, if_pos hlt]
  rfl

theorem barrierArrivals : BarrierArrivals := by
  intro i r wait s k hi hk _ e g hm ho hlt
  have hexec : exec i s = barrierRecord i r s wait := by
    rcases hi with ⟨rfl, rfl⟩ | ⟨rfl, rfl⟩ <;> rfl
  let g1 : Group := { g with arrived := g.arrived + 1, amask := g.amask ||| BitVec.ofNat 16 (2 ^ k.wave.waveIdx) }
  let t1 := counted s k e wait g1
  have hg1 : groupOf (coreOf t1 k.core) e = g1 := groupOf_counted s k e wait g1
  obtain ⟨u, hu, hwait⟩ := waveOf_counted hk e wait g1
  have hnext : exec i s = .next (onCore t1 k.core (fun q => groupSettle q e)) := hexec.trans (barrierRecord_next hk hm ho hlt)
  by_cases hdone : g.arrived + 1 = g.expect ∧ g.pending = 0
  · obtain ⟨ha, hp⟩ := hdone
    by_cases hheld : g.held = []
    · have hset := groupSettle_complete hg1 ha (show 0 < g.expect by omega) hp hheld
      refine ⟨_, _, hnext, by rw [waveOf_onCore_self, hset, smGet_wakePhase]; exact congrArg (Option.map _) hu, fun h => ?_, fun _ _ _ => ?_⟩
      · exact absurd h (by simp [ha, hp])
      · rw [coreOf_onCore, hset, groupOf_wakePhase, groupOf_putGroup]
        refine ⟨rfl, rfl, fun hw => ?_⟩
        rw [slotOf_wake, wake, if_pos (hwait hw).2]
    · have hpre : Present k.w (groupSettle (coreOf t1 k.core) e) := present_groupTry 40 ⟨u, hu⟩ e
      obtain ⟨v, hv⟩ := hpre
      exact ⟨_, v, hnext, by rw [waveOf_onCore_self, hv], fun h => absurd h (by simp [ha, hp]), fun _ _ h => absurd h hheld⟩
  · have hset : groupSettle (coreOf t1 k.core) e = coreOf t1 k.core := groupSettle_open (by
      rw [hg1]
      exact fun ⟨ha, _, hp⟩ => hdone ⟨ha, hp⟩)
    refine ⟨_, u, hnext, by rw [waveOf_onCore_self, hset]; exact hu, fun _ => ?_, fun ha hp _ => absurd ⟨ha, hp⟩ hdone⟩
    rw [coreOf_onCore, hset]
    exact ⟨hg1, hwait⟩

theorem barrierExpects : BarrierExpects := by
  intro r s k hk e g n hle hne
  have hc : g.credit - min n g.credit = g.credit - n := by omega
  have hn : n - min n g.credit = n - g.credit := by omega
  have hset : groupSettle (putGroup (coreOf s k.core) e { g with credit := g.credit - n, pending := g.pending + (n - g.credit) }) e
      = putGroup (coreOf s k.core) e { g with credit := g.credit - n, pending := g.pending + (n - g.credit) } :=
    groupSettle_open (by rw [groupOf_putGroup]; exact fun h => hne h.1)
  have hcore : onCore s k.core (fun q => groupSettle (putGroup q e
        { g with credit := g.credit - n, pending := g.pending + (n - g.credit) }) e)
      = onCore s k.core (fun q => putGroup q e { g with credit := g.credit - n, pending := g.pending + (n - g.credit) }) :=
    congrArg (setCore s k.core) hset
  rw [exec_bexp, execBexp, onSlot_next s k _ hk, ← hcore]
  simp only [hc, hn, show ¬ 0xFFFFFF < g.pending + (n - g.credit) by omega, if_false,
    show groupOf (coreOf s k.core) (groupEntryOf k r.a) = g from rfl, show (opB s k r .n32 k.low).toNat = n from rfl]
  rfl

/-- Settles O28: arrivals are counted and complete their phase; expectations take CREDIT first. -/
theorem barriers : Obligations.Barriers := ⟨barrierArrivals, barrierExpects⟩

end Sys2Proof.Proofs.Sync
end

section
/-! SUPPORT. SPAWN.task and the records it forms (R37, R38, R294). -/

open Sys2Proof Sys2Proof.Machine Sys2Proof.Cert
open Sys2Proof.Proofs.Compute Sys2Proof.Proofs.Frames Sys2Proof.Proofs.Values Sys2Proof.Proofs.Control Sys2Proof.Proofs.Sync

namespace Sys2Proof.Proofs.Tasks

theorem exec_spawnTask (r : Record) (s : State) : exec (.spawnTask r) s = execSpawnTask r s := rfl

@[simp] theorem advance_stage' (s : State) (k : Ctx) (c : Nat) : (coreOf (advance s k) c).stage = (coreOf s c).stage := by
  by_cases hc : c = k.core
  · subst hc
    obtain ⟨waves, hw⟩ := (oneWave_advance s k).parts
    rw [hw]
  · rw [(oneWave_advance s k).core c hc]

/-- A core without a deque hands every record to the binning stage. -/
theorem pushLanes_noDeque (c : Nat) (ts : List (Nat × TaskRec)) : ∀ s : State, (coreOf s c).dqbase = (coreOf s c).dqlim →
    ∃ q, pushLanes s c ts = (q, []) ∧ (coreOf q c).stage = (coreOf s c).stage ++ ts.map (fun p => p.2) ∧ OnlyCores s q := by
  induction ts with
  | nil => exact fun s _ => ⟨s, rfl, by simp, OnlyCores.refl s⟩
  | cons p ts ih =>
    intro s hd
    have hb : bypasses (coreOf s c) p.2 = true := by simp [bypasses, hd]
    obtain ⟨q, hq, hstage, hcores⟩ := ih (pushStage s c p.2) (by simpa [pushStage] using hd)
    refine ⟨q, by rw [pushLanes, if_pos hb, hq], ?_, (onCore_onlyCores ..).trans hcores⟩
    rw [hstage]
    simp [pushStage]

/-- Settles O31: the records of the lanes, and where they go. -/
theorem taskSpawns : Obligations.TaskSpawns := by
  intro r s k hk
  obtain ⟨-, -, hs, -⟩ := ctxOf_spec s k hk
  have hmap : (k.lanes.map (fun l => (l, spawnRecord s k r l))).map (fun p => p.2) = k.lanes.map (spawnRecord s k r) := by
    simp [Function.comp_def]
  have hout (hc : k.slot.car = none) (ho : openBelow s k (portBound s k) = false) : exec (.spawnTask r) s
      = .next (if (pushLanes s k.core (k.lanes.map (fun l => (l, spawnRecord s k r l)))).2 = []
          then advance (pushLanes s k.core (k.lanes.map (fun l => (l, spawnRecord s k r l)))).1 k
          else waitDeque (pushLanes s k.core (k.lanes.map (fun l => (l, spawnRecord s k r l)))).1 k (.spawnTask r)
            (pushLanes s k.core (k.lanes.map (fun l => (l, spawnRecord s k r l)))).2) := by
    rw [exec_spawnTask, execSpawnTask, onSlot_next s k _ hk]
    simp only [← hs, hc, Option.isSome_none, Bool.false_eq_true, if_false, afterRelease_open ho]
  refine ⟨fun hc => ?_, fun hc ho hd => ?_, fun q hc ho hq => ?_, fun c l t ls hb hr => ?_, fun l => ⟨rfl, rfl, rfl, rfl, rfl⟩⟩
  · rw [exec_spawnTask, execSpawnTask, onSlot_next s k _ hk]
    simp only [← hs, hc, if_true, hmap]
  · obtain ⟨q, hq, hstage, hcores⟩ := pushLanes_noDeque k.core (k.lanes.map (fun l => (l, spawnRecord s k r l))) s hd
    refine ⟨advance q k, by rw [hout hc ho, hq]; rfl, ?_, hcores.trans (advance_onlyCores q k)⟩
    rw [advance_stage', hstage, hmap]
  · rw [hout hc ho, hq]; rfl
  · rw [pushLanes, hb, if_neg Bool.false_ne_true, if_pos hr]

end Sys2Proof.Proofs.Tasks
end

section
/-! SUPPORT. Cell commits of two lanes whose pages share a page-table entry (R101, R196, R291). -/

open Sys2Proof Sys2Proof.Machine Sys2Proof.Cert
open Sys2Proof.Proofs.Hints

namespace Sys2Proof.Proofs.Commits

/-- CELL.tag of the cells whose addresses stand in keep slot 0. -/
def aliasRecord : Record := Tests.rc .b64 0 (.keep 0) .absent .absent

/-- Lanes 30 and 31 in a carriage. -/
def aliasSlot : Slot := { Tests.at' 0 0 0xC0000000 0xFFFF with car := some (newCarriage 0 0 0x100040 0xC0000000) }

/-- An evaluator wave whose two lanes have their cells on pages 1 and 2. -/
def aliasWave : Wave :=
  { Tests.wave2 aliasSlot Slot.reset [] with
    kind := .evaluator, evals := [(30, ⟨0x1408, 0x408, 0, 7, 1, [0x1408]⟩), (31, ⟨0x2408, 0x408, 0, 7, 1, [0x2408]⟩)] }

/-- A Sinter entry built from page 2. -/
def aliasEntry : SEntry := { Tests.markedEntry with pages := [0x2000], marker := none }

/-- Pages 1 and 2 are translated by the one entry at 0x8000, which shows TR. -/
def aliasState : State :=
  { Tests.withMem (Tests.put aliasWave
      { Core.reset with regs := smSetAll 0 [] (pairWrites (keepReg aliasWave 0) [(30, 0x1408), (31, 0x2408)]) }
      { Tests.issue0 with lanes := 0xC0000000 }) with
    tlb := Tests.pageAt 1 0x0E000000000001F1 0x8000 ++ Tests.pageAt 2 0x0E000000000001F1 0x8000,
    dies := [{ Die.reset 1000 with sinter := [aliasEntry] }, Die.reset 4000, Die.reset 4000, Die.reset 4000] }

def aliasCtx : Ctx := Tests.ctx aliasWave { Tests.issue0 with lanes := 0xC0000000 }

/-- What the two lanes ask for. -/
def aliasReqs : List Req :=
  aliasCtx.lanes.map (fun l => ⟨l, .store, .write, opA aliasState aliasCtx aliasRecord .b64 l, 8, .rx, .dv, 0, 0, none⟩)

/-- Their checks before either is marked. -/
def aliasChecks : List Checked := Tests.checkedOf aliasState aliasCtx (.cellTag aliasRecord) aliasReqs

/-- The state with every lane's page marked as it was checked at first. -/
def aliasMarked : State := aliasChecks.foldl (fun t x => markChecked t aliasCtx.wave.part .write x) aliasState

theorem alias_passes : Tests.passes aliasState aliasState aliasCtx (.cellTag aliasRecord) aliasReqs aliasChecks = true := by
  decide +kernel

/-- The first lane's mark clears TR, so the second lane's breaks nothing, and the entry of page 2 stays. -/
theorem alias_keeps_entry : Tests.next (exec (.cellTag aliasRecord) aliasState) (fun t => t.dies = aliasMarked.dies) = false := by
  decide +kernel

/-- A test of all checks is the statement that every access passes. -/
theorem allPass_of_passes {s q : State} {k : Ctx} {i : Instr} {reqs : List Req} {xs : List Checked}
    (h : Tests.passes s q k i reqs xs = true) : AllPass s q k i reqs xs := by
  simp only [Tests.passes, Bool.and_eq_true, decide_eq_true_eq, List.all_eq_true] at h
  obtain ⟨⟨hpark, hlen⟩, hall⟩ := h
  refine ⟨hpark, hlen, fun p hp => ?_⟩
  have := hall p hp
  split at this
  next x hx => rw [hx, of_decide_eq_true this]
  next => exact absurd this Bool.false_ne_true

/-- Refutes O27: where the pages of two lanes share a page-table entry that shows TR, the first lane's mark clears it and the
second breaks nothing more; marking each lane by its check before the record breaks the second page too. -/
theorem not_commitsOfCarriages : ¬ Obligations.CommitsOfCarriages := by
  rintro ⟨h, -⟩
  have heq := h (.cellTag aliasRecord) aliasRecord aliasState aliasCtx (fun _ => .tag) aliasChecks
    (newCarriage 0 0 0x100040 0xC0000000) (.inr ⟨rfl, fun _ => rfl⟩) (by decide +kernel) (by decide +kernel)
    (allPass_of_passes alias_passes) (by decide +kernel) (by decide +kernel)
  have hdies := of_decide_eq_false (of_next_false alias_keeps_entry heq)
  refine hdies ?_
  rw [advance_onlyCores, onSlotOf_onlyCores]
  rfl

end Sys2Proof.Proofs.Commits
end

section
/-! SUPPORT. The dray engine: commands at issue, their tags, their steps (R99, R125, R281, R296 to R302). -/

open Sys2Proof Sys2Proof.Machine Sys2Proof.Cert
open Sys2Proof.Proofs.Compute Sys2Proof.Proofs.Frames Sys2Proof.Proofs.Values Sys2Proof.Proofs.Paths Sys2Proof.Proofs.Sync Sys2Proof.Proofs.Hints

namespace Sys2Proof.Proofs.Engine

/-! ## Commands at issue (R281) -/

theorem exec_copy (r : Record) (s : State) : exec (.copy r) s = execCopy r s := rfl

/-- Commands none of which failed its checks are a list of commands. -/
theorem eq_map_ok (es : List (Except Fail Cmd)) (h : es.all (fun e => e.isOk) = true) :
    es = (es.filterMap (fun e => e.toOption)).map .ok := by
  induction es with
  | nil => rfl
  | cons e es ih =>
    obtain ⟨he, hes⟩ := Bool.and_eq_true_iff.mp (List.all_cons.symm.trans h)
    cases e with
    | error f => exact absurd he Bool.false_ne_true
    | ok c => exact congrArg (Except.ok c :: ·) (ih hes)

/-- COPY of 16 bytes out to the shadow of entry 5. -/
def shadowCopy : Record := Tests.rec3 1

/-- The resource table stands in a page whose A bit is clear; OLDREF of entry 5 is 1. -/
def shadowState : State :=
  { Tests.engState [0x501, 0x0000001000000000, 63] with tlb := Tests.pageAt 0 0x0200000000000071 0x8000 }

/-- The commands of the lanes that ask, and the state after their checks. -/
def shadowFormed : State × List (Except Fail Cmd) :=
  formAll (copyCmd shadowCopy) Tests.ctx0 shadowState (commandLanes shadowState Tests.ctx0 shadowCopy).1

def shadowCmds : List Cmd := shadowFormed.2.filterMap (fun e => e.toOption)

theorem shadowFormed_eq : shadowFormed = (shadowFormed.1, shadowCmds.map .ok) :=
  Prod.ext rfl (eq_map_ok _ (by decide +kernel))

/-- The checks read the table and so set the A bit of its page in memory (R102). -/
theorem shadowFormed_marks : shadowFormed.1.dmem ≠ shadowState.dmem := by decide +kernel

/-- A record that waits at issue leaves memory as it was, its checks discarded. -/
theorem shadowCopy_discards : Tests.next (exec (.copy shadowCopy) shadowState) (fun t => t.dmem ≠ shadowState.dmem) = false := by
  decide +kernel

/-- Refutes O33: a record that waits at issue for a shadow has made none of the marks of its checks, where the statement keeps
them; here the A bit of the resource table's page. -/
theorem not_engineCommands : ¬ Obligations.EngineCommands := by
  rintro ⟨h, -⟩
  obtain ⟨-, hwait, -⟩ := h (.copy shadowCopy) shadowCopy (copyCmd shadowCopy) shadowState shadowFormed.1 Tests.ctx0 shadowCmds
    (.inr (.inl ⟨rfl, rfl⟩)) (by decide +kernel) shadowFormed_eq
  have heq := hwait 5 (by decide +kernel) (by decide +kernel)
  refine absurd ?_ (of_decide_eq_false (of_next_false shadowCopy_discards heq))
  rw [slotWaits_onlyCores]
  exact shadowFormed_marks

/-! ## Steps of the engine (R298, R300, R302) -/

/-- The state as the engine of a core sees it. -/
def engineView (s : State) (c : Nat) : State := { s with cur := { s.cur with who := .engine c } }

theorem asEngine_eq (s : State) (c : Nat) (f : State → State) : asEngine s c f = { f (engineView s c) with cur := s.cur } := rfl

theorem liveCmd_of {s : State} {core id : Nat} {q : Cmd} (hc : cmdOf s core id = some q) (hr : partRuns s q.part = true) :
    liveCmd (engineView s core) core id = some q := by
  have hc' : cmdOf (engineView s core) core id = some q := hc
  have hr' : partRuns (engineView s core) q.part = true := hr
  simp [liveCmd, hc', hr']

theorem exec_engineComplete (core id : Nat) (d : Damage) (s : State) : exec (.engineComplete core id d) s = execEngineComplete core id d s := rfl
theorem exec_publish (core id : Nat) (s : State) : exec (.publish core id) s = execPublish core id s := rfl
theorem exec_shadowWriteIssue (core slot : Nat) (s : State) : exec (.shadowWriteIssue core slot) s = execShadowWriteIssue core slot s := rfl

/-- A command all of whose bytes have moved moves none. -/
theorem moveWords_done {q : Cmd} (h : q.len ≤ q.moved) (c n : Nat) (s : State) : moveWords c n s q = (s, q) := by
  cases n with
  | zero => rfl
  | succ n => rw [moveWords, if_pos h]

theorem engineCompletes : EngineCompletes := by
  intro s core id q hc hr
  have hlive := liveCmd_of hc hr
  refine ⟨fun hst => ?_, fun hst hm hp hs => ?_, fun hst hm hp => ?_⟩
  · simp only [exec_engineComplete, execEngineComplete, asEngine_eq, hlive, hst]
  · simp only [exec_engineComplete, execEngineComplete, asEngine_eq, hlive, hst, show ¬ q.moved < q.len by omega, if_false,
      moveWords_done hm, hp, hs]
    rfl
  · simp only [exec_engineComplete, execEngineComplete, asEngine_eq, hlive, hst, show ¬ q.moved < q.len by omega, if_false,
      moveWords_done hm, hp]
    rfl

/-- A SEND takes the FREE slot at the write index: its core's stream shows the slot reserved. -/
theorem streamAt_takeSlot {s : State} {c : Nat} {q : Cmd} {t : Stream} (hw : t.waiting = [])
    (hf : t.slots.getD t.widx .full = .free) (hc : c ≠ q.dstCore) :
    streamAt (coreOf (takeSlot s c q t) q.dstCore) q.stream
      = some { t with slots := setAt t.slots t.widx .reserved, widx := nextSlot t t.widx, waiting := [] } := by
  simp only [takeSlot, hw, hf, List.headD_nil, List.filter_nil, decide_true, Bool.and_self, if_true]
  simp only [putCmd, putStream, streamAt, coreOf_onCore_other _ _ _ _ (Ne.symm hc), coreOf_onCore, smGet_smSet_same]

/-- Outside the wait for a slot a SEND that arrives is bound to the barrier of its destination (R296). -/
def boundCmd (s : State) (q : Cmd) : Cmd := { q with owner := (groupOf (coreOf s q.dstCore) q.bent).owner }

/-- What a SEND that arrives does, bound or waiting. -/
def sendStep (s : State) (core : Nat) (k : Core) (q : Cmd) : State :=
  if q.kind = .send then
    if roleSize k 0 < q.dstOff + q.len then refuseSend s core q causeSpaceBad
    else putCmd s core { q with stage := .moving }
  else
    match streamAt k q.stream with
    | none => refuseSend s core q causeStreamUnbound
    | some t => if t.slotsz < q.len then refuseSend s core q causeSpaceBad else takeSlot s core q t

/-- A SEND waits for a slot of its stream. -/
def sendHeld (s : State) (core id : Nat) (q : Cmd) : Bool :=
  match streamAt (coreOf s q.dstCore) q.stream with
  | some t => q.kind = .sendStrm && t.waiting.contains (core, id)
  | none => false

/-- SEND_ARRIVE of a command, where it still travels. -/
def sendArrival (core id : Nat) (s : State) : State :=
  match liveCmd s core id with
  | none => s
  | some q => if q.stage ≠ .travel then s else sendStep s core (coreOf s q.dstCore) (if sendHeld s core id q then q else boundCmd s q)

theorem exec_sendArrive (core id : Nat) (s : State) : exec (.sendArrive core id) s = .next (asEngine s core (sendArrival core id)) := rfl

/-- A SEND that travels arrives. -/
theorem sendArrival_travel {s : State} {core id : Nat} {q : Cmd} (hlive : liveCmd s core id = some q) (hst : q.stage = .travel) :
    sendArrival core id s = sendStep s core (coreOf s q.dstCore) (if sendHeld s core id q then q else boundCmd s q) := by
  rw [sendArrival, hlive]
  exact if_neg (not_not_intro hst)

/-- A SEND that does not wait for a slot yet arrives. -/
theorem exec_sendArrive_bound {s : State} {core id : Nat} {q : Cmd} (hlive : liveCmd (engineView s core) core id = some q)
    (hst : q.stage = .travel)
    (hheld : ∀ t, streamAt (coreOf (engineView s core) q.dstCore) q.stream = some t → q.kind = .send ∨ t.waiting = []) :
    exec (.sendArrive core id) s = .next (asEngine s core (fun s => sendStep s core (coreOf s q.dstCore) (boundCmd s q))) := by
  have hno : sendHeld (engineView s core) core id q = false := by
    unfold sendHeld
    split
    · next t hat => rcases hheld t hat with h | h <;> simp [h]
    · rfl
  rw [exec_sendArrive, asEngine_eq, asEngine_eq, sendArrival_travel hlive hst, hno]
  rfl

theorem sendArrives : SendArrives := by
  intro s core id q hc hr hst
  have hlive := liveCmd_of hc hr
  refine ⟨fun hk hle => ?_, fun hk hn => ?_, fun t hk ht hlen hw hf => ?_⟩
  · rw [exec_sendArrive_bound hlive hst (fun t _ => .inl hk), asEngine_eq]
    exact congrArg (fun x : State => Host.Outcome.next { x with cur := s.cur })
      ((if_pos (c := (boundCmd (engineView s core) q).kind = .send) hk).trans (if_neg (Nat.not_lt.mpr hle)))
  · have hn' : streamAt (coreOf (engineView s core) q.dstCore) q.stream = none := hn
    have hstep : sendStep (engineView s core) core (coreOf (engineView s core) q.dstCore) (boundCmd (engineView s core) q)
        = refuseSend (engineView s core) core (boundCmd (engineView s core) q) causeStreamUnbound := by
      simp [sendStep, boundCmd, hk, hn']
    rw [exec_sendArrive_bound hlive hst (by rw [hn']; exact nofun), asEngine_eq, hstep]
    rfl
  · have ht' : streamAt (coreOf (engineView s core) q.dstCore) q.stream = some t := ht
    have hstep : sendStep (engineView s core) core (coreOf (engineView s core) q.dstCore) (boundCmd (engineView s core) q)
        = takeSlot (engineView s core) core (boundCmd (engineView s core) q) t := by
      simp [sendStep, boundCmd, hk, ht', Nat.not_lt.mpr hlen]
    refine ⟨_, exec_sendArrive_bound hlive hst (fun t' h => .inr ?_), fun hne => ?_⟩
    · rw [ht'] at h
      exact Option.some.inj h ▸ hw
    · rw [asEngine_eq, hstep]
      exact streamAt_takeSlot (q := boundCmd (engineView s core) q) hw hf hne

/-- A check that passes has a value. -/
theorem ok_of_isOk {ε α : Type} {r : Except ε α} (h : r.isOk = true) : ∃ x, r = .ok x := by
  cases r with
  | ok x => exact ⟨x, rfl⟩
  | error e => exact absurd h Bool.false_ne_true

theorem publishExchanges : PublishExchanges := by
  refine ⟨fun s t core id q l e hc hr hl hst hes hread hx hver hgen hkind => ?_, fun s t core slot i v e hv hw hh hpk hr hread => ?_⟩
  · have hlive := liveCmd_of hc hr
    obtain ⟨x, hx⟩ : ∃ x, xlatCheck t q.part q.secure .store (entryAddr (engineView s core) q.part l.idx) = .ok x :=
      ok_of_isOk ((congrArg (fun a => (xlatCheck t q.part q.secure .store a).isOk = true) rfl).mp hx)
    have hexec : exec (.publish core id) s = .next (asEngine s core (fun s => if e.oldref ≠ 0 then s
        else putCmd (swapEntry t q.part e) core { q with stage := .done, pubOut := some (e.l.pubver + 1) })) := by
      have hread' : readEntry false (engineView s core) q.part q.secure l.idx = (t, .ok e) := hread
      have hes' : earlierShadow (engineView s core) q l.idx = false := hes
      simp only [exec_publish, execPublish, asEngine_eq, hlive, hst, hl, hes', publishNow, hread', hx, hver, hgen, hkind]
      simp
    rw [hexec, asEngine_eq]
    exact ⟨fun h => by simp [h], fun h => by simp [h, engineView]⟩
  · have hexec : exec (.shadowWriteIssue core slot) s = .next (if decide (e.oldref ≠ 0) then s
        else onSlotOf s core (slot / 2) (slot % 2) (fun t => { t with st := .eligible, wait := .none, ready := (coreOf s core).cycle })) := by
      simp only [exec_shadowWriteIssue, execShadowWriteIssue, hv, hw, hread, hh, hpk, hr, Bool.or_false, Bool.not_true]
    rw [hexec]
    refine ⟨fun h => by simp [h], fun h => by simp [h]⟩

/-- Settles O34: a command that arrives, completes or publishes does what its stage says. -/
theorem engineSteps : Obligations.EngineSteps := ⟨engineCompletes, sendArrives, publishExchanges⟩

end Sys2Proof.Proofs.Engine
end

section
/-! SUPPORT. The tender's own control: NOP, LOOP, TMEET and the choice of a stream (R35, R248, R307, R311, R312). -/

open Sys2Proof Sys2Proof.Machine Sys2Proof.Cert
open Sys2Proof.Proofs.Compute Sys2Proof.Proofs.Frames Sys2Proof.Proofs.Sync

namespace Sys2Proof.Proofs.TenderStream

/-! ## The stream of a core -/

theorem setAt_eq_set {α : Type} (xs : List α) (n : Nat) (v : α) : setAt xs n v = xs.set n v := by
  induction xs generalizing n with
  | nil => rfl
  | cons x xs ih =>
    cases n with
    | zero => rfl
    | succ n => exact congrArg (x :: ·) (ih n)

/-- The stream that issues is one of its core's. -/
theorem tenders_of_tenderOf {s : State} {c i : Nat} {t : Tender} (h : tenderOf s = some (c, i, t)) :
    (coreOf s c).tenders[i]? = some t := by
  unfold tenderOf at h
  split at h
  · obtain ⟨u, hu, heq⟩ := Option.map_eq_some_iff.mp h
    simp only [Prod.mk.injEq] at heq
    obtain ⟨rfl, rfl, rfl⟩ := heq
    exact hu
  · exact absurd h nofun

theorem onTenderAt_of_some {k : Core} {i : Nat} {t : Tender} (h : k.tenders[i]? = some t) (f : Tender → Tender) :
    onTenderAt k i f = { k with tenders := k.tenders.set i (f t) } := by
  simp only [onTenderAt, h, setAt_eq_set]

theorem tenders_onTenderAt {k : Core} {i : Nat} {t : Tender} (h : k.tenders[i]? = some t) (f : Tender → Tender) :
    (onTenderAt k i f).tenders[i]? = some (f t) := by
  rw [onTenderAt_of_some h]
  exact List.getElem?_set_self (List.getElem?_eq_some_iff.mp h).1

theorem onTenderAt_onTenderAt {k : Core} {i : Nat} {t : Tender} (h : k.tenders[i]? = some t) (f g : Tender → Tender) :
    onTenderAt (onTenderAt k i f) i g = onTenderAt k i (g ∘ f) := by
  rw [onTenderAt_of_some (tenders_onTenderAt h f), onTenderAt_of_some h, onTenderAt_of_some h]
  simp [List.set_set]

/-- Group entries and tender streams stand beside each other. -/
theorem putGroup_onTenderAt (k : Core) (i e : Nat) (g : Group) (f : Tender → Tender) :
    putGroup (onTenderAt k i f) e g = onTenderAt (putGroup k e g) i f := by
  simp only [onTenderAt, putGroup]
  split <;> rfl

@[simp] theorem groupOf_onTenderAt (k : Core) (i e : Nat) (f : Tender → Tender) : groupOf (onTenderAt k i f) e = groupOf k e := by
  simp only [onTenderAt]
  split <;> rfl

/-! ## The choice of a stream (R307) -/

/-- A ready stream that has waited longer than the one found so far takes its place. -/
def pickReady (m : Option (Nat × Nat)) (p : Tender × Nat) : Option (Nat × Nat) :=
  if p.1.st ≠ .ready then m
  else match m with
    | some q => if p.1.since < q.2 then some (p.2, p.1.since) else m
    | none => some (p.2, p.1.since)

theorem longestReady_eq (ts : List Tender) : longestReady ts = (ts.zipIdx.foldl pickReady none).map Prod.fst := rfl

/-- What is found among some streams: one of them that is ready and has waited longest, or none where none is ready. -/
def Picked (ps : List (Tender × Nat)) (m : Option (Nat × Nat)) : Prop :=
  match m with
  | none => ∀ p ∈ ps, p.1.st ≠ .ready
  | some (j, d) => (∃ u, (u, j) ∈ ps ∧ u.st = .ready ∧ u.since = d) ∧ ∀ p ∈ ps, p.1.st = .ready → d ≤ p.1.since

theorem picked_append {ps : List (Tender × Nat)} {m : Option (Nat × Nat)} (h : Picked ps m) (p : Tender × Nat) :
    Picked (ps ++ [p]) (pickReady m p) := by
  by_cases hr : p.1.st = .ready
  · have hnew (hle : ∀ x ∈ ps, x.1.st = .ready → p.1.since ≤ x.1.since) : Picked (ps ++ [p]) (some (p.2, p.1.since)) := by
      refine ⟨⟨p.1, List.mem_append_right _ (List.mem_singleton_self _), hr, rfl⟩, fun x hx hxr => ?_⟩
      rcases List.mem_append.mp hx with hx | hx
      · exact hle x hx hxr
      · obtain rfl := List.mem_singleton.mp hx
        exact Nat.le_refl _
    rcases m with - | ⟨j, d⟩
    · have : pickReady none p = some (p.2, p.1.since) := by simp [pickReady, hr]
      rw [this]
      exact hnew (fun x hx hxr => absurd hxr (h x hx))
    · obtain ⟨⟨u, hu, hur, hud⟩, hmin⟩ := h
      by_cases hlt : p.1.since < d
      · have : pickReady (some (j, d)) p = some (p.2, p.1.since) := by simp [pickReady, hr, hlt]
        rw [this]
        exact hnew (fun x hx hxr => Nat.le_trans (Nat.le_of_lt hlt) (hmin x hx hxr))
      · have : pickReady (some (j, d)) p = some (j, d) := by simp [pickReady, hr, hlt]
        rw [this]
        refine ⟨⟨u, List.mem_append_left _ hu, hur, hud⟩, fun x hx hxr => ?_⟩
        rcases List.mem_append.mp hx with hx | hx
        · exact hmin x hx hxr
        · rw [List.mem_singleton.mp hx]
          exact Nat.le_of_not_lt hlt
  · have hskip : pickReady m p = m := by simp [pickReady, hr]
    rw [hskip]
    rcases m with - | ⟨j, d⟩
    · intro x hx
      rcases List.mem_append.mp hx with hx | hx
      · exact h x hx
      · rwa [List.mem_singleton.mp hx]
    · obtain ⟨⟨u, hu, hur, hud⟩, hmin⟩ := h
      refine ⟨⟨u, List.mem_append_left _ hu, hur, hud⟩, fun x hx hxr => ?_⟩
      rcases List.mem_append.mp hx with hx | hx
      · exact hmin x hx hxr
      · exact absurd (List.mem_singleton.mp hx ▸ hxr) hr

/-- As one tender after another is looked at. -/
theorem picked_foldl_append (ps : List (Tender × Nat)) : ∀ {qs : List (Tender × Nat)} {m : Option (Nat × Nat)}, Picked qs m →
    Picked (qs ++ ps) (ps.foldl pickReady m) := by
  induction ps with
  | nil => intro qs m h; rwa [List.append_nil]
  | cons p ps ih =>
    intro qs m h
    have := ih (picked_append h p)
    rwa [List.append_assoc] at this

theorem picked_foldl (ps : List (Tender × Nat)) : Picked ps (ps.foldl pickReady none) :=
  picked_foldl_append ps (qs := []) nofun

theorem longestReady_some {ts : List Tender} {j : Nat} (h : longestReady ts = some j) :
    ∃ u, ts[j]? = some u ∧ u.st = .ready ∧ ∀ (n : Nat) (w : Tender), ts[n]? = some w → w.st = .ready → u.since ≤ w.since := by
  obtain ⟨⟨j', d⟩, hm, rfl⟩ := Option.map_eq_some_iff.mp ((longestReady_eq ts).symm.trans h)
  have hp := picked_foldl ts.zipIdx
  rw [hm] at hp
  obtain ⟨⟨u, hu, hur, rfl⟩, hmin⟩ := hp
  refine ⟨u, List.mem_zipIdx_iff_getElem?.mp hu, hur, fun n w hw hwr => hmin (w, n) ?_ hwr⟩
  exact List.mem_zipIdx_iff_getElem?.mpr hw

theorem longestReady_none {ts : List Tender} (h : longestReady ts = none) : ∀ w ∈ ts, w.st ≠ .ready := by
  have hm := Option.map_eq_none_iff.mp ((longestReady_eq ts).symm.trans h)
  have hp := picked_foldl ts.zipIdx
  rw [hm] at hp
  intro w hw
  obtain ⟨n, hn⟩ := List.mem_iff_getElem?.mp hw
  exact hp (w, n) (List.mem_zipIdx_iff_getElem?.mpr hn)

/-! ## TMEET (R312) -/

theorem exec_tmeet (r : Record) (s : State) : exec (.tmeet r) s = execTmeet r s := rfl
theorem exec_tenderLoop (r : Record) (s : State) : exec (.tenderLoop r) s = execTenderLoop r s := rfl
theorem exec_tenderSwitch (r : Record) (s : State) : exec (.tenderSwitch r) s = execTenderSwitch r s := rfl

/-- The stream is gone or not ready. -/
def notReady (k : Core) (i : Nat) : Bool :=
  match k.tenders[i]? with
  | some t => t.st ≠ .ready
  | none => true

/-- A stream gives the tender up unless it is ready. -/
def yields (k : Core) (i : Nat) : Core := if notReady k i then { k with active := none } else k

/-- The core after a TMEET at a group entry, before the tender is given up. -/
def meetAt (k : Core) (i e : Nat) : Core :=
  let g := groupOf k e
  let k := onTenderAt k i (fun t => { t with pc := t.pc + 1 })
  if g.arrived < g.expect then
    groupSettle (onTenderAt (putGroup k e { g with arrived := g.arrived + 1, tmeet := true }) i
      (fun t => { t with st := .tmeet e g.phase false })) e
  else
    onTenderAt (putGroup k e { g with held := g.held ++ [.tender i] }) i (fun t => { t with st := .tmeet e g.phase true })

/-- The group entry that a TMEET names. -/
def meetEntry (k : Core) (t : Tender) (r : Record) : Nat :=
  ((blockOfTender k t).map (fun b => b.groupBase)).getD 0 + (match r.a with
    | .imm v => v.toNat
    | _ => 0)

theorem tmeet_next {s : State} {c i : Nat} {t : Tender} (h : tenderOf s = some (c, i, t)) (r : Record) :
    exec (.tmeet r) s = .next (onCore s c (fun k => yields (meetAt k i (meetEntry k t r)) i)) := by
  rw [exec_tmeet, execTmeet, onTender_next _ _ _ _ _ h]
  rfl

theorem yields_waiting {k : Core} {i : Nat} {t : Tender} (h : k.tenders[i]? = some t) (hs : t.st ≠ .ready) :
    yields k i = { k with active := none } := by
  have : notReady k i = true := by simp [notReady, h, hs]
  rw [yields, if_pos this]

/-- A stream steps past its TMEET and waits, as one change of the stream. -/
theorem waits_past {k : Core} {i e : Nat} {t : Tender} (h : k.tenders[i]? = some t) (g : Group) (st : TenderSt) :
    onTenderAt (putGroup (onTenderAt k i (fun t => { t with pc := t.pc + 1 })) e g) i (fun t => { t with st := st })
      = onTenderAt (putGroup k e g) i (fun t => { t with pc := t.pc + 1, st := st }) := by
  have h' : (putGroup k e g).tenders[i]? = some t := h
  rw [putGroup_onTenderAt, onTenderAt_onTenderAt h']
  rfl

/-- An arrival that does not complete its phase. -/
theorem meetAt_open {k : Core} {i e : Nat} {t : Tender} (h : k.tenders[i]? = some t)
    (ha : (groupOf k e).arrived + 1 < (groupOf k e).expect) :
    meetAt k i e = onTenderAt (putGroup k e { groupOf k e with arrived := (groupOf k e).arrived + 1, tmeet := true }) i
      (fun t => { t with pc := t.pc + 1, st := .tmeet e (groupOf k e).phase false }) := by
  rw [meetAt]
  simp only [if_pos (Nat.lt_of_succ_lt ha), waits_past h]
  refine groupSettle_open ?_
  rw [groupOf_onTenderAt, groupOf_putGroup]
  exact fun hc => absurd hc.1 (Nat.ne_of_lt ha)

/-- An arrival at a full phase is held. -/
theorem meetAt_held {k : Core} {i e : Nat} {t : Tender} (h : k.tenders[i]? = some t)
    (ha : (groupOf k e).expect ≤ (groupOf k e).arrived) :
    meetAt k i e = onTenderAt (putGroup k e { groupOf k e with held := (groupOf k e).held ++ [.tender i] }) i
      (fun t => { t with pc := t.pc + 1, st := .tmeet e (groupOf k e).phase true }) := by
  rw [meetAt]
  simp only [if_neg (Nat.not_lt.mpr ha), waits_past h]

/-- The last arrival of a phase completes it. -/
theorem meetAt_complete {k : Core} {i e : Nat} {t : Tender} (h : k.tenders[i]? = some t)
    (ha : (groupOf k e).arrived + 1 = (groupOf k e).expect) (hp : (groupOf k e).pending = 0) (hh : (groupOf k e).held = []) :
    (groupOf (meetAt k i e) e).phase = !(groupOf k e).phase ∧ (groupOf (meetAt k i e) e).arrived = 0 := by
  rw [meetAt]
  simp only [if_pos (Nat.lt_of_succ_le (Nat.le_of_eq ha)), waits_past h]
  rw [groupSettle_complete (groupOf_onTenderAt ..) ((congrArg Group.arrived (groupOf_putGroup ..)).trans ?_) ?_ ?_ ?_]
  · rw [groupOf_wakePhase, groupOf_putGroup]
    rw [groupOf_putGroup]
    exact ⟨rfl, rfl⟩
  all_goals rw [groupOf_putGroup]
  · exact ha
  · exact ha ▸ Nat.succ_pos _
  · exact hp
  · exact hh

/-- Giving the tender up leaves the groups. -/
theorem groupOf_yields (k : Core) (i e : Nat) : groupOf (yields k i) e = groupOf k e := by
  unfold yields
  split <;> rfl

/-- Settles O35: each record of the tender's control does to its stream what its rule says; the fold over the streams keeps a
ready one that has waited longest. -/
theorem tenderControl : Obligations.TenderControl := by
  intro r s c i t h
  have ht := tenders_of_tenderOf h
  refine ⟨by rw [exec_nop, execNop, h], fun hb hrst => ?_, fun hn => ?_, fun n p ha hp => ?_⟩
  · have hexec : exec (.tenderLoop r) s = .next (if t.p + 1 < max 1 ((tenderOpnd s c t r.b).toNat % 2 ^ 16) then
          onCore s c (fun k => onTenderAt k i (fun u => { u with p := u.p + 1, pc := (tenderOpnd s c t r.b).toNat / 2 ^ 16 % 2 ^ 12 }))
        else tenderEnds s c i) := by
      rw [exec_tenderLoop, execTenderLoop, onTender_next _ _ _ _ _ h]
      simp only [hb, Nat.not_le.mpr hrst, decide_false, Bool.or_self, Bool.false_eq_true, if_false]
    rw [hexec]
    exact ⟨fun hp => by rw [if_pos hp], fun hp => by rw [if_neg (Nat.not_lt.mpr hp)]⟩
  · refine ⟨longestReady (coreOf s c).tenders, ?_, fun j hj => longestReady_some hj, longestReady_none⟩
    rw [exec_tenderSwitch, execTenderSwitch, onTender_next _ _ _ _ _ h]
    simp only [onCore, hn]
    rfl
  · have he : meetEntry (coreOf s c) t r = p.groupBase + n.toNat := by simp [meetEntry, hp, ha]
    rw [tmeet_next h]
    simp only [onCore, he]
    refine ⟨fun hlt => ?_, fun hle => ?_, fun heq hpend hheld => ⟨_, rfl, ?_⟩⟩
    · rw [meetAt_open ht hlt, yields_waiting (tenders_onTenderAt (k := putGroup ..) ht _) (by simp)]
    · rw [meetAt_held ht hle, yields_waiting (tenders_onTenderAt (k := putGroup ..) ht _) (by simp)]
    · rw [coreOf_setCore, groupOf_yields]
      exact meetAt_complete ht heq hpend hheld

end Sys2Proof.Proofs.TenderStream
end

section
/-! SUPPORT. The matrix array's records and LDQ (R308 to R321). -/

open Sys2Proof Sys2Proof.Machine Sys2Proof.Cert
open Sys2Proof.Proofs.Compute Sys2Proof.Proofs.Frames Sys2Proof.Proofs.Lanes Sys2Proof.Proofs.TenderStream

namespace Sys2Proof.Proofs.Matrix

/-! ## Chunks of bytes -/

theorem drop_take_flatMap {α : Type} {d : Nat} {f : α → List Byte} (xs : List α) (h : ∀ x ∈ xs, (f x).length = d) {n : Nat} {x : α}
    (hx : xs[n]? = some x) : ((xs.flatMap f).drop (d * n)).take d = f x := by
  induction xs generalizing n with
  | nil => exact absurd hx nofun
  | cons y ys ih =>
    have hy := h y List.mem_cons_self
    rw [List.flatMap_cons]
    cases n with
    | zero =>
      obtain rfl : y = x := Option.some.inj hx
      rw [Nat.mul_zero, List.drop_zero, ← hy, List.take_left]
    | succ n =>
      rw [Nat.mul_succ, Nat.add_comm, ← List.drop_drop, ← hy, List.drop_left, hy]
      exact ih (fun x hx => h x (List.mem_cons_of_mem _ hx)) hx

theorem length_flatMap_const {α : Type} {d : Nat} {f : α → List Byte} (xs : List α) (h : ∀ x ∈ xs, (f x).length = d) :
    (xs.flatMap f).length = xs.length * d := by
  induction xs with
  | nil => simp
  | cons y ys ih =>
    rw [List.flatMap_cons, List.length_append, h y List.mem_cons_self, ih (fun x hx => h x (List.mem_cons_of_mem _ hx)),
      List.length_cons, Nat.succ_mul, Nat.add_comm]

/-- A table of rows and columns of `d` bytes each, row by row. -/
def table (d : Nat) (v : Nat → Nat → Nat) : List Byte := allLanes.flatMap (fun i => allLanes.flatMap (fun j => leBytes d (v i j)))

theorem allLanes_get {i : Nat} (h : i < 32) : allLanes[i]? = some i := List.getElem?_range h

theorem row_length (d : Nat) (v : Nat → Nat) : (allLanes.flatMap (fun j => leBytes d (v j))).length = 32 * d :=
  (length_flatMap_const allLanes (fun _ _ => leBytes_length ..)).trans (congrArg (· * d) List.length_range)

theorem table_length (d : Nat) (v : Nat → Nat → Nat) : (table d v).length = 1024 * d := by
  rw [table, length_flatMap_const allLanes (fun i _ => row_length d (v i)), allLanes, List.length_range]
  omega

theorem table_get {d : Nat} {v : Nat → Nat → Nat} {i j : Nat} (hi : i < 32) (hj : j < 32) :
    leNat (((table d v).drop (d * (32 * i + j))).take d) = v i j % 256 ^ d := by
  have hrow : ((table d v).drop (32 * d * i)).take (32 * d) = allLanes.flatMap (fun j => leBytes d (v i j)) :=
    drop_take_flatMap allLanes (fun i _ => row_length d (v i)) (allLanes_get hi)
  have hat : d * (32 * i + j) = 32 * d * i + d * j := by
    rw [Nat.mul_add, ← Nat.mul_assoc, Nat.mul_comm d 32]
  have hin : d * j + d ≤ 32 * d := by
    have := Nat.mul_le_mul_left d (Nat.succ_le_of_lt hj)
    rwa [Nat.mul_succ, Nat.mul_comm d 32] at this
  have hcut : (((table d v).drop (d * (32 * i + j))).take d)
      = ((((table d v).drop (32 * d * i)).take (32 * d)).drop (d * j)).take d := by
    rw [List.drop_take, List.take_take, List.drop_drop, hat, Nat.min_eq_left (Nat.le_sub_of_add_le' hin)]
  rw [hcut, hrow, drop_take_flatMap allLanes (fun _ _ => leBytes_length ..) (allLanes_get hj), leNat_leBytes]

/-! ## Checks that pass -/

theorem firstFail_append {xs ys : List (Option Fail)} (hx : firstFail xs = none) (hy : firstFail ys = none) :
    firstFail (xs ++ ys) = none := by
  induction xs with
  | nil => exact hy
  | cons x xs ih =>
    cases x with
    | none => exact ih hx
    | some f =>
      rw [firstFail] at hx
      split at hx
      · exact absurd hx (Option.some_ne_none _)
      · split at hx <;> exact absurd hx (Option.some_ne_none _)

theorem offsetFails_of_ok {k : Core} {role : Nat} {rz : Bool} {off n al : Nat} (h : RangeOk k role rz off n al) :
    offsetFails k role rz off n al = [none, none] := by
  obtain ⟨rfl, hn, hle, hal⟩ := h
  have h1 : ¬ roleSize k role < off + n := Nat.not_lt.mpr hle
  have h2 : roleSize k role ≠ 0 := by omega
  simp [offsetFails, h1, h2, hal]

/-- Where no word of the tiles is damaged, none of a range is. -/
theorem rolePoisoned_clean {k : Core} (h : k.tilePoison = []) (role off n : Nat) : rolePoisoned k role off n = false := by
  simp [rolePoisoned, h]

theorem columnPoisoned_clean {k : Core} (h : k.regPoison = []) (t : Tender) (ty : Ty) (mem j : Nat) (ks : List Nat) :
    columnPoisoned k t ty mem j ks = false := by
  simp [columnPoisoned, h]

/-! ## MMA, MMAS (R315, R316) -/

theorem exec_mma (r : Record) (s : State) : exec (.mma r) s = matrixRecord s r false := rfl
theorem exec_mmas (r : Record) (s : State) : exec (.mmas r) s = matrixRecord s r true := rfl
theorem exec_mtile (r : Record) (s : State) : exec (.mtile r) s = execMtile r s := rfl
theorem exec_mzy (r : Record) (s : State) : exec (.mzy r) s = execMzy r s := rfl
theorem exec_msty (r : Record) (s : State) : exec (.msty r) s = execMsty r s := rfl
theorem exec_ldq (r : Record) (s : State) : exec (.ldq r) s = execLdq r s := rfl

/-- The bytes that the array writes for checked operands. -/
def newBytes (s : State) (c : Nat) (t : Tender) (r : Record) (p : Present) : List Byte :=
  matrixResult (coreOf s c) t r.ty (r.fn.toNat / 8) (matOps s c t r).xa (matOps s c t r).xs (matOps s c t r).y p

theorem newBytes_result (s : State) (c : Nat) (t : Tender) (r : Record) (p : Present) :
    MatResult s c t r p (newBytes s c t r p) := by
  refine ⟨table_length .., fun i j hi hj => ?_⟩
  refine (table_get hi hj).trans ?_
  have hcol : (allLanes.map (columnOfB (coreOf s c) t r.ty (r.fn.toNat / 8))).getD j []
      = columnOfB (coreOf s c) t r.ty (r.fn.toNat / 8) j := by
    rw [List.getD_eq_getElem?_getD, List.getElem?_map, allLanes_get hj]
    rfl
  simp only [hcol]
  rfl

/-- The array works where its rate admits the cycles and nothing it reads is damaged. -/
theorem matrixRuns_clean {s : State} {c : Nat} {r : Record} {cycles : Nat} (i : Nat) (t : Tender)
    (htile : (coreOf s c).tilePoison = []) (hreg : (coreOf s c).regPoison = []) (hmac : macAdmits (coreOf s c) cycles = true)
    (xa xs y : Nat) (p : Present) : matrixRuns s c i t r xa xs y cycles p
      = tenderGoes (onCore (storeY s c y (matrixResult (coreOf s c) t r.ty (r.fn.toNat / 8) xa xs y p)) c
          (fun k => { k with rlMac := k.rlMac + cycles })) c i t (t.pc + 1) := by
  have hcol (used : Nat → List Nat) : allLanes.any (fun j =>
      columnPoisoned (coreOf s c) t r.ty (r.fn.toNat / 8) j (used j)) = false :=
    List.any_eq_false.mpr (fun j _ => by rw [columnPoisoned_clean hreg]; exact Bool.false_ne_true)
  simp only [matrixRuns, hmac, rolePoisoned_clean htile, hcol, Bool.not_true, Bool.and_false, Bool.false_eq_true, if_false]

/-- The checks of an array record pass; the metadata's too where it reads any. -/
theorem firstFail_ready {s : State} {c : Nat} {t : Tender} {r : Record} {cycles : Nat} (hm : MatReady s c t r cycles)
    (sparse : Bool) (mlen : Nat)
    (hmeta : sparse = true → RangeOk (coreOf s c) 4 (strays (tenderOpnd s c t r.c) 0x3FFFF) (matOps s c t r).mo mlen 32) :
    firstFail (offsetFails (coreOf s c) 4 (strays (tenderOpnd s c t r.a) 0x3FFFF0003FFFF) (matOps s c t r).xa
        (32 * (matShape r.ty (r.fn.toNat / 8)).rs) 32
      ++ (if (matShape r.ty (r.fn.toNat / 8)).scales then offsetFails (coreOf s c) 4 false (matOps s c t r).xs 1024 32 else [])
      ++ offsetFails (coreOf s c) 5 (strays (tenderOpnd s c t r.b) 0x3FFFF) (matOps s c t r).y (1024 * accBytes r.ty) 32
      ++ (if sparse then offsetFails (coreOf s c) 4 (strays (tenderOpnd s c t r.c) 0x3FFFF) (matOps s c t r).mo mlen 32 else []))
      = none := by
  obtain ⟨-, hx, hs, hy, -, -, -⟩ := hm
  have hscale : firstFail (if (matShape r.ty (r.fn.toNat / 8)).scales then
      offsetFails (coreOf s c) 4 false (matOps s c t r).xs 1024 32 else []) = none := by
    split
    · next h => rw [offsetFails_of_ok (hs h)]; rfl
    · rfl
  have hmet : firstFail (if sparse then
      offsetFails (coreOf s c) 4 (strays (tenderOpnd s c t r.c) 0x3FFFF) (matOps s c t r).mo mlen 32 else []) = none := by
    split
    · next h => rw [offsetFails_of_ok (hmeta h)]; rfl
    · rfl
  refine firstFail_append (firstFail_append (firstFail_append ?_ hscale) ?_) hmet
  · rw [offsetFails_of_ok hx]; rfl
  · rw [offsetFails_of_ok hy]; rfl

/-- Service of the 4-bit formats is not refused. -/
theorem fourBit_ready {s : State} {c : Nat} {t : Tender} {r : Record} {cycles : Nat} (hm : MatReady s c t r cycles) :
    ((decide (r.ty = .e2m1) || (decide (r.ty = .kb) && decide (r.fn.toNat / 8 = 0))) && !fourBit s (coreDie c)) = false := by
  rw [← Bool.not_eq_true]
  intro h
  simp only [Bool.and_eq_true, Bool.or_eq_true, decide_eq_true_eq, Bool.not_eq_true'] at h
  exact Bool.false_ne_true (h.2.symm.trans (hm.1 h.1))

theorem matrixRecord_dense {s : State} {c i : Nat} {t : Tender} {r : Record} {cycles : Nat} (h : tenderOf s = some (c, i, t))
    (hm : MatReady s c t r cycles) : matrixRecord s r false
      = .next (matrixRuns s c i t r (matOps s c t r).xa (matOps s c t r).xs (matOps s c t r).y 128
          (allPresent r.ty (matShape r.ty (r.fn.toNat / 8)))) := by
  have hff := firstFail_ready hm false (16 + 4 * 0) nofun
  rw [matrixRecord, onTender_next _ _ _ _ _ h]
  simp only [matOps, accBytes] at hff
  simp only [fourBit_ready hm, xinc, yinc, Bool.false_and, Bool.false_eq_true, if_false] at hff ⊢
  rw [hff]
  rfl

theorem matrixRecord_sparse {s : State} {c i : Nat} {t : Tender} {r : Record} {cycles live : Nat} (h : tenderOf s = some (c, i, t))
    (hm : MatReady s c t r cycles) (hmo : (matOps s c t r).mo + 16 ≤ roleSize (coreOf s c) 4)
    (hlive : live = (liveVectors (matShape r.ty (r.fn.toNat / 8)) (leNat (roleRead (coreOf s c) 4 (matOps s c t r).mo 16))).length)
    (hr : RangeOk (coreOf s c) 4 (strays (tenderOpnd s c t r.c) 0x3FFFF) (matOps s c t r).mo (16 + 4 * live) 32) :
    matrixRecord s r true
      = .next (matrixRuns s c i t r (matOps s c t r).xa (matOps s c t r).xs (matOps s c t r).y
          ((64 * live + vectorCount (matShape r.ty (r.fn.toNat / 8)) - 1) / vectorCount (matShape r.ty (r.fn.toNat / 8)))
          (sparsePresent r.ty (matShape r.ty (r.fn.toNat / 8))
            (roleRead (coreOf s c) 4 (matOps s c t r).mo (16 + 4 * live)))) := by
  have hff := firstFail_ready hm true (16 + 4 * live) (fun _ => hr)
  have htile := hm.2.2.2.2.1
  rw [matrixRecord, onTender_next _ _ _ _ _ h]
  simp only [matOps, accBytes] at hff hmo hlive ⊢
  simp only [fourBit_ready hm, xinc, yinc, Bool.false_eq_true, if_false, if_true, Bool.true_and, hmo, decide_true, ← hlive] at hff ⊢
  rw [hff]
  simp only [rolePoisoned_clean htile, Bool.false_eq_true, if_false]

theorem mma_ready {s : State} {c i : Nat} {t : Tender} {r : Record} (h : tenderOf s = some (c, i, t))
    (hm : MatReady s c t r 128) : ∃ bs, MatResult s c t r (allPresent r.ty (matShape r.ty (r.fn.toNat / 8))) bs
      ∧ exec (.mma r) s = .next (tenderGoes (onCore (storeY s c (matOps s c t r).y bs) c
          (fun k => { k with rlMac := k.rlMac + 128 })) c i t (t.pc + 1)) := by
  refine ⟨_, newBytes_result .., ?_⟩
  have hready := matrixRecord_dense h hm
  obtain ⟨-, -, -, -, htile, hreg, hmac⟩ := hm
  rw [exec_mma, hready, matrixRuns_clean i t htile hreg hmac]
  rfl

/-! ## MTILE, MZY, MSTY (R310, R317, R318) -/

/-- Numbers of `d` bytes, one after another. -/
def row (d : Nat) (v : Nat → Nat) (m : Nat) : List Byte := (List.range m).flatMap (fun n => leBytes d (v n))

theorem row_spec (d : Nat) (v : Nat → Nat) (m : Nat) : (row d v m).length = m * d
    ∧ ∀ n, n < m → leNat (((row d v m).drop (d * n)).take d) = v n % 256 ^ d := by
  refine ⟨?_, fun n hn => ?_⟩
  · rw [row, length_flatMap_const _ (fun _ _ => leBytes_length ..), List.length_range]
  · rw [row, drop_take_flatMap (f := fun n => leBytes d (v n)) (List.range m) (fun _ _ => leBytes_length ..) (List.getElem?_range hn),
      leNat_leBytes]

/-- The bytes that MSTY writes, an element after another. -/
theorem mstyBytes_spec (k : Core) (r : Record) (src es : Nat) :
    (mstyBytes k r src es).length = 1024 * ((fmtOf r.ty).bits / 8)
    ∧ ∀ n, n < 1024 → leNat (((mstyBytes k r src es).drop ((fmtOf r.ty).bits / 8 * n)).take ((fmtOf r.ty).bits / 8))
      = fpRound (fmtOf r.ty) (rndOf r.fn.toNat) (r.fn.getLsbD 3) (fpDecode (if es = 8 then fmtF64 else fmtF32)
          (leNat (roleRead k 5 (src + es * n) es))) % 256 ^ ((fmtOf r.ty).bits / 8) :=
  row_spec ((fmtOf r.ty).bits / 8) (fun n => fpRound (fmtOf r.ty) (rndOf r.fn.toNat) (r.fn.getLsbD 3)
    (fpDecode (if es = 8 then fmtF64 else fmtF32) (leNat (roleRead k 5 (src + es * n) es)))) 1024

theorem mtile_next {s : State} {c i : Nat} {t : Tender} {r : Record} (h : tenderOf s = some (c, i, t))
    (ha : strays (tenderOpnd s c t r.a) 0xFFFFFF = false) (hb : strays (tenderOpnd s c t r.b) 0x3FFFF0003FFFF = false) :
    exec (.mtile r) s = .next (tenderGoes (onCore s c (fun k => onTenderAt k i (fun u =>
      { u with qmap := tenderOpnd s c t r.a, inc := tenderOpnd s c t r.b }))) c i t (t.pc + 1)) := by
  rw [exec_mtile, execMtile, onTender_next _ _ _ _ _ h]
  simp only [ha, hb, Bool.false_eq_true, if_false]

theorem mzy_next {s : State} {c i : Nat} {t : Tender} {r : Record} (h : tenderOf s = some (c, i, t)) {n : Nat}
    (hb : tenderOpnd s c t r.b = 0 ∧ n = 4096 ∨ tenderOpnd s c t r.b = 1 ∧ n = 8192)
    (hr : RangeOk (coreOf s c) 5 (strays (tenderOpnd s c t r.a) 0x3FFFF)
      ((tenderOpnd s c t r.a).toNat % 2 ^ 18 + t.p * (t.inc.toNat / 2 ^ 32 % 2 ^ 18)) n 32) :
    exec (.mzy r) s = .next (tenderGoes (storeY s c ((tenderOpnd s c t r.a).toNat % 2 ^ 18
      + t.p * (t.inc.toNat / 2 ^ 32 % 2 ^ 18)) (List.replicate n 0)) c i t (t.pc + 1)) := by
  have hn : (if tenderOpnd s c t r.b = 0 then 4096 else 8192) = n ∧ ¬ 1 < (tenderOpnd s c t r.b).toNat := by
    rcases hb with ⟨hb, rfl⟩ | ⟨hb, rfl⟩
    · exact ⟨if_pos hb, by simp [hb]⟩
    · exact ⟨if_neg (by simp [hb]), by simp [hb]⟩
  rw [exec_mzy, execMzy, onTender_next _ _ _ _ _ h]
  simp only [if_neg hn.2, hn.1, yinc, offsetFails_of_ok hr, firstFail]

theorem msty_next {s : State} {c i : Nat} {t : Tender} {r : Record} (h : tenderOf s = some (c, i, t)) {es src dst : Nat}
    (hm : tenderOpnd s c t r.c = 0 ∧ es = 4 ∨ tenderOpnd s c t r.c = 1 ∧ es = 8)
    (hsrc : src = (tenderOpnd s c t r.a).toNat % 2 ^ 18 + t.p * (t.inc.toNat / 2 ^ 32 % 2 ^ 18))
    (hdst : dst = (tenderOpnd s c t r.b).toNat % 2 ^ 18 + t.p * (t.inc.toNat / 2 ^ 32 % 2 ^ 18))
    (ha : RangeOk (coreOf s c) 5 (strays (tenderOpnd s c t r.a) 0x3FFFF) src (1024 * es) 32)
    (hb : RangeOk (coreOf s c) 5 (strays (tenderOpnd s c t r.b) 0x3FFFF) dst (1024 * ((fmtOf r.ty).bits / 8)) 32)
    (hp : (coreOf s c).tilePoison = []) :
    exec (.msty r) s = .next (tenderGoes (storeY s c dst (mstyBytes (coreOf s c) r src es)) c i t (t.pc + 1)) := by
  have hn : (if tenderOpnd s c t r.c = 0 then 4 else 8) = es ∧ ¬ 1 < (tenderOpnd s c t r.c).toNat := by
    rcases hm with ⟨hm, rfl⟩ | ⟨hm, rfl⟩ <;> rw [hm] <;> decide
  have hff := firstFail_append (xs := offsetFails (coreOf s c) 5 (strays (tenderOpnd s c t r.a) 0x3FFFF) src (1024 * es) 32)
    (by rw [offsetFails_of_ok ha]; rfl) (ys := offsetFails (coreOf s c) 5 (strays (tenderOpnd s c t r.b) 0x3FFFF) dst
      (1024 * ((fmtOf r.ty).bits / 8)) 32) (by rw [offsetFails_of_ok hb]; rfl)
  rw [exec_msty, execMsty, onTender_next _ _ _ _ _ h]
  simp only [if_neg hn.2, hn.1, yinc, ← hsrc, ← hdst, hff, rolePoisoned_clean hp, Bool.false_eq_true, if_false]

theorem matrixRecords : MatrixRecords := by
  intro r s c i t h
  refine ⟨mma_ready h, fun live hmo hlive hr hm => ?_, mtile_next h, fun n hb hr => mzy_next h hb hr,
    fun es hm hty ha hb hp => ?_⟩
  · refine ⟨_, newBytes_result .., ?_⟩
    have hready := matrixRecord_sparse h hm hmo hlive hr
    obtain ⟨-, -, -, -, htile, hreg, hmac⟩ := hm
    rw [exec_mmas, hready, matrixRuns_clean i t htile hreg hmac]
    rfl
  · obtain ⟨hlen, hget⟩ := mstyBytes_spec (coreOf s c) r
      ((tenderOpnd s c t r.a).toNat % 2 ^ 18 + t.p * (t.inc.toNat / 2 ^ 32 % 2 ^ 18)) es
    exact ⟨_, msty_next h hm rfl rfl ha hb hp, hlen, hget⟩

/-! ## LDQ (R321) -/

/-- The five pairs of registers of a quarter, each in the lanes that receive it. -/
def quarterWrites (lanes : List Nat) (base : Nat) (val : Nat → Nat → Word) (n : Nat) : List (Nat × W32) :=
  pairWrites (base - 2 * n) (lanes.map (fun l => (l, val n l)))

/-- Registers after the first `m` pairs of a quarter. -/
def quarterRegs (lanes : List Nat) (base : Nat) (val : Nat → Nat → Word) (m : Nat) (regs : SMap W32) : SMap W32 :=
  (List.range m).foldl (fun regs n => smSetAll 0 regs (quarterWrites lanes base val n)) regs

section
variable {lanes : List Nat} {base : Nat} {val : Nat → Nat → Word} (hn : lanes.Nodup) (hl : ∀ l ∈ lanes, l < 32)

theorem quarterRegs_succ (m : Nat) (regs : SMap W32) : quarterRegs lanes base val (m + 1) regs
    = smSetAll 0 (quarterRegs lanes base val m regs) (quarterWrites lanes base val m) := by
  rw [quarterRegs, List.range_succ, List.foldl_append]
  rfl

include hl in
/-- A register outside the pairs, or in a lane outside the write, is as it was. -/
theorem quarterRegs_other {q l m : Nat} (hlt : l < 32)
    (h : ¬ (l ∈ lanes ∧ ∃ n, n < m ∧ (q = base - 2 * n ∨ q = base - 2 * n + 1))) (regs : SMap W32) :
    smGet 0 (quarterRegs lanes base val m regs) (regKey q l) = smGet 0 regs (regKey q l) := by
  induction m with
  | zero => rfl
  | succ m ih =>
    rw [quarterRegs_succ, quarterWrites, smGet_pairWrites_other (by simpa using hl) hlt ?_]
    · exact ih (fun ⟨hm, n, hlt, hq⟩ => h ⟨hm, n, Nat.lt_succ_of_lt hlt, hq⟩)
    · rintro ⟨hq, p, hp, rfl⟩
      obtain ⟨x, hx, rfl⟩ := List.mem_map.mp hp
      exact h ⟨hx, m, Nat.lt_succ_self m, hq⟩

include hn hl in
/-- A pair of a quarter holds its word in each lane that receives it. -/
theorem quarterRegs_pair {l n m : Nat} (hm : l ∈ lanes) (hnm : n < m) (hb : 2 * m ≤ base + 2) (regs : SMap W32) :
    smGet 0 (quarterRegs lanes base val m regs) (regKey (base - 2 * n) l) = (val n l).setWidth 32
    ∧ smGet 0 (quarterRegs lanes base val m regs) (regKey (base - 2 * n + 1) l) = (val n l).extractLsb' 32 32 := by
  have hlt (m : Nat) : ∀ p ∈ lanes.map (fun l => (l, val m l)), p.1 < 32 := by simpa using hl
  induction m with
  | zero => exact absurd hnm (Nat.not_lt_zero n)
  | succ m ih =>
    rw [quarterRegs_succ, quarterWrites]
    by_cases he : n = m
    · subst he
      exact smGet_pairWrites (by simpa [Function.comp_def] using hn) (hlt n) (List.mem_map_of_mem (f := fun l => (l, val n l)) hm) _
    · have hsmall : n < m := by omega
      rw [smGet_pairWrites_other (hlt m) (hl l hm) (by omega), smGet_pairWrites_other (hlt m) (hl l hm) (by omega)]
      exact ih hsmall (by omega)

end

/-- The lanes' quarters written to their slots. -/
def writeQuarter (s : State) (k : Ctx) (base : Nat) (val : Nat → Nat → Word) (m : Nat) : State :=
  (List.range m).foldl (fun s n => writeRegs s k.core k.w k.x (quarterWrites k.lanes base val n)) s

theorem writeQuarter_spec (s : State) (k : Ctx) (base : Nat) (val : Nat → Nat → Word) (m : Nat) :
    SlotStep k.core k.w k.x s (writeQuarter s k base val m)
    ∧ (coreOf (writeQuarter s k base val m) k.core).regs = quarterRegs k.lanes base val m (coreOf s k.core).regs := by
  induction m with
  | zero => exact ⟨SlotStep.refl .., rfl⟩
  | succ m ih =>
    have hs : writeQuarter s k base val (m + 1)
        = writeRegs (writeQuarter s k base val m) k.core k.w k.x (quarterWrites k.lanes base val m) := by
      rw [writeQuarter, List.range_succ, List.foldl_append]
      rfl
    rw [hs]
    exact ⟨ih.1.trans (slotStep_writeRegs ..), by rw [writeRegs_regs, ih.2, quarterRegs_succ]⟩

/-- The word of a lane in one of the five slots: an element word, or the scales. -/
def quarterVal (q : Core) (r : Record) (wb so n l : Nat) : Word :=
  if n = 4 then (if r.c ≠ Opnd.absent then leWord (roleRead q 3 (so + 8 * l) 8) else 0)
  else BitVec.ofNat 64 (ldqElements q r wb l / 2 ^ (64 * n))

theorem ldqPoisoned_clean {q : Core} (h : q.tilePoison = []) (r : Record) (wb so l : Nat) : ldqPoisoned q r wb so l = false := by
  simp [ldqPoisoned, rolePoisoned_clean h]

theorem filter_const_true {α : Type} (ls : List α) : ls.filter (fun _ => true) = ls := List.filter_eq_self.mpr (fun _ _ => rfl)

/-- LDQ whose ranges pass their checks writes the quarters of all its lanes. -/
theorem ldq_next {s : State} {k : Ctx} {r : Record} {n : BitVec 8} (hk : ctxOf s = some k) (hb : r.b = .keep n)
    (hwb : (opA s k r .n32 k.low).toNat % 16 = 0)
    (hw : (opA s k r .n32 k.low).toNat + ldqBytes r ≤ roleSize (coreOf s k.core) 3)
    (hc : r.c ≠ .absent → (opC s k r .n32 k.low).toNat % 8 = 0
      ∧ (opC s k r .n32 k.low).toNat + 256 ≤ roleSize (coreOf s k.core) 3)
    (hp : (coreOf s k.core).tilePoison = []) :
    exec (.ldq r) s = .next (advance (writeQuarter s k (keepReg k.wave n.toNat)
      (quarterVal (coreOf s k.core) r (opA s k r .n32 k.low).toNat (opC s k r .n32 k.low).toNat) 5) k) := by
  have hpos : 0 < ldqBytes r := by unfold ldqBytes; split <;> decide
  have hw1 : ¬ roleSize (coreOf s k.core) 3 < (opA s k r .n32 k.low).toNat + ldqBytes r := Nat.not_lt.mpr hw
  have h0 : roleSize (coreOf s k.core) 3 ≠ 0 := by omega
  have hsc : (decide (r.c ≠ .absent) && (decide (roleSize (coreOf s k.core) 3 < (opC s k r .n32 k.low).toNat + 256)
      || decide (roleSize (coreOf s k.core) 3 = 0))) = false
      ∧ (decide (r.c ≠ .absent) && decide ((opC s k r .n32 k.low).toNat % 8 ≠ 0)) = false := by
    by_cases h : r.c = .absent
    · simp [h]
    · obtain ⟨h8, h256⟩ := hc h
      simp [h8, h256, h0]
  have hff : firstFail [
      if decide (roleSize (coreOf s k.core) 3 < (opA s k r .n32 k.low).toNat + ldqBytes r)
        || decide (roleSize (coreOf s k.core) 3 = 0) then some (failAddr causeSpaceBad (opA s k r .n32 k.low)) else none,
      if decide (r.c ≠ .absent) && (decide (roleSize (coreOf s k.core) 3 < (opC s k r .n32 k.low).toNat + 256)
        || decide (roleSize (coreOf s k.core) 3 = 0)) then some (failAddr causeSpaceBad (opC s k r .n32 k.low)) else none,
      if (opA s k r .n32 k.low).toNat % 16 ≠ 0 then some (failAddr causeMisaligned (opA s k r .n32 k.low)) else none,
      if decide (r.c ≠ .absent) && decide ((opC s k r .n32 k.low).toNat % 8 ≠ 0) then
        some (failAddr causeMisaligned (opC s k r .n32 k.low)) else none] = none := by
    rw [hsc.1, hsc.2]
    simp [hw1, h0, hwb, firstFail]
  have hhurt : k.lanes.filter (fun l =>
      ldqPoisoned (coreOf s k.core) r (opA s k r .n32 k.low).toNat (opC s k r .n32 k.low).toNat l) = [] :=
    List.filter_eq_nil_iff.mpr (fun l _ => by rw [ldqPoisoned_clean hp]; exact Bool.false_ne_true)
  rw [exec_ldq, execLdq, onSlot_next s k _ hk]
  dsimp only
  rw [hff]
  simp only [hhurt, hb, pairOf, List.contains_nil, Bool.not_false, filter_const_true, if_true, Option.getD_some]
  rfl

/-- A slot above another is two registers below it. -/
theorem keepReg_add (v : Wave) (n j : Nat) : keepReg v (n + j) = keepReg v n - 2 * j := by
  unfold keepReg; omega

theorem quarterLoads : QuarterLoads := by
  intro r n s k hk hb hn hwin q wb so hwb hw hc hp
  obtain ⟨hstep, hregs⟩ := writeQuarter_spec s k (keepReg k.wave n.toNat) (quarterVal q r wb so) 5
  have hbase : 2 * 5 ≤ keepReg k.wave n.toNat + 2 := by unfold keepReg; omega
  have hkeep (l : Nat) (hl : l ∈ k.lanes) (j : Nat) (hj : j < 5) :
      keepGet (coreOf (advance (writeQuarter s k (keepReg k.wave n.toNat) (quarterVal q r wb so) 5) k) k.core) k.wave
        (n.toNat + j) l = quarterVal q r wb so j l := by
    obtain ⟨hlo, hhi⟩ := quarterRegs_pair (lanes_nodup hk) (fun _ => lane_lt hk) (val := quarterVal q r wb so) hl hj hbase
      (coreOf s k.core).regs
    rw [keepGet, regGet, regGet, advance_regs, hregs, keepReg_add, hlo, hhi, halves_append]
  refine ⟨_, ldq_next hk hb hwb hw hc hp, frame_of_slotStep hk (hstep.trans (slotStep_advance ..)), fun l hl j hj => ?_,
    fun l hl => ?_, fun g l hlt hne => ?_⟩
  · rw [hkeep l hl j (by omega), quarterVal, if_neg (by omega)]
  · rw [hkeep l hl 4 (by omega), quarterVal, if_pos rfl]
    by_cases h : r.c = .absent <;> simp [h, so, q]
  · refine Classical.byContradiction fun hno => ?_
    refine hne ?_
    rw [regGet, advance_regs, hregs, quarterRegs_other (fun _ => lane_lt hk) hlt]
    · rfl
    · rintro ⟨hl, m, hm, hg⟩
      refine hno ⟨hl, ?_⟩
      rw [keepReg_add]
      omega

/-- Settles O36: the array writes the accumulators' table, and LDQ five pairs of registers of each lane. -/
theorem matrixWork : Obligations.MatrixWork := ⟨matrixRecords, quarterLoads⟩

end Sys2Proof.Proofs.Matrix
end

section
/-! SUPPORT. SYS records other than the return (R332 to R335). -/

open Sys2Proof Sys2Proof.Machine Sys2Proof.Cert
open Sys2Proof.Proofs.Compute Sys2Proof.Proofs.Frames Sys2Proof.Proofs.Values Sys2Proof.Proofs.Sync

namespace Sys2Proof.Proofs.SystemRecords

theorem exec_sysSnap (r : Record) (s : State) : exec (.sysSnap r) s = execSysSnap r s := rfl
theorem exec_sysSnapq (r : Record) (s : State) : exec (.sysSnapq r) s = execSysSnapq r s := rfl
theorem exec_sysCfg (r : Record) (s : State) : exec (.sysCfg r) s = execSysCfg r s := rfl
theorem exec_sysDbgset (r : Record) (s : State) : exec (.sysDbgset r) s = execSysDbgset r s := rfl
theorem exec_sysHaltq (r : Record) (s : State) : exec (.sysHaltq r) s = execSysHaltq r s := rfl

/-! ## SYS.snap, SYS.snapq (R332) -/

/-- A state whose cores' waves are those of another: a context's wave and its turn stand. -/
theorem advance_wave {s t : State} {k : Ctx} (hk : ctxOf s = some k) (hc : t.cur = s.cur)
    (hw : waveOf t k.core k.w = waveOf s k.core k.w) :
    waveOf (advance t k) k.core k.w = some (if s.cur.replay then k.wave else stepSlot s.cur k.wave k.x) := by
  obtain ⟨-, hwave, -, -, -⟩ := ctxOf_spec s k hk
  have hsame : sameRun t k = true := by
    rw [sameRun, hw]
    exact sameRun_ctx hk
  rw [waveOf_advance, hw, hwave, hc, hsame]
  simp

theorem waveOf_acquireL1 (s : State) (c : Nat) (o : Order) (sc : Scope) (d w : Nat) :
    waveOf (acquireL1 s c o sc) d w = waveOf s d w := by
  unfold acquireL1
  split
  · by_cases hd : d = c
    · subst hd
      exact waveOf_onCore _ _ _ _ (by rfl) _
    · simp only [waveOf, coreOf_onCore_other _ _ _ _ hd]
  · rfl

theorem acquireL1_cur (s : State) (c : Nat) (o : Order) (sc : Scope) : (acquireL1 s c o sc).cur = s.cur := by
  unfold acquireL1
  split <;> rfl

theorem acquireL1_parts (s : State) (c : Nat) (o : Order) (sc : Scope) : (acquireL1 s c o sc).parts = s.parts := by
  unfold acquireL1
  split <;> rfl

/-- The state of a cut that is taken, before the slot waits for the mark. -/
def cutTaken (s : State) (k : Ctx) : State :=
  onPart { acquireL1 s k.core .sq .dv with cut := some ⟨k.wave.part, k.core, k.w, k.x, [], []⟩ } k.wave.part
    (fun q => { q with snapSeq := q.snapSeq + 1, snapState := 1, snapFault := 0, snapPages := [] })

theorem takeCut_eq (s : State) (k : Ctx) :
    takeCut s k = slotWaits (advance (cutTaken s k) k) k.core k.w k.x .waiting .cut := rfl

theorem partOf_cutTaken (s : State) (k : Ctx) : partOf (cutTaken s k) k.wave.part
    = { partOf s k.wave.part with snapSeq := (partOf s k.wave.part).snapSeq + 1, snapState := 1, snapFault := 0, snapPages := [] } := by
  rw [cutTaken, partOf_onPart]
  simp only [partOf, acquireL1_parts]

theorem snapRecords : SnapRecords := by
  intro r s k hk p q
  have hsnap : exec (.sysSnap r) s = .next (if !q.snap.getLsbD 0 then trapState s k (.sysSnap r) causeDataRights 0
      else if snapBusy s p then slotWaits s k.core k.w k.x .waiting .snap
      else afterRelease s k (if cutReady s (k.core, k.w, k.x) then takeCut s k else slotWaits s k.core k.w k.x .waiting .snap)) := by
    rw [exec_sysSnap, execSysSnap, onSlot_next s k _ hk]
  refine ⟨fun hen hst hcut hser hg ho => ?_, fun hen hst => ?_, fun hen => ?_, ?_⟩
  · have hidle : snapBusy s p = false := by
      have : (partOf s p).snapState ≠ 1 := hst
      simp [snapBusy, this, hcut]
    have hready : cutReady s (k.core, k.w, k.x) = true := by
      simp only [cutReady, tokenFree, hcut, hser, Option.isNone_none, Bool.true_or, Bool.and_self, Bool.true_and,
        List.all_eq_true, decide_eq_true_eq]
      exact hg
    have hwave := advance_wave (t := cutTaken s k) hk (acquireL1_cur ..) (waveOf_acquireL1 ..)
    obtain ⟨-, -, hslot, -, -⟩ := ctxOf_spec s k hk
    obtain ⟨u, hudef⟩ : ∃ u, u = if s.cur.replay then k.wave else stepSlot s.cur k.wave k.x := ⟨_, rfl⟩
    rw [← hudef] at hwave
    rw [hsnap]
    simp only [hen, hidle, hready, afterRelease_open ho, Bool.not_true, Bool.false_eq_true, if_false, if_true]
    refine ⟨_, putSlot u k.x { slotOf u k.x with st := .waiting, wait := .cut }, rfl, ?_, ?_, ?_, by simp, by simp, fun hr hd hlt => ?_⟩
    · rw [takeCut_eq, slotWaits_onlyCores, advance_onlyCores]
      rfl
    · rw [takeCut_eq, slotWaits_onlyCores, advance_onlyCores]
      exact partOf_cutTaken s k
    · rw [takeCut_eq, slotWaits, waveOf_onSlotOf, hwave]
      rfl
    · have hu : u = stepSlot s.cur k.wave k.x := hudef.trans (if_neg (by rw [hr]; exact Bool.false_ne_true))
      have hstep : slotOf k.wave k.x = k.slot := hslot.symm
      rw [hu, stepSlot_record (by rw [hstep]; exact hd), advanceSlot_next _ _ (by rw [hstep]; exact hlt)]
      simp [hstep]
  · have hbusy : snapBusy s p = true := by
      have : (partOf s p).snapState = 1 := hst
      simp [snapBusy, this]
    rw [hsnap]
    simp only [hen, hbusy, Bool.not_true, Bool.false_eq_true, if_false, if_true]
    rfl
  · rw [hsnap]
    simp only [hen, Bool.not_false, if_true]
  · rw [exec_sysSnapq, execSysSnapq, onSlot_next s k _ hk]
    rfl

/-! ## SYS.cfg (R333) -/

theorem selectorOf_imm {r : Record} {n : BitVec 13} (h : r.a = .imm n) : selectorOf r.a = n.toNat := by rw [h]; rfl

theorem cfgValues : CfgValues := by
  intro r s k hk b h ring old
  have hcfg (n : Nat) (hn : selectorOf r.a = n) (h8 : 8 ≤ n) : exec (.sysCfg r) s = .next (
      if n = 8 then gives (onCore s k.core (fun q => { q with kcCplq := clampTo 4096 0xFFFFFF b })) k r
        (BitVec.ofNat 64 (coreOf s k.core).kcCplq)
      else if n = 9 then gives (onCore s k.core (fun q => { q with kcBintmr := clampTo 1 0xFFFF b })) k r
        (BitVec.ofNat 64 (coreOf s k.core).kcBintmr)
      else if h = 0 then gives (ring s h) k r old
      else match (resolve s k.wave.part (coreOf s k.core).world 1 h 5 1 0 0 (h.setWidth 64)).2 with
        | .error f => trapFails (resolve s k.wave.part (coreOf s k.core).world 1 h 5 1 0 0 (h.setWidth 64)).1 k (.sysCfg r)
            (k.lanes.map (fun l => (l, f))) 0
        | .ok _ => gives (ring (latchAcquire (resolve s k.wave.part (coreOf s k.core).world 1 h 5 1 0 0 (h.setWidth 64)).1 k.core) h)
            k r old) := by
    rw [exec_sysCfg, execSysCfg, onSlot_next s k _ hk, hn]
    exact congrArg _ (if_neg (Nat.not_lt.mpr h8))
  refine ⟨fun ha => ?_, fun ha => ?_, fun ha h0 => ?_, fun ha h0 q e hq => ?_⟩
  · rw [hcfg 8 (selectorOf_imm ha) (by decide), if_pos rfl]
    rfl
  · rw [hcfg 9 (selectorOf_imm ha) (by decide), if_neg (by decide), if_pos rfl]
    rfl
  · rw [hcfg 10 (selectorOf_imm ha) (by decide), if_neg (by decide), if_neg (by decide), if_pos h0, h0]
  · rw [hcfg 10 (selectorOf_imm ha) (by decide), if_neg (by decide), if_neg (by decide), if_neg h0, hq]

/-- A binding that is not busy may change. -/
theorem streamBusy_free {t : Stream} (h : (∀ x ∈ t.slots, x = .free) ∧ t.waiting = []) : streamBusy t = false := by
  have : t.slots.any (fun q => q ≠ .free) = false := List.any_eq_false.mpr (fun x hx => by simp [h.1 x hx])
  simp only [streamBusy, this, h.2]
  rfl

theorem streamBusy_busy {t : Stream} (h : (∃ x ∈ t.slots, x ≠ .free) ∨ t.waiting ≠ []) : streamBusy t = true := by
  rcases h with ⟨x, hx, hne⟩ | h
  · have : t.slots.any (fun q => q ≠ .free) = true := List.any_eq_true.mpr ⟨x, hx, decide_eq_true hne⟩
    rw [streamBusy, this, Bool.true_or]
  · simp [streamBusy, h]

/-- The binding of a stream stays. -/
def bound (s : State) (k : Ctx) (n : Nat) : Bool := ((streamAt (coreOf s k.core) n).map streamBusy).getD false

theorem bound_free {s : State} {k : Ctx} {n : Nat}
    (h : ∀ t, streamAt (coreOf s k.core) n = some t → (∀ x ∈ t.slots, x = .free) ∧ t.waiting = []) : bound s k n = false := by
  unfold bound
  cases ht : streamAt (coreOf s k.core) n with
  | none => rfl
  | some t => exact streamBusy_free (h t ht)

theorem bound_busy {s : State} {k : Ctx} {n : Nat} {t : Stream} (ht : streamAt (coreOf s k.core) n = some t)
    (h : (∃ x ∈ t.slots, x ≠ .free) ∨ t.waiting ≠ []) : bound s k n = true := by
  rw [bound, ht]
  exact streamBusy_busy h

/-- A binding changed, where it may. -/
def rebind (s t : State) (k : Ctx) (r : Record) (n : Nat) (u : Option Stream) : State :=
  if bound s k n then gives t k r (streamHandle (coreOf s k.core) n ||| ((1 : Word) <<< 63))
  else gives (onCore t k.core (fun q => putStream q n u)) k r (streamHandle (coreOf s k.core) n)

theorem cfgStream_unbind {s : State} {k : Ctx} {r : Record} {n : BitVec 13} (hk : ctxOf s = some k) (ha : r.a = .imm n)
    (hn : n.toNat < 8) (h0 : (opB s k r .b64 k.low).setWidth 32 = (0 : W32)) :
    exec (.sysCfg r) s = .next (rebind s s k r n.toNat none) := by
  rw [exec_sysCfg, execSysCfg, onSlot_next s k _ hk, selectorOf_imm ha]
  refine congrArg _ ((if_pos hn).trans ?_)
  rw [configureStream, h0, if_pos rfl]
  rfl

theorem cfgStream_bind {s q : State} {k : Ctx} {r : Record} {n : BitVec 13} {e : ResEntry} {u : Stream} (hk : ctxOf s = some k)
    (ha : r.a = .imm n) (hn : n.toNat < 8) {h : W32} (hh : (opB s k r .b64 k.low).setWidth 32 = h) (h0 : h ≠ 0)
    (hq : resolve s k.wave.part (coreOf s k.core).world 1 h 4 1 0 0 (h.setWidth 64) = (q, .ok e))
    (hu : bindingOf (coreOf s k.core) k.core h e.l = .ok u) :
    exec (.sysCfg r) s = .next (rebind s (latchAcquire q k.core) k r n.toNat (some u)) := by
  rw [exec_sysCfg, execSysCfg, onSlot_next s k _ hk, selectorOf_imm ha]
  refine congrArg _ ((if_pos hn).trans ?_)
  rw [configureStream, hh, if_neg h0, hq]
  dsimp only
  rw [hu]
  rfl

/-- A new binding is of the handle, at the entry's base, with every slot FREE and nothing waiting. -/
theorem bindingOf_fresh {c : Core} {n : Nat} {h : W32} {l : Latch} {u : Stream} (hu : bindingOf c n h l = .ok u) :
    u.handle = h ∧ u.base = l.base ∧ u.ridx = 0 ∧ u.widx = 0 ∧ (∀ x ∈ u.slots, x = .free) ∧ u.waiting = [] := by
  simp only [bindingOf] at hu
  split at hu
  · exact absurd hu nofun
  · split at hu
    · exact absurd hu nofun
    · split at hu
      · exact absurd hu nofun
      · obtain rfl := Except.ok.inj hu
        exact ⟨rfl, rfl, rfl, rfl, fun x hx => List.eq_of_mem_replicate hx, rfl⟩

theorem streamHandle_some {k : Core} {n : Nat} {t : Stream} (h : streamAt k n = some t) : streamHandle k n = t.handle.setWidth 64 := by
  rw [streamHandle, h]
  rfl

theorem cfgStreams : CfgStreams := by
  intro r s k n hk ha hn h old oldHandle free busy
  refine ⟨fun h0 hf => ?_, fun h0 t ht hb => ?_, fun h0 q e hq u hu => ⟨bindingOf_fresh hu, fun hf => ?_, fun t ht hb => ?_⟩⟩
  · rw [cfgStream_unbind hk ha hn h0, rebind, bound_free hf]
    rfl
  · rw [cfgStream_unbind hk ha hn h0, rebind, bound_busy ht hb, streamHandle_some ht]
    rfl
  · rw [cfgStream_bind hk ha hn rfl h0 hq hu, rebind, bound_free hf]
    rfl
  · rw [cfgStream_bind hk ha hn rfl h0 hq hu, rebind, bound_busy ht hb, streamHandle_some ht]
    rfl

/-! ## SYS.dbgset, SYS.haltq (R334, R335) -/

theorem debugSet {s : State} {k : Ctx} {r : Record} {n : BitVec 13} (hk : ctxOf s = some k) (ha : r.a = .imm n) :
    exec (.sysDbgset r) s = .next (advance (onCore s k.core (fun q =>
      setComparator q n.toNat (opB s k r .b64 k.low) (opC s k r .b64 k.low))) k) := by
  rw [exec_sysDbgset, execSysDbgset, onSlot_next s k _ hk, selectorOf_imm ha]

/-- The bits of the waves 0 to `m - 1` of a test. -/
def waveBits (f : Nat → Bool) : Nat → Nat
  | 0 => 0
  | m + 1 => 2 ^ m * (f m).toNat + waveBits f m

theorem waveBits_lt (f : Nat → Bool) (m : Nat) : waveBits f m < 2 ^ m := by
  induction m with
  | zero => exact Nat.one_pos
  | succ m ih =>
    have : (f m).toNat ≤ 1 := Bool.toNat_le _
    rw [waveBits, Nat.pow_succ]
    have := Nat.mul_le_mul_left (2 ^ m) this
    omega

theorem testBit_waveBits (f : Nat → Bool) (m i : Nat) : (waveBits f m).testBit i = (decide (i < m) && f i) := by
  induction m with
  | zero => simp [waveBits]
  | succ m ih =>
    rw [waveBits, Nat.testBit_two_pow_mul_add _ (waveBits_lt f m)]
    split
    · next h => rw [ih]; simp [h, Nat.lt_succ_of_lt h]
    · next h =>
      rcases Nat.lt_or_eq_of_le (Nat.le_of_not_lt h) with hlt | rfl
      · have h1 : ¬ i < m + 1 := by omega
        obtain ⟨d, hd⟩ : ∃ d, i - m = d + 1 := ⟨i - m - 1, by omega⟩
        cases f m <;> simp [h1, hd, Nat.testBit_succ]
      · cases f m <;> simp

/-- A wave of the core is HALTED. -/
def isHalted (k : Core) (w : Nat) : Bool :=
  match smGet none k.waves w with
  | some v => v.halted
  | none => false

/-- A wave of the core is HALTED with its stop posted. -/
def isPosted (k : Core) (w : Nat) : Bool :=
  match smGet none k.waves w with
  | some v => v.halted && (v.stop.map (fun q => q.posted)).getD false
  | none => false

/-- One wave's bits join the word. -/
def haltStep (k : Core) (a w : Nat) : Nat :=
  match smGet none k.waves w with
  | some v => if v.halted then a + 2 ^ w + (if (v.stop.map (fun q => q.posted)).getD false then 2 ^ (16 + w) else 0) else a
  | none => a

theorem haltStep_eq (k : Core) (a w : Nat) :
    haltStep k a w = a + 2 ^ w * (isHalted k w).toNat + 2 ^ 16 * (2 ^ w * (isPosted k w).toNat) := by
  unfold haltStep isHalted isPosted
  cases smGet none k.waves w with
  | none => simp
  | some v =>
    cases hh : v.halted with
    | false => simp [hh]
    | true => cases hp : (v.stop.map (fun q => q.posted)).getD false <;> simp [hh, hp, Nat.pow_add]

theorem foldl_haltStep (k : Core) (m : Nat) :
    (List.range m).foldl (haltStep k) 0 = 2 ^ 16 * waveBits (isPosted k) m + waveBits (isHalted k) m := by
  induction m with
  | zero => rfl
  | succ m ih =>
    rw [List.range_succ, List.foldl_append, ih, List.foldl_cons, List.foldl_nil, haltStep_eq, waveBits, waveBits]
    omega

theorem getLsbD_haltWord (k : Core) (i : Nat) (hi : i < 64) : (haltWord k).getLsbD i
    = if i < 16 then isHalted k i else decide (i - 16 < 16) && isPosted k (i - 16) := by
  have hw : haltWord k = BitVec.ofNat 64 (2 ^ 16 * waveBits (isPosted k) 16 + waveBits (isHalted k) 16) :=
    congrArg (BitVec.ofNat 64) (foldl_haltStep k 16)
  rw [hw, BitVec.getLsbD_ofNat, Nat.testBit_two_pow_mul_add _ (waveBits_lt _ 16), testBit_waveBits, testBit_waveBits]
  split
  · next h => simp [hi, h]
  · simp [hi]

theorem debugRecords : DebugRecords := by
  intro r s k hk
  refine ⟨fun n ha => ⟨_, debugSet hk ha, rfl, fun d hd => coreOf_onCore_other _ _ _ _ hd, fun hn => ?_, fun hn => ?_⟩,
    haltWord (coreOf s k.core), ?_, fun i hi => ?_, fun w hw => ⟨?_, ?_⟩⟩
  · rw [coreOf_onCore, setComparator, if_pos hn]
    exact ⟨smGet_smSet_same .., smGet_smSet_same .., fun m hm => ⟨smGet_smSet_other _ _ _ _ _ hm, smGet_smSet_other _ _ _ _ _ hm⟩, rfl⟩
  · rw [coreOf_onCore, setComparator, if_neg (Nat.not_lt.mpr hn)]
    exact ⟨smGet_smSet_same .., smGet_smSet_same .., fun m hm => ⟨smGet_smSet_other _ _ _ _ _ hm, smGet_smSet_other _ _ _ _ _ hm⟩, rfl⟩
  · rw [exec_sysHaltq, execSysHaltq, onSlot_next s k _ hk]
    rfl
  · by_cases h : i < 64
    · rw [getLsbD_haltWord _ _ h, if_neg (by omega), decide_eq_false (by omega), Bool.false_and]
    · exact BitVec.getLsbD_of_ge _ _ (Nat.le_of_not_lt h)
  · rw [getLsbD_haltWord _ _ (by omega), if_pos hw]
    rfl
  · rw [getLsbD_haltWord _ _ (by omega), if_neg (by omega), Nat.add_sub_cancel_left, decide_eq_true hw, Bool.true_and]
    rfl

/-- Settles O41: each SYS record gives its value and changes what its rule says. -/
theorem systemRecords : Obligations.SystemRecords := ⟨snapRecords, cfgValues, cfgStreams, debugRecords⟩

end Sys2Proof.Proofs.SystemRecords
end

section
/-! SUPPORT. The circuit of a snapshot cut and the end of its stream (R130, R352). -/

open Sys2Proof Sys2Proof.Machine Sys2Proof.Cert
open Sys2Proof.Proofs.Frames Sys2Proof.Proofs.Sync

namespace Sys2Proof.Proofs.Snap

theorem exec_snapMarkArrive (n : Nat) (s : State) : exec (.snapMarkArrive n) s = execSnapMarkArrive n s := rfl
theorem exec_snapTokenReturn (n : Nat) (s : State) : exec (.snapTokenReturn n) s = execSnapTokenReturn n s := rfl
theorem exec_snapStreamComplete (p : Nat) (s : State) : exec (.snapStreamComplete p) s = execSnapStreamComplete p s := rfl

/-- The snapshot of a partition ends as its target answered. -/
def streamEnds (p : Nat) (r : State × Except (BitVec 8) Unit) : State :=
  match r.2 with
  | .ok _ => onPart r.1 p (fun q => { q with snapState := 2, snapPages := [] })
  | .error c => onPart r.1 p (fun q => { q with snapState := 3, snapFault := c, snapPages := [] })

theorem snapshotStreams : SnapshotStreams := by
  intro s t p hst hcut
  have hrun : exec (.snapStreamComplete p) s = .next (streamEnds p (snapTarget s p (snapImage s p).1 (snapImage s p).2)) := by
    rw [exec_snapStreamComplete, execSnapStreamComplete, hcut]
    refine congrArg _ (if_neg ?_)
    simp [hst]
  rw [hrun]
  exact ⟨fun h => by rw [h]; rfl, fun c h => by rw [h]; rfl⟩

theorem snapshotCutCircuit : SnapshotCutCircuit := by
  intro s c n hcut hn
  refine ⟨fun hm => ?_, fun hm hr => ?_⟩
  · have hrun : exec (.snapMarkArrive n) s = .next (if c.marked.length + 1 = Config.numSlices then
        wakeCutSlot { s with cut := some { c with marked := c.marked ++ [n] } } { c with marked := c.marked ++ [n] }
        else { s with cut := some { c with marked := c.marked ++ [n] } }) := by
      rw [exec_snapMarkArrive, execSnapMarkArrive, hcut]
      simp only [hm, Nat.not_le.mpr hn, decide_false, Bool.or_self, Bool.false_eq_true, if_false, List.length_append,
        List.length_singleton]
    refine ⟨_, hrun, ?_, fun hne => ?_, fun heq v hv hw => ?_⟩
    · split
      · rw [wakeCutSlot, onSlotOf_onlyCores]
      · rfl
    · rw [if_neg hne]
    · rw [if_pos heq, wakeCutSlot, waveOf_onSlotOf]
      have hv' : waveOf { s with cut := some { c with marked := c.marked ++ [n] } } c.core c.wslot = some v := hv
      rw [hv']
      exact ⟨_, rfl, by simp [hw], by simp [hw]⟩
  · rw [exec_snapTokenReturn, execSnapTokenReturn, hcut]
    simp only [hr, Nat.not_le.mpr hn, Nat.not_lt.mpr hm, decide_false, Bool.or_self, Bool.false_eq_true, if_false, List.length_append,
      List.length_singleton]

/-- Settles O50: a slice is marked and released once, the last one ends the circuit, and the stream ends as its target answers. -/
theorem snapshots : Obligations.Snapshots := ⟨snapshotCutCircuit, snapshotStreams⟩

end Sys2Proof.Proofs.Snap
end

section
/-! SUPPORT. Vectors, MG_TLBINV, CLMAP and CTL, the management registers (R103, R347, R350, R354, R357). -/

open Sys2Proof Sys2Proof.Machine Sys2Proof.Cert
open Sys2Proof.Proofs.Frames Sys2Proof.Proofs.Sync

namespace Sys2Proof.Proofs.Manage

theorem exec_msiXUnmask (p n : Nat) (s : State) : exec (.msiXUnmask p n) s = execMsiXUnmask p n s := rfl
theorem exec_mgTlbinv (p : Nat) (a : RegAccess) (s : State) : exec (.mgTlbinv p a) s = execMgTlbinv p a s := rfl
theorem exec_mgPartitionConfig (p off : Nat) (v : Word) (s : State) :
    exec (.mgPartitionConfig p off v) s = execMgPartitionConfig p off v s := rfl
theorem exec_mgStatus (s : State) : exec .mgStatus s = execMgStatus s := rfl
theorem exec_mgRegisterWrite (off : Nat) (v : Word) (s : State) : exec (.mgRegisterWrite off v) s = execMgRegisterWrite off v s := rfl

/-! ## Vectors (R347) -/

/-- A vector unmasked: its bits are clear. -/
def unmask (s : State) (p n : Nat) : State := onPart s p (fun q =>
  { q with msixMask := q.msixMask.filter (fun v => v ≠ n), msixPend := q.msixPend.filter (fun v => v ≠ n) })

theorem unmask_next {s : State} {p n : Nat} (hf : functionOf s p = true) : exec (.msiXUnmask p n) s = .next (
    if (partOf s p).msixMask.contains n && (partOf s p).msixPend.contains n then
      { unmask s p n with msix := s.msix ++ [(p, n)] } else unmask s p n) := by
  rw [exec_msiXUnmask, execMsiXUnmask, hf]
  rfl

theorem not_mem_unmask (s : State) (p n : Nat) : n ∉ (partOf (unmask s p n) p).msixMask ∧ n ∉ (partOf (unmask s p n) p).msixPend := by
  rw [unmask, partOf_onPart]
  simp

/-! ## MG_TLBINV (R103) -/

/-- What an invalidation of a partition may change: its list, cached translations of it, the dies' Sinter stores. -/
structure InvStep (p : Nat) (s t : State) : Prop where
  rest : t = { s with parts := t.parts, tlb := t.tlb, dies := t.dies }
  inTlb : ∀ x ∈ t.tlb, x ∈ s.tlb
  others : ∀ x ∈ s.tlb, x.part ≠ p → x ∈ t.tlb

theorem InvStep.refl (p : Nat) (s : State) : InvStep p s s := ⟨rfl, fun _ h => h, fun _ h _ => h⟩

theorem InvStep.trans {p : Nat} {s t u : State} (h : InvStep p s t) (g : InvStep p t u) : InvStep p s u :=
  ⟨by rw [g.rest, h.rest], fun x hx => h.inTlb x (g.inTlb x hx), fun x hx hp => g.others x (h.others x hx hp) hp⟩

/-- Whether a range is in use does not depend on what invalidations change. -/
theorem InvStep.rangeInUse {p : Nat} {s t : State} (h : InvStep p s t) (base : Word) (n : Nat) :
    rangeInUse t base n p = Machine.rangeInUse s base n p := by
  rw [h.rest]; rfl

/-- A range dropped from the caches, and Sinter entries of the partition. -/
theorem invStep_drop (s : State) (p : Nat) (base : Word) (n : Nat) (hit : SEntry → Bool) :
    InvStep p s (dropEntries (dropRange s p base n) p hit) := by
  refine ⟨rfl, fun x hx => (List.mem_filter.mp hx).1, fun x hx hp => List.mem_filter.mpr ⟨hx, ?_⟩⟩
  simp [hp]

theorem invStep_onPart (s : State) (p : Nat) (f : Part → Part) : InvStep p s (onPart s p f) :=
  ⟨rfl, fun _ h => h, fun _ h _ => h⟩

theorem completeInv_spec (s : State) (p : Nat) (q : Word × Nat) : InvStep p s (completeInv s p q)
    ∧ ∀ x, x ∈ (partOf (completeInv s p q) p).tlbinv ↔ x ∈ (partOf s p).tlbinv ∧ (x = q → rangeInUse s q.1 q.2 p = true) := by
  unfold completeInv
  split
  · next h => exact ⟨InvStep.refl .., fun x => by simp [h]⟩
  · next h =>
    refine ⟨(invStep_drop ..).trans (invStep_onPart ..), fun x => ?_⟩
    rw [partOf_onPart]
    have hparts : partOf (dropEntries (dropRange s p q.1 q.2) p (fun e => e.pages.any (inRange q.1 q.2))) p = partOf s p := rfl
    rw [hparts]
    simp [List.mem_filter, h]

/-- Completing a list of invalidations leaves those of ranges in use, and those not in the list. -/
theorem foldl_completeInv (p : Nat) (qs : List (Word × Nat)) (s : State) :
    InvStep p s (qs.foldl (fun s q => completeInv s p q) s)
    ∧ ∀ x, x ∈ (partOf (qs.foldl (fun s q => completeInv s p q) s) p).tlbinv
        ↔ x ∈ (partOf s p).tlbinv ∧ (x ∈ qs → rangeInUse s x.1 x.2 p = true) := by
  induction qs generalizing s with
  | nil => exact ⟨InvStep.refl .., fun x => by simp⟩
  | cons q qs ih =>
    obtain ⟨hstep, hmem⟩ := completeInv_spec s p q
    obtain ⟨hrest, hall⟩ := ih (completeInv s p q)
    refine ⟨hstep.trans hrest, fun x => ?_⟩
    rw [List.foldl_cons, hall, hmem, hstep.rangeInUse, List.mem_cons]
    constructor
    · rintro ⟨⟨hx, hq⟩, hqs⟩
      refine ⟨hx, ?_⟩
      rintro (rfl | h)
      · exact hq rfl
      · exact hqs h
    · rintro ⟨hx, h⟩
      exact ⟨⟨hx, fun hq => hq ▸ h (.inl hq)⟩, fun hqs => h (.inr hqs)⟩

theorem settleInv_spec (s : State) (p : Nat) : InvStep p s (settleInv s p)
    ∧ ∀ x, x ∈ (partOf (settleInv s p) p).tlbinv ↔ x ∈ (partOf s p).tlbinv ∧ rangeInUse s x.1 x.2 p = true := by
  obtain ⟨hstep, hmem⟩ := foldl_completeInv p (partOf s p).tlbinv s
  refine ⟨hstep, fun x => (hmem x).trans ?_⟩
  exact ⟨fun ⟨hx, h⟩ => ⟨hx, h hx⟩, fun ⟨hx, h⟩ => ⟨hx, fun _ => h⟩⟩

/-- The state of a write of MG_TLBINV before what can complete does. -/
def invWritten (s : State) (p : Nat) (v : Word) : State :=
  onPart (dropEntries (dropRange s p (partOf s p).tlbva v.toNat) p
    (fun e => e.marker.isNone && e.pages.any (inRange (partOf s p).tlbva v.toNat))) p
    (fun q => { q with tlbinv := q.tlbinv ++ [((partOf s p).tlbva, v.toNat)] })

theorem tlbinv_write (s : State) (p : Nat) (v : Word) :
    exec (.mgTlbinv p (.write v)) s = .next (settleInv (invWritten s p v) p) := rfl

theorem invStep_invWritten (s : State) (p : Nat) (v : Word) : InvStep p s (invWritten s p v) :=
  (invStep_drop ..).trans (invStep_onPart ..)

/-- No cached translation of the range is left. -/
theorem invWritten_tlb (s : State) (p : Nat) (v : Word) {x : Tlb} (hx : x ∈ (invWritten s p v).tlb) (hp : x.part = p) :
    ¬ (pageOf (partOf s p).tlbva ≤ x.page ∧ x.page < pageOf (partOf s p).tlbva + v.toNat) := by
  have hx' : x ∈ s.tlb.filter (fun t => !(decide (t.part = p) && decide (pageOf (partOf s p).tlbva < t.page + 1)
      && decide (t.page < pageOf (partOf s p).tlbva + v.toNat))) := hx
  have := (List.mem_filter.mp hx').2
  rintro ⟨h1, h2⟩
  simp [hp, h2, Nat.lt_succ_of_le h1] at this

theorem vectorsAndInvalidation : VectorsAndInvalidation := by
  intro s p
  refine ⟨fun n hf => ⟨_, unmask_next hf, ?_⟩, fun v => ⟨_, tlbinv_write s p v, fun x => ?_, fun x hx hne => ?_, fun x hx => ?_,
    fun x hx hp => ?_⟩, ⟨_, rfl, rfl, (settleInv_spec s p).2⟩, fun base n h => ?_, fun h => ?_⟩
  · obtain ⟨hm, hp⟩ := not_mem_unmask s p n
    refine ⟨?_, ?_, fun h1 h2 => ?_, fun h => ?_⟩
    · split
      · exact hm
      · exact hm
    · split
      · exact hp
      · exact hp
    · rw [if_pos (by simp [h1, h2])]
    · rw [if_neg (by simp [h])]
      rfl
  · rw [(settleInv_spec _ p).2, (invStep_invWritten s p v).rangeInUse, invWritten, partOf_onPart]
    have hparts : partOf (dropEntries (dropRange s p (partOf s p).tlbva v.toNat) p
      (fun e => e.marker.isNone && e.pages.any (inRange (partOf s p).tlbva v.toNat))) p = partOf s p := rfl
    rw [hparts]
    simp only [List.mem_append, List.mem_singleton]
  · exact (settleInv_spec _ p).1.others x ((invStep_invWritten s p v).others x hx hne) hne
  · exact (invStep_invWritten s p v).inTlb x ((settleInv_spec _ p).1.inTlb x hx)
  · exact invWritten_tlb s p v ((settleInv_spec _ p).1.inTlb x hx) hp
  · obtain ⟨a, ha, hu⟩ := h
    rw [rangeInUse, List.any_eq_true.mpr ⟨a, ha, hu⟩, Bool.true_or]
  · have hidle : settleInv s p = s := by rw [settleInv, h]; rfl
    rw [exec_mgTlbinv, execMgTlbinv]
    simp only [hidle, h, if_true]
    rfl

/-! ## CLMAP, CTL, MG_STATUS (R350, R355, R357) -/

theorem getLsbD_newClmap (q : Part) {i : Nat} (hi : i < 4) (v : Word) (n : Nat) : (newClmap q i v).getLsbD n
    = if 64 * i ≤ n ∧ n < 64 * i + 64 then v.getLsbD (n - 64 * i) && decide (n < 208) else q.clmap.getLsbD n && decide (n < 208) := by
  simp only [newClmap, BitVec.getLsbD_and, BitVec.getLsbD_or, BitVec.getLsbD_not, BitVec.getLsbD_shiftLeft, BitVec.getLsbD_setWidth,
    BitVec.getLsbD_allOnes]
  by_cases hn : n < 256
  · by_cases h1 : 64 * i ≤ n
    · by_cases h2 : n < 64 * i + 64
      · have : n - 64 * i < 64 := by omega
        have h3 : n - 64 * i < 256 := by omega
        have h4 : ¬ n < 64 * i := by omega
        simp [hn, h1, h2, this, h3, h4]
      · have : ¬ n - 64 * i < 64 := by omega
        have hv : v.getLsbD (n - 64 * i) = false := BitVec.getLsbD_of_ge _ _ (by omega)
        simp [hn, h1, h2, this, hv]
    · have h4 : n < 64 * i := by omega
      simp [hn, h1, h4]
  · have h1 : ¬ n < 208 := by omega
    simp [hn, h1]

/-- MG_STATUS from its fields. -/
def statusOf (stage : Nat) (d0 d1 d2 d3 cfg fw : Bool) : Word :=
  BitVec.ofNat 64 (stage + ([d0, d1, d2, d3].zipIdx.foldl (fun a d => if d.1 then a + 4 * 2 ^ d.2 else a) 0)
    + (if cfg then 2 ^ 6 else 0) + (if fw then 2 ^ 7 else 0))

theorem statusOf_fields : ∀ (stage : Fin 4) (d0 d1 d2 d3 cfg fw : Bool),
    (statusOf stage.val d0 d1 d2 d3 cfg fw).toNat % 4 = stage.val
    ∧ (statusOf stage.val d0 d1 d2 d3 cfg fw).getLsbD 6 = cfg ∧ (statusOf stage.val d0 d1 d2 d3 cfg fw).getLsbD 7 = fw
    ∧ (statusOf stage.val d0 d1 d2 d3 cfg fw).getLsbD 2 = d0 ∧ (statusOf stage.val d0 d1 d2 d3 cfg fw).getLsbD 3 = d1
    ∧ (statusOf stage.val d0 d1 d2 d3 cfg fw).getLsbD 4 = d2 ∧ (statusOf stage.val d0 d1 d2 d3 cfg fw).getLsbD 5 = d3 := by
  decide

theorem statusWord_eq (s : State) : statusWord s
    = statusOf (s.stage % 4) (dieOf s 0).joined (dieOf s 1).joined (dieOf s 2).joined (dieOf s 3).joined s.cfgRef s.fwFail := rfl

theorem statusWord_fields (s : State) : (statusWord s).toNat % 4 = s.stage % 4 ∧ (statusWord s).getLsbD 6 = s.cfgRef
    ∧ (statusWord s).getLsbD 7 = s.fwFail ∧ ∀ d, d < 4 → (statusWord s).getLsbD (2 + d) = (dieOf s d).joined := by
  rw [statusWord_eq]
  obtain ⟨h0, h6, h7, h2, h3, h4, h5⟩ := statusOf_fields ⟨s.stage % 4, Nat.mod_lt _ (by decide)⟩ (dieOf s 0).joined
    (dieOf s 1).joined (dieOf s 2).joined (dieOf s 3).joined s.cfgRef s.fwFail
  refine ⟨h0, h6, h7, fun d hd => ?_⟩
  match d, hd with
  | 0, _ => exact h2
  | 1, _ => exact h3
  | 2, _ => exact h4
  | 3, _ => exact h5
  | _ + 4, h => exact absurd h (by omega)

theorem config_clmap {p i : Nat} (hp : p < 8) (hi : i < 4) (v : Word) (s : State) :
    exec (.mgPartitionConfig p (8 * i) v) s = .next (if clmapRefused s p (newClmap (partOf s p) i v) then { s with cfgRef := true }
      else onPart s p (fun q => { q with clmap := newClmap (partOf s p) i v })) := by
  have hoff : (decide (8 * i < 0x20) && decide (8 * i % 8 = 0)) = true := by
    rw [decide_eq_true (by omega), decide_eq_true (by omega)]; rfl
  rw [exec_mgPartitionConfig, execMgPartitionConfig, if_neg (Nat.not_le.mpr hp), if_pos hoff, Nat.mul_div_cancel_left _ (by decide)]

theorem config_ctl {p : Nat} (hp : p < 8) (v : Word) (s : State) :
    exec (.mgPartitionConfig p 0x20 v) s
      = .next (if ctlRefused s p (v.toNat % 8) (v.toNat / 2 ^ 5 % 2 ^ 16) then { s with cfgRef := true }
        else onPart s p (fun q =>
          { q with rsv := v.toNat % 8, world := v.getLsbD 3, bothw := v.getLsbD 4, asid := v.toNat / 2 ^ 5 % 2 ^ 16 })) := by
  rw [exec_mgPartitionConfig, execMgPartitionConfig, if_neg (Nat.not_le.mpr hp)]
  rfl

theorem partitionConfiguration : PartitionConfiguration := by
  intro s p v hp
  refine ⟨fun i hi => ⟨fun h => ?_, fun h => ?_, getLsbD_newClmap _ hi v⟩, fun h => ?_, fun h => ?_, _, rfl, rfl, statusWord_fields s⟩
  · rw [config_clmap hp hi, h]
    rfl
  · rw [config_clmap hp hi, h]
    rfl
  · rw [config_ctl hp, h, if_neg Bool.false_ne_true]
    exact ⟨_, rfl, partOf_onPart s p _, rfl⟩
  · rw [config_ctl hp, h]
    rfl

/-! ## Management registers (R351, R354, R357) -/

/-- The offset of a register of the secure ranges. -/
def isSecure (off : Nat) : Bool := 0x100 ≤ off && off < 0x200 && off % 8 = 0

theorem register_base {off : Nat} (h : isSecure off = true) (h16 : off % 16 = 0) (v : Word) (s : State) :
    exec (.mgRegisterWrite off v) s
      = .next { s with secBase := smSet 0 s.secBase ((off - 0x100) / 16) (v &&& 0x800FFFFFFFFFF000) } := by
  have hne : off ≠ 0x20 := by rintro rfl; exact absurd h (by decide)
  rw [exec_mgRegisterWrite, execMgRegisterWrite, if_neg hne]
  refine congrArg _ ((if_pos h).trans ?_)
  simp only [h16, if_true]

theorem register_limit {off : Nat} (h : isSecure off = true) (h16 : off % 16 ≠ 0) (v : Word) (s : State) :
    exec (.mgRegisterWrite off v) s
      = .next { s with secLimit := smSet 0 s.secLimit ((off - 0x100) / 16) (v &&& 0x000FFFFFFFFFF000) } := by
  have hne : off ≠ 0x20 := by rintro rfl; exact absurd h (by decide)
  rw [exec_mgRegisterWrite, execMgRegisterWrite, if_neg hne]
  refine congrArg _ ((if_pos h).trans ?_)
  simp only [h16, if_false]

theorem mgWord_secure {off : Nat} (h1 : 0x100 ≤ off) (h2 : off < 0x200) (t : State) :
    mgWord t off = if off % 16 = 0 then smGet 0 t.secBase ((off - 0x100) / 16) else smGet 0 t.secLimit ((off - 0x100) / 16) := by
  have hoff : (decide (0x100 ≤ off) && decide (off < 0x200)) = true := by simp [h1, h2]
  rw [mgWord, if_neg (by omega), if_neg (by omega), if_neg (by omega), if_neg (by omega), if_pos hoff]

section
variable {p off : Nat} (hp : p < 8) (hoff : off < 0x1000)
include hp hoff

theorem register_part (v : Word) (s : State) :
    exec (.mgRegisterWrite (0x1000 * (p + 1) + off) v) s = .next (writePartReg s p off v) := by
  have h1 : (decide (0x1000 ≤ 0x1000 * (p + 1) + off) && decide (0x1000 * (p + 1) + off < 0x9000)) = true := by
    rw [decide_eq_true (by omega), decide_eq_true (by omega)]; rfl
  have h2 : ¬ (decide (0x100 ≤ 0x1000 * (p + 1) + off) && decide (0x1000 * (p + 1) + off < 0x200)
      && decide ((0x1000 * (p + 1) + off) % 8 = 0)) = true := by
    rw [decide_eq_false (p := 0x1000 * (p + 1) + off < 0x200) (by omega)]; simp
  rw [exec_mgRegisterWrite, execMgRegisterWrite, if_neg (by omega), if_neg h2, if_pos h1,
    show (0x1000 * (p + 1) + off) / 0x1000 - 1 = p by omega, show (0x1000 * (p + 1) + off) % 0x1000 = off by omega]

theorem mgWord_part (t : State) : mgWord t (0x1000 * (p + 1) + off) = readPartReg (partOf t p) off := by
  have h1 : (decide (0x1000 ≤ 0x1000 * (p + 1) + off) && decide (0x1000 * (p + 1) + off < 0x9000)) = true := by
    rw [decide_eq_true (by omega), decide_eq_true (by omega)]; rfl
  have h2 : ¬ (decide (0x100 ≤ 0x1000 * (p + 1) + off) && decide (0x1000 * (p + 1) + off < 0x200)) = true := by
    rw [decide_eq_false (p := 0x1000 * (p + 1) + off < 0x200) (by omega)]; simp
  rw [mgWord, if_neg (by omega), if_neg (by omega), if_neg (by omega), if_neg (by omega), if_neg h2, if_pos h1,
    show (0x1000 * (p + 1) + off) / 0x1000 - 1 = p by omega, show (0x1000 * (p + 1) + off) % 0x1000 = off by omega]

end

/-- A register without a row of its own is a field of its partition. -/
theorem writePartReg_field {off : Nat} (h : off ∈ [0x28, 0x30, 0x38, 0x40, 0x58, 0x68, 0x70, 0x78, 0x80, 0x90, 0x98, 0xA0])
    (s : State) (p : Nat) (v : Word) : readPartReg (partOf (writePartReg s p off v) p) off = v
      ∧ writePartReg s p off v = { s with parts := (writePartReg s p off v).parts }
      ∧ ∀ q, q ≠ p → partOf (writePartReg s p off v) q = partOf s q := by
  simp only [List.mem_cons, List.not_mem_nil, or_false] at h
  rcases h with rfl | rfl | rfl | rfl | rfl | rfl | rfl | rfl | rfl | rfl | rfl | rfl <;>
    exact ⟨by simp [writePartReg, readPartReg], rfl, fun q hq => by simp only [writePartReg, partOf_onPart_other _ _ _ _ hq]⟩

/-- KC_RLIM of each of some cores is set, and nothing of the partitions. -/
theorem foldl_kcRlim (v : Word) (cs : List Nat) (s : State) :
    (∀ c, (coreOf (cs.foldl (fun s c => onCore s c (fun k => { k with kcRlim := v })) s) c).kcRlim
      = if c ∈ cs then v else (coreOf s c).kcRlim)
    ∧ (cs.foldl (fun s c => onCore s c (fun k => { k with kcRlim := v })) s).parts = s.parts := by
  induction cs generalizing s with
  | nil => exact ⟨fun c => rfl, rfl⟩
  | cons d cs ih =>
    obtain ⟨hc, hp⟩ := ih (onCore s d (fun k => { k with kcRlim := v }))
    refine ⟨fun c => ?_, hp⟩
    rw [List.foldl_cons, hc]
    by_cases hm : c ∈ cs
    · simp [hm]
    · by_cases hd : c = d
      · subst hd
        simp [hm]
      · rw [coreOf_onCore_other _ _ _ _ hd]
        simp [hm, hd]

theorem managementRegisters : ManagementRegisters := by
  intro s v
  refine ⟨⟨_, rfl, rfl, rfl⟩, fun n hn => ?_, fun p off hp hm => ?_, fun p hp => ?_⟩
  · have h16 : (0x100 + 16 * n) % 16 = 0 := by omega
    have h8 : (0x108 + 16 * n) % 16 ≠ 0 := by omega
    have hsec (off : Nat) (h1 : 0x100 ≤ off) (h2 : off < 0x200) (h3 : off % 8 = 0) : isSecure off = true := by
      simp [isSecure, h1, h2, h3]
    have hi : (0x100 + 16 * n - 0x100) / 16 = n := by omega
    have hsub : 0x108 + 16 * n - 0x100 = 8 + 16 * n := by omega
    have hj : (0x108 + 16 * n - 0x100) / 16 = n := by rw [hsub]; omega
    refine ⟨_, _, register_base (hsec _ (by omega) (by omega) (by omega)) h16 v s, ?_, rfl,
      register_limit (hsec _ (by omega) (by omega) (by omega)) h8 v s, ?_, rfl⟩
    · rw [mgWord_secure (by omega) (by omega), if_pos h16, hi]
      exact smGet_smSet_same ..
    · rw [mgWord_secure (by omega) (by omega), if_neg h8, hj]
      exact smGet_smSet_same ..
  · have hoff : off < 0x1000 := by
      simp only [List.mem_cons, List.not_mem_nil, or_false] at hm
      omega
    obtain ⟨hread, hrest, hother⟩ := writePartReg_field hm s p v
    exact ⟨_, register_part hp hoff v s, (mgWord_part hp hoff _).trans hread, hrest, hother⟩
  · obtain ⟨hcores, hparts⟩ := foldl_kcRlim (v &&& 0xFFFFFFFF) (partCores s p) (onPart s p (fun q => { q with pwr := v &&& 0xFFFFFFFF }))
    refine ⟨_, register_part hp (by omega) v s, fun c hc => ?_, ?_⟩
    · exact (hcores c).trans (if_pos hc)
    · rw [mgWord_part hp (by omega)]
      have hp' : partOf (writePartReg s p 0x88 v) p = partOf (onPart s p (fun q => { q with pwr := v &&& 0xFFFFFFFF })) p :=
        congrArg (fun ps => smGet Part.reset ps p) hparts
      rw [hp', partOf_onPart]
      rfl

/-- Settles O52: vectors, invalidations, configuration and registers each change what their rules say. -/
theorem managementInterface : Obligations.ManagementInterface :=
  ⟨vectorsAndInvalidation, partitionConfiguration, managementRegisters⟩

end Sys2Proof.Proofs.Manage
end

section
/-! SUPPORT. The limiter's window, bring-up, reset, ports, links and clocks (R13, R345, R354 to R356, R394). -/

open Sys2Proof Sys2Proof.Machine Sys2Proof.Cert
open Sys2Proof.Proofs.Frames Sys2Proof.Proofs.TenderStream

namespace Sys2Proof.Proofs.Life

theorem exec_rlimWindow (c : Nat) (s : State) : exec (.rlimWindow c) s = execRlimWindow c s := rfl
theorem exec_firmwareVerify (n : Nat) (im sig : List Byte) (s : State) :
    exec (.firmwareVerify n im sig) s = execFirmwareVerify n im sig s := rfl
theorem exec_attestationRequest (nonce : List Byte) (s : State) : exec (.attestationRequest nonce) s = execAttestationRequest nonce s := rfl
theorem exec_dieSelftest (d : Nat) (pass : Bool) (s : State) : exec (.dieSelftest d pass) s = execDieSelftest d pass s := rfl
theorem exec_fabricPortDown (n : Nat) (s : State) : exec (.fabricPortDown n) s = execFabricPortDown n s := rfl
theorem exec_clockChange (d : Option Nat) (m : Nat) (s : State) : exec (.clockChange d m) s = execClockChange d m s := rfl

/-! ## The limiter's window (R354) -/

theorem limiterWindowEnds : LimiterWindowEnds := by
  intro s core
  refine ⟨_, rfl, rfl, fun d hd => coreOf_onCore_other _ _ _ _ hd, fun h => ?_, fun h => ?_⟩
  · rw [coreOf_onCore, if_neg h]
  · rw [coreOf_onCore, if_pos h]

/-! ## Firmware and attestation (R356) -/

theorem firmware_next (n : Nat) (im sig : List Byte) (s : State) : exec (.firmwareVerify n im sig) s
    = .next (if Config.signatureOk s.fusedKey im sig then { s with fwImages := smSet [] s.fwImages n im } else { s with fwFail := true }) :=
  rfl

/-- An attestation begins with the nonce. -/
theorem attestBody_take (s : State) (nonce : List Byte) : (attestBody s nonce).take nonce.length = nonce := by
  simp only [attestBody, List.append_assoc, List.take_left]

/-! ## Dies (R355, R400) -/

theorem dieOf_onDie {s : State} {d : Nat} (h : d < s.dies.length) (f : Die → Die) : dieOf (onDie s d f) d = f (dieOf s d) := by
  simp only [dieOf, onDie, setAt_eq_set, List.getD_eq_getElem?_getD, List.getElem?_set_self h, Option.getD_some]

theorem dieOf_onDie_other {s : State} {d e : Nat} (h : e ≠ d) (f : Die → Die) : dieOf (onDie s d f) e = dieOf s e := by
  simp only [dieOf, onDie, setAt_eq_set, List.getD_eq_getElem?_getD, List.getElem?_set_ne h.symm]

theorem onDie_length (s : State) (d : Nat) (f : Die → Die) : (onDie s d f).dies.length = s.dies.length := by
  simp [onDie, setAt_eq_set]

/-- A die that may be tested. -/
theorem selftest_next {s : State} {d : Nat} (hd : d < 4) (hj : (dieOf s d).joined = false) (hf : (dieOf s d).failed = false)
    (hs : d = 0 ∨ s.stage ≠ 0) (pass : Bool) : exec (.dieSelftest d pass) s = .next (
      if !pass then
        let s := onDie s d (fun d => { d with failed := true })
        if d ≠ 0 && s.stage = 1 then { s with stage := 2 } else s
      else if d = 0 then firstDie s
      else
        let s := onDie s d (fun d => { d with joined := true, mhz := 4000 })
        fullService (if s.stage = 1 then { s with stage := 2 } else s)) := by
  rw [exec_dieSelftest, execDieSelftest]
  refine congrArg _ (if_neg ?_)
  rcases hs with rfl | hs <;> simp [*]

theorem firstDie_joins {s : State} (hs : s.stage = 0) (hi : s.fwImages ≠ []) (hk : s.stacksFailed = []) : firstDie s
    = onDie { s with stage := 1 } 0 (fun d => { d with joined := true, mhz := 1000 }) := by
  simp [firstDie, hs, hi, hk]

theorem firstDie_spec {s : State} (hl : s.dies.length = 4) (hj : (dieOf s 0).joined = false) (hf : (dieOf s 0).failed = false)
    (hs : s.stage = 0) (hi : s.fwImages ≠ []) (hk : s.stacksFailed = []) :
    ∃ t, exec (.dieSelftest 0 true) s = .next t ∧ t.stage = 1 ∧ (dieOf t 0).joined = true ∧ (dieOf t 0).mhz = 1000 := by
  have hd : dieOf (onDie { s with stage := 1 } 0 (fun d => { d with joined := true, mhz := 1000 })) 0
      = { dieOf s 0 with joined := true, mhz := 1000 } := dieOf_onDie (by simp [hl]) _
  refine ⟨_, (selftest_next (by decide) hj hf (.inl rfl) true).trans (congrArg _ (firstDie_joins hs hi hk)), rfl, ?_, ?_⟩
  · rw [hd]
  · rw [hd]

/-- The state once a die after the first has passed, before full service. -/
def joined (s : State) (d : Nat) : State := onDie { s with stage := 2 } d (fun d => { d with joined := true, mhz := 4000 })

theorem joined_next {s : State} {d : Nat} (hd0 : 0 < d) (hd : d < 4) (hs : s.stage = 1 ∨ s.stage = 2)
    (hj : (dieOf s d).joined = false) (hf : (dieOf s d).failed = false) :
    exec (.dieSelftest d true) s = .next (fullService (joined s d)) := by
  rw [selftest_next hd hj hf (.inr (by omega))]
  have hne : d ≠ 0 := by omega
  refine congrArg _ ((if_neg Bool.false_ne_true).trans ((if_neg hne).trans (congrArg fullService ?_)))
  rcases hs with h | h
  · rw [onDie_stage, if_pos h]
    rfl
  · rw [onDie_stage, if_neg (by omega), joined, ← h]

theorem dieOf_joined {s : State} {d : Nat} (hl : s.dies.length = 4) (hd : d < 4) :
    dieOf (joined s d) d = { dieOf s d with joined := true, mhz := 4000 } := dieOf_onDie (by simp [hl, hd]) _

theorem dieOf_joined_other {s : State} {d e : Nat} (h : e ≠ d) : dieOf (joined s d) e = dieOf s e := dieOf_onDie_other h _

/-- Whether every die has joined once a die has. -/
theorem allJoined_iff {s : State} {d : Nat} (hl : s.dies.length = 4) (hd : d < 4) :
    (List.range 4).all (fun e => (dieOf (joined s d) e).joined) = true ↔ ∀ e, e < 4 → e ≠ d → (dieOf s e).joined = true := by
  rw [List.all_eq_true]
  refine ⟨fun h e he hne => ?_, fun h e he => ?_⟩
  · rw [← dieOf_joined_other hne]
    exact h e (List.mem_range.mpr he)
  · by_cases hne : e = d
    · rw [hne, dieOf_joined hl hd]
    · rw [dieOf_joined_other hne]
      exact h e (List.mem_range.mp he) hne

theorem fullService_last {s : State} (hs : s.stage = 2) (h : (List.range 4).all (fun d => (dieOf s d).joined) = true) :
    fullService s = onDie { s with stage := 3 } 0 (fun d => { d with mhz := 4000 }) := by
  rw [fullService, h, hs]
  rfl

theorem fullService_not {s : State} (h : (List.range 4).all (fun d => (dieOf s d).joined) = false) : fullService s = s := by
  rw [fullService, h, Bool.and_false]
  rfl

theorem laterDie_passes {s : State} {d : Nat} (hl : s.dies.length = 4) (hd0 : 0 < d) (hd : d < 4)
    (hs : s.stage = 1 ∨ s.stage = 2) (hj : (dieOf s d).joined = false) (hf : (dieOf s d).failed = false) :
    ∃ t, exec (.dieSelftest d true) s = .next t ∧ (dieOf t d).joined = true ∧ (dieOf t d).mhz = 4000
      ∧ ((∀ e, e < 4 → e ≠ d → (dieOf s e).joined = true) → t.stage = 3 ∧ (dieOf t 0).mhz = 4000)
      ∧ ((∃ e, e < 4 ∧ e ≠ d ∧ (dieOf s e).joined = false) → t.stage = 2) := by
  refine ⟨_, joined_next hd0 hd hs hj hf, ?_⟩
  by_cases hall : (List.range 4).all (fun e => (dieOf (joined s d) e).joined) = true
  · have h0 : 0 < ({ joined s d with stage := 3 } : State).dies.length := by
      have hlen : (joined s d).dies.length = s.dies.length := onDie_length ..
      exact hlen ▸ hl ▸ (by decide : 0 < 4)
    have hdie : dieOf (onDie { joined s d with stage := 3 } 0 (fun d => { d with mhz := 4000 })) d = dieOf (joined s d) d :=
      dieOf_onDie_other (Nat.ne_of_gt hd0) _
    rw [fullService_last rfl hall, hdie, dieOf_joined hl hd]
    refine ⟨rfl, rfl, fun _ => ⟨rfl, by rw [dieOf_onDie h0]⟩, fun ⟨e, he, hne, hno⟩ => ?_⟩
    exact absurd ((allJoined_iff hl hd).mp hall e he hne) (by simp [hno])
  · rw [fullService_not (Bool.not_eq_true _ ▸ hall), dieOf_joined hl hd]
    exact ⟨rfl, rfl, fun h => absurd ((allJoined_iff hl hd).mpr h) hall, fun _ => rfl⟩

theorem laterDie_fails {s : State} {d : Nat} (hl : s.dies.length = 4) (hd0 : 0 < d) (hd : d < 4)
    (hs : s.stage = 1 ∨ s.stage = 2) (hj : (dieOf s d).joined = false) (hf : (dieOf s d).failed = false) :
    ∃ t, exec (.dieSelftest d false) s = .next t ∧ (dieOf t d).failed = true ∧ (dieOf t d).joined = false ∧ t.stage = 2 := by
  have hne : d ≠ 0 := by omega
  have hdie : dieOf (onDie s d (fun d => { d with failed := true })) d = { dieOf s d with failed := true } :=
    dieOf_onDie (by omega) _
  refine ⟨_, selftest_next hd hj hf (.inr (by omega)) false, ?_⟩
  rw [Bool.not_false, if_pos rfl]
  rcases hs with h | h
  · have hc : (decide (d ≠ 0) && decide ((onDie s d (fun d => { d with failed := true })).stage = 1)) = true := by simp [hne, h]
    simp only [hc, if_true]
    exact ⟨congrArg Die.failed hdie, (congrArg Die.joined hdie).trans hj, trivial⟩
  · have hc : (decide (d ≠ 0) && decide ((onDie s d (fun d => { d with failed := true })).stage = 1)) = false := by simp [h]
    simp only [hc, Bool.false_eq_true, if_false]
    exact ⟨congrArg Die.failed hdie, (congrArg Die.joined hdie).trans hj, h⟩

theorem bringUp : BringUp := by
  refine ⟨fun s n im sig => ⟨fun h => ?_, fun h => ?_⟩, fun s nonce hl => ⟨attestBody s nonce, ?_, ?_⟩,
    fun s hl hj hf hs hi hk => firstDie_spec hl hj hf hs hi hk,
    fun s d hl hd0 hd hs hj hf => ⟨laterDie_passes hl hd0 hd hs hj hf, laterDie_fails hl hd0 hd hs hj hf⟩⟩
  · rw [firmware_next, if_pos h]
  · rw [firmware_next, if_neg (by simp [h])]
  · rw [exec_attestationRequest, execAttestationRequest, if_neg (by simp [hl])]
  · rw [← hl]
    exact attestBody_take s nonce

/-! ## Reset, ports, links, clocks (R13, R345, R355, R394) -/

/-- A bit cleared in the mask of the ports. -/
theorem getLsbD_clearPort (q : BitVec 36) {n m : Nat} (hm : m < 36) :
    (q &&& ~~~(BitVec.ofNat 36 (2 ^ n))).getLsbD m = (q.getLsbD m && !decide (n = m)) := by
  rw [BitVec.getLsbD_and, BitVec.getLsbD_not, BitVec.getLsbD_ofNat, Nat.testBit_two_pow, decide_eq_true hm, Bool.true_and, Bool.true_and]

theorem deviceEvents : DeviceEvents := by
  intro s
  refine ⟨⟨_, rfl, rfl, rfl, rfl, rfl, rfl, rfl, rfl, rfl, rfl, fun d hd => ?_⟩, fun n hn hp => ⟨s.ports &&& ~~~(BitVec.ofNat 36 (2 ^ n)),
    ?_, fun m hm hne => ?_, ?_⟩, fun a b => rfl, fun m h0 hle => ?_, fun d m hd h0 hle => ?_⟩
  · obtain ⟨⟨e, i⟩, he, rfl⟩ := List.mem_map.mp hd
    have hall : ∀ e ∈ State.reset.dies, e.joined = false ∧ e.sinter = [] := by decide
    exact hall e (List.fst_mem_of_mem_zipIdx he)
  · rw [getLsbD_clearPort _ hn]; simp
  · rw [getLsbD_clearPort _ hm]; simp [hne.symm]
  · rw [exec_fabricPortDown, execFabricPortDown, if_neg (by simp [hn, hp])]
  · rw [exec_clockChange, execClockChange]
    simp [h0, hle]
  · have hnom : m ≤ nominalMhz s d := by
      unfold nominalMhz
      by_cases h : d = 0 ∧ s.stage < 3
      · rw [if_pos h] at hle
        rwa [if_pos (by simp [h])]
      · rw [if_neg h] at hle
        rwa [if_neg (by simpa using h)]
    rw [exec_clockChange, execClockChange]
    simp [hd, h0, hnom]

/-- Settles O54: the window's counts, bring-up's stages, and what each event of the device changes. -/
theorem deviceLife : Obligations.DeviceLife := ⟨limiterWindowEnds, bringUp, deviceEvents⟩

end Sys2Proof.Proofs.Life
end

section
/-! SUPPORT. What a write at a home slice may change besides the bytes it writes: the marks of the walker, carriages it aborts,
the snapshot's copies (R42, R43, R102, R107, R130, R132, R196, R395). -/

open Sys2Proof Sys2Proof.Machine Sys2Proof.Cert
open Sys2Proof.Proofs.Frames Sys2Proof.Proofs.TenderStream Sys2Proof.Proofs.Life

namespace Sys2Proof.Proofs.Home

/-! ## The relation -/

/-- A slot that runs no carriage, or stands at the first record of its carriage. -/
def AtStart (t : Slot) : Prop := ∀ car, t.car = some car → t.blk = car.blk ∧ t.rcd = car.first

/-- A slot at its carriage's first record stays there. -/
def StartStands (t u : Slot) : Prop := AtStart t → u.blk = t.blk ∧ u.rcd = t.rcd ∧ AtStart u

theorem StartStands.refl (t : Slot) : StartStands t t := fun h => ⟨rfl, rfl, h⟩

theorem StartStands.trans {t u w : Slot} (h : StartStands t u) (g : StartStands u w) : StartStands t w := by
  intro ht
  obtain ⟨hb, hr, hu⟩ := h ht
  obtain ⟨gb, gr, gw⟩ := g hu
  exact ⟨gb.trans hb, gr.trans hr, gw⟩

/-- A wave that a write elsewhere may have aborted: its slots outside a carriage stand, and all of it where it runs none. -/
structure WaveQuiet (v u : Wave) : Prop where
  rest : u = { v with uni := u.uni, uniPoison := u.uniPoison, slot0 := u.slot0, slot1 := u.slot1 }
  slot : ∀ x, (slotOf v x).car = none → slotOf u x = slotOf v x
  plain : v.slot0.car = none → v.slot1.car = none → u = v
  start : ∀ x, StartStands (slotOf v x) (slotOf u x)

theorem WaveQuiet.refl (v : Wave) : WaveQuiet v v :=
  ⟨rfl, fun _ _ => rfl, fun _ _ => rfl, fun _ => StartStands.refl _⟩

theorem WaveQuiet.trans {v u w : Wave} (h : WaveQuiet v u) (g : WaveQuiet u w) : WaveQuiet v w := by
  refine ⟨by rw [g.rest, h.rest], fun x hx => ?_, fun h0 h1 => ?_, fun x => (h.start x).trans (g.start x)⟩
  · have hs := h.slot x hx
    rw [g.slot x (by rw [hs]; exact hx), hs]
  · obtain rfl := h.plain h0 h1
    exact g.plain h0 h1

/-- The dies stand; entries may leave their Sinter stores, and none comes. -/
structure SameDies (s t : State) : Prop where
  count : t.dies.length = s.dies.length
  die : ∀ d, ∃ sinter gone lost, (∀ x ∈ sinter, x ∈ (dieOf s d).sinter)
    ∧ dieOf t d = { dieOf s d with sinter := sinter, gone := gone, lost := lost }

theorem SameDies.of_eq {s t : State} (h : t.dies = s.dies) : SameDies s t :=
  ⟨congrArg List.length h, fun d => ⟨_, _, _, fun _ hx => hx, congrArg (fun ds : List Die => ds.getD d (Die.reset 4000)) h⟩⟩

theorem SameDies.trans {s t u : State} (h : SameDies s t) (g : SameDies t u) : SameDies s u := by
  refine ⟨g.count.trans h.count, fun d => ?_⟩
  obtain ⟨a, b, l, hsub, ha⟩ := h.die d
  obtain ⟨a', b', l', gsub, hb⟩ := g.die d
  exact ⟨a', b', l', fun x hx => hsub x (by simpa only [ha] using gsub x hx), by rw [hb, ha]⟩

/-- What a write at a home slice leaves as it was. -/
structure Quiet (s t : State) : Prop where
  rest : t = { s with dmem := t.dmem, tags := t.tags, poison := t.poison, hmem := t.hmem, fmem := t.fmem, tlb := t.tlb,
                      dies := t.dies, waking := t.waking, accs := t.accs, serial := t.serial, owed := t.owed,
                      homeWaits := t.homeWaits, errIdx := t.errIdx, errSeq := t.errSeq, parts := t.parts, cores := t.cores }
  parts : ∀ p, ∃ pages, partOf t p = { partOf s p with snapPages := pages }
  dies : SameDies s t
  cores : ∀ c, ∃ waves regs poison l1 mem marks, coreOf t c = { coreOf s c with
    waves := waves, regs := regs, regPoison := poison, l1 := l1, tileMem := mem, tilePoison := marks }
  waves : ∀ c w v, waveOf s c w = some v → ∃ u, waveOf t c w = some u ∧ WaveQuiet v u
  empty : ∀ c w, waveOf s c w = none → waveOf t c w = none
  noWaves : ∀ c, (coreOf s c).waves = [] → (coreOf t c).waves = []
  accs : ∀ a ∈ t.accs, ∃ b ∈ s.accs, a = { b with early := a.early }
  waking : t.waking.map (fun r => { r with waiters := [] }) = s.waking.map (fun r => { r with waiters := [] })
  canonical : MemoryCanonical s → MemoryCanonical t

theorem Quiet.refl (s : State) : Quiet s s :=
  ⟨rfl, fun _ => ⟨_, rfl⟩, SameDies.of_eq rfl, fun _ => ⟨_, _, _, _, _, _, rfl⟩, fun _ _ v h => ⟨v, h, WaveQuiet.refl v⟩,
    fun _ _ h => h, fun _ h => h, fun a h => ⟨a, h, rfl⟩, rfl, id⟩

theorem Quiet.trans {s t u : State} (h : Quiet s t) (g : Quiet t u) : Quiet s u := by
  refine ⟨by rw [g.rest, h.rest], fun p => ?_, h.dies.trans g.dies, fun c => ?_, fun c w v hv => ?_, fun c w hv => g.empty c w (h.empty c w hv),
    fun c hc => g.noWaves c (h.noWaves c hc), fun a ha => ?_, g.waking.trans h.waking, fun hs => g.canonical (h.canonical hs)⟩
  · obtain ⟨a, ha⟩ := h.parts p
    obtain ⟨b, hb⟩ := g.parts p
    exact ⟨b, by rw [hb, ha]⟩
  · obtain ⟨_, _, _, _, _, _, ha⟩ := h.cores c
    obtain ⟨w, r, p, l, m, k, hb⟩ := g.cores c
    exact ⟨w, r, p, l, m, k, by rw [hb, ha]⟩
  · obtain ⟨u, hu, hvu⟩ := h.waves c w v hv
    obtain ⟨x, hx, hux⟩ := g.waves c w u hu
    exact ⟨x, hx, hvu.trans hux⟩
  · obtain ⟨b, hb, he⟩ := g.accs a ha
    obtain ⟨d, hd, hf⟩ := h.accs b hb
    exact ⟨d, hd, by rw [he, hf]⟩

/-! ## Steps that touch no core -/

/-- Memory, tags and their marks change. -/
theorem quiet_memory {s : State} (d h : List Host.Cell) (g : SMap (BitVec 2)) (p : List Nat) (f : SMap (List Host.Cell))
    (hc : MemoryCanonical s → MemoryCanonical { s with dmem := d, tags := g, poison := p, hmem := h, fmem := f }) :
    Quiet s { s with dmem := d, tags := g, poison := p, hmem := h, fmem := f } :=
  ⟨rfl, fun _ => ⟨_, rfl⟩, SameDies.of_eq rfl, fun _ => ⟨_, _, _, _, _, _, rfl⟩, fun _ _ v h => ⟨v, h, WaveQuiet.refl v⟩,
    fun _ _ h => h, fun _ h => h, fun a h => ⟨a, h, rfl⟩, rfl, hc⟩

/-- The cached translations, the token, the counts owed and the waiting of the turn change. -/
theorem quiet_marks (s : State) (tlb : List Tlb) (serial : Option SlotName) (owed : List Owed) (waits : Bool) :
    Quiet s { s with tlb := tlb, serial := serial, owed := owed, homeWaits := waits } :=
  ⟨rfl, fun _ => ⟨_, rfl⟩, SameDies.of_eq rfl, fun _ => ⟨_, _, _, _, _, _, rfl⟩, fun _ _ v h => ⟨v, h, WaveQuiet.refl v⟩,
    fun _ _ h => h, fun _ h => h, fun a h => ⟨a, h, rfl⟩, rfl, id⟩

/-- Accesses leave or are taken back; waiters of cells leave. -/
theorem quiet_accs (s : State) (as : List Access) (ws : List WakeRec) (ha : ∀ a ∈ as, ∃ b ∈ s.accs, a = { b with early := a.early })
    (hw : ws.map (fun r => { r with waiters := [] }) = s.waking.map (fun r => { r with waiters := [] })) :
    Quiet s { s with accs := as, waking := ws } :=
  ⟨rfl, fun _ => ⟨_, rfl⟩, SameDies.of_eq rfl, fun _ => ⟨_, _, _, _, _, _, rfl⟩, fun _ _ v h => ⟨v, h, WaveQuiet.refl v⟩,
    fun _ _ h => h, fun _ h => h, ha, hw, id⟩

theorem quiet_noteHome (s : State) (p : Nat) (own : List SlotName) (pl : Place) (w : Bool) : Quiet s (noteHome s p own pl w) := by
  unfold noteHome
  split
  · exact quiet_marks s s.tlb s.serial s.owed true
  · exact Quiet.refl s

theorem quiet_dropEarly (s : State) (a : Agent) (line : Nat) : Quiet s (dropEarly s a line) := by
  unfold dropEarly
  split
  · exact Quiet.refl s
  · refine quiet_accs s _ s.waking (fun a ha => ?_) rfl
    obtain ⟨b, hb, rfl⟩ := List.mem_map.mp ha
    refine ⟨b, hb, ?_⟩
    dsimp only
    split <;> rfl

theorem quiet_dropWaiter (s : State) (id : Nat) : Quiet s (dropWaiter s id) := by
  refine quiet_accs s _ _ (fun a ha => ⟨a, (List.mem_filter.mp ha).1, rfl⟩) ?_
  rw [List.map_map]
  rfl

theorem dieOf_map (s : State) (f : Die → Die) (hf : f (Die.reset 4000) = Die.reset 4000) (d : Nat) :
    dieOf { s with dies := s.dies.map f } d = f (dieOf s d) := by
  simp only [dieOf, List.getD_eq_getElem?_getD, List.getElem?_map]
  cases s.dies[d]? with
  | none => exact hf.symm
  | some x => rfl

theorem quiet_dropEntries (s : State) (p : Nat) (hit : SEntry → Bool) : Quiet s (dropEntries s p hit) := by
  refine ⟨rfl, fun _ => ⟨_, rfl⟩, ⟨List.length_map .., fun d => ?_⟩, fun _ => ⟨_, _, _, _, _, _, rfl⟩, fun _ _ v h => ⟨v, h, WaveQuiet.refl v⟩,
    fun _ _ h => h, fun _ h => h, fun a h => ⟨a, h, rfl⟩, rfl, id⟩
  exact ⟨_, _, _, fun _ h => (List.mem_filter.mp h).1, dieOf_map s (fun d => dropFrom d (fun e => e.part = p && hit e)) rfl d⟩

/-! ## Steps of a core, of a partition -/

/-- A core's registers, L1 and tiles change. -/
theorem quiet_onCore {s : State} {c : Nat} {f : Core → Core}
    (h : ∃ regs poison l1 mem marks, f (coreOf s c) = { coreOf s c with
      regs := regs, regPoison := poison, l1 := l1, tileMem := mem, tilePoison := marks }) : Quiet s (onCore s c f) := by
  obtain ⟨regs, poison, l1, mem, marks, hf⟩ := h
  have hw (d w : Nat) : waveOf (onCore s c f) d w = waveOf s d w := by
    by_cases hd : d = c
    · subst hd
      exact waveOf_onCore _ _ _ _ (by rw [hf]) _
    · simp only [waveOf, coreOf_onCore_other _ _ _ _ hd]
  have hcore (d : Nat) : ∃ regs poison l1 mem marks, coreOf (onCore s c f) d = { coreOf s d with
      regs := regs, regPoison := poison, l1 := l1, tileMem := mem, tilePoison := marks } := by
    by_cases hd : d = c
    · subst hd
      rw [coreOf_onCore, hf]
      exact ⟨_, _, _, _, _, rfl⟩
    · rw [coreOf_onCore_other _ _ _ _ hd]
      exact ⟨_, _, _, _, _, rfl⟩
  refine ⟨rfl, fun _ => ⟨_, rfl⟩, SameDies.of_eq rfl, fun d => ?_, fun d w v h => ⟨v, (hw d w).trans h, WaveQuiet.refl v⟩,
    fun d w h => (hw d w).trans h, fun d h => ?_, fun a h => ⟨a, h, rfl⟩, rfl, id⟩
  · obtain ⟨r, p, l, m, k, hd⟩ := hcore d
    exact ⟨_, r, p, l, m, k, hd⟩
  · obtain ⟨r, p, l, m, k, hd⟩ := hcore d
    rw [hd]
    exact h

/-- A wave's slots that run a carriage change. -/
theorem quiet_onWave {s : State} {c w : Nat} {f : Wave → Wave} (h : ∀ v, waveOf s c w = some v → WaveQuiet v (f v)) :
    Quiet s (onWave s c w f) := by
  have hrest : onWave s c w f = { s with cores := (onWave s c w f).cores } := onWave_onlyCores ..
  refine ⟨by rw [hrest], fun p => ⟨_, by rw [hrest]; rfl⟩, SameDies.of_eq (by rw [hrest]), fun d => ?_, fun d y v hv => ?_,
    fun d y hv => ?_, fun d hd => ?_, fun a ha => ⟨a, by rw [hrest] at ha; exact ha, rfl⟩, by rw [hrest], fun hs => by rw [hrest]; exact hs⟩
  · by_cases hd : d = c
    · subst hd
      obtain ⟨m, hm⟩ := coreOf_onWave s d w f
      exact ⟨m, _, _, _, _, _, hm⟩
    · rw [coreOf_onWave_other _ _ _ _ _ hd]
      exact ⟨_, _, _, _, _, _, rfl⟩
  · by_cases hd : d = c ∧ y = w
    · obtain ⟨rfl, rfl⟩ := hd
      exact ⟨f v, by simp [hv], h v hv⟩
    · exact ⟨v, (waveOf_onWave_other _ _ _ _ _ _ (Decidable.not_and_iff_or_not.mp hd)).trans hv, WaveQuiet.refl v⟩
  · by_cases hdy : d = c ∧ y = w
    · obtain ⟨rfl, rfl⟩ := hdy
      simp [hv]
    · exact (waveOf_onWave_other _ _ _ _ _ _ (Decidable.not_and_iff_or_not.mp hdy)).trans hv
  · by_cases hdc : d = c
    · subst hdc
      have hnone : waveOf s d w = none := by rw [waveOf, hd]; rfl
      rw [onWave, hnone]
      exact hd
    · rw [coreOf_onWave_other _ _ _ _ _ hdc]
      exact hd

/-- Pages are copied for a snapshot. -/
theorem quiet_snapPages (s : State) (p : Nat) (f : Part → List SnapPage) :
    Quiet s (onPart s p (fun q => { q with snapPages := f q })) := by
  refine ⟨rfl, fun q => ?_, SameDies.of_eq rfl, fun _ => ⟨_, _, _, _, _, _, rfl⟩, fun _ _ v h => ⟨v, h, WaveQuiet.refl v⟩,
    fun _ _ h => h, fun _ h => h, fun a h => ⟨a, h, rfl⟩, rfl, id⟩
  by_cases hq : q = p
  · subst hq
    exact ⟨_, partOf_onPart ..⟩
  · exact ⟨_, partOf_onPart_other _ _ _ _ hq⟩

/-- Steps one after another. -/
theorem quiet_foldl {α : Type} {f : State → α → State} (h : ∀ s a, Quiet s (f s a)) (as : List α) (s : State) :
    Quiet s (as.foldl f s) := by
  induction as generalizing s with
  | nil => exact Quiet.refl s
  | cons a as ih => exact (h s a).trans (ih _)

theorem quiet_snapCopy (s : State) (pa : Nat) : Quiet s (snapCopy s pa) := by
  refine quiet_foldl (fun s p => ?_) _ s
  split
  · exact quiet_snapPages ..
  · exact Quiet.refl s

/-! ## Bytes -/

theorem quiet_tagsValue (s : State) (pa n : Nat) : Quiet s (tagsValue s pa n) :=
  quiet_memory s.dmem s.hmem _ s.poison s.fmem (fun ⟨hd, hh, ht⟩ => ⟨hd, hh, smWf_filter _ _ _ ht⟩)

theorem quiet_clearPoison (s : State) (pl : Place) (n : Nat) : Quiet s (clearPoison s pl n) :=
  quiet_memory s.dmem s.hmem s.tags _ s.fmem id

theorem quiet_clearWord (s : State) (pl : Place) : Quiet s (clearWord s pl) := quiet_memory s.dmem s.hmem s.tags _ s.fmem id

theorem quiet_devPut (s : State) (pa : Nat) (bs : List Byte) : Quiet s (devPut s pa bs) :=
  quiet_memory _ s.hmem s.tags s.poison s.fmem (fun ⟨hd, hh, ht⟩ => ⟨memWrite_wf _ _ _ hd, hh, ht⟩)

/-- Tags of cells set. -/
theorem quiet_setTag (s : State) (i : Nat) (g : BitVec 2) : Quiet s { s with tags := smSet 0 s.tags i g } :=
  quiet_memory s.dmem s.hmem _ s.poison s.fmem (fun ⟨hd, hh, ht⟩ => ⟨hd, hh, smWf_smSet _ _ _ _ ht⟩)

theorem quiet_markPoison (s : State) (pl : Place) : Quiet s (markPoison s pl) := by
  unfold markPoison
  split
  · exact quiet_onCore ⟨_, _, _, _, _, rfl⟩
  · exact quiet_memory s.dmem s.hmem s.tags _ s.fmem id

/-- Bytes at a device address, without the writer's L1. -/
def devBytes (s : State) (pa : Nat) (bs : List Byte) : State :=
  clearPoison (tagsValue (devPut (snapCopy s pa) pa bs) pa bs.length) (.dev pa) bs.length

theorem quiet_devBytes (s : State) (pa : Nat) (bs : List Byte) : Quiet s (devBytes s pa bs) :=
  (quiet_snapCopy s pa).trans ((quiet_devPut _ pa bs).trans ((quiet_tagsValue _ pa bs.length).trans
    (quiet_clearPoison _ (.dev pa) bs.length)))

/-- The writer's L1 takes the bytes of a write. -/
def lineTaken (w : Writer) (pa : Nat) (bs : List Byte) (s : State) : State :=
  match w.core with
  | some c => onCore s c (fun k => if k.l1 = [] then k else { k with l1 := k.l1.map (lineUpdate pa bs) })
  | none => s

theorem quiet_lineTaken (w : Writer) (pa : Nat) (bs : List Byte) (s : State) : Quiet s (lineTaken w pa bs s) := by
  unfold lineTaken
  split
  · refine quiet_onCore ?_
    split
    · exact ⟨_, _, _, _, _, rfl⟩
    · exact ⟨_, _, _, _, _, rfl⟩
  · exact Quiet.refl s

theorem putBytes_dev (s : State) (w : Writer) (pa : Nat) (bs : List Byte) :
    putBytes s w (.dev pa) bs = lineTaken w pa bs (devBytes s pa bs) := rfl

theorem quiet_putBytes (s : State) (w : Writer) (pl : Place) (bs : List Byte) : Quiet s (putBytes s w pl bs) := by
  cases pl with
  | dev pa =>
    rw [putBytes_dev]
    exact (quiet_devBytes s pa bs).trans (quiet_lineTaken w pa bs _)
  | host ha =>
    exact (quiet_memory s.dmem (memWrite s.hmem ha bs) s.tags s.poison s.fmem
      (fun ⟨hd, hh, ht⟩ => ⟨hd, memWrite_wf _ _ _ hh, ht⟩)).trans (quiet_clearPoison ..)
  | fab d a =>
    have hput : putBytes s w (.fab d a) bs = if s.ports = 0 then s else
        clearPoison { s with fmem := smSet [] s.fmem d (memWrite (smGet [] s.fmem d) a bs) } (.fab d a) bs.length := rfl
    rw [hput]
    split
    · exact Quiet.refl s
    · exact (quiet_memory s.dmem s.hmem s.tags s.poison (smSet [] s.fmem d (memWrite (smGet [] s.fmem d) a bs)) id).trans
        (quiet_clearPoison ..)
  | tile c a =>
    have hput : putBytes s w (.tile c a) bs
        = onCore s c (fun k => clearTilePoison { k with tileMem := memWrite k.tileMem a bs } a bs.length) := rfl
    rw [hput]
    exact quiet_onCore ⟨_, _, _, _, _, rfl⟩

/-! ## Lines touched -/

/-- What touching lines leaves as it was. -/
def QuietToucher (touch : Toucher) : Prop := ∀ own line s, Quiet s (touch own line s)

section
variable {touch : Toucher} (ht : QuietToucher touch)
include ht

theorem quiet_writeBy (s : State) (w : Writer) (pl : Place) (bs : List Byte) : Quiet s (writeBy touch s w pl bs) :=
  (quiet_noteHome s w.part w.own pl true).trans ((ht ..).trans ((quiet_dropEarly ..).trans (quiet_putBytes ..)))

theorem quiet_markBy (s : State) (p : Nat) (need : Need) (va : Word) (l : Leaf) : Quiet s (markBy touch s p need va l) := by
  obtain ⟨bits, hb⟩ : ∃ bits, markBy touch s p need va l = cacheLeaf (if l.val ||| bits = l.val then s
      else writeBy touch s (deviceWriter s p) (.dev l.pte) (leBytes 8 (BitVec.ofNat 64 (devNat s l.pte 8) ||| bits).toNat)) p va
        { l with val := l.val ||| bits } := ⟨_, rfl⟩
  rw [hb]
  refine Quiet.trans ?_ (quiet_marks ..)
  split
  · exact Quiet.refl s
  · exact quiet_writeBy ht ..

theorem quiet_breakBy (s : State) (p : Nat) (va : Word) (l : Leaf) : Quiet s (breakBy touch s p va l) := by
  unfold breakBy
  split
  · exact Quiet.refl s
  · exact (quiet_dropEntries ..).trans ((quiet_writeBy ht ..).trans (quiet_marks ..))

theorem quiet_putVirtualBy (s : State) (w : Writer) (va : Word) (x : Xlat) (bs : List Byte) : Quiet s (putVirtualBy touch s w va x bs) :=
  (quiet_markBy ht ..).trans ((quiet_breakBy ht ..).trans (quiet_writeBy ht ..))

theorem quiet_releaseBy (s : State) (o : Owed) : Quiet s (releaseBy touch s o) := by
  unfold releaseBy
  dsimp only
  split
  · split
    · exact quiet_marks s s.tlb s.serial _ s.homeWaits
    · exact quiet_putVirtualBy ht ..
  · exact Quiet.refl s

theorem quiet_endAccessBy (s : State) (a : Access) : Quiet s (endAccessBy touch s a) := by
  unfold endAccessBy
  dsimp only
  split
  · exact (quiet_dropWaiter s a.id).trans (quiet_releaseBy ht ..)
  · exact quiet_dropWaiter s a.id

omit ht in
/-- A slot with a carriage stands at the carriage's first record again. -/
theorem waveQuiet_restart {v : Wave} {x : Nat} {car : Carriage} (hc : (slotOf v x).car = some car) (uni : SMap Word)
    (marks : List Nat) {t : Slot} (hs : StartStands (slotOf v x) t) :
    WaveQuiet v (putSlot { v with uni := uni, uniPoison := marks } x t) := by
  by_cases hx : x = 0
  · subst hx
    refine ⟨rfl, fun y hy => ?_, fun h0 => ?_, fun y => ?_⟩
    · have : y ≠ 0 := by rintro rfl; rw [hc] at hy; exact absurd hy nofun
      simp [slotOf, putSlot, this]
    · have : v.slot0.car = some car := hc
      exact absurd (h0.symm.trans this) nofun
    · by_cases hy : y = 0
      · subst hy
        exact hs
      · simpa [slotOf, putSlot, hy] using StartStands.refl v.slot1
  · have h1 : v.slot1.car = some car := by simpa [slotOf, hx] using hc
    refine ⟨by simp [putSlot, hx], fun y hy => ?_, fun _ h => absurd (h.symm.trans h1) nofun, fun y => ?_⟩
    · have : y = 0 := by
        refine Classical.byContradiction fun hy0 => ?_
        rw [slotOf, if_neg hy0, h1] at hy
        exact absurd hy nofun
      subst this
      simp [slotOf, putSlot, hx]
    · by_cases hy : y = 0
      · subst hy
        simpa [slotOf, putSlot, hx] using StartStands.refl v.slot0
      · simpa [slotOf, putSlot, hx, hy] using hs

omit ht in
theorem startStands_restart {t : Slot} {car : Carriage} (hc : t.car = some car) (more : Bool) :
    StartStands t (carriageRestart car more t) := by
  intro h
  obtain ⟨hb, hr⟩ := h car hc
  refine ⟨hb.symm, hr.symm, fun c he => ?_⟩
  obtain rfl := Option.some.inj he
  exact ⟨rfl, rfl⟩

omit ht in
/-- The token leaves a carriage that is discarded. -/
theorem quiet_dropToken (s : State) (n : SlotName) : Quiet s (if s.serial = some n then { s with serial := none } else s) := by
  split
  · exact quiet_marks s s.tlb none s.owed s.homeWaits
  · exact Quiet.refl s

/-- The registers of a carriage's slot as they were, and the slot at its first record. -/
def restart (s : State) (n : SlotName) (car : Carriage) (more : Bool) : State :=
  onWave (onCore s n.1 (fun k => { k with regs := undoRegs car.regs k.regs, regPoison := undoMarks car.regs k.regPoison })) n.1 n.2.1
    (fun v => putSlot { v with uni := undoUni car.uni v.uni, uniPoison := undoUniMarks car.uni v.uniPoison } n.2.2
      (carriageRestart car more (slotOf v n.2.2)))

omit ht in
theorem quiet_restart {s : State} {n : SlotName} {v : Wave} {car : Carriage} (hv : waveOf s n.1 n.2.1 = some v)
    (hc : (slotOf v n.2.2).car = some car) (more : Bool) : Quiet s (restart s n car more) := by
  refine Quiet.trans (quiet_onCore (f := fun k =>
    { k with regs := undoRegs car.regs k.regs, regPoison := undoMarks car.regs k.regPoison }) ⟨_, _, _, _, _, rfl⟩)
    (quiet_onWave (fun u hu => ?_))
  rw [waveOf_onCore _ _ _ _ (by rfl), hv] at hu
  obtain rfl := Option.some.inj hu
  exact waveQuiet_restart hc _ _ (startStands_restart hc more)

omit ht in
/-- What discarding a carriage does, one step after another. -/
theorem discardBy_car (touch : Toucher) {s : State} {n : SlotName} {v : Wave} {car : Carriage} (hv : waveOf s n.1 n.2.1 = some v)
    (hc : (slotOf v n.2.2).car = some car) (more : Bool) : ∃ mine : List Access, discardBy touch s n more
      = mine.foldl (endAccessBy touch) (car.latched.foldl (fun s l => releaseBy touch s ⟨v.part, [n], some n.1, l.1, l.2⟩)
          (restart (if s.serial = some n then { s with serial := none } else s) n car more)) := by
  rw [discardBy, hv]
  dsimp only
  rw [hc]
  exact ⟨_, rfl⟩

theorem quiet_discardBy (s : State) (n : SlotName) (more : Bool) : Quiet s (discardBy touch s n more) := by
  cases hv : waveOf s n.1 n.2.1 with
  | none =>
    rw [discardBy, hv]
    exact Quiet.refl s
  | some v =>
    cases hcar : (slotOf v n.2.2).car with
    | none =>
      rw [discardBy, hv]
      dsimp only
      rw [hcar]
      exact Quiet.refl s
    | some car =>
      have hv' : waveOf (if s.serial = some n then { s with serial := none } else s) n.1 n.2.1 = some v := by
        split <;> exact hv
      obtain ⟨mine, hd⟩ := discardBy_car touch hv hcar more
      rw [hd]
      refine (quiet_dropToken s n).trans ((quiet_restart hv' hcar more).trans (Quiet.trans (quiet_foldl ?_ _ _) (quiet_foldl ?_ _ _)))
      · exact fun s l => quiet_releaseBy ht s _
      · exact fun s a => quiet_endAccessBy ht s a

end

theorem quiet_touchFuel (n : Nat) : QuietToucher (touchFuel n) := by
  induction n with
  | zero => exact fun _ _ s => Quiet.refl s
  | succ n ih => exact fun own line s => quiet_foldl (fun s m => quiet_discardBy ih s m true) _ s

theorem quiet_touchLine : QuietToucher touchLine := by
  intro own line s
  unfold touchLine
  split
  · exact Quiet.refl s
  · exact quiet_touchFuel ..

/-! ## The operations of the device -/

theorem quiet_xlatMark (s : State) (p : Nat) (need : Need) (va : Word) (l : Leaf) : Quiet s (xlatMark s p need va l) :=
  quiet_markBy quiet_touchLine ..

theorem quiet_breakTr (s : State) (p : Nat) (va : Word) (l : Leaf) : Quiet s (breakTr s p va l) := quiet_breakBy quiet_touchLine ..

theorem quiet_latchRelease (s : State) (o : Owed) : Quiet s (latchRelease s o) := quiet_releaseBy quiet_touchLine ..

theorem quiet_payOwed (s : State) : Quiet s (payOwed s) :=
  (quiet_marks s s.tlb s.serial [] s.homeWaits).trans (quiet_foldl quiet_latchRelease _ _)

theorem quiet_endAccess (s : State) (a : Access) : Quiet s (endAccess s a) := quiet_endAccessBy quiet_touchLine ..

theorem quiet_endAccesses (s : State) (as : List Access) : Quiet s (endAccesses s as) := quiet_foldl quiet_endAccess as s

theorem quiet_carriageDiscard (s : State) (n : SlotName) (more : Bool) : Quiet s (carriageDiscard s n more) :=
  quiet_discardBy quiet_touchLine ..

theorem quiet_placeWrite (s : State) (w : Writer) (pl : Place) (bs : List Byte) : Quiet s (placeWrite s w pl bs) :=
  quiet_writeBy quiet_touchLine ..

theorem putSlot_slotOf (v : Wave) (x : Nat) : putSlot v x (slotOf v x) = v := by
  unfold putSlot slotOf
  split <;> rfl

theorem quiet_noteOwnLine (s : State) (pl : Place) : Quiet s (noteOwnLine s pl) := by
  refine quiet_foldl (fun s n => quiet_onWave fun v _ => ?_) _ s
  cases hc : (slotOf v n.2.2).car with
  | none =>
    have hsame : ({ slotOf v n.2.2 with car := (slotOf v n.2.2).car.map (fun c =>
        { c with lines := (c.lines ++ [lineOf pl]).eraseDups }) } : Slot) = slotOf v n.2.2 := by
      rw [hc, Option.map_none, ← hc]
    have hwave := (congrArg (putSlot v n.2.2) hsame).trans (putSlot_slotOf v n.2.2)
    exact hwave.symm ▸ WaveQuiet.refl v
  | some car =>
    refine waveQuiet_restart hc v.uni v.uniPoison (fun h => ⟨rfl, rfl, fun c he => ?_⟩)
    obtain rfl := Option.some.inj ((congrArg (Option.map _) hc).symm.trans he)
    exact h car hc

/-- Steps one after another that carry a value along. -/
theorem quiet_foldl_fst {α β : Type} {f : State × β → α → State × β} (h : ∀ x a, Quiet x.1 (f x a).1) (as : List α) (x : State × β) :
    Quiet x.1 (as.foldl f x).1 := by
  induction as generalizing x with
  | nil => exact Quiet.refl _
  | cons a as ih => exact (h x a).trans (ih _)

/-- A line of a read is reached: the walker's marks, its home, the reader's own footprint. -/
theorem quiet_reach (own : Bool) (s : State) (p : Nat) (a : Word) (x : Xlat) :
    Quiet s (if own then noteOwnLine (noteHome (xlatMark s p .load a x.leaf) p (selfSlot s) x.place false) x.place
      else noteHome (xlatMark s p .load a x.leaf) p (selfSlot s) x.place false) := by
  have h := (quiet_xlatMark s p .load a x.leaf).trans (quiet_noteHome _ p (selfSlot s) x.place false)
  split
  · exact h.trans (quiet_noteOwnLine ..)
  · exact h

theorem quiet_readChunks (own : Bool) (shape : State → Xlat → Nat → Option (BitVec 8 × Nat)) (s : State) (p : Nat) (secure : Bool)
    (va : Word) (n : Nat) : Quiet s (readChunks own shape s p secure va n).1 := by
  refine quiet_foldl_fst (fun acc c => ?_) _ (s, (.ok [] : Except (BitVec 8 × Word) (List Byte)))
  obtain ⟨q, r⟩ := acc
  cases r with
  | error e => exact Quiet.refl q
  | ok bs =>
    dsimp only
    cases xlatCheck q p secure .load (BitVec.ofNat 64 c.1) with
    | error e => exact Quiet.refl q
    | ok x =>
      dsimp only
      split
      · exact quiet_reach own q p _ x
      · exact quiet_reach own q p _ x

theorem quiet_readVirtual (s : State) (p : Nat) (secure : Bool) (va : Word) (n : Nat) : Quiet s (readVirtual s p secure va n).1 :=
  quiet_readChunks ..

theorem quiet_readOwn (s : State) (p : Nat) (secure : Bool) (va : Word) (n : Nat) : Quiet s (readOwn s p secure va n).1 :=
  quiet_readChunks ..

theorem quiet_writeVirtual (s : State) (w : Writer) (secure : Bool) (va : Word) (bs : List Byte) :
    Quiet s (writeVirtual s w secure va bs).1 := by
  refine quiet_foldl_fst (fun acc c => ?_) _ (s, none)
  dsimp only
  split
  · exact Quiet.refl _
  · exact quiet_putVirtualBy quiet_touchLine ..

theorem quiet_readEntry (own : Bool) (s : State) (p : Nat) (secure : Bool) (i : Nat) : Quiet s (readEntry own s p secure i).1 := by
  have h : Quiet s ((if own then readOwn else readVirtual) s p secure (entryAddr s p i) 64).1 := by
    cases own
    · exact quiet_readVirtual ..
    · exact quiet_readOwn ..
  unfold readEntry
  dsimp only
  split
  · exact h
  · exact h

theorem quiet_resolve (s : State) (p : Nat) (secure : Bool) (pos : Nat) (h : W32) (kind right off len : Nat) (val : Word) :
    Quiet s (resolve s p secure pos h kind right off len val).1 := by
  have hr := quiet_readEntry true s p secure (h.toNat / 256)
  unfold resolve
  dsimp only
  split
  · exact Quiet.refl s
  · split
    · exact hr
    · split
      · exact hr
      · split
        · exact hr
        · split
          · exact hr
          · split
            · exact hr
            · split <;> exact hr

theorem quiet_entryPut (s : State) (p i off : Nat) (bs : List Byte) : Quiet s (entryPut s p i off bs) := quiet_writeVirtual ..

theorem quiet_latchCount (s : State) (p : Nat) (e : ResEntry) : Quiet s (latchCount s p e) := by
  have hr := quiet_readVirtual s p true (entryAddr s p e.l.idx + 0x18) 4
  unfold latchCount
  dsimp only
  split
  · exact hr
  · exact hr.trans (quiet_entryPut ..)

theorem quiet_piecesWrite (w : Writer) (ps : List (Place × Nat)) (s : State) (bs : List Byte) : Quiet s (piecesWrite s w ps bs) := by
  induction ps generalizing s bs with
  | nil => exact Quiet.refl s
  | cons q ps ih => exact (quiet_placeWrite ..).trans (ih _ _)

theorem quiet_cellPut (s : State) (w : Writer) (va : Word) (pa : Nat) (v : Word) (tag : BitVec 2) :
    Quiet s (cellPut s w va pa v tag) := by
  have hb : Quiet s (match leafOf s w.part va with
      | some l => breakTr s w.part va l
      | none => s) := by
    split
    · exact quiet_breakTr ..
    · exact Quiet.refl s
  exact hb.trans ((quiet_placeWrite ..).trans (quiet_setTag ..))

theorem quiet_acquireL1 (s : State) (c : Nat) (o : Order) (sc : Scope) : Quiet s (acquireL1 s c o sc) := by
  unfold acquireL1
  split
  · exact quiet_onCore ⟨_, _, _, _, _, rfl⟩
  · exact Quiet.refl s

theorem quiet_latchAcquire (s : State) (c : Nat) : Quiet s (latchAcquire s c) := quiet_acquireL1 ..

/-! ## The error log (R398) -/

theorem quiet_logTouch (s : State) (pa : Nat) : Quiet s (logTouch s pa) :=
  (quiet_noteHome ..).trans ((quiet_touchLine ..).trans ((quiet_dropEarly ..).trans ((quiet_snapCopy ..).trans
    ((quiet_tagsValue ..).trans (quiet_clearPoison ..)))))

/-- The log's index and count move. -/
theorem quiet_logIndex (s : State) (i n : Nat) : Quiet s { s with errIdx := i, errSeq := n } :=
  ⟨rfl, fun _ => ⟨_, rfl⟩, SameDies.of_eq rfl, fun _ => ⟨_, _, _, _, _, _, rfl⟩, fun _ _ v h => ⟨v, h, WaveQuiet.refl v⟩,
    fun _ _ h => h, fun _ h => h, fun a h => ⟨a, h, rfl⟩, rfl, id⟩

theorem quiet_logPut (s : State) (event : Nat) (cause : BitVec 8) (part akind aidx : Nat) (addr : Word) (stage lost : Nat) :
    Quiet s (logPut s event cause part akind aidx addr stage lost) := (quiet_devPut ..).trans (quiet_logIndex ..)

/-- The corrected errors of a die have been logged. -/
theorem quiet_lost (s : State) (d n : Nat) : Quiet s (onDie s d (fun q => { q with lost := n })) := by
  refine ⟨rfl, fun _ => ⟨_, rfl⟩, ⟨onDie_length .., fun e => ?_⟩, fun _ => ⟨_, _, _, _, _, _, rfl⟩, fun _ _ v h => ⟨v, h, WaveQuiet.refl v⟩,
    fun _ _ h => h, fun _ h => h, fun a h => ⟨a, h, rfl⟩, rfl, id⟩
  by_cases he : e = d
  · subst he
    by_cases hl : e < s.dies.length
    · exact ⟨_, _, _, fun _ h => h, dieOf_onDie hl _⟩
    · refine ⟨_, _, _, fun _ h => h, (?_ : _ = dieOf s e)⟩
      simp only [dieOf, onDie, setAt_eq_set, List.getD_eq_getElem?_getD, List.getElem?_set, if_true, hl, if_false]
      rw [List.getElem?_eq_none (Nat.le_of_not_lt hl)]
  · exact ⟨_, _, _, fun _ h => h, dieOf_onDie_other he _⟩

theorem quiet_logEvent (s : State) (event : Nat) (cause : BitVec 8) (part akind aidx : Nat) (addr : Word) (stage : Nat) :
    Quiet s (logEvent s event cause part akind aidx addr stage) := by
  have ht := quiet_logTouch s (s.errlog.toNat + 32 * s.errIdx)
  unfold logEvent
  dsimp only
  split
  · exact ht.trans ((quiet_lost ..).trans (quiet_logPut ..))
  · exact ht.trans (quiet_logPut ..)

end Sys2Proof.Proofs.Home
end

section
/-! SUPPORT. Partitions as wholes: halt, exchange, resume, reset, the mailbox (R146, R157, R163, R353, R401). -/

open Sys2Proof Sys2Proof.Machine Sys2Proof.Cert
open Sys2Proof.Proofs.Frames Sys2Proof.Proofs.Paths Sys2Proof.Proofs.Life Sys2Proof.Proofs.Home
open Sys2Proof.Proofs.Control (carriageDiscard_none)

namespace Sys2Proof.Proofs.Partitions

theorem exec_halt (p : Nat) (s : State) : exec (.halt p) s = execHalt p s := rfl
theorem exec_exchange (p : Nat) (s : State) : exec (.exchange p) s = execExchange p s := rfl
theorem exec_pswapHalted (p : Nat) (s : State) : exec (.pswapHalted p) s = execPswapHalted p s := rfl
theorem exec_pswapExchangeDone (p : Nat) (s : State) : exec (.pswapExchangeDone p) s = execPswapExchangeDone p s := rfl
theorem exec_resume (p : Nat) (s : State) : exec (.resume p) s = execResume p s := rfl
theorem exec_resetp (p : Nat) (s : State) : exec (.resetp p) s = execResetp p s := rfl
theorem exec_mailboxEndWave (c w : Nat) (s : State) : exec (.mailboxEndWave c w) s = execMailboxEndWave c w s := rfl
theorem exec_mailboxTret (c w : Nat) (s : State) : exec (.mailboxTret c w) s = execMailboxTret c w s := rfl
theorem exec_mailboxReadContext (c : Nat) (s : State) : exec (.mailboxReadContext c) s = execMailboxReadContext c s := rfl
theorem exec_mailboxRestoreContext (p a b : Nat) (s : State) :
    exec (.mailboxRestoreContext p a b) s = execMailboxRestoreContext p a b s := rfl

/-! ## The exchange of contexts (R163) -/

/-- One core exchanges its context with its standby context. -/
def swapCore (s : State) (c : Nat) : State :=
  let here := coreOf s c
  let there := smGet Core.reset s.standby c
  if here = Core.reset && there = Core.reset then s
  else setCore { s with standby := smSet Core.reset s.standby c { here with l1 := [] } } c (contextIn here there)

theorem swapContexts_eq (s : State) (p : Nat) : swapContexts s p = (partCores s p).foldl swapCore s := rfl

theorem contextIn_reset : contextIn Core.reset Core.reset = Core.reset := rfl

/-- The context that comes in is the standby one, times counted on, and the core's own goes to standby. -/
theorem swapCore_same (s : State) (c : Nat) :
    coreOf (swapCore s c) c = contextIn (coreOf s c) (smGet Core.reset s.standby c)
    ∧ smGet Core.reset (swapCore s c).standby c = { coreOf s c with l1 := [] } := by
  by_cases h : (decide (coreOf s c = Core.reset) && decide (smGet Core.reset s.standby c = Core.reset)) = true
  · obtain ⟨h1, h2⟩ := Bool.and_eq_true_iff.mp h
    have heq : swapCore s c = s := if_pos h
    rw [heq, of_decide_eq_true h1, of_decide_eq_true h2, contextIn_reset]
    exact ⟨rfl, rfl⟩
  · have heq : swapCore s c = setCore { s with standby := smSet Core.reset s.standby c { coreOf s c with l1 := [] } } c
        (contextIn (coreOf s c) (smGet Core.reset s.standby c)) := if_neg h
    rw [heq]
    exact ⟨coreOf_setCore .., smGet_smSet_same ..⟩

theorem swapCore_other {s : State} {c d : Nat} (h : d ≠ c) : coreOf (swapCore s c) d = coreOf s d
    ∧ smGet Core.reset (swapCore s c).standby d = smGet Core.reset s.standby d := by
  unfold swapCore
  dsimp only
  split
  · exact ⟨rfl, rfl⟩
  · exact ⟨smGet_smSet_other _ _ _ _ _ h, smGet_smSet_other _ _ _ _ _ h⟩

theorem foldl_swapCore_other {d : Nat} (cs : List Nat) (s : State) (h : d ∉ cs) : coreOf (cs.foldl swapCore s) d = coreOf s d
    ∧ smGet Core.reset (cs.foldl swapCore s).standby d = smGet Core.reset s.standby d := by
  induction cs generalizing s with
  | nil => exact ⟨rfl, rfl⟩
  | cons c cs ih =>
    obtain ⟨h1, h2⟩ := ih (swapCore s c) (fun hm => h (List.mem_cons_of_mem _ hm))
    obtain ⟨g1, g2⟩ := swapCore_other (s := s) (c := c) (d := d) (by rintro rfl; exact h List.mem_cons_self)
    exact ⟨h1.trans g1, h2.trans g2⟩

/-- A core that is named once is exchanged once. -/
theorem foldl_swapCore {c : Nat} (cs : List Nat) (s : State) (hm : c ∈ cs) (hn : cs.Nodup) :
    coreOf (cs.foldl swapCore s) c = contextIn (coreOf s c) (smGet Core.reset s.standby c)
    ∧ smGet Core.reset (cs.foldl swapCore s).standby c = { coreOf s c with l1 := [] } := by
  induction cs generalizing s with
  | nil => exact absurd hm nofun
  | cons d cs ih =>
    obtain ⟨hd, hn'⟩ := List.nodup_cons.mp hn
    rcases List.mem_cons.mp hm with rfl | hm'
    · obtain ⟨h1, h2⟩ := foldl_swapCore_other cs (swapCore s c) hd
      obtain ⟨g1, g2⟩ := swapCore_same s c
      exact ⟨h1.trans g1, h2.trans g2⟩
    · have hne : c ≠ d := by rintro rfl; exact hd hm'
      obtain ⟨g1, g2⟩ := swapCore_other (s := s) hne
      have h := ih (swapCore s d) hm' hn'
      rwa [g1, g2] at h

theorem partitionsStopAndResume : PartitionsStopAndResume := by
  intro s p hp
  have hp8 : ¬ 8 ≤ p := Nat.not_le.mpr hp
  refine ⟨fun h => ⟨?_, ?_⟩, fun h hs => ?_, fun h he => ?_, fun h => ?_, fun h he => ?_, fun c hc hn => ?_⟩
  · rw [exec_halt, execHalt, h]; simp [hp]
  · rw [exec_exchange, execExchange, h]; simp [hp8]
  · rw [exec_pswapHalted, execPswapHalted]; simp [hp8, h, hs]
  · rw [exec_pswapHalted, execPswapHalted]; simp [hp8, h, he]
  · rw [exec_pswapExchangeDone, execPswapExchangeDone, h]; simp [hp]
  · rw [exec_resume, execResume, h, he]; simp [hp]
  · obtain ⟨h1, h2⟩ := foldl_swapCore (partCores s p) s hc hn
    intro here k there
    have hk : k = contextIn here there := h1
    rw [hk]
    exact ⟨rfl, rfl, rfl, rfl, rfl, h2⟩

/-! ## The reset of a partition (R401) -/

/-- A core without waves and without commands. -/
def Idle (c : Nat) (s : State) : Prop := (coreOf s c).waves = [] ∧ (coreOf s c).cmds = []

theorem idle_quiet {c : Nat} {s t : State} (h : Quiet s t) (hi : Idle c s) : Idle c t := by
  obtain ⟨_, _, _, _, _, _, hc⟩ := h.cores c
  exact ⟨h.noWaves c hi.1, (congrArg Core.cmds hc).trans hi.2⟩

theorem idle_foldl {α : Type} {c : Nat} {f : State → α → State} (h : ∀ s a, Idle c s → Idle c (f s a)) (as : List α) {s : State}
    (hs : Idle c s) : Idle c (as.foldl f s) := by
  induction as generalizing s with
  | nil => exact hs
  | cons a as ih => exact ih (h s a hs)

theorem foldl_clearCore {c : Nat} (cs : List Nat) (s : State) (h : c ∈ cs ∨ Idle c s) :
    Idle c (cs.foldl (fun s c => onCore s c clearCore) s) := by
  induction cs generalizing s with
  | nil => exact h.resolve_left nofun
  | cons d cs ih =>
    refine ih _ ?_
    by_cases hd : c = d
    · subst hd
      exact .inr ⟨by rw [coreOf_onCore]; rfl, by rw [coreOf_onCore]; rfl⟩
    · rcases h with h | h
      · exact .inl ((List.mem_cons.mp h).resolve_left hd)
      · exact .inr (by rw [Idle, coreOf_onCore_other _ _ _ _ hd]; exact h)

/-- What the launches of a state come from: each is one of another state's, or has failed since. -/
def LaunchStep (s t : State) : Prop :=
  ∀ l ∈ t.launches, ∃ b ∈ s.launches, l.id = b.id ∧ l.part = b.part ∧ (l.st = b.st ∨ l.st = .failed)

theorem LaunchStep.refl (s : State) : LaunchStep s s := fun l h => ⟨l, h, rfl, rfl, .inl rfl⟩

theorem LaunchStep.trans {s t u : State} (h : LaunchStep s t) (g : LaunchStep t u) : LaunchStep s u := by
  intro l hl
  obtain ⟨b, hb, hid, hp, hst⟩ := g l hl
  obtain ⟨d, hd, hid', hp', hst'⟩ := h b hb
  refine ⟨d, hd, hid.trans hid', hp.trans hp', ?_⟩
  rcases hst with hst | hst
  · rcases hst' with hst' | hst'
    · exact .inl (hst.trans hst')
    · exact .inr (hst.trans hst')
  · exact .inr hst

theorem launchStep_of_eq {s t : State} (h : t.launches = s.launches) : LaunchStep s t := by
  intro l hl
  rw [h] at hl
  exact ⟨l, hl, rfl, rfl, .inl rfl⟩

theorem quiet_launches {s t : State} (h : Quiet s t) : t.launches = s.launches := by rw [h.rest]

/-- A core stays idle, and launches only fail or leave. -/
structure EndStep (c : Nat) (s t : State) : Prop where
  idle : Idle c s → Idle c t
  launches : LaunchStep s t

theorem EndStep.refl (c : Nat) (s : State) : EndStep c s s := ⟨id, LaunchStep.refl s⟩

theorem EndStep.trans {c : Nat} {s t u : State} (h : EndStep c s t) (g : EndStep c t u) : EndStep c s u :=
  ⟨fun hs => g.idle (h.idle hs), h.launches.trans g.launches⟩

theorem endStep_quiet {c : Nat} {s t : State} (h : Quiet s t) : EndStep c s t := ⟨idle_quiet h, launchStep_of_eq (quiet_launches h)⟩

theorem endStep_foldl {α : Type} {c : Nat} {f : State → α → State} (h : ∀ s a, EndStep c s (f s a)) (as : List α) (s : State) :
    EndStep c s (as.foldl f s) := by
  induction as generalizing s with
  | nil => exact EndStep.refl c s
  | cons a as ih => exact (h s a).trans (ih _)

theorem endStep_markLaunchFailed (c : Nat) (s : State) (id : Nat) (cause : BitVec 8) : EndStep c s (markLaunchFailed s id cause) := by
  refine ⟨fun h => h, fun l hl => ?_⟩
  obtain ⟨b, hb, rfl⟩ := List.mem_map.mp hl
  refine ⟨b, hb, ?_⟩
  split
  · exact ⟨rfl, rfl, .inr rfl⟩
  · exact ⟨rfl, rfl, .inl rfl⟩

/-- A FAILED cell whose record has gone and whose waiters will raise CELL_FAILED, before its launches fail. -/
def cellFailed (s : State) (r : WakeRec) (cause : BitVec 8) (blk rcd : Nat) : State :=
  let s := cellPut s (commitWriter s (selfSlot s) r) r.va r.pa (failedPayload cause blk rcd r.evix) 3
  { s with waking := s.waking.filter (fun q => q.pa ≠ r.pa),
           accs := s.accs.map (fun a => if r.waiters.contains a.id then { a with onCell := false, failed := true } else a) }

theorem cellFail_eq (s : State) (r : WakeRec) (cause : BitVec 8) (blk rcd : Nat) : cellFail s r cause blk rcd
    = r.launches.foldl (fun s id => markLaunchFailed s id causeCellFailed) (cellFailed s r cause blk rcd) := rfl

theorem endStep_cellFailed (c : Nat) (s : State) (r : WakeRec) (cause : BitVec 8) (blk rcd : Nat) :
    EndStep c s (cellFailed s r cause blk rcd) :=
  (endStep_quiet (quiet_cellPut s (commitWriter s (selfSlot s) r) r.va r.pa (failedPayload cause blk rcd r.evix) 3)).trans
    ⟨fun h => h, launchStep_of_eq rfl⟩

theorem endStep_cellFail (c : Nat) (s : State) (r : WakeRec) (cause : BitVec 8) (blk rcd : Nat) :
    EndStep c s (cellFail s r cause blk rcd) := by
  rw [cellFail_eq]
  exact (endStep_cellFailed c s r cause blk rcd).trans (endStep_foldl (fun s id => endStep_markLaunchFailed c s id causeCellFailed) _ _)

theorem endStep_ownCellFail (c : Nat) (s : State) (e : EvalInfo) (cause : BitVec 8) (blk rcd : Nat) :
    EndStep c s (ownCellFail s e cause blk rcd) := by
  unfold ownCellFail
  split
  · split
    · exact endStep_cellFail ..
    · exact EndStep.refl c s
  · exact EndStep.refl c s

theorem quiet_logWorld (s : State) (p : Nat) (agent : Nat × Nat) (cause : BitVec 8) (addr : Word) :
    Quiet s (logWorld s p agent cause addr) := by
  unfold logWorld
  split
  · exact quiet_logEvent ..
  · exact Quiet.refl s

/-- The completion cell of a failed launch becomes FAILED at the place it translates to. -/
theorem endStep_failCell (c : Nat) (s : State) (l : Launch) (pa : Nat) :
    EndStep c s (match wakingOf s pa with
      | some r => cellFail s { r with evix := 0 } l.cause 0xFFFF 0
      | none => cellPut s (deviceWriter s l.part) l.done pa (failedPayload l.cause 0xFFFF 0 0) 3) := by
  split
  · exact endStep_cellFail ..
  · exact endStep_quiet (quiet_cellPut ..)

theorem endStep_failCompletion (c : Nat) (s : State) (l : Launch) : EndStep c s (failCompletion s l) := by
  unfold failCompletion
  split
  · exact endStep_ownCellFail ..
  · split
    · exact EndStep.refl c s
    · split
      · exact endStep_quiet (quiet_logWorld ..)
      · next x _ =>
        split
        · exact (endStep_quiet (quiet_xlatMark s l.part .store l.done x.leaf)).trans (endStep_failCell c _ l _)
        · exact EndStep.refl c s

theorem endStep_dropLaunch (c : Nat) (s : State) (id : Nat) : EndStep c s (dropLaunch s id) := by
  refine ⟨fun ⟨hw, hq⟩ => ?_, fun l hl => ⟨l, (List.mem_filter.mp hl).1, rfl, rfl, .inl rfl⟩⟩
  have hcore : coreOf (dropLaunch s id) c
      = if (coreOf s c).reserved = some id then { coreOf s c with reserved := none } else coreOf s c :=
    smGet_map Core.reset Core.reset (fun k : Core => if k.reserved = some id then { k with reserved := none } else k) rfl s.cores c
  rw [Idle, hcore]
  split
  · exact ⟨hw, hq⟩
  · exact ⟨hw, hq⟩

theorem endStep_reportFailed (c : Nat) (s : State) (l : Launch) : EndStep c s (reportFailed s l) :=
  (endStep_quiet (quiet_logEvent ..)).trans ((endStep_failCompletion ..).trans (endStep_dropLaunch ..))

/-- The launch that is reported has left. -/
theorem not_mem_reportFailed (s : State) (l : Launch) : ∀ x ∈ (reportFailed s l).launches, x.id ≠ l.id :=
  fun _ hx => of_decide_eq_true (List.mem_filter.mp (show _ ∈ List.filter (fun k : Launch => k.id ≠ l.id) _ from hx)).2

/-- Once a launch's identity has left, it does not come back. -/
theorem gone_launchStep {s t : State} (h : LaunchStep s t) {id : Nat} (hs : ∀ x ∈ s.launches, x.id ≠ id) : ∀ x ∈ t.launches, x.id ≠ id := by
  intro x hx
  obtain ⟨b, hb, hid, -⟩ := h x hx
  exact hid ▸ hs b hb

/-- Every launch that is reported has left in the end. -/
theorem foldl_reportFailed (g : Launch → Launch) (hg : ∀ l, (g l).id = l.id) (ls : List Launch) (s : State) :
    ∀ l ∈ ls, ∀ x ∈ (ls.foldl (fun s l => reportFailed s (g l)) s).launches, x.id ≠ l.id := by
  induction ls generalizing s with
  | nil => exact nofun
  | cons y ys ih =>
    intro l hl
    rcases List.mem_cons.mp hl with rfl | hl
    · refine gone_launchStep (endStep_foldl (c := 0) (fun s l => endStep_reportFailed 0 s (g l)) ys _).launches (fun x hx => ?_)
      exact hg l ▸ not_mem_reportFailed s (g l) x hx
    · exact ih _ l hl

theorem endStep_failPending (c : Nat) (s : State) (p : Nat) : EndStep c s (failPending s p) :=
  endStep_foldl (fun s l => endStep_reportFailed ..) _ s

/-- No launch of the partition is still to come. -/
theorem failPending_none (s : State) (p : Nat) : ∀ l ∈ (failPending s p).launches, l.part = p → l.st ≠ .waiting ∧ l.st ≠ .ready := by
  intro l hl hp
  obtain ⟨b, hb, hid, hpart, hst⟩ := (endStep_failPending 0 s p).launches l hl
  by_cases hc : b.st = .complete
  · rcases hst with h | h <;> simp [h, hc]
  · have hmem : b ∈ s.launches.filter (fun l => decide (l.part = p) && decide (l.st ≠ .complete)) :=
      List.mem_filter.mpr ⟨hb, by simp [← hpart, hp, hc]⟩
    exact absurd hid (foldl_reportFailed (fun l => { l with cause := if l.st = .failed then l.cause else causeSoftTrap })
      (fun _ => rfl) _ s b hmem l hl)

theorem partitionReset : PartitionReset := by
  intro s p hp
  refine ⟨_, by rw [exec_resetp, execResetp, if_neg (Nat.not_le.mpr hp)], ?_, ?_, fun c k hk hcp => ?_, ?_, ?_⟩
  · rw [partOf_onPart]
  · rw [partOf_onPart]
  · have hc : c ∈ (s.cores.map (fun q => q.1)).filter (fun c => corePart s c = p) :=
      List.mem_filter.mpr ⟨List.mem_map_of_mem (f := fun q => q.1) hk, decide_eq_true hcp⟩
    exact (endStep_failPending c _ p).idle (idle_foldl (fun s r => (endStep_cellFail c s r causeSoftTrap 0xFFFF 0).idle) _
      (foldl_clearCore _ _ (.inl hc)))
  · exact failPending_none _ p
  · exact fun r hr => of_decide_eq_true (List.mem_filter.mp (show r ∈ List.filter (fun q : LowerReq => q.part ≠ p) _ from hr)).2

/-! ## The mailbox (R146, R157, R353) -/

/-- What the mailbox leaves of a wave before its lanes end, when it has nothing to settle. -/
def endedWave (v : Wave) : Wave := { v with halted := false, stop := none, replay := [] }

theorem mailboxEndWave_gone {s : State} {c w : Nat} {v : Wave} (hv : waveOf s c w = some v) (he : v.evals = []) (hd : v.divMem = 0)
    (h0 : v.slot0.car = none) (h1 : v.slot1.car = none) (ha : waveAccs s c w v.uid = []) (hr : regionOf s c = none) :
    ∃ t, exec (.mailboxEndWave c w) s = .next t ∧ waveOf t c w = none := by
  have hcar (x : Nat) : carriageDiscard s (c, w, x) false = s := carriageDiscard_none hv (by unfold slotOf; split <;> assumption) _
  have hregion : endRegion s c w = s := by simp only [endRegion, hr]
  have hsettle : (settleWave s c w v.uid).1 = s := by simp [settleWave, performAll, ha, stuckAccs]
  have hu : waveOf (onWave s c w endedWave) c w = some (endedWave v) := by rw [waveOf_onWave, hv]; rfl
  have hgone := (endWaveLanes_spec hu hd he 0xFFFFFFFF (endWhy v)).2 (by simp)
  refine ⟨endWaveLanes (onWave s c w endedWave) c w 0xFFFFFFFF (endWhy v), ?_, hgone⟩
  have hgone' : waveOf (endWaveLanes (onWave s c w (fun v => { v with halted := false, stop := none, replay := [] })) c w
    0xFFFFFFFF (endWhy v)) c w = none := hgone
  have hend : endAccesses s (waveAccs s c w v.uid) = s := by rw [ha]; rfl
  rw [exec_mailboxEndWave, execMailboxEndWave, hv]
  simp only [hregion, hcar, hsettle, hend, hgone'] <;> rfl

theorem mailboxTret_next {s : State} {c w : Nat} {v : Wave} (hv : waveOf s c w = some v) (hh : v.halted = true)
    (hp : partRuns s v.part = true) : exec (.mailboxTret c w) s = .next (returnFrom s c w).1 := by
  simp only [exec_mailboxTret, execMailboxTret, hv, hh, hp, Bool.and_self, if_true]

theorem mailboxReadContext_next {s : State} {c : Nat} (h : (partOf s (corePart s c)).pswap = .halted) :
    exec (.mailboxReadContext c) s = .next { s with mboxCtx := smSet Core.reset s.mboxCtx c (coreOf s c) } :=
  congrArg _ (if_pos h)

theorem contextIn_waves (here ctx : Core) : (contextIn here ctx).waves = ctx.waves := rfl

/-- Every wave of a restored context is of the target partition. -/
theorem rehomeCore_part {s : State} {p src dst x : Nat} {k : Core} {u : Wave}
    (h : smGet none (rehomeCore s p src dst k).waves x = some u) : u.part = p := by
  have heq := smGet_map (none : Option Wave) none
    (fun o : Option Wave => o.map (fun v : Wave =>
      { v with part := p, evals := v.evals.map (fun e : Nat × EvalInfo => (e.1, rehomeEval s p e.2)) })) rfl k.waves x
  obtain ⟨v, -, rfl⟩ := Option.map_eq_some_iff.mp (heq.symm.trans h)
  rfl

theorem mailboxRestore_next {s : State} {p src c : Nat} (hp : p < 8) (hc : corePart s c = p) (hh : (partOf s p).pswap = .halted)
    (hs : stepsHeld s c (smGet Core.reset s.mboxCtx src) = true) (hl : lostWaking s p = []) (hq : (coreOf s c).cmds = []) :
    exec (.mailboxRestoreContext p src c) s
      = .next (setCore s c (contextIn (coreOf s c) (rehomeCore s p src c (smGet Core.reset s.mboxCtx src)))) := by
  have hrec : restoreRecords s p = s := by rw [restoreRecords, hl]; rfl
  have hab : abortCommands s c = s := by rw [abortCommands, hq]; rfl
  have hok : ¬((decide (8 ≤ p) || decide (corePart s c ≠ p) || decide ((partOf s p).pswap ≠ .halted)
      || !stepsHeld s c (smGet Core.reset s.mboxCtx src)) = true) := by
    simp [Nat.not_le.mpr hp, hc, hh, hs]
  rw [exec_mailboxRestoreContext, execMailboxRestoreContext]
  refine congrArg _ ((if_neg hok).trans ?_)
  dsimp only
  rw [hrec, hab]

theorem mailboxCommands : MailboxCommands := by
  intro s c w v
  refine ⟨mailboxEndWave_gone, mailboxTret_next, fun h => ⟨_, mailboxReadContext_next h, ?_, fun d hd => ?_, rfl⟩,
    fun p src hp hc hh hs hl hq => ⟨_, mailboxRestore_next hp hc hh hs hl hq, rfl, fun d hd => ?_, ?_, ?_, ?_, fun x u hu => ?_⟩⟩
  · exact smGet_smSet_same ..
  · exact smGet_smSet_other _ _ _ _ _ hd
  · exact coreOf_setCore_other _ _ _ _ hd
  · rw [coreOf_setCore]; rfl
  · rw [coreOf_setCore]; rfl
  · rw [coreOf_setCore]; rfl
  · rw [waveOf, coreOf_setCore] at hu
    exact rehomeCore_part (src := src) (dst := c) hu

/-- Settles O53: halt and exchange step by step; RESETP core by core and launch by launch; the mailbox. -/
theorem partitionsAsWholes : Obligations.PartitionsAsWholes := ⟨partitionsStopAndResume, partitionReset, mailboxCommands⟩

end Sys2Proof.Proofs.Partitions
end

section
/-! SUPPORT. Blocks and launches end (R48, R307). -/

open Sys2Proof Sys2Proof.Machine Sys2Proof.Cert
open Sys2Proof.Proofs.Frames

namespace Sys2Proof.Proofs.Retire

theorem exec_blockRetire (c b : Nat) (s : State) : exec (.blockRetire c b) s = execBlockRetire c b s := rfl
theorem exec_launchComplete (n : Nat) (s : State) : exec (.launchComplete n) s = execLaunchComplete n s := rfl

/-- A core once a block has left it: its stream, its groups and the block itself. -/
def coreWithout (k : Core) (block : Nat) : Core :=
  let k := match findAt (fun t => t.block = block) k.tenders 0 with
    | some i => dropTender k i
    | none => k
  freeGroups { k with blocks := k.blocks.filter (fun q => q.uid ≠ block) } block

theorem coreWithout_blocks (k : Core) (block : Nat) : (coreWithout k block).blocks = k.blocks.filter (fun q => q.uid ≠ block) := by
  unfold coreWithout freeGroups
  dsimp only
  split
  · rfl
  · rfl

/-- A state once a block has retired from a core. -/
def retired (s : State) (c block launch : Nat) : State :=
  let s := setCore s c (coreWithout (coreOf s c) block)
  { s with launches := s.launches.map (fun l => if l.id = launch then { l with retired := l.retired + 1 } else l) }

theorem blockRetire_next {s : State} {c : Nat} {b : PlacedBlock} (hb : (coreOf s c).blocks.find? (fun q => q.uid = b.uid) = some b)
    (hl : b.live = []) (he : streamEnded (coreOf s c) b.uid = true) :
    exec (.blockRetire c b.uid) s = .next (retired s c b.uid b.launch) := by
  rw [exec_blockRetire, execBlockRetire]
  dsimp only
  rw [hb]
  exact congrArg _ (if_neg (by simp [hl, he]))

theorem launchComplete_next {s : State} {l : Launch} (hl : launchOf s l.id = some l) (hd : launchDone s l = true) :
    exec (.launchComplete l.id) s = .next (dropLaunch (match l.adopt with
      | some e => (match wakingOf s e.pa with
        | some r => if r.inst = e.inst && r.slice = e.slice then cellCommit s [] r (BitVec.ofNat 64 l.nblk) else s
        | none => s)
      | none => if l.done = 0 then s else writeDone s l) l.id) := by
  rw [exec_launchComplete, execLaunchComplete, hl]
  exact congrArg _ (if_neg (by simp [hd]))

theorem not_mem_dropLaunch (s : State) (id : Nat) : ∀ q ∈ (dropLaunch s id).launches, q.id ≠ id :=
  fun q hq => of_decide_eq_true (List.mem_filter.mp (show q ∈ List.filter (fun l : Launch => l.id ≠ id) s.launches from hq)).2

/-- Settles O44: a block leaves its core, its stream and its groups; the launch writes its completion and leaves. -/
theorem launchesComplete : Obligations.LaunchesComplete := by
  refine ⟨fun s c b hb hl he => ?_, fun s l hl hdone => ?_⟩
  · have hblocks : (coreOf (retired s c b.uid b.launch) c).blocks = (coreOf s c).blocks.filter (fun q => q.uid ≠ b.uid) :=
      (congrArg Core.blocks (coreOf_setCore ..)).trans (coreWithout_blocks ..)
    refine ⟨_, blockRetire_next hb hl he, fun q hq => ?_, hblocks, rfl, rfl, fun d hd => coreOf_setCore_other _ _ _ _ hd⟩
    rw [hblocks] at hq
    exact of_decide_eq_true (List.mem_filter.mp hq).2
  · rw [launchComplete_next hl hdone]
    refine ⟨fun ha hz => ?_, fun ha hz => ?_, fun e r ha hr hi hs => ?_, fun t ht => ?_⟩
    · simp only [ha, hz, if_true]
    · simp only [ha, if_neg hz]
    · simp only [ha, hr, hi, hs, decide_true, Bool.and_self, if_true]
    · obtain rfl := Host.Outcome.next.inj ht
      exact not_mem_dropLaunch _ _

end Sys2Proof.Proofs.Retire
end

section
/-! SUPPORT. Writes of the host, of peers and of the touch window, and what they leave of memory (R136, R345, R346, R348). -/

open Sys2Proof Sys2Proof.Machine Sys2Proof.Cert
open Sys2Proof.Proofs.Frames Sys2Proof.Proofs.Home

namespace Sys2Proof.Proofs.Peers

/-! ## Runs of bytes within one line -/

/-- A run of bytes within one line is one chunk. -/
theorem lineChunks_one {a n : Nat} (fuel : Nat) (hn : 0 < n) (h : a % 64 + n ≤ 64) : lineChunks (fuel + 1) a n = [(a, n)] := by
  have hk : min n (64 - a % 64) = n := by omega
  have hz : lineChunks fuel (a + n) 0 = [] := by cases fuel <;> rfl
  rw [lineChunks, if_neg (by omega)]
  simp only [hk, Nat.sub_self, hz]

theorem getD_leBytes (n v j : Nat) (h : j < n) : (leBytes n v).getD j 0 = BitVec.ofNat 8 (v / 256 ^ j) := by
  induction n generalizing v j with
  | zero => omega
  | succ n ih =>
    cases j with
    | zero => simp [leBytes]
    | succ j =>
      rw [leBytes, List.getD_cons_succ, ih _ _ (by omega), Nat.div_div_eq_div_mul, Nat.pow_succ, Nat.mul_comm 256]

/-! ## A write that no carriage has to make way for -/

theorem noteHome_cores (s : State) (p : Nat) (own : List SlotName) (pl : Place) (w : Bool) : (noteHome s p own pl w).cores = s.cores := by
  unfold noteHome
  split <;> rfl

theorem carriagesWith_of_cores {s t : State} (h : t.cores = s.cores) (f : Carriage → Bool) : carriagesWith t f = carriagesWith s f := by
  unfold carriagesWith
  rw [h]

/-- Touching a line that no carriage has used changes nothing. -/
theorem touchLine_free {s : State} {line : Nat} (own : List SlotName)
    (h : carriagesWith s (fun car => car.lines.contains line) = []) : touchLine own line s = s := by
  have hfuel (n : Nat) : touchFuel n own line s = s := by
    cases n with
    | zero => rfl
    | succ n => rw [touchFuel, h]; rfl
  unfold touchLine
  split
  · rfl
  · exact hfuel _

/-- What stands of every memory and of the accesses' places. -/
structure SameMemory (s t : State) : Prop where
  dmem : t.dmem = s.dmem
  hmem : t.hmem = s.hmem
  fmem : t.fmem = s.fmem

theorem sameMemory_noteHome (s : State) (p : Nat) (own : List SlotName) (pl : Place) (w : Bool) : SameMemory s (noteHome s p own pl w) := by
  unfold noteHome
  split <;> exact ⟨rfl, rfl, rfl⟩

theorem SameMemory.refl (s : State) : SameMemory s s := ⟨rfl, rfl, rfl⟩

theorem SameMemory.trans {s t u : State} (h : SameMemory s t) (g : SameMemory t u) : SameMemory s u :=
  ⟨g.dmem.trans h.dmem, g.hmem.trans h.hmem, g.fmem.trans h.fmem⟩

theorem sameMemory_dropEarly (s : State) (a : Agent) (line : Nat) : SameMemory s (dropEarly s a line) := by
  unfold dropEarly
  split <;> exact ⟨rfl, rfl, rfl⟩

theorem sameMemory_foldl {α : Type} {f : State → α → State} (h : ∀ s a, SameMemory s (f s a)) (as : List α) (s : State) :
    SameMemory s (as.foldl f s) := by
  induction as generalizing s with
  | nil => exact SameMemory.refl s
  | cons a as ih => exact (h s a).trans (ih _)

theorem sameMemory_snapCopy (s : State) (pa : Nat) : SameMemory s (snapCopy s pa) := by
  refine sameMemory_foldl (fun s p => ?_) _ s
  split <;> exact ⟨rfl, rfl, rfl⟩

/-- The bytes of a write to device memory, and no other byte of any memory. -/
structure Written (s t : State) (pa : Nat) (bs : List Byte) : Prop where
  dmem : t.dmem = memWrite s.dmem pa bs
  hmem : t.hmem = s.hmem
  fmem : t.fmem = s.fmem

/-- The bytes, tags and marks of a write, once the snapshots have their copies. -/
theorem written_marks (q : State) (pa : Nat) (bs : List Byte) (pl : Place) (n m : Nat) :
    Written q (clearPoison (tagsValue (devPut q pa bs) pa n) pl m) pa bs := ⟨rfl, rfl, rfl⟩

theorem Written.of_same {s q t : State} {pa : Nat} {bs : List Byte} (g : Written q t pa bs) (h : SameMemory s q) : Written s t pa bs :=
  ⟨g.dmem.trans (congrArg (memWrite · pa bs) h.dmem), g.hmem.trans h.hmem, g.fmem.trans h.fmem⟩

theorem Written.and_same {s q t : State} {pa : Nat} {bs : List Byte} (h : Written s q pa bs) (g : SameMemory q t) : Written s t pa bs :=
  ⟨g.dmem.trans h.dmem, g.hmem.trans h.hmem, g.fmem.trans h.fmem⟩

theorem sameMemory_lineTaken (w : Writer) (pa : Nat) (bs : List Byte) (s : State) : SameMemory s (lineTaken w pa bs s) := by
  unfold lineTaken
  split <;> exact ⟨rfl, rfl, rfl⟩

theorem written_putBytes (s : State) (w : Writer) (pa : Nat) (bs : List Byte) : Written s (putBytes s w (.dev pa) bs) pa bs := by
  have hdev : Written s (devBytes s pa bs) pa bs := (written_marks ..).of_same (sameMemory_snapCopy s pa)
  rw [putBytes_dev]
  exact hdev.and_same (sameMemory_lineTaken ..)

/-- The state that the bytes of a write come to. -/
theorem placeWrite_eq (s : State) (w : Writer) (pl : Place) (bs : List Byte) : ∃ q, Quiet s q ∧ placeWrite s w pl bs = putBytes q w pl bs :=
  ⟨_, (quiet_noteHome s w.part w.own pl true).trans ((quiet_touchLine w.own (lineOf pl) _).trans (quiet_dropEarly _ w.agent (lineOf pl))), rfl⟩

theorem written_placeWrite {s : State} (w : Writer) {pa : Nat} (bs : List Byte)
    (h : carriagesWith s (fun car => car.lines.contains (lineOf (.dev pa))) = []) : Written s (placeWrite s w (.dev pa) bs) pa bs := by
  have hcar := (carriagesWith_of_cores (noteHome_cores s w.part w.own (.dev pa) true) _).trans h
  have hw : placeWrite s w (.dev pa) bs
      = putBytes (dropEarly (noteHome s w.part w.own (.dev pa) true) w.agent (lineOf (.dev pa))) w (.dev pa) bs := by
    unfold placeWrite writeBy
    rw [touchLine_free _ hcar]
  rw [hw]
  exact (written_putBytes ..).of_same ((sameMemory_noteHome ..).trans (sameMemory_dropEarly ..))

theorem Written.byte {s t : State} {pa : Nat} {bs : List Byte} (h : Written s t pa bs) (j : Nat) :
    memByte t.dmem j = if pa ≤ j ∧ j < pa + bs.length then bs.getD (j - pa) 0 else memByte s.dmem j := by
  exact (congrArg (memByte · j) h.dmem).trans (memByte_memWrite ..)

/-! ## Fabric peers (R348) -/

theorem exec_fabricPeerAccess (port pa : Nat) (op : PeerOp) (s : State) :
    exec (.fabricPeerAccess port pa op) s = execFabricPeerAccess port pa op s := rfl

/-- A peer's access that its port, its range and its home let in. -/
def PeerEnters (s : State) (port pa n : Nat) : Prop :=
  s.ports.getLsbD port = true ∧ s.stage ≠ 0 ∧ pa + n ≤ Config.deviceBytes ∧ 0 < n ∧ peerHeld s pa n = false

theorem PeerEnters.guard {s : State} {port pa n : Nat} (h : PeerEnters s port pa n) :
    ¬((decide (s.stage = 0) || !s.ports.getLsbD port || decide (Config.deviceBytes < pa + n) || decide (n = 0) || peerHeld s pa n) = true) := by
  obtain ⟨hp, hs, ha, hn, hh⟩ := h
  simp [hp, hs, hh, Nat.not_lt.mpr ha, Nat.ne_of_gt hn]

/-- What a peer's access does once it has been let in to a range that is not secure. -/
def peerPerforms (s : State) (pa : Nat) (op : PeerOp) : State :=
  match op with
  | .store d => peerStore s pa d
  | .push d => peerStore s pa d
  | _ =>
    let n := peerSize op
    if pa % n ≠ 0 then s
    else
      let old := devNat s pa n
      { regReads (match peerNew op old with
          | some v => keepPoison s pa n (peerStore s pa (leBytes n v))
          | none => s) (BitVec.ofNat 64 old) with hostData := leBytes n old, hostPoison := placePoisoned s (.dev pa) n }

theorem peerAccess_next {s : State} {port pa : Nat} {op : PeerOp} (h : PeerEnters s port pa (peerSize op))
    (hs : peerSecure s pa (peerSize op) = false) : exec (.fabricPeerAccess port pa op) s = .next (peerPerforms s pa op) := by
  rw [exec_fabricPeerAccess, execFabricPeerAccess]
  exact congrArg _ ((if_neg h.guard).trans ((if_neg (by simp [hs])).trans rfl))

theorem peerAccess_secure {s : State} {port pa : Nat} {op : PeerOp} (h : PeerEnters s port pa (peerSize op))
    (hs : peerSecure s pa (peerSize op) = true) :
    exec (.fabricPeerAccess port pa op) s = .next (logEvent s 2 causeWorld 0xFF 6 port (BitVec.ofNat 64 pa) noStage) := by
  rw [exec_fabricPeerAccess, execFabricPeerAccess]
  exact congrArg _ ((if_neg h.guard).trans (if_pos hs))

theorem peerStore_one {s : State} {pa : Nat} {bs : List Byte} (hn : bs ≠ []) (h : pa % 64 + bs.length ≤ 64) :
    peerStore s pa bs = placeWrite s (hostWriter 8) (.dev pa) bs := by
  unfold peerStore
  rw [lineChunks_one _ (List.length_pos_iff.mpr hn) h]
  simp

theorem sameMemory_keepPoison (s t : State) (pa n : Nat) : SameMemory t (keepPoison s pa n t) :=
  sameMemory_foldl (f := fun t i => markPoison t (.dev (pa + 8 * i))) (fun _ _ => ⟨rfl, rfl, rfl⟩) _ t

/-- The bits of an integer type. -/
theorem width_int {ty : Ty} (h : ty.code ≤ 5) : (if ty.wide then 64 else 32) = width ty := by
  have hne : ty ≠ .i16x2 := by rintro rfl; exact absurd h (by decide)
  rw [width, if_neg hne]

theorem signed_int {ty : Ty} (h : ty.code ≤ 5) : (decide (ty = .i32) || decide (ty = .i64)) = signed ty := by
  have hne : ty ≠ .i16x2 := by rintro rfl; exact absurd h (by decide)
  simp [signed, hne]

theorem peerNew_atom (op : Nat) {ty : Ty} (h : ty.code ≤ 5) (b c : Word) (old : Nat) : peerNew (.atom op ty b c) old
    = if (atomNew op (width ty) (signed ty) old b.toNat c.toNat).2
      then some (atomNew op (width ty) (signed ty) old b.toNat c.toNat).1 else none := by
  rw [← width_int h, ← signed_int h]
  rfl

theorem memBytes_dvd {ty : Ty} (h : ty.code ≤ 5) : ty.memBytes = 4 ∨ ty.memBytes = 8 := by
  cases ty with
  | b32 | i32 | n32 => exact .inl rfl
  | b64 | i64 | n64 => exact .inr rfl
  | _ => exact absurd h (by decide)

/-- The memory once a peer's atomic has been performed. -/
def atomMemory (s : State) (pa op : Nat) (ty : Ty) (b c : Word) : State :=
  match peerNew (.atom op ty b c) (devNat s pa ty.memBytes) with
  | some v => keepPoison s pa ty.memBytes (peerStore s pa (leBytes ty.memBytes v))
  | none => s

theorem peerAtom_eq {s : State} {pa : Nat} (op : Nat) {ty : Ty} (b c : Word) (ha : pa % ty.memBytes = 0) :
    peerPerforms s pa (.atom op ty b c) = { regReads (atomMemory s pa op ty b c) (BitVec.ofNat 64 (devNat s pa ty.memBytes)) with
      hostData := leBytes ty.memBytes (devNat s pa ty.memBytes), hostPoison := placePoisoned s (.dev pa) ty.memBytes } :=
  if_neg (Classical.not_not.mpr ha)

theorem peerAtom_written {s : State} {pa op : Nat} {ty : Ty} {b c : Word} (hty : ty.code ≤ 5) (ha : pa % ty.memBytes = 0)
    (hcar : carriagesWith s (fun car => car.lines.contains (lineOf (.dev pa))) = []) (j : Nat) :
    memByte (peerPerforms s pa (.atom op ty b c)).dmem j
      = if (atomNew op (width ty) (signed ty) (devNat s pa ty.memBytes) b.toNat c.toNat).2 = true ∧ pa ≤ j ∧ j < pa + ty.memBytes
        then BitVec.ofNat 8 ((atomNew op (width ty) (signed ty) (devNat s pa ty.memBytes) b.toNat c.toNat).1 / 256 ^ (j - pa))
        else memByte s.dmem j := by
  rw [peerAtom_eq op b c ha]
  change memByte (atomMemory s pa op ty b c).dmem j = _
  rw [atomMemory, peerNew_atom op hty]
  generalize atomNew op (width ty) (signed ty) (devNat s pa ty.memBytes) b.toNat c.toNat = new
  obtain ⟨v, write⟩ := new
  cases write with
  | false => simp
  | true =>
    have hlen := leBytes_length ty.memBytes v
    have hpos : 0 < ty.memBytes := by rcases memBytes_dvd hty with h | h <;> omega
    have hline : pa % 64 + (leBytes ty.memBytes v).length ≤ 64 := by
      rw [hlen]; rcases memBytes_dvd hty with h | h <;> rw [h] at ha ⊢ <;> omega
    have hw := written_placeWrite (hostWriter 8) (leBytes ty.memBytes v) hcar
    simp only [if_true, true_and]
    rw [(sameMemory_keepPoison ..).dmem, peerStore_one (List.ne_nil_of_length_pos (by omega)) hline, hw.byte, hlen]
    split
    · rw [getD_leBytes _ _ _ (by omega)]
    · rfl

/-- Settles O51: an access that is let in writes at its home, or is logged where its range is secure. -/
theorem peersAccessMemory : Obligations.PeersAccessMemory := by
  intro s port pa hp hs
  refine ⟨fun bs hn hl hb hh hsec hcar => ?_, fun op ty b c hty ha hb hh hsec hcar => ?_, fun op hb hn hh hsec => ?_⟩
  · have he : PeerEnters s port pa bs.length := ⟨hp, hs, hb, List.length_pos_iff.mpr hn, hh⟩
    have hw := written_placeWrite (hostWriter 8) bs hcar
    rw [← peerStore_one hn hl] at hw
    exact ⟨_, peerAccess_next (op := .store bs) he hsec, peerAccess_next (op := .push bs) he hsec, hw.byte, hw.hmem, hw.fmem⟩
  · have hpos : 0 < ty.memBytes := by rcases memBytes_dvd hty with h | h <;> omega
    refine ⟨_, peerAccess_next (op := .atom op ty b c) ⟨hp, hs, hb, hpos, hh⟩ hsec, ?_, peerAtom_written hty ha hcar⟩
    rw [peerAtom_eq op b c ha]
    rfl
  · exact peerAccess_secure ⟨hp, hs, hb, hn, hh⟩ hsec

end Sys2Proof.Proofs.Peers
end

section
/-! SUPPORT. The host's accesses through BAR0 and the touch window (R136, R147, R345, R346, R399). -/

open Sys2Proof Sys2Proof.Machine Sys2Proof.Cert
open Sys2Proof.Proofs.Frames Sys2Proof.Proofs.Home Sys2Proof.Proofs.Peers

namespace Sys2Proof.Proofs.HostSide

theorem exec_hostBar0Read (p : Nat) (off : Word) (n : Nat) (s : State) : exec (.hostBar0Read p off n) s = execHostBar0Read p off n s := rfl
theorem exec_hostBar0Write (p : Nat) (off : Word) (bs : List Byte) (s : State) :
    exec (.hostBar0Write p off bs) s = execHostBar0Write p off bs s := rfl
theorem exec_touch (p : Nat) (a : Word) (s : State) : exec (.touch p a) s = execTouch p a s := rfl
theorem exec_mkpay (p : Nat) (v : Word) (s : State) : exec (.mkpay p v) s = execMkpay p v s := rfl
theorem exec_pktag (p : Nat) (s : State) : exec (.pktag p) s = execPktag p s := rfl
theorem exec_touchStatusRead (p : Nat) (s : State) : exec (.touchStatusRead p) s = execTouchStatusRead p s := rfl

/-! ## BAR0 (R345, R399) -/

section
variable {s : State} {p : Nat} {off : Word}

/-- A range of the aperture, through the function of a configured partition. -/
theorem bar0_guard {n : Nat} (hf : functionOf s p = true) (ho : off.toNat + n ≤ 2 ^ 40) : ¬((!functionOf s p || !apertureOk off n) = true) := by
  have ha : apertureOk off n = true := decide_eq_true ho
  simp [hf, ha]

theorem hostRead_next {n : Nat} (hf : functionOf s p = true) (ho : off.toNat + n ≤ 2 ^ 40)
    (h : hostFault s p .load ((partOf s p).hbase + off) n = none) : exec (.hostBar0Read p off n) s
      = .next { (hostBytes s p ((partOf s p).hbase + off) n).1 with
          hostData := (hostBytes s p ((partOf s p).hbase + off) n).2.1, hostPoison := (hostBytes s p ((partOf s p).hbase + off) n).2.2 } := by
  rw [exec_hostBar0Read, execHostBar0Read]
  refine congrArg _ ((if_neg (bar0_guard hf ho)).trans ?_)
  dsimp only
  rw [h]

theorem hostRead_violates {n : Nat} {a : Word} (hf : functionOf s p = true) (ho : off.toNat + n ≤ 2 ^ 40)
    (h : hostFault s p .load ((partOf s p).hbase + off) n = some (causeWorld, a)) : exec (.hostBar0Read p off n) s
      = .next { logEvent s 2 causeWorld p 5 (p + 1) a noStage with hostData := List.replicate n 0, hostPoison := false } := by
  rw [exec_hostBar0Read, execHostBar0Read]
  refine congrArg _ ((if_neg (bar0_guard hf ho)).trans ?_)
  dsimp only
  rw [h]
  exact if_pos rfl

theorem hostWrite_violates {bs : List Byte} {a : Word} (hf : functionOf s p = true) (ho : off.toNat + bs.length ≤ 2 ^ 40)
    (h : hostFault s p .store ((partOf s p).hbase + off) bs.length = some (causeWorld, a)) :
    exec (.hostBar0Write p off bs) s = .next (logEvent s 2 causeWorld p 5 (p + 1) a noStage) := by
  rw [exec_hostBar0Write, execHostBar0Write]
  refine congrArg _ ((if_neg (bar0_guard hf ho)).trans ?_)
  dsimp only
  rw [h]
  exact if_pos rfl

/-- A write within one line whose place is free is performed there. -/
theorem hostWrite_line {bs : List Byte} {x : Xlat} (hf : functionOf s p = true) (ho : off.toNat + bs.length ≤ 2 ^ 40) (hn : 0 < bs.length)
    (hl : ((partOf s p).hbase + off).toNat % 64 + bs.length ≤ 64)
    (hx : xlatCheck s p (partOf s p).world .store ((partOf s p).hbase + off) = .ok x) (hh : storeHeld s p [] x.place = false) :
    exec (.hostBar0Write p off bs) s = .next (hostChunk s p ((partOf s p).hbase + off) x bs) := by
  generalize hva : (partOf s p).hbase + off = va at *
  have hchunks := lineChunks_one (bs.length / 64 + 1) hn hl
  have hword : BitVec.ofNat 64 va.toNat = va := BitVec.eq_of_toNat_eq (by simp)
  have hfault : hostFault s p .store va bs.length = none := by
    simp [hostFault, hchunks, hword, hx]
  have hfree : hostFree s p va bs.length = true := by
    simp [hostFree, hchunks, hword, hx, hh]
  rw [exec_hostBar0Write, execHostBar0Write]
  refine congrArg _ ((if_neg (bar0_guard hf ho)).trans ?_)
  dsimp only
  rw [hva, hfault]
  simp [hfree, hchunks, hword, hx]

end

/-- Bytes within one cell are one piece. -/
theorem cellChunks_one {a n : Nat} (fuel : Nat) (hn : 0 < n) (h : a % 8 + n ≤ 8) : cellChunks (fuel + 1) a n = [(a, n)] := by
  have hk : min n (8 - a % 8) = n := by omega
  have hz : cellChunks fuel (a + n) 0 = [] := by cases fuel <;> rfl
  rw [cellChunks, if_neg (by omega)]
  simp only [hk, Nat.sub_self, hz]

/-- The state in which the bytes of a host write go to their place. -/
def hostMarked (s : State) (p : Nat) (va : Word) (l : Leaf) : State := breakTr (xlatMark s p .store va l) p va l

theorem hostChunk_plain {s : State} {p pa : Nat} {va : Word} {x : Xlat} {bs : List Byte} (hp : x.place = .dev pa) (hc : x.cell = false) :
    hostChunk s p va x bs = placeWrite (hostMarked s p va x.leaf) (hostWriter p) (.dev pa) bs := by
  rw [hostChunk, hc, hp]
  rfl

theorem hostChunk_cell {s : State} {p pa : Nat} {va : Word} {x : Xlat} {bs : List Byte} (hp : x.place = .dev pa) (hc : x.cell = true)
    (hn : 0 < bs.length) (hb : pa % 8 + bs.length ≤ 8) : hostChunk s p va x bs = hostCell (hostMarked s p va x.leaf) p pa va bs := by
  rw [hostChunk, hc, hp]
  simp [cellChunks_one 8 hn hb, hostMarked]

theorem hostCell_writes {q : State} {p pa : Nat} {va : Word} {bs : List Byte}
    (h : bs.length = 8 ∧ cellLost q pa = false ∨ bs.length < 8 ∧ cellTag q pa = 0) :
    hostCell q p pa va bs = placeWrite q (hostWriter p) (.dev pa) bs := by
  unfold hostCell
  rcases h with ⟨h8, hl⟩ | ⟨h8, ht⟩
  · simp [h8, hl]
  · simp [Nat.ne_of_lt h8, ht]

theorem hostCell_refuses {q : State} {p pa : Nat} {va : Word} {bs : List Byte} (h8 : bs.length < 8) (ht : cellTag q pa ≠ 0)
    (hl : cellLost q pa = false) :
    hostCell q p pa va bs = logEvent q 1 0 p 5 (p + 1) (BitVec.ofNat 64 (va.toNat / 8 * 8)) noStage := by
  simp only [hostCell, Nat.ne_of_lt h8, ht, meetsLost, hl, touchRefused, decide_false, Bool.false_and, Bool.or_self,
    Bool.false_eq_true, if_false]

theorem hostAccesses : HostAccesses := by
  intro s p off n bs hf ho hlen
  subst hlen
  refine ⟨fun h => ⟨_, hostRead_next hf ho h, rfl, rfl⟩, fun a h => hostRead_violates hf ho h, fun x pa hn hl hx hp hh => ?_,
    fun a h => hostWrite_violates hf ho h⟩
  have hw := hostWrite_line hf ho hn hl hx (by rw [hp]; exact hh)
  refine ⟨fun hcase => hw.trans (congrArg _ ?_), fun hc h8 hb ht hlost => hw.trans (congrArg _ ?_)⟩
  · rcases hcase with hc | ⟨h8, hal, hlost⟩ | ⟨h8, hb, ht⟩
    · exact hostChunk_plain hp hc
    · cases hc : x.cell with
      | false => exact hostChunk_plain hp hc
      | true => exact (hostChunk_cell hp hc hn (by omega)).trans (hostCell_writes (.inl ⟨h8, hlost⟩))
    · cases hc : x.cell with
      | false => exact hostChunk_plain hp hc
      | true => exact (hostChunk_cell hp hc hn hb).trans (hostCell_writes (.inr ⟨h8, ht⟩))
  · exact (hostChunk_cell hp hc hn hb).trans (hostCell_refuses h8 ht hlost)

/-! ## The touch window (R346, R147) -/

section
variable {s : State} {p : Nat}

/-- A use of the window that is refused: STATUS and the log. -/
def windowRefused (s : State) (p : Nat) (a : Word) : State :=
  logEvent (onPart s p (fun q => { q with status := true })) 1 0 p 5 (p + 1) a noStage

theorem windowRefuses_eq (s : State) (p : Nat) (a : Word) : windowRefuses s p a = windowRefused s p a := rfl

theorem touch_none {a : Word} (hf : functionOf s p = true) (h : windowCell s p .load a = none) :
    exec (.touch p a) s = .next (windowRefused s p a) := by
  simp only [exec_touch, execTouch, hf, h, Bool.not_true, Bool.false_eq_true, if_false, windowRefuses_eq]

/-- A cell that the window finds is woken where it is DORMANT; one whose record is lost fails. -/
theorem touch_some {a : Word} {pa : Nat} {l : Leaf} (hf : functionOf s p = true) (h : windowCell s p .load a = some (pa, l))
    (hh : storeHeld s p [] (.dev pa) = false) : exec (.touch p a) s = .next (
      let m := xlatMark s p .load a l
      if cellTag m pa = 1 then
        (wakeCell m p pa a (BitVec.ofNat 64 (devNat m pa 8)) (partOf m p).world ⟨(5, p + 1), [], none, none, none, []⟩).1
      else meetsLost m p a pa) := by
  simp only [exec_touch, execTouch, hf, h, hh, Bool.not_true, Bool.false_eq_true, if_false]

theorem mkpay_some {v : Word} {pa : Nat} {l : Leaf} (hf : functionOf s p = true)
    (h : windowCell s p .store (partOf s p).mkaddr = some (pa, l)) (hh : storeHeld s p [] (.dev pa) = false) : exec (.mkpay p v) s = .next (
      if cellTag s pa = 2 then windowRefuses (meetsLost s p (partOf s p).mkaddr pa) p (partOf s p).mkaddr
      else cellPut (xlatMark s p .store (partOf s p).mkaddr l) (hostWriter p) (partOf s p).mkaddr pa v 1) := by
  simp only [exec_mkpay, execMkpay, hf, h, hh, Bool.not_true, Bool.false_eq_true, if_false]

/-- The state in which the bytes of a cell go to their place: its page has left the Sinter stores. -/
def cellUnlowered (s : State) (w : Writer) (va : Word) : State :=
  match leafOf s w.part va with
  | some l => breakTr s w.part va l
  | none => s

/-- A cell once its bytes and its tag are written. -/
theorem cellPut_spec (s : State) (w : Writer) (va : Word) (pa : Nat) (v : Word) (tag : BitVec 2) :
    cellTag (cellPut s w va pa v tag) pa = tag
    ∧ ∀ i, i < 8 → memByte (cellPut s w va pa v tag).dmem (pa + i) = BitVec.ofNat 8 (v.toNat / 256 ^ i) := by
  have hput : cellPut s w va pa v tag = { placeWrite (cellUnlowered s w va) w (.dev pa) (leBytes 8 v.toNat) with
    tags := smSet 0 (placeWrite (cellUnlowered s w va) w (.dev pa) (leBytes 8 v.toNat)).tags (pa / 8) tag } := rfl
  obtain ⟨q, -, hq⟩ := placeWrite_eq (cellUnlowered s w va) w (.dev pa) (leBytes 8 v.toNat)
  rw [hput, hq]
  refine ⟨smGet_smSet_same .., fun i hi => ?_⟩
  have hb := (written_putBytes q w pa (leBytes 8 v.toNat)).byte (pa + i)
  rw [leBytes_length, if_pos (by omega), Nat.add_sub_cancel_left, getD_leBytes _ _ _ hi] at hb
  exact hb

theorem touchStatusRead_next (hf : functionOf s p = true) : exec (.touchStatusRead p) s
    = .next (regReads (onPart s p (fun q => { q with status := false })) (if (partOf s p).status then 1 else 0)) := by
  simp only [exec_touchStatusRead, execTouchStatusRead, hf, Bool.not_true, Bool.false_eq_true, if_false]

theorem pktag_next (hf : functionOf s p = true) : exec (.pktag p) s
    = .next (regReads (if pktagViolates s p then touchRefused s p (partOf s p).pkaddr else s) (pktagWord s p)) := by
  simp only [exec_pktag, execPktag, hf, Bool.not_true, Bool.false_eq_true, if_false]

theorem pktagWord_cell {a : Word} {x : Leaf} {pa : Nat} (hk : (partOf s p).pkaddr = a) (hc : canonical a = true) (ha : a.toNat % 8 = 0)
    (hx : leafOf s p a = some x) (hb : pteBit x.val 59 = true) (hs : leafSecure s x a = false) (hp : leafPlace x a = .dev pa) :
    pktagWord s p = BitVec.ofNat 64 (4 + (cellTag s pa).toNat) := by
  simp only [pktagWord, hk, hc, ha, hx, hb, hs, hp, decide_true, Bool.and_self, Bool.not_false, Bool.true_or]

end

theorem touchWindow : TouchWindow := by
  intro s p a v hf
  refine ⟨touch_none hf, fun pa l h hh => ⟨fun ht => ?_, fun ht hl => ?_⟩, fun pa l hk h hh => ⟨fun ht => ?_, fun ht hl => ?_⟩,
    ⟨_, touchStatusRead_next hf, rfl, ?_, ?_⟩, ⟨_, pktag_next hf, rfl, fun hv => ?_⟩, fun x pa => pktagWord_cell⟩
  · rw [touch_some hf h hh]
    exact congrArg _ (if_pos ht)
  · rw [touch_some hf h hh]
    exact congrArg _ ((if_neg ht).trans (by rw [meetsLost, if_neg (by simp [hl])]))
  · obtain ⟨htag, hbytes⟩ := cellPut_spec (xlatMark s p .store a l) (hostWriter p) a pa v 1
    subst hk
    exact ⟨_, (mkpay_some hf h hh).trans (congrArg _ (if_neg ht)), htag, hbytes⟩
  · subst hk
    rw [mkpay_some hf h hh]
    refine congrArg _ ((if_pos ht).trans ?_)
    rw [meetsLost, if_neg (by simp [hl]), windowRefuses_eq]
    rfl
  · exact congrArg Part.status (partOf_onPart s p (fun q => { q with status := false }))
  · exact partOf_onPart s p (fun q => { q with status := false })
  · rw [hv]
    rfl

/-- Settles O49: BAR0 by its one chunk and the place it translates to; the touch window by the cell it finds. -/
theorem hostInterface : Obligations.HostInterface := ⟨hostAccesses, touchWindow⟩

end Sys2Proof.Proofs.HostSide
end

section
/-! SUPPORT. The Sinter store and the verification of modules (R181, R187, R193, R195, R200). -/

open Sys2Proof Sys2Proof.Machine Sys2Proof.Cert
open Sys2Proof.Proofs.Frames Sys2Proof.Proofs.Life Sys2Proof.Proofs.Home

namespace Sys2Proof.Proofs.Lower

theorem exec_loweringComplete (d n : Nat) (s : State) : exec (.loweringComplete d n) s = execLoweringComplete d n s := rfl
theorem exec_sinterEvict (d n : Nat) (s : State) : exec (.sinterEvict d n) s = execSinterEvict d n s := rfl
theorem exec_mgModver (p : Nat) (a : RegAccess) (s : State) : exec (.mgModver p a) s = execMgModver p a s := rfl
theorem exec_moduleVerified (p : Nat) (s : State) : exec (.moduleVerified p) s = execModuleVerified p s := rfl

/-! ## Lowering (R187, R195, R200) -/

theorem quiet_dropTlb (s : State) (tlb : List Tlb) : Quiet s { s with tlb := tlb } := quiet_marks s tlb s.serial s.owed s.homeWaits

theorem quiet_setTr (p : Nat) (sec : Bool) (s : State) (va : Word) : Quiet s (setTr p sec s va) := by
  unfold setTr
  split
  · exact Quiet.refl s
  · dsimp only
    split
    · exact quiet_xlatMark ..
    · exact (quiet_placeWrite ..).trans ((quiet_dropTlb ..).trans (quiet_xlatMark ..))

theorem quiet_logFetch (s : State) (q : LowerReq) (m : Option Marker) : Quiet s (logFetch s q m) := by
  unfold logFetch
  split
  · split
    · exact quiet_logEvent ..
    · exact Quiet.refl s
  · exact Quiet.refl s

/-- An entry is of its request's key and partition, with what the engine has read. -/
structure Answers (q : LowerReq) (b : Lowered) (e : SEntry) : Prop where
  key : e.key = q.key
  part : e.part = q.part
  recs : e.recs = b.recs
  lits : e.lits = b.lits
  marker : e.marker = b.marker
  pages : e.pages = b.pages

theorem answers_entryOf (s : State) (q : LowerReq) (b : Lowered) : Answers q b (entryOf s q b) := by
  unfold entryOf
  dsimp only
  split <;> exact ⟨rfl, rfl, rfl, rfl, rfl, rfl⟩

/-- What the engine does for a request that it answers with an entry. -/
def answered (s : State) (q : LowerReq) (b : Lowered) : State :=
  logFetch (b.pages.foldl (setTr q.part q.key.sec) { s with lowerReqs := s.lowerReqs.filter (fun r => r ≠ q) }) q b.marker

theorem quiet_answered (s : State) (q : LowerReq) (b : Lowered) :
    Quiet { s with lowerReqs := s.lowerReqs.filter (fun r => r ≠ q) } (answered s q b) :=
  (quiet_foldl (quiet_setTr q.part q.key.sec) _ _).trans (quiet_logFetch ..)

/-- The page of a request of PFI alone fails. -/
def pfiFails (q : LowerReq) (b : Lowered) : Bool :=
  q.pfi && (match b.marker with
    | some m => decide (m.cause ≠ causeLowerReject)
    | none => false)

theorem installEntry_eq (s : State) (q : LowerReq) (b : Lowered) : installEntry s q b =
    if pfiFails q b then { s with lowerReqs := s.lowerReqs.filter (fun r => r ≠ q) }
    else onDie { answered s q b with freeCtr := (answered s q b).freeCtr + 1 } q.die (fun d => putEntry d (entryOf (answered s q b) q b)) := rfl

theorem lowering_next {s : State} {n : Nat} {q : LowerReq} (h : s.lowerReqs[n]? = some q) : exec (.loweringComplete q.die n) s
    = .next (if trWaits s q.part q.key.sec (lowerBlock s q).pages then s else installEntry s q (lowerBlock s q)) := by
  rw [exec_loweringComplete, execLoweringComplete, h]
  exact congrArg _ (if_neg (Classical.not_not.mpr rfl))

theorem pfiFails_false {q : LowerReq} {b : Lowered}
    (h : q.pfi = false ∨ b.marker = none ∨ (∃ m, b.marker = some m ∧ m.cause = causeLowerReject)) : pfiFails q b = false := by
  rcases h with h | h | ⟨m, h, hm⟩
  · simp [pfiFails, h]
  · simp [pfiFails, h]
  · simp [pfiFails, h, hm]

theorem mem_putEntry {d : Die} {e x : SEntry} (h : x ∈ (putEntry d e).sinter) : x.key = e.key ∨ x ∈ d.sinter := by
  rcases List.mem_append.mp h with h | h
  · exact .inr ((List.mem_filter.mp h).1)
  · exact .inl (congrArg SEntry.key (List.mem_singleton.mp h))

/-- One entry of its key stands in the store. -/
theorem putEntry_one (d : Die) (e : SEntry) : (putEntry d e).sinter.filter (fun x => x.key = e.key) = [e] := by
  simp [putEntry, List.filter_filter]

theorem installEntry_stands (s : State) (q : LowerReq) (hd : q.die < s.dies.length) {b : Lowered} (hf : pfiFails q b = false) :
    ∃ e, Answers q b e ∧ q ∉ (installEntry s q b).lowerReqs
      ∧ (dieOf (installEntry s q b) q.die).sinter.filter (fun x => x.key = q.key) = [e]
      ∧ ∀ d, ∀ x ∈ (dieOf (installEntry s q b) d).sinter, x.key ≠ q.key ∨ d ≠ q.die → x ∈ (dieOf s d).sinter := by
  have hq := quiet_answered s q b
  have he := answers_entryOf (answered s q b) q b
  have hlen : q.die < ({ answered s q b with freeCtr := (answered s q b).freeCtr + 1 } : State).dies.length := hq.dies.count ▸ hd
  have hsub (d : Nat) : ∀ x ∈ (dieOf (answered s q b) d).sinter, x ∈ (dieOf s d).sinter := by
    obtain ⟨_, _, _, hs, heq⟩ := hq.dies.die d
    intro x hx
    exact hs x (by simpa only [heq] using hx)
  rw [installEntry_eq, hf, if_neg Bool.false_ne_true]
  generalize entryOf (answered s q b) q b = e at he ⊢
  refine ⟨e, he, fun hm => ?_, ?_, fun d x hx hor => ?_⟩
  · have hreqs : (answered s q b).lowerReqs = s.lowerReqs.filter (fun r => r ≠ q) := by rw [hq.rest]
    have hm' : q ∈ (answered s q b).lowerReqs := hm
    rw [hreqs] at hm'
    exact of_decide_eq_true (List.mem_filter.mp hm').2 rfl
  · rw [dieOf_onDie hlen, ← he.key]
    exact putEntry_one ..
  · by_cases hdq : d = q.die
    · subst hdq
      rw [dieOf_onDie hlen] at hx
      rcases mem_putEntry hx with hk | hx
      · exact absurd (hk.trans he.key) (hor.resolve_right (Classical.not_not.mpr rfl))
      · exact hsub _ x hx
    · rw [dieOf_onDie_other hdq] at hx
      exact hsub d x hx

/-! ## Evictions (R193) -/

theorem sinter_length {s : State} {d n : Nat} {e : SEntry} (h : (dieOf s d).sinter[n]? = some e) : d < s.dies.length := by
  refine Classical.byContradiction fun hd => ?_
  have hnone : dieOf s d = Die.reset 4000 := by
    simp only [dieOf, List.getD_eq_getElem?_getD, List.getElem?_eq_none (Nat.le_of_not_lt hd), Option.getD_none]
  rw [hnone] at h
  exact absurd h nofun

theorem sinterEvict_next {s : State} {d n : Nat} {e : SEntry} (h : (dieOf s d).sinter[n]? = some e) :
    exec (.sinterEvict d n) s = .next (onDie s d (fun q => dropFrom q (fun x => q.sinter[n]? = some x))) := by
  obtain ⟨hn, -⟩ := List.getElem?_eq_some_iff.mp h
  rw [exec_sinterEvict, execSinterEvict, if_neg (Nat.not_le.mpr hn)]

theorem sinterStore : SinterStore := by
  refine ⟨fun s n q hq hd => ⟨fun hw => ?_, fun hw hp hm => ?_, fun hw hor => ?_⟩, fun s d n e he => ?_⟩
  · rw [lowering_next hq, hw]
    rfl
  · obtain ⟨m, hm, hc⟩ := hm
    have hf : pfiFails q (lowerBlock s q) = true := by simp only [pfiFails, hp, hm, hc, ne_eq, not_false_eq_true, decide_true, Bool.and_self]
    rw [lowering_next hq, hw, installEntry_eq, hf]
    rfl
  · obtain ⟨e, ⟨hk, hp, hr, hl, hm, hpg⟩, hgone, hone, hold⟩ := installEntry_stands s q hd (pfiFails_false hor)
    exact ⟨_, e, by rw [lowering_next hq, hw]; rfl, hgone, hone, hk, hp, hr, hl, hm, hpg, fun d _ => hold d⟩
  · refine ⟨_, sinterEvict_next he, rfl, ?_, fun m hm => dieOf_onDie_other hm _⟩
    rw [dieOf_onDie (sinter_length he)]
    refine List.filter_congr fun x _ => ?_
    rw [he]
    simp [eq_comm]

/-! ## Modules (R181) -/

theorem mgModver_next {p : Nat} (hp : p < 8) (s : State) :
    exec (.mgModver p .read) s = .next { s with hostWord := (partOf s p).modWord }
    ∧ ∀ v, exec (.mgModver p (.write v)) s = .next (onPart s p (fun q => { q with modAddr := some v, modWord := BitVec.allOnes 64 })) :=
  ⟨congrArg _ (if_neg (Nat.not_le.mpr hp)), fun _ => congrArg _ (if_neg (Nat.not_le.mpr hp))⟩

/-- The pages of the image carry TR and the entries of the module have left, before its word is there. -/
def moduleRead (s : State) (p : Nat) (base : Word) : State :=
  let q := partOf s p
  let sec := q.world || q.bothw
  dropEntries ((imagePages (fetchBytes s p sec) base).foldl (setTr p sec) s) p (fun e => e.modl = base)

/-- The register of a module that has been verified. -/
def moduleKept (s : State) (p : Nat) (base : Word) : ModReg :=
  verifiedModule p (fetchBytes s p ((partOf s p).world || (partOf s p).bothw)) base

theorem moduleVerified_next {s : State} {p : Nat} {base : Word} (hp : p < 8) (hb : (partOf s p).modAddr = some base)
    (hw : trWaits s p ((partOf s p).world || (partOf s p).bothw)
      (imagePages (fetchBytes s p ((partOf s p).world || (partOf s p).bothw)) base) = false) : exec (.moduleVerified p) s
    = .next { onPart (moduleRead s p base) p (fun q => { q with modAddr := none, modWord := (moduleKept s p base).word }) with
        modules := (moduleRead s p base).modules.filter (fun m => !(m.part = p && m.base = base)) ++ [moduleKept s p base] } := by
  rw [exec_moduleVerified, execModuleVerified, hb]
  exact congrArg _ (if_neg (by simp [hw, hp]))

theorem partOf_keptModule (t : State) (p : Nat) (w : Word) (ms : List ModReg) :
    partOf { onPart t p (fun q => { q with modAddr := none, modWord := w }) with modules := ms } p
      = { partOf t p with modAddr := none, modWord := w } := partOf_onPart t p (fun q => { q with modAddr := none, modWord := w })

theorem modulesAreVerified : ModulesAreVerified := by
  intro s p hp
  obtain ⟨hread, hwrite⟩ := mgModver_next hp s
  refine ⟨hread, fun v => ⟨_, hwrite v, partOf_onPart .., fun q hq => partOf_onPart_other _ _ _ _ hq, rfl⟩, fun base hb => ?_⟩
  intro sec rd hw
  refine ⟨_, moduleKept s p base, moduleVerified_next hp hb hw, ?_, ?_, ?_, rfl⟩
  · rw [partOf_keptModule]
    rfl
  · rw [partOf_keptModule]
  · have hkept : (moduleKept s p base).part = p ∧ (moduleKept s p base).base = base := ⟨rfl, rfl⟩
    simp [hkept.1, hkept.2, List.filter_filter]

/-- Settles O48: one entry of its key stands where a request is answered; the word of a module is kept with it. -/
theorem loweringAndModules : Obligations.LoweringAndModules := ⟨sinterStore, modulesAreVerified⟩

end Sys2Proof.Proofs.Lower
end

section
/-! SUPPORT. What a step runs: a slot's word, a tender's record, an event (R24, R50, R201, R307, R359; log entry 5). -/

open Sys2Proof Sys2Proof.Machine Sys2Proof.Cert

namespace Sys2Proof.Proofs.Turns

/-- A step is the agenda's turn, with what follows a turn by itself. -/
theorem step_of_agenda {s : State} {t : Turn} {rest : List Turn} (h : s.agenda = t :: rest) :
    step s = turnEnds t (turnStart { s with agenda := rest }) (turnBody t (turnStart { s with agenda := rest })) := by
  rw [step, stepTurn, h]
  dsimp only [takeTurn]
  cases turnBody t (turnStart { s with agenda := rest }) <;> rfl

/-! ## The issue of a slot -/

theorem turnBody_issue {s : State} {c : Nat} (hc : c < Config.numCores) (defer : Bool) :
    turnBody (.issue c defer) s = issueTurn s c defer := if_pos hc

theorem issueTurn_picks {s : State} {c w x : Nat} (h : pickSlot (refresh s c) c = some (w, x)) (defer : Bool) :
    issueTurn s c defer = mapNext (fun t => afterIssue t c w x (paceOf (refresh s c) c w x) (waveOf (refresh s c) c w))
      (runSlot (refresh s c) c w x defer) := by
  rw [issueTurn, h]

/-- A word issues where its wave has no kept entry. -/
theorem runSlot_word {s : State} {c w x : Nat} {v : Wave} {i : Instr} {cur : Issue} {n : Option Nat} {defer : Bool}
    (hv : waveOf s c w = some v) (hr : v.replay = []) (hi : nextIssue s c w x v defer = .word i cur n) :
    runSlot s c w x defer = runWord { atWord s c w x cur n with cur := cur } i := by
  have hk : keptEntry v x = none := by rw [keptEntry, hr]; rfl
  rw [runSlot, hv]
  dsimp only
  rw [hi]
  dsimp only [runCode]
  rw [hk]

/-- The word is a fetch marker, which no comparator names. -/
def isMarker : Instr → Bool
  | .fetchMarker _ => true
  | _ => false

/-- The issue of a word for the lanes of a slot (R359, R396). -/
def wordRuns (s : State) (k : Ctx) (i : Instr) : Host.Outcome State Fault Refusal :=
  if k.lanes = [] && !runsEmpty i then .next (advance s k)
  else
    let past := k.slot.stepOver = some (s.cur.blk, s.cur.rcd)
    match (if past || isMarker i then none else matchOf s k i) with
    | some m => .next (takeHalt s k i m)
    | none =>
      let out := match poisonedLanes s k i with
        | [] => exec i s
        | bad => runPoisoned s k i bad
      if past then mapNext (dropStepOver k s.cur) out else out

theorem runWord_of_ctx {s : State} {k : Ctx} (hk : ctxOf s = some k) (i : Instr) : runWord s i = wordRuns s k i := by
  have h : runWord s i = (match ctxOf s with
    | none => .next s
    | some k => wordRuns s k i) := by
    delta runWord wordRuns isMarker
    rfl
  rw [h, hk]

/-- A word that no comparator and no poisoned register stops executes. -/
theorem runWord_exec {s : State} {i : Instr} {k : Ctx} (hk : ctxOf s = some k) (hl : k.lanes ≠ []) (hs : k.slot.stepOver = none)
    (hm : matchOf s k i = none) (hp : poisonedLanes s k i = []) : runWord s i = exec i s := by
  have hpast : ¬ k.slot.stepOver = some (s.cur.blk, s.cur.rcd) := by simp [hs]
  rw [runWord_of_ctx hk, wordRuns, if_neg (by simp [hl])]
  simp only [hpast, hm, ite_self, hp, if_false]

/-! ## The word of a slot -/

theorem wordAt_record {s : State} {c : Nat} {e : SEntry} {v : Wave} {t : Slot} {w : Word} {i : Instr} (hm : e.marker = none)
    (hc : e.code = []) (hw : e.recs[t.rcd]? = some w) (hd : decode w = .ok i) :
    wordAt s c e v t = .ins i ⟨.value, v.winBase, none⟩ (t.rcd + 1) := by
  simp only [wordAt, hm, hc, hw, hd, Bool.false_eq_true, if_false, ne_eq, not_true]

theorem nextIssue_record {s : State} {c w x : Nat} {defer : Bool} {v : Wave} {e : SEntry} {word : Word} {i : Instr} (hr : v.replay = [])
    (he : slotCode s c v (slotOf v x) = some e) (hm : e.marker = none) (hc : e.code = [])
    (hw : e.recs[(slotOf v x).rcd]? = some word) (hd : decode word = .ok i) :
    nextIssue s c w x v defer = .word i (recordIssue c w x v e defer) none := by
  have hword := wordAt_record (s := s) (c := c) (v := v) (t := { slotOf v x with dieAt := none }) hm hc hw hd
  have hnext : dieNext e ((slotOf v x).rcd + 1) = none := by simp [dieNext, hc]
  have hends (n : Option (Nat × Nat)) : completes e (slotOf v x).rcd n = [(slotOf v x).rcd] := if_pos hc
  have hdie (t : Slot) : dieIndex e t = none := if_pos hc
  rw [nextIssue, hr]
  dsimp only [headEntry]
  rw [he]
  dsimp only
  rw [if_pos hc, hword]
  dsimp only
  rw [hnext, hends, hdie]
  rfl

/-! ## A tender's turn -/

theorem tenderTurn_record {s : State} {c n : Nat} {t : Tender} {word : Word} {i : Instr} (hp : partRuns s (corePart s c) = true)
    (ha : (coreOf s c).active = some n) (ht : (coreOf s c).tenders[n]? = some t) (hb : t.bad = none) (hw : t.recs[t.pc]? = some word)
    (hd : decodeTender word = .ok i) : tenderTurn s c = exec i { onCore s c (fun k => { k with tenderAt := k.cycle + 1 }) with
      cur := { Issue.reset with who := .tender c n, recs := t.recs, lits := t.lits } } := by
  have hrun : partRuns (onCore s c (fun k => { k with tenderAt := k.cycle + 1 }))
      (corePart (onCore s c (fun k => { k with tenderAt := k.cycle + 1 })) c) = true := hp
  have hstream : streamTurn (onCore s c (fun k => { k with tenderAt := k.cycle + 1 })) c n t
      = exec i { onCore s c (fun k => { k with tenderAt := k.cycle + 1 }) with
          cur := { Issue.reset with who := .tender c n, recs := t.recs, lits := t.lits } } := by
    simp only [streamTurn, hb, hw, hd]
  rw [tenderTurn]
  dsimp only
  rw [hrun, ha]
  simp only [Bool.not_true, Bool.false_eq_true, if_false, ht, hstream]

/-- Settles O55: the agenda's turn, then the slot's word, the stream's record or the event. -/
theorem stepRunsDecodedRecord : Obligations.StepRunsDecodedRecord := by
  refine ⟨fun s c w x defer rest v i cur n k ha hc => ?_, fun s c w x defer v e word i => nextIssue_record,
    fun s c n rest t word i ha hc hp hact ht hb hw hd => ?_, fun s rest i ha hi => ?_⟩
  · intro s0 s1 hpick hv hr hi hk hl hso hm hp
    rw [step_of_agenda ha, turnBody_issue hc, issueTurn_picks hpick, runSlot_word hv hr hi, runWord_exec hk hl hso hm hp]
    exact congrArg _ (congrArg (fun u => mapNext (fun t => afterIssue t c w x (paceOf s0 c w x) u) (exec i s1)) hv)
  · intro s0 s1
    rw [step_of_agenda ha]
    exact congrArg _ ((if_pos hc).trans (tenderTurn_record (s := s0) hp hact ht hb hw hd))
  · rw [step_of_agenda ha]
    exact congrArg _ (if_neg (by simp [hi]))

end Sys2Proof.Proofs.Turns
end

section
/-! SUPPORT. Task records are popped, binned, launched, stolen and moved (R38 to R41, R141). -/

open Sys2Proof Sys2Proof.Machine Sys2Proof.Cert
open Sys2Proof.Proofs.Frames Sys2Proof.Proofs.Home

namespace Sys2Proof.Proofs.Moves

theorem exec_dequePop (c : Nat) (s : State) : exec (.dequePop c) s = execDequePop c s := rfl
theorem exec_binTimerExpiry (c b : Nat) (s : State) : exec (.binTimerExpiry c b) s = execBinTimerExpiry c b s := rfl
theorem exec_binLaunch (c b : Nat) (s : State) : exec (.binLaunch c b) s = execBinLaunch c b s := rfl
theorem exec_steal (a b : Nat) (s : State) : exec (.steal a b) s = execSteal a b s := rfl
theorem exec_evalRecordMove (a i b : Nat) (s : State) : exec (.evalRecordMove a i b) s = execEvalRecordMove a i b s := rfl

/-! ## The search of the modules leaves the cores to their partitions -/

theorem corePart_quiet {s t : State} (h : Quiet s t) (c : Nat) : corePart t c = corePart s c := by
  have hmap (p : Nat) : (partOf t p).clmap = (partOf s p).clmap := by
    obtain ⟨_, hp⟩ := h.parts p
    rw [hp]
  simp only [corePart, clusterPart, hmap]

theorem quiet_markFetch (s : State) (p : Nat) (sec : Bool) (va : Word) (n : Nat) : Quiet s (markFetch s p sec va n) := by
  refine quiet_foldl (fun s c => ?_) _ s
  dsimp only
  split
  · exact quiet_xlatMark ..
  · exact Quiet.refl s

theorem quiet_markTable (s : State) (p : Nat) (base : Word) : Quiet s (markTable s p base) := by
  unfold markTable
  split
  · exact Quiet.refl s
  · refine ((quiet_markFetch ..).trans (quiet_markFetch ..)).trans (quiet_foldl (fun s i => ?_) _ _)
    split
    · exact quiet_markFetch ..
    · exact Quiet.refl s

theorem quiet_markBlocks (s : State) (p : Nat) : Quiet s (markBlocks s p) :=
  quiet_foldl (f := fun s (m : ModReg) => markTable s p m.base) (fun s m => quiet_markTable s p m.base) _ s

/-! ## The binning stage (R38, R39) -/

theorem startBin_spec (s : State) (c : Nat) (t : TaskRec) : startBin s c t
    = onCore s c (fun k => { k with bins := k.bins ++ [⟨t.entry, t.launch, t.eval, [t], k.cycle + binCycles k t, false⟩] }) := rfl

/-- A record of a new pair starts a bin where one is free. -/
theorem handleRecord_new {s : State} {c : Nat} {t : TaskRec} (h : (coreOf s c).bins = []) : handleRecord s c t = startBin s c t := by
  unfold handleRecord
  simp [h, findAt]

section
variable {s : State} {c : Nat} (hp : partRuns s (corePart s c) = true) (hb : stageBlocked (coreOf s c) = false)
include hp hb

theorem dequePop_staged {t : TaskRec} {r : List TaskRec} (hs : (coreOf s c).stage = t :: r) : exec (.dequePop c) s
    = .next (if staleRecord s c t then onCore s c (fun k => { k with stage := r })
        else handleRecord (onCore s c (fun k => { k with stage := r })) c t) := by
  rw [exec_dequePop, execDequePop]
  simp only [hp, hb, hs, Bool.not_true, Bool.false_eq_true, if_false]
  rfl

theorem dequePop_deque (hs : (coreOf s c).stage = []) (hq : (coreOf s c).dqCount ≠ 0) : exec (.dequePop c) s = .next (
    let t := taskParse (placeRead s (dequePlace (coreOf s c) c ((coreOf s c).dqHead + (coreOf s c).dqCount - 1)) 32)
    if staleRecord s c t then onCore s c (fun k => { k with dqCount := k.dqCount - 1 })
    else handleRecord (onCore s c (fun k => { k with dqCount := k.dqCount - 1 })) c t) := by
  rw [exec_dequePop, execDequePop]
  simp only [hp, hb, hs, hq, Bool.not_true, Bool.false_eq_true, if_false]
  rfl

end

/-- A bin with a place becomes a wave there. -/
theorem launchBin_placed {s : State} {c i : Nat} {b : Bin} {f : FoundBlock} {d : EntryDesc} {sp : Spot}
    (hp : partRuns s (corePart s c) = true) (hi : (coreOf s c).bins[i]? = some b) (hh : binHere s c b = true)
    (hf : findEntry (markBlocks s (corePart s c)) (corePart s c) b.entry (if b.eval then 3 else 2) = some (f, d))
    (hc : coupledMode (coreOf (markBlocks s (corePart s c)) c) = false)
    (hs : (if b.eval then anySpot (markBlocks s (corePart s c)) c d.window d.groups.length
      else ordinarySpot (markBlocks s (corePart s c)) c d.window 0) = some sp) :
    launchBin s c i = binWave (onCore (markBlocks s (corePart s c)) c (fun k => { k with bins := k.bins.take i ++ k.bins.drop (i + 1) }))
      c b f d sp := by
  have hpart := corePart_quiet (quiet_markBlocks s (corePart s c)) c
  rw [launchBin, hi]
  simp only [hh, hp, hpart, hf, hc, hs, Bool.not_true, Bool.or_self, Bool.false_eq_true, if_false]
  rfl

theorem binningSteps : BinningSteps := by
  intro s c hp
  refine ⟨fun hb t r hs => ⟨fun hstale => ?_, fun hstale hbins => ?_⟩, fun hb hs hq hstale => ?_, fun i b hi hm hd => ?_, fun i b hi hm => ?_,
    fun i b f d sp hi hh hf hc hsp => launchBin_placed hp hi hh hf hc hsp⟩
  · rw [dequePop_staged hp hb hs, if_pos hstale]
  · have hnew : handleRecord (onCore s c (fun k => { k with stage := r })) c t = startBin (onCore s c (fun k => { k with stage := r })) c t :=
      handleRecord_new (by rw [coreOf_onCore]; exact hbins)
    refine ⟨_, (dequePop_staged hp hb hs).trans (congrArg _ ((if_neg (by simp [hstale])).trans hnew)), ?_, rfl, ?_⟩
    · rw [startBin_spec, coreOf_onCore, coreOf_onCore]
    · rw [startBin_spec, coreOf_onCore, coreOf_onCore]
      dsimp only
      rw [hbins]
      rfl
  · rw [dequePop_deque hp hb hs hq]
    exact congrArg _ (if_pos hstale)
  · rw [exec_binTimerExpiry, execBinTimerExpiry, hi]
    exact congrArg _ (if_pos (by simp [hm, hd, hp]))
  · rw [exec_binLaunch, execBinLaunch, hi]
    exact congrArg _ (if_pos (by simp [hm, hp]))

/-! ## Stealing and moving (R40, R141) -/

theorem stealable_length (s : State) (c id n i : Nat) : (stealable s c id n i).length ≤ n := by
  induction n generalizing i with
  | zero => exact Nat.le_refl 0
  | succ n ih =>
    rw [stealable]
    dsimp only
    split
    · exact Nat.zero_le _
    · split
      · exact Nat.succ_le_succ (ih _)
      · exact Nat.zero_le _

theorem stealFrom_length (s : State) (a b : Nat) : (stealFrom s a b).length ≤ 8 := by
  unfold stealFrom
  cases h : List.findSome? _ _ with
  | none => exact Nat.zero_le _
  | some ts =>
    obtain ⟨id, -, hid⟩ := List.exists_of_findSome?_eq_some h
    split at hid
    · split at hid
      · split at hid
        · exact absurd hid nofun
        · obtain rfl := Option.some.inj hid
          exact stealable_length ..
      · exact absurd hid nofun
    · exact absurd hid nofun

theorem steal_next {s : State} {a b : Nat} (hne : a ≠ b) (hc : corePart s b = corePart s a) (hp : partRuns s (corePart s a) = true)
    (hm : coupledMode (coreOf s a) = false) (hq : (coreOf s a).dqCount = 0) (hb : (coreOf s a).bins = []) (hs : (coreOf s a).stage = [])
    (hf : freeSlots (coreOf s a) (reserveOf s a) ≠ []) : exec (.steal a b) s = .next (onCore (onCore s b (fun q =>
      { q with dqHead := (q.dqHead + (stealFrom s a b).length) % max 1 (dequeSize q), dqCount := q.dqCount - (stealFrom s a b).length })) a
      (fun q => { q with stage := q.stage ++ stealFrom s a b })) := by
  rw [exec_steal, execSteal]
  exact congrArg _ (if_neg (by simp [hne, hc, hp, hm, hq, hb, hs, hf]))

theorem evalRecordMove_next {s q : State} {a i b : Nat} {t : TaskRec} {k : Core} {e : EvalInfo} {x : Except (BitVec 8 × Word) ResEntry}
    (hh : heldRecord (coreOf s a) i = some (t, k)) (he : t.ev = some e) (hne : a ≠ b) (hb : b < Config.numCores)
    (hc : corePart s b = corePart s a) (hp : partRuns s (corePart s a) = true) (hm : coupledMode (coreOf s b) = false)
    (hr : (reserveSpot s b).isSome = true) (hx : readEntry false s (corePart s a) true e.evix = (q, x))
    (herr : ∀ f, x = .error f → a / 16 = b / 16) (hok : ∀ m, x = .ok m → field m.l.kspec 8 1 % 4 ≠ 2) :
    exec (.evalRecordMove a i b) s
      = .next (pushStage (onCore q a (fun k => ((heldRecord k i).map (fun h => h.2)).getD k)) b t) := by
  have hnone : (reserveSpot s b).isNone = false := by
    rw [← Option.not_isSome, hr]
    rfl
  rw [exec_evalRecordMove, execEvalRecordMove, hh]
  dsimp only
  rw [he]
  dsimp only
  rw [hx]
  cases x with
  | error f => exact congrArg _ (if_neg (by simp [hne, hb, hc, hp, hm, hnone, herr f rfl]))
  | ok m => exact congrArg _ (if_neg (by simp [hne, hb, hc, hp, hm, hnone, hok m rfl]))

theorem recordsMove : RecordsMove := by
  intro s a b
  refine ⟨fun hne hc hp hm hq hb hs hf => ?_, fun i n t r hi hn hr he hm => ?_, fun i t ht he => ?_,
    fun i t k e q x hh he hne hb hc hp hm hr hx herr hok => evalRecordMove_next hh he hne hb hc hp hm hr hx herr hok⟩
  · refine ⟨_, steal_next hne hc hp hm hq hb hs hf, ?_, stealFrom_length s a b, ?_, rfl⟩
    · rw [coreOf_onCore, coreOf_onCore_other _ _ _ _ hne]
      dsimp only
      rw [hs, List.nil_append]
    · rw [coreOf_onCore_other _ _ _ _ hne.symm, coreOf_onCore]
  · rw [heldRecord, if_neg (Nat.not_le.mpr hi)]
    simp only [hn, hr, he, hm, Bool.not_true, Bool.or_self, Bool.false_eq_true, if_false]
  · rw [heldRecord, if_pos (Nat.le_add_right 8 i)]
    simp only [Nat.add_sub_cancel_left, ht, he, if_true]

/-- Settles O32: the stage, the bins and their launches; the thief's and the mover's records. -/
theorem tasksMove : Obligations.TasksMove := ⟨binningSteps, recordsMove⟩

end Sys2Proof.Proofs.Moves
end

section
/-! SUPPORT. An access to one place of device memory is performed (R116, R168, R282, R284; log entry 24). -/

open Sys2Proof Sys2Proof.Machine Sys2Proof.Cert
open Sys2Proof.Proofs.Frames Sys2Proof.Proofs.Home Sys2Proof.Proofs.Peers

namespace Sys2Proof.Proofs.Perform

theorem exec_accessPerformed (id : Nat) (d : Damage) (s : State) : exec (.accessPerformed id d) s = execAccessPerformed id d s := rfl

/-! ## Steps of an L1 -/

theorem mem_smSet {α : Type} [DecidableEq α] {d : α} {m : SMap α} {k : Nat} {v : α} {p : Nat × α} (h : p ∈ smSet d m k v) :
    p ∈ m ∨ p = (k, v) := by
  unfold smSet at h
  rcases List.mem_append.mp h with h | h
  · rcases List.mem_append.mp h with h | h
    · exact .inl ((List.mem_filter.mp h).1)
    · split at h
      · exact absurd h nofun
      · exact .inr (List.mem_singleton.mp h)
  · exact .inl ((List.mem_filter.mp h).1)

/-- A core is listed, or has no wave. -/
theorem coreOf_listed (s : State) (c : Nat) : (c, coreOf s c) ∈ s.cores ∨ (coreOf s c).waves = [] := by
  unfold coreOf
  generalize s.cores = m
  induction m with
  | nil => exact .inr rfl
  | cons p m ih =>
    rw [smGet]
    split
    · next h => exact .inl (by rw [← h]; exact List.mem_cons_self)
    · exact ih.imp (List.mem_cons_of_mem _) id

/-- The carriages of a core's waves that satisfy a test. -/
def coreCarriages (f : Carriage → Bool) (c : Nat) (k : Core) : List SlotName :=
  (wavesOf k).flatMap (fun w => ([0, 1].filter (fun x => match (slotOf w.2 x).car with
    | some car => !car.serial && f car
    | none => false)).map (fun x => (c, w.1, x)))

theorem carriagesWith_eq (s : State) (f : Carriage → Bool) : carriagesWith s f = s.cores.flatMap (fun k => coreCarriages f k.1 k.2) := rfl

theorem coreCarriages_of_waves (f : Carriage → Bool) (c : Nat) {k q : Core} (h : q.waves = k.waves) :
    coreCarriages f c q = coreCarriages f c k := by
  unfold coreCarriages wavesOf
  rw [h]

/-- A core that keeps its waves brings no carriage. -/
theorem carriagesWith_onCore {s : State} {f : Carriage → Bool} {c : Nat} {g : Core → Core} (hg : (g (coreOf s c)).waves = (coreOf s c).waves)
    (h : carriagesWith s f = []) : carriagesWith (onCore s c g) f = [] := by
  rw [carriagesWith_eq, List.flatMap_eq_nil_iff] at h ⊢
  intro p hp
  rcases mem_smSet (show p ∈ smSet Core.reset s.cores c (g (coreOf s c)) from hp) with hp | rfl
  · exact h p hp
  · rw [coreCarriages_of_waves f c hg]
    rcases coreOf_listed s c with hc | hc
    · exact h _ hc
    · simp [coreCarriages, wavesOf, hc]

/-- A core's L1 changes, or nothing does. -/
structure CacheStep (s t : State) : Prop where
  quiet : Quiet s t
  dmem : t.dmem = s.dmem
  hmem : t.hmem = s.hmem
  fmem : t.fmem = s.fmem
  accs : t.accs = s.accs
  waves : ∀ c w, waveOf t c w = waveOf s c w
  free : ∀ f, carriagesWith s f = [] → carriagesWith t f = []

theorem CacheStep.refl (s : State) : CacheStep s s := ⟨Quiet.refl s, rfl, rfl, rfl, rfl, fun _ _ => rfl, fun _ => id⟩

theorem CacheStep.trans {s t u : State} (h : CacheStep s t) (g : CacheStep t u) : CacheStep s u :=
  ⟨h.quiet.trans g.quiet, g.dmem.trans h.dmem, g.hmem.trans h.hmem, g.fmem.trans h.fmem, g.accs.trans h.accs,
    fun c w => (g.waves c w).trans (h.waves c w), fun f hf => g.free f (h.free f hf)⟩

theorem cacheStep_l1 (s : State) (c : Nat) (f : Core → List (Nat × List Byte)) : CacheStep s (onCore s c (fun k => { k with l1 := f k })) := by
  refine ⟨quiet_onCore ⟨_, _, _, _, _, rfl⟩, rfl, rfl, rfl, rfl, fun d w => ?_, fun f => carriagesWith_onCore rfl⟩
  by_cases hd : d = c
  · subst hd
    exact waveOf_onCore _ _ _ _ (by rfl) _
  · rw [waveOf, waveOf, coreOf_onCore_other _ _ _ _ hd]

theorem cacheStep_acquireL1 (s : State) (c : Nat) (o : Order) (sc : Scope) : CacheStep s (acquireL1 s c o sc) := by
  unfold acquireL1
  split
  · exact cacheStep_l1 s c (fun _ => [])
  · exact CacheStep.refl s

theorem cacheStep_fillL1 (s : State) (c pa : Nat) : CacheStep s (fillL1 s c pa) :=
  cacheStep_l1 s c (fun k => k.l1.filter (fun l => l.1 ≠ pa / 64) ++ [(pa / 64, memRead s.dmem (pa / 64 * 64) 64)])

theorem cacheStep_refreshL1 (s : State) (c pa n : Nat) : CacheStep s (refreshL1 s c [(.dev pa, n)]) := by
  rw [refreshL1, List.foldl_cons, List.foldl_nil]
  dsimp only
  split
  · exact cacheStep_fillL1 ..
  · exact CacheStep.refl s

/-- A load that no narrow scope lets the L1 answer reads memory. -/
theorem loadL1_memory {s : State} {a : Access} (h : a.scope ≠ .wv ∧ a.scope ≠ .bk ∨ hasL1 (coreOf s a.core) = false) (pa n : Nat) :
    ∃ t, CacheStep s t ∧ loadL1 s a pa n = (t, memRead s.dmem pa n) := by
  unfold loadL1
  rcases h with ⟨hw, hb⟩ | h
  · have hn : ((decide (a.scope = .wv) || decide (a.scope = .bk)) && decide (a.order = .rx)) = false := by simp [hw, hb]
    simp only [hn, Bool.false_eq_true, if_false]
    split
    · exact ⟨s, CacheStep.refl s, rfl⟩
    · split
      · exact ⟨_, cacheStep_fillL1 .., rfl⟩
      · exact ⟨s, CacheStep.refl s, rfl⟩
  · simp only [h, Bool.not_false, Bool.true_or, if_true]
    exact ⟨s, CacheStep.refl s, rfl⟩

/-! ## An access that is ready -/

section
variable {s : State} {a : Access} {pa : Nat} (h : Ready s a pa)
include h

theorem poisonAddr_ready : poisonAddr s a = none := by
  obtain ⟨-, -, -, -, hp, -, -, -, -, -, -, -, hn, -⟩ := h
  have hw : poisonWord s (.dev pa) a.size = none := Option.not_isSome_iff_eq_none.mp (by rw [← placePoisoned, hn]; exact Bool.false_ne_true)
  simp [poisonAddr, hp, hw]

theorem toPeer_ready : toPeer a = false := by
  obtain ⟨-, -, -, -, hp, -⟩ := h
  simp [toPeer, hp, isPeer]

theorem noteLines_ready : noteLines s a = s := by
  obtain ⟨-, -, -, -, -, -, hc, -⟩ := h
  simp only [noteLines, hc]

theorem performAccess_ready : performAccess s a .clean = performBytes s a := by
  obtain ⟨-, -, hf, hcell, hp, -, -, -, -, -, -, hl, -⟩ := h
  simp only [performAccess, hp, applyDamage, hf, hl, hcell, Bool.and_false, Bool.false_eq_true, if_false]

theorem accessBytes_ready : accessBytes s a = memRead s.dmem pa a.size := by
  obtain ⟨-, -, -, -, hp, -, hc, -⟩ := h
  simp [accessBytes, hc, hp, overlayBytes, placeRead]

theorem performBytes_load (hk : a.kind = .load) (hs : a.scope ≠ .wv ∧ a.scope ≠ .bk ∨ hasL1 (coreOf s a.core) = false) :
    ∃ t, CacheStep s t ∧ performBytes s a = (t, .done ⟨BitVec.ofNat 64 (leNat (memRead s.dmem pa a.size)), 0⟩ 0) := by
  have hpoison := poisonAddr_ready h
  have hpeer := toPeer_ready h
  have hnote := noteLines_ready h
  obtain ⟨-, -, -, -, hp, -, hc, -, he, hhalf, -, -, -, hsz, -⟩ := h
  obtain ⟨t, ht, hl⟩ := loadL1_memory hs pa a.size
  have hload : loadBytes s a = (t, memRead s.dmem pa a.size) := by
    simp [loadBytes, hc, hp, hl]
  have hlen : (memRead s.dmem pa a.size).length ≤ 8 := Nat.le_trans (Nat.le_of_eq (memRead_length ..)) hsz
  have htake : (memRead s.dmem pa a.size).take 8 = memRead s.dmem pa a.size := List.take_of_length_le hlen
  have hdrop : leWord ((memRead s.dmem pa a.size).drop 8) = 0 := by rw [List.drop_eq_nil_of_le hlen]; rfl
  refine ⟨_, ht.trans (cacheStep_acquireL1 t a.core a.order a.scope), ?_⟩
  simp only [performBytes, hnote, hpeer, hpoison, hc, hk, he, hload, halfRead, hhalf, htake, hdrop, Option.isSome_none, Bool.and_false,
    Bool.false_and, Bool.false_eq_true, if_false]

theorem performBytes_store (hk : a.kind = .store) :
    performBytes s a = (accessWrite s a (leBytes a.size a.b.toNat) false, .done ⟨0, 0⟩ 0) := by
  have hpeer := toPeer_ready h
  have hnote := noteLines_ready h
  obtain ⟨-, -, -, -, -, -, hc, -, -, hhalf, -, -, -, hsz, -⟩ := h
  have hbytes : storeBytes a = leBytes a.size a.b.toNat := if_neg (by omega)
  simp only [performBytes, hnote, hpeer, hc, hk, hhalf, hbytes, Option.isSome_none, Bool.and_false, Bool.false_and, ne_eq, not_true,
    decide_false, Bool.false_eq_true, if_false]

theorem performBytes_atom {op : Nat} (hk : a.kind = .atom op) (hty : a.ty.code ≤ 5) :
    ∃ t, CacheStep s t ∧ performBytes s a
      = (if (atomNew op (width a.ty) (signed a.ty) (leNat (memRead s.dmem pa a.size)) a.b.toNat a.c.toNat).2
          then accessWrite t a (leBytes a.size
            (atomNew op (width a.ty) (signed a.ty) (leNat (memRead s.dmem pa a.size)) a.b.toNat a.c.toNat).1) false
          else t, .done ⟨BitVec.ofNat 64 (leNat (memRead s.dmem pa a.size)), 0⟩ 0) := by
  have hpoison := poisonAddr_ready h
  have hpeer := toPeer_ready h
  have hnote := noteLines_ready h
  have hbytes := accessBytes_ready h
  obtain ⟨-, -, -, -, hp, -, hc, -⟩ := h
  refine ⟨acquireL1 (refreshL1 s a.core a.pieces) a.core a.order a.scope,
    (hp ▸ cacheStep_refreshL1 s a.core pa a.size : CacheStep s (refreshL1 s a.core a.pieces)).trans (cacheStep_acquireL1 ..), ?_⟩
  simp only [performBytes, hnote, hpeer, hpoison, hc, hk, hbytes, atomicResult, width_int hty, signed_int hty, Option.isSome_none,
    Bool.and_false, Bool.false_and, Bool.false_eq_true, if_false]
  generalize atomNew op (width a.ty) (signed a.ty) (leNat (memRead s.dmem pa a.size)) a.b.toNat a.c.toNat = new
  obtain ⟨v, write⟩ := new
  cases write <;> rfl

end

/-! ## The value and the end of an access -/

theorem awaited_quiet {s t : State} (h : Quiet s t) (a : Access) : awaited t a = awaited s a := by
  obtain ⟨_, _, _, _, _, _, hc⟩ := h.cores a.core
  have hr : (coreOf t a.core).region = (coreOf s a.core).region := by rw [hc]
  simp only [awaited, hr]

/-- The write of an access outside a carriage goes to its place. -/
theorem accessWrite_place {s : State} {a : Access} {pa : Nat} (hc : carriageOf s a = none) (hp : a.pieces = [(.dev pa, a.size)])
    {bs : List Byte} (hl : bs.length = a.size) :
    accessWrite s a bs false = placeWrite s ⟨a.part, [(a.core, a.wslot, a.x)], some a.core⟩ (.dev pa) bs := by
  have htake : bs.take a.size = bs := List.take_of_length_le (by omega)
  simp only [accessWrite, hc, hp, piecesWrite, htake, Bool.false_eq_true, if_false]

theorem carriageOf_waves {s t : State} (h : ∀ c w, waveOf t c w = waveOf s c w) (a : Access) : carriageOf t a = carriageOf s a := by
  simp only [carriageOf, h]

theorem deliver_value {q : State} {a : Access} {wv : Wave} (hv : waveOf q a.core a.wslot = some wv) (hu : wv.uid = a.wuid)
    (hw : awaited q a = false) (hd : a.form.dest = .value) (hun : a.uniform = false) (hk : a.kind = .load ∨ ∃ op, a.kind = .atom op)
    (v : Val) (tag : BitVec 2) : deliver q a v tag
      = onWave q a.core a.wslot (fun w => writeVals w [(a.rcd * 32 + a.lane, Val.mk (extendValue a.ty v.lo) v.hi)]) := by
  rcases hk with hk | ⟨op, hk⟩
  · simp [deliver, hv, hu, hw, hd, hun, hk, hasValue]
  · simp [deliver, hv, hu, hw, hd, hun, hk, hasValue]

theorem deliver_none {q : State} {a : Access} (hk : hasValue a.kind = false) (v : Val) (tag : BitVec 2) : deliver q a v tag = q := by
  unfold deliver
  split
  · rfl
  · simp [hk]

theorem endPerformed_plain {a : Access} (h : a.latch = none) (q : State) : endPerformed q a = dropWaiter q a.id := by
  simp only [endPerformed, endAccess, endAccessBy, h]

theorem accessPerformed_next {s q : State} {a : Access} {pa : Nat} (h : Ready s a pa) {v : Val} {tag : BitVec 2}
    (hp : performBytes s a = (q, .done v tag)) : exec (.accessPerformed a.id .clean) s = .next (dropWaiter (deliver q a v tag) a.id) := by
  have hacc := performAccess_ready h
  obtain ⟨hf, hperf, -, -, -, hl, -⟩ := h
  have hfin : finishAccess s a .clean = (dropWaiter (deliver q a v tag) a.id, none) := by
    simp only [finishAccess, hacc, hp, endPerformed_plain hl]
  rw [exec_accessPerformed, execAccessPerformed, hf]
  simp only [hperf, hfin, Bool.not_true, Bool.false_eq_true, if_false]

/-- A value that has been delivered is its record's. -/
theorem delivered {q : State} {a : Access} {wv : Wave} (hv : waveOf q a.core a.wslot = some wv) (x : Val) :
    ∃ u, waveOf (dropWaiter (onWave q a.core a.wslot (fun w => writeVals w [(a.rcd * 32 + a.lane, x)])) a.id) a.core a.wslot = some u
      ∧ recordValue u a.rcd a.lane = x :=
  ⟨writeVals wv [(a.rcd * 32 + a.lane, x)], by
    change waveOf (onWave q a.core a.wslot _) a.core a.wslot = _
    rw [waveOf_onWave, hv]; rfl, smGet_smSet_same ..⟩

theorem not_mem_dropWaiter (s : State) (id : Nat) : ∀ b ∈ (dropWaiter s id).accs, b.id ≠ id :=
  fun b hb => of_decide_eq_true (List.mem_filter.mp (show b ∈ List.filter (fun a : Access => a.id ≠ id) s.accs from hb)).2

theorem sameMemory_deliver {q : State} {a : Access} {f : Wave → Wave} :
    SameMemory q (dropWaiter (onWave q a.core a.wslot f) a.id) := by
  have hrest : onWave q a.core a.wslot f = { q with cores := (onWave q a.core a.wslot f).cores } := onWave_onlyCores ..
  refine ⟨?_, ?_, ?_⟩
  · exact (congrArg State.dmem hrest).trans rfl
  · exact (congrArg State.hmem hrest).trans rfl
  · exact (congrArg State.fmem hrest).trans rfl

theorem sameMemory_dropWaiter (q : State) (id : Nat) : SameMemory q (dropWaiter q id) := ⟨rfl, rfl, rfl⟩

theorem loadPerforms : LoadPerforms := by
  intro s a pa v h hk hs hv hu
  obtain ⟨q, hq, hperf⟩ := performBytes_load h hk hs
  have hnext := accessPerformed_next h hperf
  obtain ⟨-, -, -, -, -, -, -, hw, -, -, -, -, -, -, -, hun, hd⟩ := h
  have hvq : waveOf q a.core a.wslot = some v := (hq.waves ..).trans hv
  rw [deliver_value hvq hu ((awaited_quiet hq.quiet a).trans hw) hd hun (.inl hk)] at hnext
  obtain ⟨u, hu', hval⟩ := delivered (a := a) hvq ⟨extendValue a.ty (BitVec.ofNat 64 (leNat (memRead s.dmem pa a.size))), 0⟩
  exact ⟨_, u, hnext, hu', hval, sameMemory_deliver.dmem.trans hq.dmem, sameMemory_deliver.hmem.trans hq.hmem,
    sameMemory_deliver.fmem.trans hq.fmem, not_mem_dropWaiter _ _⟩

theorem storePerforms : StorePerforms := by
  intro s a pa h hk
  have hnext := accessPerformed_next h (performBytes_store h hk)
  obtain ⟨-, -, -, -, hp, -, hc, -, -, -, hcar, -⟩ := h
  have hlen := leBytes_length a.size a.b.toNat
  rw [deliver_none (by rw [hk]; rfl), accessWrite_place hc hp hlen] at hnext
  have hw := (written_placeWrite ⟨a.part, [(a.core, a.wslot, a.x)], some a.core⟩ (leBytes a.size a.b.toNat) hcar).and_same
    (sameMemory_dropWaiter _ a.id)
  refine ⟨_, hnext, fun j => ?_, hw.hmem, hw.fmem, not_mem_dropWaiter _ _⟩
  rw [hw.byte, hlen]
  split
  · rw [getD_leBytes _ _ _ (by omega)]
  · rfl

/-- What an atomic leaves of memory and of its wave. -/
theorem atomicWritten {s : State} {a : Access} {pa : Nat} {v : Wave} (hc : carriageOf s a = none) (hp : a.pieces = [(.dev pa, a.size)])
    (hcar : carriagesWith s (fun car => car.lines.contains (lineOf (.dev pa))) = []) (hv : waveOf s a.core a.wslot = some v)
    (new : Nat × Bool) : ∃ q u, (if new.2 then accessWrite s a (leBytes a.size new.1) false else s) = q ∧ Quiet s q
      ∧ waveOf q a.core a.wslot = some u ∧ u.uid = v.uid
      ∧ (∀ j, memByte q.dmem j = if new.2 = true ∧ pa ≤ j ∧ j < pa + a.size then BitVec.ofNat 8 (new.1 / 256 ^ (j - pa)) else memByte s.dmem j)
      ∧ q.hmem = s.hmem ∧ q.fmem = s.fmem := by
  obtain ⟨n, write⟩ := new
  cases write with
  | false => exact ⟨s, v, rfl, Quiet.refl s, hv, rfl, fun j => by simp, rfl, rfl⟩
  | true =>
    have hlen := leBytes_length a.size n
    have hw := written_placeWrite ⟨a.part, [(a.core, a.wslot, a.x)], some a.core⟩ (leBytes a.size n) hcar
    have hq := quiet_placeWrite s ⟨a.part, [(a.core, a.wslot, a.x)], some a.core⟩ (.dev pa) (leBytes a.size n)
    obtain ⟨u, hu, hvu⟩ := hq.waves a.core a.wslot v hv
    refine ⟨_, u, (if_pos rfl).trans (accessWrite_place hc hp hlen), hq, hu, by rw [hvu.rest], fun j => ?_, hw.hmem, hw.fmem⟩
    refine (hw.byte j).trans ?_
    simp only [hlen, true_and]
    split
    · rw [getD_leBytes _ _ _ (by omega)]
    · rfl

theorem atomicPerforms : AtomicPerforms := by
  intro s a pa op v h hk hty hsz hv hu old new
  obtain ⟨t, ht, hperf⟩ := performBytes_atom h hk hty
  have hnext := accessPerformed_next h hperf
  obtain ⟨-, -, -, -, hp, -, hc, hw, -, -, hcar, -, -, -, -, hun, hd⟩ := h
  obtain ⟨q, w, hq, hquiet, hwq, huid, hbytes, hh, hf⟩ := atomicWritten ((carriageOf_waves ht.waves a).trans hc) hp (ht.free _ hcar)
    ((ht.waves ..).trans hv) new
  rw [hq, deliver_value hwq (huid.trans hu) ((awaited_quiet (ht.quiet.trans hquiet) a).trans hw) hd hun (.inr ⟨op, hk⟩)] at hnext
  obtain ⟨u, hu', hval⟩ := delivered (a := a) hwq ⟨extendValue a.ty (BitVec.ofNat 64 old), 0⟩
  refine ⟨_, u, hnext, hu', hval, fun j => ?_, (sameMemory_deliver.hmem.trans hh).trans ht.hmem, (sameMemory_deliver.fmem.trans hf).trans ht.fmem⟩
  rw [sameMemory_deliver.dmem, hbytes, ht.dmem]

/-- Settles O23: an access outside a carriage whose line no carriage has used is performed on its bytes and ends. -/
theorem accessesPerform : Obligations.AccessesPerform := ⟨loadPerforms, storePerforms, atomicPerforms⟩

end Sys2Proof.Proofs.Perform
end

section
/-! SUPPORT. The header of the trap frame and what its SEAL covers (R154, R158). -/

open Sys2Proof Sys2Proof.Machine Sys2Proof.Cert

namespace Sys2Proof.Proofs.Header

/-! ## Fields of a list of segments -/

/-- A field that is one segment of a byte list. -/
theorem field_flatten (segs : List (List Byte)) (i off : Nat) {seg : List Byte} (hi : segs[i]? = some seg)
    (ho : ((segs.take i).map List.length).sum = off) : field segs.flatten off seg.length = leNat seg := by
  subst ho
  induction segs generalizing i with
  | nil => exact absurd hi nofun
  | cons x xs ih =>
    cases i with
    | zero =>
      obtain rfl := Option.some.inj hi
      simp [field]
    | succ i =>
      have h := ih i hi
      rw [List.take_succ_cons, List.map_cons, List.sum_cons, List.flatten_cons, field, List.drop_append, Nat.add_sub_cancel_left,
        List.drop_eq_nil_of_le (Nat.le_add_right ..), List.nil_append]
      exact h

theorem slotBytes_length (t : Slot) : (slotBytes t).length = 16 := by
  unfold slotBytes
  split
  · exact leBytes_length ..
  · simp

/-- FLAGS of the header (R154). -/
def headerFlags (v : Wave) (q : StopReq) : Nat :=
  let atCouple (t : Slot) : Bool := t.cpl || (t.held ≠ 0 && t.rcd = 0)
  (if atCouple v.slot0 || atCouple v.slot1 then 2 else 0) + (if q.late then 4 else 0)

/-- What the header holds of a lane's evaluation (R154). -/
def evalBytes (v : Wave) (l : Nat) : List Byte :=
  match evalOf v l with
  | some e => leBytes 8 (e.slice * 2 ^ 32 + e.inst.toNat)
  | none => leBytes 8 0

/-- The segments of the header (R154). -/
def headerSegs (s : State) (c w : Nat) (v : Wave) (q : StopReq) (nrep : Nat) (sl : W32) : List (List Byte) :=
  [leBytes 1 q.cause.toNat, leBytes 1 q.stop, leBytes 1 q.x, leBytes 1 nrep, leBytes 4 q.lanes.toNat, leBytes 8 v.modl.toNat,
   leBytes 2 q.blk, leBytes 2 (q.rcd % 4096), leBytes 1 q.cmp, leBytes 1 (headerFlags v q), leBytes 1 v.step.toNat,
   leBytes 1 (coreDie c), leBytes 8 q.addr.toNat, leBytes 8 (diePcOf s c v q.blk q.rcd).toNat,
   leBytes 4 (v.slot0.held ||| v.slot1.held).toNat, leBytes 4 0, slotBytes v.slot0, slotBytes v.slot1, leBytes 1 (divCount v),
   leBytes 3 0, leBytes 8 (groupField (coreOf s c) v), leBytes 4 sl.toNat,
   allLanes.flatMap (fun l => leBytes 1 (ancestryOf v l).length), leBytes 8 (waveId v c w).toNat, leBytes 8 0,
   allLanes.flatMap (evalBytes v), leBytes 624 0]

theorem append_eq_flatten (a0 a1 a2 a3 a4 a5 a6 a7 a8 a9 a10 a11 a12 a13 a14 a15 a16 a17 a18 a19 a20 a21 a22 a23 a24 a25 a26 : List Byte) :
    a0 ++ a1 ++ a2 ++ a3 ++ a4 ++ a5 ++ a6 ++ a7 ++ a8 ++ a9 ++ a10 ++ a11 ++ a12 ++ a13
      ++ a14 ++ a15 ++ a16 ++ a17 ++ a18 ++ a19 ++ a20 ++ a21 ++ a22 ++ a23 ++ a24 ++ a25 ++ a26
      = [a0, a1, a2, a3, a4, a5, a6, a7, a8, a9, a10, a11, a12, a13, a14, a15, a16, a17, a18, a19, a20, a21, a22, a23, a24, a25, a26].flatten := by
  simp only [List.flatten_cons, List.flatten_nil, List.append_nil, List.append_assoc]

theorem headerBytes_eq (s : State) (c w : Nat) (v : Wave) (q : StopReq) (nrep : Nat) (sl : W32) :
    headerBytes s c w v q nrep sl = (headerSegs s c w v q nrep sl).flatten := by
  have hcause : leBytes 1 q.cause.toNat = [q.cause] := by simp [leBytes]
  rw [headerSegs, hcause]
  exact append_eq_flatten ..

theorem flatMap_length_const {f : Nat → List Byte} {n : Nat} (h : ∀ l, (f l).length = n) (ls : List Nat) :
    (ls.flatMap f).length = n * ls.length := by
  induction ls with
  | nil => rfl
  | cons l ls ih => rw [List.flatMap_cons, List.length_append, h, ih, List.length_cons, Nat.mul_succ, Nat.add_comm]

theorem evalBytes_length (v : Wave) (l : Nat) : (evalBytes v l).length = 8 := by
  unfold evalBytes
  split <;> exact leBytes_length ..

theorem allLanes_length : allLanes.length = 32 := List.length_range

/-- The lengths of the header's segments. -/
theorem headerSegs_lengths (s : State) (c w : Nat) (v : Wave) (q : StopReq) (nrep : Nat) (sl : W32) :
    (headerSegs s c w v q nrep sl).map List.length
      = [1, 1, 1, 1, 4, 8, 2, 2, 1, 1, 1, 1, 8, 8, 4, 4, 16, 16, 1, 3, 8, 4, 32, 8, 8, 256, 624] := by
  simp only [headerSegs, List.map_cons, List.map_nil, leBytes_length, slotBytes_length,
    flatMap_length_const (fun l => leBytes_length 1 (ancestryOf v l).length), flatMap_length_const (evalBytes_length v), allLanes_length]

theorem headerBytes_length (s : State) (c w : Nat) (v : Wave) (q : StopReq) (nrep : Nat) (sl : W32) :
    (headerBytes s c w v q nrep sl).length = 0x400 := by
  rw [headerBytes_eq, List.length_flatten, headerSegs_lengths]
  rfl

/-- A field of the header is the number that stands in its segment. -/
theorem field_header (s : State) (c w : Nat) (v : Wave) (q : StopReq) (nrep : Nat) (sl : W32) (i : Nat) {off n x : Nat}
    (hi : (headerSegs s c w v q nrep sl)[i]? = some (leBytes n x))
    (ho : ([1, 1, 1, 1, 4, 8, 2, 2, 1, 1, 1, 1, 8, 8, 4, 4, 16, 16, 1, 3, 8, 4, 32, 8, 8, 256, 624].take i).sum = off) :
    field (headerBytes s c w v q nrep sl) off n = x % 256 ^ n := by
  rw [headerBytes_eq, ← leNat_leBytes, ← field_flatten (headerSegs s c w v q nrep sl) i off hi
    (by rw [List.map_take, headerSegs_lengths]; exact ho), leBytes_length]

/-- R154: each field of the header in the range of its number. -/
theorem header_fields (s : State) (c w : Nat) (v : Wave) (q : StopReq) (nrep : Nat) (sl : W32) (hc : c < Config.numCores) (hw : w < 16)
    (hs : q.stop < 256) (hx : q.x < 256) (hn : nrep < 256) (hb : q.blk < 2 ^ 16) (hm : q.cmp < 256) (hd : divCount v < 256)
    (hl : v.launch < 2 ^ 32) (hi : v.waveIdx < 2 ^ 16) :
    let hd := headerBytes s c w v q nrep sl
    hd.length = 0x400 ∧ field hd 0 1 = q.cause.toNat ∧ field hd 1 1 = q.stop ∧ field hd 2 1 = q.x ∧ field hd 3 1 = nrep
      ∧ field hd 4 4 = q.lanes.toNat ∧ field hd 8 8 = v.modl.toNat ∧ field hd 0x10 2 = q.blk ∧ field hd 0x12 2 = q.rcd % 4096
      ∧ field hd 0x14 1 = q.cmp ∧ field hd 0x16 1 = v.step.toNat ∧ field hd 0x17 1 = coreDie c ∧ field hd 0x18 8 = q.addr.toNat
      ∧ field hd 0x28 4 = (v.slot0.held ||| v.slot1.held).toNat ∧ field hd 0x2C 4 = 0 ∧ field hd 0x50 1 = divCount v
      ∧ field hd 0x5C 4 = sl.toNat ∧ field hd 0x80 8 = v.launch * 2 ^ 32 + w * 2 ^ 28 + c * 2 ^ 16 + v.waveIdx := by
  have hf := field_header s c w v q nrep sl
  have hdie : coreDie c < 256 := by
    have : Config.numCores = 3328 := rfl
    unfold coreDie
    omega
  have hstep := v.step.isLt
  have hid : (waveId v c w).toNat = v.launch * 2 ^ 32 + w * 2 ^ 28 + c * 2 ^ 16 + v.waveIdx := by
    have : Config.numCores = 3328 := rfl
    rw [waveId, BitVec.toNat_ofNat]
    omega
  refine ⟨headerBytes_length .., (hf 0 rfl rfl).trans ?_, (hf 1 rfl rfl).trans ?_, (hf 2 rfl rfl).trans ?_, (hf 3 rfl rfl).trans ?_,
    (hf 4 rfl rfl).trans ?_, (hf 5 rfl rfl).trans ?_, (hf 6 rfl rfl).trans ?_, (hf 7 rfl rfl).trans ?_, (hf 8 rfl rfl).trans ?_,
    (hf 10 rfl rfl).trans ?_, (hf 11 rfl rfl).trans ?_, (hf 12 rfl rfl).trans ?_, (hf 14 rfl rfl).trans ?_, (hf 15 rfl rfl).trans ?_,
    (hf 18 rfl rfl).trans ?_, (hf 21 rfl rfl).trans ?_, (hf 23 rfl rfl).trans (Eq.trans ?_ hid)⟩
  all_goals exact Nat.mod_eq_of_lt (by omega)

/-! ## What SEAL covers (R158) -/

theorem map_zipIdx_congr {α β : Type} {as bs : List α} {f : α × Nat → β} (hl : as.length = bs.length)
    (h : ∀ i a b, as[i]? = some a → bs[i]? = some b → f (a, i) = f (b, i)) : as.zipIdx.map f = bs.zipIdx.map f := by
  refine List.ext_getElem? fun i => ?_
  simp only [List.getElem?_map, List.getElem?_zipIdx, Nat.zero_add]
  cases ha : as[i]? with
  | none =>
    rw [List.getElem?_eq_none (hl ▸ List.getElem?_eq_none_iff.mp ha)]
  | some a =>
    have hi : i < bs.length := hl ▸ (List.getElem?_eq_some_iff.mp ha).1
    rw [List.getElem?_eq_getElem hi]
    exact congrArg some (h i a _ ha (List.getElem?_eq_getElem hi))

/-- Two bytes that agree but for bit 0. -/
theorem and_FE_congr {a b : Byte} (h : a.toNat / 2 = b.toNat / 2) : a &&& 0xFE = b &&& 0xFE := by
  refine BitVec.eq_of_getLsbD_eq fun i hi => ?_
  rw [BitVec.getLsbD_and, BitVec.getLsbD_and]
  cases i with
  | zero => simp
  | succ i =>
    have hbit : a.getLsbD (i + 1) = b.getLsbD (i + 1) := by
      rw [BitVec.getLsbD, BitVec.getLsbD, Nat.testBit_succ, Nat.testBit_succ, h]
    rw [hbit]

theorem getElem?_of_take {α : Type} {as : List α} {n i : Nat} {a : α} (h : (as.take n)[i]? = some a) : i < n ∧ as[i]? = some a := by
  rw [List.getElem?_take] at h
  split at h
  · exact ⟨‹_›, h⟩
  · exact absurd h nofun

/-- What SEAL covers of a byte of the header. -/
def sealedByte (p : Byte × Nat) : Byte :=
  if (0x2C ≤ p.2 && p.2 < 0x30) || (0x5C ≤ p.2 && p.2 < 0x60) then 0 else if p.2 = 0x15 then p.1 &&& 0xFE else p.1

/-- What SEAL covers of an entry. -/
def sealedEntry (e : List Byte) : List Byte := (e.take 32).zipIdx.map (fun p => if 0x18 ≤ p.2 && p.2 < 0x1C then 0 else p.1)

theorem sealedBytes_eq (hd : List Byte) (es : List (List Byte)) :
    sealedBytes hd es = (hd.take 0x190).zipIdx.map sealedByte ++ es.flatMap sealedEntry := rfl

theorem sealedHeader_congr {hd hd' : List Byte} (hl : hd.length = 0x400) (hl' : hd'.length = 0x400)
    (h : ∀ i, i < 0x400 → ¬ (0x2C ≤ i ∧ i < 0x30) → ¬ (0x5C ≤ i ∧ i < 0x60) → i ≠ 0x15 → hd[i]? = hd'[i]?)
    (hf : (hd.getD 0x15 0).toNat / 2 = (hd'.getD 0x15 0).toNat / 2) :
    (hd.take 0x190).zipIdx.map sealedByte = (hd'.take 0x190).zipIdx.map sealedByte := by
  refine map_zipIdx_congr (by simp [hl, hl']) fun i a b ha hb => ?_
  obtain ⟨hi, ha⟩ := getElem?_of_take ha
  obtain ⟨-, hb⟩ := getElem?_of_take hb
  unfold sealedByte
  split
  · rfl
  · next hzero =>
    simp only [Bool.or_eq_true, Bool.and_eq_true, decide_eq_true_eq, not_or] at hzero
    split
    · next h15 =>
      dsimp only at h15
      subst h15
      rw [List.getD_eq_getElem?_getD, List.getD_eq_getElem?_getD, ha, hb] at hf
      exact and_FE_congr hf
    · next h15 => exact Option.some.inj (ha.symm.trans ((h i (by omega) hzero.1 hzero.2 h15).trans hb))

theorem sealedEntry_congr {e e' : List Byte} (hl : e.length = e'.length)
    (h : ∀ i, i < 32 → ¬ (0x18 ≤ i ∧ i < 0x1C) → e[i]? = e'[i]?) : sealedEntry e = sealedEntry e' := by
  refine map_zipIdx_congr (by simp [hl]) fun i a b ha hb => ?_
  obtain ⟨hi, ha⟩ := getElem?_of_take ha
  obtain ⟨-, hb⟩ := getElem?_of_take hb
  dsimp only
  split
  · rfl
  · next hdone =>
    simp only [Bool.and_eq_true, decide_eq_true_eq] at hdone
    exact Option.some.inj (ha.symm.trans ((h i hi hdone).trans hb))

theorem getD_of_lt {α : Type} {ls : List α} {n : Nat} (d : α) (h : n < ls.length) : ls.getD n d = ls[n] := by
  rw [List.getD_eq_getElem?_getD, List.getElem?_eq_getElem h, Option.getD_some]

theorem sealedEntries_congr {es es' : List (List Byte)} (hn : es.length = es'.length)
    (h : ∀ n, n < es.length → ∀ i, i < 32 → ¬ (0x18 ≤ i ∧ i < 0x1C) → (es.getD n [])[i]? = (es'.getD n [])[i]?)
    (hl : ∀ n, n < es.length → (es.getD n []).length = (es'.getD n []).length) : es.map sealedEntry = es'.map sealedEntry := by
  refine List.ext_getElem (by simpa using hn) fun n hm hm' => ?_
  rw [List.length_map] at hm hm'
  have hg := hl n hm
  have hb := h n hm
  rw [getD_of_lt _ hm, getD_of_lt _ hm'] at hg hb
  rw [List.getElem_map, List.getElem_map]
  exact sealedEntry_congr hg hb

/-- Settles O38: each field is one segment of the header; the sealed bytes leave out KILL, FLAGS bit 0, SEAL and DONE. -/
theorem frameHeaderLayout : Obligations.FrameHeaderLayout := by
  refine ⟨header_fields, fun hd hd' es es' hl hl' hn h hf he hlen => ?_⟩
  rw [sealedBytes_eq, sealedBytes_eq, sealedHeader_congr hl hl' h hf, List.flatMap_def, List.flatMap_def, sealedEntries_congr hn he hlen]

end Sys2Proof.Proofs.Header
end

section
/-! SUPPORT. The delivery of stops and the placement of handler waves (R156, R157). -/

open Sys2Proof Sys2Proof.Machine Sys2Proof.Cert
open Sys2Proof.Proofs.Frames Sys2Proof.Proofs.Lanes Sys2Proof.Proofs.Paths Sys2Proof.Proofs.Home
open Sys2Proof.Proofs.SystemRecords (waveOf_acquireL1)

namespace Sys2Proof.Proofs.Handlers

/-! ## Delivery (R156, R157) -/

/-- Where every lane of a wave ends, the wave is gone. -/
theorem waveOf_endAllLanes (s : State) (c w : Nat) (why : BitVec 8 × Nat × Nat) : waveOf (endWaveLanes s c w 0xFFFFFFFF why) c w = none := by
  have hend (v : Wave) (cyc : Nat) : liveLanes (endLanes v cyc 0xFFFFFFFF) = 0 := by
    have h := liveLanes_endLanes v cyc 0xFFFFFFFF
    rw [show liveLanes v &&& ~~~(0xFFFFFFFF : W32) = 0 by simp] at h
    exact eq_zero_of_sub_zero h
  unfold endWaveLanes
  dsimp only
  generalize (divLoad s c w).getD s = q
  split
  · assumption
  · split
    · next u hu =>
      rw [waveOf_onWave] at hu
      obtain ⟨v, -, rfl⟩ := Option.map_eq_some_iff.mp hu
      rw [hend, if_pos rfl, waveOf_retireWave]
    · assumption

section
variable {s : State} {c w : Nat} {v : Wave} {q : StopInfo} (hv : waveOf s c w = some v) (hq : v.stop = some q)
include hv hq

theorem deliverStop_preempted (h : q.stop = 1) : deliverStop s c w = s := by
  simp only [deliverStop, hv, hq, h, if_true]

/-- A stop that no debug ring takes is a trap. -/
theorem deliverStop_trap (h : q.stop = 0 ∨ (coreOf s c).kcDbgring = 0) (h1 : q.stop ≠ 1) : deliverStop s c w = deliverTrap s c w := by
  have hring : (decide (q.stop = 2) && decide ((coreOf s c).kcDbgring ≠ 0)) = false := by
    rcases h with h | h <;> simp [h]
  simp only [deliverStop, hv, hq, h1, hring, Bool.false_eq_true, if_false]

theorem deliverTrap_handler (h : v.kind = .handler) : deliverTrap s c w = logEvent s 5 q.cause v.part 0 c q.addr noStage := by
  simp only [deliverTrap, hv, hq, h, if_true, Option.getD_some]

omit hq in
theorem deliverTrap_handled (h : v.kind ≠ .handler) {f : FoundBlock × EntryDesc} (hf : handlerEntry (handlerReads s c v) c v = some f) :
    deliverTrap s c w = onCore (handlerReads s c v) c (fun k => { k with handlers := k.handlers ++ [w] }) := by
  simp only [deliverTrap, hv, h, hf, if_false]

omit hq in
/-- A trap that no handler takes ends its wave. -/
theorem deliverTrap_gone (h : v.kind ≠ .handler) (hf : handlerEntry (handlerReads s c v) c v = none) :
    waveOf (deliverTrap s c w) c w = none := by
  simp only [deliverTrap, hv, h, hf, if_false]
  exact waveOf_endAllLanes ..

end

theorem stopDelivery : StopDelivery := by
  intro s c w v q hv hq
  refine ⟨deliverStop_preempted hv hq, fun hring h1 => ⟨fun f hk hf => ?_, fun hk hf _ _ _ _ => ?_, fun hk => ?_⟩⟩
  · rw [deliverStop_trap hv hq hring h1, deliverTrap_handled hv hk hf]
  · rw [deliverStop_trap hv hq hring h1]
    exact deliverTrap_gone hv hk hf
  · rw [deliverStop_trap hv hq hring h1, deliverTrap_handler hv hq hk]

/-! ## Handler waves (R156) -/

theorem exec_handlerPlace (c w : Nat) (s : State) : exec (.handlerPlace c w) s = execHandlerPlace c w s := rfl

theorem handlerPlace_next {s : State} {c w : Nat} {v : Wave} {f : FoundBlock} {d : EntryDesc} {sp : Spot} (hv : waveOf s c w = some v)
    (hw : (coreOf s c).handlers.contains w = true) (hh : v.halted = true) (hc : coupledMode (coreOf s c) = false)
    (hp : partRuns s v.part = true) (hf : handlerEntry s c v = some (f, d)) (hs : anySpot s c d.window d.groups.length = some sp) :
    exec (.handlerPlace c w) s = .next (placeHandler s c w v f d sp) := by
  simp only [exec_handlerPlace, execHandlerPlace, hv, hw, hh, hc, hp, hf, hs, Bool.not_true, Bool.or_self, Bool.false_eq_true, if_false]

/-- Groups filled at a placement change nothing else of the core. -/
theorem placeGroups_rest (k : Core) (owner base : Nat) (gs : List (BitVec 16 × Bool)) :
    placeGroups k owner base gs = { k with groups := (placeGroups k owner base gs).groups } := by
  unfold placeGroups
  generalize gs.zipIdx = ps
  induction ps generalizing k with
  | nil => rfl
  | cons p ps ih =>
    rw [List.foldl_cons, ih]
    rfl

/-- What a handler wave is placed with. -/
def handlerNew (f : FoundBlock) (d : EntryDesc) (sp : Spot) : NewWave :=
  { spot := sp, kind := .handler, block := 0, launch := 0, blockIdx := 0, waveIdx := 0, nblk := 0, prio := 0, modl := f.modl,
    entry := f.blk, table := f.table, desc := { d with waves := 1 }, args := [], mask := 1, evals := [] }

/-- The core once the handler wave has its keep slots and groups. -/
def handlerCore (uid w : Nat) (v h : Wave) (c : Nat) (d : EntryDesc) (sp : Spot) (k : Core) : Core :=
  let k := presetKeep k h 0 [(0, frameBase v)]
  let k := presetKeep k h 1 [(0, waveId v c w)]
  let k := placeGroups k uid sp.gbase d.groups
  { k with handlers := k.handlers.filter (fun i => i ≠ w) }

theorem handlerCore_waves (uid w : Nat) (v h : Wave) (c : Nat) (d : EntryDesc) (sp : Spot) (k : Core) :
    (handlerCore uid w v h c d sp k).waves = k.waves := by
  unfold handlerCore
  dsimp only
  rw [placeGroups_rest]
  rfl

theorem handlerCore_regs (uid w : Nat) (v h : Wave) (c : Nat) (d : EntryDesc) (sp : Spot) (k : Core) :
    (handlerCore uid w v h c d sp k).regs
      = smSetAll 0 (smSetAll 0 k.regs (pairWrites (keepReg h 0) [(0, frameBase v)])) (pairWrites (keepReg h 1) [(0, waveId v c w)]) := by
  unfold handlerCore
  dsimp only
  rw [placeGroups_rest]
  rfl

theorem handlerCore_handlers (uid w : Nat) (v h : Wave) (c : Nat) (d : EntryDesc) (sp : Spot) (k : Core) :
    (handlerCore uid w v h c d sp k).handlers.contains w = false := by
  simp [handlerCore]

/-- The values of two keep slots of a lane, one written after the other. -/
theorem keepGet_presets {k q : Core} {h : Wave} (hw : 4 ≤ h.window) (a b : Word)
    (hr : q.regs = smSetAll 0 (smSetAll 0 k.regs (pairWrites (keepReg h 0) [(0, a)])) (pairWrites (keepReg h 1) [(0, b)])) :
    keepGet q h 0 0 = a ∧ keepGet q h 1 0 = b := by
  have hne : ∀ n, n = keepReg h 0 ∨ n = keepReg h 0 + 1 → ¬ ((n = keepReg h 1 ∨ n = keepReg h 1 + 1) ∧ ∃ p ∈ [(0, b)], p.1 = 0) := by
    intro n hn
    unfold keepReg at hn ⊢
    omega
  obtain ⟨ha0, ha1⟩ := smGet_pairWrites (r := keepReg h 0) (l := 0) (a := a) (vs := [(0, a)]) (by simp) (by simp) (by simp) k.regs
  obtain ⟨hb0, hb1⟩ := smGet_pairWrites (r := keepReg h 1) (l := 0) (a := b) (vs := [(0, b)]) (by simp) (by simp) (by simp)
    (smSetAll 0 k.regs (pairWrites (keepReg h 0) [(0, a)]))
  constructor
  · rw [keepGet, regGet, regGet, hr, smGet_pairWrites_other (by simp) (by decide) (hne _ (.inr rfl)), ha1,
      smGet_pairWrites_other (by simp) (by decide) (hne _ (.inl rfl)), ha0]
    exact halves_append a
  · rw [keepGet, regGet, regGet, hr, hb0, hb1]
    exact halves_append b

/-- The state in which the handler wave has been installed. -/
def handlerInstalled (s : State) (c : Nat) (n : NewWave) : State := acquireL1 (installWave s c n) c .aq .dv

theorem waveOf_handlerInstalled (s : State) (c : Nat) (n : NewWave) :
    waveOf (handlerInstalled s c n) c n.spot.wslot = some (waveOfNew (acquireL1 s c .aq .dv) c n)
    ∧ ∀ w, w ≠ n.spot.wslot → waveOf (handlerInstalled s c n) c w = waveOf s c w := by
  have hcore : (coreOf (installWave s c n) c).waves
      = smSet none (coreOf (acquireL1 s c .aq .dv) c).waves n.spot.wslot (some (waveOfNew (acquireL1 s c .aq .dv) c n)) := by
    unfold installWave
    dsimp only
    rw [coreOf_onCore]
    rfl
  refine ⟨?_, fun w hw => ?_⟩
  · rw [handlerInstalled, waveOf_acquireL1, waveOf, hcore, smGet_smSet_same]
  · rw [handlerInstalled, waveOf_acquireL1, waveOf, hcore, smGet_smSet_other _ _ _ _ _ hw]
    exact waveOf_acquireL1 s c .aq .dv c w

theorem placeHandler_eq (s : State) (c w : Nat) (v : Wave) (f : FoundBlock) (d : EntryDesc) (sp : Spot) :
    placeHandler s c w v f d sp = onWave (onCore (handlerInstalled s c (handlerNew f d sp)) c
        (handlerCore s.nextUid w v (waveOfNew (acquireL1 s c .aq .dv) c (handlerNew f d sp)) c d sp)) c sp.wslot
      (fun h => { h with serves := some w }) := by
  have h := (waveOf_handlerInstalled s c (handlerNew f d sp)).1
  unfold placeHandler
  dsimp only
  change (match waveOf (handlerInstalled s c (handlerNew f d sp)) c (handlerNew f d sp).spot.wslot with
    | none => handlerInstalled s c (handlerNew f d sp)
    | some h => onWave (onCore (handlerInstalled s c (handlerNew f d sp)) c (handlerCore s.nextUid w v h c d sp)) c sp.wslot
      (fun h => { h with serves := some w })) = _
  rw [h]

theorem handlerPlaces : HandlerPlaces := by
  intro s c w v f d sp hv hw hh hc hp hf hs hwin
  obtain ⟨hnew, hother⟩ := waveOf_handlerInstalled s c (handlerNew f d sp)
  have heq := placeHandler_eq s c w v f d sp
  have hdesc : (waveOfNew (acquireL1 s c .aq .dv) c (handlerNew f d sp)).window = d.window := rfl
  generalize handlerInstalled s c (handlerNew f d sp) = q at hnew hother heq
  have hcore (x : Nat) : waveOf (onCore q c (handlerCore s.nextUid w v (waveOfNew (acquireL1 s c .aq .dv) c (handlerNew f d sp)) c d sp)) c x
      = waveOf q c x := waveOf_onCore _ _ _ _ (handlerCore_waves ..) _
  obtain ⟨m, hm⟩ := coreOf_onWave
    (onCore q c (handlerCore s.nextUid w v (waveOfNew (acquireL1 s c .aq .dv) c (handlerNew f d sp)) c d sp)) c sp.wslot
    (fun h => { h with serves := some w })
  rw [coreOf_onCore] at hm
  obtain ⟨hk0, hk1⟩ := keepGet_presets (k := coreOf q c) (h := waveOfNew (acquireL1 s c .aq .dv) c (handlerNew f d sp))
    (hdesc.symm ▸ hwin) _ _ (handlerCore_regs s.nextUid w v _ c d sp (coreOf q c))
  refine ⟨_, { waveOfNew (acquireL1 s c .aq .dv) c (handlerNew f d sp) with serves := some w },
    handlerPlace_next hv hw hh hc hp hf hs, ?_, rfl, rfl, rfl, rfl, rfl, rfl, rfl, rfl, rfl, ?_, ?_, ?_, fun hne => ?_⟩
  · rw [heq, waveOf_onWave, hcore]
    exact congrArg (Option.map _) hnew
  · rw [heq, hm]
    exact hk0
  · rw [heq, hm]
    exact hk1
  · rw [heq, hm]
    exact handlerCore_handlers ..
  · rw [heq, waveOf_onWave_other _ _ _ _ _ _ (.inr (Ne.symm hne)), hcore, hother w (Ne.symm hne)]
    exact hv

/-- Settles O39: a stop goes to its handler, ends its wave or is logged; the handler wave stands where there is room. -/
theorem trapsAreDelivered : Obligations.TrapsAreDelivered := ⟨stopDelivery, handlerPlaces⟩

end Sys2Proof.Proofs.Handlers
end

section
/-! SUPPORT. The return of a stopped wave (R158, R159, R331). -/

open Sys2Proof Sys2Proof.Machine Sys2Proof.Cert
open Sys2Proof.Proofs.Frames Sys2Proof.Proofs.Paths Sys2Proof.Proofs.Home Sys2Proof.Proofs.Sync

namespace Sys2Proof.Proofs.Return

/-! ## The return (R158, R159) -/

/-- The lanes that a wave's entries skip. -/
def skipAll (s : State) (c w : Nat) (ps : List (Replay × Replay)) : State :=
  ps.foldl (fun s p => skipValue s c w p.2 (skippedLanes p.1 p.2)) s

/-- A wave as it leaves HALTED, before its lanes of KILL end. -/
def resumedWave (cyc x : Nat) (pass : Option (Nat × Nat)) (fresh : List Replay) (v : Wave) : Wave :=
  let v := { v with replay := fresh, halted := false, stop := none }
  let v := { v with slot0 := resumedSlot cyc v.slot0, slot1 := resumedSlot cyc v.slot1 }
  putSlot v x { slotOf v x with stepOver := pass }

/-- The state in which a wave has left HALTED, before its lanes of KILL end. -/
def resumed (s : State) (c w x : Nat) (pass : Option (Nat × Nat)) (fresh : List Replay) : State :=
  onCore (onWave s c w (resumedWave (coreOf s c).cycle x pass fresh)) c (fun k => { k with handlers := k.handlers.filter (fun i => i ≠ w) })

/-! ### What a wave keeps while its paths change -/

/-- A wave whose slots, values and divergence entries alone have changed. -/
structure PathChange (v u : Wave) : Prop where
  eq : u = { v with slot0 := u.slot0, slot1 := u.slot1, vals := u.vals, valPoison := u.valPoison, div := u.div,
                    divLanes := u.divLanes, divRan := u.divRan }

theorem PathChange.refl (v : Wave) : PathChange v v := ⟨rfl⟩

theorem PathChange.trans {v u w : Wave} (h : PathChange v u) (g : PathChange u w) : PathChange v w := ⟨by rw [g.eq, h.eq]⟩

theorem pathChange_putSlot (v : Wave) (x : Nat) (t : Slot) : PathChange v (putSlot v x t) := by
  unfold putSlot
  split <;> exact ⟨rfl⟩

theorem pathChange_fillSlot (v : Wave) (cyc x : Nat) : PathChange v (fillSlot v cyc x) := by
  unfold fillSlot
  split
  · split
    · next m _ es _ =>
      exact PathChange.trans (u := { v with div := es, divRan := v.divRan.filter (fun q => q.1 &&& m = 0) }) ⟨rfl⟩ (pathChange_putSlot ..)
    · exact PathChange.refl v
  · exact PathChange.refl v

theorem pathChange_fillSlots (v : Wave) (cyc : Nat) : PathChange v (fillSlots v cyc) :=
  (pathChange_fillSlot v cyc 0).trans (pathChange_fillSlot _ cyc 1)

theorem pathChange_completeJoin (v : Wave) (cyc j : Nat) (m : W32) (o : Nat) : PathChange v (completeJoin v cyc j m o) := by
  unfold completeJoin
  dsimp only
  split
  · exact pathChange_putSlot ..
  · split
    · exact pathChange_putSlot ..
    · exact ⟨rfl⟩

theorem pathChange_completeJoins (ps : List (Nat × W32 × Nat)) (cyc : Nat) (v : Wave) :
    PathChange v (ps.foldl (fun v p => completeJoin v cyc p.1 p.2.1 p.2.2) v) := by
  induction ps generalizing v with
  | nil => exact PathChange.refl v
  | cons p ps ih => exact (pathChange_completeJoin ..).trans (ih _)

theorem pathChange_endLanes (v : Wave) (cyc : Nat) (ls : W32) : PathChange v (endLanes v cyc ls) :=
  PathChange.trans (u := { dropValues v ls with
      slot0 := slotWithout v.slot0 ls, slot1 := slotWithout v.slot1 ls, divLanes := v.divLanes &&& ~~~ls,
      divRan := v.divRan.filter (fun q => q.1 &&& ~~~ls ≠ 0), div := (exitEntries ls v.div).1 }) ⟨rfl⟩
    ((pathChange_completeJoins (exitEntries ls v.div).2 cyc _).trans (pathChange_fillSlots ..))

/-- The free value of a lane that skips a record. -/
def skipVal (s : State) (op : Nat) (r : Record) : Val :=
  ⟨extendValue (resTy op r.ty) (Config.staleValue s.freeCtr), Config.staleValue (s.freeCtr + 1)⟩

/-- A lane skips a record. -/
def skipLane (c w : Nat) (e : Replay) (op : Nat) (r : Record) (s : State) (l : Nat) : State :=
  onWave { s with freeCtr := s.freeCtr + 2 } c w (fun v => { v with vals := smSet ⟨0, 0⟩ v.vals (e.rcd * 32 + l) (skipVal s op r) })

/-- A wave of which lanes skip a record keeps all but values. -/
theorem skipLanes_wave (e : Replay) (op : Nat) (r : Record) (ls : List Nat) {s : State} {c w : Nat} {v : Wave} (hv : waveOf s c w = some v) :
    ∃ u, waveOf (ls.foldl (skipLane c w e op r) s) c w = some u ∧ PathChange v u := by
  induction ls generalizing s v with
  | nil => exact ⟨v, hv, PathChange.refl v⟩
  | cons l ls ih =>
    have hl : waveOf (skipLane c w e op r s l) c w
        = some { v with vals := smSet ⟨0, 0⟩ v.vals (e.rcd * 32 + l) (skipVal s op r) } := by
      rw [skipLane, waveOf_onWave]
      exact congrArg (Option.map _) hv
    obtain ⟨u, hu, hvu⟩ := ih hl
    exact ⟨u, hu, PathChange.trans ⟨rfl⟩ hvu⟩

theorem skipValue_wave {s : State} {c w : Nat} {v : Wave} (hv : waveOf s c w = some v) (e : Replay) (ls : List Nat) :
    ∃ u, waveOf (skipValue s c w e ls) c w = some u ∧ PathChange v u := by
  unfold skipValue
  split
  · split
    · exact ⟨v, hv, PathChange.refl v⟩
    · exact skipLanes_wave e _ _ ls hv
  · exact ⟨v, hv, PathChange.refl v⟩

theorem skipAll_wave (ps : List (Replay × Replay)) {s : State} {c w : Nat} {v : Wave} (hv : waveOf s c w = some v) :
    ∃ u, waveOf (skipAll s c w ps) c w = some u ∧ PathChange v u := by
  induction ps generalizing s v with
  | nil => exact ⟨v, hv, PathChange.refl v⟩
  | cons p ps ih =>
    obtain ⟨u, hu, hvu⟩ := skipValue_wave hv p.2 (skippedLanes p.1 p.2)
    obtain ⟨x, hx, hux⟩ := ih hu
    exact ⟨x, hx, hvu.trans hux⟩

/-! ### The return of a good frame -/

/-- The replay entries as the frame has them. -/
def freshEntries (v : Wave) (rp : List Byte) : List Replay := (v.replay.zip (splitEntries v.replay rp)).map (fun p => refreshEntry v p.1 p.2)

/-- Why the own cells of the lanes of KILL fail (R146). -/
def returnWhy (stop : StopInfo) : BitVec 8 × Nat × Nat :=
  if stop.stop = 1 then (causeSoftTrap, 0xFFFF, 0) else (stop.cause, stop.blk, stop.rcd)

section
variable {s t q : State} {c w : Nat} {v : Wave} {hd rp : List Byte} (hv : waveOf s c w = some v)
  (hh : readVirtual s v.part (coreOf s c).world (frameBase v) 0x400 = (t, .ok hd))
  (hr : readVirtual t v.part (coreOf s c).world (frameBase v + 0x1400) ((v.replay.map (fun e => replaySize e.opmap)).sum) = (q, .ok rp))
include hv hh hr

theorem returnFrom_damaged (hs : ¬ crc32c (sealedBytes hd (splitEntries v.replay rp)) = BitVec.ofNat 32 (field hd 0x5C 4)) :
    returnFrom s c w = (q, .damaged (frameBase v)) := by
  simp only [returnFrom, hv, hh, hr, ne_eq, hs, not_false_eq_true, if_true]

theorem returnFrom_resumed (hs : crc32c (sealedBytes hd (splitEntries v.replay rp)) = BitVec.ofNat 32 (field hd 0x5C 4)) :
    ∃ x pass why, returnFrom s c w = (endWaveLanes (resumed (skipAll q c w (v.replay.zip (freshEntries v rp))) c w x pass
      (freshEntries v rp)) c w (BitVec.ofNat 32 (field hd 0x2C 4)) why, .resumed) := by
  refine ⟨(v.stop.getD ⟨0, 0, 0, false, 0, 0, 0, 0⟩).slot, if field hd 0x15 1 % 2 = 1
    then some ((v.stop.getD ⟨0, 0, 0, false, 0, 0, 0, 0⟩).blk, (v.stop.getD ⟨0, 0, 0, false, 0, 0, 0, 0⟩).rcd) else none,
    returnWhy (v.stop.getD ⟨0, 0, 0, false, 0, 0, 0, 0⟩), ?_⟩
  simp only [returnFrom, hv, hh, hr, hs, ne_eq, not_true, if_false]
  rfl

end

theorem resumedWave_spec (cyc x : Nat) (pass : Option (Nat × Nat)) (fresh : List Replay) (v : Wave) :
    let u := resumedWave cyc x pass fresh v
    u.halted = false ∧ u.stop = none ∧ u.replay = fresh ∧ u.evals = v.evals ∧ u.divMem = v.divMem := by
  unfold resumedWave
  dsimp only
  rw [(pathChange_putSlot ..).eq]
  exact ⟨rfl, rfl, rfl, rfl, rfl⟩

/-- What is left of a wave that has left HALTED. -/
theorem waveOf_resumed {s : State} {c w : Nat} {v : Wave} (hv : waveOf s c w = some v) (he : v.evals = []) (hd : v.divMem = 0) (x : Nat)
    (pass : Option (Nat × Nat)) (fresh : List Replay) (kill : W32) (why : BitVec 8 × Nat × Nat) {u : Wave}
    (hu : waveOf (endWaveLanes (resumed s c w x pass fresh) c w kill why) c w = some u) :
    u.halted = false ∧ u.stop = none ∧ u.replay = fresh ∧ liveLanes u &&& kill = 0 := by
  obtain ⟨hh, hs, hr, hev, hdm⟩ := resumedWave_spec (coreOf s c).cycle x pass fresh v
  have hres : waveOf (resumed s c w x pass fresh) c w = some (resumedWave (coreOf s c).cycle x pass fresh v) := by
    rw [resumed, waveOf_onCore _ _ _ _ (by rfl), waveOf_onWave, hv]
    rfl
  have hlive := (endWaveLanes_spec hres (hdm.trans hd) (hev.trans he) kill why).1 u hu
  obtain rfl := waveOf_endWaveLanes hres (hdm.trans hd) (hev.trans he) kill why hu
  refine ⟨?_, ?_, ?_, hlive⟩
  · rw [(pathChange_endLanes ..).eq]; exact hh
  · rw [(pathChange_endLanes ..).eq]; exact hs
  · rw [(pathChange_endLanes ..).eq]; exact hr

/-! ## SYS.tret (R331) -/

theorem exec_sysTret (r : Record) (s : State) : exec (.sysTret r) s = execSysTret r s := rfl

theorem sysTret_none {r : Record} {s : State} {k : Ctx} (hk : ctxOf s = some k) (h : tretTarget s k (opA s k r .b64 k.low) = none) :
    exec (.sysTret r) s = .next (advance s k) := by
  rw [exec_sysTret, execSysTret, onSlot_next s k _ hk]
  simp only [h]

theorem sysTret_returns {r : Record} {s q : State} {k : Ctx} {w : Nat} {v : Wave} (hk : ctxOf s = some k)
    (h : tretTarget s k (opA s k r .b64 k.low) = some (w, v)) (ho : openBelow s k (portBound s k) = false)
    (hn : frameNames s k.core w v (opA s k r .b64 k.low) = true) (hr : returnFrom s k.core w = (q, .resumed)) :
    exec (.sysTret r) s = .next (advance q k) := by
  rw [exec_sysTret, execSysTret, onSlot_next s k _ hk]
  simp only [h, afterRelease_open ho, hn, hr, Bool.not_true, Bool.false_eq_true, if_false]

theorem tretTarget_spec {s : State} {k : Ctx} {a : Word} {w : Nat} {v : Wave} (h : tretTarget s k a = some (w, v)) :
    waveOf s k.core w = some v ∧ v.halted = true ∧ a.toNat / 2 ^ 16 % 2 ^ 12 = k.core ∧ a.toNat / 2 ^ 28 % 16 = w := by
  unfold tretTarget at h
  dsimp only at h
  split at h
  · exact absurd h nofun
  · next hc =>
    obtain ⟨u, hu, hb⟩ := Option.bind_eq_some_iff.mp h
    split at hb
    · next hh =>
      obtain ⟨rfl, rfl⟩ := Prod.mk.inj (Option.some.inj hb)
      exact ⟨hu, hh, Classical.not_not.mp hc, rfl⟩
    · exact absurd hb nofun

/-- Settles O40: a frame whose SEAL holds gives the entries and the lanes that live; SYS.tret makes that return. -/
theorem returnResumes : Obligations.ReturnResumes := by
  refine ⟨fun s t q c w v hd rp hv hh hr => ⟨fun hs hq he hdm => ?_, fun hs => returnFrom_damaged hv hh hr hs⟩,
    fun r s q k w v hk => ⟨sysTret_none hk, fun h ho hn hret => sysTret_returns hk h ho hn hret, tretTarget_spec⟩⟩
  obtain ⟨x, pass, why, hret⟩ := returnFrom_resumed hv hh hr hs
  obtain ⟨u, hu, hvu⟩ := skipAll_wave (v.replay.zip (freshEntries v rp)) hq
  rw [hret]
  exact ⟨rfl, fun y hy => waveOf_resumed hu (by rw [hvu.eq]; exact he) (by rw [hvu.eq]; exact hdm) x pass _ _ why hy⟩

end Sys2Proof.Proofs.Return
end

section
/-! SUPPORT. TRAP, BRK and the fetch marker stop their wave (R149 to R157, R199, R277). -/

open Sys2Proof Sys2Proof.Machine Sys2Proof.Cert
open Sys2Proof.Proofs.Frames Sys2Proof.Proofs.Paths Sys2Proof.Proofs.Home Sys2Proof.Proofs.Moves Sys2Proof.Proofs.Handlers
open Sys2Proof.Proofs.Control (carriageDiscard_none)
open Sys2Proof.Proofs.Values (stepSlot_record)

namespace Sys2Proof.Proofs.Stops

/-! ## Waves that stand while a stop is told -/

/-- Every wave stands but for what an abort of its carriages does. -/
def WavesStand (s t : State) : Prop := ∀ c w v, waveOf s c w = some v → ∃ u, waveOf t c w = some u ∧ WaveQuiet v u

theorem WavesStand.refl (s : State) : WavesStand s s := fun _ _ v h => ⟨v, h, WaveQuiet.refl v⟩

theorem WavesStand.trans {s t u : State} (h : WavesStand s t) (g : WavesStand t u) : WavesStand s u := by
  intro c w v hv
  obtain ⟨x, hx, hvx⟩ := h c w v hv
  obtain ⟨y, hy, hxy⟩ := g c w x hx
  exact ⟨y, hy, hvx.trans hxy⟩

theorem wavesStand_quiet {s t : State} (h : Quiet s t) : WavesStand s t := h.waves

theorem wavesStand_of_cores {s t : State} (h : t.cores = s.cores) : WavesStand s t :=
  fun _ _ v hv => ⟨v, by rw [waveOf, coreOf, h]; exact hv, WaveQuiet.refl v⟩

theorem wavesStand_sendMsix (s : State) (p vec : Nat) : WavesStand s (sendMsix s p vec) := by
  unfold sendMsix
  split
  · exact WavesStand.refl s
  · split <;> exact wavesStand_of_cores rfl

theorem quiet_lostCell (s : State) (p : Nat) (va : Word) (pa : Nat) : Quiet s (lostCell s p va pa) := by
  unfold lostCell
  refine Quiet.trans ?_ (quiet_logEvent ..)
  exact quiet_cellPut ..

theorem quiet_logWorld (s : State) (p : Nat) (agent : Nat × Nat) (cause : BitVec 8) (addr : Word) :
    Quiet s (logWorld s p agent cause addr) := by
  unfold logWorld
  split
  · exact quiet_logEvent ..
  · exact Quiet.refl s

theorem quiet_postMeetsCell (s : State) (p : Nat) (sec : Bool) (a : Word) : Quiet s (postMeetsCell s p sec a).1 := by
  unfold postMeetsCell
  split
  · dsimp only
    split
    · exact quiet_lostCell ..
    · split
      · exact quiet_lostCell ..
      · exact Quiet.refl s
  · exact Quiet.refl s

theorem quiet_postLost (s : State) (p aidx : Nat) (cs : BitVec 8) (a : Word) :
    Quiet s (logEvent (logWorld s p (1, aidx) cs a) 7 cs p 1 aidx a noStage) := (quiet_logWorld ..).trans (quiet_logEvent ..)

theorem wavesStand_postRecord (s : State) (p : Nat) (sec : Bool) (aidx : Nat) (ring : Latch) (bytes tag : Nat) (fault : BitVec 8)
    (status : Nat) (pubver : W32) : WavesStand s (postRecord s p sec aidx ring bytes tag fault status pubver) := by
  have hread := quiet_readEntry false s p sec ring.idx
  unfold postRecord
  dsimp only
  split
  · exact wavesStand_quiet (hread.trans (quiet_postLost ..))
  · next e _ =>
    refine (wavesStand_quiet hread).trans ?_
    split
    · exact wavesStand_quiet ((quiet_postMeetsCell ..).trans (quiet_postLost ..))
    · split
      · exact wavesStand_quiet ((quiet_postMeetsCell ..).trans ((quiet_writeVirtual ..).trans (quiet_postLost ..)))
      · split
        · refine WavesStand.trans ?_ (wavesStand_quiet (quiet_entryPut ..))
          exact wavesStand_quiet (Quiet.trans (quiet_postMeetsCell ..) (quiet_writeVirtual ..))
        · refine WavesStand.trans ?_ (wavesStand_sendMsix _ _ _)
          refine WavesStand.trans ?_ (wavesStand_quiet (quiet_entryPut ..))
          exact wavesStand_quiet (Quiet.trans (quiet_postMeetsCell ..) (quiet_writeVirtual ..))

theorem quiet_handlerReads (s : State) (c : Nat) (v : Wave) : Quiet s (handlerReads s c v) := by
  have h := quiet_markFetch s v.part (coreOf s c).world v.modl 64
  unfold handlerReads
  dsimp only
  split
  · split
    · exact h
    · exact h.trans (quiet_markBlocks ..)
  · split
    · exact h
    · exact h.trans (quiet_markBlocks ..)

/-- A wave that stands HALTED with its stop, which may have been posted. -/
structure Told (v u : Wave) : Prop where
  halted : u.halted = v.halted
  stop : u.stop.map (fun q => { q with posted := false }) = v.stop.map (fun q => { q with posted := false })
  start : ∀ x, StartStands (slotOf v x) (slotOf u x)

theorem Told.refl (v : Wave) : Told v v := ⟨rfl, rfl, fun _ => StartStands.refl _⟩

theorem Told.trans {v u w : Wave} (h : Told v u) (g : Told u w) : Told v w :=
  ⟨g.halted.trans h.halted, g.stop.trans h.stop, fun x => (h.start x).trans (g.start x)⟩

theorem told_quiet {v u : Wave} (h : WaveQuiet v u) : Told v u := ⟨by rw [h.rest], by rw [h.rest], h.start⟩

/-- What is left of a wave has been told of its stop alone. -/
def LeavesTold (t : State) (c w : Nat) (v : Wave) : Prop := ∀ u, waveOf t c w = some u → Told v u

theorem leavesTold_stand {s t : State} {c w : Nat} {v : Wave} (hv : waveOf s c w = some v) (h : WavesStand s t) : LeavesTold t c w v := by
  intro u hu
  obtain ⟨x, hx, hvx⟩ := h c w v hv
  obtain rfl := Option.some.inj (hx.symm.trans hu)
  exact told_quiet hvx

theorem leavesTold_trap {s : State} {c w : Nat} {v : Wave} (hv : waveOf s c w = some v) : LeavesTold (deliverTrap s c w) c w v := by
  by_cases hk : v.kind = .handler
  · have heq : deliverTrap s c w = logEvent s 5 (v.stop.getD ⟨0, 0, 0, false, 0, 0, 0, 0⟩).cause v.part 0 c
        (v.stop.getD ⟨0, 0, 0, false, 0, 0, 0, 0⟩).addr noStage := by
      simp only [deliverTrap, hv, hk, if_true]
    rw [heq]
    exact leavesTold_stand hv (wavesStand_quiet (quiet_logEvent ..))
  · cases hf : handlerEntry (handlerReads s c v) c v with
    | some f =>
      rw [deliverTrap_handled hv hk hf]
      refine leavesTold_stand hv ((wavesStand_quiet (quiet_handlerReads s c v)).trans fun d x u hu => ?_)
      exact ⟨u, (waveOf_onCore _ _ _ _ (by rfl) _).trans hu, WaveQuiet.refl u⟩
    | none =>
      intro u hu
      rw [deliverTrap_gone hv hk hf] at hu
      exact absurd hu nofun

/-- The delivery of a stop leaves the wave with it, or no wave. -/
theorem leavesTold_deliver {s : State} {c w : Nat} {v : Wave} (hv : waveOf s c w = some v) : LeavesTold (deliverStop s c w) c w v := by
  cases hq : v.stop with
  | none =>
    have heq : deliverStop s c w = s := by simp only [deliverStop, hv, hq]
    rw [heq]
    exact leavesTold_stand hv (WavesStand.refl s)
  | some q =>
    unfold deliverStop
    simp only [hv, hq]
    split
    · exact leavesTold_stand hv (WavesStand.refl s)
    · split
      · obtain ⟨x, hx, hvx⟩ := (wavesStand_quiet (quiet_resolve s v.part (coreOf s c).world 0 (coreOf s c).kcDbgring 5 1 0 0 0)) c w v hv
        split
        · next e _ =>
          intro u hu
          rw [waveOf_onWave] at hu
          obtain ⟨y, hy, hxy⟩ := wavesStand_postRecord (resolve s v.part (coreOf s c).world 0 (coreOf s c).kcDbgring 5 1 0 0 0).1 v.part
            (coreOf s c).world c e.l 0 w q.cause 0 e.l.pubver c w x hx
          rw [hy] at hu
          obtain rfl := Option.some.inj hu
          have hstop : y.stop = some q := by rw [hxy.rest, hvx.rest]; exact hq
          refine ((told_quiet hvx).trans (told_quiet hxy)).trans ⟨rfl, ?_, fun _ => StartStands.refl _⟩
          rw [hstop]
          rfl
        · intro u hu
          exact (told_quiet hvx).trans (leavesTold_trap hx u hu)
      · exact leavesTold_trap hv

/-! ## The stop of a settled wave (R149 to R155) -/

/-- A slot that has issued nothing that a stop must finish. -/
def SlotSettled (t : Slot) : Prop :=
  (∀ n g, t.wait ≠ .walk n g) ∧ (∀ g r, t.wait ≠ .walked g r) ∧ (∀ n, t.wait ≠ .port n)

theorem pendingIssue_none {v : Wave} {x : Nat} (h : SlotSettled (slotOf v x)) (s : State) (c w : Nat) : pendingIssue s c w x v = none := by
  obtain ⟨h1, h2, h3⟩ := h
  unfold pendingIssue
  dsimp only
  split
  · rfl
  · split
    · rfl
    · split
      · cases hw : (slotOf v x).wait with
        | walk n g => exact absurd hw (h1 n g)
        | walked g r => exact absurd hw (h2 g r)
        | port n => exact absurd hw (h3 n)
        | _ => rfl
      · rfl

/-- The wave of a stop, its slots stopped. -/
def stoppedWave (v : Wave) : Wave := { v with slot0 := stoppedSlot v.slot0, slot1 := stoppedSlot v.slot1 }

/-- The state in which the slots of a stopping wave stand. -/
def slotsStop (s : State) (c w : Nat) (q : StopReq) : State :=
  onWave (onCore (if q.past then onWave s c w (fun v => stepSlot s.cur v q.x) else s) c
    (fun k => unholdSlot (unholdSlot k w 0) w 1)) c w stoppedWave

/-- The wave HALTED with its stop and its entries. -/
def haltedWave (q : StopReq) (es : List Replay) (v : Wave) : Wave :=
  { v with replay := es, halted := true, stop := some ⟨q.cause, q.stop, q.x, false, q.blk, q.rcd, q.lanes, q.addr⟩ }

/-- What is done once the wave is HALTED. -/
def tellStop (s : State) (c w : Nat) (q : StopReq) (es : List Replay) : State :=
  match waveOf s c w with
  | none => s
  | some v =>
    let s := writeFrame s c w v q es
    let s := if q.cause = causeWorld && q.stop = 0 && !q.logged then logWorld s v.part (0, c) q.cause q.addr else s
    deliverStop s c w

theorem takeStop_settled {s : State} {c w : Nat} {v : Wave} (hv : waveOf s c w = some v) (h0 : v.slot0.car = none)
    (h1 : v.slot1.car = none) (ha : waveAccs s c w v.uid = []) (hs : ∀ x, SlotSettled (slotOf v x)) (q : StopReq) :
    ∃ es, takeStop s c w q [] = tellStop (onWave (divSpill (slotsStop s c w q) c w true) c w (haltedWave q es)) c w q es := by
  have hcar (x : Nat) : carriageDiscard s (c, w, x) false = s := carriageDiscard_none hv (by unfold slotOf; split <;> assumption) _
  have hsettle : settleWave s c w v.uid = (s, []) := by simp [settleWave, performAll, ha, stuckAccs]
  have hguard : noteGuards s [] = s := rfl
  have hend : endAccesses s [] = s := rfl
  have hearly : earlierFault q [] = none := by
    unfold earlierFault
    split
    · rfl
    · split <;> simp_all [faultStop]
  have hpend (x : Nat) := pendingIssue_none (hs x) s c w
  have hword (x : Nat) : pendingWord s c w x v = none := by rw [pendingWord, hpend]; rfl
  have hpast : pastPending s c w 0 none = s ∧ pastPending s c w 1 none = s := ⟨rfl, rfl⟩
  unfold takeStop
  simp only [hv, List.filter_nil, hcar, hsettle, ha, hguard, hend, List.append_nil, hearly, Option.getD_none, hword, hpend, hpast]
  generalize stopEntries _ _ _ _ = es
  refine ⟨es, ?_⟩
  rw [tellStop]
  generalize hS : divSpill (slotsStop s c w q) c w true = S
  have hS' := hS
  unfold slotsStop stoppedWave at hS'
  rw [hS'] <;> rfl

theorem slotOf_stoppedWave (v : Wave) (x : Nat) : slotOf (stoppedWave v) x = stoppedSlot (slotOf v x) := by
  unfold slotOf stoppedWave
  split <;> rfl

theorem slotOf_haltedWave (q : StopReq) (es : List Replay) (v : Wave) (x : Nat) : slotOf (haltedWave q es v) x = slotOf v x := rfl

/-- The wave of a stop at the position that the stop leaves it at. -/
def leftAt (cur : Issue) (q : StopReq) (v : Wave) : Wave := if q.past then stepSlot cur v q.x else v

theorem waveOf_slotsStop {s : State} {c w : Nat} {v : Wave} (hv : waveOf s c w = some v) (q : StopReq) :
    waveOf (slotsStop s c w q) c w = some (stoppedWave (leftAt s.cur q v)) := by
  rw [slotsStop, waveOf_onWave, waveOf_onCore _ _ _ _ (by rfl)]
  unfold leftAt
  split
  · rw [waveOf_onWave, hv]
    rfl
  · rw [hv]
    rfl

theorem quiet_divSpill_keep (s : State) (c w : Nat) : Quiet s (divSpill s c w true) := by
  unfold divSpill
  split
  · exact Quiet.refl s
  · exact quiet_writeVirtual ..

theorem quiet_writeFrame (s : State) (c w : Nat) (v : Wave) (q : StopReq) (es : List Replay) : Quiet s (writeFrame s c w v q es) := by
  unfold writeFrame
  dsimp only
  exact Quiet.trans (quiet_writeVirtual ..) (quiet_writeVirtual ..)

theorem leavesTold_tell {s : State} {c w : Nat} {v : Wave} (hv : waveOf s c w = some v) (q : StopReq) (es : List Replay) :
    LeavesTold (tellStop s c w q es) c w v := by
  have hquiet : Quiet s (if q.cause = causeWorld && q.stop = 0 && !q.logged then
      logWorld (writeFrame s c w v q es) v.part (0, c) q.cause q.addr else writeFrame s c w v q es) := by
    split
    · exact (quiet_writeFrame ..).trans (quiet_logWorld ..)
    · exact quiet_writeFrame ..
  obtain ⟨x, hx, hvx⟩ := wavesStand_quiet hquiet c w v hv
  intro u hu
  rw [tellStop, hv] at hu
  exact (told_quiet hvx).trans (leavesTold_deliver hx u hu)

/-- The stop of a settled wave: what is left of it is HALTED with the stop, its slots stopped where the stop left them. -/
theorem takeStop_leaves {s : State} {c w : Nat} {v : Wave} (hv : waveOf s c w = some v) (h0 : v.slot0.car = none)
    (h1 : v.slot1.car = none) (ha : waveAccs s c w v.uid = []) (hs : ∀ x, SlotSettled (slotOf v x)) (q : StopReq) {u : Wave}
    (hu : waveOf (takeStop s c w q []) c w = some u) :
    u.halted = true ∧ (∃ p, u.stop = some ⟨q.cause, q.stop, q.x, p, q.blk, q.rcd, q.lanes, q.addr⟩)
      ∧ ∀ x, StartStands (stoppedSlot (slotOf (leftAt s.cur q v) x)) (slotOf u x) := by
  obtain ⟨es, hes⟩ := takeStop_settled hv h0 h1 ha hs q
  obtain ⟨a, hwa, hqa⟩ := (quiet_divSpill_keep (slotsStop s c w q) c w).waves c w _ (waveOf_slotsStop hv q)
  have hhalt : waveOf (onWave (divSpill (slotsStop s c w q) c w true) c w (haltedWave q es)) c w = some (haltedWave q es a) := by
    rw [waveOf_onWave, hwa]
    rfl
  rw [hes] at hu
  obtain ⟨hh, hst, hsl⟩ := leavesTold_tell hhalt q es u hu
  refine ⟨hh, ?_, fun x => ?_⟩
  · cases hstop : u.stop with
    | none => rw [hstop] at hst; exact absurd hst nofun
    | some p =>
      rw [hstop] at hst
      obtain ⟨pc, ps, px, pp, pb, pr, pl, pa⟩ := p
      have := Option.some.inj hst
      simp only [StopInfo.mk.injEq] at this
      obtain ⟨rfl, rfl, rfl, -, rfl, rfl, rfl, rfl⟩ := this
      exact ⟨pp, rfl⟩
  · rw [← slotOf_stoppedWave]
    exact (hqa.start x).trans (hsl x)

/-! ## TRAP, BRK and the marker -/

theorem stoppedSlot_at (t : Slot) : (stoppedSlot t).blk = t.blk ∧ (stoppedSlot t).rcd = t.rcd ∧ (stoppedSlot t).car = t.car := by
  unfold stoppedSlot
  split
  · exact ⟨rfl, rfl, rfl⟩
  · split <;> exact ⟨rfl, rfl, rfl⟩

/-- A slot that the stop left at no record of a carriage but its first stays at its record. -/
theorem stands_stopped {t u : Slot} (h : StartStands (stoppedSlot t) u) (ht : AtStart t) : u.blk = t.blk ∧ u.rcd = t.rcd := by
  obtain ⟨hb, hr, hc⟩ := stoppedSlot_at t
  obtain ⟨gb, gr, -⟩ := h (fun car hcar => by rw [hb, hr]; exact ht car (hc ▸ hcar))
  exact ⟨gb.trans hb, gr.trans hr⟩

theorem atStart_none {t : Slot} (h : t.car = none) : AtStart t := fun car hc => by rw [h] at hc; exact absurd hc nofun

/-- Past a record outside a carriage stands the next one, or the start of the block that follows. -/
theorem advanceSlot_stands (v : Wave) (x : Nat) (hc : (slotOf v x).car = none) :
    (slotOf (advanceSlot v x) x).blk = (nextAt v (slotOf v x).blk (slotOf v x).rcd).1
      ∧ (slotOf (advanceSlot v x) x).rcd = (nextAt v (slotOf v x).blk (slotOf v x).rcd).2 ∧ AtStart (slotOf (advanceSlot v x) x) := by
  by_cases h : (slotOf v x).rcd + 1 < blockRecs v (slotOf v x).blk
  · rw [advanceSlot_next v x h, slotOf_putSlot, nextAt, if_pos h]
    exact ⟨rfl, rfl, atStart_none hc⟩
  · rw [advanceSlot_last v x h hc, nextAt, if_neg h, moveSlot, slotOf_putSlot]
    refine ⟨rfl, rfl, fun car hcar => ?_⟩
    simp only [carriageAt] at hcar
    split at hcar
    · obtain rfl := Option.some.inj hcar
      exact ⟨rfl, rfl⟩
    · exact absurd hcar nofun

theorem exec_trap (r : Record) (s : State) : exec (.trap r) s = execTrap r s := rfl
theorem exec_brk (r : Record) (s : State) : exec (.brk r) s = execBrk r s := rfl
theorem exec_fetchMarker (c : BitVec 16) (s : State) : exec (.fetchMarker c) s = execFetchMarker c s := rfl

/-- The stop that TRAP asks for. -/
def trapReq (s : State) (k : Ctx) (r : Record) : StopReq :=
  { cause := causeSoftTrap, stop := 0, x := k.x, lanes := maskOf k.act, blk := s.cur.blk, rcd := s.cur.rcd, addr := 0, cmp := 0xFF,
    late := s.cur.replay && (replayEntry s k (.trap r) 0 false).late, cpl := false, entry := none, grp := 0 }

/-- The stop that BRK asks for. -/
def brkReq (s : State) (k : Ctx) : StopReq :=
  { cause := causeBreak, stop := 2, x := k.x, lanes := maskOf k.lanes, blk := s.cur.blk, rcd := s.cur.rcd, addr := 0, cmp := 0xFF,
    late := false, cpl := false, entry := none, grp := 0, past := true }

/-- The stop that a fetch marker asks for. -/
def markerReq (s : State) (k : Ctx) (c : BitVec 16) (m : Marker) : StopReq :=
  { cause := c.setWidth 8, stop := 0, x := k.x, lanes := k.slot.mask, blk := s.cur.blk, rcd := m.rcd, addr := m.addr, cmp := 0xFF,
    late := false, cpl := false, entry := none, grp := 0, logged := true }

section
variable {s : State} {k : Ctx} (hk : ctxOf s = some k) (hset : Settled s k)
include hk hset

/-- A stop of a settled wave at its issuing slot. -/
theorem settled_leaves (q : StopReq) {u : Wave} (hu : waveOf (takeStop s k.core k.w q []) k.core k.w = some u) :
    u.halted = true ∧ (∃ p, u.stop = some ⟨q.cause, q.stop, q.x, p, q.blk, q.rcd, q.lanes, q.addr⟩)
      ∧ ∀ x, StartStands (stoppedSlot (slotOf (leftAt s.cur q k.wave) x)) (slotOf u x) := by
  obtain ⟨-, hwave, -, -, -⟩ := ctxOf_spec s k hk
  obtain ⟨h0, h1, ha, hs⟩ := hset
  exact takeStop_leaves hwave h0 h1 ha hs q hu

omit hk in
theorem settled_car (x : Nat) : (slotOf k.wave x).car = none := by
  obtain ⟨h0, h1, -, -⟩ := hset
  unfold slotOf
  split <;> assumption

/-- A stop that leaves its slot at the record that issued. -/
theorem settled_stays (q : StopReq) (hp : q.past = false) {u : Wave} (hu : waveOf (takeStop s k.core k.w q []) k.core k.w = some u) :
    (slotOf u k.x).blk = k.slot.blk ∧ (slotOf u k.x).rcd = k.slot.rcd := by
  obtain ⟨-, -, hslot, -, -⟩ := ctxOf_spec s k hk
  obtain ⟨-, -, hst⟩ := settled_leaves hk hset q hu
  have hleft : leftAt s.cur q k.wave = k.wave := by rw [leftAt, if_neg (by simp [hp])]
  have := stands_stopped (hst k.x) (by rw [hleft]; exact atStart_none (settled_car hset k.x))
  rwa [hleft, ← hslot] at this

theorem exec_trap_settled (r : Record) : exec (.trap r) s = .next (takeStop s k.core k.w (trapReq s k r) []) := by
  have hcar := settled_car hset k.x
  rw [exec_trap, execTrap, onSlot_next s k _ hk, trapState, takeTrap]
  simp only [hcar, Option.isSome_none, Bool.false_and, isControl, Bool.not_false, Bool.and_true, Bool.or_false, if_true, trapReq]

theorem exec_brk_settled (r : Record) (hr : s.cur.replay = false) :
    exec (.brk r) s = .next (takeStop s k.core k.w (brkReq s k) []) := by
  have hcar := settled_car hset k.x
  rw [exec_brk, execBrk, onSlot_next s k _ hk]
  simp only [hcar, Option.isSome_none, Bool.false_eq_true, if_false, hr, brkReq]

omit hset in
theorem exec_marker_settled (c : BitVec 16) {e : SEntry} {m : Marker} (he : slotEntry s k.core k.wave k.slot = some e)
    (hm : e.marker = some m) : exec (.fetchMarker c) s = .next (takeStop s k.core k.w (markerReq s k c m) []) := by
  rw [exec_fetchMarker, execFetchMarker, onSlot_next s k _ hk]
  simp only [he, hm, Option.bind_some, Option.map_some, Option.getD_some, markerReq]

end

/-- Settles O37: TRAP, BRK and a fetch marker are `takeStop` with their own requests; nothing being left to settle, what is left of
the wave is HALTED with that request, and its slots stand where the request leaves them. -/
theorem stopsHaltTheWave : Obligations.StopsHaltTheWave := by
  unfold Obligations.StopsHaltTheWave
  intro r s k hk hset hr _
  obtain ⟨-, -, hslot, -, -⟩ := ctxOf_spec s k hk
  refine ⟨⟨_, exec_trap_settled hk hset r, fun v hv => ?_, fun v hv => settled_stays hk hset _ rfl hv⟩,
    ⟨_, exec_brk_settled hk hset r hr, fun v hv => ?_, fun v hv hd => ?_⟩,
    fun c e m he hm => ⟨_, exec_marker_settled hk c he hm, fun v hv => ?_, fun v hv => settled_stays hk hset _ rfl hv⟩⟩
  · obtain ⟨hh, hst, -⟩ := settled_leaves hk hset _ hv
    exact ⟨hh, hst⟩
  · obtain ⟨hh, hst, -⟩ := settled_leaves hk hset _ hv
    exact ⟨hh, hst⟩
  · obtain ⟨-, -, hst⟩ := settled_leaves hk hset _ hv
    have hleft : leftAt s.cur (brkReq s k) k.wave = advanceSlot k.wave k.x := stepSlot_record (hslot ▸ hd)
    obtain ⟨hb, hr', hat⟩ := advanceSlot_stands k.wave k.x (settled_car hset k.x)
    obtain ⟨gb, gr⟩ := stands_stopped (hst k.x) (by rw [hleft]; exact hat)
    rw [hslot]
    exact ⟨gb.trans ((congrArg (fun v => (slotOf v k.x).blk) hleft).trans hb),
      gr.trans ((congrArg (fun v => (slotOf v k.x).rcd) hleft).trans hr')⟩
  · obtain ⟨hh, hst, -⟩ := settled_leaves hk hset _ hv
    exact ⟨hh, hst⟩

end Sys2Proof.Proofs.Stops
end

section
/-! SUPPORT. Launches are accepted and become ready (R45, R46), and their blocks get cores (R25, R30, R32, R33, R47). -/

open Sys2Proof Sys2Proof.Machine Sys2Proof.Cert
open Sys2Proof.Proofs.Sync (afterRelease_open)

namespace Sys2Proof.Proofs.Launches

/-! ## Acceptance -/

theorem exec_spawnLaunch (r : Record) (s : State) : exec (.spawnLaunch r) s = execSpawnLaunch r s := rfl

/-- SPAWN.launch outside a carriage, all of its reads good: one launch a lane. -/
theorem exec_spawnLaunch_accepts {r : Record} {s q : State} {k : Ctx} {rds : List (Nat × LaunchRead)} (hk : ctxOf s = some k)
    (hcar : k.slot.car = none) (hopen : openBelow s k (portBound s k) = false) (hr : readLaunches s k r = (q, [], rds)) :
    exec (.spawnLaunch r) s = .next (advance (rds.foldl (fun t p => acceptLaunch t k.core k.w p.1 p.2) q) k) := by
  obtain ⟨-, -, hslot, -, -⟩ := ctxOf_spec s k hk
  have hrun : sameRun q k = true := by simp [sameRun, hcar]
  rw [exec_spawnLaunch, execSpawnLaunch, onSlot_next s k _ hk, afterRelease_open hopen, hr]
  simp [hrun, ← hslot, hcar]

/-- An identity that no launch has is the next one. -/
theorem freshLaunch_next {s : State} (h0 : 0 < s.nextLaunch) (h1 : s.nextLaunch < 2 ^ 32) (hn : ∀ l ∈ s.launches, l.id ≠ s.nextLaunch) :
    freshLaunch s = s.nextLaunch := by
  have hfirst : (s.nextLaunch - 1 + 0) % (2 ^ 32 - 1) + 1 = s.nextLaunch := by omega
  have hfree : s.launches.any (fun l => decide (l.id = s.nextLaunch)) = false := by simpa using hn
  unfold freshLaunch
  rw [List.range_succ_eq_map, List.map_cons, List.find?_cons, hfirst, hfree]
  rfl

/-- The launch that a launch record without inputs asks for (R45). -/
def launchFrom (s : State) (p : Nat) (sec : Bool) (rd : LaunchRead) (f : FoundBlock) (d : EntryDesc) : Launch :=
  { id := s.nextLaunch, part := p, kernel := leWord (rd.raw.take 8), modl := f.modl, entry := f.blk, table := f.table, desc := d,
    nblk := field rd.raw 8 4, args := rd.args, inputs := [], prio := field rd.raw 0xF 1, splice := false, pred := none, adopt := none,
    done := leWord ((rd.raw.drop 0x10).take 8), cl0 := if field rd.raw 0x1A 2 = 0 then 0 else field rd.raw 0x18 2,
    ncl := if field rd.raw 0x1A 2 = 0 then Config.numClusters else field rd.raw 0x1A 2, secure := sec,
    world := (partOf s p).world, st := .waiting, age := 0, nextBlock := 0, retired := 0, waited := 0, record := rd.addr, cause := 0 }

/-- A launch that has become ready. -/
def readied (s : State) (l : Launch) : Launch := { l with st := .ready, age := s.nextAge, waited := s.fabricCycle }

theorem launchInputs_none (s : State) (l : Launch) (touch : Bool) (hp : l.pred = none) (hi : l.inputs = []) :
    launchInputs s l touch = (s, .value) := by
  simp [launchInputs, hp, hi, inputCells]

theorem acceptLaunch_ready {s : State} {c w lane : Nat} {v : Wave} {rd : LaunchRead} {f : FoundBlock} {d : EntryDesc}
    (hv : waveOf s c w = some v) (hin : rd.inputs = [])
    (hf : findEntry (markBlocks s v.part) v.part (leWord (rd.raw.take 8)) 1 = some (f, d)) (hna : field rd.raw 0xC 2 ≤ 256)
    (hni : field rd.raw 0xE 1 ≤ 32) (hfl : field rd.raw 0xF 1 < 4)
    (hcl : clustersOk (markBlocks s v.part) v.part (field rd.raw 0x18 2) (field rd.raw 0x1A 2) = true)
    (hb : (partOf (markBlocks s v.part) v.part).bothw = false) (hid : freshLaunch (markBlocks s v.part) = (markBlocks s v.part).nextLaunch) :
    (acceptLaunch s c w lane rd).launches = ((markBlocks s v.part).launches ++
        [launchFrom (markBlocks s v.part) v.part (coreOf (markBlocks s v.part) c).world rd f d]).map (fun l =>
      if l.id = (markBlocks s v.part).nextLaunch then readied (markBlocks s v.part) l else l) := by
  have h8 : field rd.raw 0xF 1 / 8 = 0 := by omega
  have h4 : field rd.raw 0xF 1 / 4 = 0 := by omega
  have hm : field rd.raw 0xF 1 % 4 = field rd.raw 0xF 1 := by omega
  have hna' : ¬ 256 < field rd.raw 0xC 2 := by omega
  have hni' : ¬ 32 < field rd.raw 0xE 1 := by omega
  unfold acceptLaunch
  simp only [hv]
  generalize markBlocks s v.part = m at *
  simp only [hf, hin, h8, h4, hm, hcl, hb, hid, hna', hni', launchWorld]
  simp [launchInputs_none, makeReady, launchFrom, readied]

theorem launchesAreAccepted : LaunchesAreAccepted := by
  intro r s q k rds hk
  obtain ⟨-, hwave, -, -, -⟩ := ctxOf_spec s k hk
  refine ⟨exec_spawnLaunch_accepts hk, fun lane rd f d hin hf hna hni hfl hcl hb h0 h1 hn => ?_⟩
  have hacc := acceptLaunch_ready (lane := lane) hwave hin hf hna hni hfl hcl hb (freshLaunch_next h0 h1 hn)
  generalize markBlocks s k.wave.part = m at *
  refine ⟨readied m (launchFrom m k.wave.part (coreOf m k.core).world rd f d),
    ?_, rfl, rfl, rfl, rfl, rfl, rfl, rfl, rfl, rfl, rfl, rfl, rfl, rfl, rfl, rfl, rfl⟩
  rw [hacc, List.map_append]
  congr 1
  · exact (List.map_congr_left fun l hl => if_neg (hn l hl)).trans (List.map_id _)
  · exact congrArg (fun x => [x]) (if_pos rfl)

/-! ## Readiness -/

theorem exec_launchReady (id : Nat) (s : State) : exec (.launchReady id) s = execLaunchReady id s := rfl

theorem launchReadiness : LaunchReadiness := by
  intro s q l hl
  refine ⟨fun hst hin => ?_, fun hst hin => ?_, fun hst => ?_⟩
  · rw [exec_launchReady, execLaunchReady]
    simp only [hl, hst, hin]
    rfl
  · rw [exec_launchReady, execLaunchReady]
    simp only [hl, hst, hin]
  · rw [exec_launchReady, execLaunchReady]
    simp only [hl, hst]
    rfl

/-- Settles O42: acceptance is `acceptLaunch` for each read, which with no input is ready at once; LAUNCH_READY by the launch's
state and what its inputs answer. -/
theorem launchesBegin : Obligations.LaunchesBegin := ⟨launchesAreAccepted, launchReadiness⟩

end Sys2Proof.Proofs.Launches
end

section
/-! SUPPORT. Blocks get their waves, and cores go to launches (R25, R30, R32, R33, R47). -/

open Sys2Proof Sys2Proof.Machine Sys2Proof.Cert
open Sys2Proof.Proofs.SystemRecords (waveOf_acquireL1)
open Sys2Proof.Proofs.Handlers (placeGroups_rest)

namespace Sys2Proof.Proofs.Places

/-! ## Free places -/

/-- Places for waves are in the given slots, in order. -/
theorem waveSpots_slots {limit window g : Nat} {ws : List Nat} :
    ∀ {used : List (Nat × Nat)} {sps : List Spot}, waveSpots used limit window g ws = some sps →
      sps.map (fun sp => sp.wslot) = ws := by
  induction ws with
  | nil =>
    intro used sps h
    obtain rfl := Option.some.inj h
    rfl
  | cons w ws ih =>
    intro used sps h
    rw [waveSpots] at h
    cases hw : findWindow used limit window with
    | none => rw [hw] at h; exact absurd h nofun
    | some b =>
      rw [hw] at h
      obtain ⟨rest, hrest, rfl⟩ := Option.map_eq_some_iff.mp h
      rw [List.map_cons, ih hrest]

theorem freeSlots_nodup (k : Core) (rsv : Nat) : (freeSlots k rsv).Nodup := List.nodup_range.filter _

theorem blockSpots_nodup {s : State} {c : Nat} {l : Launch} {sps : List Spot} (h : blockSpots s c l = some sps) :
    (sps.map (fun sp => sp.wslot)).Nodup := by
  unfold blockSpots at h
  dsimp only at h
  split at h
  · exact absurd h nofun
  · split at h
    · exact absurd h nofun
    · rw [waveSpots_slots h]
      exact (freeSlots_nodup _ _).sublist (List.take_sublist _ _)

/-! ## Waves installed on a core -/

/-- Waves have been installed on one core. -/
structure Installs (c : Nat) (s t : State) : Prop where
  rest : t = { s with cores := t.cores, nextUid := t.nextUid }
  other : ∀ d, d ≠ c → coreOf t d = coreOf s d

theorem Installs.refl (c : Nat) (s : State) : Installs c s s := ⟨rfl, fun _ _ => rfl⟩

theorem Installs.trans {c : Nat} {s t u : State} (h : Installs c s t) (g : Installs c t u) : Installs c s u :=
  ⟨by rw [g.rest, h.rest], fun d hd => (g.other d hd).trans (h.other d hd)⟩

theorem installs_onCore (s : State) (c : Nat) (f : Core → Core) : Installs c s (onCore s c f) :=
  ⟨rfl, fun d hd => coreOf_onCore_other s c d f hd⟩

theorem installs_acquireL1 (s : State) (c : Nat) (o : Order) (sc : Scope) : Installs c s (acquireL1 s c o sc) := by
  unfold acquireL1
  split
  · exact installs_onCore s c _
  · exact Installs.refl c s

theorem installs_wave (s : State) (c : Nat) (n : NewWave) : Installs c s (installWave s c n) := by
  have hnext (q : State) : Installs c q { q with nextUid := q.nextUid + 1 } := ⟨rfl, fun _ _ => rfl⟩
  unfold installWave
  dsimp only
  exact ((installs_acquireL1 s c .aq .dv).trans (hnext _)).trans (installs_onCore _ c _)

theorem waveOf_installWave (s : State) (c : Nat) (n : NewWave) :
    (∃ q, waveOf (installWave s c n) c n.spot.wslot = some (waveOfNew q c n))
    ∧ ∀ w, w ≠ n.spot.wslot → waveOf (installWave s c n) c w = waveOf s c w := by
  have hcore : (coreOf (installWave s c n) c).waves
      = smSet none (coreOf (acquireL1 s c .aq .dv) c).waves n.spot.wslot (some (waveOfNew (acquireL1 s c .aq .dv) c n)) := by
    unfold installWave
    dsimp only
    rw [coreOf_onCore]
    rfl
  refine ⟨⟨acquireL1 s c .aq .dv, ?_⟩, fun w hw => ?_⟩
  · rw [waveOf, hcore, smGet_smSet_same]
  · rw [waveOf, hcore, smGet_smSet_other _ _ _ _ _ hw]
    exact waveOf_acquireL1 s c .aq .dv c w

/-- What one wave after another is installed. -/
def installAll (c : Nat) (new : Spot × Nat → NewWave) (ps : List (Spot × Nat)) (s : State) : State :=
  ps.foldl (fun s p => installWave s c (new p)) s

theorem installs_all (c : Nat) (new : Spot × Nat → NewWave) (ps : List (Spot × Nat)) (s : State) :
    Installs c s (installAll c new ps s) := by
  induction ps generalizing s with
  | nil => exact Installs.refl c s
  | cons p ps ih => exact (installs_wave s c (new p)).trans (ih _)

theorem waveOf_installAll_other {c : Nat} {new : Spot × Nat → NewWave} {ps : List (Spot × Nat)} {w : Nat}
    (hw : ∀ p ∈ ps, w ≠ (new p).spot.wslot) (s : State) : waveOf (installAll c new ps s) c w = waveOf s c w := by
  induction ps generalizing s with
  | nil => rfl
  | cons p ps ih =>
    rw [List.forall_mem_cons] at hw
    exact (ih hw.2 _).trans ((waveOf_installWave s c (new p)).2 w hw.1)

/-- Waves installed in slots of their own are all there. -/
theorem waveOf_installAll {c : Nat} {new : Spot × Nat → NewWave} {ps : List (Spot × Nat)}
    (hnd : (ps.map (fun p => (new p).spot.wslot)).Nodup) (s : State) :
    ∀ p ∈ ps, ∃ q, waveOf (installAll c new ps s) c (new p).spot.wslot = some (waveOfNew q c (new p)) := by
  induction ps generalizing s with
  | nil => exact nofun
  | cons p ps ih =>
    rw [List.map_cons, List.nodup_cons] at hnd
    obtain ⟨hp, hps⟩ := hnd
    rw [List.forall_mem_cons]
    refine ⟨?_, ih hps _⟩
    obtain ⟨q, hq⟩ := (waveOf_installWave s c (new p)).1
    have hfree : ∀ x ∈ ps, (new p).spot.wslot ≠ (new x).spot.wslot := fun x hx he => hp (List.mem_map.mpr ⟨x, hx, he.symm⟩)
    exact ⟨q, (waveOf_installAll_other hfree (installWave s c (new p))).trans hq⟩

/-! ## BLOCK_PLACE -/

/-- What a kernel wave of a launch's next block is placed with. -/
def kernelNew (uid : Nat) (l : Launch) (p : Spot × Nat) : NewWave :=
  { spot := p.1, kind := .kernel, block := uid, launch := l.id, blockIdx := l.nextBlock, waveIdx := p.2, nblk := l.nblk,
    prio := l.prio, modl := l.modl, entry := l.entry, table := l.table, desc := l.desc, args := l.args,
    mask := 0xFFFFFFFF, evals := [] }

/-- The waves of a launch's next block are on the core. -/
def blockInstalled (s : State) (c : Nat) (l : Launch) (sps : List Spot) : State :=
  installAll c (kernelNew s.nextUid l) sps.zipIdx { s with nextUid := s.nextUid + 1 }

theorem installs_block (s : State) (c : Nat) (l : Launch) (sps : List Spot) : Installs c s (blockInstalled s c l sps) := by
  have hnext : Installs c s { s with nextUid := s.nextUid + 1 } := ⟨rfl, fun _ _ => rfl⟩
  exact hnext.trans (installs_all ..)

theorem waveOf_blockInstalled (s : State) (c : Nat) (l : Launch) {sps : List Spot} (hnd : (sps.map (fun sp => sp.wslot)).Nodup)
    {i : Nat} {sp : Spot} (hi : sps[i]? = some sp) :
    ∃ q, waveOf (blockInstalled s c l sps) c sp.wslot = some (waveOfNew q c (kernelNew s.nextUid l (sp, i))) := by
  have hslots : sps.zipIdx.map (fun p => (kernelNew s.nextUid l p).spot.wslot) = sps.map (fun sp => sp.wslot) := by
    rw [show (fun p : Spot × Nat => (kernelNew s.nextUid l p).spot.wslot) = (fun sp => sp.wslot) ∘ Prod.fst from rfl, ← List.map_map,
      List.zipIdx_map_fst]
  exact waveOf_installAll (hslots ▸ hnd) _ (sp, i) (List.mk_mem_zipIdx_iff_getElem?.mpr hi)

/-- The core once it holds the block and its groups. -/
def blockCore (uid g : Nat) (l : Launch) (b : PlacedBlock) (ts : List Tender) (k : Core) : Core :=
  let k := placeGroups k uid g l.desc.groups
  { k with blocks := k.blocks ++ [b], tenders := k.tenders ++ ts, reserved := if k.reserved = some l.id then none else k.reserved }

theorem blockCore_waves (uid g : Nat) (l : Launch) (b : PlacedBlock) (ts : List Tender) (k : Core) :
    (blockCore uid g l b ts k).waves = k.waves := by
  unfold blockCore
  dsimp only
  rw [placeGroups_rest]

/-- The launch has one more block placed. -/
def blockCounted (s : State) (id : Nat) : State :=
  { s with launches := relaunch s id (fun q => { q with nextBlock := q.nextBlock + 1, waited := s.fabricCycle }) }

theorem tenderReads_none {s : State} {c : Nat} {l : Launch} (h : l.desc.tblk = 0xFFFF) : tenderReads s c l = s := by
  simp [tenderReads, h]

theorem placeBlock_noTender {s : State} {c : Nat} {l : Launch} (sps : List Spot) (h : l.desc.tblk = 0xFFFF) :
    ∃ uid g b ts, placeBlock s c l sps = blockCounted (onCore (blockInstalled s c l sps) c (blockCore uid g l b ts)) l.id := by
  unfold placeBlock
  simp only [tenderReads_none h]
  exact ⟨_, _, _, _, rfl⟩

theorem exec_blockPlace (id c : Nat) (s : State) : exec (.blockPlace id c) s = execBlockPlace id c s := rfl

theorem blocksArePlaced : BlocksArePlaced := by
  intro s c l sps hl hcan hres htaken hsp
  have hexec : exec (.blockPlace l.id c) s = .next (placeBlock s c l sps) := by
    rw [exec_blockPlace, execBlockPlace]
    simp [hl, hcan, hres, htaken, hsp]
  refine ⟨hexec, fun htb => ⟨_, hexec, ?_⟩⟩
  obtain ⟨uid, g, b, ts, heq⟩ := placeBlock_noTender (s := s) (c := c) sps htb
  have hin := installs_block s c l sps
  have hwaves := fun i sp hi => waveOf_blockInstalled s c l (blockSpots_nodup hsp) (i := i) (sp := sp) hi
  rw [heq]
  generalize blockInstalled s c l sps = m at hin hwaves
  have hm := hin.rest
  refine ⟨?_, ?_, fun d hd => ?_, fun i sp hi => ?_⟩
  · rw [hm]; rfl
  · rw [hm]; rfl
  · exact (coreOf_onCore_other m c d _ hd).trans (hin.other d hd)
  · obtain ⟨q, hq⟩ := hwaves i sp hi
    refine ⟨_, (waveOf_onCore m c sp.wslot _ (blockCore_waves ..) c).trans hq, ?_⟩
    exact ⟨rfl, rfl, rfl, rfl, rfl, rfl, rfl, rfl, rfl, rfl, rfl, rfl, rfl, rfl⟩

/-! ## Reservation and configuration -/

theorem exec_launchReserve (id c : Nat) (s : State) : exec (.launchReserve id c) s = execLaunchReserve id c s := rfl
theorem exec_configSwap (id c : Nat) (s : State) : exec (.configSwap id c) s = execConfigSwap id c s := rfl

theorem exec_launchReserve_next {s : State} {c : Nat} {l : Launch} (hl : launchOf s l.id = some l) (hw : wantsReserve s l = true)
    (hr : reservable s c l = true)
    (hlow : ∀ i, i < l.ncl * 16 → 16 * l.cl0 + i < c → reservable s (16 * l.cl0 + i) l = false)
    (hbef : ∀ q ∈ s.launches, q.id ≠ l.id → launchBefore q l = true → wantsReserve s q = true → reservable s c q = false) :
    exec (.launchReserve l.id c) s = .next (onCore s c (fun k => { k with reserved := some l.id })) := by
  have hlower : (List.range (l.ncl * 16)).any (fun i => 16 * l.cl0 + i < c && reservable s (16 * l.cl0 + i) l) = false := by
    simpa using hlow
  have hbefore : s.launches.any (fun q => q.id ≠ l.id && launchBefore q l && wantsReserve s q && reservable s c q) = false := by
    simpa [and_assoc] using hbef
  rw [exec_launchReserve, execLaunchReserve]
  simp only [hl, hw, hr, hlower, hbefore]
  rfl

/-- The core with a launch's configuration, which is no splice (R33). -/
def swapped (k : Core) (l : Launch) : Core :=
  let zeroed (v : Wave) : Wave := { v with uni := [], vals := [], uniPoison := [], valPoison := [] }
  { k with tiles := l.desc.tiles, dqbase := l.desc.dqbase, dqlim := l.desc.dqlim, world := l.world,
           tileMem := [], tilePoison := [], l1 := [], dqHead := 0, dqCount := 0,
           waves := if k.world ≠ l.world then k.waves.map (fun w => (w.1, w.2.map zeroed)) else k.waves,
           regs := if k.world ≠ l.world then [] else k.regs, regPoison := if k.world ≠ l.world then [] else k.regPoison,
           tagBits := 0, tagCnt := [], streams := [] }

theorem exec_configSwap_next {s : State} {c : Nat} {l : Launch} (hl : launchOf s l.id = some l) (hcan : canHold s c l = true)
    (hsame : sameConfig (coreOf s c) l = false) (hres : reservedElse s c l = false) (htaken : coreTaken s c l = false)
    (hspl : l.splice = false) : exec (.configSwap l.id c) s = .next (setCore s c (swapped (coreOf s c) l)) := by
  rw [exec_configSwap, execConfigSwap]
  simp [hl, hcan, hsame, hres, htaken, swapTiles, swapPoison, hspl, swapped]

theorem coresAreTakenForLaunches : CoresAreTakenForLaunches := by
  intro s c l hl
  refine ⟨exec_launchReserve_next hl, fun hcan hsame hres htaken hspl => ⟨_, exec_configSwap_next hl hcan hsame hres htaken hspl, rfl,
    fun d hd => coreOf_setCore_other _ _ _ _ hd, ?_⟩⟩
  rw [coreOf_setCore]
  refine ⟨rfl, rfl, rfl, rfl, rfl, rfl, rfl, rfl, rfl, rfl, fun hw => ⟨if_neg (not_not_intro hw), if_neg (not_not_intro hw)⟩,
    fun hw => ⟨if_pos hw, if_pos hw⟩⟩

/-- Settles O43: a block's waves are installed one after another in slots of their own; a reservation and a swap change one
core. -/
theorem blocksGoToCores : Obligations.BlocksGoToCores := ⟨blocksArePlaced, coresAreTakenForLaunches⟩

end Sys2Proof.Proofs.Places
end

section
/-! SUPPORT. The records that access memory issue their accesses, and walks end (R104, R280, R282 to R285, R291, R329). -/

open Sys2Proof Sys2Proof.Machine Sys2Proof.Cert
open Sys2Proof.Proofs.Paths (smGet_map)

namespace Sys2Proof.Proofs.Issue

/-! ## Checks that pass -/

/-- The failure of a checked lane. -/
def failOf {α : Type} (p : Nat × Except Fail α) : Option (Nat × Fail) :=
  match p.2 with
  | .error f => some (p.1, f)
  | .ok _ => none

/-- What a checked lane has passed with. -/
def passOf {α : Type} (p : Nat × Except Fail α) : Option α :=
  match p.2 with
  | .ok q => some q
  | .error _ => none

theorem filterMap_failOf {α : Type} (g : Nat × Except Fail α → Option (Nat × Fail)) (checks : List (Nat × Except Fail α))
    (hg : ∀ p, g p = failOf p) : checks.filterMap g = checks.filterMap failOf := congrArg (fun g => checks.filterMap g) (funext hg)

theorem filterMap_passOf {α : Type} (g : Nat × Except Fail α → Option α) (checks : List (Nat × Except Fail α))
    (hg : ∀ p, g p = passOf p) : checks.filterMap g = checks.filterMap passOf := congrArg (fun g => checks.filterMap g) (funext hg)

/-- A lane's check, with what it asked for. -/
def checkedWith (check : Req → Except Fail Checked) (p : Req) : Nat × Except Fail (Req × Checked) :=
  (p.lane, (check p).map (fun x => (p, x)))

theorem checks_pass {check : Req → Except Fail Checked} {reqs : List Req} :
    ∀ {xs : List Checked}, reqs.length = xs.length → (∀ p ∈ reqs.zip xs, check p.1 = .ok p.2) →
      (reqs.map (checkedWith check)).filterMap failOf = [] ∧ (reqs.map (checkedWith check)).filterMap passOf = reqs.zip xs := by
  induction reqs with
  | nil => intro xs _ _; exact ⟨rfl, rfl⟩
  | cons q reqs ih =>
    intro xs hlen h
    cases xs with
    | nil => exact absurd hlen nofun
    | cons x xs =>
      rw [List.zip_cons_cons, List.forall_mem_cons] at h
      obtain ⟨hq, hrest⟩ := h
      obtain ⟨hf, hp⟩ := ih (Nat.succ.inj hlen) hrest
      have hc : checkedWith check q = (q.lane, .ok (q, x)) := by rw [checkedWith, hq]; rfl
      rw [List.map_cons, hc]
      exact ⟨hf, congrArg ((q, x) :: ·) hp⟩

/-- What a record's checked accesses do, the lanes that failed given with those that passed. -/
def issueChecked (s q : State) (k : Ctx) (i : Instr) (r : Record) (fails : List (Nat × Fail)) (good : List (Req × Checked)) : State :=
  let grp := (parkedNumber k.slot).getD q.nextAcc
  let s2 := good.foldl (startAccess k i r (issueOps s k i) grp) q
  let s2 := match parkedNumber k.slot with
    | some g => fenceSees s2 k g
    | none => s2
  let done := if s.cur.defer then (s2, []) else performGroup s2 grp
  if !sameRun done.1 k then done.1
  else if fails ++ done.2 = [] then advance done.1 k else trapAccess done.1 k i (fails ++ done.2) grp

theorem runAccesses_checked {s q : State} {k : Ctx} {i : Instr} {r : Record} {reqs : List Req}
    (hp : parkPage s k (reqs.map (fun p => (p.lane, .ok p))) = none) :
    runAccesses s k i r q (reqs.map (fun p => (p.lane, .ok p)))
      = issueChecked s q k i r ((reqs.map (checkedWith (laneCheck q k i))).filterMap failOf)
          ((reqs.map (checkedWith (laneCheck q k i))).filterMap passOf) := by
  have hmap (f : Nat × Except Fail Req → Nat × Except Fail (Req × Checked)) (hf : ∀ p : Req, f (p.lane, .ok p) = checkedWith (laneCheck q k i) p) :
      (reqs.map (fun p => (p.lane, Except.ok p))).map f = reqs.map (checkedWith (laneCheck q k i)) := by
    rw [List.map_map]
    exact List.map_congr_left fun p _ => hf p
  unfold runAccesses
  rw [hp]
  dsimp only
  rw [hmap _ (fun _ => rfl)]
  generalize reqs.map (checkedWith (laneCheck q k i)) = checks
  rw [filterMap_failOf _ checks, filterMap_passOf _ checks]
  · rfl
  · rintro ⟨_, _ | _⟩ <;> rfl
  · rintro ⟨_, _ | _⟩ <;> rfl

/-- Accesses that all pass are issued, and the slot goes on. -/
theorem runAccesses_issues {s q : State} {k : Ctx} {i : Instr} {reqs : List Req} {xs : List Checked} (h : AllPass s q k i reqs xs)
    (hdone : (issueAll s q k i (reqs.zip xs)).2 = []) :
    runAccesses s k i (recordOf i) q (reqs.map (fun p => (p.lane, .ok p))) = advance (issueAll s q k i (reqs.zip xs)).1 k := by
  obtain ⟨hpark, hlen, hchk⟩ := h
  obtain ⟨hfails, hgood⟩ := checks_pass hlen hchk
  have heq : issueChecked s q k i (recordOf i) [] (reqs.zip xs) = (if !sameRun (issueAll s q k i (reqs.zip xs)).1 k then
      (issueAll s q k i (reqs.zip xs)).1 else if (issueAll s q k i (reqs.zip xs)).2 = [] then advance (issueAll s q k i (reqs.zip xs)).1 k
        else trapAccess (issueAll s q k i (reqs.zip xs)).1 k i (issueAll s q k i (reqs.zip xs)).2 ((parkedNumber k.slot).getD q.nextAcc)) := rfl
  rw [runAccesses_checked hpark, hfails, hgood, heq, hdone]
  cases hrun : sameRun (issueAll s q k i (reqs.zip xs)).1 k with
  | true => rfl
  | false => simp [advance, hrun]

/-! ## Records with a generic address -/

/-- A list of requests that lanes ask for, lane by lane. -/
theorem reqs_eq {lanes : List Nat} {f : Nat → Req} {reqs : List Req} (h : lanes.map (fun l => some (f l)) = reqs.map some)
    (hl : ∀ l, (f l).lane = l) : lanes.map (fun l => (l, Except.ok (f l))) = reqs.map (fun p => (p.lane, (Except.ok p : Except Fail Req))) := by
  have hreqs : lanes.map f = reqs := by
    have hinj : Function.Injective (List.map (some : Req → Option Req)) := fun _ _ h => (List.map_inj_right (fun _ _ h => Option.some.inj h)).mp h
    exact hinj (by rw [List.map_map]; exact h)
  rw [← hreqs, List.map_map]
  exact List.map_congr_left fun l _ => by rw [Function.comp, hl]

theorem addressRecord_issues {i : Instr} {s : State} {k : Ctx} {reqs : List Req} {xs : List Checked} {f : Ctx → Nat → Word → Req}
    (hk : ctxOf s = some k) (hi : askingLanes k i = accessLanes k (recordOf i)) (hexec : exec i s = addressRecord i (recordOf i) s f)
    (hasks : ∀ l, asks s k i l = some (f k l (opA s k (recordOf i) .b64 l))) (hlane : ∀ l va, (f k l va).lane = l)
    (hreqs : (askingLanes k i).map (asks s k i) = reqs.map some) (hall : AllPass s s k i reqs xs)
    (hdone : (issueAll s s k i (reqs.zip xs)).2 = []) :
    exec i s = .next (advance (issueAll s s k i (reqs.zip xs)).1 k) := by
  rw [List.map_congr_left (fun l _ => hasks l)] at hreqs
  rw [hexec, addressRecord, onSlot_next s k _ hk, ← hi, reqs_eq hreqs (fun l => hlane l _), runAccesses_issues hall hdone]

theorem chase_issues {r : Record} {s : State} {k : Ctx} {reqs : List Req} {xs : List Checked} (hk : ctxOf s = some k)
    (hreqs : k.lanes.map (asks s k (.chase r)) = reqs.map some) (hall : AllPass s s k (.chase r) reqs xs)
    (hdone : (issueAll s s k (.chase r) (reqs.zip xs)).2 = []) :
    exec (.chase r) s = .next (advance (issueAll s s k (.chase r) (reqs.zip xs)).1 k) := by
  have hexec : exec (.chase r) s = execChase r s := rfl
  have hrun := runAccesses_issues hall hdone
  rw [← reqs_eq hreqs (fun _ => rfl)] at hrun
  rw [hexec, execChase, onSlot_next s k _ hk]
  exact congrArg _ hrun

theorem exec_ld (r : Record) (s : State) : exec (.ld r) s = addressRecord (.ld r) r s (fun _ l va => loadReq r none l va) := rfl

theorem exec_st (r : Record) (s : State) : exec (.st r) s = addressRecord (.st r) r s (fun k l va => storeReq s k r none l va) := rfl

theorem exec_atom (r : Record) (s : State) : exec (.atom r) s = addressRecord (.atom r) r s (fun k l va =>
    ⟨l, .atom (atomOp r.c), .atomic, va, r.ty.memBytes, orderOf r, Scope.ofFn r.fn, opB s k r r.ty l, opC s k r r.ty l, none⟩) := rfl

/-- What ATMF asks for in a lane (R285). -/
def atmfReq (s : State) (k : Ctx) (r : Record) (l : Nat) (va : Word) : Req :=
  if r.ty.isFlt then
    ⟨l, .atmf (atomOp r.c), .atomic, va, r.ty.memBytes, orderOf r, Scope.ofFn r.fn, opB s k r r.ty l, 0, none⟩
  else
    ⟨l, .atmf 3, .atomic, va, 2 * r.ty.memBytes, orderOf r, Scope.ofFn r.fn, opB s k r r.ty l, opC s k r r.ty l, none⟩

theorem exec_atmf (r : Record) (s : State) :
    exec (.atmf r) s = addressRecord (.atmf r) r s (fun k l va => atmfReq s k r l va) := rfl

theorem asks_atmf (s : State) (k : Ctx) (r : Record) (l : Nat) :
    asks s k (.atmf r) l = some (atmfReq s k r l (opA s k r .b64 l)) := by
  have h : asks s k (.atmf r) l = if r.ty.isFlt then
      some ⟨l, .atmf (atomOp r.c), .atomic, opA s k r .b64 l, r.ty.memBytes, orderOf r, Scope.ofFn r.fn, opB s k r r.ty l, 0, none⟩
    else some ⟨l, .atmf 3, .atomic, opA s k r .b64 l, 2 * r.ty.memBytes, orderOf r, Scope.ofFn r.fn, opB s k r r.ty l,
      opC s k r r.ty l, none⟩ := rfl
  rw [h, atmfReq]
  split <;> rfl

theorem atmfReq_lane (s : State) (k : Ctx) (r : Record) (l : Nat) (va : Word) : (atmfReq s k r l va).lane = l := by
  unfold atmfReq
  split <;> rfl

theorem exec_cellMake (r : Record) (s : State) : exec (.cellMake r) s = addressRecord (.cellMake r) r s (fun k l va =>
    ⟨l, .make, .store, va, 8, if cellOrder r = .sq then .sq else .rl, .dv,
      BitVec.ofNat 64 ((opB s k r .b64 l).toNat % 2 ^ 24 * 2 ^ 40 + (opC s k r .b64 l).toNat % 2 ^ 40), 0, none⟩) := rfl

theorem exec_cellPeek (r : Record) (s : State) : exec (.cellPeek r) s = addressRecord (.cellPeek r) r s (fun k l va =>
    ⟨l, .peek (pairOf k r.b), .load, va, 8, cellOrder r, .dv, 0, 0, none⟩) := rfl

theorem genericAccessesIssue : GenericAccessesIssue := by
  intro i s k reqs xs hk hreqs hsome hall hdone
  obtain ⟨l, hl⟩ := hsome
  unfold asks at hl
  split at hl
  · next r => exact addressRecord_issues hk rfl (exec_ld r s) (fun _ => rfl) (fun _ _ => rfl) hreqs hall hdone
  · next r => exact addressRecord_issues hk rfl (exec_st r s) (fun _ => rfl) (fun _ _ => rfl) hreqs hall hdone
  · next r => exact addressRecord_issues hk rfl (exec_atom r s) (fun _ => rfl) (fun _ _ => rfl) hreqs hall hdone
  · next r => exact addressRecord_issues hk rfl (exec_atmf r s) (asks_atmf s k r) (atmfReq_lane s k r) hreqs hall hdone
  · exact chase_issues hk hreqs hall hdone
  · next r => exact addressRecord_issues hk rfl (exec_cellMake r s) (fun _ => rfl) (fun _ _ => rfl) hreqs hall hdone
  · next r => exact addressRecord_issues hk rfl (exec_cellPeek r s) (fun _ => rfl) (fun _ _ => rfl) hreqs hall hdone
  · exact absurd hl nofun

/-! ## Records with a resource pointer -/

/-- What one lane's resource pointer adds to what lanes ask for. -/
def resolveStep (k : Ctx) (right size : Nat) (ptr : Nat → Word) (f : Nat → ResEntry → Word → Req) (acc : State × LaneReqs) (l : Nat) :
    State × LaneReqs :=
  let p := bufferPointer acc.1 k right size (ptr l)
  match p.2 with
  | .error e => (p.1, acc.2 ++ [(l, .error e)])
  | .ok (e, va) =>
    if !canonical va then (p.1, acc.2 ++ [(l, .error (failAddr causeSpaceBad va))])
    else (p.1, acc.2 ++ [(l, .ok (f l e va))])

/-- Pointers that all resolve to canonical addresses: each lane asks with its own entry. -/
theorem resolveStep_all {k : Ctx} {right size : Nat} {ptr : Nat → Word} {f : Nat → ResEntry → Word → Req} {q : State} {lanes : List Nat} :
    ∀ {s : State} {es : List (ResEntry × Word)} (done : LaneReqs), resolveLanes k right size s (lanes.map ptr) = (q, es.map .ok) →
      (∀ e ∈ es, canonical e.2 = true) →
      lanes.foldl (resolveStep k right size ptr f) (s, done) = (q, done ++ (lanes.zip es).map (fun p => (p.1, .ok (f p.1 p.2.1 p.2.2)))) := by
  induction lanes with
  | nil =>
    intro s es done h _
    obtain ⟨rfl, -⟩ := Prod.mk.inj h
    simp
  | cons l lanes ih =>
    intro s es done h hcan
    rw [List.map_cons, resolveLanes] at h
    obtain ⟨hq, hes⟩ := Prod.mk.inj h
    cases es with
    | nil => exact absurd hes nofun
    | cons e es =>
      rw [List.map_cons, List.cons.injEq] at hes
      obtain ⟨he, hrest⟩ := hes
      rw [List.forall_mem_cons] at hcan
      obtain ⟨hc, hcan⟩ := hcan
      have hstep : resolveStep k right size ptr f (s, done) l
          = ((bufferPointer s k right size (ptr l)).1, done ++ [(l, .ok (f l e.1 e.2))]) := by
        simp only [resolveStep, he, hc, Bool.not_true, Bool.false_eq_true, if_false]
      rw [List.foldl_cons, hstep, ih _ (Prod.ext hq hrest) hcan, List.zip_cons_cons, List.map_cons, List.append_assoc]
      rfl

theorem resolveLanes_length (k : Ctx) (right size : Nat) (ps : List Word) :
    ∀ s, (resolveLanes k right size s ps).2.length = ps.length := by
  induction ps with
  | nil => intro s; rfl
  | cons p ps ih => intro s; exact congrArg (· + 1) (ih _)

theorem bufferRecord_issues {i : Instr} {r : Record} {s q : State} {k : Ctx} {right : Nat} {es : List (ResEntry × Word)} {xs : List Checked}
    {f : Ctx → Nat → ResEntry → Word → Req} (hk : ctxOf s = some k) (hr : recordOf i = r) (hi : askingLanes k i = accessLanes k r)
    (hexec : exec i s = bufferRecord i r s right f) (hlane : ∀ l e va, (f k l e va).lane = l)
    (hres : resolveLanes k right r.ty.memBytes s ((askingLanes k i).map (fun l => opA s k r .b64 l)) = (q, es.map .ok))
    (hcan : ∀ e ∈ es, canonical e.2 = true)
    (hall : AllPass s q k i (((askingLanes k i).zip es).map (fun p => f k p.1 p.2.1 p.2.2)) xs)
    (hdone : (issueAll s q k i ((((askingLanes k i).zip es).map (fun p => f k p.1 p.2.1 p.2.2)).zip xs)).2 = []) :
    exec i s = .next (advance (issueAll s q k i ((((askingLanes k i).zip es).map (fun p => f k p.1 p.2.1 p.2.2)).zip xs)).1 k) := by
  subst hr
  have hfold := resolveStep_all (f := f k) [] hres hcan
  have hreqs : ((askingLanes k i).zip es).map (fun p => (p.1, (.ok (f k p.1 p.2.1 p.2.2) : Except Fail Req)))
      = (((askingLanes k i).zip es).map (fun p => f k p.1 p.2.1 p.2.2)).map (fun p => (p.lane, .ok p)) := by
    rw [List.map_map]
    exact List.map_congr_left fun p _ => by rw [Function.comp, hlane]
  have hrun := runAccesses_issues hall hdone
  rw [List.nil_append, hreqs] at hfold
  rw [hexec, bufferRecord, onSlot_next s k _ hk, ← hi]
  refine congrArg _ (Eq.trans ?_ hrun)
  change runAccesses s k i (recordOf i) ((askingLanes k i).foldl
    (resolveStep k right (recordOf i).ty.memBytes (fun l => opA s k (recordOf i) .b64 l) (f k)) (s, [])).1 ((askingLanes k i).foldl
    (resolveStep k right (recordOf i).ty.memBytes (fun l => opA s k (recordOf i) .b64 l) (f k)) (s, [])).2 = _
  rw [hfold]

theorem exec_ldb (r : Record) (s : State) : exec (.ldb r) s = bufferRecord (.ldb r) r s 0 (fun _ l e va => loadReq r (some e) l va) := rfl

theorem exec_stb (r : Record) (s : State) :
    exec (.stb r) s = bufferRecord (.stb r) r s 1 (fun k l e va => storeReq s k r (some e) l va) := rfl

theorem recordOf_ldb (r : Record) : recordOf (.ldb r) = r := rfl

theorem recordOf_stb (r : Record) : recordOf (.stb r) = r := rfl

theorem askingLanes_ldb (k : Ctx) (r : Record) : askingLanes k (.ldb r) = accessLanes k r := rfl

theorem askingLanes_stb (k : Ctx) (r : Record) : askingLanes k (.stb r) = accessLanes k r := rfl

/-- What a store by a resource pointer asks for, with its comparand where the type has one. -/
theorem storeReq_eq (s : State) (k : Ctx) (r : Record) (e : ResEntry) (l : Nat) (va : Word) :
    (⟨l, .store, .store, va, r.ty.memBytes, orderOf r, Scope.ofFn r.fn, opB s k r r.ty l,
      if AKind.store = .store ∧ r.ty = .kb then opC s k r r.ty l else 0, some e⟩ : Req) = storeReq s k r (some e) l va := by
  rw [storeReq]
  simp

theorem bufferAccessesIssue : BufferAccessesIssue := by
  intro i r right kind need s q k es xs hi hk hres hcan reqs hall hdone
  obtain ⟨rfl, rfl, rfl, rfl⟩ | ⟨rfl, rfl, rfl, rfl⟩ := hi
  · have hreqs : reqs = ((askingLanes k (.ldb r)).zip es).map (fun p => loadReq r (some p.2.1) p.1 p.2.2) := rfl
    rw [hreqs] at hall hdone ⊢
    exact bufferRecord_issues (f := fun _ l e va => loadReq r (some e) l va) hk (recordOf_ldb r) (askingLanes_ldb k r) (exec_ldb r s)
      (fun _ _ _ => rfl) hres hcan hall hdone
  · have hreqs : reqs = ((askingLanes k (.stb r)).zip es).map (fun p => storeReq s k r (some p.2.1) p.1 p.2.2) :=
      List.map_congr_left fun p _ => storeReq_eq s k r p.2.1 p.1 p.2.2
    rw [hreqs] at hall hdone ⊢
    exact bufferRecord_issues (f := fun k l e va => storeReq s k r (some e) l va) hk (recordOf_stb r) (askingLanes_stb k r) (exec_stb r s)
      (fun _ _ _ => rfl) hres hcan hall hdone

/-! ## The end of a walk -/

/-- A wave of the partition takes up what is parked on the page. -/
def walkedWave (part cyc : Nat) (r : Walked) (v : Wave) : Wave :=
  if v.part = part then { v with slot0 := walkedSlot cyc r v.slot0, slot1 := walkedSlot cyc r v.slot1 } else v

theorem slotOf_walkedWave {part cyc : Nat} {r : Walked} {v : Wave} (x : Nat) :
    slotOf (walkedWave part cyc r v) x = if v.part = part then walkedSlot cyc r (slotOf v x) else slotOf v x := by
  unfold walkedWave slotOf
  split <;> split <;> rfl

theorem walkedSlot_parked {cyc g : Nat} {r : Walked} {t : Slot} (h : t.wait = .walk r.page g) :
    walkedSlot cyc r t = { t with st := .eligible, wait := .walked g r, ready := cyc } := by
  simp [walkedSlot, h]

theorem walkedSlot_other {cyc : Nat} {r : Walked} {t : Slot} (h : ∀ g, t.wait ≠ .walk r.page g) : walkedSlot cyc r t = t := by
  unfold walkedSlot
  split
  · next p g hw =>
    split
    · next hp => exact absurd hw (hp ▸ h g)
    · rfl
  · rfl

/-- What a walk of a page has found. -/
def walkFound (s : State) (p : Nat) (va : Word) : Walked :=
  ⟨pageOf va, (walk s p (BitVec.ofNat 64 (pageOf va * 4096))).map (fun l => (l.pte, l.val, l.bytes))⟩

/-- The core whose slots take up what a walk has found. -/
def walkedCore (part : Nat) (r : Walked) (k : Core) : Core :=
  { k with waves := k.waves.map (fun w => (w.1, w.2.map (walkedWave part k.cycle r))) }

theorem exec_walkComplete {s : State} {p : Nat} {va : Word} (h : walkWanted s p (pageOf va) = true) :
    exec (.walkComplete p va) s = .next { s with cores := s.cores.map (fun k => (k.1, walkedCore p (walkFound s p va) k.2)) } := by
  have hexec : exec (.walkComplete p va) s = execWalkComplete p va s := rfl
  rw [hexec, execWalkComplete]
  simp only [h, Bool.not_true, Bool.false_eq_true, if_false]
  rfl

theorem waveOf_walked {s t : State} {p : Nat} {r : Walked} (ht : t.cores = s.cores.map (fun k => (k.1, walkedCore p r k.2)))
    {c w : Nat} {v : Wave} (hv : waveOf s c w = some v) : waveOf t c w = some (walkedWave p (coreOf s c).cycle r v) := by
  have hcore : coreOf t c = walkedCore p r (coreOf s c) := by
    rw [coreOf, ht]
    exact smGet_map Core.reset Core.reset (walkedCore p r) rfl s.cores c
  rw [waveOf, hcore]
  exact (smGet_map none none (Option.map (walkedWave p (coreOf s c).cycle r)) rfl (coreOf s c).waves w).trans (congrArg _ hv)

theorem walksComplete : WalksComplete := by
  intro s p va hwant found
  refine ⟨_, exec_walkComplete hwant, fun c w v hv => ⟨_, waveOf_walked rfl hv, fun x => ⟨fun g hp hw => ?_, fun h => ?_⟩⟩, rfl, rfl, rfl⟩
  · rw [slotOf_walkedWave, if_pos hp, walkedSlot_parked hw]
    exact ⟨rfl, rfl⟩
  · rw [slotOf_walkedWave]
    split
    · next hp => exact walkedSlot_other (h.resolve_left (not_not_intro hp))
    · rfl

/-- Settles O45: accesses that pass their checks leave `runAccesses` by its last branch, and `issueAll` is what it does there; the
end of a walk changes the slots parked on the page alone. -/
theorem accessesIssue : Obligations.AccessesIssue := ⟨genericAccessesIssue, bufferAccessesIssue, walksComplete⟩

end Sys2Proof.Proofs.Issue
end

section
/-! SUPPORT. COUPLE, UNCPL and the LOOP of a coupled region (R55, R56, R70, R270). -/

open Sys2Proof Sys2Proof.Machine Sys2Proof.Cert
open Sys2Proof.Proofs.Values (stepSlot_record)
open Sys2Proof.Proofs.Control (takenLanes_eq maskOf_lanes plain_wave plain_slot exec_loop)
open Sys2Proof.Proofs.Paths (withDivergence_onChip)

namespace Sys2Proof.Proofs.Coupled

/-! ## LOOP in the SIMT reading -/

/-- LOOP of a coupled region is its SIMT reading with the lanes that loop. -/
theorem exec_loop_coupled {r : Record} {s : State} {k : Ctx} {taken : W32} (hk : ctxOf s = some k) (hkind : s.cur.kind = 2)
    (ht : ∀ l, l < 32 → (taken.getLsbD l = true ↔ l ∈ k.lanes ∧ (opB s k r .pred l).getLsbD 0 = true)) :
    exec (.loop r) s = .next (loopSimt s k taken) := by
  rw [exec_loop, execLoop, onSlot_next s k _ hk]
  simp only [takenLanes_eq ht, hkind, if_true]

/-- A slot whose held lanes are back. -/
def rejoined (t : Slot) : Slot := { t with mask := t.mask ||| t.held, held := 0 }

/-- A slot whose lanes `taken` of `p` loop while the others are held. -/
def looped (taken p : W32) (t : Slot) : Slot :=
  { t with mask := taken, held := t.held ||| (p &&& ~~~taken), rcd := 1, woff := 0, ub := false, dlit := none,
           dspl := none, dieAt := none, ran := ([], []) }

theorem loopOfCoupledRegion : LoopOfCoupledRegion := by
  intro r s k taken hp hkind hr hd hl ht
  have hwave := plain_wave hp
  have hslot := plain_slot hp
  have hexec := exec_loop_coupled hp.1 hkind ht
  refine ⟨fun h0 hrec => ?_, fun h0 => ?_⟩
  · have hx : slotOf (putSlot k.wave k.x (rejoined k.slot)) k.x = rejoined k.slot := slotOf_putSlot ..
    have hnext : (slotOf (putSlot k.wave k.x (rejoined k.slot)) k.x).rcd + 1
        < blockRecs (putSlot k.wave k.x (rejoined k.slot)) (slotOf (putSlot k.wave k.x (rejoined k.slot)) k.x).blk := by
      rw [hx]
      simpa [blockRecs, blockOf, rejoined] using hrec
    refine ⟨_, advanceSlot (putSlot k.wave k.x (rejoined k.slot)) k.x, hexec, ?_, ?_⟩
    · rw [loopSimt, if_pos h0, stepOn, waveOf_onWave, waveOf_onSlotOf, hwave, Option.map_some, Option.map_some, hslot]
      exact congrArg some (stepSlot_record (x := k.x) ((congrArg Slot.dieAt hx).trans hd))
    · rw [advanceSlot_next _ _ hnext, slotOf_putSlot, hx]
      exact ⟨rfl, rfl, rfl⟩
  · have hmask : maskOf k.lanes = k.slot.mask := by rw [maskOf_lanes hp.1, hl]
    refine ⟨_, putSlot (dropValues k.wave (maskOf k.lanes)) k.x (looped taken (maskOf k.lanes) k.slot), hexec, ?_, ?_⟩
    · rw [loopSimt, if_neg h0, waveOf_onWave, hwave, ← hslot]
      rfl
    · rw [slotOf_putSlot, hmask]
      exact ⟨rfl, rfl, rfl⟩

/-! ## The window after a region -/

/-- The core's registers with some written. -/
def regsWritten (ws : List (Nat × W32)) (k : Core) : Core := { k with regs := smSetAll 0 k.regs ws }

/-- The state with registers of a core written and free values used up. -/
def forgotten (s : State) (c : Nat) (ws : List (Nat × W32)) (n : Nat) : State := { onCore s c (regsWritten ws) with freeCtr := n }

theorem forgotten_core (s : State) (c : Nat) (ws : List (Nat × W32)) (n : Nat) :
    coreOf (forgotten s c ws n) c = regsWritten ws (coreOf s c) := coreOf_onCore s c _

theorem waveOf_forgotten (s : State) (c : Nat) (ws : List (Nat × W32)) (n d w : Nat) : waveOf (forgotten s c ws n) d w = waveOf s d w :=
  waveOf_onCore s c w (regsWritten ws) rfl d

theorem forgetWindow_eq {s : State} {c w : Nat} {v : Wave} (hv : waveOf s c w = some v) :
    ∃ ws n, forgetWindow s c w = forgotten s c ws n
      ∧ ∀ p ∈ ws, ∃ i l, i < v.window - 2 * v.nkeep ∧ l < 32 ∧ p.1 = regKey (v.winBase + i) l := by
  unfold forgetWindow
  simp only [hv]
  refine ⟨_, _, rfl, fun p hp => ?_⟩
  obtain ⟨q, hq, rfl⟩ := List.mem_map.mp hp
  obtain ⟨i, hi, hq⟩ := List.mem_flatMap.mp hq
  obtain ⟨l, hl, rfl⟩ := List.mem_map.mp hq
  exact ⟨i, l, List.mem_range.mp hi, List.mem_range.mp hl, rfl⟩

theorem forgetWindow_none {s : State} {c w : Nat} (hv : waveOf s c w = none) : forgetWindow s c w = s := by
  rw [forgetWindow]
  simp only [hv]

theorem waveOf_forgetWindow (s : State) (c w d u : Nat) : waveOf (forgetWindow s c w) d u = waveOf s d u := by
  cases hv : waveOf s c w with
  | none => rw [forgetWindow_none hv]
  | some v =>
    obtain ⟨ws, n, heq, -⟩ := forgetWindow_eq hv
    rw [heq, waveOf_forgotten]

theorem regionOf_forgetWindow (s : State) (c w : Nat) : regionOf (forgetWindow s c w) c = regionOf s c := by
  cases hv : waveOf s c w with
  | none => rw [forgetWindow_none hv]
  | some v =>
    obtain ⟨ws, n, heq, -⟩ := forgetWindow_eq hv
    rw [heq, regionOf, forgotten_core]
    rfl

/-- The keep slots lie above what a region's end forgets (R54). -/
theorem keepGet_forgetWindow {s : State} {c w : Nat} {v : Wave} (hv : waveOf s c w = some v) {n l : Nat} (hn : n < v.nkeep) (hl : l < 32) :
    keepGet (coreOf (forgetWindow s c w) c) v n l = keepGet (coreOf s c) v n l := by
  obtain ⟨ws, m, heq, hws⟩ := forgetWindow_eq hv
  have hreg : ∀ r, keepReg v n ≤ r → smGet 0 (smSetAll 0 (coreOf s c).regs ws) (regKey r l) = smGet 0 (coreOf s c).regs (regKey r l) := by
    intro r hr
    refine smGet_smSetAll_other _ _ _ (fun p hp => ?_) _
    obtain ⟨i, j, hi, hj, hp⟩ := hws p hp
    rw [hp]
    unfold regKey
    unfold keepReg at hr
    omega
  have hregs : (coreOf (forgetWindow s c w) c).regs = smSetAll 0 (coreOf s c).regs ws := by
    rw [heq, forgotten_core]
    rfl
  rw [keepGet, keepGet, regGet, regGet, regGet, regGet, hregs, hreg _ (Nat.le_succ _), hreg _ (Nat.le_refl _)]

/-! ## Leaving a region -/

/-- The wave whose slot leaves its region. -/
def leftWave (cyc x : Nat) (v : Wave) : Wave :=
  let v := putSlot v x { slotOf v x with mask := (slotOf v x).mask ||| (slotOf v x).held, held := 0, simt := false, cpl := false }
  let v := leaveBlock v x
  putSlot v x { slotOf v x with ready := cyc }

theorem leaveRegion_eq (s : State) (c w x : Nat) :
    leaveRegion s c w x = onWave (forgetWindow s c w) c w (leftWave (coreOf s c).cycle x) := rfl

theorem slotOf_leftWave (cyc x : Nat) (v : Wave) : slotOf (leftWave cyc x v) x
    = { slotOf (leaveBlock (putSlot v x { slotOf v x with mask := (slotOf v x).mask ||| (slotOf v x).held, held := 0, simt := false, cpl := false }) x) x
        with ready := cyc } := slotOf_putSlot ..

theorem leftWave_slot (cyc x : Nat) (v : Wave) :
    let t := slotOf (leftWave cyc x v) x
    t.mask = (slotOf v x).mask ||| (slotOf v x).held ∧ t.held = 0 ∧ t.rcd = 0 ∧ t.blk = fallTarget v (slotOf v x).blk ∧ t.simt = false
      ∧ t.st = .eligible := by
  dsimp only
  rw [slotOf_leftWave, leaveBlock, moveSlot, slotOf_putSlot, slotOf_putSlot]
  refine ⟨rfl, rfl, rfl, ?_, rfl, rfl⟩
  simp [fallTarget, blockOf]

theorem leftWave_window (cyc x : Nat) (v : Wave) : (leftWave cyc x v).winBase = v.winBase ∧ (leftWave cyc x v).window = v.window := by
  simp [leftWave, leaveBlock, moveSlot, dropValues]

theorem keepGet_window {v u : Wave} (h : u.winBase = v.winBase ∧ u.window = v.window) (k : Core) (n l : Nat) :
    keepGet k u n l = keepGet k v n l := by
  rw [keepGet, keepGet, keepReg, keepReg, h.1, h.2]

theorem keepGet_regs {k q : Core} (h : k.regs = q.regs) (v : Wave) (n l : Nat) : keepGet k v n l = keepGet q v n l := by
  rw [keepGet, keepGet, regGet, regGet, regGet, regGet, h]

theorem regs_onWave (s : State) (c w : Nat) (f : Wave → Wave) : (coreOf (onWave s c w f) c).regs = (coreOf s c).regs := by
  obtain ⟨m, hm⟩ := coreOf_onWave s c w f
  rw [hm]

theorem exec_uncpl (r : Record) (s : State) : exec (.uncpl r) s = execUncpl r s := rfl
theorem exec_couple (r : Record) (s : State) : exec (.couple r) s = execCouple r s := rfl

theorem exec_uncpl_next {s : State} {k : Ctx} (hk : ctxOf s = some k) (r : Record) :
    exec (.uncpl r) s = .next (leaveRegion s k.core k.w k.x) := by
  rw [exec_uncpl, execUncpl, onSlot_next s k _ hk]

theorem onWave_rest (s : State) (c w : Nat) (f : Wave → Wave) : onWave s c w f = { s with cores := (onWave s c w f).cores } := by
  unfold onWave
  split <;> rfl

theorem uncpl_leaves (r : Record) {s : State} {k : Ctx} (hk : ctxOf s = some k) : ∃ t v, exec (.uncpl r) s = .next t
    ∧ waveOf t k.core k.w = some v
    ∧ (slotOf v k.x).mask = k.slot.mask ||| k.slot.held ∧ (slotOf v k.x).held = 0 ∧ (slotOf v k.x).rcd = 0
    ∧ (slotOf v k.x).blk = fallTarget k.wave k.slot.blk ∧ (slotOf v k.x).simt = false ∧ (slotOf v k.x).st = .eligible
    ∧ (∀ n l, n < k.wave.nkeep → l < 32 → keepGet (coreOf t k.core) v n l = keepGet (coreOf s k.core) k.wave n l)
    ∧ t.dmem = s.dmem ∧ t.accs = s.accs ∧ t.parts = s.parts ∧ (∀ d, d ≠ k.core → coreOf t d = coreOf s d) := by
  obtain ⟨-, hwave, hslot, -, -⟩ := ctxOf_spec s k hk
  obtain ⟨ws, m, heq, -⟩ := forgetWindow_eq hwave
  obtain ⟨hm, hh, hr, hb, hs, ht⟩ := leftWave_slot (coreOf s k.core).cycle k.x k.wave
  have hrest := onWave_rest (forgetWindow s k.core k.w) k.core k.w (leftWave (coreOf s k.core).cycle k.x)
  refine ⟨_, leftWave (coreOf s k.core).cycle k.x k.wave, exec_uncpl_next hk r, ?_, hslot ▸ hm, hh, hr, hslot ▸ hb, hs, ht,
    fun n l hn hl => ?_, ?_, ?_, ?_, fun d hd => ?_⟩
  · rw [leaveRegion_eq, waveOf_onWave, waveOf_forgetWindow, hwave]
    rfl
  · rw [leaveRegion_eq, keepGet_window (leftWave_window ..), keepGet_regs (regs_onWave ..), keepGet_forgetWindow hwave hn hl]
  · rw [leaveRegion_eq, hrest, heq]; rfl
  · rw [leaveRegion_eq, hrest, heq]; rfl
  · rw [leaveRegion_eq, hrest, heq]; rfl
  · rw [leaveRegion_eq, coreOf_onWave_other _ _ _ _ _ hd, heq]
    exact coreOf_onCore_other s k.core d _ hd

/-! ## COUPLE -/

theorem exec_couple_work {s : State} {k : Ctx} (hk : ctxOf s = some k) (hd : k.wave.divMem = 0) (hm : k.slot.mask ≠ 0) (r : Record) :
    exec (.couple r) s = .next (coupleWork s k) := by
  rw [exec_couple, execCouple, onSlot_next s k _ hk, if_neg (fun h => hm (of_decide_eq_true (Bool.and_eq_true_iff.mp h).1)),
    withDivergence_onChip hk hd]

/-- The slot's COUPLE has begun: it is not one that a drain has put back. -/
def coupleBegun (s : State) (k : Ctx) : State := onSlotOf s k.core k.w k.x (fun t => { t with cpl := false })

theorem begun_tables (s : State) (k : Ctx) : (coupleBegun s k).dies = s.dies ∧ (coupleBegun s k).parts = s.parts := by
  unfold coupleBegun onSlotOf onWave
  split <;> exact ⟨rfl, rfl⟩

/-- A pair's entry does not depend on the slots. -/
theorem pairFound_begun (s : State) (k : Ctx) (c : Nat) (v : Wave) (t : Slot) (n w : Nat) :
    pairFound (coupleBegun s k) c v t n w = pairFound s c v t n w := by
  obtain ⟨hdies, hparts⟩ := begun_tables s k
  have hworld : (coreOf (coupleBegun s k) c).world = (coreOf s c).world := by
    by_cases hc : c = k.core
    · subst hc
      obtain ⟨m, hm⟩ := coreOf_onWave s k.core k.w (fun v => putSlot v k.x { slotOf v k.x with cpl := false })
      rw [coupleBegun, onSlotOf, hm]
    · rw [coupleBegun, onSlotOf, coreOf_onWave_other _ _ _ _ _ hc]
  have hkey : pairKey (coupleBegun s k) c v t w n = pairKey s c v t w n := by rw [pairKey, pairKey, slotKey, slotKey, partOf, partOf, hparts, hworld]
  rw [pairFound, pairFound, hkey, dieOf, dieOf, hdies]

theorem knownPlacement_begun (s : State) (k : Ctx) (c : Nat) (v : Wave) (t : Slot) (n : Nat) (ws : List Nat) :
    knownPlacement (coupleBegun s k) c v t n ws = knownPlacement s c v t n ws := by
  induction ws with
  | nil => rfl
  | cons w ws ih => rw [knownPlacement, knownPlacement, pairFound_begun, ih]

theorem pairWidths_sorted (v : Wave) (b n : Nat) : (pairWidths v b n).Pairwise (· > ·) :=
  List.Pairwise.filter _ (by decide : [8, 4, 2, 1].Pairwise (· > ·))

section
variable {s : State} {c n : Nat} {v : Wave} {t : Slot}

/-- A pair that is known to fail. -/
def FailsPair (s : State) (c : Nat) (v : Wave) (t : Slot) (n w : Nat) : Prop :=
  ∃ e, pairFound s c v t n w = some e ∧ (e.failed = true ∨ e.placement = none)

theorem knownPlacement_fails {w : Nat} (h : FailsPair s c v t n w) (ws : List Nat) :
    knownPlacement s c v t n (w :: ws) = knownPlacement s c v t n ws := by
  obtain ⟨e, he, hf⟩ := h
  rw [knownPlacement, he]
  cases hfail : e.failed with
  | true => simp [hfail]
  | false =>
    have hp : e.placement = none := hf.resolve_left (by simp [hfail])
    simp [hfail, hp]

theorem knownPlacement_none {ws : List Nat} (h : ∀ w ∈ ws, FailsPair s c v t n w) : knownPlacement s c v t n ws = .none := by
  induction ws with
  | nil => rfl
  | cons w ws ih =>
    rw [List.forall_mem_cons] at h
    rw [knownPlacement_fails h.1, ih h.2]

/-- The pairs before one of the list have failed: the search comes to it. -/
theorem knownPlacement_at {w : Nat} : ∀ {ws : List Nat}, ws.Pairwise (· > ·) → w ∈ ws → (∀ u ∈ ws, w < u → FailsPair s c v t n u) →
    ∃ rest, knownPlacement s c v t n ws = knownPlacement s c v t n (w :: rest) := by
  intro ws
  induction ws with
  | nil => intro _ h; exact absurd h nofun
  | cons u ws ih =>
    intro hp hw hf
    rw [List.pairwise_cons] at hp
    rw [List.forall_mem_cons] at hf
    obtain rfl | hw := List.mem_cons.mp hw
    · exact ⟨ws, rfl⟩
    · rw [knownPlacement_fails (hf.1 (hp.1 w hw))]
      exact ih hp.2 hw hf.2

theorem knownPlacement_ask {w : Nat} {rest : List Nat} (h : pairFound s c v t n w = none) :
    knownPlacement s c v t n (w :: rest) = .ask := by
  rw [knownPlacement, h]

theorem knownPlacement_placed {w : Nat} {rest : List Nat} {e : SEntry} {p : Placement} (h : pairFound s c v t n w = some e)
    (hf : e.failed = false) (hp : e.placement = some p) : knownPlacement s c v t n (w :: rest) = .placed e p := by
  rw [knownPlacement, h]
  simp [hf, hp]

end

/-- The slot stands alone in its wave, and no comparator names a record of the region. -/
def Alone (s : State) (k : Ctx) : Prop :=
  (slotOf k.wave (1 - k.x)).st = .empty ∧ holdsPath k.wave = false
    ∧ pcComparatorOn (coreOf s k.core) k.wave.modl k.w k.slot.blk = false

theorem begun_core (s : State) (k : Ctx) : pcComparatorOn (coreOf (coupleBegun s k) k.core) k.wave.modl k.w k.slot.blk
    = pcComparatorOn (coreOf s k.core) k.wave.modl k.w k.slot.blk := by
  obtain ⟨m, hm⟩ := coreOf_onWave s k.core k.w (fun v => putSlot v k.x { slotOf v k.x with cpl := false })
  rw [coupleBegun, onSlotOf, hm]
  rfl

section
variable {s : State} {k : Ctx} (hfree : coupleHeld (coreOf s k.core) k.w k.x = false)
include hfree

theorem coupleWork_shared (h : ¬ Alone s k) : coupleWork s k = readSimt (coupleBegun s k) k false := by
  have hc := begun_core s k
  unfold coupleWork
  rw [if_neg (by simp [hfree])]
  change (if (slotOf k.wave (1 - k.x)).st ≠ .empty || holdsPath k.wave
      || pcComparatorOn (coreOf (coupleBegun s k) k.core) k.wave.modl k.w k.slot.blk then readSimt (coupleBegun s k) k false else _) = _
  refine if_pos ?_
  rw [hc]
  refine Classical.byContradiction fun hn => ?_
  simp only [Bool.or_eq_true, decide_eq_true_eq, not_or, Classical.not_not, Bool.not_eq_true] at hn
  exact h ⟨hn.1.1, hn.1.2, hn.2⟩

/-- A COUPLE alone that has read as SIMT before. -/
theorem coupleWork_alone (h : Alone s k) : coupleWork s k = if k.slot.simt then readSimt (coupleBegun s k) k true else
    match knownPlacement s k.core k.wave k.slot k.lanes.length (pairWidths k.wave k.slot.blk k.lanes.length) with
    | .placed e p => startParking (coupleBegun s k) k.core k.w k.x k.slot e p
    | .none => readSimt (coupleBegun s k) k true
    | .ask => onCore (slotWaits (coupleBegun s k) k.core k.w k.x .stalled .region) k.core
        (fun q => { q with region := some (placingRegion k.w k.x k.slot q.cycle) }) := by
  obtain ⟨h1, h2, h3⟩ := h
  have hc := begun_core s k
  rw [← knownPlacement_begun s k]
  unfold coupleWork
  rw [if_neg (by simp [hfree])]
  change (if (slotOf k.wave (1 - k.x)).st ≠ .empty || holdsPath k.wave
      || pcComparatorOn (coreOf (coupleBegun s k) k.core) k.wave.modl k.w k.slot.blk then readSimt (coupleBegun s k) k false else _) = _
  rw [if_neg (by simp [hc, h1, h2, h3])]
  rfl

end

theorem coupleAndUncouple : CoupleAndUncouple := by
  intro r s k hk hdiv ws free alone begun reads
  refine ⟨fun hm => ?_, fun hm hh => ?_, uncpl_leaves r hk⟩
  · rw [exec_couple_work hk hdiv hm]
    refine ⟨fun hh => ?_, fun hf ha => ?_, fun hf ha hs => ?_, fun w e p hf ha hs hw hwide hp hfl hpl => ?_, fun hf ha hs hall => ?_,
      fun w hf ha hs hw hwide hp => ?_⟩
    · rw [coupleWork, if_pos hh]
      rfl
    · rw [coupleWork_shared hf ha]
      rfl
    · rw [coupleWork_alone hf ha, if_pos hs]
      rfl
    · obtain ⟨rest, hrest⟩ := knownPlacement_at (pairWidths_sorted k.wave k.slot.blk k.lanes.length) hw hwide
      rw [coupleWork_alone hf ha, if_neg (by simp [hs]), hrest, knownPlacement_placed hp hfl hpl]
      rfl
    · rw [coupleWork_alone hf ha, if_neg (by simp [hs]), knownPlacement_none hall]
      rfl
    · obtain ⟨rest, hrest⟩ := knownPlacement_at (pairWidths_sorted k.wave k.slot.blk k.lanes.length) hw hwide
      rw [coupleWork_alone hf ha, if_neg (by simp [hs]), hrest, knownPlacement_ask hp]
      rfl
  · rw [exec_uncpl_next hk, exec_couple, execCouple, onSlot_next s k _ hk,
      if_pos (Bool.and_eq_true_iff.mpr ⟨decide_eq_true hm, decide_eq_true hh⟩)]

/-- Settles O46: LOOP is `loopSimt`; COUPLE takes the branch of `coupleWork` that what is known of its pairs names; UNCPL
is `leaveRegion`, which forgets registers below the keep slots alone. -/
theorem coupledRecords : Obligations.CoupledRecords := ⟨loopOfCoupledRegion, coupleAndUncouple⟩

end Sys2Proof.Proofs.Coupled
end

section
/-! SUPPORT. The steps of a coupled region and how it ends (R55, R57, R59, R64, R66, R70 to R72, R370, R371). -/

open Sys2Proof Sys2Proof.Machine Sys2Proof.Cert
open Sys2Proof.Proofs.Compute (findAt_eq_findIdx?)
open Sys2Proof.Proofs.Coupled (waveOf_forgetWindow regionOf_forgetWindow leaveRegion_eq)

namespace Sys2Proof.Proofs.Regions

/-! ## The region of a core -/

theorem regionOf_setRegion (s : State) (c : Nat) (r : Region) : regionOf (setRegion s c r) c = some r :=
  congrArg Core.region (coreOf_onCore s c _)

theorem regionOf_onWave (s : State) (c w : Nat) (f : Wave → Wave) : regionOf (onWave s c w f) c = regionOf s c := by
  obtain ⟨m, hm⟩ := coreOf_onWave s c w f
  rw [regionOf, hm, regionOf]

theorem regionOf_dropRegion (s : State) (c : Nat) : regionOf (dropRegion s c) c = none := congrArg Core.region (coreOf_onCore s c _)

theorem findAt_none {α : Type} {p : α → Bool} {xs : List α} (h : ∀ x ∈ xs, p x = false) : findAt p xs 0 = none := by
  rw [findAt_eq_findIdx?, List.findIdx?_eq_none_iff.mpr h]
  rfl

/-- The first coupling that still holds a token. -/
theorem findAt_queue {qs : List (List Token)} {i : Nat} (hlow : ∀ j, j < i → qs.getD j [] = []) (hi : i < qs.length)
    (hq : qs.getD i [] ≠ []) : findAt (fun q => decide (q ≠ [])) qs 0 = some i := by
  have hget (j : Nat) (hj : j < qs.length) : qs.getD j [] = qs[j] := by
    rw [List.getD_eq_getElem?_getD, List.getElem?_eq_getElem hj, Option.getD_some]
  have hfirst : qs.findIdx? (fun q => decide (q ≠ [])) = some i := by
    refine List.findIdx?_eq_some_iff_getElem.mpr ⟨hi, ?_, fun j hj => ?_⟩
    · rw [hget i hi] at hq
      simpa using hq
    · have := hlow j hj
      rw [hget j (Nat.lt_trans hj hi)] at this
      simp [this]
  rw [findAt_eq_findIdx?, hfirst]
  rfl

/-! ## Placement -/

theorem exec_placement (c : Nat) (p : Option Placement) (s : State) :
    exec (.couplePlacementDone c p) s = execCouplePlacementDone c p s := rfl

theorem entryOf_key (s : State) (q : LowerReq) (b : Lowered) : (entryOf s q b).key = q.key := by
  unfold entryOf
  dsimp only
  split <;> rfl

/-- The slot of a region that none fits reads on as SIMT. -/
def readsOn (cyc x : Nat) (v : Wave) : Wave :=
  advanceSlot (putSlot v x { slotOf v x with st := .eligible, wait := .none, ready := cyc, simt := true }) x

/-- The wave of a slot that reads on, within its block. -/
theorem slotOf_readsOn {cyc x : Nat} {v : Wave} (h : (slotOf v x).rcd + 1 < blockRecs v (slotOf v x).blk) :
    (slotOf (readsOn cyc x v) x).st = .eligible ∧ (slotOf (readsOn cyc x v) x).rcd = (slotOf v x).rcd + 1
      ∧ (slotOf (readsOn cyc x v) x).simt = true := by
  unfold readsOn
  rw [advanceSlot_next _ _ (by simpa [blockRecs, blockOf] using h), slotOf_putSlot, slotOf_putSlot]
  exact ⟨rfl, rfl, rfl⟩

theorem exec_parkingQuiet (c : Nat) (s : State) : exec (.parkingQuiet c) s = execParkingQuiet c s := rfl
theorem exec_stationFire (c j : Nat) (s : State) : exec (.stationFire c j) s = execStationFire c j s := rfl
theorem exec_quantum (c : Nat) (s : State) : exec (.coupleQuantumExpiry c) s = execCoupleQuantumExpiry c s := rfl

section
variable {s : State} {c : Nat} {r : Region} {v : Wave} (hr : regionOf s c = some r) (hv : waveOf s c r.wslot = some v)
include hr hv

theorem placement_fits {p : Placement} {q : LowerReq} {lw : Lowered} {s' : State} (hst : r.st = .placing) (hh : v.halted = false)
    (hw : p.width ∈ pairWidths v (slotOf v r.x).blk r.lanes.length) (hp : placedEntry s c v (slotOf v r.x) p = some (q, lw))
    (hf : failPairs false s c v (slotOf v r.x) r.lanes.length
      ((pairWidths v (slotOf v r.x).blk r.lanes.length).filter (fun w => p.width < w)) = some s') :
    exec (.couplePlacementDone c (some p)) s = .next (startParking (installPair s' q lw (some p)).1 c r.wslot r.x (slotOf v r.x)
      (installPair s' q lw (some p)).2 p) := by
  rw [exec_placement, execCouplePlacementDone]
  simp [hr, hv, hst, hh, hp, hf, hw]

theorem placement_none {s' : State} (hst : r.st = .placing) (hh : v.halted = false)
    (hf : failPairs (decide (r.since + 4096 ≤ (coreOf s c).cycle)) s c v (slotOf v r.x) r.lanes.length
      (pairWidths v (slotOf v r.x).blk r.lanes.length) = some s') :
    exec (.couplePlacementDone c none) s = .next (onWave (onCore s' c (fun k => { k with region := none })) c r.wslot
      (readsOn (coreOf s' c).cycle r.x)) := by
  rw [exec_placement, execCouplePlacementDone]
  simp only [hr, hv, hst, hh, hf]
  rfl

/-! ## Running -/

theorem parkingQuiet_runs (hst : r.st = .parking) (hh : v.halted = false) (hb : parkingBusy s c r.wslot = false) :
    exec (.parkingQuiet c) s
      = .next (setRegion s c { r with st := .running, since := (coreOf s c).cycle, moved := (coreOf s c).cycle }) := by
  rw [exec_parkingQuiet, execParkingQuiet]
  simp [hr, hv, hst, hh, hb]

omit hv in
theorem parkingQuiet_busy (hb : parkingBusy s c r.wslot = true) : exec (.parkingQuiet c) s = .next s := by
  rw [exec_parkingQuiet, execParkingQuiet]
  simp [hr, hb]

omit hv in
theorem stationFire_fires {j : Nat} {t : State} (hj : r.firedNow.contains j = false) (hf : tryFire s c j = .fired t) :
    exec (.stationFire c j) s = .next (noteFired t c j) := by
  have hin : firedIn s c j = false := by rw [firedIn, hr]; exact hj
  rw [exec_stationFire, execStationFire]
  simp only [hin, hf]
  rfl

omit hv in
theorem stationFire_once {j : Nat} (hj : r.firedNow.contains j = true) : exec (.stationFire c j) s = .next s := by
  have hin : firedIn s c j = true := by rw [firedIn, hr]; exact hj
  rw [exec_stationFire, execStationFire, hin]
  rfl

/-- A head without a token on its feedback injects the next channel (R66). -/
theorem tryFire_injects {j : Nat} (hst : r.st = .running) (hj : j < r.stations.length) (hrole : roleIn r j = some .head)
    (hempty : ∀ p ∈ inputsOf r j, queueOf r p.1 = []) (hend : r.ended.contains j = false) (hask : ∀ e ∈ r.asked, e.station ≠ j)
    (hch : r.injected.getD (replIn r j) 0 < channelCount r (replIn r j)) :
    tryFire s c j = injectIter s c j r v (r.injected.getD (replIn r j) 0) false := by
  have hheads : (inputsOf r j).map (fun p => (queueOf r p.1).head?) = (inputsOf r j).map (fun _ => none) :=
    List.map_congr_left fun p hp => by rw [hempty p hp]; rfl
  have hasked : r.asked.find? (fun e => decide (e.station = j)) = none := List.find?_eq_none.mpr fun e he => by simpa using hask e he
  have hhead : fireHead s c j r v = injectIter s c j r v (r.injected.getD (replIn r j) 0) false := by
    unfold fireHead
    simp only [hheads, hst, hch]
    cases hin : inputsOf r j <;> simp
  unfold tryFire
  simp only [hr, hv, hst, hend, hrole, hasked, hhead]
  simp [Nat.not_le.mpr hj]

omit hv in
theorem quantum_gates (hst : r.st = .running) (hq : r.since + (coreOf s c).kcCplq ≤ (coreOf s c).cycle) :
    exec (.coupleQuantumExpiry c) s = .next (setRegion s c { r with st := .gated, gate := .quantum }) := by
  rw [exec_quantum, execCoupleQuantumExpiry]
  simp [hr, hst, hq, gateRegion]

omit hv in
theorem quantum_runs (hq : (coreOf s c).cycle < r.since + (coreOf s c).kcCplq) : exec (.coupleQuantumExpiry c) s = .next s := by
  rw [exec_quantum, execCoupleQuantumExpiry]
  simp [hr, Nat.not_le.mpr hq]

end

theorem parkingBusy_of_access {s : State} {c w : Nat} (h : ∃ a ∈ s.accs, a.core = c ∧ a.wslot ≠ w) : parkingBusy s c w = true := by
  obtain ⟨a, ha, hc, hw⟩ := h
  have hany : s.accs.any (fun a => a.core = c && a.wslot ≠ w) = true := List.any_eq_true.mpr ⟨a, ha, by simp [hc, hw]⟩
  rw [parkingBusy, hany]
  rfl

/-- An injection whose couplings have room. -/
theorem injectIter_next {s : State} {c j ch : Nat} {r : Region} {v : Wave} (hroom : ∀ p ∈ outputsOf r j, couplingRoom r p.1 = true)
    (hch : ch = r.injected.getD (replIn r j) 0) :
    injectIter s c j r v ch false = .fired (settleRegion (setRegion s c (countFiring
      { ((outputsOf r j).map (fun p => (p.1, headToken s c v r j (channelLane r (replIn r j) ch) ch false p.2))).foldl
          (fun q p => pushToken q p.1 p.2) { r with injected := setAt r.injected (replIn r j) (ch + 1) } with
        iters := (((outputsOf r j).map (fun p => (p.1, headToken s c v r j (channelLane r (replIn r j) ch) ch false p.2))).foldl
          (fun q p => pushToken q p.1 p.2) { r with injected := setAt r.injected (replIn r j) (ch + 1) }).iters
            ++ [⟨replIn r j, ch, channelLane r (replIn r j) ch, [j], [], [], false, [], []⟩] } j (coreOf s c).cycle)) c) := by
  subst hch
  have hall : (outputsOf r j).all (fun p => couplingRoom r p.1) = true := List.all_eq_true.mpr hroom
  unfold injectIter
  dsimp only
  rw [hall]
  rfl

theorem extendValue_b64 (x : Word) : extendValue .b64 x = x := rfl

theorem regionSteps : RegionSteps := by
  intro s c r v hr hv slot ws
  refine ⟨fun p q lw s' hst hh hw hp hf => ⟨placement_fits hr hv hst hh hw hp hf, rfl, rfl, entryOf_key ..⟩, fun s' hst hh hf => ?_,
    parkingQuiet_runs hr hv, fun _ hb => parkingQuiet_busy hr hb, parkingBusy_of_access, fun j t hj hf => stationFire_fires hr hj hf,
    fun j hj => stationFire_once hr hj, fun j => ?_, fun j lane ch n p hp => ?_, quantum_gates hr, fun _ hq => quantum_runs hr hq⟩
  · refine ⟨_, placement_none hr hv hst hh hf, ?_, fun u hu hrec => ⟨readsOn (coreOf s' c).cycle r.x u, ?_, slotOf_readsOn hrec⟩⟩
    · rw [regionOf_onWave]
      exact congrArg Core.region (coreOf_onCore s' c _)
    · rw [waveOf_onWave, waveOf_onCore _ _ _ _ (by rfl), hu]
      rfl
  · intro repl hj hst hlen hrole hempty hend hask hch hroom ch lane tokens r1 r2
    exact stationFire_fires hr hj ((tryFire_injects hr hv hst hlen hrole hempty hend hask hch).trans (injectIter_next hroom rfl))
  · have hslot : headSlot r p.val = some (n, .b64) := by rw [hp]; rfl
    simp [headToken, hslot, extendValue_b64]

/-! ## The end of a region -/

theorem exec_regionDrained (c : Nat) (s : State) : exec (.regionDrained c) s = execRegionDrained c s := rfl
theorem exec_coupleStill (c : Nat) (s : State) : exec (.coupleStill c) s = execCoupleStill c s := rfl

section
variable {s : State} {c : Nat} {r : Region} (hr : regionOf s c = some r)
include hr

theorem drained_done {q : Region} (hd : drainDue s c r = true) (hq : ∀ q ∈ r.queues, q = [])
    (hleft : regionOf (discardIters s c (fun _ => true)) c = some q) :
    exec (.regionDrained c) s = .next (regionDone (discardIters s c (fun _ => true)) c q) := by
  have hnone : findAt (fun q => decide (q ≠ [])) r.queues 0 = none := findAt_none fun q h => by simp [hq q h]
  rw [exec_regionDrained, execRegionDrained]
  simp only [hr, hd, hnone, hleft]
  rfl

theorem drained_unbalanced {i : Nat} (hd : drainDue s c r = true) (hlow : ∀ j, j < i → r.queues.getD j [] = [])
    (hi : i < r.queues.length) (hq : r.queues.getD i [] ≠ []) :
    exec (.regionDrained c) s = .next (freezeRegion s c r causeCoupleUnbalanced 0xFF i none) := by
  rw [exec_regionDrained, execRegionDrained]
  simp only [hr, hd, findAt_queue hlow hi hq]
  rfl

theorem drained_waits (hd : ¬ drainDue s c r = true) : exec (.regionDrained c) s = .next s := by
  rw [exec_regionDrained, execRegionDrained]
  simp [hr, hd]

theorem still_freezes (hst : r.st = .running ∨ r.st = .gated ∨ r.st = .draining) (hd : ¬ drainDue s c r = true)
    (hm : r.moved + 4096 ≤ (coreOf s c).cycle) (hj : ∀ j, j < r.stations.length → canFire s c j = false ∧ waitsMemory s c j = false) :
    exec (.coupleStill c) s = .next (freezeRegion s c r causeCoupleStill 0xFF 0xFF none) := by
  have hwatched : regionWatched r = true := by simpa [regionWatched, or_assoc] using hst
  have hstill : regionStill s c r = true := by
    refine List.all_eq_true.mpr fun j h => ?_
    obtain ⟨hf, hw⟩ := hj j (List.mem_range.mp h)
    simp [hf, hw]
  rw [exec_coupleStill, execCoupleStill]
  simp [hr, hwatched, hm, hstill, hd]

end

/-- The lanes of a slot, wherever its wave stands. -/
def LanesAre (s : State) (c w x : Nat) (mask held : W32) : Prop :=
  ∀ u, waveOf s c w = some u → (slotOf u x).mask = mask ∧ (slotOf u x).held = held

theorem logRegs_lanes (k : Core) (keys : List Nat) (t : Slot) : (logRegs k keys t).mask = t.mask ∧ (logRegs k keys t).held = t.held := by
  unfold logRegs
  split <;> exact ⟨rfl, rfl⟩

section
variable {s : State} {c w x : Nat} {m h : W32}

theorem lanesAre_writeKeep (hl : LanesAre s c w x m h) (n : Nat) (vals : List (Nat × Word)) : LanesAre (writeKeep s c w x n vals) c w x m h := by
  cases hv : waveOf s c w with
  | none =>
    have heq : writeKeep s c w x n vals = s := by simp only [writeKeep, hv]
    rwa [heq]
  | some v =>
    have heq : writeKeep s c w x n vals = writeRegs s c w x (pairWrites (keepReg v n) vals) := by simp only [writeKeep, hv]
    intro u hu
    rw [heq, Frames.waveOf_writeRegs, hv] at hu
    obtain rfl := Option.some.inj hu
    rw [slotOf_putSlot]
    obtain ⟨hm, hh⟩ := logRegs_lanes (coreOf s c) ((pairWrites (keepReg v n) vals).map (fun p => p.1)) (slotOf v x)
    obtain ⟨gm, gh⟩ := hl v hv
    exact ⟨hm.trans gm, hh.trans gh⟩

theorem lanesAre_keepUnfinished {r : Region} (hl : LanesAre s c r.wslot r.x m h) : LanesAre (keepUnfinished s c r) c r.wslot r.x m h := by
  unfold keepUnfinished
  generalize r.kept.filter (fun p => !r.finished.getLsbD (p.1 / 256)) = ps
  induction ps generalizing s with
  | nil => exact hl
  | cons p ps ih => exact ih (lanesAre_writeKeep hl _ _)

/-- A wave as parked or unparked with the others of its core. -/
def unparked (w : Nat) (j : Nat) (v : Wave) : Wave := if j = w then v else { v with parked := false }

theorem slotOf_unparked (i j : Nat) (v : Wave) (x : Nat) : slotOf (unparked i j v) x = slotOf v x := by
  unfold unparked
  split <;> rfl

theorem smGet_mapKey {α : Type} (f : Nat → α → α) (ws : SMap (Option α)) (j : Nat) :
    smGet none (ws.map (fun p => (p.1, p.2.map (f p.1)))) j = (smGet none ws j).map (f j) := by
  induction ws with
  | nil => rfl
  | cons p ws ih =>
    simp only [List.map_cons, smGet]
    split
    · next hp => rw [← hp]
    · exact ih

theorem waveOf_dropRegion (s : State) (c w : Nat) : waveOf (dropRegion s c) c w = (waveOf s c w).map (unparked 16 w) := by
  have hcore : (coreOf (dropRegion s c) c).waves = (coreOf s c).waves.map (fun p => (p.1, p.2.map (unparked 16 p.1))) :=
    congrArg Core.waves (coreOf_onCore s c _)
  rw [waveOf, hcore, smGet_mapKey, waveOf]

theorem lanesAre_dropRegion (hl : LanesAre s c w x m h) : LanesAre (dropRegion s c) c w x m h := by
  intro u hu
  rw [waveOf_dropRegion] at hu
  obtain ⟨v, hv, rfl⟩ := Option.map_eq_some_iff.mp hu
  rw [slotOf_unparked]
  exact hl v hv

theorem lanesAre_forgetWindow (hl : LanesAre s c w x m h) : LanesAre (forgetWindow s c w) c w x m h :=
  fun u hu => hl u ((waveOf_forgetWindow s c w c w).symm.trans hu)

end

/-- A slot that a region puts back at its COUPLE. -/
def putBack (r : Region) (cyc : Nat) (simt : Bool) (t : Slot) : Slot :=
  { t with st := .eligible, wait := .none, mask := t.mask &&& ~~~r.finished, held := t.held ||| (t.mask &&& r.finished),
           rcd := 0, ready := cyc, simt := simt, cpl := true }

/-- The state in which a region that leaves its slot at COUPLE has left the core. -/
def regionGone (s : State) (c : Nat) (r : Region) : State := forgetWindow (dropRegion (keepUnfinished s c r) c) c r.wslot

theorem backToCouple_eq (s : State) (c : Nat) (r : Region) (simt : Bool) : backToCouple s c r simt
    = onSlotOf (regionGone s c r) c r.wslot r.x (putBack r (coreOf (regionGone s c r) c).cycle simt) := rfl

theorem regionOf_backToCouple (s : State) (c : Nat) (r : Region) (simt : Bool) : regionOf (backToCouple s c r simt) c = none := by
  rw [backToCouple_eq, onSlotOf, regionOf_onWave, regionGone, regionOf_forgetWindow, regionOf_dropRegion]

theorem backToCouple_slot {s : State} {c : Nat} {r : Region} {v u : Wave} (hv : waveOf s c r.wslot = some v) (simt : Bool)
    (hu : waveOf (backToCouple s c r simt) c r.wslot = some u) : (slotOf u r.x).rcd = 0
      ∧ (slotOf u r.x).mask = (slotOf v r.x).mask &&& ~~~r.finished
      ∧ (slotOf u r.x).held = (slotOf v r.x).held ||| ((slotOf v r.x).mask &&& r.finished) := by
  have hs : LanesAre s c r.wslot r.x (slotOf v r.x).mask (slotOf v r.x).held := fun u hu => by
    obtain rfl := Option.some.inj (hv.symm.trans hu)
    exact ⟨rfl, rfl⟩
  have hgone : LanesAre (regionGone s c r) c r.wslot r.x (slotOf v r.x).mask (slotOf v r.x).held :=
    lanesAre_forgetWindow (lanesAre_dropRegion (lanesAre_keepUnfinished hs))
  rw [backToCouple_eq, waveOf_onSlotOf] at hu
  obtain ⟨x, hx, rfl⟩ := Option.map_eq_some_iff.mp hu
  obtain ⟨hm, hh⟩ := hgone x hx
  rw [slotOf_putSlot, ← hm, ← hh]
  exact ⟨rfl, rfl, rfl⟩

theorem regionEnds : RegionEnds := by
  intro s c r v hr hv quiet left back
  refine ⟨fun q hd hq hleft => ?_, rfl, fun i hd hlow hi hq => drained_unbalanced hr hd hlow hi hq, drained_waits hr,
    fun hst hd hm hj => still_freezes hr hst hd hm hj, ?_, regionOf_backToCouple .., fun u hu => backToCouple_slot hv false hu⟩
  · rw [drained_done hr hd hq hleft, regionDone]
    refine ⟨fun hg => ?_, fun hg => ?_, fun hg => ?_, fun cause rcd lane addr hg => ?_⟩
    · simp only [hg]; rfl
    · simp only [hg]; rfl
    · simp only [hg]; rfl
    · simp only [hg]; rfl
  · rw [leaveRegion_eq, regionOf_onWave, regionOf_forgetWindow, regionOf_dropRegion]

/-- Settles O47: each step is the branch of its event's definition that its conditions name; the end of a region drops it from
the core and leaves the lanes of the slot to `leaveRegion` or `backToCouple`. -/
theorem regions : Obligations.Regions := ⟨regionSteps, regionEnds⟩

end Sys2Proof.Proofs.Regions
end

section
/-! SUPPORT. What keeps the memories canonical (log entry 2): a relation between states that every part of a step is in. -/

open Sys2Proof Sys2Proof.Machine Sys2Proof.Cert
open Sys2Proof.Proofs.Home

namespace Sys2Proof.Proofs.Keep

/-- The memories stay in their canonical form. -/
structure Keeps (s t : State) : Prop where
  canonical : MemoryCanonical s → MemoryCanonical t

theorem Keeps.refl (s : State) : Keeps s s := ⟨id⟩

theorem Keeps.trans {s t u : State} (h : Keeps s t) (g : Keeps t u) : Keeps s u := ⟨fun hs => g.canonical (h.canonical hs)⟩

/-- A state with the memories of another. -/
theorem Keeps.of_same {s t : State} (hd : t.dmem = s.dmem) (hh : t.hmem = s.hmem) (ht : t.tags = s.tags) : Keeps s t :=
  ⟨fun hs => by rw [MemoryCanonical, hd, hh, ht]; exact hs⟩

/-- Read from the last part of a step to its first. -/
theorem Keeps.comp {s t u : State} (g : Keeps t u) (h : Keeps s t) : Keeps s u := h.trans g

theorem Keeps.mem {s t u : State} (h : Keeps s t) (hd : u.dmem = t.dmem) (hh : u.hmem = t.hmem) (ht : u.tags = t.tags) : Keeps s u :=
  h.trans (.of_same hd hh ht)

theorem keeps_quiet {s t : State} (h : Quiet s t) : Keeps s t := ⟨h.canonical⟩

/-- What an outcome leads to keeps the memories canonical. -/
structure OutKeeps (s : State) (o : Host.Outcome State Fault Refusal) : Prop where
  keeps : ∀ t, o = .next t → Keeps s t

theorem OutKeeps.next {s t : State} (h : Keeps s t) : OutKeeps s (.next t) := ⟨fun _ he => Host.Outcome.next.inj he ▸ h⟩

theorem OutKeeps.refused {s : State} {r : Refusal} : OutKeeps s (.refused r) := ⟨fun _ h => by simp at h⟩

theorem OutKeeps.fault {s : State} {f : Fault} : OutKeeps s (.fault f) := ⟨fun _ h => by simp at h⟩

theorem OutKeeps.after {s t : State} {o : Host.Outcome State Fault Refusal} (h : Keeps s t) (g : OutKeeps t o) : OutKeeps s o :=
  ⟨fun u hu => h.trans (g.keeps u hu)⟩

/-- The state that may have been found keeps the memories canonical. -/
structure OptKeeps (s : State) (o : Option State) : Prop where
  keeps : ∀ t, o = some t → Keeps s t

theorem OptKeeps.some {s t : State} (h : Keeps s t) : OptKeeps s (some t) := ⟨fun _ he => Option.some.inj he ▸ h⟩

theorem OptKeeps.none {s : State} : OptKeeps s none := ⟨fun _ h => by simp at h⟩

theorem OptKeeps.after {s t : State} {o : Option State} (h : Keeps s t) (g : OptKeeps t o) : OptKeeps s o :=
  ⟨fun u hu => h.trans (g.keeps u hu)⟩

theorem OptKeeps.map {α : Type} {s : State} {f : α → State} {o : Option α} (h : ∀ x, Keeps s (f x)) : OptKeeps s (o.map f) := by
  cases o with
  | none => exact OptKeeps.none
  | some x => exact OptKeeps.some (h x)

theorem Keeps.getD {s : State} {o : Option State} (h : OptKeeps s o) : Keeps s (o.getD s) := by
  cases o with
  | none => exact Keeps.refl s
  | some t => exact h.keeps t rfl

theorem keeps_ite {s t u : State} {c : Prop} [Decidable c] (ht : Keeps s t) (hu : Keeps s u) : Keeps s (if c then t else u) := by
  split
  · exact ht
  · exact hu

theorem keeps_fst_ite {α : Type} {s : State} {c : Prop} [Decidable c] {p q : State × α} (hp : Keeps s p.1) (hq : Keeps s q.1) :
    Keeps s (if c then p else q).1 := by
  split
  · exact hp
  · exact hq

theorem outKeeps_ite {s : State} {c : Prop} [Decidable c] {o p : Host.Outcome State Fault Refusal} (ho : OutKeeps s o) (hp : OutKeeps s p) :
    OutKeeps s (if c then o else p) := by
  split
  · exact ho
  · exact hp

theorem optKeeps_ite {s : State} {c : Prop} [Decidable c] {o p : Option State} (ho : OptKeeps s o) (hp : OptKeeps s p) :
    OptKeeps s (if c then o else p) := by
  split
  · exact ho
  · exact hp

theorem keeps_foldl {α : Type} {f : State → α → State} (h : ∀ s x, Keeps s (f s x)) (xs : List α) (s : State) : Keeps s (xs.foldl f s) := by
  induction xs generalizing s with
  | nil => exact Keeps.refl s
  | cons x xs ih => exact (h s x).trans (ih _)

theorem keeps_foldl_fst {α β : Type} {f : State × β → α → State × β} (h : ∀ p x, Keeps p.1 (f p x).1) (xs : List α) (p : State × β) :
    Keeps p.1 (xs.foldl f p).1 := by
  induction xs generalizing p with
  | nil => exact Keeps.refl p.1
  | cons x xs ih => exact (h p x).trans (ih _)

theorem keeps_foldl_opt {α : Type} {f : Option State → α → Option State} (h : ∀ s o x, OptKeeps s o → OptKeeps s (f o x)) (xs : List α)
    {s : State} {o : Option State} (ho : OptKeeps s o) : OptKeeps s (xs.foldl f o) := by
  induction xs generalizing o with
  | nil => exact ho
  | cons x xs ih => exact ih (h s o x ho)

/-- What an attempt to fire a station comes to keeps the memories canonical. -/
inductive FireKeeps (s : State) : Firing → Prop
  | fired {t : State} (h : Keeps s t) : FireKeeps s (.fired t)
  | waitMemory {t : State} (h : Keeps s t) : FireKeeps s (.waitMemory t)
  | tagged (d : Nat) : FireKeeps s (.tagged d)
  | waitInput : FireKeeps s .waitInput
  | waitOutput : FireKeeps s .waitOutput
  | idle : FireKeeps s .idle
  | done : FireKeeps s .done

/-- What running a station's records came to keeps the memories canonical. -/
inductive RanKeeps (s : State) : Ran → Prop
  | ok {t : State} {it : Iter} (h : Keeps s t) : RanKeeps s (.ok t it)
  | asks {t : State} {it : Iter} {rcd id : Nat} (h : Keeps s t) : RanKeeps s (.asks t it rcd id)
  | waits {t : State} (h : Keeps s t) : RanKeeps s (.waits t)
  | held : RanKeeps s .held
  | faults {t : State} {c : BitVec 8} {rcd : Nat} {a : Word} (h : Keeps s t) : RanKeeps s (.faults t c rcd a)

theorem RanKeeps.after {s t : State} {R : Ran} (h : Keeps s t) (g : RanKeeps t R) : RanKeeps s R := by
  cases g with
  | ok g => exact .ok (h.trans g)
  | asks g => exact .asks (h.trans g)
  | waits g => exact .waits (h.trans g)
  | held => exact .held
  | faults g => exact .faults (h.trans g)

theorem RanKeeps.of_ok {s t : State} {R : Ran} {it : Iter} (h : RanKeeps s R) (he : R = .ok t it) : Keeps s t := by
  subst he
  cases h
  assumption

theorem RanKeeps.of_asks {s t : State} {R : Ran} {it : Iter} {rcd id : Nat} (h : RanKeeps s R) (he : R = .asks t it rcd id) : Keeps s t := by
  subst he
  cases h
  assumption

theorem RanKeeps.of_waits {s t : State} {R : Ran} (h : RanKeeps s R) (he : R = .waits t) : Keeps s t := by
  subst he
  cases h
  assumption

theorem RanKeeps.of_faults {s t : State} {R : Ran} {c : BitVec 8} {rcd : Nat} {a : Word} (h : RanKeeps s R) (he : R = .faults t c rcd a) :
    Keeps s t := by
  subst he
  cases h
  assumption

theorem FireKeeps.of_fired {s t : State} {F : Firing} (h : FireKeeps s F) (he : F = .fired t) : Keeps s t := by
  subst he
  cases h
  assumption

theorem FireKeeps.of_waitMemory {s t : State} {F : Firing} (h : FireKeeps s F) (he : F = .waitMemory t) : Keeps s t := by
  subst he
  cases h
  assumption

/-! ## Cores, waves, slots -/

theorem keeps_setCore (s : State) (c : Nat) (k : Core) : Keeps s (setCore s c k) := .of_same rfl rfl rfl

theorem keeps_onCore (s : State) (c : Nat) (f : Core → Core) : Keeps s (onCore s c f) := .of_same rfl rfl rfl

theorem keeps_setWave (s : State) (c w : Nat) (v : Option Wave) : Keeps s (setWave s c w v) := .of_same rfl rfl rfl

theorem keeps_onWave (s : State) (c w : Nat) (f : Wave → Wave) : Keeps s (onWave s c w f) := by
  unfold onWave
  split
  · exact keeps_setWave ..
  · exact Keeps.refl s

theorem keeps_onSlotOf (s : State) (c w x : Nat) (f : Slot → Slot) : Keeps s (onSlotOf s c w x f) := keeps_onWave ..

theorem keeps_onPart (s : State) (p : Nat) (f : Part → Part) : Keeps s (onPart s p f) := .of_same rfl rfl rfl

theorem keeps_onDie (s : State) (d : Nat) (f : Die → Die) : Keeps s (onDie s d f) := .of_same rfl rfl rfl

/-! ## Contexts -/

theorem outKeeps_mapNext {s : State} {f : State → State} {o : Host.Outcome State Fault Refusal} (hf : ∀ t, Keeps t (f t)) (ho : OutKeeps s o) :
    OutKeeps s (mapNext f o) := by
  cases o with
  | next t => exact OutKeeps.next ((ho.keeps t rfl).trans (hf t))
  | refused r => exact OutKeeps.refused
  | fault e => exact OutKeeps.fault

theorem outKeeps_onSlot {s : State} {f : Ctx → State} (h : ∀ k, Keeps s (f k)) : OutKeeps s (onSlot s f) := by
  unfold onSlot
  split
  · exact OutKeeps.next (h _)
  · exact OutKeeps.fault

end Sys2Proof.Proofs.Keep
end

section
/-! SUPPORT. Operands, paths and accesses of lanes keep the memories canonical. -/

open Sys2Proof Sys2Proof.Machine Sys2Proof.Cert
open Sys2Proof.Proofs.Home Sys2Proof.Proofs.Moves Sys2Proof.Proofs.Lower Sys2Proof.Proofs.Partitions Sys2Proof.Proofs.Stops

namespace Sys2Proof.Proofs.Keep

/-! ## Memory -/

theorem keeps_unlessHeld (f : State → State) (s : State) (hf : ∀ t, Keeps t (f t)) : Keeps s (unlessHeld f s) := keeps_ite (Keeps.refl _) (hf ..)

theorem keeps_sendMsix (s : State) (p vec : Nat) : Keeps s (sendMsix s p vec) :=
  keeps_ite (Keeps.refl _) (keeps_ite (keeps_onPart ..) (.of_same rfl rfl rfl))


/-! ## Operands and results -/

theorem outKeeps_onTender (s : State) (f : Nat → Nat → Tender → State) (hf : ∀ t p r, Keeps s (f t p r)) : OutKeeps s (onTender s f) := by
  unfold onTender
  split
  · exact OutKeeps.next (hf ..)
  · exact OutKeeps.fault

theorem keeps_writeRegs (s : State) (c w x : Nat) (ws : List (Nat × W32)) : Keeps s (writeRegs s c w x ws) := by
  unfold writeRegs
  exact .comp (keeps_onCore ..) (keeps_onSlotOf ..)

theorem keeps_writeKeep (s : State) (c w x n : Nat) (vals : List (Nat × Word)) : Keeps s (writeKeep s c w x n vals) := by
  unfold writeKeep
  split
  · exact keeps_writeRegs ..
  · exact Keeps.refl _

theorem keeps_writeUni (s : State) (c w x n : Nat) (v : Word) : Keeps s (writeUni s c w x n v) := keeps_onWave ..

theorem keeps_writeResults (s : State) (k : Ctx) (out : Ty) (vals : List (Nat × Val)) : Keeps s (writeResults s k out vals) := by
  unfold writeResults
  split
  · exact keeps_onWave ..
  · exact keeps_ite (.comp (keeps_writeRegs ..) (keeps_writeRegs ..)) (keeps_writeRegs ..)
  · split
    · exact Keeps.refl _
    · exact keeps_writeUni ..


/-! ## Positions and paths -/

theorem keeps_advance (s : State) (k : Ctx) : Keeps s (advance s k) := keeps_ite (Keeps.refl _) (keeps_onWave ..)

theorem keeps_slotWaits (s : State) (c w x : Nat) (st : SlotSt) (why : Wait) : Keeps s (slotWaits s c w x st why) := keeps_onSlotOf ..

theorem optKeeps_divLoad (s : State) (c w : Nat) : OptKeeps s (divLoad s c w) := by
  unfold divLoad
  split
  · exact OptKeeps.some (Keeps.refl _)
  · split
    · exact OptKeeps.some (Keeps.refl _)
    · dsimp only
      split
      · exact OptKeeps.none
      · split
        · exact OptKeeps.some (.comp (keeps_onWave ..) (keeps_quiet (quiet_readVirtual ..)))
        · exact OptKeeps.none

theorem keeps_divSpill (s : State) (c w : Nat) (keep : Bool) : Keeps s (divSpill s c w keep) := by
  unfold divSpill
  split
  · exact Keeps.refl s
  · dsimp only
    split
    · exact keeps_quiet (quiet_writeVirtual ..)
    · exact (keeps_quiet (quiet_writeVirtual ..)).trans (keeps_onWave ..)


/-! ## Accesses -/

theorem keeps_markChecked (s : State) (p : Nat) (need : Need) (x : Checked) : Keeps s (markChecked s p need x) :=
  keeps_foldl (fun s x => keeps_ite (.comp (keeps_quiet (quiet_breakTr ..)) (keeps_quiet (quiet_xlatMark ..))) (keeps_quiet (quiet_xlatMark ..))) _ _

theorem keeps_noteLines (s : State) (a : Access) : Keeps s (noteLines s a) := by
  unfold noteLines
  split
  · exact Keeps.refl _
  · exact keeps_onSlotOf ..

theorem keeps_accessWrite (s : State) (a : Access) (bs : List Byte) (dormant : Bool) : Keeps s (accessWrite s a bs dormant) := by
  unfold accessWrite
  split
  · exact keeps_onSlotOf ..
  · dsimp only
    split
    · split
      · exact Keeps.trans (t := (piecesWrite _ _ _ _)) (keeps_quiet (quiet_piecesWrite ..)) (keeps_quiet (quiet_setTag ..))
      · exact keeps_quiet (quiet_piecesWrite ..)
    · exact keeps_quiet (quiet_piecesWrite ..)

theorem keeps_fillL1 (s : State) (c pa : Nat) : Keeps s (fillL1 s c pa) := by
  unfold fillL1
  exact keeps_onCore ..

theorem keeps_loadL1 (s : State) (a : Access) (pa n : Nat) : Keeps s (loadL1 s a pa n).1 := by
  unfold loadL1
  dsimp only
  split
  · exact Keeps.refl _
  · split
    · exact keeps_fst_ite (Keeps.refl _) (keeps_fillL1 ..)
    · exact keeps_ite (keeps_fillL1 ..) (Keeps.refl _)

theorem keeps_refreshL1 (s : State) (c : Nat) (ps : List (Place × Nat)) : Keeps s (refreshL1 s c ps) := by
  unfold refreshL1
  refine keeps_foldl (fun s x => ?_) _ _
  split
  · exact keeps_ite (keeps_fillL1 ..) (Keeps.refl _)
  · exact Keeps.refl _

theorem keeps_loadBytes (s : State) (a : Access) : Keeps s (loadBytes s a).1 := by
  unfold loadBytes
  split
  · exact keeps_refreshL1 ..
  · refine Keeps.trans ?_ (keeps_foldl_fst (fun p x => ?_) _ _)
    · exact Keeps.refl _
    · split
      · exact keeps_loadL1 ..
      · exact Keeps.refl _

theorem keeps_markLaunchFailed (s : State) (id : Nat) (cause : BitVec 8) : Keeps s (markLaunchFailed s id cause) := .of_same rfl rfl rfl

theorem keeps_cellFail (s : State) (r : WakeRec) (cause : BitVec 8) (blk rcd : Nat) : Keeps s (cellFail s r cause blk rcd) := by
  unfold cellFail
  dsimp only
  refine Keeps.trans ?_ (keeps_foldl (fun s x => ?_) _ _)
  · refine Keeps.mem (t := (cellPut _ _ _ _ _ _)) ?_ rfl rfl rfl
    exact keeps_quiet (quiet_cellPut ..)
  · exact keeps_markLaunchFailed ..

theorem keeps_ownCellFail (s : State) (e : EvalInfo) (cause : BitVec 8) (blk rcd : Nat) : Keeps s (ownCellFail s e cause blk rcd) := by
  unfold ownCellFail
  split
  · exact keeps_ite (keeps_cellFail ..) (Keeps.refl _)
  · exact Keeps.refl _

theorem keeps_wakeCheck (s : State) (p i : Nat) (secure : Bool) : Keeps s (wakeCheck s p i secure).1 := by
  unfold wakeCheck
  split
  · exact Keeps.refl _
  · dsimp only
    split
    · exact keeps_quiet (quiet_readEntry ..)
    · exact keeps_fst_ite (keeps_quiet (quiet_readEntry ..)) (keeps_fst_ite (keeps_quiet (quiet_readEntry ..)) (keeps_fst_ite (keeps_quiet
          (quiet_readEntry ..)) (keeps_fst_ite (keeps_quiet (quiet_readEntry ..)) (keeps_quiet (quiet_readEntry ..)))))

theorem keeps_wakeCell (s : State) (p pa : Nat) (va v : Word) (secure : Bool) (by' : Waker) : Keeps s (wakeCell s p pa va v secure by').1 := by
  unfold wakeCell
  dsimp only
  split
  · dsimp only
    split
    · exact .comp (keeps_cellFail ..) (.comp (keeps_quiet (Partitions.quiet_logWorld ..)) (keeps_wakeCheck ..))
    · exact .comp (keeps_quiet (quiet_cellPut ..)) (.comp (keeps_quiet (Partitions.quiet_logWorld ..)) (keeps_wakeCheck ..))
  · dsimp only
    refine Keeps.trans ?_ (keeps_onCore ..)
    refine Keeps.mem (t := (markBlocks _ _)) ?_ rfl rfl rfl
    exact .comp (keeps_quiet (quiet_markBlocks ..)) (.comp (keeps_quiet (quiet_cellPut ..)) (keeps_wakeCheck ..))

theorem keeps_applyDamage (s : State) (p : Nat) (pl : Place) (d : Damage) : Keeps s (applyDamage s p pl d) := by
  unfold applyDamage
  dsimp only
  split
  · exact Keeps.refl _
  · split
    · exact keeps_ite (keeps_onDie ..) (.comp (keeps_quiet (quiet_logEvent ..)) (keeps_onDie ..))
    · exact keeps_ite (keeps_onDie ..) (.comp (keeps_quiet (quiet_logEvent ..)) (keeps_onDie ..))
  · exact .comp (keeps_quiet (quiet_markPoison ..)) (keeps_quiet (quiet_logEvent ..))

theorem keeps_clearLost (s : State) (c uid lane : Nat) : Keeps s (clearLost s c uid lane) := .of_same rfl rfl rfl

theorem keeps_halfWrite (s : State) (a : Access) (h : Nat) : Keeps s (halfWrite s a h) := keeps_accessWrite ..

theorem keeps_notePeer (s : State) (a : Access) : Keeps s (notePeer s a) := keeps_ite (keeps_onSlotOf ..) (Keeps.refl _)

theorem keeps_performBytes (s : State) (a : Access) : Keeps s (performBytes s a).1 := by
  unfold performBytes
  extract_lets inCar s1 reads s2 r ra sa lo r' rb sb lo' ar sc tag
  have h1 : Keeps s s1 := keeps_noteLines s a
  have h2 : Keeps s s2 := h1.trans (keeps_ite (keeps_notePeer ..) (Keeps.refl s1))
  have hr : Keeps s r.1 := h2.trans (by
    unfold r
    split
    · exact Keeps.refl s2
    · exact keeps_loadBytes ..)
  have hsc : Keeps s sc := .comp (keeps_quiet (quiet_acquireL1 ..)) (.comp (keeps_refreshL1 ..) h2)
  refine keeps_fst_ite (Keeps.mem h1 rfl rfl rfl) (keeps_fst_ite h1 ?_)
  split
  · exact .comp (keeps_quiet (quiet_acquireL1 ..)) hr
  · exact .comp (keeps_quiet (quiet_acquireL1 ..)) hr
  · dsimp only
    split
    · exact .comp (keeps_accessWrite ..) h2
    · exact .comp (keeps_halfWrite ..) h2
  · dsimp only
    split
    · exact .comp (keeps_accessWrite ..) hsc
    · exact hsc
  · dsimp only
    split
    · exact .comp (keeps_accessWrite ..) hsc
    · exact hsc
  · exact .comp (keeps_quiet (quiet_acquireL1 ..)) h2
  · exact .comp (keeps_accessWrite ..) h2

theorem keeps_waitOnCell (s : State) (id : Nat) : Keeps s (waitOnCell s id) := by
  unfold waitOnCell
  split
  · exact Keeps.refl _
  · exact .of_same rfl rfl rfl

theorem keeps_joinWaiters (s : State) (pa id : Nat) : Keeps s (joinWaiters s pa id) := .comp (keeps_waitOnCell ..) (.of_same rfl rfl rfl)

theorem keeps_wakingMet (s : State) (a : Access) (pa : Nat) (cause : BitVec 8) : Keeps s (wakingMet s a pa cause).1 := by
  unfold wakingMet
  split
  · exact Keeps.refl _
  · exact keeps_quiet (quiet_lostCell ..)

theorem keeps_performCell (s : State) (a : Access) (pa : Nat) : Keeps s (performCell s a pa).1 := by
  unfold performCell
  dsimp only
  split
  · exact keeps_performBytes ..
  · split
    · exact keeps_wakingMet ..
    · exact keeps_performBytes ..
  · refine keeps_fst_ite (Keeps.refl s) (keeps_fst_ite (keeps_fst_ite ?_ ?_) (keeps_fst_ite ?_ (keeps_fst_ite ?_ (keeps_fst_ite ?_
      (keeps_fst_ite ?_ (keeps_fst_ite ?_ ?_))))))
    · exact keeps_wakingMet ..
    · exact keeps_performBytes ..
    · exact keeps_performBytes ..
    · exact keeps_performBytes ..
    · exact keeps_fst_ite (keeps_wakingMet ..) (keeps_fst_ite (keeps_wakingMet ..) (Keeps.refl s))
    · exact Keeps.refl s
    · split
      · exact keeps_joinWaiters ..
      · exact keeps_quiet (quiet_lostCell ..)
    · split
      · exact Keeps.refl s
      · exact keeps_fst_ite (Keeps.refl s) (keeps_fst_ite ((keeps_onSlotOf ..).trans (keeps_wakeCell ..))
          (((keeps_onSlotOf ..).trans (keeps_wakeCell ..)).trans (keeps_waitOnCell ..)))

theorem keeps_performAccess (s : State) (a : Access) (d : Damage) : Keeps s (performAccess s a d).1 := by
  unfold performAccess
  dsimp only
  split
  · dsimp only
    split
    · exact keeps_applyDamage ..
    · exact Keeps.refl _
  · split
    · split
      · exact .comp (keeps_clearLost ..) (keeps_applyDamage ..)
      · split
        · exact .comp (keeps_performCell ..) (keeps_applyDamage ..)
        · exact .comp (keeps_performBytes ..) (keeps_applyDamage ..)
    · split
      · exact keeps_clearLost ..
      · split
        · exact keeps_performCell ..
        · exact keeps_performBytes ..

theorem keeps_deliver (s : State) (a : Access) (v : Val) (tag : BitVec 2) : Keeps s (deliver s a v tag) := by
  unfold deliver
  split
  · exact Keeps.refl s
  extract_lets lanes w ws s1
  have h1 : Keeps s s1 := by
    unfold s1
    split
    · exact keeps_onWave ..
    · exact keeps_ite (.comp (keeps_writeRegs ..) (keeps_ite (keeps_writeRegs ..) (keeps_writeRegs ..)))
        (keeps_ite (keeps_writeRegs ..) (keeps_writeRegs ..))
    · exact keeps_writeUni ..
  refine keeps_ite (Keeps.refl s) (keeps_ite (keeps_onCore ..) ?_)
  split
  · exact .comp (keeps_writeRegs ..) h1
  · exact .comp (keeps_writeRegs ..) h1
  · exact h1

theorem keeps_endPerformed (s : State) (a : Access) : Keeps s (endPerformed s a) := by
  unfold endPerformed
  split
  · exact keeps_ite (.comp (keeps_onSlotOf ..) (keeps_quiet (quiet_dropWaiter ..))) (keeps_quiet (quiet_endAccess ..))
  · exact keeps_quiet (quiet_endAccess ..)

theorem keeps_finishAccess (s : State) (a : Access) (d : Damage) : Keeps s (finishAccess s a d).1 := by
  unfold finishAccess
  dsimp only
  split
  · exact .comp (keeps_endPerformed ..) (.comp (keeps_deliver ..) (keeps_performAccess ..))
  · exact keeps_performAccess ..
  · exact .comp (keeps_quiet (quiet_endAccess ..)) (keeps_performAccess ..)

theorem keeps_releaseWaiter (v : Word) (s : State) (id : Nat) : Keeps s (releaseWaiter v s id) := by
  unfold releaseWaiter
  split
  · exact Keeps.refl _
  · split
    · exact .of_same rfl rfl rfl
    · dsimp only
      split
      · split
        · exact .comp (keeps_quiet (quiet_endAccess ..)) (.comp (keeps_deliver ..) (.comp (keeps_performBytes ..) (keeps_quiet (quiet_acquireL1 ..))))
        · exact .comp (keeps_performBytes ..) (keeps_quiet (quiet_acquireL1 ..))
      · split
        · exact .comp (keeps_quiet (quiet_endAccess ..)) (.comp (keeps_deliver ..) (.comp (keeps_performBytes ..) (keeps_quiet (quiet_acquireL1 ..))))
        · exact .comp (keeps_performBytes ..) (keeps_quiet (quiet_acquireL1 ..))
      · exact .comp (keeps_quiet (quiet_endAccess ..)) (.comp (keeps_deliver ..) (.comp (keeps_noteLines ..) (keeps_quiet (quiet_acquireL1 ..))))

theorem keeps_releaseWaiters (s : State) (ids : List Nat) (v : Word) : Keeps s (releaseWaiters s ids v) :=
  keeps_foldl (fun s x => keeps_releaseWaiter ..) _ _

theorem keeps_cellCommit (s : State) (own : List SlotName) (r : WakeRec) (v : Word) : Keeps s (cellCommit s own r v) := by
  unfold cellCommit
  dsimp only
  refine Keeps.trans ?_ (keeps_releaseWaiters ..)
  refine Keeps.mem (t := (cellPut _ _ _ _ _ _)) ?_ rfl rfl rfl
  exact keeps_quiet (quiet_cellPut ..)

theorem keeps_earlyLoad (s : State) (a : Access) : Keeps s (earlyLoad s a) := by
  unfold earlyLoad
  dsimp only
  split
  · split
    · refine Keeps.mem (t := (loadBytes _ _).1) ?_ rfl rfl rfl
      exact keeps_loadBytes ..
    · exact Keeps.refl _
  · split
    · refine Keeps.mem (t := (loadBytes _ _).1) ?_ rfl rfl rfl
      exact keeps_loadBytes ..
    · exact Keeps.refl _

theorem keeps_earlyStore (s : State) (a : Access) : Keeps s (earlyStore s a) :=
  keeps_ite (.comp (keeps_finishAccess ..) (.of_same rfl rfl rfl)) (Keeps.refl _)

theorem keeps_performHalf (s : State) (a : Access) (h : Nat) : Keeps s (performHalf s a h) := by
  unfold performHalf
  split
  · exact Keeps.refl _
  · dsimp only
    split
    · refine Keeps.mem (t := (loadBytes _ _).1) ?_ rfl rfl rfl
      exact keeps_loadBytes ..
    · refine Keeps.mem (t := (halfWrite _ _ _)) ?_ rfl rfl rfl
      exact keeps_halfWrite ..
    · exact Keeps.refl _

theorem keeps_onAccess (s : State) (id : Nat) (f : State → Access → State) (hf : ∀ t p, Keeps t (f t p)) : Keeps s (onAccess s id f) := by
  unfold onAccess
  split
  · exact hf ..
  · exact Keeps.refl _

end Sys2Proof.Proofs.Keep
end

section
/-! SUPPORT. The shared operations (ends of lanes, stops, the return) keep the memories canonical. -/

open Sys2Proof Sys2Proof.Machine Sys2Proof.Cert
open Sys2Proof.Proofs.Home Sys2Proof.Proofs.Moves Sys2Proof.Proofs.Lower Sys2Proof.Proofs.Partitions Sys2Proof.Proofs.Stops

namespace Sys2Proof.Proofs.Keep

/-! ## Shared operations -/

theorem keeps_retireWave (s : State) (c w : Nat) : Keeps s (retireWave s c w) := by
  unfold retireWave
  split
  · exact Keeps.refl _
  · dsimp only
    split
    · exact keeps_setCore ..
    · split
      · exact keeps_setCore ..
      · split
        · exact keeps_setCore ..
        · split
          · exact keeps_setCore ..
          · exact keeps_setCore ..

theorem keeps_endWaveLanes (s : State) (c w : Nat) (ls : W32) (why : BitVec 8 × Nat × Nat) : Keeps s (endWaveLanes s c w ls why) := by
  unfold endWaveLanes
  extract_lets s0
  have h1 : Keeps s s0 := Keeps.getD (optKeeps_divLoad ..)
  split
  · exact h1
  extract_lets evs s1 s2
  have h2 : Keeps s s2 := .comp (keeps_onWave ..) (.comp (keeps_foldl (fun s p => keeps_ownCellFail ..) _ _) h1)
  split
  · exact keeps_ite (.comp (keeps_retireWave ..) h2) h2
  · exact h2

theorem keeps_postRecord (s : State) (p : Nat) (secure : Bool) (aidx : Nat) (ring : Latch) (bytes tag : Nat) (fault : BitVec 8) (status : Nat)
    (pubver : W32) : Keeps s (postRecord s p secure aidx ring bytes tag fault status pubver) := by
  unfold postRecord
  extract_lets lost r nrec
  have hlost (t : State) (cs : BitVec 8) (a : Word) : Keeps t (lost t cs a) :=
    .comp (keeps_quiet (quiet_logEvent ..)) (keeps_quiet (Partitions.quiet_logWorld ..))
  have hr : Keeps s r.1 := keeps_quiet (quiet_readEntry ..)
  clear_value lost r
  split
  · exact hr.trans (hlost ..)
  rename_i e _
  extract_lets head vec a ph bs m x s1
  have hm : Keeps s m.1 := hr.trans (keeps_quiet (quiet_postMeetsCell ..))
  have hx : Keeps s x.1 := hm.trans (keeps_quiet (quiet_writeVirtual ..))
  have h1 : Keeps s s1 := hx.trans (keeps_quiet (quiet_entryPut ..))
  clear_value s1 x m
  split
  · exact hm.trans (hlost ..)
  split
  · exact hx.trans (hlost ..)
  · exact keeps_ite h1 (h1.trans (keeps_sendMsix ..))

theorem keeps_performAll (s : State) (c w uid : Nat) : Keeps s (performAll s c w uid).1 := by
  unfold performAll
  refine Keeps.trans ?_ (keeps_foldl_fst (fun p x => ?_) _ _)
  · exact Keeps.refl _
  · split
    · exact Keeps.refl _
    · split
      · dsimp only
        split
        · exact keeps_finishAccess ..
        · exact keeps_finishAccess ..
      · exact Keeps.refl _

theorem keeps_settleWave (s : State) (c w uid : Nat) : Keeps s (settleWave s c w uid).1 := by
  unfold settleWave
  dsimp only
  split
  · exact keeps_performAll ..
  · dsimp only
    refine Keeps.mem (t := (performAll _ _ _ _).1) ?_ rfl rfl rfl
    exact keeps_performAll ..

theorem keeps_pastPending (s : State) (c w x : Nat) (e : Option (Nat × Instr × Issue)) : Keeps s (pastPending s c w x e) := by
  unfold pastPending
  split
  · exact keeps_onWave ..
  · exact Keeps.refl _

theorem keeps_deliverTrap (s : State) (c w : Nat) : Keeps s (deliverTrap s c w) := by
  unfold deliverTrap
  split
  · exact Keeps.refl _
  · dsimp only
    split
    · exact keeps_quiet (quiet_logEvent ..)
    · split
      · exact .comp (keeps_onCore ..) (keeps_quiet (quiet_handlerReads ..))
      · exact .comp (keeps_endWaveLanes ..) (.comp (keeps_onWave ..) (.comp (keeps_quiet (quiet_logEvent ..)) (keeps_quiet (quiet_handlerReads ..))))

theorem keeps_deliverStop (s : State) (c w : Nat) : Keeps s (deliverStop s c w) := by
  unfold deliverStop
  split
  · exact Keeps.refl _
  · split
    · exact Keeps.refl _
    · split
      · exact Keeps.refl _
      · split
        · dsimp only
          split
          · exact .comp (keeps_onWave ..) (.comp (keeps_postRecord ..) (keeps_quiet (quiet_resolve ..)))
          · exact .comp (keeps_deliverTrap ..) (keeps_quiet (quiet_resolve ..))
        · exact keeps_deliverTrap ..

theorem keeps_noteGuards (s : State) (rest : List Access) : Keeps s (noteGuards s rest) := keeps_ite (.of_same rfl rfl rfl) (Keeps.refl _)

theorem keeps_takeStop (s : State) (c w : Nat) (q0 : StopReq) (failed : List (Access × Fail)) : Keeps s (takeStop s c w q0 failed) := by
  unfold takeStop
  split
  · exact Keeps.refl s
  rename_i v0 _
  extract_lets fs s1 r s2 rest s3 fails q q1
  have h3 : Keeps s s3 := .comp (keeps_quiet (quiet_endAccesses ..)) (.comp (keeps_noteGuards ..) (.comp (keeps_settleWave ..)
    (.comp (keeps_quiet (quiet_carriageDiscard ..)) (keeps_quiet (quiet_carriageDiscard ..)))))
  split
  · exact h3
  extract_lets p0 p1 s4 s5 s6 s7 fly entries s8 s9
  have h4 : Keeps s s4 := .comp (keeps_pastPending ..) (.comp (keeps_pastPending ..) h3)
  have h5 : Keeps s s5 := h4.trans (keeps_ite (keeps_onWave ..) (Keeps.refl s4))
  have h9 : Keeps s s9 := .comp (keeps_onWave ..) (.comp (keeps_quiet (quiet_divSpill_keep ..)) (.comp (keeps_onWave ..)
    (.comp (keeps_onCore ..) h5)))
  clear_value s9
  split
  · exact h9
  · exact .comp (keeps_deliverStop ..) (keeps_ite (.comp (keeps_quiet (Partitions.quiet_logWorld ..)) (.comp (keeps_quiet (quiet_writeFrame ..)) h9))
      (.comp (keeps_quiet (quiet_writeFrame ..)) h9))

theorem keeps_takeTrap (s : State) (k : Ctx) (i : Instr) (cause : BitVec 8) (stop : Nat) (lanes done : W32) (addr : Word) (cmp grp : Nat) :
    Keeps s (takeTrap s k i cause stop lanes done addr cmp grp) := by
  unfold takeTrap
  exact .comp (keeps_takeStop ..) (keeps_ite (Keeps.refl _) (keeps_advance ..))

theorem keeps_trapFails (s : State) (k : Ctx) (i : Instr) (fs : List (Nat × Fail)) (grp : Nat) : Keeps s (trapFails s k i fs grp) := by
  unfold trapFails
  split
  · exact Keeps.refl _
  · exact keeps_takeTrap ..

theorem keeps_trapState (s : State) (k : Ctx) (i : Instr) (cause : BitVec 8) (addr : Word) : Keeps s (trapState s k i cause addr) := keeps_takeTrap ..

theorem keeps_lateStop (s : State) (a : Access) (fails : List (Access × Fail)) : Keeps s (lateStop s a fails) := by
  unfold lateStop
  dsimp only
  split
  · exact Keeps.refl _
  · exact keeps_takeStop ..

theorem keeps_takeLate (s : State) (a : Access) (f : Fail) : Keeps s (takeLate s a f) := by
  unfold takeLate
  split
  · exact Keeps.refl _
  · exact keeps_ite (Keeps.refl _) (.comp (keeps_lateStop ..) (.comp (keeps_settleWave ..) (keeps_quiet (quiet_carriageDiscard ..))))

theorem keeps_skipValue (s : State) (c w : Nat) (e : Replay) (ls : List Nat) : Keeps s (skipValue s c w e ls) := by
  unfold skipValue
  split
  · split
    · exact Keeps.refl _
    · refine keeps_foldl (fun s x => ?_) _ _
      dsimp only
      refine Keeps.trans ?_ (keeps_onWave ..)
      exact .of_same rfl rfl rfl
  · exact Keeps.refl _

theorem keeps_returnFrom (s : State) (c w : Nat) : Keeps s (returnFrom s c w).1 := by
  unfold returnFrom
  split
  · exact Keeps.refl s
  extract_lets sec f size r q
  have hq : Keeps s q.1 := .comp (keeps_quiet (quiet_readVirtual ..)) (keeps_quiet (quiet_readVirtual ..))
  split
  · refine keeps_fst_ite hq (.comp (keeps_endWaveLanes ..) (.comp (keeps_onCore ..) (.comp (keeps_onWave ..) ?_)))
    exact .comp (keeps_foldl (fun s p => keeps_skipValue ..) _ _) hq
  · exact hq

theorem outKeeps_laneOp (s : State) (r : Record) (out : Ty) (f : Ctx → Nat → Val) : OutKeeps s (laneOp s r out f) :=
  outKeeps_onSlot (fun k => .comp (keeps_advance ..) (keeps_writeResults ..))

theorem outKeeps_waveOp (s : State) (out : Ty) (f : Ctx → Val) : OutKeeps s (waveOp s out f) :=
  outKeeps_onSlot (fun k => .comp (keeps_advance ..) (keeps_writeResults ..))

theorem keeps_sameOp (s : State) (k : Ctx) (out : Ty) (v : Word) : Keeps s (sameOp s k out v) := .comp (keeps_advance ..) (keeps_writeResults ..)

end Sys2Proof.Proofs.Keep
end

section
/-! SUPPORT. Records that compute values and control records keep the memories canonical. -/

open Sys2Proof Sys2Proof.Machine Sys2Proof.Cert
open Sys2Proof.Proofs.Home Sys2Proof.Proofs.Moves Sys2Proof.Proofs.Lower Sys2Proof.Proofs.Partitions Sys2Proof.Proofs.Stops

namespace Sys2Proof.Proofs.Keep

/-! ## Integer records -/

theorem outKeeps_intOp2 (s : State) (r : Record) (f : Nat → Bool → Nat → Nat → Nat) : OutKeeps s (intOp2 s r f) := outKeeps_laneOp ..

theorem outKeeps_execIadd (r : Record) (s : State) : OutKeeps s (execIadd r s) := outKeeps_intOp2 ..

theorem outKeeps_execIsub (r : Record) (s : State) : OutKeeps s (execIsub r s) := outKeeps_intOp2 ..

theorem outKeeps_execImul (r : Record) (s : State) : OutKeeps s (execImul r s) := outKeeps_intOp2 ..

theorem outKeeps_execImad (r : Record) (s : State) : OutKeeps s (execImad r s) := outKeeps_laneOp ..

theorem outKeeps_execIdiv (r : Record) (s : State) : OutKeeps s (execIdiv r s) := outKeeps_intOp2 ..

theorem outKeeps_execImin (r : Record) (s : State) : OutKeeps s (execImin r s) := outKeeps_intOp2 ..

theorem outKeeps_execImax (r : Record) (s : State) : OutKeeps s (execImax r s) := outKeeps_intOp2 ..

theorem outKeeps_execIabs (r : Record) (s : State) : OutKeeps s (execIabs r s) := outKeeps_laneOp ..

theorem outKeeps_execAnd (r : Record) (s : State) : OutKeeps s (execAnd r s) := outKeeps_laneOp ..

theorem outKeeps_execOr (r : Record) (s : State) : OutKeeps s (execOr r s) := outKeeps_laneOp ..

theorem outKeeps_execXor (r : Record) (s : State) : OutKeeps s (execXor r s) := outKeeps_laneOp ..

theorem outKeeps_execAndn (r : Record) (s : State) : OutKeeps s (execAndn r s) := outKeeps_laneOp ..

theorem outKeeps_execShl (r : Record) (s : State) : OutKeeps s (execShl r s) := outKeeps_intOp2 ..

theorem outKeeps_execShr (r : Record) (s : State) : OutKeeps s (execShr r s) := outKeeps_intOp2 ..

theorem outKeeps_execFshf (r : Record) (s : State) : OutKeeps s (execFshf r s) := outKeeps_laneOp ..

theorem outKeeps_execBcnt (r : Record) (s : State) : OutKeeps s (execBcnt r s) := outKeeps_laneOp ..

theorem outKeeps_execBfx (r : Record) (s : State) : OutKeeps s (execBfx r s) := outKeeps_laneOp ..

theorem outKeeps_execIcmp (r : Record) (s : State) : OutKeeps s (execIcmp r s) := outKeeps_laneOp ..

theorem outKeeps_execSel (r : Record) (s : State) : OutKeeps s (execSel r s) := outKeeps_laneOp ..

theorem outKeeps_execLea (r : Record) (s : State) : OutKeeps s (execLea r s) := outKeeps_laneOp ..

theorem outKeeps_execMov (r : Record) (s : State) : OutKeeps s (execMov r s) := outKeeps_laneOp ..


/-! ## Floating-point records -/

theorem outKeeps_floatOp2 (s : State) (r : Record) (f : Fmt → Nat → Nat → Nat) : OutKeeps s (floatOp2 s r f) := outKeeps_laneOp ..

theorem outKeeps_execFadd (r : Record) (s : State) : OutKeeps s (execFadd r s) := outKeeps_floatOp2 ..

theorem outKeeps_execFsub (r : Record) (s : State) : OutKeeps s (execFsub r s) := outKeeps_floatOp2 ..

theorem outKeeps_execFmul (r : Record) (s : State) : OutKeeps s (execFmul r s) := outKeeps_floatOp2 ..

theorem outKeeps_execFfma (r : Record) (s : State) : OutKeeps s (execFfma r s) := outKeeps_laneOp ..

theorem outKeeps_execFmin (r : Record) (s : State) : OutKeeps s (execFmin r s) := outKeeps_floatOp2 ..

theorem outKeeps_execFmax (r : Record) (s : State) : OutKeeps s (execFmax r s) := outKeeps_floatOp2 ..

theorem outKeeps_execFsgn (r : Record) (s : State) : OutKeeps s (execFsgn r s) := outKeeps_floatOp2 ..

theorem outKeeps_execFcmp (r : Record) (s : State) : OutKeeps s (execFcmp r s) := outKeeps_laneOp ..

theorem outKeeps_execFcls (r : Record) (s : State) : OutKeeps s (execFcls r s) := outKeeps_laneOp ..

theorem outKeeps_execFrnd (r : Record) (s : State) : OutKeeps s (execFrnd r s) := outKeeps_laneOp ..

theorem outKeeps_execFscl (r : Record) (s : State) : OutKeeps s (execFscl r s) := outKeeps_laneOp ..

theorem outKeeps_execCvt (r : Record) (s : State) : OutKeeps s (execCvt r s) := outKeeps_laneOp ..

theorem outKeeps_execPack (r : Record) (s : State) : OutKeeps s (execPack r s) := outKeeps_laneOp ..

theorem outKeeps_execUnpk (r : Record) (s : State) : OutKeeps s (execUnpk r s) := outKeeps_laneOp ..

theorem outKeeps_execDotp (r : Record) (s : State) : OutKeeps s (execDotp r s) := outKeeps_laneOp ..

theorem outKeeps_execSfn (r : Record) (s : State) : OutKeeps s (execSfn r s) := outKeeps_laneOp ..

theorem outKeeps_execRowmax (r : Record) (s : State) : OutKeeps s (execRowmax r s) := outKeeps_laneOp ..

theorem outKeeps_execRowsum (r : Record) (s : State) : OutKeeps s (execRowsum r s) := outKeeps_laneOp ..

theorem outKeeps_execSmax (r : Record) (s : State) : OutKeeps s (execSmax r s) := outKeeps_laneOp ..

theorem outKeeps_execRmsn (r : Record) (s : State) : OutKeeps s (execRmsn r s) := outKeeps_laneOp ..


/-! ## Records across lanes -/

theorem outKeeps_execShfl (r : Record) (s : State) : OutKeeps s (execShfl r s) := outKeeps_laneOp ..

theorem outKeeps_execVote (r : Record) (s : State) : OutKeeps s (execVote r s) := outKeeps_waveOp ..

theorem outKeeps_execRedl (r : Record) (s : State) : OutKeeps s (execRedl r s) := outKeeps_waveOp ..

theorem outKeeps_execScnl (r : Record) (s : State) : OutKeeps s (execScnl r s) := outKeeps_laneOp ..

theorem outKeeps_execGets (r : Record) (s : State) : OutKeeps s (execGets r s) := outKeeps_laneOp ..

theorem outKeeps_execUnif (r : Record) (s : State) : OutKeeps s (execUnif r s) := outKeeps_waveOp ..

theorem keeps_keepAside (s : State) (k : Ctx) (n : Nat) : Keeps s (keepAside s k n) := keeps_ite (Keeps.refl _) (keeps_onWave ..)

theorem outKeeps_execKeep (r : Record) (s : State) : OutKeeps s (execKeep r s) := by
  unfold execKeep
  refine outKeeps_onSlot ?_
  intro k
  dsimp only
  split
  · exact .comp (keeps_advance ..) (.comp (keeps_writeKeep ..) (keeps_keepAside ..))
  · exact .comp (keeps_advance ..) (keeps_writeUni ..)
  · exact .comp (keeps_advance ..) (keeps_writeResults ..)

theorem outKeeps_execBysw (r : Record) (s : State) : OutKeeps s (execBysw r s) := outKeeps_laneOp ..

theorem outKeeps_execFeat (r : Record) (s : State) : OutKeeps s (execFeat r s) := outKeeps_laneOp ..


/-! ## Control records -/

theorem keeps_stepOn (s : State) (k : Ctx) : Keeps s (stepOn s k) := keeps_onWave ..

theorem keeps_goTo (s : State) (k : Ctx) (b : Nat) : Keeps s (goTo s k b) := keeps_onWave ..

theorem keeps_afterCommit (s : State) (k : Ctx) (f : State) (hf : Keeps s f) : Keeps s (afterCommit s k f) := by
  unfold afterCommit
  split
  · exact keeps_slotWaits ..
  · assumption

theorem keeps_spillSibling (s : State) (c w y : Nat) : Keeps s (spillSibling s c w y) :=
  .comp (keeps_onWave ..) (.comp (keeps_onCore ..) (keeps_quiet (quiet_carriageDiscard ..)))

theorem optKeeps_divergeHeld (s : State) (k : Ctx) (i : Instr) (n : Nat) (spills : Bool) : OptKeeps s (divergeHeld s k i n spills) := by
  unfold divergeHeld
  dsimp only
  split
  · exact OptKeeps.some (keeps_slotWaits ..)
  · split
    · exact optKeeps_ite (OptKeeps.some (keeps_trapState ..)) OptKeeps.none
    · exact optKeeps_ite (OptKeeps.some (keeps_trapState ..)) OptKeeps.none

theorem keeps_diverge (s : State) (k : Ctx) (taken : W32) (target join : Nat) : Keeps s (diverge s k taken target join) :=
  .comp (keeps_onWave ..) (.comp (keeps_spillSibling ..) (keeps_onWave ..))

theorem keeps_branch (s : State) (k : Ctx) (i : Instr) (taken : W32) (target join : Nat) : Keeps s (branch s k i taken target join) := by
  unfold branch
  dsimp only
  split
  · exact keeps_stepOn ..
  · refine keeps_afterCommit _ _ _ ?_
    split
    · exact keeps_goTo ..
    · split
      · exact (optKeeps_divergeHeld ..).keeps _ ‹_›
      · exact keeps_diverge ..

theorem keeps_pendDspl (s : State) (k : Ctx) (p : Pending) : Keeps s (pendDspl s k p) := .comp (keeps_onSlotOf ..) (keeps_advance ..)

theorem keeps_withDivergence (s : State) (k : Ctx) (i : Instr) (f : State → Ctx → State) (hf : ∀ t p, Keeps t (f t p)) :
    Keeps s (withDivergence s k i f) := by
  unfold withDivergence
  split
  · exact keeps_trapState ..
  · split
    · exact .comp (hf ..) ((optKeeps_divLoad ..).keeps _ ‹_›)
    · exact (optKeeps_divLoad ..).keeps _ ‹_›

theorem outKeeps_execBr (r : Record) (s : State) : OutKeeps s (execBr r s) := outKeeps_onSlot (fun k => keeps_afterCommit _ _ _ (keeps_goTo ..))

theorem outKeeps_execBrc (r : Record) (s : State) : OutKeeps s (execBrc r s) :=
  outKeeps_onSlot (fun k => keeps_ite (keeps_pendDspl ..) (keeps_branch ..))

theorem keeps_joinWork (s : State) (k : Ctx) (i : Instr) : Keeps s (joinWork s k i) := by
  unfold joinWork
  split
  · exact keeps_stepOn ..
  · refine keeps_withDivergence _ _ _ _ ?_
    intro t p
    split
    · exact keeps_setWave ..
    · exact keeps_trapState ..

theorem outKeeps_execJoin (r : Record) (s : State) : OutKeeps s (execJoin r s) :=
  outKeeps_onSlot (fun k => keeps_ite (keeps_pendDspl ..) (keeps_joinWork ..))

theorem keeps_loopSimt (s : State) (k : Ctx) (taken : W32) : Keeps s (loopSimt s k taken) :=
  keeps_ite (.comp (keeps_stepOn ..) (keeps_onSlotOf ..)) (keeps_onWave ..)

theorem outKeeps_execLoop (r : Record) (s : State) : OutKeeps s (execLoop r s) :=
  outKeeps_onSlot (fun k => keeps_ite (keeps_loopSimt ..) (keeps_branch ..))

theorem outKeeps_execCall (r : Record) (s : State) : OutKeeps s (execCall r s) := by
  unfold execCall
  refine outKeeps_onSlot ?_
  intro k
  dsimp only
  refine Keeps.trans ?_ (keeps_goTo ..)
  split
  · exact keeps_writeRegs ..
  · exact Keeps.refl _

theorem keeps_oneGroup (s : State) (k : Ctx) (i : Instr) (tg : Word → CallTarget) (g : Word × W32) : Keeps s (oneGroup s k i tg g) := by
  unfold oneGroup
  split
  · exact keeps_goTo ..
  · exact keeps_slotWaits ..
  · exact keeps_takeTrap ..

theorem keeps_manyCalls (s : State) (k : Ctx) (tg : Word → CallTarget) (gs : List (Word × W32)) : Keeps s (manyCalls s k tg gs) :=
  .comp (keeps_onWave ..) (.comp (keeps_spillSibling ..) (keeps_onWave ..))

theorem outKeeps_execCalli (r : Record) (s : State) : OutKeeps s (execCalli r s) := by
  unfold execCalli
  refine outKeeps_onSlot ?_
  intro k
  dsimp only
  split
  · exact keeps_stepOn ..
  · refine Keeps.trans ?_ (keeps_oneGroup ..)
    split
    · exact keeps_writeRegs ..
    · exact Keeps.refl _
  · split
    · exact (optKeeps_divergeHeld ..).keeps _ ‹_›
    · refine Keeps.trans ?_ (keeps_manyCalls ..)
      split
      · exact keeps_writeRegs ..
      · exact Keeps.refl _

theorem keeps_manyReturns (s : State) (k : Ctx) (tg : Word → CallTarget) (gs : List (Word × W32)) : Keeps s (manyReturns s k tg gs) := keeps_onWave ..

theorem outKeeps_execRet (r : Record) (s : State) : OutKeeps s (execRet r s) := by
  unfold execRet
  refine outKeeps_onSlot ?_
  intro k
  dsimp only
  refine keeps_afterCommit _ _ _ ?_
  split
  · exact keeps_stepOn ..
  · exact keeps_oneGroup ..
  · split
    · exact (optKeeps_divergeHeld ..).keeps _ ‹_›
    · exact keeps_manyReturns ..

theorem outKeeps_execStubBind (core slot : Nat) (s : State) : OutKeeps s (execStubBind core slot s) := by
  unfold execStubBind
  refine OutKeeps.next ?_
  split
  · exact Keeps.refl _
  · dsimp only
    split
    · split
      · exact Keeps.refl _
      · split
        · exact .comp (keeps_onWave ..) (keeps_quiet (quiet_resolve ..))
        · exact .comp (keeps_takeStop ..) (keeps_quiet (quiet_resolve ..))
    · exact Keeps.refl _

theorem keeps_exitWork (s : State) (k : Ctx) (i : Instr) : Keeps s (exitWork s k i) :=
  keeps_withDivergence _ _ _ _ (fun t p => keeps_endWaveLanes ..)

theorem keeps_exitRecord (s : State) (k : Ctx) (i : Instr) : Keeps s (exitRecord s k i) := keeps_ite (keeps_onSlotOf ..) (keeps_exitWork ..)

theorem outKeeps_execExit (r : Record) (s : State) : OutKeeps s (execExit r s) :=
  outKeeps_onSlot (fun k => keeps_ite (keeps_pendDspl ..) (keeps_exitRecord ..))

theorem outKeeps_execDspl (_m : Bool) (kf : BitVec 2) (s : State) : OutKeeps s (execDspl _m kf s) := by
  unfold execDspl
  refine outKeeps_onSlot ?_
  intro k
  dsimp only
  split
  · exact Keeps.refl _
  · split
    · exact keeps_ite (keeps_branch ..) (keeps_ite (keeps_joinWork ..) (keeps_exitRecord ..))
    · exact keeps_ite (keeps_branch ..) (keeps_ite (keeps_joinWork ..) (keeps_exitRecord ..))

theorem outKeeps_execYield (_r : Record) (s : State) : OutKeeps s (execYield _r s) :=
  outKeeps_onSlot (fun k => .comp (keeps_onSlotOf ..) (keeps_stepOn ..))

theorem outKeeps_execTrap (r : Record) (s : State) : OutKeeps s (execTrap r s) := outKeeps_onSlot (fun k => keeps_trapState ..)

theorem outKeeps_execBrk (r : Record) (s : State) : OutKeeps s (execBrk r s) :=
  outKeeps_onSlot (fun k => keeps_ite (keeps_takeTrap ..) (keeps_takeStop ..))

theorem outKeeps_execFetchMarker (cause : BitVec 16) (s : State) : OutKeeps s (execFetchMarker cause s) :=
  outKeeps_onSlot (fun k => keeps_takeStop ..)

theorem outKeeps_execWin (_m : Bool) (woff : BitVec 7) (ub : Bool) (s : State) : OutKeeps s (execWin _m woff ub s) :=
  outKeeps_onSlot (fun k => .comp (keeps_onSlotOf ..) (keeps_advance ..))

theorem outKeeps_execDlit (_m : Bool) (p : BitVec 24) (s : State) : OutKeeps s (execDlit _m p s) :=
  outKeeps_onSlot (fun k => .comp (keeps_onSlotOf ..) (keeps_advance ..))

end Sys2Proof.Proofs.Keep
end

section
/-! SUPPORT. Memory records, placing of waves and task records keep the memories canonical. -/

open Sys2Proof Sys2Proof.Machine Sys2Proof.Cert
open Sys2Proof.Proofs.Home Sys2Proof.Proofs.Moves Sys2Proof.Proofs.Lower Sys2Proof.Proofs.Partitions Sys2Proof.Proofs.Stops

namespace Sys2Proof.Proofs.Keep

/-! ## Memory records -/

theorem keeps_parkRecord (s : State) (k : Ctx) (page : Nat) : Keeps s (parkRecord s k page) := .comp (keeps_slotWaits ..) (.of_same rfl rfl rfl)

theorem keeps_fenceSees (s : State) (k : Ctx) (g : Nat) : Keeps s (fenceSees s k g) := keeps_onSlotOf ..

theorem keeps_startAccess (k : Ctx) (i : Instr) (r : Record) (cap : List (Nat × Bool) × SMap Word) (grp : Nat) (s : State) (p : Req × Checked) :
    Keeps s (startAccess k i r cap grp s p) := by
  unfold startAccess
  split
  · exact Keeps.refl s
  have hm := keeps_markChecked s k.wave.part p.1.need p.2
  dsimp only
  split
  · rename_i e _
    have hl := hm.trans (keeps_quiet (quiet_latchCount (markChecked s k.wave.part p.1.need p.2) k.wave.part e))
    split
    · exact hl
    · exact Keeps.mem hl rfl rfl rfl
  · split
    · exact hm
    · exact Keeps.mem hm rfl rfl rfl

theorem keeps_performGroup (s : State) (grp : Nat) : Keeps s (performGroup s grp).1 := by
  unfold performGroup
  refine Keeps.trans ?_ (keeps_foldl_fst (fun p x => ?_) _ _)
  · exact Keeps.refl _
  · split
    · exact Keeps.refl _
    · split
      · dsimp only
        split
        · exact keeps_finishAccess ..
        · exact keeps_finishAccess ..
      · exact Keeps.refl _

theorem keeps_trapAccess (s : State) (k : Ctx) (i : Instr) (fs : List (Nat × Fail)) (grp : Nat) : Keeps s (trapAccess s k i fs grp) := by
  unfold trapAccess
  dsimp only
  split
  · exact .comp (keeps_lateStop ..) (.comp (keeps_settleWave ..) (keeps_quiet (quiet_carriageDiscard ..)))
  · exact .comp (keeps_settleWave ..) (keeps_quiet (quiet_carriageDiscard ..))
  · exact .comp (keeps_takeStop ..) (keeps_ite (.comp (keeps_settleWave ..) (keeps_quiet (quiet_carriageDiscard ..))) (.comp (keeps_advance ..)
        (.comp (keeps_settleWave ..) (keeps_quiet (quiet_carriageDiscard ..)))))

theorem keeps_runAccesses (s : State) (k : Ctx) (i : Instr) (r : Record) (s1 : State) (reqs : LaneReqs) (hs1 : Keeps s s1) :
    Keeps s (runAccesses s k i r s1 reqs) := by
  unfold runAccesses
  split
  · exact keeps_parkRecord ..
  extract_lets checks fails good grp s2 s3 done all
  have h2 : Keeps s s2 := hs1.trans (keeps_foldl (fun t p => keeps_startAccess ..) _ _)
  have h3 : Keeps s s3 := by
    unfold s3
    split
    · exact h2.trans (keeps_fenceSees ..)
    · exact h2
  have hd : Keeps s done.1 := h3.trans (keeps_fst_ite (Keeps.refl s3) (keeps_performGroup ..))
  exact keeps_ite hd (keeps_ite (hd.trans (keeps_advance ..)) (hd.trans (keeps_trapAccess ..)))

theorem outKeeps_addressRecord (i : Instr) (r : Record) (s : State) (f : Ctx → Nat → Word → Req) : OutKeeps s (addressRecord i r s f) :=
  outKeeps_onSlot (fun k => keeps_runAccesses _ _ _ _ _ _ (Keeps.refl _))

theorem outKeeps_execLd (r : Record) (s : State) : OutKeeps s (execLd r s) := outKeeps_addressRecord ..

theorem outKeeps_execSt (r : Record) (s : State) : OutKeeps s (execSt r s) := outKeeps_addressRecord ..

theorem keeps_bufferPointer (s : State) (k : Ctx) (right size : Nat) (p : Word) : Keeps s (bufferPointer s k right size p).1 := by
  unfold bufferPointer
  split
  · exact Keeps.refl _
  · dsimp only
    split
    · exact keeps_quiet (quiet_resolve ..)
    · exact keeps_fst_ite (keeps_quiet (quiet_resolve ..)) (.comp (keeps_quiet (quiet_latchAcquire ..)) (keeps_quiet (quiet_resolve ..)))

theorem outKeeps_bufferRecord (i : Instr) (r : Record) (s : State) (right : Nat) (f : Ctx → Nat → ResEntry → Word → Req) :
    OutKeeps s (bufferRecord i r s right f) := by
  unfold bufferRecord
  refine outKeeps_onSlot ?_
  intro k
  dsimp only
  refine keeps_runAccesses _ _ _ _ _ _ ?_
  refine Keeps.trans ?_ (keeps_foldl_fst (fun p x => ?_) _ _)
  · exact Keeps.refl _
  · split
    · exact keeps_bufferPointer ..
    · split
      · exact keeps_bufferPointer ..
      · exact keeps_bufferPointer ..

theorem outKeeps_execLdb (r : Record) (s : State) : OutKeeps s (execLdb r s) := outKeeps_bufferRecord ..

theorem outKeeps_execStb (r : Record) (s : State) : OutKeeps s (execStb r s) := outKeeps_bufferRecord ..

theorem outKeeps_execAtom (r : Record) (s : State) : OutKeeps s (execAtom r s) := outKeeps_addressRecord ..

theorem outKeeps_execAtmf (r : Record) (s : State) : OutKeeps s (execAtmf r s) := outKeeps_addressRecord ..

theorem keeps_waitPort (s : State) (k : Ctx) : Keeps s (waitPort s k) := by
  unfold waitPort
  dsimp only
  refine Keeps.trans ?_ (keeps_slotWaits ..)
  split
  · exact keeps_ite (.of_same rfl rfl rfl) (Keeps.refl _)
  · exact keeps_ite (.of_same rfl rfl rfl) (Keeps.refl _)

theorem keeps_fenceWork (s : State) (k : Ctx) (i : Instr) (r : Record) : Keeps s (fenceWork s k i r) := by
  unfold fenceWork
  dsimp only
  split
  · exact keeps_waitPort ..
  · split
    · exact .comp (keeps_advance ..) (keeps_quiet (quiet_acquireL1 ..))
    · exact .comp (keeps_trapFails ..) (keeps_foldl (fun s x => keeps_clearLost ..) _ _)

theorem outKeeps_execFence (r : Record) (s : State) : OutKeeps s (execFence r s) := outKeeps_onSlot (fun k => keeps_fenceWork ..)

theorem outKeeps_execFenceEng (r : Record) (s : State) : OutKeeps s (execFenceEng r s) := outKeeps_onSlot (fun k => keeps_fenceWork ..)

theorem outKeeps_execSpct (r : Record) (s : State) : OutKeeps s (execSpct r s) := outKeeps_laneOp ..

theorem outKeeps_execSpcc (r : Record) (s : State) : OutKeeps s (execSpcc r s) := outKeeps_laneOp ..

theorem keeps_prefetchLine (s : State) (k : Ctx) (a : Word) : Keeps s (prefetchLine s k a) := by
  unfold prefetchLine
  split
  · exact Keeps.refl _
  · split
    · exact Keeps.refl _
    · split
      · exact keeps_ite (Keeps.refl _) (keeps_fillL1 ..)
      · exact Keeps.refl _

theorem outKeeps_execPfd (r : Record) (s : State) : OutKeeps s (execPfd r s) :=
  outKeeps_onSlot (fun k => .comp (keeps_advance ..) (keeps_ite (keeps_foldl (fun s x => keeps_prefetchLine ..) _ _) (Keeps.refl _)))

theorem keeps_askLowering (s : State) (q : LowerReq) : Keeps s (askLowering s q) :=
  keeps_ite (Keeps.refl _) (keeps_ite (keeps_ite (Keeps.refl _) (.of_same rfl rfl rfl)) (.of_same rfl rfl rfl))

theorem keeps_prefetchBlocks (s : State) (k : Ctx) (a : Word) (len : Nat) : Keeps s (prefetchBlocks s k a len) := by
  unfold prefetchBlocks
  dsimp only
  refine Keeps.trans ?_ (keeps_foldl (fun s x => ?_) _ _)
  · exact keeps_quiet (quiet_markFetch ..)
  · split
    · exact keeps_ite (keeps_askLowering ..) (Keeps.refl _)
    · exact keeps_ite (keeps_askLowering ..) (Keeps.refl _)

theorem outKeeps_execPfi (r : Record) (s : State) : OutKeeps s (execPfi r s) :=
  outKeeps_onSlot (fun k => .comp (keeps_advance ..) (keeps_prefetchBlocks ..))

theorem keeps_queryEntry (s : State) (k : Ctx) (fn : Nat) (h : Word) : Keeps s (queryEntry s k fn h).1 := by
  unfold queryEntry
  dsimp only
  split
  · exact Keeps.refl _
  · split
    · exact keeps_quiet (quiet_readEntry ..)
    · exact keeps_fst_ite (keeps_quiet (quiet_readEntry ..)) (keeps_fst_ite (keeps_quiet (quiet_readEntry ..)) (.comp (keeps_quiet
          (quiet_latchAcquire ..)) (keeps_quiet (quiet_readEntry ..))))

theorem outKeeps_execRqry (r : Record) (s : State) : OutKeeps s (execRqry r s) := by
  refine outKeeps_onSlot (fun k => ?_)
  extract_lets res vals s1
  have hr : Keeps s res.1 := by
    refine keeps_foldl_fst (fun p l => ?_) _ (s, [], [])
    dsimp only
    split
    · exact keeps_queryEntry ..
    · exact keeps_queryEntry ..
  have h1 : Keeps s s1 := hr.trans (keeps_writeResults ..)
  exact keeps_ite hr (keeps_ite (h1.trans (keeps_advance ..)) (h1.trans (keeps_trapFails ..)))

theorem outKeeps_execChase (r : Record) (s : State) : OutKeeps s (execChase r s) :=
  outKeeps_onSlot (fun k => keeps_runAccesses _ _ _ _ _ _ (Keeps.refl _))


/-! ## Waves in their places -/

theorem keeps_setRegion (s : State) (c : Nat) (r : Region) : Keeps s (setRegion s c r) := keeps_onCore ..

theorem keeps_gateRegion (s : State) (c : Nat) (g : Gate) : Keeps s (gateRegion s c g) := by
  unfold gateRegion
  split
  · exact Keeps.refl _
  · exact keeps_ite (keeps_setRegion ..) (Keeps.refl _)

theorem keeps_faultRegion (s : State) (c : Nat) (cause : BitVec 8) (rcd lane : Nat) (addr : Word) :
    Keeps s (faultRegion s c cause rcd lane addr) := by
  unfold faultRegion
  split
  · exact Keeps.refl _
  · dsimp only
    split
    · exact keeps_gateRegion ..
    · split
      · exact Keeps.refl _
      · exact keeps_setRegion ..

theorem keeps_installWave (s : State) (c : Nat) (n : NewWave) : Keeps s (installWave s c n) := by
  unfold installWave
  exact .comp (keeps_onCore ..) (.of_same rfl rfl rfl)


/-! ## Tasks and bins -/

theorem keeps_pushDeque (s : State) (c : Nat) (t : TaskRec) : Keeps s (pushDeque s c t) := by
  unfold pushDeque
  exact .comp (keeps_onCore ..) (keeps_quiet (quiet_placeWrite ..))

theorem keeps_pushStage (s : State) (c : Nat) (t : TaskRec) : Keeps s (pushStage s c t) := keeps_onCore ..

theorem keeps_refuseBin (s : State) (c : Nat) (b : Bin) : Keeps s (refuseBin s c b) := by
  unfold refuseBin
  dsimp only
  refine Keeps.trans ?_ (keeps_foldl (fun s x => ?_) _ _)
  · exact keeps_quiet (quiet_logEvent ..)
  · split
    · exact keeps_ownCellFail ..
    · exact Keeps.refl _

theorem keeps_binWave (s : State) (c : Nat) (b : Bin) (f : FoundBlock) (d : EntryDesc) (sp : Spot) : Keeps s (binWave s c b f d sp) := by
  unfold binWave
  dsimp only
  split
  · exact keeps_installWave ..
  · exact .comp (keeps_onCore ..) (keeps_installWave ..)

theorem keeps_launchBin (s : State) (c i : Nat) : Keeps s (launchBin s c i) := by
  unfold launchBin
  split
  · exact Keeps.refl _
  · split
    · exact keeps_onCore ..
    · dsimp only
      split
      · exact .comp (keeps_refuseBin ..) (.comp (keeps_onCore ..) (keeps_quiet (quiet_markBlocks ..)))
      · split
        · exact .comp (keeps_onCore ..) (keeps_quiet (quiet_markBlocks ..))
        · exact .comp (keeps_binWave ..) (.comp (keeps_onCore ..) (keeps_quiet (quiet_markBlocks ..)))

theorem keeps_joinBin (s : State) (c i : Nat) (b : Bin) (t : TaskRec) : Keeps s (joinBin s c i b t) :=
  keeps_ite (.comp (keeps_launchBin ..) (keeps_onCore ..)) (keeps_onCore ..)

theorem keeps_startBin (s : State) (c : Nat) (t : TaskRec) : Keeps s (startBin s c t) := keeps_onCore ..

theorem keeps_handleRecord (s : State) (c : Nat) (t : TaskRec) : Keeps s (handleRecord s c t) := by
  unfold handleRecord
  dsimp only
  split
  · split
    · exact keeps_joinBin ..
    · exact Keeps.refl _
  · exact keeps_ite (keeps_startBin ..) (keeps_ite (.comp (keeps_startBin ..) (keeps_launchBin ..)) (.comp (keeps_onCore ..) (keeps_launchBin ..)))

theorem optKeeps_launchAlone (s : State) (c : Nat) (b : Bin) : OptKeeps s (launchAlone s c b) := by
  unfold launchAlone
  split
  · exact OptKeeps.none
  · dsimp only
    split
    · exact OptKeeps.some (.comp (keeps_refuseBin ..) (keeps_quiet (quiet_markBlocks ..)))
    · exact OptKeeps.map (fun x => .comp (keeps_binWave ..) (keeps_quiet (quiet_markBlocks ..)))

theorem optKeeps_handleEvalRecord (s : State) (c : Nat) (t : TaskRec) : OptKeeps s (handleEvalRecord s c t) := by
  unfold handleEvalRecord
  dsimp only
  split
  · exact OptKeeps.map (fun x => keeps_joinBin ..)
  · exact optKeeps_ite (OptKeeps.some (keeps_startBin ..)) (optKeeps_launchAlone ..)

theorem keeps_handleBlocked (s : State) (c : Nat) : Keeps s (handleBlocked s c) := by
  unfold handleBlocked
  dsimp only
  split
  · exact Keeps.refl _
  · split
    · exact Keeps.refl _
    · exact Keeps.getD (OptKeeps.after (keeps_onCore ..) (optKeeps_handleEvalRecord ..))

theorem outKeeps_execDequePop (core : Nat) (s : State) : OutKeeps s (execDequePop core s) := by
  unfold execDequePop
  refine OutKeeps.next ?_
  dsimp only
  split
  · exact Keeps.refl _
  · split
    · exact keeps_handleBlocked ..
    · split
      · exact keeps_ite (keeps_onCore ..) (.comp (keeps_handleRecord ..) (keeps_onCore ..))
      · exact keeps_ite (Keeps.refl _) (keeps_ite (keeps_onCore ..) (.comp (keeps_handleRecord ..) (keeps_onCore ..)))

theorem outKeeps_execBinTimerExpiry (core bin : Nat) (s : State) : OutKeeps s (execBinTimerExpiry core bin s) := by
  unfold execBinTimerExpiry
  refine OutKeeps.next ?_
  split
  · exact keeps_ite (keeps_launchBin ..) (Keeps.refl _)
  · exact Keeps.refl _

theorem outKeeps_execBinLaunch (core bin : Nat) (s : State) : OutKeeps s (execBinLaunch core bin s) := by
  unfold execBinLaunch
  refine OutKeeps.next ?_
  split
  · exact keeps_ite (keeps_launchBin ..) (Keeps.refl _)
  · exact Keeps.refl _

theorem outKeeps_execSteal (thief victim : Nat) (s : State) : OutKeeps s (execSteal thief victim s) :=
  OutKeeps.next (keeps_ite (Keeps.refl _) (.comp (keeps_onCore ..) (keeps_onCore ..)))

theorem outKeeps_execEvalRecordMove (src bin dst : Nat) (s : State) : OutKeeps s (execEvalRecordMove src bin dst s) := by
  unfold execEvalRecordMove
  refine OutKeeps.next ?_
  split
  · exact Keeps.refl _
  · dsimp only
    split
    · exact Keeps.refl _
    · split
      · exact keeps_ite (Keeps.refl _) (.comp (keeps_pushStage ..) (.comp (keeps_onCore ..) (keeps_quiet (quiet_readEntry ..))))
      · exact keeps_ite (Keeps.refl _) (.comp (keeps_pushStage ..) (.comp (keeps_onCore ..) (keeps_quiet (quiet_readEntry ..))))

theorem keeps_afterRelease (s : State) (k : Ctx) (f : State) (hf : Keeps s f) : Keeps s (afterRelease s k f) := by
  unfold afterRelease
  split
  · exact keeps_waitPort ..
  · assumption

theorem keeps_pushLanes (s : State) (c : Nat) (ls : List (Nat × TaskRec)) : Keeps s (pushLanes s c ls).1 := by
  induction ls generalizing s with
  | nil => exact Keeps.refl s
  | cons p r ih =>
    obtain ⟨l, t⟩ := p
    unfold pushLanes
    split
    · exact (keeps_pushStage ..).trans (ih _)
    · split
      · exact (keeps_pushDeque ..).trans (ih _)
      · exact Keeps.refl s

theorem keeps_waitDeque (s : State) (k : Ctx) (i : Instr) (left : List Nat) : Keeps s (waitDeque s k i left) :=
  .comp (keeps_onWave ..) (.comp (keeps_advance ..) (keeps_ite (Keeps.refl _) (.of_same rfl rfl rfl)))

theorem outKeeps_execSpawnTask (r : Record) (s : State) : OutKeeps s (execSpawnTask r s) :=
  outKeeps_onSlot (fun k => keeps_ite (.comp (keeps_advance ..) (keeps_onSlotOf ..)) (keeps_afterRelease _ _ _ (keeps_ite (.comp (keeps_advance ..)
      (keeps_pushLanes ..)) (.comp (keeps_waitDeque ..) (keeps_pushLanes ..)))))

end Sys2Proof.Proofs.Keep
end

section
/-! SUPPORT. Launches, cells, carriages, barriers and streams keep the memories canonical. -/

open Sys2Proof Sys2Proof.Machine Sys2Proof.Cert
open Sys2Proof.Proofs.Home Sys2Proof.Proofs.Moves Sys2Proof.Proofs.Lower Sys2Proof.Proofs.Partitions Sys2Proof.Proofs.Stops

namespace Sys2Proof.Proofs.Keep

/-! ## Launches -/

theorem keeps_launchBytes (s : State) (p : Nat) (secure : Bool) (va : Word) (n : Nat) : Keeps s (launchBytes s p secure va n).1 := by
  unfold launchBytes
  dsimp only
  split
  · split
    · dsimp only
      split
      · exact .comp (keeps_quiet (quiet_lostCell ..)) (keeps_quiet (quiet_readChunks ..))
      · exact keeps_quiet (quiet_readChunks ..)
    · exact keeps_quiet (quiet_readChunks ..)
  · exact keeps_quiet (quiet_readChunks ..)

theorem keeps_launchList (s : State) (p : Nat) (secure : Bool) (va : Word) (n : Nat) : Keeps s (launchList s p secure va n).1 :=
  keeps_fst_ite (Keeps.refl _) (keeps_launchBytes ..)

theorem keeps_readLaunch (s : State) (p : Nat) (secure : Bool) (va : Word) : Keeps s (readLaunch s p secure va).1 := by
  unfold readLaunch
  split
  · exact Keeps.refl _
  · split
    · exact Keeps.refl _
    · dsimp only
      split
      · exact keeps_launchBytes ..
      · exact keeps_fst_ite (keeps_launchBytes ..) (.comp (keeps_launchList ..) (.comp (keeps_launchList ..) (keeps_launchBytes ..)))

theorem keeps_inputCell (s : State) (p : Nat) (secure touch : Bool) (id : Nat) (va : Word) :
    Keeps s (inputCell s p secure touch id va).1 := by
  unfold inputCell
  split
  · exact Keeps.refl s
  split
  · exact keeps_quiet (Sys2Proof.Proofs.Stops.quiet_logWorld ..)
  rename_i x _
  have hx : Keeps s (xlatMark s p .load va x.leaf) := keeps_quiet (quiet_xlatMark ..)
  generalize xlatMark s p .load va x.leaf = t at hx
  dsimp only
  split
  · split
    · exact hx
    split
    · exact hx
    split
    · split
      · exact hx.trans (keeps_quiet (quiet_lostCell ..))
      · split
        · exact Keeps.mem hx rfl rfl rfl
        · exact hx
    split
    · exact hx.trans (keeps_wakeCell ..)
    · exact hx
  · exact hx

theorem keeps_inputCells (s : State) (p : Nat) (secure touch : Bool) (id : Nat) (st : InputSt) (ins : List Word) :
    Keeps s (inputCells s p secure touch id st ins).1 := by
  unfold inputCells
  refine Keeps.trans ?_ (keeps_foldl_fst (fun p x => ?_) _ _)
  · dsimp only
    exact Keeps.refl _
  · dsimp only
    exact keeps_inputCell ..

theorem keeps_launchInputs (s : State) (l : Launch) (touch : Bool) : Keeps s (launchInputs s l touch).1 := by
  unfold launchInputs
  split
  · exact .comp (keeps_inputCells ..) (keeps_inputCell ..)
  · exact keeps_inputCells ..

theorem keeps_makeReady (s : State) (id : Nat) : Keeps s (makeReady s id) := .of_same rfl rfl rfl

theorem keeps_acceptLaunch (s : State) (c w lane : Nat) (rd : LaunchRead) : Keeps s (acceptLaunch s c w lane rd) := by
  unfold acceptLaunch
  split
  · exact Keeps.refl s
  extract_lets p s1 sec bs kernel flags wantsAdopt adopt cl0 ncl found first pred world bad id l s2 s3 r
  have h2 : Keeps s s2 := Keeps.mem (keeps_quiet (quiet_markBlocks s p)) rfl rfl rfl
  have h3 : Keeps s s3 := h2.trans (keeps_ite (keeps_onWave ..) (Keeps.refl s2))
  have hr : Keeps s r.1 := h3.trans (keeps_launchInputs ..)
  clear_value r s3 bad
  cases bad with
  | some cs => exact .comp (keeps_markLaunchFailed ..) h3
  | none =>
    dsimp only
    split
    · exact .comp (keeps_makeReady ..) hr
    · exact hr
    · exact .comp (keeps_markLaunchFailed ..) hr

theorem keeps_readLaunches (s : State) (k : Ctx) (r : Record) : Keeps s (readLaunches s k r).1 := by
  unfold readLaunches
  refine Keeps.trans ?_ (keeps_foldl_fst (fun p x => ?_) _ _)
  · exact Keeps.refl _
  · dsimp only
    split
    · exact keeps_readLaunch ..
    · exact keeps_readLaunch ..

theorem outKeeps_execSpawnLaunch (r : Record) (s : State) : OutKeeps s (execSpawnLaunch r s) := by
  unfold execSpawnLaunch
  refine outKeeps_onSlot ?_
  intro k
  refine keeps_afterRelease _ _ _ ?_
  dsimp only
  split
  · exact keeps_readLaunches ..
  · split
    · exact .comp (keeps_trapFails ..) (keeps_readLaunches ..)
    · split
      · exact .comp (keeps_advance ..) (.comp (keeps_onSlotOf ..) (keeps_readLaunches ..))
      · exact .comp (keeps_advance ..) (.comp (keeps_foldl (fun s x => keeps_acceptLaunch ..) _ _) (keeps_readLaunches ..))

theorem keeps_failCompletion (s : State) (l : Launch) : Keeps s (failCompletion s l) := by
  unfold failCompletion
  split
  · exact keeps_ownCellFail ..
  · split
    · exact Keeps.refl _
    · split
      · exact keeps_quiet (Partitions.quiet_logWorld ..)
      · split
        · dsimp only
          split
          · exact .comp (keeps_cellFail ..) (keeps_quiet (quiet_xlatMark ..))
          · exact .comp (keeps_quiet (quiet_cellPut ..)) (keeps_quiet (quiet_xlatMark ..))
        · exact Keeps.refl _

theorem keeps_dropLaunch (s : State) (id : Nat) : Keeps s (dropLaunch s id) := .of_same rfl rfl rfl

theorem keeps_reportFailed (s : State) (l : Launch) : Keeps s (reportFailed s l) :=
  .comp (keeps_dropLaunch ..) (.comp (keeps_failCompletion ..) (keeps_quiet (quiet_logEvent ..)))

theorem outKeeps_execLaunchReady (launch : Nat) (s : State) : OutKeeps s (execLaunchReady launch s) := by
  unfold execLaunchReady
  refine OutKeeps.next ?_
  split
  · exact Keeps.refl _
  · split
    · exact keeps_reportFailed ..
    · dsimp only
      split
      · exact .comp (keeps_makeReady ..) (keeps_launchInputs ..)
      · exact keeps_launchInputs ..
      · exact .comp (keeps_markLaunchFailed ..) (keeps_launchInputs ..)
    · split
      · exact Keeps.refl _
      · split
        · exact keeps_markLaunchFailed ..
        · exact Keeps.refl _
    · exact Keeps.refl _

theorem keeps_tenderReads (s : State) (c : Nat) (l : Launch) : Keeps s (tenderReads s c l) := by
  unfold tenderReads
  split
  · exact Keeps.refl _
  · dsimp only
    split
    · exact .comp (keeps_quiet (quiet_markFetch ..)) (.comp (keeps_quiet (quiet_markFetch ..)) (.comp (keeps_quiet (quiet_markFetch ..)) (keeps_quiet
          (quiet_markFetch ..))))
    · exact .comp (keeps_quiet (quiet_markFetch ..)) (keeps_quiet (quiet_markFetch ..))
    · exact keeps_quiet (quiet_markFetch ..)

theorem keeps_placeBlock (s : State) (c : Nat) (l : Launch) (sps : List Spot) : Keeps s (placeBlock s c l sps) := by
  unfold placeBlock
  extract_lets uid s1 g s2 tn s3 b s4
  have h1 : Keeps s s1 := .of_same rfl rfl rfl
  have h2 : Keeps s1 s2 := keeps_foldl (fun t x => keeps_installWave ..) _ _
  have h4 : Keeps s2 s4 := (keeps_tenderReads ..).trans (keeps_onCore ..)
  exact Keeps.mem ((h1.trans h2).trans h4) rfl rfl rfl

theorem outKeeps_execBlockPlace (launch core : Nat) (s : State) : OutKeeps s (execBlockPlace launch core s) := by
  unfold execBlockPlace
  refine OutKeeps.next ?_
  split
  · exact Keeps.refl _
  · split
    · split
      · exact keeps_placeBlock ..
      · exact Keeps.refl _
    · exact Keeps.refl _

theorem outKeeps_execLaunchReserve (launch core : Nat) (s : State) : OutKeeps s (execLaunchReserve launch core s) := by
  unfold execLaunchReserve
  refine OutKeeps.next ?_
  split
  · exact Keeps.refl _
  · exact keeps_ite (keeps_onCore ..) (Keeps.refl _)

theorem outKeeps_execConfigSwap (launch core : Nat) (s : State) : OutKeeps s (execConfigSwap launch core s) := by
  unfold execConfigSwap
  refine OutKeeps.next ?_
  split
  · exact Keeps.refl _
  · exact keeps_ite (keeps_setCore ..) (Keeps.refl _)

theorem outKeeps_execBlockRetire (core block : Nat) (s : State) : OutKeeps s (execBlockRetire core block s) := by
  unfold execBlockRetire
  refine OutKeeps.next ?_
  dsimp only
  split
  · exact Keeps.refl _
  · exact keeps_ite (Keeps.refl _) (.of_same rfl rfl rfl)

theorem keeps_writeDone (s : State) (l : Launch) : Keeps s (writeDone s l) := by
  unfold writeDone
  dsimp only
  split
  · exact keeps_quiet (quiet_logEvent ..)
  · split
    · exact keeps_quiet (quiet_logEvent ..)
    · split
      · exact .comp (keeps_quiet (quiet_logEvent ..)) (keeps_quiet (Partitions.quiet_logWorld ..))
      · split
        · split
          · exact .comp (keeps_cellCommit ..) (.comp (keeps_quiet (quiet_breakTr ..)) (keeps_quiet (quiet_xlatMark ..)))
          · exact .comp (keeps_quiet (quiet_cellPut ..)) (.comp (keeps_quiet (quiet_breakTr ..)) (keeps_quiet (quiet_xlatMark ..)))
        · exact .comp (keeps_quiet (quiet_placeWrite ..)) (.comp (keeps_quiet (quiet_breakTr ..)) (keeps_quiet (quiet_xlatMark ..)))

theorem outKeeps_execLaunchComplete (launch : Nat) (s : State) : OutKeeps s (execLaunchComplete launch s) := by
  unfold execLaunchComplete
  refine OutKeeps.next ?_
  split
  · exact Keeps.refl _
  · split
    · exact Keeps.refl _
    · dsimp only
      refine Keeps.trans ?_ (keeps_dropLaunch ..)
      split
      · split
        · exact keeps_ite (keeps_cellCommit ..) (Keeps.refl _)
        · exact Keeps.refl _
      · exact keeps_ite (Keeps.refl _) (keeps_writeDone ..)


/-! ## Cells and carriages -/

theorem outKeeps_execCellMake (r : Record) (s : State) : OutKeeps s (execCellMake r s) := outKeeps_addressRecord ..

theorem outKeeps_execCellPeek (r : Record) (s : State) : OutKeeps s (execCellPeek r s) := outKeeps_addressRecord ..

theorem outKeeps_commitRecord (i : Instr) (r : Record) (s : State) (op : Ctx → Nat → CellOp) : OutKeeps s (commitRecord i r s op) := by
  refine outKeeps_onSlot (fun k => ?_)
  extract_lets reqs fails good s1 own s2
  have h1 : Keeps s s1 := by
    refine keeps_foldl (fun t p => ?_) _ _
    split
    · exact keeps_markChecked ..
    · exact Keeps.refl t
  have h2 : Keeps s s2 := h1.trans (keeps_onSlotOf ..)
  split
  · exact keeps_parkRecord ..
  · exact keeps_ite h1 (keeps_ite (.comp (keeps_advance ..) h2) (.comp (keeps_trapFails ..) h2))

theorem outKeeps_execCellSet (r : Record) (s : State) : OutKeeps s (execCellSet r s) := outKeeps_commitRecord ..

theorem outKeeps_execCellTag (r : Record) (s : State) : OutKeeps s (execCellTag r s) := outKeeps_commitRecord ..

theorem keeps_commitStore (p : Nat) (n : SlotName) (s : State) (q : Place × List Byte × Bool) : Keeps s (commitStore p n s q) := by
  unfold commitStore
  dsimp only
  split
  · exact Keeps.trans (t := (placeWrite _ _ _ _)) (keeps_quiet (quiet_placeWrite ..)) (keeps_quiet (quiet_setTag ..))
  · exact keeps_quiet (quiet_placeWrite ..)

theorem keeps_commitCell (n : SlotName) (v : Wave) (blk : Nat) (s : State) (q : CellCommit) : Keeps s (commitCell n v blk s q) := by
  unfold commitCell
  split
  · exact Keeps.refl _
  · split
    · exact Keeps.refl _
    · split
      · exact keeps_cellCommit ..
      · exact keeps_cellFail ..

theorem keeps_commitSpawn (c : Nat) (s : State) (t : TaskRec) : Keeps s (commitSpawn c s t) := keeps_ite (keeps_pushDeque ..) (keeps_pushStage ..)

theorem keeps_commitPeers (n : SlotName) (v : Wave) (car : Carriage) (s : State) : Keeps s (commitPeers n v car s) :=
  keeps_ite (.of_same rfl rfl rfl) (Keeps.refl _)

theorem keeps_commitEffects (s : State) (n : SlotName) (v : Wave) (car : Carriage) : Keeps s (commitEffects s n v car) :=
  .comp (keeps_onWave ..) (.comp (keeps_quiet (quiet_acquireL1 ..)) (.comp (keeps_foldl (fun s x => keeps_acceptLaunch ..) _ _) (.comp (keeps_foldl
      (fun s x => keeps_commitSpawn ..) _ _) (.comp (keeps_foldl (fun s x => keeps_commitCell ..) _ _) (.comp (keeps_foldl (fun s x => keeps_quiet
      (quiet_latchRelease ..)) _ _) (.comp (keeps_foldl (fun s x => keeps_commitStore ..) _ _) (.comp (keeps_commitPeers ..) (keeps_ite (.of_same rfl
      rfl rfl) (Keeps.refl _)))))))))

theorem keeps_commitFails (s : State) (n : SlotName) (v : Wave) (t : Slot) (car : Carriage) (bad : List CellCommit) :
    Keeps s (commitFails s n v t car bad) := by
  unfold commitFails
  exact keeps_takeStop ..

theorem keeps_exitFails (s : State) (n : SlotName) (v : Wave) (t : Slot) (car : Carriage) : Keeps s (exitFails s n v t car) := keeps_takeStop ..

theorem keeps_afterCarriage (s : State) (n : SlotName) (t : Slot) (car : Carriage) (nrec : Nat) : Keeps s (afterCarriage s n t car nrec) :=
  keeps_ite (.comp (keeps_endWaveLanes ..) (keeps_onSlotOf ..)) (keeps_ite (keeps_onSlotOf ..) (.comp (keeps_onWave ..) (keeps_onSlotOf ..)))

theorem outKeeps_execCarriageCommit (core slot : Nat) (s : State) : OutKeeps s (execCarriageCommit core slot s) := by
  unfold execCarriageCommit
  refine OutKeeps.next ?_
  dsimp only
  split
  · exact Keeps.refl _
  · split
    · exact Keeps.refl _
    · split
      · exact Keeps.refl _
      · split
        · exact keeps_exitFails ..
        · split
          · exact .comp (keeps_afterCarriage ..) (.comp (keeps_commitEffects ..) (keeps_onSlotOf ..))
          · exact keeps_commitFails ..

theorem keeps_gateForLate (s : State) (a : Access) (d : Damage) : Keeps s (gateForLate s a d) := by
  unfold gateForLate
  dsimp only
  refine Keeps.trans ?_ (keeps_gateRegion ..)
  split
  · exact keeps_applyDamage ..
  · exact Keeps.refl _

theorem outKeeps_execAccessPerformed (id : Nat) (damage : Damage) (s : State) : OutKeeps s (execAccessPerformed id damage s) := by
  unfold execAccessPerformed
  refine OutKeeps.next ?_
  split
  · exact Keeps.refl _
  · split
    · exact Keeps.refl _
    · dsimp only
      split
      · exact keeps_finishAccess ..
      · exact keeps_ite (.comp (keeps_faultRegion ..) (keeps_finishAccess ..)) (keeps_ite (keeps_gateForLate ..) (.comp (keeps_takeLate ..)
            (keeps_finishAccess ..)))

theorem outKeeps_execWalkComplete (part : Nat) (va : Word) (s : State) : OutKeeps s (execWalkComplete part va s) :=
  OutKeeps.next (keeps_ite (Keeps.refl _) (.of_same rfl rfl rfl))


/-! ## Barriers, tags, streams -/

theorem keeps_arrive (s : State) (k : Ctx) (e : Nat) (wait : Bool) : Keeps s (arrive s k e wait) :=
  keeps_ite (.comp (keeps_onCore ..) (keeps_ite (.comp (keeps_slotWaits ..) (.comp (keeps_advance ..) (keeps_onCore ..))) (.comp (keeps_advance ..)
      (keeps_onCore ..)))) (.comp (keeps_slotWaits ..) (keeps_onCore ..))

theorem outKeeps_barrierRecord (i : Instr) (r : Record) (s : State) (wait : Bool) : OutKeeps s (barrierRecord i r s wait) :=
  outKeeps_onSlot (fun k => keeps_ite (keeps_trapState ..) (keeps_afterRelease _ _ _ (keeps_arrive ..)))

theorem outKeeps_execBarWait (r : Record) (s : State) : OutKeeps s (execBarWait r s) := outKeeps_barrierRecord ..

theorem outKeeps_execBarArrive (r : Record) (s : State) : OutKeeps s (execBarArrive r s) := outKeeps_barrierRecord ..

theorem outKeeps_execBexp (r : Record) (s : State) : OutKeeps s (execBexp r s) :=
  outKeeps_onSlot (fun k => keeps_ite (keeps_trapState ..) (.comp (keeps_advance ..) (keeps_onCore ..)))

theorem keeps_waitDone (s : State) (k : Ctx) (r : Record) (v : Word) : Keeps s (waitDone s k r v) :=
  .comp (keeps_sameOp ..) (keeps_quiet (quiet_acquireL1 ..))

theorem outKeeps_execWaitAny (r : Record) (s : State) : OutKeeps s (execWaitAny r s) :=
  outKeeps_onSlot (fun k => keeps_ite (keeps_waitDone ..) (keeps_slotWaits ..))

theorem outKeeps_execWaitAll (r : Record) (s : State) : OutKeeps s (execWaitAll r s) :=
  outKeeps_onSlot (fun k => keeps_ite (keeps_waitDone ..) (keeps_slotWaits ..))

theorem outKeeps_execWaitFirst (r : Record) (s : State) : OutKeeps s (execWaitFirst r s) :=
  outKeeps_onSlot (fun k => keeps_ite (keeps_waitDone ..) (keeps_ite (.comp (keeps_waitDone ..) (keeps_onCore ..)) (keeps_slotWaits ..)))

theorem outKeeps_execWaitRing (r : Record) (s : State) : OutKeeps s (execWaitRing r s) := by
  unfold execWaitRing
  refine outKeeps_onSlot ?_
  intro k
  dsimp only
  split
  · exact .comp (keeps_trapFails ..) (keeps_quiet (quiet_resolve ..))
  · exact keeps_ite (.comp (keeps_sameOp ..) (.comp (keeps_quiet (quiet_acquireL1 ..)) (keeps_quiet (quiet_resolve ..)))) (.comp (keeps_slotWaits ..)
        (keeps_quiet (quiet_resolve ..)))

theorem outKeeps_execTagsRead (r : Record) (s : State) : OutKeeps s (execTagsRead r s) := outKeeps_onSlot (fun k => keeps_sameOp ..)

theorem outKeeps_execTagsClr (r : Record) (s : State) : OutKeeps s (execTagsClr r s) :=
  outKeeps_onSlot (fun k => .comp (keeps_sameOp ..) (keeps_onCore ..))

theorem outKeeps_execSpop (r : Record) (s : State) : OutKeeps s (execSpop r s) := by
  unfold execSpop
  refine outKeeps_onSlot ?_
  intro k
  dsimp only
  split
  · exact keeps_trapState ..
  · split
    · exact .comp (keeps_sameOp ..) (.comp (keeps_quiet (quiet_acquireL1 ..)) (keeps_onCore ..))
    · exact keeps_slotWaits ..

theorem outKeeps_execSrel (r : Record) (s : State) : OutKeeps s (execSrel r s) := by
  unfold execSrel
  refine outKeeps_onSlot ?_
  intro k
  dsimp only
  split
  · exact keeps_trapState ..
  · exact keeps_afterRelease _ _ _ (.comp (keeps_advance ..) (keeps_onCore ..))

end Sys2Proof.Proofs.Keep
end

section
/-! SUPPORT. Engine commands, the tender and the lowering engine keep the memories canonical. -/

open Sys2Proof Sys2Proof.Machine Sys2Proof.Cert
open Sys2Proof.Proofs.Home Sys2Proof.Proofs.Moves Sys2Proof.Proofs.Lower Sys2Proof.Proofs.Partitions Sys2Proof.Proofs.Stops

namespace Sys2Proof.Proofs.Keep

/-! ## Engine commands -/

theorem keeps_ringOf (s : State) (k : Ctx) (wanted : Bool) (h : W32) : Keeps s (ringOf s k wanted h).1 :=
  keeps_fst_ite (Keeps.refl _) (keeps_quiet (quiet_resolve ..))

theorem keeps_sendCmd (r : Record) (s : State) (k : Ctx) (l : Nat) : Keeps s (sendCmd r s k l).1 := by
  unfold sendCmd
  dsimp only
  split
  · exact keeps_ringOf ..
  · exact keeps_ringOf ..

theorem keeps_copyTarget (s : State) (k : Ctx) (out : Bool) (a : Word) (len : Nat) : Keeps s (copyTarget s k out a len).1 :=
  keeps_fst_ite (Keeps.refl _) (keeps_quiet (quiet_resolve ..))

theorem keeps_copyCmd (r : Record) (s : State) (k : Ctx) (l : Nat) : Keeps s (copyCmd r s k l).1 := by
  unfold copyCmd
  dsimp only
  split
  · exact .comp (keeps_ringOf ..) (keeps_copyTarget ..)
  · split
    · exact .comp (keeps_ringOf ..) (keeps_copyTarget ..)
    · exact .comp (keeps_ringOf ..) (keeps_copyTarget ..)
    · exact .comp (keeps_ringOf ..) (keeps_copyTarget ..)

theorem keeps_publCmd (r : Record) (s : State) (k : Ctx) (l : Nat) : Keeps s (publCmd r s k l).1 := by
  unfold publCmd
  dsimp only
  split
  · exact .comp (keeps_ringOf ..) (keeps_quiet (quiet_resolve ..))
  · exact .comp (keeps_ringOf ..) (keeps_quiet (quiet_resolve ..))

theorem keeps_completeCmd (s : State) (c : Nat) (q : Cmd) : Keeps s (completeCmd s c q) := by
  unfold completeCmd
  dsimp only
  refine Keeps.trans ?_ (keeps_onCore ..)
  split
  · split
    · exact keeps_ite (.comp (keeps_onCore ..) (.comp (keeps_quiet (quiet_latchRelease ..)) (keeps_postRecord ..))) (.comp (keeps_quiet
          (quiet_latchRelease ..)) (keeps_postRecord ..))
    · exact keeps_ite (.comp (keeps_onCore ..) (keeps_quiet (quiet_latchRelease ..))) (keeps_quiet (quiet_latchRelease ..))
  · split
    · exact keeps_ite (.comp (keeps_onCore ..) (keeps_postRecord ..)) (keeps_postRecord ..)
    · exact keeps_ite (keeps_onCore ..) (Keeps.refl _)

/-- A counted command counts itself on the entry that it has latched (R281). -/
def latchCounted (s : State) (q : Cmd) (l : Latch) : State :=
  match readEntry true s q.part q.secure l.idx with
  | (s, .ok e) => latchCount s q.part e
  | (s, .error _) => s

theorem keeps_latchCounted (s : State) (q : Cmd) (l : Latch) : Keeps s (latchCounted s q l) := by
  have hr : Keeps s (readEntry true s q.part q.secure l.idx).1 := keeps_quiet (quiet_readEntry ..)
  unfold latchCounted
  split
  · rename_i heq
    rw [heq] at hr
    exact hr.trans (keeps_quiet (quiet_latchCount ..))
  · rename_i heq
    rw [heq] at hr
    exact hr

/-- The command with its number and the owner of its barrier entry. -/
def numbered (c : Nat) (s : State) (q : Cmd) : Cmd := { q with id := s.nextUid, owner := (groupOf (coreOf s q.dstCore) q.bent).owner }

/-- The command in its engine, its tag counted. -/
def listed (c : Nat) (s : State) (q : Cmd) : State :=
  onCore { s with nextUid := s.nextUid + 1 } c (fun k => { k with
    tagBits := k.tagBits &&& ~~~((1 : Word) <<< q.tag), tagCnt := smSet 0 k.tagCnt q.tag (smGet 0 k.tagCnt q.tag + 1), cmds := k.cmds ++ [q] })

theorem keeps_listed (c : Nat) (s : State) (q : Cmd) : Keeps s (listed c s q) := .of_same rfl rfl rfl

/-- The command with its entry latched. -/
def latched (c : Nat) (s : State) (q : Cmd) : State :=
  match q.latch with
  | none => s
  | some l => if q.counted then latchCounted (latchAcquire s c) q l else latchAcquire s c

theorem keeps_latched (c : Nat) (s : State) (q : Cmd) : Keeps s (latched c s q) := by
  have ha : Keeps s (latchAcquire s c) := keeps_quiet (quiet_latchAcquire ..)
  unfold latched
  split
  · exact Keeps.refl s
  · split
    · exact ha.trans (keeps_latchCounted ..)
    · exact ha

theorem startCmd_eq (c : Nat) (s : State) (q : Cmd) :
    startCmd c s q = (if (numbered c s q).len = 0 && (numbered c s q).kind ≠ .publ then
        completeCmd (latched c (listed c s (numbered c s q)) (numbered c s q)) c (numbered c s q)
      else latched c (listed c s (numbered c s q)) (numbered c s q)) := rfl

theorem keeps_startCmd (c : Nat) (s : State) (q : Cmd) : Keeps s (startCmd c s q) := by
  have h := (keeps_listed c s (numbered c s q)).trans (keeps_latched c (listed c s (numbered c s q)) (numbered c s q))
  rw [startCmd_eq]
  split
  · exact h.trans (keeps_completeCmd ..)
  · exact h

theorem outKeeps_commandRecord (i : Instr) (r : Record) (s : State) (form : State → Ctx → Nat → State × Except Fail Cmd)
    (hform : ∀ s k l, Keeps s (form s k l).1) : OutKeeps s (commandRecord i r s form) := by
  refine outKeeps_onSlot (fun k => ?_)
  extract_lets ls q
  have hq : Keeps s q.1 := by
    refine keeps_foldl_fst (fun p l => ?_) _ (s, [], [])
    dsimp only
    split
    · exact hform ..
    · exact hform ..
  split
  · exact hq.trans (keeps_trapFails ..)
  split
  · exact keeps_slotWaits ..
  split
  · exact keeps_slotWaits ..
  · exact (hq.trans (keeps_foldl (fun t c => keeps_startCmd ..) _ _)).trans (keeps_advance ..)

theorem outKeeps_execSend (r : Record) (s : State) : OutKeeps s (execSend r s) :=
  outKeeps_commandRecord _ _ _ _ (fun s k l => keeps_sendCmd r s k l)

theorem outKeeps_execCopy (r : Record) (s : State) : OutKeeps s (execCopy r s) :=
  outKeeps_commandRecord _ _ _ _ (fun s k l => keeps_copyCmd r s k l)

theorem outKeeps_execPubl (r : Record) (s : State) : OutKeeps s (execPubl r s) := by
  unfold execPubl
  split
  · split
    · exact .next (keeps_waitPort ..)
    · exact outKeeps_commandRecord _ _ _ _ (fun s k l => keeps_publCmd r s k l)
  · exact .fault

theorem keeps_putCmd (s : State) (c : Nat) (q : Cmd) : Keeps s (putCmd s c q) := keeps_onCore ..

theorem keeps_cmdTells (s : State) (c : Nat) (q : Cmd) (cause : BitVec 8) (d : Side) : Keeps s (cmdTells s c q cause d).1 := by
  unfold cmdTells
  extract_lets ev
  clear_value ev
  split
  · exact Keeps.refl s
  · dsimp only
    exact keeps_quiet (quiet_logEvent ..)

theorem keeps_cmdFails (s : State) (c : Nat) (q : Cmd) (cause : BitVec 8) (d : Side) : Keeps s (cmdFails s c q cause d).1 := keeps_cmdTells ..

theorem keeps_sideFails (s : State) (c : Nat) (q : Cmd) (cause : BitVec 8) (d : Side) : Keeps s (sideFails s c q cause d).1 := by
  unfold sideFails
  split
  · split
    · exact keeps_fst_ite (keeps_cmdFails ..) (.comp (keeps_cmdFails ..) (keeps_foldl (fun s x => keeps_quiet (quiet_lostCell ..)) _ _))
    · exact keeps_cmdFails ..
  · exact keeps_cmdFails ..

theorem keeps_readPiece (s : State) (c : Nat) (q : Cmd) (i n : Nat) : Keeps s (readPiece s c q i n).1 := by
  unfold readPiece
  dsimp only
  split
  · exact keeps_sideFails ..
  · split
    · exact keeps_fst_ite (.comp (keeps_cmdFails ..) (keeps_quiet (quiet_xlatMark ..))) (keeps_quiet (quiet_xlatMark ..))
    · exact keeps_fst_ite (keeps_cmdFails ..) (Keeps.refl _)

theorem keeps_writePiece (s : State) (c : Nat) (q : Cmd) (i : Nat) (bs : List (Option (Option Byte))) : Keeps s (writePiece s c q i bs).1 := by
  unfold writePiece
  extract_lets d w got whole
  split
  · exact keeps_sideFails ..
  extract_lets s1 s2 high s3
  have h1 : Keeps s s1 := by
    unfold s1
    split
    · exact .comp (keeps_quiet (quiet_breakTr ..)) (keeps_quiet (quiet_xlatMark ..))
    · exact Keeps.refl s
  have h2 : Keeps s1 s2 := by
    refine keeps_ite (keeps_quiet (quiet_placeWrite ..)) (keeps_foldl (fun t p => ?_) _ _)
    split
    · exact keeps_quiet (quiet_placeWrite ..)
    · exact Keeps.refl t
  have h3 : Keeps s2 s3 := keeps_ite (keeps_quiet (quiet_clearWord ..)) (Keeps.refl s2)
  exact keeps_fst_ite (Keeps.refl s) ((h1.trans h2).trans h3)

theorem keeps_moveOne (s : State) (c : Nat) (q : Cmd) (m : Nat × List (Nat × Nat)) : Keeps s (moveOne s c q m).1 :=
  .comp (keeps_foldl_fst (fun p x => keeps_writePiece ..) _ _) (keeps_readPiece ..)

theorem keeps_moveWords (c n : Nat) (s : State) (q : Cmd) : Keeps s (moveWords c n s q).1 := by
  induction n generalizing s q with
  | zero => exact Keeps.refl s
  | succ n ih =>
    unfold moveWords
    split
    · exact Keeps.refl s
    dsimp only
    split
    · exact Keeps.refl s
    · exact (keeps_moveOne ..).trans (ih _ _)

theorem keeps_asEngine (s : State) (c : Nat) (f : State → State) (hf : ∀ t, Keeps t (f t)) : Keeps s (asEngine s c f) :=
  have h : Keeps s { s with cur := { s.cur with who := .engine c } } := .of_same rfl rfl rfl
  Keeps.mem (h.trans (hf _)) rfl rfl rfl

theorem keeps_engineBeat (s : State) (c id n : Nat) : Keeps s (engineBeat s c id n) := by
  unfold engineBeat
  refine keeps_asEngine _ _ _ ?_
  intro t
  split
  · exact Keeps.refl _
  · exact keeps_ite (Keeps.refl _) (.comp (keeps_putCmd ..) (keeps_moveWords ..))

theorem keeps_fillSlotOf (s : State) (q : Cmd) : Keeps s (fillSlotOf s q) := keeps_ite (Keeps.refl _) (keeps_onCore ..)

theorem keeps_cmdDamage (s : State) (c : Nat) (q : Cmd) (d : Damage) : Keeps s (cmdDamage s c q d) := by
  unfold cmdDamage
  split
  · exact keeps_applyDamage ..
  · exact Keeps.refl _

theorem keeps_dropSend (s : State) (c : Nat) (q : Cmd) : Keeps s (dropSend s c q) := keeps_ite (Keeps.refl _) (keeps_onCore ..)

theorem keeps_abortCmd (s : State) (c id : Nat) : Keeps s (abortCmd s c id) := by
  unfold abortCmd
  refine keeps_asEngine _ _ _ ?_
  intro t
  split
  · exact Keeps.refl _
  · exact .comp (keeps_completeCmd ..) (.comp (keeps_fillSlotOf ..) (keeps_dropSend ..))

theorem outKeeps_execEngineComplete (core cmd : Nat) (damage : Damage) (s : State) : OutKeeps s (execEngineComplete core cmd damage s) := by
  unfold execEngineComplete
  refine OutKeeps.next ?_
  refine keeps_asEngine _ _ _ ?_
  intro t
  split
  · exact Keeps.refl _
  · split
    · dsimp only
      split
      · split
        · exact .comp (keeps_putCmd ..) (.comp (keeps_moveWords ..) (keeps_cmdDamage ..))
        · exact keeps_ite (.comp (keeps_putCmd ..) (.comp (keeps_putCmd ..) (.comp (keeps_moveWords ..) (keeps_cmdDamage ..)))) (.comp
              (keeps_completeCmd ..) (.comp (keeps_fillSlotOf ..) (.comp (keeps_putCmd ..) (.comp (keeps_moveWords ..) (keeps_cmdDamage ..)))))
      · exact keeps_ite (.comp (keeps_putCmd ..) (keeps_moveWords ..)) (keeps_ite (.comp (keeps_putCmd ..) (.comp (keeps_putCmd ..) (keeps_moveWords
            ..))) (.comp (keeps_completeCmd ..) (.comp (keeps_fillSlotOf ..) (.comp (keeps_putCmd ..) (keeps_moveWords ..)))))
    · exact keeps_completeCmd ..
    · exact Keeps.refl _

theorem keeps_refuseSend (s : State) (c : Nat) (q : Cmd) (cause : BitVec 8) : Keeps s (refuseSend s c q cause) := keeps_putCmd ..

theorem keeps_takeSlot (s : State) (c : Nat) (q : Cmd) (t : Machine.Stream) : Keeps s (takeSlot s c q t) :=
  keeps_ite (.comp (keeps_putCmd ..) (keeps_onCore ..)) (keeps_ite (Keeps.refl _) (.comp (keeps_putCmd ..) (keeps_onCore ..)))

theorem outKeeps_execSendArrive (core cmd : Nat) (s : State) : OutKeeps s (execSendArrive core cmd s) := by
  refine OutKeeps.next (keeps_asEngine _ _ _ (fun t => ?_))
  split
  · exact Keeps.refl t
  refine keeps_ite (Keeps.refl t) ?_
  extract_lets k held q
  refine keeps_ite (keeps_ite (keeps_refuseSend ..) (keeps_putCmd ..)) ?_
  split
  · exact keeps_refuseSend ..
  · exact keeps_ite (keeps_refuseSend ..) (keeps_takeSlot ..)

theorem keeps_swapEntry (s : State) (p : Nat) (e : ResEntry) : Keeps s (swapEntry s p e) :=
  .comp (keeps_quiet (quiet_entryPut ..)) (.comp (keeps_quiet (quiet_entryPut ..)) (.comp (keeps_quiet (quiet_entryPut ..)) (keeps_quiet
      (quiet_entryPut ..))))

theorem keeps_publishNow (s : State) (c : Nat) (q : Cmd) (l : Latch) : Keeps s (publishNow s c q l) := by
  unfold publishNow
  dsimp only
  split
  · exact keeps_ite (.comp (keeps_putCmd ..) (.comp (keeps_cmdFails ..) (keeps_quiet (quiet_readEntry ..)))) (.comp (keeps_putCmd ..) (keeps_quiet
        (quiet_readEntry ..)))
  · exact keeps_ite (.comp (keeps_putCmd ..) (.comp (keeps_cmdFails ..) (keeps_quiet (quiet_readEntry ..)))) (.comp (keeps_putCmd ..) (keeps_quiet
        (quiet_readEntry ..)))
  · exact keeps_ite (.comp (keeps_putCmd ..) (keeps_quiet (quiet_readEntry ..))) (keeps_ite (.comp (keeps_putCmd ..) (keeps_quiet (quiet_readEntry
        ..))) (keeps_ite (Keeps.refl _) (.comp (keeps_putCmd ..) (.comp (keeps_swapEntry ..) (keeps_quiet (quiet_readEntry ..))))))

theorem outKeeps_execPublish (core cmd : Nat) (s : State) : OutKeeps s (execPublish core cmd s) := by
  unfold execPublish
  refine OutKeeps.next ?_
  refine keeps_asEngine _ _ _ ?_
  intro t
  split
  · exact Keeps.refl _
  · split
    · exact keeps_ite (Keeps.refl _) (keeps_publishNow ..)
    · exact Keeps.refl _

theorem outKeeps_execShadowWriteIssue (core slot : Nat) (s : State) : OutKeeps s (execShadowWriteIssue core slot s) := by
  unfold execShadowWriteIssue
  refine OutKeeps.next ?_
  split
  · exact Keeps.refl _
  · split
    · dsimp only
      split
      · exact keeps_ite (Keeps.refl _) (keeps_onSlotOf ..)
      · exact keeps_ite (Keeps.refl _) (keeps_onSlotOf ..)
    · exact Keeps.refl _

theorem outKeeps_execRlimWindow (core : Nat) (s : State) : OutKeeps s (execRlimWindow core s) := OutKeeps.next (keeps_onCore ..)


/-! ## The tender -/

theorem keeps_tenderEnds (s : State) (c i : Nat) : Keeps s (tenderEnds s c i) := keeps_onCore ..

theorem keeps_reportStop (s : State) (c : Nat) (b : PlacedBlock) (r : TenderReport) : Keeps s (reportStop s c b r) := by
  unfold reportStop
  split
  · exact Keeps.refl _
  · exact keeps_onWave ..

theorem keeps_tenderStops (s : State) (c i : Nat) (t : Tender) (cause : BitVec 8) (addr : Word) : Keeps s (tenderStops s c i t cause addr) := by
  unfold tenderStops
  dsimp only
  refine Keeps.trans ?_ (keeps_tenderEnds ..)
  split
  · exact keeps_reportStop ..
  · exact Keeps.refl _

theorem keeps_tenderGoes (s : State) (c i : Nat) (t : Tender) (pc : Nat) : Keeps s (tenderGoes s c i t pc) :=
  keeps_ite (.comp (keeps_tenderEnds ..) (keeps_onCore ..)) (keeps_onCore ..)

theorem keeps_storeY (s : State) (c off : Nat) (bs : List Byte) : Keeps s (storeY s c off bs) := keeps_onCore ..

theorem keeps_matrixRuns (s : State) (c i : Nat) (t : Tender) (r : Record) (xa xs y cycles : Nat) (p : Present) :
    Keeps s (matrixRuns s c i t r xa xs y cycles p) := by
  unfold matrixRuns
  dsimp only
  split
  · exact Keeps.refl _
  · split
    · exact keeps_tenderStops ..
    · split
      · exact keeps_tenderStops ..
      · split
        · exact keeps_tenderStops ..
        · split
          · exact keeps_ite (keeps_tenderStops ..) (.comp (keeps_tenderGoes ..) (.comp (keeps_onCore ..) (keeps_storeY ..)))
          · exact keeps_ite (keeps_tenderStops ..) (.comp (keeps_tenderGoes ..) (.comp (keeps_onCore ..) (keeps_storeY ..)))

theorem outKeeps_matrixRecord (s : State) (r : Record) (sparse : Bool) : OutKeeps s (matrixRecord s r sparse) := by
  unfold matrixRecord
  refine outKeeps_onTender _ _ ?_
  intro t p i
  dsimp only
  split
  · exact keeps_tenderStops ..
  · split
    · exact keeps_tenderStops ..
    · split
      · exact keeps_ite (keeps_tenderStops ..) (keeps_ite (keeps_matrixRuns ..) (keeps_matrixRuns ..))
      · exact keeps_ite (keeps_tenderStops ..) (keeps_ite (keeps_matrixRuns ..) (keeps_matrixRuns ..))

theorem outKeeps_execMma (r : Record) (s : State) : OutKeeps s (execMma r s) := outKeeps_matrixRecord ..

theorem outKeeps_execMmas (r : Record) (s : State) : OutKeeps s (execMmas r s) := outKeeps_matrixRecord ..

theorem outKeeps_execMtile (r : Record) (s : State) : OutKeeps s (execMtile r s) :=
  outKeeps_onTender _ _ (fun t p i => keeps_ite (keeps_tenderStops ..) (keeps_ite (keeps_tenderStops ..) (.comp (keeps_tenderGoes ..)
      (keeps_onCore ..))))

theorem outKeeps_execMzy (r : Record) (s : State) : OutKeeps s (execMzy r s) := by
  unfold execMzy
  refine outKeeps_onTender _ _ ?_
  intro t p i
  dsimp only
  split
  · exact keeps_tenderStops ..
  · split
    · exact keeps_tenderStops ..
    · exact .comp (keeps_tenderGoes ..) (keeps_storeY ..)

theorem outKeeps_execMsty (r : Record) (s : State) : OutKeeps s (execMsty r s) := by
  unfold execMsty
  refine outKeeps_onTender _ _ ?_
  intro t p i
  dsimp only
  split
  · exact keeps_tenderStops ..
  · split
    · exact keeps_tenderStops ..
    · split
      · exact keeps_ite (keeps_tenderStops ..) (.comp (keeps_tenderGoes ..) (keeps_storeY ..))
      · exact keeps_ite (keeps_tenderStops ..) (.comp (keeps_tenderGoes ..) (keeps_storeY ..))

theorem outKeeps_execTmeet (r : Record) (s : State) : OutKeeps s (execTmeet r s) := outKeeps_onTender _ _ (fun t p i => keeps_setCore ..)

theorem outKeeps_execTenderLoop (r : Record) (s : State) : OutKeeps s (execTenderLoop r s) :=
  outKeeps_onTender _ _ (fun t p i => keeps_ite (keeps_tenderStops ..) (keeps_ite (keeps_onCore ..) (keeps_tenderEnds ..)))

theorem outKeeps_execNop (_r : Record) (s : State) : OutKeeps s (execNop _r s) := by
  unfold execNop
  split
  · exact OutKeeps.next (keeps_tenderGoes ..)
  · exact outKeeps_onSlot (fun k => keeps_advance ..)

theorem outKeeps_execTenderSwitch (r : Record) (s : State) : OutKeeps s (execTenderSwitch r s) :=
  outKeeps_onTender _ _ (fun t p i => keeps_onCore ..)

theorem outKeeps_execLdq (r : Record) (s : State) : OutKeeps s (execLdq r s) := by
  unfold execLdq
  refine outKeeps_onSlot ?_
  intro k
  dsimp only
  split
  · exact keeps_trapFails ..
  · exact keeps_ite (.comp (keeps_advance ..) (keeps_foldl (fun s x => keeps_writeRegs ..) _ _)) (.comp (keeps_trapFails ..) (keeps_foldl (fun s x =>
        keeps_writeRegs ..) _ _))


/-! ## Lowering -/

theorem keeps_installEntry (s : State) (q : LowerReq) (b : Lowered) : Keeps s (installEntry s q b) := by
  unfold installEntry
  extract_lets s1 pageFails s2 e
  have h1 : Keeps s s1 := .of_same rfl rfl rfl
  have h2 : Keeps s1 s2 := .comp (keeps_quiet (quiet_logFetch ..)) (keeps_foldl (fun t x => keeps_quiet (quiet_setTr ..)) _ _)
  clear_value s1 s2
  exact keeps_ite h1 (Keeps.mem (h1.trans h2) rfl rfl rfl)

theorem outKeeps_execLoweringComplete (die request : Nat) (s : State) : OutKeeps s (execLoweringComplete die request s) := by
  unfold execLoweringComplete
  refine OutKeeps.next ?_
  split
  · exact Keeps.refl _
  · exact keeps_ite (Keeps.refl _) (keeps_ite (Keeps.refl _) (keeps_installEntry ..))

theorem outKeeps_execSinterEvict (die entry : Nat) (s : State) : OutKeeps s (execSinterEvict die entry s) :=
  OutKeeps.next (keeps_ite (Keeps.refl _) (keeps_onDie ..))

theorem keeps_regReads (s : State) (v : Word) : Keeps s (regReads s v) := .of_same rfl rfl rfl

theorem outKeeps_execMgModver (part : Nat) (access : RegAccess) (s : State) : OutKeeps s (execMgModver part access s) := by
  unfold execMgModver
  refine OutKeeps.next ?_
  split
  · exact Keeps.refl _
  · split
    · exact keeps_regReads ..
    · exact keeps_onPart ..

theorem outKeeps_execModuleVerified (part : Nat) (s : State) : OutKeeps s (execModuleVerified part s) := by
  unfold execModuleVerified
  refine OutKeeps.next ?_
  split
  · exact Keeps.refl s
  dsimp only
  split
  · exact Keeps.refl s
  exact Keeps.mem (keeps_foldl (fun t x => keeps_quiet (quiet_setTr part _ t x)) _ s) rfl rfl rfl

end Sys2Proof.Proofs.Keep
end

section
/-! SUPPORT. Coupled records and the stations of a region keep the memories canonical. -/

open Sys2Proof Sys2Proof.Machine Sys2Proof.Cert
open Sys2Proof.Proofs.Home Sys2Proof.Proofs.Moves Sys2Proof.Proofs.Lower Sys2Proof.Proofs.Partitions Sys2Proof.Proofs.Stops

namespace Sys2Proof.Proofs.Keep

/-! ## Coupled records and stations -/

theorem keeps_discardIters (s : State) (c : Nat) (gone : Iter → Bool) : Keeps s (discardIters s c gone) := by
  unfold discardIters
  split
  · exact Keeps.refl _
  · dsimp only
    refine Keeps.trans ?_ (keeps_onCore ..)
    refine Keeps.trans ?_ (keeps_foldl (fun s x => ?_) _ _)
    · exact keeps_setRegion ..
    · split
      · exact keeps_quiet (quiet_dropWaiter ..)
      · exact Keeps.refl _

theorem keeps_discardBehind (s : State) (c j : Nat) : Keeps s (discardBehind s c j) := by
  unfold discardBehind
  split
  · exact Keeps.refl _
  · exact keeps_discardIters ..

theorem outKeeps_bodyMeaning (i : Instr) (s : State) : OutKeeps s (bodyMeaning i s) := by
  unfold bodyMeaning
  split
  · exact outKeeps_execIadd ..
  · exact outKeeps_execIsub ..
  · exact outKeeps_execImul ..
  · exact outKeeps_execImad ..
  · exact outKeeps_execIdiv ..
  · exact outKeeps_execImin ..
  · exact outKeeps_execImax ..
  · exact outKeeps_execIabs ..
  · exact outKeeps_execAnd ..
  · exact outKeeps_execOr ..
  · exact outKeeps_execXor ..
  · exact outKeeps_execAndn ..
  · exact outKeeps_execShl ..
  · exact outKeeps_execShr ..
  · exact outKeeps_execFshf ..
  · exact outKeeps_execBcnt ..
  · exact outKeeps_execBfx ..
  · exact outKeeps_execIcmp ..
  · exact outKeeps_execSel ..
  · exact outKeeps_execLea ..
  · exact outKeeps_execMov ..
  · exact outKeeps_execFadd ..
  · exact outKeeps_execFsub ..
  · exact outKeeps_execFmul ..
  · exact outKeeps_execFfma ..
  · exact outKeeps_execFmin ..
  · exact outKeeps_execFmax ..
  · exact outKeeps_execFsgn ..
  · exact outKeeps_execFcmp ..
  · exact outKeeps_execFcls ..
  · exact outKeeps_execFrnd ..
  · exact outKeeps_execFscl ..
  · exact outKeeps_execCvt ..
  · exact outKeeps_execPack ..
  · exact outKeeps_execUnpk ..
  · exact outKeeps_execDotp ..
  · exact outKeeps_execSfn ..
  · exact outKeeps_execGets ..
  · exact outKeeps_execBysw ..
  · exact outKeeps_execFeat ..
  · exact outKeeps_execSpct ..
  · exact outKeeps_execSpcc ..
  · exact OutKeeps.next (Keeps.refl _)

theorem keeps_giveValue (s : State) (k : Ctx) (rcd lane : Nat) (t : Ty) (v : Val) : Keeps s (giveValue s k rcd lane t v) := keeps_onWave ..

theorem keeps_takeReply (s : State) (k : Ctx) (it : Iter) (i : Instr) (t : Ty) (v : Val) : Keeps s (takeReply s k it i t v).1 := by
  unfold takeReply
  dsimp only
  split
  · split
    · exact keeps_giveValue ..
    · exact keeps_giveValue ..
  · exact keeps_giveValue ..

theorem ranKeeps_iterPerform (s : State) (k : Ctx) (it : Iter) (i : Instr) (a : Access) : RanKeeps s (iterPerform s k it i a) := by
  unfold iterPerform
  extract_lets a1 s1 r
  have h1 : Keeps s s1 := .of_same rfl rfl rfl
  have hr : Keeps s r.1 := h1.trans (by
    unfold r
    split
    · exact keeps_performCell ..
    · exact keeps_performBytes ..)
  clear_value r
  split
  · exact .ok (.comp (keeps_takeReply ..) (.comp (keeps_quiet (quiet_dropWaiter ..)) hr))
  · exact .asks hr
  · exact .faults (.comp (keeps_quiet (quiet_dropWaiter ..)) hr)

theorem keeps_performMet (s : State) (it : Iter) (as : List Access) : Keeps s (performMet s it as).1 := by
  unfold performMet
  refine Keeps.trans ?_ (keeps_foldl_fst (fun p x => ?_) _ _)
  · dsimp only
    exact Keeps.refl _
  · dsimp only
    exact keeps_performBytes ..

theorem ranKeeps_iterAccess (s : State) (k : Ctx) (it : Iter) (i : Instr) (r : Record) (q : Req) :
    RanKeeps s (iterAccess s k it i r q) := by
  unfold iterAccess
  split
  · exact .faults (Keeps.refl s)
  rename_i x _
  extract_lets src a met shaped m p m2 bs p2
  have hm : Keeps s m := keeps_markChecked ..
  have hp : Keeps s p.1 := hm.trans (keeps_performMet ..)
  split
  · split
    · exact .ok hm
    · exact .faults (Keeps.refl s)
  · split
    · exact .held
    · exact .after hp (ranKeeps_iterPerform ..)
  · split
    · exact .held
    · exact .after hp (ranKeeps_iterPerform ..)
  · split
    · exact .held
    split
    · exact .after hm (ranKeeps_iterPerform ..)
    split
    · exact .faults (Keeps.refl s)
    · exact .ok (.comp (keeps_takeReply ..) (.comp (keeps_refreshL1 ..) hm))

theorem ranKeeps_iterPop (s : State) (k : Ctx) (it : Iter) (r : Record) : RanKeeps s (iterPop s k it r) := by
  unfold iterPop
  dsimp only
  split
  · exact RanKeeps.faults (Keeps.refl _)
  · split
    · exact RanKeeps.ok (.comp (keeps_giveValue ..) (.comp (keeps_quiet (quiet_acquireL1 ..)) (keeps_onCore ..)))
    · exact RanKeeps.waits (Keeps.refl _)

theorem ranKeeps_iterRel (s : State) (k : Ctx) (it : Iter) (r : Record) : RanKeeps s (iterRel s k it r) := by
  unfold iterRel
  dsimp only
  split
  · exact RanKeeps.faults (Keeps.refl _)
  · exact RanKeeps.ok (Keeps.refl _)

theorem ranKeeps_runRecord (got : Option (Nat × Word)) (s : State) (it : Iter) (rcd : Nat) : RanKeeps s (runRecord got s it rcd) := by
  unfold runRecord
  extract_lets cur s1 w
  have h1 : Keeps s s1 := .of_same rfl rfl rfl
  clear_value s1
  split
  · dsimp only
    split
    · exact .ok (h1.trans (keeps_takeReply ..))
    split
    · split
      · exact .ok h1
      · exact .ok h1
    · exact .ok h1
    · exact .after h1 (ranKeeps_iterAccess ..)
    · exact .after h1 (ranKeeps_iterAccess ..)
    · exact .after h1 (ranKeeps_iterAccess ..)
    · exact .after h1 (ranKeeps_iterAccess ..)
    · exact .after h1 (ranKeeps_iterAccess ..)
    · exact .after h1 (ranKeeps_iterPop ..)
    · exact .after h1 (ranKeeps_iterRel ..)
    · split
      · exact .ok (h1.trans ((outKeeps_bodyMeaning ..).keeps _ ‹_›))
      · exact .ok h1
  · exact .ok h1

theorem ranKeeps_runRecords (got : Option (Nat × Word)) (s : State) (it : Iter) (rs : List Nat) : RanKeeps s (runRecords got s it rs) := by
  induction rs generalizing s it with
  | nil => exact .ok (Keeps.refl s)
  | cons r rest ih =>
    have hr := ranKeeps_runRecord got s it r
    unfold runRecords
    split
    · exact .after (hr.of_ok ‹_›) (ih _ _)
    · exact hr

theorem keeps_fenceEffect (s : State) (c : Nat) (r : Region) (lane f : Nat) : Keeps s (fenceEffect s c r lane f).1 := by
  unfold fenceEffect
  dsimp only
  split
  · exact keeps_clearLost ..
  · exact keeps_quiet (quiet_acquireL1 ..)

theorem keeps_fencesBefore (s : State) (c : Nat) (r : Region) (it : Iter) (i : Nat) : Keeps s (fencesBefore s c r it i).1 := by
  unfold fencesBefore
  refine Keeps.trans ?_ (keeps_foldl_fst (fun p x => ?_) _ _)
  · exact Keeps.refl _
  · split
    · exact Keeps.refl _
    · exact keeps_fenceEffect ..

theorem keeps_giveBack (s : State) (c n : Nat) : Keeps s (giveBack s c n) := keeps_onCore ..

theorem keeps_tailRun (s : State) (c : Nat) (r : Region) (lane : Nat) (e : IterEffect) : Keeps s (tailRun s c r lane e) := by
  unfold tailRun
  split
  · exact .of_same rfl rfl rfl
  · exact keeps_giveBack ..
  · dsimp only
    split
    · exact keeps_fenceEffect ..
    · exact .comp (keeps_faultRegion ..) (keeps_fenceEffect ..)

theorem keeps_tailWalk (s : State) (c : Nat) (r : Region) (blocked : List Nat) (ls : List (Nat × IterEffect)) :
    Keeps s (tailWalk s c r blocked ls).1 := by
  induction ls generalizing s blocked with
  | nil => exact Keeps.refl s
  | cons p rest ih =>
    obtain ⟨l, e⟩ := p
    unfold tailWalk
    split
    · exact (keeps_tailRun ..).trans (ih _ _)
    · exact ih _ _

theorem keeps_drainTail (s : State) (c : Nat) : Keeps s (drainTail s c) := by
  unfold drainTail
  split
  · exact Keeps.refl _
  · dsimp only
    split
    · exact keeps_tailWalk ..
    · exact .comp (keeps_setRegion ..) (keeps_tailWalk ..)

theorem keeps_retireIter (s : State) (c : Nat) (v : Wave) (r : Region) (it : Iter) (does : List IterEffect) :
    Keeps s (retireIter s c v r it does) := by
  unfold retireIter
  dsimp only
  refine Keeps.trans ?_ (keeps_drainTail ..)
  split
  · exact .comp (keeps_setRegion ..) (.of_same rfl rfl rfl)
  · exact .comp (keeps_foldl (fun s x => keeps_writeKeep ..) _ _) (.comp (keeps_setRegion ..) (.of_same rfl rfl rfl))

theorem keeps_performStores (s : State) (as : List Access) : Keeps s (performStores s as) := keeps_foldl (fun s x => keeps_performAccess ..) _ _

theorem keeps_tryRetire (s : State) (c repl ch : Nat) : Keeps s (tryRetire s c repl ch) := by
  unfold tryRetire
  split
  · exact Keeps.refl _
  · split
    · dsimp only
      split
      · exact Keeps.refl _
      · split
        · exact keeps_retireIter ..
        · split
          · exact Keeps.refl _
          · split
            · exact .comp (keeps_discardIters ..) (.comp (keeps_faultRegion ..) (keeps_performAccess ..))
            · exact .comp (keeps_retireIter ..) (keeps_performStores ..)
    · exact Keeps.refl _

theorem keeps_retireAll (s : State) (c : Nat) : Keeps s (retireAll s c) := by
  unfold retireAll
  split
  · exact Keeps.refl _
  · exact keeps_foldl (fun s x => keeps_tryRetire ..) _ _

theorem keeps_settleRegion (s : State) (c : Nat) : Keeps s (settleRegion s c) := by
  unfold settleRegion
  dsimp only
  split
  · exact .comp (keeps_retireAll ..) (keeps_drainTail ..)
  · exact .comp (keeps_setRegion ..) (.comp (keeps_retireAll ..) (keeps_drainTail ..))

theorem keeps_loadInputs (s : State) (c : Nat) (v : Wave) (r : Region) (j : Nat) (it : Iter) (ins : List (Coupling × W32)) :
    Keeps s (loadInputs s c v r j it ins) := by
  unfold loadInputs
  dsimp only
  refine Keeps.trans ?_ (keeps_foldl (fun s x => ?_) _ _)
  · refine keeps_foldl (fun s x => ?_) _ _
    split
    · exact keeps_onWave ..
    · exact keeps_writeKeep ..
    · exact Keeps.refl _
  · split
    · exact keeps_ite (keeps_writeKeep ..) (Keeps.refl _)
    · exact Keeps.refl _

theorem keeps_restoreWave (s0 s : State) (c w : Nat) : Keeps s (restoreWave s0 s c w) := by
  unfold restoreWave
  dsimp only
  split
  · refine Keeps.mem (t := onWave _ _ _ _) ?_ rfl rfl rfl
    exact (keeps_onCore _ _ _).trans (keeps_onWave _ _ _ _)
  · exact .of_same rfl rfl rfl

theorem ranKeeps_runStation (s : State) (c j : Nat) (r : Region) (v : Wave) (it : Iter) (vals : List W32) (got : Option (Nat × Word)) :
    RanKeeps s (runStation s c j r v it vals got) := by
  unfold runStation
  extract_lets t t1 q
  have ht : Keeps s t := .of_same rfl rfl rfl
  have hq : Keeps s q.1 := (ht.trans (keeps_loadInputs ..)).trans
    (keeps_foldl_fst (fun p x => keeps_fst_ite (Keeps.refl p.1) (keeps_fencesBefore ..)) _ (t1, it, none))
  split
  · exact .faults hq
  · exact .after hq (ranKeeps_runRecords ..)

theorem keeps_stationFaults (s : State) (c j lane : Nat) (cause : BitVec 8) (rcd : Nat) (addr : Word) :
    Keeps s (stationFaults s c j lane cause rcd addr) :=
  .comp (keeps_settleRegion ..) (.comp (keeps_discardBehind ..) (keeps_faultRegion ..))

theorem fireKeeps_fireFor (s : State) (c j : Nat) (r : Region) (v : Wave) (it : Iter) : FireKeeps s (fireFor s c j r v it) := by
  unfold fireFor
  extract_lets ins behind vals done taken
  have hdone (t : State) : Keeps t (done t) := (keeps_restoreWave ..).trans (keeps_onCore ..)
  clear_value done
  split
  · exact .waitOutput
  split
  · exact .idle
  split
  · exact .waitMemory (Keeps.refl s)
  split
  · exact .fired (keeps_stationFaults ..)
  have hrun := ranKeeps_runStation s c j r v it vals none
  split
  · exact .waitMemory (Keeps.refl s)
  · have h := hrun.of_waits ‹_›
    dsimp only
    split
    · exact .waitMemory (h.trans (keeps_restoreWave ..))
    · exact .fired (((h.trans (keeps_restoreWave ..)).trans (keeps_discardBehind ..)).trans (keeps_settleRegion ..))
  · exact .fired ((((hrun.of_asks ‹_›).trans (hdone _)).trans (keeps_setRegion ..)).trans (keeps_settleRegion ..))
  · exact .fired (((hrun.of_faults ‹_›).trans (hdone _)).trans (keeps_stationFaults ..))
  · exact .fired ((((hrun.of_ok ‹_›).trans (hdone _)).trans (keeps_setRegion ..)).trans (keeps_settleRegion ..))

theorem fireKeeps_passReply (s : State) (c j : Nat) (r : Region) (v : Wave) (e : Reply) (F : Firing) (h : passReply s c j r v e = some F) :
    FireKeeps s F := by
  unfold passReply at h
  split at h
  · obtain rfl := Option.some.inj h
    split
    · exact .fired ((keeps_setRegion ..).trans (keeps_settleRegion ..))
    · exact .waitOutput
  · obtain rfl := Option.some.inj h
    rename_i x it _ _ _
    have hrun := ranKeeps_runStation s c j r v it e.ins (some (e.rcd, x))
    split
    · exact .fired (((hrun.of_ok ‹_›).trans (keeps_restoreWave ..)).trans ((keeps_setRegion ..).trans (keeps_settleRegion ..)))
    · exact .fired (((hrun.of_faults ‹_›).trans (keeps_restoreWave ..)).trans (keeps_stationFaults ..))
    · exact .waitInput
  · split at h
    · contradiction
    · obtain rfl := Option.some.inj h
      exact .fired ((keeps_discardBehind ..).trans (keeps_settleRegion ..))

theorem fireKeeps_injectIter (s : State) (c j : Nat) (r : Region) (v : Wave) (ch : Nat) (feedback : Bool) :
    FireKeeps s (injectIter s c j r v ch feedback) := by
  unfold injectIter
  dsimp only
  split
  · exact FireKeeps.waitOutput
  · exact FireKeeps.fired (.comp (keeps_settleRegion ..) (keeps_setRegion ..))

theorem fireKeeps_badToken (s : State) (c j : Nat) (r : Region) : FireKeeps s (badToken s c j r) :=
  FireKeeps.fired (.comp (keeps_stationFaults ..) (keeps_setRegion ..))

theorem keeps_markKeeps (s : State) (c : Nat) (v : Wave) (r : Region) (j lane : Nat) : Keeps s (markKeeps s c v r j lane) := by
  unfold markKeeps
  refine keeps_foldl (fun s x => ?_) _ _
  split
  · exact keeps_ite (keeps_onCore ..) (Keeps.refl _)
  · exact Keeps.refl _

theorem fireKeeps_fireHead (s : State) (c j : Nat) (r : Region) (v : Wave) : FireKeeps s (fireHead s c j r v) := by
  unfold fireHead
  dsimp only
  split
  · exact fireKeeps_badToken ..
  · split
    · split
      · split
        · exact FireKeeps.tagged _
        · exact fireKeeps_injectIter ..
      · split
        · exact FireKeeps.waitInput
        · split
          · exact fireKeeps_injectIter ..
          · exact FireKeeps.idle
    · split
      · exact FireKeeps.idle
      · split
        · split
          · exact FireKeeps.waitOutput
          · exact FireKeeps.fired (.comp (keeps_settleRegion ..) (keeps_setRegion ..))
        · split
          · exact FireKeeps.fired (.comp (keeps_settleRegion ..) (keeps_setRegion ..))
          · exact FireKeeps.done

theorem fireKeeps_fireSource (s : State) (c j : Nat) (r : Region) (v : Wave) : FireKeeps s (fireSource s c j r v) := by
  unfold fireSource
  split
  · exact fireKeeps_fireFor ..
  · split
    · exact FireKeeps.idle
    · split
      · exact FireKeeps.waitOutput
      · exact FireKeeps.fired (.comp (keeps_settleRegion ..) (keeps_setRegion ..))

theorem fireKeeps_fireInner (s : State) (c j : Nat) (r : Region) (v : Wave) : FireKeeps s (fireInner s c j r v) := by
  unfold fireInner
  dsimp only
  split
  · exact fireKeeps_badToken ..
  · split
    · exact FireKeeps.fired (.comp (keeps_settleRegion ..) (keeps_setRegion ..))
    · split
      · exact FireKeeps.idle
      · split
        · exact FireKeeps.waitInput
        · split
          · split
            · exact FireKeeps.waitOutput
            · exact FireKeeps.fired (.comp (keeps_settleRegion ..) (keeps_setRegion ..))
          · split
            · exact FireKeeps.waitInput
            · split
              · exact FireKeeps.tagged _
              · split
                · exact FireKeeps.fired (.comp (keeps_settleRegion ..) (.comp (keeps_setRegion ..) (keeps_markKeeps ..)))
                · split
                  · exact fireKeeps_fireFor ..
                  · exact FireKeeps.waitInput

/-- How a station fires by its role (R61, R62). -/
def fireRole (s : State) (c j : Nat) (r : Region) (v : Wave) : Firing :=
  if roleIn r j = some .head then fireHead s c j r v
  else if isSource r j then fireSource s c j r v
  else fireInner s c j r v

theorem fireKeeps_fireRole (s : State) (c j : Nat) (r : Region) (v : Wave) : FireKeeps s (fireRole s c j r v) := by
  unfold fireRole
  split
  · exact fireKeeps_fireHead ..
  · split
    · exact fireKeeps_fireSource ..
    · exact fireKeeps_fireInner ..

/-- How a station fires that may have a reply to pass on (R68). -/
def fireOrPass (s : State) (c j : Nat) (r : Region) (v : Wave) : Firing :=
  match r.asked.find? (fun e => e.station = j) with
  | none => fireRole s c j r v
  | some e => match passReply s c j r v e with
    | some f => f
    | none => match fireRole s c j r v with
      | .fired t => .fired t
      | .tagged d => .tagged d
      | _ => .waitMemory s

theorem fireKeeps_fireOrPass (s : State) (c j : Nat) (r : Region) (v : Wave) : FireKeeps s (fireOrPass s c j r v) := by
  have hgo := fireKeeps_fireRole s c j r v
  unfold fireOrPass
  split
  · exact hgo
  split
  · exact fireKeeps_passReply _ _ _ _ _ _ _ ‹_›
  split
  · exact .fired (hgo.of_fired ‹_›)
  · exact .tagged _
  · exact .waitMemory (Keeps.refl s)

theorem fireKeeps_tryFire (s : State) (c j : Nat) : FireKeeps s (tryFire s c j) := by
  unfold tryFire
  split
  · exact .idle
  split
  · exact .idle
  split
  · exact .idle
  split
  · exact .done
  · exact fireKeeps_fireOrPass s c j _ _

end Sys2Proof.Proofs.Keep
end

section
/-! SUPPORT. Regions as wholes, and the system records, keep the memories canonical. -/

open Sys2Proof Sys2Proof.Machine Sys2Proof.Cert
open Sys2Proof.Proofs.Home Sys2Proof.Proofs.Moves Sys2Proof.Proofs.Lower Sys2Proof.Proofs.Partitions Sys2Proof.Proofs.Stops

namespace Sys2Proof.Proofs.Keep

/-! ## Regions -/

theorem keeps_dropRegion (s : State) (c : Nat) : Keeps s (dropRegion s c) := keeps_onCore ..

theorem keeps_startParking (s : State) (c w x : Nat) (t : Slot) (e : SEntry) (p : Placement) : Keeps s (startParking s c w x t e p) := by
  unfold startParking
  exact .comp (keeps_onCore ..) (keeps_slotWaits ..)

theorem keeps_readSimt (s : State) (k : Ctx) (holds : Bool) : Keeps s (readSimt s k holds) := .comp (keeps_advance ..) (keeps_onSlotOf ..)

theorem keeps_forgetWindow (s : State) (c w : Nat) : Keeps s (forgetWindow s c w) := by
  unfold forgetWindow
  split
  · exact Keeps.refl _
  · exact .of_same rfl rfl rfl

theorem keeps_leaveRegion (s : State) (c w x : Nat) : Keeps s (leaveRegion s c w x) := .comp (keeps_onWave ..) (keeps_forgetWindow ..)

theorem keeps_coupleWork (s : State) (k : Ctx) : Keeps s (coupleWork s k) := by
  unfold coupleWork
  split
  · exact keeps_slotWaits ..
  · dsimp only
    split
    · exact .comp (keeps_readSimt ..) (keeps_onSlotOf ..)
    · split
      · exact .comp (keeps_readSimt ..) (keeps_onSlotOf ..)
      · split
        · exact .comp (keeps_startParking ..) (keeps_onSlotOf ..)
        · exact .comp (keeps_readSimt ..) (keeps_onSlotOf ..)
        · exact .comp (keeps_onCore ..) (.comp (keeps_slotWaits ..) (keeps_onSlotOf ..))

theorem outKeeps_execCouple (r : Record) (s : State) : OutKeeps s (execCouple r s) :=
  outKeeps_onSlot (fun k => keeps_ite (keeps_leaveRegion ..) (keeps_withDivergence _ _ _ _ (fun t p => keeps_coupleWork ..)))

theorem outKeeps_execUncpl (_r : Record) (s : State) : OutKeeps s (execUncpl _r s) := outKeeps_onSlot (fun k => keeps_leaveRegion ..)

theorem keeps_installPair (s : State) (q : LowerReq) (lw : Lowered) (p : Option Placement) : Keeps s (installPair s q lw p).1 :=
  Keeps.mem (keeps_foldl (fun t x => keeps_quiet (quiet_setTr q.part q.key.sec t x)) lw.pages s) rfl rfl rfl

theorem optKeeps_failPairs (late : Bool) (s : State) (c : Nat) (v : Wave) (t : Slot) (n : Nat) (ws : List Nat) :
    OptKeeps s (failPairs late s c v t n ws) := by
  unfold failPairs
  refine keeps_foldl_opt (fun s0 o w ho => ?_) ws (.some (Keeps.refl s))
  split
  · have h1 := ho.keeps _ rfl
    split
    · exact .some h1
    dsimp only
    split
    · split
      · exact .some h1
      · exact .none
    · split
      · exact .some h1
      · exact .some (h1.trans (keeps_installPair ..))
  · exact ho

theorem outKeeps_execCouplePlacementDone (core : Nat) (placement : Option Placement) (s : State) :
    OutKeeps s (execCouplePlacementDone core placement s) := by
  unfold execCouplePlacementDone
  refine OutKeeps.next ?_
  split
  · exact Keeps.refl _
  · split
    · exact Keeps.refl _
    · dsimp only
      split
      · exact Keeps.refl _
      · split
        · exact keeps_dropRegion ..
        · split
          · split
            · split
              · exact (optKeeps_failPairs ..).keeps _ ‹_›
              · exact .comp (keeps_startParking ..) (.comp (keeps_installPair ..) ((optKeeps_failPairs ..).keeps _ ‹_›))
            · exact Keeps.refl _
          · split
            · exact Keeps.refl _
            · exact .comp (keeps_onWave ..) (.comp (keeps_onCore ..) ((optKeeps_failPairs ..).keeps _ ‹_›))

theorem outKeeps_execParkingQuiet (core : Nat) (s : State) : OutKeeps s (execParkingQuiet core s) := by
  unfold execParkingQuiet
  refine OutKeeps.next ?_
  split
  · exact Keeps.refl _
  · exact keeps_ite (Keeps.refl _) (keeps_ite (keeps_dropRegion ..) (keeps_setRegion ..))

theorem keeps_keepUnfinished (s : State) (c : Nat) (r : Region) : Keeps s (keepUnfinished s c r) := keeps_foldl (fun s x => keeps_writeKeep ..) _ _

theorem keeps_backToCouple (s : State) (c : Nat) (r : Region) (simt : Bool) : Keeps s (backToCouple s c r simt) := by
  unfold backToCouple
  exact .comp (keeps_onSlotOf ..) (.comp (keeps_forgetWindow ..) (.comp (keeps_dropRegion ..) (keeps_keepUnfinished ..)))

theorem keeps_preemptWave (s : State) (c w : Nat) (cpl : Bool) : Keeps s (preemptWave s c w cpl) := by
  unfold preemptWave
  split
  · exact keeps_ite (Keeps.refl _) (keeps_takeStop ..)
  · exact Keeps.refl _

theorem keeps_preemptCore (s : State) (c : Nat) : Keeps s (preemptCore s c) := keeps_foldl (fun s x => keeps_preemptWave ..) _ _

theorem keeps_preemptDue (s : State) (c : Nat) : Keeps s (preemptDue s c) := keeps_ite (keeps_preemptCore ..) (Keeps.refl _)

theorem keeps_coupleStop (s : State) (c w x : Nat) (cause : BitVec 8) (blk rcd : Nat) (lanes : W32) (addr : Word) :
    Keeps s (coupleStop s c w x cause blk rcd lanes addr) :=
  keeps_takeStop ..

theorem keeps_flushTail (s : State) (c : Nat) : Keeps s (flushTail s c) := by
  unfold flushTail
  split
  · exact Keeps.refl _
  · refine Keeps.trans ?_ (keeps_setRegion ..)
    refine keeps_foldl (fun s x => ?_) _ _
    split
    · exact keeps_quiet (quiet_acquireL1 ..)
    · exact keeps_tailRun ..

theorem keeps_freezeRegion (s : State) (c : Nat) (r : Region) (cause : BitVec 8) (dst dcp : Nat) (det : Option (Nat × Nat)) :
    Keeps s (freezeRegion s c r cause dst dcp det) := by
  unfold freezeRegion
  split
  · exact Keeps.refl _
  · dsimp only
    refine Keeps.trans ?_ (keeps_preemptDue ..)
    split
    · exact .comp (keeps_coupleStop ..) (.comp (keeps_backToCouple ..) (.comp (keeps_quiet (quiet_logEvent ..)) (.comp (keeps_onDie ..) (.comp
          (keeps_discardIters ..) (.comp (keeps_flushTail ..) (.comp (keeps_quiet (quiet_writeVirtual ..)) (keeps_quiet (quiet_writeVirtual ..))))))))
    · exact .comp (keeps_coupleStop ..) (.comp (keeps_backToCouple ..) (.comp (keeps_quiet (quiet_logEvent ..)) (.comp (keeps_onDie ..) (.comp
          (keeps_discardIters ..) (.comp (keeps_flushTail ..) (.comp (keeps_quiet (quiet_writeVirtual ..)) (keeps_quiet (quiet_writeVirtual ..))))))))

theorem keeps_tagFreeze (s : State) (c j dcp : Nat) : Keeps s (tagFreeze s c j dcp) := by
  unfold tagFreeze
  split
  · exact Keeps.refl _
  · exact keeps_freezeRegion ..

theorem keeps_watchStill (s : State) (c : Nat) : Keeps s (watchStill s c) := by
  unfold watchStill
  split
  · exact Keeps.refl _
  · exact keeps_ite (keeps_setRegion ..) (Keeps.refl _)

theorem keeps_noteFired (s : State) (c j : Nat) : Keeps s (noteFired s c j) := by
  unfold noteFired
  split
  · exact keeps_setRegion ..
  · exact Keeps.refl _

theorem outKeeps_execStationFire (core station : Nat) (s : State) : OutKeeps s (execStationFire core station s) := by
  unfold execStationFire
  refine OutKeeps.next ?_
  have hf := fireKeeps_tryFire s core station
  split
  · exact Keeps.refl s
  split
  · exact (hf.of_fired ‹_›).trans (keeps_noteFired ..)
  · exact (hf.of_waitMemory ‹_›).trans (keeps_watchStill ..)
  · exact keeps_tagFreeze ..
  · split
    · split
      · exact keeps_settleRegion ..
      · exact Keeps.refl s
    · exact Keeps.refl s

theorem outKeeps_execCoupleQuantumExpiry (core : Nat) (s : State) : OutKeeps s (execCoupleQuantumExpiry core s) := by
  unfold execCoupleQuantumExpiry
  refine OutKeeps.next ?_
  split
  · exact Keeps.refl _
  · exact keeps_ite (keeps_gateRegion ..) (Keeps.refl _)

theorem outKeeps_execCoupleStill (core : Nat) (s : State) : OutKeeps s (execCoupleStill core s) := by
  unfold execCoupleStill
  refine OutKeeps.next ?_
  split
  · exact Keeps.refl _
  · exact keeps_ite (keeps_freezeRegion ..) (Keeps.refl _)

theorem keeps_regionDone (s : State) (c : Nat) (r : Region) : Keeps s (regionDone s c r) := by
  unfold regionDone
  dsimp only
  split
  · exact .comp (keeps_leaveRegion ..) (keeps_dropRegion ..)
  · exact keeps_backToCouple ..
  · exact .comp (keeps_preemptCore ..) (.comp (keeps_preemptWave ..) (keeps_backToCouple ..))
  · exact .comp (keeps_preemptDue ..) (.comp (keeps_coupleStop ..) (keeps_backToCouple ..))

theorem outKeeps_execRegionDrained (core : Nat) (s : State) : OutKeeps s (execRegionDrained core s) := by
  unfold execRegionDrained
  refine OutKeeps.next ?_
  split
  · exact Keeps.refl _
  · split
    · exact Keeps.refl _
    · split
      · exact keeps_freezeRegion ..
      · exact .comp (keeps_regionDone ..) (keeps_discardIters ..)


/-! ## System records -/

theorem outKeeps_execSysTret (r : Record) (s : State) : OutKeeps s (execSysTret r s) := by
  unfold execSysTret
  refine outKeeps_onSlot ?_
  intro k
  dsimp only
  split
  · exact keeps_advance ..
  · refine keeps_afterRelease _ _ _ ?_
    split
    · exact keeps_advance ..
    · split
      · exact .comp (keeps_advance ..) (keeps_returnFrom ..)
      · exact .comp (keeps_trapState ..) (keeps_returnFrom ..)

theorem keeps_takeCut (s : State) (k : Ctx) : Keeps s (takeCut s k) :=
  .comp (keeps_slotWaits ..) (.comp (keeps_advance ..) (.comp (keeps_onPart ..) (.of_same rfl rfl rfl)))

theorem outKeeps_execSysSnap (r : Record) (s : State) : OutKeeps s (execSysSnap r s) :=
  outKeeps_onSlot (fun k => keeps_ite (keeps_trapState ..) (keeps_ite (keeps_slotWaits ..) (keeps_afterRelease _ _ _ (keeps_ite (keeps_takeCut ..)
      (keeps_slotWaits ..)))))

theorem outKeeps_execSysSnapq (r : Record) (s : State) : OutKeeps s (execSysSnapq r s) := outKeeps_onSlot (fun k => keeps_sameOp ..)

theorem keeps_configureStream (s : State) (k : Ctx) (r : Record) (n : Nat) (h : W32) : Keeps s (configureStream s k r n h) := by
  unfold configureStream
  dsimp only
  split
  · exact keeps_ite (keeps_sameOp ..) (.comp (keeps_sameOp ..) (keeps_onCore ..))
  · split
    · exact .comp (keeps_trapFails ..) (keeps_quiet (quiet_resolve ..))
    · split
      · exact .comp (keeps_trapFails ..) (keeps_quiet (quiet_resolve ..))
      · exact keeps_ite (.comp (keeps_sameOp ..) (.comp (keeps_quiet (quiet_latchAcquire ..)) (keeps_quiet (quiet_resolve ..)))) (.comp (keeps_sameOp
            ..) (.comp (keeps_onCore ..) (.comp (keeps_quiet (quiet_latchAcquire ..)) (keeps_quiet (quiet_resolve ..)))))

theorem outKeeps_execSysCfg (r : Record) (s : State) : OutKeeps s (execSysCfg r s) := by
  unfold execSysCfg
  refine outKeeps_onSlot ?_
  intro k
  dsimp only
  split
  · exact keeps_configureStream ..
  · split
    · exact .comp (keeps_sameOp ..) (keeps_onCore ..)
    · split
      · exact .comp (keeps_sameOp ..) (keeps_onCore ..)
      · split
        · exact .comp (keeps_sameOp ..) (keeps_onCore ..)
        · split
          · exact .comp (keeps_trapFails ..) (keeps_quiet (quiet_resolve ..))
          · exact .comp (keeps_sameOp ..) (.comp (keeps_onCore ..) (.comp (keeps_quiet (quiet_latchAcquire ..)) (keeps_quiet (quiet_resolve ..))))

theorem outKeeps_execSysDbgset (r : Record) (s : State) : OutKeeps s (execSysDbgset r s) :=
  outKeeps_onSlot (fun k => .comp (keeps_advance ..) (keeps_onCore ..))

theorem outKeeps_execSysHaltq (r : Record) (s : State) : OutKeeps s (execSysHaltq r s) := outKeeps_onSlot (fun k => keeps_sameOp ..)

theorem keeps_placeHandler (s : State) (c w : Nat) (v : Wave) (f : FoundBlock) (d : EntryDesc) (sp : Spot) :
    Keeps s (placeHandler s c w v f d sp) := by
  unfold placeHandler
  dsimp only
  split
  · exact .comp (keeps_quiet (quiet_acquireL1 ..)) (keeps_installWave ..)
  · exact .comp (keeps_onWave ..) (.comp (keeps_onCore ..) (.comp (keeps_quiet (quiet_acquireL1 ..)) (keeps_installWave ..)))

theorem outKeeps_execHandlerPlace (core wslot : Nat) (s : State) : OutKeeps s (execHandlerPlace core wslot s) := by
  unfold execHandlerPlace
  refine OutKeeps.next ?_
  split
  · exact Keeps.refl _
  · split
    · exact Keeps.refl _
    · split
      · exact Keeps.refl _
      · split
        · exact Keeps.refl _
        · exact keeps_placeHandler ..

theorem keeps_wakeCutSlot (s : State) (c : Cut) : Keeps s (wakeCutSlot s c) := by
  unfold wakeCutSlot
  exact keeps_onSlotOf ..

theorem outKeeps_execSnapMarkArrive (slice : Nat) (s : State) : OutKeeps s (execSnapMarkArrive slice s) := by
  unfold execSnapMarkArrive
  refine OutKeeps.next ?_
  split
  · exact Keeps.refl _
  · exact keeps_ite (Keeps.refl _) (keeps_ite (.comp (keeps_wakeCutSlot ..) (.of_same rfl rfl rfl)) (.of_same rfl rfl rfl))

theorem outKeeps_execSnapTokenReturn (slice : Nat) (s : State) : OutKeeps s (execSnapTokenReturn slice s) := by
  unfold execSnapTokenReturn
  refine OutKeeps.next ?_
  split
  · exact Keeps.refl _
  · exact keeps_ite (Keeps.refl _) (.of_same rfl rfl rfl)

end Sys2Proof.Proofs.Keep
end

section
/-! SUPPORT. The host link, fabric peers and the management interface keep the memories canonical. -/

open Sys2Proof Sys2Proof.Machine Sys2Proof.Cert
open Sys2Proof.Proofs.Home Sys2Proof.Proofs.Moves Sys2Proof.Proofs.Lower Sys2Proof.Proofs.Partitions Sys2Proof.Proofs.Stops

namespace Sys2Proof.Proofs.Keep

/-! ## The host link -/

theorem keeps_touchRefused (s : State) (p : Nat) (a : Word) : Keeps s (touchRefused s p a) := keeps_quiet (quiet_logEvent ..)

theorem keeps_hostViolates (s : State) (p : Nat) (a : Word) : Keeps s (hostViolates s p a) := keeps_quiet (quiet_logEvent ..)

theorem keeps_hostBytes (s : State) (p : Nat) (va : Word) (n : Nat) : Keeps s (hostBytes s p va n).1 := by
  unfold hostBytes
  refine Keeps.trans ?_ (keeps_foldl_fst (fun p x => ?_) _ _)
  · exact Keeps.refl _
  · dsimp only
    split
    · exact Keeps.refl _
    · exact .comp (keeps_quiet (quiet_noteHome ..)) (keeps_quiet (quiet_xlatMark ..))

theorem outKeeps_execHostBar0Read (part : Nat) (off : Word) (size : Nat) (s : State) : OutKeeps s (execHostBar0Read part off size s) := by
  unfold execHostBar0Read
  refine OutKeeps.next ?_
  split
  · exact Keeps.refl s
  dsimp only
  split
  · rename_i a _
    split
    · have hv := keeps_hostViolates s part a
      generalize hostViolates s part a = t at hv ⊢
      exact Keeps.mem hv rfl rfl rfl
    · exact .of_same rfl rfl rfl
  · exact Keeps.mem (keeps_hostBytes ..) rfl rfl rfl

theorem keeps_meetsLost (s : State) (p : Nat) (va : Word) (pa : Nat) : Keeps s (meetsLost s p va pa) :=
  keeps_ite (keeps_quiet (quiet_lostCell ..)) (Keeps.refl _)

theorem keeps_hostCell (s : State) (p pa : Nat) (va : Word) (bs : List Byte) : Keeps s (hostCell s p pa va bs) :=
  keeps_ite (keeps_quiet (quiet_lostCell ..)) (keeps_ite (keeps_quiet (quiet_placeWrite ..)) (.comp (keeps_touchRefused ..) (keeps_meetsLost ..)))

theorem keeps_hostChunk (s : State) (p : Nat) (va : Word) (x : Xlat) (bs : List Byte) : Keeps s (hostChunk s p va x bs) := by
  unfold hostChunk
  dsimp only
  split
  · exact .comp (keeps_foldl (fun s x => keeps_hostCell ..) _ _) (.comp (keeps_quiet (quiet_breakTr ..)) (keeps_quiet (quiet_xlatMark ..)))
  · exact .comp (keeps_quiet (quiet_placeWrite ..)) (.comp (keeps_quiet (quiet_breakTr ..)) (keeps_quiet (quiet_xlatMark ..)))

theorem outKeeps_execHostBar0Write (part : Nat) (off : Word) (data : List Byte) (s : State) : OutKeeps s (execHostBar0Write part off data s) := by
  unfold execHostBar0Write
  refine OutKeeps.next ?_
  split
  · exact Keeps.refl _
  · dsimp only
    split
    · exact keeps_ite (keeps_hostViolates ..) (Keeps.refl _)
    · split
      · exact Keeps.refl _
      · refine keeps_foldl (fun s x => ?_) _ _
        split
        · exact Keeps.refl _
        · exact keeps_hostChunk ..

theorem keeps_windowRefuses (s : State) (p : Nat) (a : Word) : Keeps s (windowRefuses s p a) := .comp (keeps_touchRefused ..) (keeps_onPart ..)

theorem outKeeps_execTouch (part : Nat) (addr : Word) (s : State) : OutKeeps s (execTouch part addr s) := by
  unfold execTouch
  refine OutKeeps.next ?_
  split
  · exact Keeps.refl _
  · split
    · exact keeps_windowRefuses ..
    · exact keeps_ite (Keeps.refl _) (keeps_ite (.comp (keeps_wakeCell ..) (keeps_quiet (quiet_xlatMark ..))) (.comp (keeps_meetsLost ..)
          (keeps_quiet (quiet_xlatMark ..))))

theorem outKeeps_execMkpay (part : Nat) (payload : Word) (s : State) : OutKeeps s (execMkpay part payload s) := by
  unfold execMkpay
  refine OutKeeps.next ?_
  dsimp only
  split
  · exact Keeps.refl _
  · split
    · exact keeps_windowRefuses ..
    · exact keeps_ite (Keeps.refl _) (keeps_ite (.comp (keeps_windowRefuses ..) (keeps_meetsLost ..)) (.comp (keeps_quiet (quiet_cellPut ..))
          (keeps_quiet (quiet_xlatMark ..))))

theorem outKeeps_execPktag (part : Nat) (s : State) : OutKeeps s (execPktag part s) :=
  OutKeeps.next (keeps_ite (Keeps.refl _) (.comp (keeps_regReads ..) (keeps_ite (keeps_touchRefused ..) (Keeps.refl _))))

theorem outKeeps_execTouchStatusRead (part : Nat) (s : State) : OutKeeps s (execTouchStatusRead part s) :=
  OutKeeps.next (keeps_ite (Keeps.refl _) (.comp (keeps_regReads ..) (keeps_onPart ..)))

theorem keeps_windowUse (s : State) (p : Nat) (r : WindowReg) : Keeps s (windowUse s p r) := by
  unfold windowUse
  split
  · exact Keeps.refl _
  · split
    · exact keeps_onPart ..
    · exact keeps_onPart ..
    · exact keeps_regReads ..
    · exact keeps_regReads ..
    · exact keeps_onPart ..
    · exact keeps_regReads ..
    · exact Keeps.refl _

theorem outKeeps_execMsiXUnmask (part vec : Nat) (s : State) : OutKeeps s (execMsiXUnmask part vec s) :=
  OutKeeps.next (keeps_ite (Keeps.refl _) (keeps_ite (.of_same rfl rfl rfl) (keeps_onPart ..)))

theorem keeps_dropRange (s : State) (p : Nat) (base : Word) (n : Nat) : Keeps s (dropRange s p base n) := .of_same rfl rfl rfl

theorem keeps_completeInv (s : State) (p : Nat) (q : Word × Nat) : Keeps s (completeInv s p q) :=
  keeps_ite (Keeps.refl _) (.comp (keeps_onPart ..) (.comp (keeps_quiet (quiet_dropEntries ..)) (keeps_dropRange ..)))

theorem keeps_settleInv (s : State) (p : Nat) : Keeps s (settleInv s p) := keeps_foldl (fun s x => keeps_completeInv ..) _ _

theorem outKeeps_execMgTlbinv (part : Nat) (access : RegAccess) (s : State) : OutKeeps s (execMgTlbinv part access s) := by
  unfold execMgTlbinv
  refine OutKeeps.next ?_
  split
  · exact .comp (keeps_settleInv ..) (.comp (keeps_onPart ..) (.comp (keeps_quiet (quiet_dropEntries ..)) (keeps_dropRange ..)))
  · exact .comp (keeps_regReads ..) (keeps_settleInv ..)

theorem keeps_streamOut (s : State) (p : Nat) (pl : Nat → Place) (base : Nat) (bs : List Byte) (bad : List Nat) :
    Keeps s (streamOut s p pl base bs bad) :=
  .comp (keeps_foldl (fun s x => keeps_quiet (quiet_markPoison ..)) _ _) (keeps_foldl (fun s x => keeps_quiet (quiet_placeWrite ..)) _ _)

theorem keeps_snapTarget (s : State) (p : Nat) (bs : List Byte) (bad : List Nat) : Keeps s (snapTarget s p bs bad).1 := by
  unfold snapTarget
  dsimp only
  split
  · exact keeps_fst_ite (Keeps.refl _) (keeps_fst_ite (Keeps.refl _) (keeps_streamOut ..))
  · split
    · exact .comp (keeps_quiet (Partitions.quiet_logWorld ..)) (keeps_quiet (quiet_resolve ..))
    · exact keeps_fst_ite (keeps_quiet (quiet_resolve ..)) (.comp (keeps_streamOut ..) (keeps_quiet (quiet_resolve ..)))

theorem outKeeps_execSnapStreamComplete (part : Nat) (s : State) : OutKeeps s (execSnapStreamComplete part s) := by
  unfold execSnapStreamComplete
  refine OutKeeps.next ?_
  dsimp only
  split
  · split
    · exact Keeps.refl _
    · split
      · exact .comp (keeps_onPart ..) (keeps_snapTarget ..)
      · exact .comp (keeps_onPart ..) (keeps_snapTarget ..)
  · split
    · exact Keeps.refl _
    · split
      · exact .comp (keeps_onPart ..) (keeps_snapTarget ..)
      · exact .comp (keeps_onPart ..) (keeps_snapTarget ..)

theorem keeps_peerStore (s : State) (pa : Nat) (bs : List Byte) : Keeps s (peerStore s pa bs) :=
  keeps_foldl (fun s x => keeps_quiet (quiet_placeWrite ..)) _ _

theorem keeps_keepPoison (s : State) (pa n : Nat) (t : State) (ht : Keeps s t) : Keeps s (keepPoison s pa n t) := by
  unfold keepPoison
  refine Keeps.trans ?_ (keeps_foldl (fun s x => ?_) _ _)
  · assumption
  · exact keeps_quiet (quiet_markPoison ..)

theorem outKeeps_execFabricPeerAccess (port addr : Nat) (op : PeerOp) (s : State) : OutKeeps s (execFabricPeerAccess port addr op s) := by
  unfold execFabricPeerAccess
  refine OutKeeps.next ?_
  extract_lets n old poisoned s1 src
  split
  · exact Keeps.refl s
  split
  · exact keeps_quiet (quiet_logEvent ..)
  split
  · exact keeps_peerStore ..
  · exact keeps_peerStore ..
  split
  · exact Keeps.refl s
  have h1 : Keeps s s1 := by
    unfold s1
    split
    · exact keeps_keepPoison _ _ _ _ (keeps_peerStore ..)
    · exact Keeps.refl s
  clear_value s1
  exact Keeps.mem (t := src) (h1.trans (keeps_regReads ..)) rfl rfl rfl


/-! ## Management -/

theorem outKeeps_execMgPartitionConfig (part off : Nat) (value : Word) (s : State) : OutKeeps s (execMgPartitionConfig part off value s) :=
  OutKeeps.next (keeps_ite (Keeps.refl _) (keeps_ite (keeps_ite (.of_same rfl rfl rfl) (keeps_onPart ..)) (keeps_ite (keeps_ite (.of_same rfl rfl
      rfl) (keeps_onPart ..)) (Keeps.refl _))))

theorem outKeeps_execMgStatus (s : State) : OutKeeps s (execMgStatus s) := OutKeeps.next (.comp (keeps_regReads ..) (.of_same rfl rfl rfl))

theorem keeps_setPower (s : State) (p : Nat) (v0 : Word) : Keeps s (setPower s p v0) :=
  .comp (keeps_foldl (fun s x => keeps_onCore ..) _ _) (keeps_onPart ..)

theorem keeps_writePartReg (s : State) (p off : Nat) (v : Word) : Keeps s (writePartReg s p off v) := by
  unfold writePartReg
  split
  · exact keeps_onPart ..
  · exact keeps_onPart ..
  · exact keeps_onPart ..
  · exact keeps_onPart ..
  · exact keeps_onPart ..
  · exact keeps_onPart ..
  · exact keeps_onPart ..
  · exact keeps_onPart ..
  · exact keeps_onPart ..
  · exact keeps_setPower ..
  · exact keeps_onPart ..
  · exact keeps_onPart ..
  · exact keeps_onPart ..
  · exact Keeps.refl _

theorem outKeeps_execMgRegisterWrite (off : Nat) (value : Word) (s : State) : OutKeeps s (execMgRegisterWrite off value s) :=
  OutKeeps.next (keeps_ite (.of_same rfl rfl rfl) (keeps_ite (keeps_ite (.of_same rfl rfl rfl) (.of_same rfl rfl rfl)) (keeps_ite (keeps_writePartReg
      ..) (Keeps.refl _))))

theorem keeps_stopCore (s : State) (c : Nat) : Keeps s (stopCore s c) := by
  unfold stopCore
  split
  · exact keeps_preemptCore ..
  · exact keeps_ite (.comp (keeps_preemptCore ..) (.comp (keeps_onSlotOf ..) (keeps_dropRegion ..))) (keeps_ite (keeps_setRegion ..) (Keeps.refl _))

theorem keeps_stopPart (s : State) (p : Nat) (exch : Bool) : Keeps s (stopPart s p exch) :=
  .comp (keeps_foldl (fun s x => keeps_stopCore ..) _ _) (keeps_onPart ..)

theorem outKeeps_execExchange (part : Nat) (s : State) : OutKeeps s (execExchange part s) :=
  OutKeeps.next (keeps_ite (Keeps.refl _) (keeps_ite (keeps_stopPart ..) (keeps_ite (keeps_onPart ..) (Keeps.refl _))))

theorem outKeeps_execHalt (part : Nat) (s : State) : OutKeeps s (execHalt part s) := OutKeeps.next (keeps_ite (keeps_stopPart ..) (Keeps.refl _))

theorem outKeeps_execPswapHalted (part : Nat) (s : State) : OutKeeps s (execPswapHalted part s) :=
  OutKeeps.next (keeps_ite (Keeps.refl _) (keeps_ite (keeps_onPart ..) (keeps_ite (keeps_onPart ..) (Keeps.refl _))))

theorem keeps_resumeWave (s : State) (c w : Nat) : Keeps s (resumeWave s c w) := by
  unfold resumeWave
  split
  · exact Keeps.refl _
  · split
    · exact Keeps.refl _
    · split
      · exact Keeps.refl _
      · exact keeps_ite (keeps_returnFrom ..) (keeps_deliverStop ..)

theorem keeps_resumeRest (s : State) (p : Nat) : Keeps s (resumeRest s p) :=
  keeps_foldl (fun s x => keeps_unlessHeld _ _ (fun t => .comp (keeps_onPart ..) (keeps_resumeWave ..))) _ _

theorem keeps_resumePart (s : State) (p : Nat) : Keeps s (resumePart s p) :=
  .comp (keeps_resumeRest ..) (.comp (keeps_foldl (fun s x => keeps_onCore ..) _ _) (keeps_onPart ..))

theorem outKeeps_execResume (part : Nat) (s : State) : OutKeeps s (execResume part s) :=
  OutKeeps.next (keeps_ite (keeps_resumePart ..) (Keeps.refl _))

theorem keeps_swapContexts (s : State) (p : Nat) : Keeps s (swapContexts s p) := by
  unfold swapContexts
  refine keeps_foldl (fun s x => ?_) _ _
  dsimp only
  split
  · exact Keeps.refl _
  · exact .comp (keeps_setCore ..) (.of_same rfl rfl rfl)

theorem outKeeps_execPswapExchangeDone (part : Nat) (s : State) : OutKeeps s (execPswapExchangeDone part s) :=
  OutKeeps.next (keeps_ite (.comp (keeps_resumePart ..) (keeps_swapContexts ..)) (Keeps.refl _))

theorem keeps_discardWave (s : State) (c w : Nat) : Keeps s (discardWave s c w) := by
  unfold discardWave
  split
  · exact Keeps.refl _
  · exact .comp (keeps_setWave ..) (.comp (keeps_quiet (quiet_endAccesses ..)) (.comp (keeps_settleWave ..) (.comp (keeps_quiet
        (quiet_carriageDiscard ..)) (keeps_quiet (quiet_carriageDiscard ..)))))

theorem keeps_abortCommands (s : State) (c : Nat) : Keeps s (abortCommands s c) := keeps_foldl (fun s x => keeps_abortCmd ..) _ _

theorem keeps_failPending (s : State) (p : Nat) : Keeps s (failPending s p) := keeps_foldl (fun s x => keeps_reportFailed ..) _ _

theorem outKeeps_execResetp (part : Nat) (s : State) : OutKeeps s (execResetp part s) := by
  unfold execResetp
  refine OutKeeps.next ?_
  split
  · exact Keeps.refl _
  · dsimp only
    refine Keeps.trans ?_ (keeps_onPart ..)
    refine Keeps.mem (t := (failPending _ _)) ?_ rfl rfl rfl
    exact .comp (keeps_failPending ..) (.comp (keeps_foldl (fun s x => keeps_cellFail ..) _ _) (.comp (keeps_foldl (fun s x => keeps_onCore ..) _ _)
        (.comp (keeps_foldl (fun s x => keeps_abortCommands ..) _ _) (keeps_foldl (fun s x => keeps_foldl (fun s x => keeps_discardWave ..) _ _) _
        _))))

theorem keeps_endRegion (s : State) (c w : Nat) : Keeps s (endRegion s c w) := by
  unfold endRegion
  split
  · exact keeps_ite (.comp (keeps_dropRegion ..) (keeps_discardIters ..)) (Keeps.refl _)
  · exact Keeps.refl _

theorem outKeeps_execMailboxEndWave (core wslot : Nat) (s : State) : OutKeeps s (execMailboxEndWave core wslot s) := by
  unfold execMailboxEndWave
  refine OutKeeps.next ?_
  split
  · exact Keeps.refl _
  · dsimp only
    split
    · split
      · exact .comp (keeps_retireWave ..) (.comp (keeps_endWaveLanes ..) (.comp (keeps_onWave ..) (.comp (keeps_quiet (quiet_endAccesses ..)) (.comp
            (keeps_settleWave ..) (.comp (keeps_quiet (quiet_carriageDiscard ..)) (.comp (keeps_quiet (quiet_carriageDiscard ..)) (keeps_endRegion
            ..)))))))
      · exact .comp (keeps_endWaveLanes ..) (.comp (keeps_onWave ..) (.comp (keeps_quiet (quiet_endAccesses ..)) (.comp (keeps_settleWave ..) (.comp
            (keeps_quiet (quiet_carriageDiscard ..)) (.comp (keeps_quiet (quiet_carriageDiscard ..)) (keeps_endRegion ..))))))
    · exact .comp (keeps_endWaveLanes ..) (.comp (keeps_onWave ..) (.comp (keeps_quiet (quiet_endAccesses ..)) (.comp (keeps_settleWave ..) (.comp
          (keeps_quiet (quiet_carriageDiscard ..)) (.comp (keeps_quiet (quiet_carriageDiscard ..)) (keeps_endRegion ..))))))

theorem outKeeps_execMailboxTret (core wslot : Nat) (s : State) : OutKeeps s (execMailboxTret core wslot s) := by
  unfold execMailboxTret
  refine OutKeeps.next ?_
  split
  · exact Keeps.refl _
  · exact keeps_ite (keeps_returnFrom ..) (Keeps.refl _)

theorem outKeeps_execMailboxReadContext (core : Nat) (s : State) : OutKeeps s (execMailboxReadContext core s) :=
  OutKeeps.next (keeps_ite (.of_same rfl rfl rfl) (Keeps.refl _))

theorem keeps_restoreWaking (s : State) (p : Nat) (q : Nat × Nat) : Keeps s (restoreWaking s p q) := .of_same rfl rfl rfl

theorem keeps_restoreRecords (s : State) (p : Nat) : Keeps s (restoreRecords s p) := keeps_foldl (fun s x => keeps_restoreWaking ..) _ _

theorem outKeeps_execMailboxRestoreContext (part src dst : Nat) (s : State) : OutKeeps s (execMailboxRestoreContext part src dst s) :=
  OutKeeps.next (keeps_ite (Keeps.refl _) (.comp (keeps_setCore ..) (.comp (keeps_abortCommands ..) (keeps_restoreRecords ..))))

theorem keeps_loadContext (s : State) (n : Nat) (k : Core) : Keeps s (loadContext s n k) := .of_same rfl rfl rfl

theorem keeps_restorePage (s : State) (p : Nat) (va : Word) (data : List Byte) (tags : List (BitVec 2)) : Keeps s (restorePage s p va data tags) := by
  unfold restorePage
  split
  · exact Keeps.refl _
  · refine Keeps.trans ?_ (keeps_restoreRecords ..)
    refine keeps_foldl (fun s x => ?_) _ _
    dsimp only
    split
    · exact Keeps.refl _
    · split
      · split
        · exact .comp (keeps_foldl (fun s x => keeps_quiet (quiet_setTag ..)) _ _) (keeps_quiet (quiet_placeWrite ..))
        · exact keeps_quiet (quiet_placeWrite ..)
      · exact Keeps.refl _

theorem outKeeps_execFirmwareVerify (slot : Nat) (image signature : List Byte) (s : State) : OutKeeps s (execFirmwareVerify slot image signature s) :=
  OutKeeps.next (keeps_ite (.of_same rfl rfl rfl) (.of_same rfl rfl rfl))

theorem outKeeps_execAttestationRequest (nonce : List Byte) (s : State) : OutKeeps s (execAttestationRequest nonce s) :=
  OutKeeps.next (keeps_ite (Keeps.refl _) (.of_same rfl rfl rfl))

theorem keeps_stackFails (s : State) (n : Nat) : Keeps s (stackFails s n) := keeps_ite (.of_same rfl rfl rfl) (Keeps.refl _)

theorem keeps_firstDie (s : State) : Keeps s (firstDie s) := keeps_ite (.comp (keeps_onDie ..) (.of_same rfl rfl rfl)) (Keeps.refl _)

theorem keeps_fullService (s : State) : Keeps s (fullService s) := keeps_ite (.comp (keeps_onDie ..) (.of_same rfl rfl rfl)) (Keeps.refl _)

theorem outKeeps_execDieSelftest (die : Nat) (pass : Bool) (s : State) : OutKeeps s (execDieSelftest die pass s) :=
  OutKeeps.next (keeps_ite (Keeps.refl _) (keeps_ite (keeps_ite (.of_same rfl rfl rfl) (keeps_onDie ..)) (keeps_ite (keeps_firstDie ..) (.comp
      (keeps_fullService ..) (keeps_ite (.of_same rfl rfl rfl) (keeps_onDie ..))))))

theorem outKeeps_execDeviceReset (s : State) : OutKeeps s (execDeviceReset s) :=
  OutKeeps.next ⟨fun ⟨_, hh, _⟩ => ⟨rfl, hh, rfl⟩⟩

theorem outKeeps_execFabricPortDown (port : Nat) (s : State) : OutKeeps s (execFabricPortDown port s) :=
  OutKeeps.next (keeps_ite (Keeps.refl _) (.comp (keeps_quiet (quiet_logEvent ..)) (.of_same rfl rfl rfl)))

theorem outKeeps_execLinkTraining (cxlCache cxlMem : Bool) (s : State) : OutKeeps s (execLinkTraining cxlCache cxlMem s) :=
  OutKeeps.next (.of_same rfl rfl rfl)

theorem outKeeps_execClockChange (die : Option Nat) (mhz : Nat) (s : State) : OutKeeps s (execClockChange die mhz s) := by
  unfold execClockChange
  refine OutKeeps.next ?_
  split
  · exact keeps_ite (.of_same rfl rfl rfl) (Keeps.refl _)
  · exact keeps_ite (keeps_onDie ..) (Keeps.refl _)

end Sys2Proof.Proofs.Keep
end

section
/-! SUPPORT. Every instruction, every turn and so every step keeps the memories canonical (O58). -/

open Sys2Proof Sys2Proof.Machine Sys2Proof.Cert
open Sys2Proof.Proofs.Home Sys2Proof.Proofs.Moves Sys2Proof.Proofs.Lower Sys2Proof.Proofs.Partitions Sys2Proof.Proofs.Stops

namespace Sys2Proof.Proofs.Keep

/-! ## Every instruction -/

theorem outKeeps_exec (i : Instr) (s : State) : OutKeeps s (exec i s) := by
  unfold exec
  split
  · exact outKeeps_execNop ..
  · exact outKeeps_execIadd ..
  · exact outKeeps_execIsub ..
  · exact outKeeps_execImul ..
  · exact outKeeps_execImad ..
  · exact outKeeps_execIdiv ..
  · exact outKeeps_execImin ..
  · exact outKeeps_execImax ..
  · exact outKeeps_execIabs ..
  · exact outKeeps_execAnd ..
  · exact outKeeps_execOr ..
  · exact outKeeps_execXor ..
  · exact outKeeps_execAndn ..
  · exact outKeeps_execShl ..
  · exact outKeeps_execShr ..
  · exact outKeeps_execFshf ..
  · exact outKeeps_execBcnt ..
  · exact outKeeps_execBfx ..
  · exact outKeeps_execIcmp ..
  · exact outKeeps_execSel ..
  · exact outKeeps_execLea ..
  · exact outKeeps_execMov ..
  · exact outKeeps_execFadd ..
  · exact outKeeps_execFsub ..
  · exact outKeeps_execFmul ..
  · exact outKeeps_execFfma ..
  · exact outKeeps_execFmin ..
  · exact outKeeps_execFmax ..
  · exact outKeeps_execFsgn ..
  · exact outKeeps_execFcmp ..
  · exact outKeeps_execFcls ..
  · exact outKeeps_execFrnd ..
  · exact outKeeps_execFscl ..
  · exact outKeeps_execCvt ..
  · exact outKeeps_execPack ..
  · exact outKeeps_execUnpk ..
  · exact outKeeps_execDotp ..
  · exact outKeeps_execSfn ..
  · exact outKeeps_execRowmax ..
  · exact outKeeps_execRowsum ..
  · exact outKeeps_execSmax ..
  · exact outKeeps_execRmsn ..
  · exact outKeeps_execShfl ..
  · exact outKeeps_execVote ..
  · exact outKeeps_execRedl ..
  · exact outKeeps_execScnl ..
  · exact outKeeps_execGets ..
  · exact outKeeps_execUnif ..
  · exact outKeeps_execKeep ..
  · exact outKeeps_execBysw ..
  · exact outKeeps_execBr ..
  · exact outKeeps_execBrc ..
  · exact outKeeps_execJoin ..
  · exact outKeeps_execLoop ..
  · exact outKeeps_execCall ..
  · exact outKeeps_execCalli ..
  · exact outKeeps_execStubBind ..
  · exact outKeeps_execRet ..
  · exact outKeeps_execExit ..
  · exact outKeeps_execYield ..
  · exact outKeeps_execTrap ..
  · exact outKeeps_execBrk ..
  · exact outKeeps_execFeat ..
  · exact outKeeps_execLd ..
  · exact outKeeps_execSt ..
  · exact outKeeps_execLdb ..
  · exact outKeeps_execStb ..
  · exact outKeeps_execAtom ..
  · exact outKeeps_execAtmf ..
  · exact outKeeps_execFence ..
  · exact outKeeps_execFenceEng ..
  · exact outKeeps_execSpct ..
  · exact outKeeps_execSpcc ..
  · exact outKeeps_execPfd ..
  · exact outKeeps_execPfi ..
  · exact outKeeps_execCellMake ..
  · exact outKeeps_execCellSet ..
  · exact outKeeps_execCellTag ..
  · exact outKeeps_execCellPeek ..
  · exact outKeeps_execRqry ..
  · exact outKeeps_execBarWait ..
  · exact outKeeps_execBarArrive ..
  · exact outKeeps_execBexp ..
  · exact outKeeps_execSpawnTask ..
  · exact outKeeps_execSpawnLaunch ..
  · exact outKeeps_execWaitAny ..
  · exact outKeeps_execWaitAll ..
  · exact outKeeps_execWaitFirst ..
  · exact outKeeps_execWaitRing ..
  · exact outKeeps_execTagsRead ..
  · exact outKeeps_execTagsClr ..
  · exact outKeeps_execSend ..
  · exact outKeeps_execCopy ..
  · exact outKeeps_execPubl ..
  · exact outKeeps_execSpop ..
  · exact outKeeps_execSrel ..
  · exact outKeeps_execMma ..
  · exact outKeeps_execMmas ..
  · exact outKeeps_execMtile ..
  · exact outKeeps_execLdq ..
  · exact outKeeps_execMsty ..
  · exact outKeeps_execMzy ..
  · exact outKeeps_execTmeet ..
  · exact outKeeps_execTenderLoop ..
  · exact outKeeps_execTenderSwitch ..
  · exact outKeeps_execCouple ..
  · exact outKeeps_execUncpl ..
  · exact outKeeps_execChase ..
  · exact outKeeps_execSysTret ..
  · exact outKeeps_execSysSnap ..
  · exact outKeeps_execSysSnapq ..
  · exact outKeeps_execSysCfg ..
  · exact outKeeps_execSysDbgset ..
  · exact outKeeps_execSysHaltq ..
  · exact outKeeps_execWin ..
  · exact outKeeps_execDlit ..
  · exact outKeeps_execDspl ..
  · exact outKeeps_execFetchMarker ..
  · exact outKeeps_execHandlerPlace ..
  · exact outKeeps_execAccessPerformed ..
  · exact outKeeps_execWalkComplete ..
  · exact outKeeps_execEvalRecordMove ..
  · exact outKeeps_execCarriageCommit ..
  · exact outKeeps_execDequePop ..
  · exact outKeeps_execBinTimerExpiry ..
  · exact outKeeps_execBinLaunch ..
  · exact outKeeps_execSteal ..
  · exact outKeeps_execLaunchReady ..
  · exact outKeeps_execBlockPlace ..
  · exact outKeeps_execLaunchReserve ..
  · exact outKeeps_execConfigSwap ..
  · exact outKeeps_execBlockRetire ..
  · exact outKeeps_execLaunchComplete ..
  · exact outKeeps_execEngineComplete ..
  · exact outKeeps_execSendArrive ..
  · exact outKeeps_execPublish ..
  · exact outKeeps_execShadowWriteIssue ..
  · exact outKeeps_execCouplePlacementDone ..
  · exact outKeeps_execParkingQuiet ..
  · exact outKeeps_execStationFire ..
  · exact outKeeps_execCoupleQuantumExpiry ..
  · exact outKeeps_execCoupleStill ..
  · exact outKeeps_execRegionDrained ..
  · exact outKeeps_execLoweringComplete ..
  · exact outKeeps_execSinterEvict ..
  · exact outKeeps_execSnapMarkArrive ..
  · exact outKeeps_execSnapTokenReturn ..
  · exact outKeeps_execSnapStreamComplete ..
  · exact outKeeps_execRlimWindow ..
  · exact outKeeps_execHostBar0Read ..
  · exact outKeeps_execHostBar0Write ..
  · exact outKeeps_execTouch ..
  · exact outKeeps_execMkpay ..
  · exact outKeeps_execPktag ..
  · exact outKeeps_execTouchStatusRead ..
  · exact outKeeps_execMsiXUnmask ..
  · exact outKeeps_execMgTlbinv ..
  · exact outKeeps_execMgModver ..
  · exact outKeeps_execModuleVerified ..
  · exact outKeeps_execExchange ..
  · exact outKeeps_execHalt ..
  · exact outKeeps_execResume ..
  · exact outKeeps_execPswapHalted ..
  · exact outKeeps_execPswapExchangeDone ..
  · exact outKeeps_execMgPartitionConfig ..
  · exact outKeeps_execMgStatus ..
  · exact outKeeps_execMgRegisterWrite ..
  · exact outKeeps_execResetp ..
  · exact outKeeps_execMailboxEndWave ..
  · exact outKeeps_execMailboxTret ..
  · exact outKeeps_execMailboxReadContext ..
  · exact outKeeps_execAttestationRequest ..
  · exact outKeeps_execFirmwareVerify ..
  · exact outKeeps_execDieSelftest ..
  · exact outKeeps_execDeviceReset ..
  · exact outKeeps_execFabricPortDown ..
  · exact outKeeps_execLinkTraining ..
  · exact outKeeps_execClockChange ..
  · exact outKeeps_execFabricPeerAccess ..
  · exact outKeeps_execMailboxRestoreContext ..


/-! ## Turns -/

theorem keeps_takeHalt (s : State) (k : Ctx) (i : Instr) (m : Match) : Keeps s (takeHalt s k i m) := by
  unfold takeHalt
  exact .comp (keeps_takeStop ..) (keeps_ite (Keeps.refl _) (keeps_advance ..))

theorem outKeeps_runPoisoned (s : State) (k : Ctx) (i : Instr) (bad : List Nat) : OutKeeps s (runPoisoned s k i bad) := by
  unfold runPoisoned
  extract_lets inCar e good cur s1
  have h1 : Keeps s s1 := .of_same rfl rfl rfl
  clear_value s1
  have he : OutKeeps s (exec i s1) := .after h1 (outKeeps_exec ..)
  split
  · refine .next (Keeps.trans ?_ (keeps_takeTrap ..))
    exact Keeps.mem h1 rfl rfl rfl
  split
  · rename_i t heq
    have ht := he.keeps t heq
    split
    · exact .next ht
    split
    · exact .next ht
    · exact .next (ht.trans (keeps_takeStop ..))
  · exact he

theorem keeps_meetIllegal (s : State) (c w x : Nat) (v : Wave) : Keeps s (meetIllegal s c w x v) :=
  keeps_ite (.comp (keeps_takeStop ..) (.comp (keeps_onSlotOf ..) (.comp (keeps_quiet (quiet_logEvent ..)) (keeps_onDie ..)))) (.comp (keeps_onSlotOf
      ..) (.comp (keeps_quiet (quiet_logEvent ..)) (keeps_onDie ..)))

theorem keeps_entryIllegal (s : State) (c w : Nat) (v : Wave) (e : Replay) : Keeps s (entryIllegal s c w v e) := keeps_takeStop ..

theorem keeps_endRun (s : State) (c w x : Nat) : Keeps s (endRun s c w x) := keeps_onWave ..

theorem keeps_dropStepOver (k : Ctx) (cur : Issue) (s : State) : Keeps s (dropStepOver k cur s) := by
  unfold dropStepOver
  split
  · exact Keeps.refl _
  · split
    · exact Keeps.refl _
    · exact keeps_onSlotOf ..

theorem outKeeps_runWord (s : State) (i : Instr) : OutKeeps s (runWord s i) := by
  unfold runWord
  split
  · exact OutKeeps.next (Keeps.refl _)
  · split
    · exact OutKeeps.next (keeps_advance ..)
    · dsimp only
      split
      · exact OutKeeps.next (keeps_takeHalt ..)
      · split
        · refine outKeeps_mapNext ?_ ?_
          · intro t
            exact keeps_dropStepOver ..
          · split
            · exact outKeeps_exec ..
            · exact outKeeps_runPoisoned ..
        · split
          · exact outKeeps_exec ..
          · exact outKeeps_runPoisoned ..

theorem keeps_keepEntry (s : State) (c w n : Nat) (e : Replay) : Keeps s (keepEntry s c w n e) := by
  unfold keepEntry
  split
  · split
    · exact keeps_setWave ..
    · exact Keeps.refl _
  · exact Keeps.refl _

theorem keeps_dropEntry (s : State) (c w n : Nat) : Keeps s (dropEntry s c w n) := keeps_onWave ..

theorem keeps_newCode (s : State) (c w x : Nat) (cur : Issue) : Keeps s (newCode s c w x cur) := by
  unfold newCode
  split
  · exact Keeps.refl _
  · exact keeps_ite (Keeps.refl _) (.comp (keeps_onWave ..) (.of_same rfl rfl rfl))

theorem keeps_atWord (s : State) (c w x : Nat) (cur : Issue) (at' : Option Nat) : Keeps s (atWord s c w x cur at') := by
  unfold atWord
  split
  · exact keeps_onSlotOf ..
  · exact .comp (keeps_onSlotOf ..) (keeps_newCode ..)

theorem outKeeps_runCode (s : State) (c w x : Nat) (v : Wave) (i : Instr) (cur : Issue) (at' : Option Nat) :
    OutKeeps s (runCode s c w x v i cur at') := by
  unfold runCode
  dsimp only
  split
  · refine OutKeeps.after ?_ (outKeeps_runWord ..)
    refine Keeps.mem (t := (atWord _ _ _ _ _ _)) ?_ rfl rfl rfl
    exact keeps_atWord ..
  · refine outKeeps_mapNext ?_ ?_
    · intro t
      exact keeps_keepEntry ..
    · refine OutKeeps.after ?_ (outKeeps_runWord ..)
      refine Keeps.mem (t := (skipValue _ _ _ _ _)) ?_ rfl rfl rfl
      exact .comp (keeps_skipValue ..) (.comp (keeps_dropEntry ..) (keeps_atWord ..))

theorem outKeeps_runSlot (s : State) (c w x : Nat) (defer : Bool) : OutKeeps s (runSlot s c w x defer) := by
  unfold runSlot
  split
  · exact OutKeeps.next (Keeps.refl _)
  · split
    · exact outKeeps_runCode ..
    · split
      · exact OutKeeps.next (keeps_entryIllegal ..)
      · dsimp only
        refine outKeeps_mapNext ?_ ?_
        · intro t
          exact keeps_keepEntry ..
        · refine OutKeeps.after ?_ (outKeeps_runWord ..)
          refine Keeps.mem (t := (dropEntry _ _ _ _)) ?_ rfl rfl rfl
          exact keeps_dropEntry ..
    · exact OutKeeps.next (keeps_meetIllegal ..)
    · exact OutKeeps.next (keeps_endRun ..)
    · exact OutKeeps.next (Keeps.refl _)

theorem keeps_wakeSlot (s : State) (c w x : Nat) : Keeps s (wakeSlot s c w x) := by
  unfold wakeSlot
  split
  · exact Keeps.refl _
  · exact keeps_ite (keeps_onSlotOf ..) (Keeps.refl _)

theorem keeps_holdSlot (s : State) (c w x : Nat) : Keeps s (holdSlot s c w x) := by
  unfold holdSlot
  split
  · exact Keeps.refl _
  · dsimp only
    split
    · split
      · exact Keeps.refl _
      · exact .comp (keeps_askLowering ..) (keeps_slotWaits ..)
      · exact keeps_slotWaits ..
    · exact Keeps.refl _

theorem keeps_tellReport (s : State) (c w : Nat) : Keeps s (tellReport s c w) := by
  unfold tellReport
  split
  · exact Keeps.refl _
  · split
    · exact Keeps.refl _
    · split
      · exact Keeps.refl _
      · split
        · exact keeps_gateRegion ..
        · dsimp only
          split
          · exact keeps_ite (.comp (keeps_setWave ..) (keeps_takeStop ..)) (keeps_takeStop ..)
          · exact keeps_takeStop ..

theorem keeps_preemptLate (s : State) (c w : Nat) : Keeps s (preemptLate s c w) := by
  unfold preemptLate
  split
  · exact Keeps.refl _
  · exact keeps_ite (keeps_preemptWave ..) (Keeps.refl _)

theorem keeps_refresh (s : State) (c : Nat) : Keeps s (refresh s c) := by
  unfold refresh
  dsimp only
  refine Keeps.trans ?_ (keeps_foldl (fun s x => ?_) _ _)
  · refine Keeps.trans ?_ (keeps_foldl (fun s x => ?_) _ _)
    · refine Keeps.trans ?_ (keeps_foldl (fun s x => ?_) _ _)
      · exact .comp (keeps_foldl (fun s x => keeps_unlessHeld _ _ (fun t => keeps_tellReport ..)) _ _) (keeps_foldl (fun s x => keeps_unlessHeld _ _
            (fun t => keeps_preemptLate ..)) _ _)
      · split
        · exact Keeps.refl _
        · exact keeps_onWave ..
    · exact keeps_wakeSlot ..
  · exact keeps_holdSlot ..

theorem keeps_force (s : State) (i : Instr) : Keeps s (force s i) := by
  unfold force
  have h1 : Keeps s { s with cur := Issue.reset } := .of_same rfl rfl rfl
  split
  · split
    · exact Keeps.refl s
    · exact h1.trans ((outKeeps_exec ..).keeps _ ‹_›)
  · exact Keeps.refl s

theorem keeps_endCycle (s : State) (c : Nat) : Keeps s (endCycle s c) :=
  .comp (keeps_foldl (fun s x => keeps_force ..) _ _) (.comp (keeps_watchStill ..) (.comp (keeps_onCore ..) (.of_same rfl rfl rfl)))

theorem keeps_endFabric (s : State) : Keeps s (endFabric s) := .comp (keeps_foldl (fun s x => keeps_force ..) _ _) (.of_same rfl rfl rfl)

theorem keeps_fabricCycles (n : Nat) (s : State) : Keeps s (fabricCycles n s) := by
  induction n generalizing s with
  | zero => exact Keeps.refl s
  | succ n ih => exact (keeps_endFabric s).trans (ih _)

theorem keeps_idleCycle (s : State) (c : Nat) : Keeps s (idleCycle s c) := .comp (keeps_endCycle ..) (keeps_onCore ..)

theorem keeps_idleCycles (c n : Nat) (s : State) : Keeps s (idleCycles c n s) := by
  induction n generalizing s with
  | zero => exact Keeps.refl s
  | succ n ih =>
    unfold idleCycles
    dsimp only
    split
    · exact keeps_refresh ..
    · exact ((keeps_refresh ..).trans (keeps_idleCycle ..)).trans (ih _)

theorem keeps_parkSwitch (s : State) (c w x : Nat) : Keeps s (parkSwitch s c w x) := by
  unfold parkSwitch
  split
  · exact Keeps.refl _
  · split
    · exact keeps_slotWaits ..
    · exact Keeps.refl _

theorem keeps_parkSlots (s : State) (c w x : Nat) (before : Option Wave) : Keeps s (parkSlots s c w x before) :=
  keeps_ite (keeps_parkSwitch ..) (.comp (keeps_parkSwitch ..) (keeps_parkSwitch ..))

theorem keeps_afterIssue (s : State) (c w x : Nat) (p : Pace) (before : Option Wave) : Keeps s (afterIssue s c w x p before) :=
  keeps_ite (keeps_onSlotOf ..) (.comp (keeps_endCycle ..) (.comp (keeps_onCore ..) (keeps_ite (.comp (keeps_parkSlots ..) (keeps_onSlotOf ..))
      (keeps_onSlotOf ..))))

theorem outKeeps_issueTurn (s : State) (c : Nat) (defer : Bool) : OutKeeps s (issueTurn s c defer) := by
  unfold issueTurn
  dsimp only
  split
  · exact OutKeeps.next (.comp (keeps_idleCycle ..) (keeps_refresh ..))
  · exact outKeeps_mapNext (fun t => keeps_afterIssue ..) (OutKeeps.after (keeps_refresh ..) (outKeeps_runSlot ..))

theorem keeps_issueHeld (s : State) (c : Nat) : Keeps s (issueHeld s c) := by
  unfold issueHeld
  dsimp only
  split
  · exact .comp (keeps_idleCycle ..) (keeps_refresh ..)
  · exact .comp (keeps_idleCycle ..) (.comp (keeps_onSlotOf ..) (keeps_refresh ..))

theorem outKeeps_streamTurn (s : State) (c i : Nat) (t : Tender) : OutKeeps s (streamTurn s c i t) := by
  unfold streamTurn
  dsimp only
  split
  · refine OutKeeps.next ?_
    exact keeps_tenderStops ..
  · refine OutKeeps.next ?_
    exact keeps_tenderEnds ..
  · split
    · refine OutKeeps.after ?_ (outKeeps_exec ..)
      exact .of_same rfl rfl rfl
    · refine OutKeeps.next ?_
      exact keeps_tenderStops ..

theorem outKeeps_tenderTurn (s : State) (c : Nat) : OutKeeps s (tenderTurn s c) := by
  unfold tenderTurn
  dsimp only
  split
  · refine OutKeeps.next ?_
    exact keeps_onCore ..
  · split
    · split
      · refine OutKeeps.after ?_ (outKeeps_streamTurn ..)
        exact keeps_onCore ..
      · refine OutKeeps.next ?_
        exact keeps_onCore ..
    · split
      · refine OutKeeps.after ?_ (outKeeps_exec ..)
        exact .of_same rfl rfl rfl
      · refine OutKeeps.next ?_
        exact keeps_onCore ..

theorem keeps_onCarriage (s : State) (n : SlotName) (f : Carriage → Carriage) : Keeps s (onCarriage s n f) := keeps_onSlotOf ..

theorem keeps_serialStep (s : State) (n : SlotName) : Keeps s (serialStep s n) := by
  unfold serialStep
  split
  · exact Keeps.refl _
  · split
    · exact Keeps.refl _
    · dsimp only
      split
      · exact Keeps.refl _
      · split
        · exact keeps_ite (.comp (keeps_onCarriage ..) (keeps_quiet (quiet_carriageDiscard ..))) (Keeps.refl _)
        · split
          · exact keeps_ite (.comp (keeps_onCarriage ..) (.of_same rfl rfl rfl)) (Keeps.refl _)
          · split
            · refine Keeps.mem (t := (carriageDiscard _ _ _)) ?_ rfl rfl rfl
              exact keeps_quiet (quiet_carriageDiscard ..)
            · exact Keeps.refl _

theorem keeps_serialSteps (s : State) : Keeps s (serialSteps s) := keeps_foldl (fun s x => keeps_unlessHeld _ _ (fun t => keeps_serialStep ..)) _ _

theorem keeps_earlyTurn (s : State) (a : Access) : Keeps s (earlyTurn s a) := keeps_ite (keeps_earlyLoad ..) (keeps_earlyStore ..)

theorem keeps_strikeUnit (s : State) (c : Nat) (standby : Bool) (u : StruckUnit) : Keeps s (strikeUnit s c standby u) := by
  unfold strikeUnit
  exact .comp (keeps_quiet (quiet_logEvent ..)) (keeps_ite (.of_same rfl rfl rfl) (keeps_onCore ..))

theorem outKeeps_turnBody (t : Turn) (s : State) : OutKeeps s (turnBody t s) := by
  unfold turnBody
  split
  · split
    · exact outKeeps_issueTurn ..
    · exact OutKeeps.next (Keeps.refl _)
  · split
    · exact outKeeps_tenderTurn ..
    · exact OutKeeps.next (Keeps.refl _)
  · split
    · exact OutKeeps.next (Keeps.refl _)
    · exact outKeeps_exec ..
  · exact OutKeeps.next (keeps_engineBeat ..)
  · exact OutKeeps.next (keeps_onAccess _ _ _ (fun u p => keeps_earlyTurn ..))
  · exact OutKeeps.next (keeps_onAccess _ _ _ (fun u p => keeps_performHalf ..))
  · refine OutKeeps.next ?_
    split
    · exact keeps_idleCycles ..
    · exact Keeps.refl _
  · exact OutKeeps.next (.of_same rfl rfl rfl)
  · refine OutKeeps.next ?_
    split
    · exact keeps_onCore ..
    · exact Keeps.refl _
  · exact OutKeeps.next (keeps_divSpill ..)
  · exact OutKeeps.next (keeps_fabricCycles ..)
  · refine OutKeeps.next ?_
    split
    · exact keeps_windowUse ..
    · exact Keeps.refl _
  · refine OutKeeps.next ?_
    split
    · exact keeps_onCore ..
    · exact Keeps.refl _
  · refine OutKeeps.next ?_
    split
    · exact keeps_abortCmd ..
    · exact Keeps.refl _
  · exact OutKeeps.next (keeps_regReads ..)
  · exact OutKeeps.next (keeps_quiet (quiet_placeWrite ..))
  · exact OutKeeps.next (.of_same rfl rfl rfl)
  · exact OutKeeps.next (keeps_loadContext ..)
  · exact OutKeeps.next (keeps_restorePage ..)
  · exact OutKeeps.next (keeps_stackFails ..)
  · exact OutKeeps.next (keeps_applyDamage ..)
  · refine OutKeeps.next ?_
    split
    · exact keeps_strikeUnit ..
    · exact Keeps.refl _

theorem keeps_turnHeld (t : Turn) (s : State) : Keeps s (turnHeld t s) := by
  unfold turnHeld
  split
  · exact keeps_issueHeld ..
  · exact keeps_onCore ..
  · exact Keeps.refl _

theorem keeps_turnStart (s : State) : Keeps s (turnStart s) := .of_same rfl rfl rfl

theorem outKeeps_takeTurn (t : Turn) (s : State) : OutKeeps s (takeTurn t s) := by
  unfold takeTurn
  have ho := OutKeeps.after (keeps_turnStart s) (outKeeps_turnBody t (turnStart s))
  dsimp only
  split
  · exact .next (keeps_ite (.comp (keeps_turnHeld ..) (keeps_turnStart ..)) (ho.keeps _ ‹_›))
  · exact ho

theorem keeps_settleAll (s : State) : Keeps s (settleAll s) := by
  refine Keeps.trans ((keeps_serialSteps s).trans (keeps_unlessHeld payOwed _ (fun t => keeps_quiet (quiet_payOwed ..))))
    (keeps_foldl (fun t p => ?_) _ _)
  extract_lets t1
  have h1 : Keeps t t1 := by
    unfold t1
    split
    · exact Keeps.refl t
    · exact keeps_unlessHeld _ _ (fun u => keeps_settleInv ..)
  split
  · exact h1
  · have h2 : Keeps t1 { t1 with cur := Issue.reset } := .of_same rfl rfl rfl
    exact (h1.trans h2).trans (keeps_resumeRest ..)

theorem outKeeps_stepTurn (s : State) : OutKeeps s (stepTurn s) := by
  have hs (t : Turn) (s : State) : OutKeeps s (mapNext settleAll (takeTurn t s)) := outKeeps_mapNext keeps_settleAll (outKeeps_takeTurn t s)
  unfold stepTurn
  split
  · rename_i t r _
    have h1 : Keeps s { s with agenda := r } := .of_same rfl rfl rfl
    exact .after h1 (hs ..)
  · exact hs ..


/-! ## A step -/

theorem outKeeps_step (s : State) : OutKeeps s (step s) := outKeeps_stepTurn ..

/-- Settles O58: every part of a step keeps the memories canonical, so a step does. -/
theorem memoryStaysCanonical : Obligations.MemoryStaysCanonical := by
  unfold Obligations.MemoryStaysCanonical
  intro s t hs h
  exact ((outKeeps_step s).keeps t h).canonical hs

end Sys2Proof.Proofs.Keep
end
